-- ==== Sys2Proof/Word.lean ====
section
/-! DEFINITION. The word types of the Ruelm and their plainest arithmetic (R6: bits number from 0 at the least significant end). -/
namespace Sys2Proof

/-- A byte of any memory space. -/
abbrev Byte := BitVec 8
/-- A 16-bit value: a predicate register, an f16 element. -/
abbrev Half := BitVec 16
/-- A 32-bit word: what a v register gives each fibre, an instruction word. -/
abbrev Word := BitVec 32
/-- A 64-bit word: a base register, an address. -/
abbrev DWord := BitVec 64

/-- A v register number (R59). -/
abbrev VReg := Fin 64
/-- A p register number (R59). -/
abbrev PReg := Fin 8
/-- A b register number (R59). -/
abbrev BReg := Fin 8
/-- An h register number (R59). -/
abbrev HReg := Fin 16
/-- A fibre index (R11). -/
abbrev Fibre := Fin 16

end Sys2Proof
end

