-- ==== Sys2Proof/Syntax.lean ====
section
/-! DEFINITION. The syntax of the Ruelm: the 220 instruction words (R58 to R71) and the 75 steps of its other agents
(spec/95_what_each_step_holds.md), with the payload types those steps carry. -/
namespace Sys2Proof

/-- A group: the team it belongs to and its slot (R213). -/
structure GRef where
  tid : Nat
  slot : Nat
  deriving DecidableEq, Repr, Inhabited

/-- A bin of a boarding unit: the continuations of one grid bound for one target (R294). -/
structure BinKey where
  ctx : Nat
  serial : Nat
  target : Nat
  deriving DecidableEq, Repr, Inhabited

/-- Whose held event is offered again when a manifest record reaches HEAD (R366): a group's instruction, an engine
operation, or the oldest held host launch of a context (R313). -/
inductive HeldBy where
  | group (g : GRef)
  | engine (op : Nat)
  | hostLaunch (ctx : Nat)
  deriving DecidableEq, Repr, Inhabited

/-- The header of a host message (R372): VER, LEN, SEQ, ACK, CTX and FLG bit 1. KIND is the message's constructor, FLG bit 0 is
set in replies, and STAT stands beside it there. -/
structure MsgHdr where
  ver : Nat
  len : Nat
  seq : Nat
  ack : Nat
  ctx : Nat
  secure : Bool
  deriving DecidableEq, Repr, Inhabited

/-- The header of a peer message (R372, R377): as a host message's, with the sending device. -/
structure PeerHdr where
  ver : Nat
  len : Nat
  seq : Nat
  ack : Nat
  dev : Nat
  ctx : Nat
  secure : Bool
  deriving DecidableEq, Repr, Inhabited

/-- A connection: the host's, or the one to package `dev` (R373). -/
inductive ConnId where
  | host
  | peer (dev : Nat)
  deriving DecidableEq, Repr, Inhabited

/-- Why a frame is discarded (R372, R373, R377). -/
inductive DiscardReason where
  | checkSequence
  | checksum
  | foreignSource
  deriving DecidableEq, Repr, Inhabited

/-- A virtual address of a context. -/
structure CtxAddr where
  ctx : Nat
  va : DWord
  deriving DecidableEq, Repr, Inhabited

/-- What a reply to a forwarded access brings (R348): STAT and its bytes. -/
structure Answer where
  stat : Nat
  data : List Byte
  deriving DecidableEq, Repr, Inhabited

/-- An `nred` contribution message (R378, KIND 34): 1 to 256 four-byte elements, and whether it is the contribution's last
(log entry 16). -/
structure Contribution where
  buf : DWord
  off : Nat
  op : Nat
  type : Nat
  last : Bool
  elems : List Word
  deriving DecidableEq, Repr, Inhabited

/-- A forwarded access's kind (R348, R378 KIND 35): a read of some bytes, a write, a write of the low or high nibble of a byte
(R165), a granule written poisoned (R147), or an atomic by its major and func bits 2:0 (R69), its TYPE, and its RND with FTZ at
bit 3. -/
inductive FwdKind where
  | read (size : Nat)
  | write
  | nibble (high : Bool)
  | spoil
  | atomic (major op type mode : Nat)
  deriving DecidableEq, Repr, Inhabited

/-- Where an error was found (R392). -/
inductive Place where
  | granule (addr : Nat)                 -- device memory or a dirty L2 line, by physical address
  | hostGranule (addr : Nat)             -- a dirty L2 line of a device-biased host page, by host physical address
  | scratch (tid addr : Nat)             -- a granule of a team's scratchpad window
  | cleanLine (addr : Nat)
  | cache (addr : Nat)                   -- brick, instruction or walker cache, translation directory
  | directory (addr : Nat)               -- the entry of the tile at this physical address
  | mark (tid block : Nat)               -- a scratchpad block mark
  | team (tid : Nat)                     -- registers, counts, tag or ring state, accumulator cells
  | ownAccess (ctx addr : Nat) (wr : Bool)   -- the device's access to save area, manifest, control blocks, queues
  deriving DecidableEq, Repr, Inhabited

/-- What the scrubber, or an access, found (R391, R392): nothing, a corrected error or an uncorrectable one, with the
SRC, LOC and syndrome of its record (R394) and the die whose ring takes it. -/
inductive Finding where
  | clean (addr : Nat)
  | corrected (die src loc : Nat) (addr : Nat) (syndrome : Word)
  | uncorrectable (die src loc : Nat) (at_ : Place) (syndrome : Word)
  deriving DecidableEq, Repr, Inhabited

/-- The indicators measured for one die at a wear update (R398): temperature, core supply, power, drift, margin,
stress count. -/
structure Measured where
  temp : BitVec 16
  vcore : BitVec 16
  pwr : Word
  rod : Nat
  vmm : Nat
  emc : Nat
  deriving DecidableEq, Repr, Inhabited

/-- What the bring-up sequence meets (R409): the strap pins, the FAIL code of the step that fails if one does, and the
2 MiB regions that the firmware makes secure for itself, which the manual does not name. -/
structure BringUp where
  bootsel : BitVec 2
  modaddr : BitVec 4
  fail : Option (Fin 7)
  regions : List Nat
  deriving DecidableEq, Repr, Inhabited


/-- One constructor per row of spec/opcode_table.json. A word constructor takes the switch marker `s` (bit 31, R58)
first, then its operands in the order d, a, b and immediates; a step of another agent takes what happened. The steps that
the package's own units come to stand directly after the words: compiled code can build no constructor beyond the 245th. -/
inductive Instr where
  /-- NOP: Does nothing. (R94) -/
  | nop (s : Bool)
  /-- ENDIF: Lowers the non-zero nesting count of each live fibre by one. (R90) -/
  | endif (s : Bool)
  /-- RET: Jumps to the word address in va when the guard is uniform. (R93) -/
  | ret (s : Bool) (a : VReg)
  /-- BRX: Jumps to the uniform word address held in va. (R93) -/
  | brx (s : Bool) (a : VReg)
  /-- EXIT: Ends each active, guard-passing fibre, and ends the group when no fibre is left live. (R94) -/
  | exit (s : Bool)
  /-- YIELD: Waits for pending results and then gives up the group's lane. (R94) -/
  | yieldG (s : Bool)
  /-- LAUNCH: Submits a 64-byte launch record and returns a token or a status pair. (R95) -/
  | launch (s : Bool) (d : VReg) (a : BReg) (b : VReg)
  /-- LWAIT: Parks the group until the grid named by a token retires, then returns a status. (R96) -/
  | lwait (s : Bool) (d : VReg) (a : VReg)
  /-- TRAP: Raises the software trap with immediate n. (R97) -/
  | trap (s : Bool) (n : BitVec 12)
  /-- TRET: Leaves privileged mode and resumes the group at sys.epc. (R98) -/
  | tret (s : Bool)
  /-- XSAVE: Stores save item k of the group or team into its frame. (R98) -/
  | xsave (s : Bool) (k : BitVec 6)
  /-- XRST: Loads save item k back from the frame, checking its check word. (R98) -/
  | xrst (s : Bool) (k : BitVec 6)
  /-- ESC: Raises the breakpoint trap with immediate n. (R97) -/
  | esc (s : Bool) (n : BitVec 12)
  /-- RQMV: Arrives at barrier 0 with a request to move register budget between groups of the team. (R99) -/
  | rqmv (s : Bool) (d : VReg) (a : VReg) (b : VReg)
  /-- BRA: Jumps by a signed word offset when the guard is uniform. (R93) -/
  | bra (s : Bool) (o : BitVec 24)
  /-- CALL: Writes the return address to v63 and jumps by a signed word offset. (R93) -/
  | call (s : Bool) (o : BitVec 24)
  /-- IF: Counts off the live fibres whose predicate bit is 0 and skips to the else or endif when none stays active. (R90) -/
  | ifP (s : Bool) (a : PReg) (i : BitVec 12)
  /-- ELSE: Swaps which fibres of the innermost if are counted off. (R90) -/
  | elseP (s : Bool) (i : BitVec 12)
  /-- LOOP: Opens a loop, raising the counts of counted-off fibres by two. (R91) -/
  | loop (s : Bool) (i : BitVec 12)
  /-- ENDLOOP: Counts on the fibres at count 1 and loops back, or leaves the loop when no fibre is active. (R91) -/
  | endloop (s : Bool) (i : BitVec 12)
  /-- BRK: Sets the active fibres whose predicate bit is 1 to count 2, so that they leave the loop. (R91) -/
  | brk (s : Bool) (a : PReg) (i : BitVec 12)
  /-- NEXT: Sets the active fibres whose predicate bit is 1 to count 1 until the next iteration. (R91) -/
  | nextP (s : Bool) (a : PReg) (i : BitVec 12)
  /-- MODE: Writes the whole mode register from va. (R100) -/
  | mode (s : Bool) (a : VReg)
  /-- GMODE: Reads md into vd. (R100) -/
  | gmode (s : Bool) (d : VReg)
  /-- GSHAPE: Reads a block of shape tags, or the budget and the words in use, into vd. (R100) -/
  | gshape (s : Bool) (d : VReg) (k : BitVec 6)
  /-- SHAPE: Re-tags a range of vector registers, converting their contents, within the register budget. (R101) -/
  | shape (s : Bool) (d : VReg) (l : VReg) (t : BitVec 2)
  /-- MODET: Writes md.TYPE, and optionally md.STYPE. (R71) -/
  | modet (s : Bool) (w : Bool) (u : BitVec 4) (t : BitVec 4)
  /-- MODER: Writes md.RND. (R71) -/
  | moder (s : Bool) (r : BitVec 3)
  /-- MODEG: Writes md.GINV and md.GPRED. (R71) -/
  | modeg (s : Bool) (g : Bool) (p : PReg)
  /-- MODEF: Writes md.SWZ, md.SAT and md.FTZ. (R71) -/
  | modef (s : Bool) (w : BitVec 2) (t : Bool) (z : Bool)
  /-- ADD: Typed integer addition. (R103) -/
  | add (s : Bool) (d : VReg) (a : VReg) (b : VReg)
  /-- SUB: Typed integer subtraction. (R103) -/
  | sub (s : Bool) (d : VReg) (a : VReg) (b : VReg)
  /-- MUL: Typed integer multiplication. (R103) -/
  | mul (s : Bool) (d : VReg) (a : VReg) (b : VReg)
  /-- MULH: High part of a typed integer product. (R103) -/
  | mulh (s : Bool) (d : VReg) (a : VReg) (b : VReg)
  /-- MAD: Typed integer multiply-add into d. (R103) -/
  | mad (s : Bool) (d : VReg) (a : VReg) (b : VReg)
  /-- MIN: Typed integer minimum. (R103) -/
  | min (s : Bool) (d : VReg) (a : VReg) (b : VReg)
  /-- MAX: Typed integer maximum. (R103) -/
  | max (s : Bool) (d : VReg) (a : VReg) (b : VReg)
  /-- ABS: Typed integer absolute value. (R103) -/
  | abs (s : Bool) (d : VReg) (a : VReg)
  /-- NEG: Typed integer negation. (R103) -/
  | neg (s : Bool) (d : VReg) (a : VReg)
  /-- AND: Bitwise AND. (R103) -/
  | and (s : Bool) (d : VReg) (a : VReg) (b : VReg)
  /-- OR: Bitwise OR. (R103) -/
  | or (s : Bool) (d : VReg) (a : VReg) (b : VReg)
  /-- XOR: Bitwise exclusive OR. (R103) -/
  | xor (s : Bool) (d : VReg) (a : VReg) (b : VReg)
  /-- NOT: Bitwise complement. (R103) -/
  | not (s : Bool) (d : VReg) (a : VReg)
  /-- SHL: Shift left by a register amount. (R103) -/
  | shl (s : Bool) (d : VReg) (a : VReg) (b : VReg)
  /-- SHR: Logical shift right by a register amount. (R103) -/
  | shr (s : Bool) (d : VReg) (a : VReg) (b : VReg)
  /-- SAR: Arithmetic shift right by a register amount. (R103) -/
  | sar (s : Bool) (d : VReg) (a : VReg) (b : VReg)
  /-- ROT: Rotate left. (R103) -/
  | rot (s : Bool) (d : VReg) (a : VReg) (b : VReg)
  /-- POPC: Count of one bits. (R103) -/
  | popc (s : Bool) (d : VReg) (a : VReg)
  /-- CLZ: Count of leading zeros. (R103) -/
  | clz (s : Bool) (d : VReg) (a : VReg)
  /-- BREV: Bit reversal. (R103) -/
  | brev (s : Bool) (d : VReg) (a : VReg)
  /-- BFX: Bit-field extract. (R103) -/
  | bfx (s : Bool) (d : VReg) (a : VReg) (b : VReg)
  /-- BFI: Bit-field insert into d. (R103) -/
  | bfi (s : Bool) (d : VReg) (a : VReg) (b : VReg)
  /-- SEL: Selects a or b for each fibre by its guard bit. (R105) -/
  | sel (s : Bool) (d : VReg) (a : VReg) (b : VReg)
  /-- MOV: Register copy. (R103) -/
  | mov (s : Bool) (d : VReg) (a : VReg)
  /-- CVT: Converts a value from md.STYPE to md.TYPE. (R107) -/
  | cvt (s : Bool) (d : VReg) (a : VReg)
  /-- CMP_EQ: Integer compare for equal into a predicate. (R103) -/
  | cmpEq (s : Bool) (d : PReg) (a : VReg) (b : VReg)
  /-- CMP_NE: Integer compare for not equal into a predicate. (R103) -/
  | cmpNe (s : Bool) (d : PReg) (a : VReg) (b : VReg)
  /-- CMP_LT: Integer compare for less than into a predicate. (R103) -/
  | cmpLt (s : Bool) (d : PReg) (a : VReg) (b : VReg)
  /-- CMP_LE: Integer compare for less or equal into a predicate. (R103) -/
  | cmpLe (s : Bool) (d : PReg) (a : VReg) (b : VReg)
  /-- CMP_GT: Integer compare for greater than into a predicate. (R103) -/
  | cmpGt (s : Bool) (d : PReg) (a : VReg) (b : VReg)
  /-- CMP_GE: Integer compare for greater or equal into a predicate. (R103) -/
  | cmpGe (s : Bool) (d : PReg) (a : VReg) (b : VReg)
  /-- ADDI: Typed addition of a sign-extended immediate. (R104) -/
  | addi (s : Bool) (d : VReg) (a : VReg) (i : BitVec 12)
  /-- ANDI: Bitwise AND with an immediate. (R104) -/
  | andi (s : Bool) (d : VReg) (a : VReg) (i : BitVec 12)
  /-- ORI: Bitwise OR with an immediate. (R104) -/
  | ori (s : Bool) (d : VReg) (a : VReg) (i : BitVec 12)
  /-- XORI: Bitwise exclusive OR with an immediate. (R104) -/
  | xori (s : Bool) (d : VReg) (a : VReg) (i : BitVec 12)
  /-- SHLI: Shift left by an immediate amount. (R104) -/
  | shli (s : Bool) (d : VReg) (a : VReg) (i : BitVec 12)
  /-- SHRI: Logical shift right by an immediate amount. (R104) -/
  | shri (s : Bool) (d : VReg) (a : VReg) (i : BitVec 12)
  /-- CMPI_EQ: Compares with an immediate for equal into a predicate. (R104) -/
  | cmpiEq (s : Bool) (d : PReg) (a : VReg) (i : BitVec 9)
  /-- CMPI_NE: Compares with an immediate for not equal into a predicate. (R104) -/
  | cmpiNe (s : Bool) (d : PReg) (a : VReg) (i : BitVec 9)
  /-- CMPI_LT: Compares with an immediate for less than into a predicate. (R104) -/
  | cmpiLt (s : Bool) (d : PReg) (a : VReg) (i : BitVec 9)
  /-- CMPI_LE: Compares with an immediate for less or equal into a predicate. (R104) -/
  | cmpiLe (s : Bool) (d : PReg) (a : VReg) (i : BitVec 9)
  /-- CMPI_GT: Compares with an immediate for greater than into a predicate. (R104) -/
  | cmpiGt (s : Bool) (d : PReg) (a : VReg) (i : BitVec 9)
  /-- CMPI_GE: Compares with an immediate for greater or equal into a predicate. (R104) -/
  | cmpiGe (s : Bool) (d : PReg) (a : VReg) (i : BitVec 9)
  /-- LI: Loads a sign-extended 18-bit immediate as a uniform value. (R104) -/
  | li (s : Bool) (d : VReg) (i : BitVec 18)
  /-- LHI: Sets bits 31:18 of the destination from an immediate. (R104) -/
  | lhi (s : Bool) (d : VReg) (i : BitVec 14)
  /-- BSET: Sets a base register from two 32-bit halves. (R108) -/
  | bset (s : Bool) (d : BReg) (a : VReg) (b : VReg)
  /-- BADD: Adds a sign-extended value to a base register. (R108) -/
  | badd (s : Bool) (d : BReg) (a : BReg) (b : VReg)
  /-- BMOV: Copies one base register to another. (R108) -/
  | bmov (s : Bool) (d : BReg) (a : BReg)
  /-- BMOV_V: Sets a base register from a sign-extended vector register. (R108) -/
  | bmovV (s : Bool) (d : BReg) (a : VReg)
  /-- BGET: Reads one half of a base register. (R108) -/
  | bget (s : Bool) (d : VReg) (a : BReg) (k : BitVec 6)
  /-- FADD: Float addition. (R109) -/
  | fadd (s : Bool) (d : VReg) (a : VReg) (b : VReg)
  /-- FSUB: Float subtraction. (R109) -/
  | fsub (s : Bool) (d : VReg) (a : VReg) (b : VReg)
  /-- FMUL: Float multiplication. (R109) -/
  | fmul (s : Bool) (d : VReg) (a : VReg) (b : VReg)
  /-- FFMA: Fused multiply-add into d with one rounding. (R109) -/
  | ffma (s : Bool) (d : VReg) (a : VReg) (b : VReg)
  /-- FMIN: IEEE minimum. (R110) -/
  | fmin (s : Bool) (d : VReg) (a : VReg) (b : VReg)
  /-- FMAX: IEEE maximum. (R110) -/
  | fmax (s : Bool) (d : VReg) (a : VReg) (b : VReg)
  /-- FMINN: minimumNumber. (R110) -/
  | fminn (s : Bool) (d : VReg) (a : VReg) (b : VReg)
  /-- FMAXN: maximumNumber. (R110) -/
  | fmaxn (s : Bool) (d : VReg) (a : VReg) (b : VReg)
  /-- FABS: Clears the sign bit. (R109) -/
  | fabs (s : Bool) (d : VReg) (a : VReg)
  /-- FNEG: Flips the sign bit. (R109) -/
  | fneg (s : Bool) (d : VReg) (a : VReg)
  /-- FCPYS: Magnitude of a with the sign of b. (R109) -/
  | fcpys (s : Bool) (d : VReg) (a : VReg) (b : VReg)
  /-- FRCP: Reciprocal, rounded once. (R111) -/
  | frcp (s : Bool) (d : VReg) (a : VReg)
  /-- FRSQ: Reciprocal square root, rounded once. (R111) -/
  | frsq (s : Bool) (d : VReg) (a : VReg)
  /-- FSQRT: Square root, rounded once. (R111) -/
  | fsqrt (s : Bool) (d : VReg) (a : VReg)
  /-- FEX2: Power of two, rounded once. (R111) -/
  | fex2 (s : Bool) (d : VReg) (a : VReg)
  /-- FLG2: Base-2 logarithm, rounded once. (R111) -/
  | flg2 (s : Bool) (d : VReg) (a : VReg)
  /-- FSIN: Sine of an argument in turns. (R111) -/
  | fsin (s : Bool) (d : VReg) (a : VReg)
  /-- FCOS: Cosine of an argument in turns. (R111) -/
  | fcos (s : Bool) (d : VReg) (a : VReg)
  /-- FDIV: Float division, rounded once. (R111) -/
  | fdiv (s : Bool) (d : VReg) (a : VReg) (b : VReg)
  /-- FCLS: Writes a one-hot class code of the value. (R112) -/
  | fcls (s : Bool) (d : VReg) (a : VReg)
  /-- FRND: Rounds to an integral value of the same type. (R113) -/
  | frnd (s : Bool) (d : VReg) (a : VReg)
  /-- FDOT2: Two-element f16 or bf16 dot product added into an f32 d. (R113) -/
  | fdot2 (s : Bool) (d : VReg) (a : VReg) (b : VReg)
  /-- FCMP_EQ: Float compare for equal into a predicate. (R112) -/
  | fcmpEq (s : Bool) (d : PReg) (a : VReg) (b : VReg)
  /-- FCMP_NE: Float compare for not equal into a predicate. (R112) -/
  | fcmpNe (s : Bool) (d : PReg) (a : VReg) (b : VReg)
  /-- FCMP_LT: Float compare for less than into a predicate. (R112) -/
  | fcmpLt (s : Bool) (d : PReg) (a : VReg) (b : VReg)
  /-- FCMP_LE: Float compare for less or equal into a predicate. (R112) -/
  | fcmpLe (s : Bool) (d : PReg) (a : VReg) (b : VReg)
  /-- FCMP_GT: Float compare for greater than into a predicate. (R112) -/
  | fcmpGt (s : Bool) (d : PReg) (a : VReg) (b : VReg)
  /-- FCMP_GE: Float compare for greater or equal into a predicate. (R112) -/
  | fcmpGe (s : Bool) (d : PReg) (a : VReg) (b : VReg)
  /-- FCMP_UN: Float compare for unordered into a predicate. (R112) -/
  | fcmpUn (s : Bool) (d : PReg) (a : VReg) (b : VReg)
  /-- PK: Converts and packs two elements into d. (R115) -/
  | pk (s : Bool) (d : VReg) (a : VReg) (b : VReg)
  /-- UPK: Extracts element j and widens it exactly. (R115) -/
  | upk (s : Bool) (d : VReg) (a : VReg) (j : BitVec 6)
  /-- QNT: Quantises a value into a narrow format under a block scale. (R116) -/
  | qnt (s : Bool) (d : VReg) (a : VReg) (b : VReg)
  /-- DQN: Dequantises a narrow element under a block scale. (R116) -/
  | dqn (s : Bool) (d : VReg) (a : VReg) (b : VReg)
  /-- DP4: Four-element byte dot product added into d. (R117) -/
  | dp4 (s : Bool) (d : VReg) (a : VReg) (b : VReg)
  /-- PAND: Predicate AND. (R118) -/
  | pand (s : Bool) (d : PReg) (a : PReg) (b : PReg)
  /-- POR: Predicate OR. (R118) -/
  | por (s : Bool) (d : PReg) (a : PReg) (b : PReg)
  /-- PXOR: Predicate exclusive OR. (R118) -/
  | pxor (s : Bool) (d : PReg) (a : PReg) (b : PReg)
  /-- PNOT: Predicate complement. (R118) -/
  | pnot (s : Bool) (d : PReg) (a : PReg)
  /-- PMOV: Copies all 16 bits of a predicate, whatever the masks. (R118) -/
  | pmov (s : Bool) (d : PReg) (a : PReg)
  /-- PANY: OR of a predicate over the active fibres. (R118) -/
  | pany (s : Bool) (d : PReg) (a : PReg)
  /-- PALL: AND of a predicate over the active fibres. (R118) -/
  | pall (s : Bool) (d : PReg) (a : PReg)
  /-- PCNT: Counts the active fibres whose predicate bit is set. (R118) -/
  | pcnt (s : Bool) (d : VReg) (a : PReg)
  /-- BALLOT: Writes a predicate, masked by the active fibres, into a register. (R118) -/
  | ballot (s : Bool) (d : VReg) (a : PReg)
  /-- SHFL: Reads va from an indexed fibre. (R119) -/
  | shfl (s : Bool) (d : VReg) (a : VReg) (b : VReg)
  /-- SHFX: Reads va from the fibre at f XOR vb. (R119) -/
  | shfx (s : Bool) (d : VReg) (a : VReg) (b : VReg)
  /-- BCST: Broadcasts one fibre's va as a uniform value. (R119) -/
  | bcst (s : Bool) (d : VReg) (a : VReg) (b : VReg)
  /-- REDG_ADD: Group sum reduction. (R121) -/
  | redgAdd (s : Bool) (d : VReg) (a : VReg)
  /-- REDG_MIN: Group minimum reduction. (R121) -/
  | redgMin (s : Bool) (d : VReg) (a : VReg)
  /-- REDG_MAX: Group maximum reduction. (R121) -/
  | redgMax (s : Bool) (d : VReg) (a : VReg)
  /-- REDG_AND: Group bitwise AND reduction. (R121) -/
  | redgAnd (s : Bool) (d : VReg) (a : VReg)
  /-- REDG_OR: Group bitwise OR reduction. (R121) -/
  | redgOr (s : Bool) (d : VReg) (a : VReg)
  /-- REDG_XOR: Group bitwise exclusive-OR reduction. (R121) -/
  | redgXor (s : Bool) (d : VReg) (a : VReg)
  /-- REDG_ARGMIN: Group reduction to the least value-index pair under wins. (R122) -/
  | redgArgmin (s : Bool) (d : VReg) (a : VReg)
  /-- REDG_ARGMAX: Group reduction to the greatest value-index pair under wins. (R122) -/
  | redgArgmax (s : Bool) (d : VReg) (a : VReg)
  /-- SCAN_ADD: Inclusive group prefix sum. (R123) -/
  | scanAdd (s : Bool) (d : VReg) (a : VReg)
  /-- SCAN_MIN: Inclusive group prefix minimum. (R123) -/
  | scanMin (s : Bool) (d : VReg) (a : VReg)
  /-- SCAN_MAX: Inclusive group prefix maximum. (R123) -/
  | scanMax (s : Bool) (d : VReg) (a : VReg)
  /-- RNG: Delivers the next random draw of each fibre and advances its draw index. (R125) -/
  | rng (s : Bool) (d : VReg)
  /-- RNGJ: Jumps each fibre's draw index ahead by 2^k. (R125) -/
  | rngj (s : Bool) (a : VReg)
  /-- RNGS: Sets each fibre's draw index from a register pair. (R125) -/
  | rngs (s : Bool) (a : VReg)
  /-- CLK: Reads the group's retired-instruction count. (R126) -/
  | clk (s : Bool) (d : VReg)
  /-- GID: Reports a team or global fibre identifier. (R127) -/
  | gid (s : Bool) (d : VReg) (k : BitVec 6)
  /-- RDSYS: Reads a system register. (R128) -/
  | rdsys (s : Bool) (d : VReg) (n : BitVec 12)
  /-- WRSYS: Writes a system register. (R128) -/
  | wrsys (s : Bool) (a : VReg) (n : BitVec 12)
  /-- LD: Loads an element from global memory. (R136) -/
  | ld (s : Bool) (d : VReg) (a : VReg) (b : BReg) (n : BitVec 9)
  /-- ST: Stores an element to global memory. (R137) -/
  | st (s : Bool) (d : VReg) (a : VReg) (b : BReg) (n : BitVec 9)
  /-- LDX: Loads an element from scratchpad. (R136) -/
  | ldx (s : Bool) (d : VReg) (a : VReg) (n : BitVec 12)
  /-- STX: Stores an element to scratchpad. (R137) -/
  | stx (s : Bool) (d : VReg) (a : VReg) (n : BitVec 12)
  /-- LDC: Loads an element from constant space. (R136) -/
  | ldc (s : Bool) (d : VReg) (a : VReg) (n : BitVec 12)
  /-- PREF: Requests a line into the package L2. (R136) -/
  | pref (s : Bool) (a : VReg) (b : BReg) (n : BitVec 9)
  /-- LCK: Pins an L2 line and returns a status. (R139) -/
  | lck (s : Bool) (d : VReg) (a : VReg) (b : BReg)
  /-- ULK: Unpins an L2 line. (R139) -/
  | ulk (s : Bool) (a : VReg) (b : BReg)
  /-- FENCE_PKG: Waits until the group's earlier accesses are performed at package scope. (R140) -/
  | fencePkg (s : Bool)
  /-- FENCE_HOST: Waits until the group's earlier accesses are performed at host-domain scope. (R140) -/
  | fenceHost (s : Bool)
  /-- FENCE_SYS: Waits until the group's earlier accesses are performed at system scope. (R140) -/
  | fenceSys (s : Bool)
  /-- AADD: Atomic addition, returning the old word. (R142) -/
  | aadd (s : Bool) (n : BReg) (d : VReg) (a : VReg) (b : VReg)
  /-- AMIN: Atomic integer minimum. (R142) -/
  | amin (s : Bool) (n : BReg) (d : VReg) (a : VReg) (b : VReg)
  /-- AMAX: Atomic integer maximum. (R142) -/
  | amax (s : Bool) (n : BReg) (d : VReg) (a : VReg) (b : VReg)
  /-- AAND: Atomic AND. (R142) -/
  | aand (s : Bool) (n : BReg) (d : VReg) (a : VReg) (b : VReg)
  /-- AOR: Atomic OR. (R142) -/
  | aor (s : Bool) (n : BReg) (d : VReg) (a : VReg) (b : VReg)
  /-- AXOR: Atomic exclusive OR. (R142) -/
  | axor (s : Bool) (n : BReg) (d : VReg) (a : VReg) (b : VReg)
  /-- AXCH: Atomic exchange. (R142) -/
  | axch (s : Bool) (n : BReg) (d : VReg) (a : VReg) (b : VReg)
  /-- ACAS: Atomic compare-and-swap against vd. (R142) -/
  | acas (s : Bool) (n : BReg) (d : VReg) (a : VReg) (b : VReg)
  /-- AFADD: Atomic f32 addition. (R143) -/
  | afadd (s : Bool) (n : BReg) (d : VReg) (a : VReg) (b : VReg)
  /-- AFMIN: Atomic f32 minimum. (R143) -/
  | afmin (s : Bool) (n : BReg) (d : VReg) (a : VReg) (b : VReg)
  /-- AFMAX: Atomic f32 maximum. (R143) -/
  | afmax (s : Bool) (n : BReg) (d : VReg) (a : VReg) (b : VReg)
  /-- AMINX: Atomic minimum of an 8-byte value-index pair under wins. (R144) -/
  | aminx (s : Bool) (n : BReg) (d : VReg) (a : VReg) (b : VReg)
  /-- AMAXX: Atomic maximum of an 8-byte value-index pair under wins. (R144) -/
  | amaxx (s : Bool) (n : BReg) (d : VReg) (a : VReg) (b : VReg)
  /-- CPY: Starts a copy of rows between global memory and scratchpad. (R150) -/
  | cpy (s : Bool) (d : BReg) (a : VReg) (b : VReg)
  /-- CPYT: Starts a copy of a tensor box to or from scratchpad. (R151) -/
  | cpyt (s : Bool) (d : HReg) (a : VReg) (b : VReg)
  /-- CPYG: Starts a gather of indexed tensor rows into scratchpad. (R152) -/
  | cpyg (s : Bool) (d : HReg) (a : VReg) (b : VReg)
  /-- CPYS: Starts a scatter of scratchpad rows to indexed tensor rows. (R152) -/
  | cpys (s : Bool) (d : HReg) (a : VReg) (b : VReg)
  /-- WAITANY: Waits until some named tag is clear and returns the lowest such tag. (R148) -/
  | waitany (s : Bool) (d : VReg) (a : VReg)
  /-- WAITALL: Waits until every named tag is clear. (R148) -/
  | waitall (s : Bool) (a : VReg)
  /-- TAGFFR: Returns the lowest named tag that is clear, without waiting. (R148) -/
  | tagffr (s : Bool) (d : VReg) (a : VReg)
  /-- TAGCLR: Clears the error bit and reason of the named tags. (R148) -/
  | tagclr (s : Bool) (a : VReg)
  /-- TAGGT: Reads tag pending bits, error bits or a reason code. (R148) -/
  | taggt (s : Bool) (d : VReg) (a : VReg) (k : BitVec 6)
  /-- RPUT: Publishes the head slot of a ring, or releases its oldest taken slot. (R154) -/
  | rput (s : Bool) (d : VReg) (a : VReg) (b : VReg)
  /-- RTAKE: Waits for and takes the tail slot of a ring. (R154) -/
  | rtake (s : Bool) (d : VReg) (a : VReg)
  /-- RPEEK: Reads a ring slot's address word or its slot counts. (R154) -/
  | rpeek (s : Bool) (d : VReg) (a : VReg) (b : VReg)
  /-- BAR: Arrives at a team barrier and waits for the generation to complete. (R157) -/
  | bar (s : Bool) (a : VReg) (b : VReg)
  /-- BARV: Arrives at a convoy barrier and waits. (R157) -/
  | barv (s : Bool) (a : VReg)
  /-- ARRV: Arrives at a team barrier without waiting. (R157) -/
  | arrv (s : Bool) (a : VReg) (b : VReg)
  /-- HLD: Loads a 64-byte handle from memory. (R163) -/
  | hld (s : Bool) (d : HReg) (a : VReg) (b : BReg)
  /-- HST: Stores a 64-byte handle to memory. (R163) -/
  | hst (s : Bool) (d : HReg) (a : VReg) (b : BReg)
  /-- HSET: Writes one word of a handle. (R163) -/
  | hset (s : Bool) (d : HReg) (a : VReg) (b : VReg)
  /-- HGET: Reads one word of a handle. (R163) -/
  | hget (s : Bool) (d : VReg) (a : HReg) (b : VReg)
  /-- HCHK: Returns the first validity failure of a handle. (R162) -/
  | hchk (s : Bool) (d : VReg) (a : HReg)
  /-- TLD: Loads a tensor element by its index tuple, with a status. (R165) -/
  | tld (s : Bool) (d : VReg) (a : HReg) (b : VReg)
  /-- TST: Stores a tensor element by its index tuple, with a status. (R165) -/
  | tst (s : Bool) (d : VReg) (a : HReg) (b : VReg)
  /-- NZS: Lists the non-zero positions of a scratchpad vector. (R166) -/
  | nzs (s : Bool) (d : VReg) (a : VReg) (b : VReg)
  /-- LODLD: Reads a level-of-detail word, falling back to coarser levels and posting the wanted page. (R167) -/
  | lodld (s : Bool) (d : VReg) (a : VReg) (b : BReg)
  /-- LODQ: Queries the level available for a position, without reading data or posting. (R167) -/
  | lodq (s : Bool) (d : VReg) (a : VReg) (b : BReg)
  /-- NPUT: Starts a copy of local bytes to a remote address. (R170) -/
  | nput (s : Bool) (d : BReg) (a : VReg) (b : VReg)
  /-- NGET: Starts a copy of remote bytes to a local address. (R170) -/
  | nget (s : Bool) (d : BReg) (a : VReg) (b : VReg)
  /-- NRED_ADD: Sends a vector as an add contribution to a remote reduction. (R171) -/
  | nredAdd (s : Bool) (d : BReg) (a : VReg) (b : VReg)
  /-- NRED_MIN: Sends a vector as a min contribution to a remote reduction. (R171) -/
  | nredMin (s : Bool) (d : BReg) (a : VReg) (b : VReg)
  /-- NRED_MAX: Sends a vector as a max contribution to a remote reduction. (R171) -/
  | nredMax (s : Bool) (d : BReg) (a : VReg) (b : VReg)
  /-- GANG: Sets the gang register after checking its member list. (R179) -/
  | gang (s : Bool) (a : VReg)
  /-- FMTB: Checks a format block in scratchpad. (R178) -/
  | fmtb (s : Bool) (d : VReg) (a : VReg)
  /-- MMA: Starts a matrix multiply-accumulate, alone or jointly with its gang. (R181) -/
  | mma (s : Bool) (d : VReg) (a : VReg) (b : VReg)
  /-- ACLR: Clears an accumulator tile. (R191) -/
  | aclr (s : Bool) (d : VReg) (b : VReg)
  /-- ALD: Loads an accumulator tile from scratchpad. (R191) -/
  | ald (s : Bool) (d : VReg) (a : VReg) (b : VReg)
  /-- AST: Converts an accumulator tile into scratchpad. (R192) -/
  | ast (s : Bool) (d : VReg) (a : VReg) (b : VReg)
  /-- AMOV: Copies an accumulator tile. (R191) -/
  | amov (s : Bool) (d : VReg) (a : VReg) (b : VReg)
  /-- ADRN: Starts a drain-add of an accumulator tile into a destination tile. (R193) -/
  | adrn (s : Bool) (d : VReg) (a : VReg) (b : VReg)
  /-- ADEXP: Scales each accumulator row by an f32 factor. (R191) -/
  | adexp (s : Bool) (d : VReg) (a : VReg) (b : VReg)
  /-- TDQ: Reads a tile directory mark. (R188) -/
  | tdq (s : Bool) (d : VReg) (a : HReg) (b : VReg)
  /-- TDSET: Fills tiles with one element code and sets their marks. (R189) -/
  | tdset (s : Bool) (d : HReg) (a : VReg) (b : VReg)
  /-- BCL: Starts loading a box of bricks into the brick cache. (R195) -/
  | bcl (s : Bool) (d : BReg) (a : VReg) (b : VReg)
  /-- PRN: Starts pruning a field program against a box. (R196) -/
  | prn (s : Bool) (a : VReg) (b : VReg)
  /-- MRCH: Submits one ray per fibre to the marcher. (R197) -/
  | mrch (s : Bool) (d : VReg) (a : VReg) (b : VReg)
  /-- MRES: Reads each fibre's march record. (R199) -/
  | mres (s : Bool) (d : VReg) (a : VReg)
  /-- BSMP: Samples distance and gradient from bricks, with level fallback. (R200) -/
  | bsmp (s : Bool) (d : VReg) (a : VReg) (b : BReg)
  /-- TRACE: Retires each fibre and hands its ray to the intersection unit. (R202) -/
  | trace (s : Bool) (d : VReg) (a : VReg) (b : BReg)
  /-- RAST: Starts primary visibility for one screen tile. (R205) -/
  | rast (s : Bool) (a : VReg) (b : VReg)
  /-- HITQ: Reads a field of each fibre's arrival record. (R206) -/
  | hitq (s : Bool) (d : VReg) (k : BitVec 6)
  /-- SPAWN: Retires each fibre and sends its payload to a continuation target without a ray. (R204) -/
  | spawn (s : Bool) (a : VReg) (b : VReg)
  /-- PAYL: Reads a word of the arrival's ray. (R207) -/
  | payl (s : Bool) (d : VReg) (k : BitVec 6)
  /-- DPT: Performs an indivisible depth test on a scratchpad depth pair. (R208) -/
  | dpt (s : Bool) (d : VReg) (a : VReg) (b : VReg)
  /-- ILLEGAL_WORD: A word that is not an instruction raises illegal at its own boundary. (R73) -/
  | illegalWord (sub : Nat) (w : Word)
  /-- EXTENSION: A word of an extension major whose feature bit is clear raises extension for emulation. (R74) -/
  | extensionWord (w : Word)
  /-- MMA_COMPLETION: A matrix operation finishes and raises its flags in each member's sys.flags. (R183) -/
  | mmaCompletion (core : Nat)
  /-- COPY_COMPLETION: A copy operation completes, clearing its tag and acting on its ring slot. (R155) -/
  | copyCompletion (op : Nat)
  /-- NPUT_COMPLETION: An nput completes on the acknowledgement of its last line. (R170) -/
  | nputCompletion (op : Nat)
  /-- NGET_COMPLETION: An nget completes when its last line has arrived. (R170) -/
  | ngetCompletion (op : Nat)
  /-- NRED_COMPLETION: An nred completes when the target has accepted the contribution into staging. (R171) -/
  | nredCompletion (op : Nat)
  /-- NRED_RETRY: A sender retries a contribution that was not accepted, after 4,096 clocks. (R379) -/
  | nredRetry (op : Nat)
  /-- ADRN_DRAIN_APPLY: A held drain is applied to its destination tile in generation and member order. (R194) -/
  | adrnDrainApply (op : Nat)
  /-- BCL_COMPLETION: The bricks of a bcl box are placed in the brick cache and its tag clears. (R195) -/
  | bclCompletion (op : Nat)
  /-- PRN_COMPLETION: The pruning pass writes its status word and output program. (R271) -/
  | prnCompletion (op : Nat)
  /-- RAY_MARCH_END: A marched ray ends and its 16-byte record is written. (R262) -/
  | rayMarchEnd (op : Nat) (f : Fibre)
  /-- TRAVERSAL_END: A traversal ends in one continuation to its hit, miss, error or callable target. (R288) -/
  | traversalEnd (ray : Nat)
  /-- BOARDING_IDLE_TIMEOUT: No continuation has arrived for 512 clocks, so a group is due from the fullest bin. (R294) -/
  | boardingIdleTimeout (core : Nat)
  /-- BOARDING_GROUP_FORMATION: The boarding unit forms a continuation group from up to 16 continuations of one bin. (R294) -/
  | boardingGroupFormation (core : Nat) (bin : BinKey)
  /-- RAST_COMPLETION: After every triangle is offered, rast forms its quad fragments and completes. (R292) -/
  | rastCompletion (op : Nat)
  /-- CONVOY_MEMBER_START: A convoy member starts on a distinct core of its die as soon as it fits. (R321) -/
  | convoyMemberStart (convoy : Nat)
  /-- SAVE_END: The save ends: the scratchpad window and marks are written to the frame and the team's resources are freed. (R335) -/
  | saveEnd (tid : Nat)
  /-- GRID_RETIREMENT: A grid retires once its teams, continuations, engine operations and children have ended. (R221) -/
  | gridRetirement (ctx serial : Nat)
  /-- REPLAY_MATCH: A held event whose record reaches HEAD is compared and performed. (R366) -/
  | replayMatch (who : HeldBy)
  /-- FLIP_COMPLETION: A bias flip's drain ends and its completion is sent. (R248) -/
  | flipCompletion (ctx : Nat) (page : DWord)
  /-- RESET_RELEASE: The release of RESET_N starts the bring-up sequence. (R409) -/
  | resetRelease (b : BringUp)
  /-- GROUP_PROMOTION: A pending group that has been ready for 4,096 clocks is promoted into the active set. (R227) -/
  | groupPromotion (g : GRef)
  /-- RESULT_RETURN: A returning instruction's register result is written, releasing a group parked at a marker. (R61) -/
  | resultReturn (g : GRef)
  /-- TRAP_ENTRY: A group takes a trap at the boundary, records the cause and enters the save routine privileged. (R327) -/
  | trapEntry (g : GRef)
  /-- PLACEMENT_DECISION: The scheduler makes one placement decision per clock. (R318) -/
  | placementDecision
  /-- PREEMPT_TAKE: A group takes preempt at its next boundary and enters the save routine. (R332) -/
  | preemptTake (g : GRef)
  /-- PRIORITY_AGEING: An eligible launch's effective priority rises by one after each 2^20 clocks, up to the ceiling. (R316) -/
  | priorityAgeing (ctx serial : Nat)
  /-- MANIFEST_STALL: A manifest wait reaches the STALL limit and manifest-stall is raised. (R365) -/
  | manifestStall (ctx : Nat)
  /-- WALKER_FILL: A table walker fills a core's cache and adds it as a sharer, or restarts when its mark was cleared. (R357) -/
  | walkerFill (core : Nat) (a : CtxAddr)
  /-- PAGE_MIGRATION: The migration copy engine freezes, copies and switches a host page into device memory. (R352) -/
  | pageMigration (ctx : Nat) (page : DWord) (frame : Nat) (bad : Option Nat)
  /-- FLIPREQ_REPLY: The host's reply to FLIPREQ lets the device take its flip point. (R376) -/
  | flipreqReply (h : MsgHdr) (page : CtxAddr)
  /-- HOST_LINE_REPLY: The host's reply to LREAD, LWRITE or LATOM completes the forwarded access. (R348) -/
  | hostLineReply (h : MsgHdr) (req : Nat) (x : Answer)
  /-- LAUNCH_MESSAGE: A host launch message is taken and answered with a token or status. (R309) -/
  | launchMessage (h : MsgHdr) (record : List Byte)
  /-- WOPEN: The host opens or closes a window onto a context's virtual memory. (R374) -/
  | wopen (h : MsgHdr) (win : Nat) (base : DWord) (units : Nat)
  /-- WREAD: The host reads bytes through a window, as one translated line read. (R375) -/
  | wread (h : MsgHdr) (win off len : Nat)
  /-- WWRITE: The host writes bytes through a window, as one translated line write. (R375) -/
  | wwrite (h : MsgHdr) (win off : Nat) (data : List Byte)
  /-- FLIP: The host requests a change of one page's bias. (R248) -/
  | flip (h : MsgHdr) (page : DWord) (toHost : Bool)
  /-- DRAIN: The host drains manifest records or wanted-page entries and advances TAIL. (R374) -/
  | drain (h : MsgHdr) (ring max : Nat)
  /-- SUPPLY: The host supplies manifest records for replay and advances TAIL. (R374) -/
  | supply (h : MsgHdr) (records : List (List Byte))
  /-- UNKNOWN_MESSAGE: A message of unknown kind or bad layout is answered with STAT 0xFFFF. (R374) -/
  | unknownMessage (h : MsgHdr) (kind : Nat)
  /-- FRAME_DISCARD: A frame failing its check sequence or checksum, or from a foreign source, is discarded. (R372) -/
  | frameDiscard (why : DiscardReason)
  /-- RETRANSMIT_TIMEOUT: After 100 µs without progress, a sender retransmits from the oldest unacknowledged message. (R373) -/
  | retransmitTimeout (conn : ConnId)
  /-- CONNECTION_DOWN: After 16 retransmissions without progress, a connection goes down and its waiters fail. (R373) -/
  | connectionDown (conn : ConnId)
  /-- PPUT: A peer writes nput bytes at a virtual address of this package. (R378) -/
  | pput (h : PeerHdr) (addr : DWord) (data : List Byte)
  /-- PGET: A peer reads bytes of this package for its nget. (R378) -/
  | pget (h : PeerHdr) (addr : DWord) (len : Nat)
  /-- PRED: A peer's nred contribution is accepted into staging, folded or refused. (R379) -/
  | pred (h : PeerHdr) (c : Contribution)
  /-- PFWD: A peer's forwarded line access is performed here. (R378) -/
  | pfwd (h : PeerHdr) (addr : DWord) (kind : FwdKind) (data : List Byte)
  /-- PEER_RESERVED_KIND: A peer message of a reserved kind is discarded. (R378) -/
  | peerReservedKind (h : PeerHdr) (kind : Nat)
  /-- PEER_REPLY: A peer's reply completes a forwarded access or an engine chunk. (R378) -/
  | peerReply (h : PeerHdr) (req : Nat) (x : Answer)
  /-- CREATE: Creates a context from its descriptor and L0 root, or refuses it. (R308) -/
  | create (h : MsgHdr) (ctx world : Nat) (pad : BitVec 48) (root : DWord) (desc : List Byte)
  /-- DESTROY: Destroys a resident context with the effects of context loss. (R402) -/
  | destroy (h : MsgHdr) (ctx : Nat)
  /-- JOBSET: Writes the device index, NDEV and the job's IPv6 prefix. (R377) -/
  | jobset (h : MsgHdr) (index ndev : Nat) (pre : DWord)
  /-- MIGSET: Writes the migration control register MIGCTL. (R350) -/
  | migset (h : MsgHdr) (val : Word)
  /-- DISC: Returns discovery register words. (R395) -/
  | disc (h : MsgHdr) (first count : Nat)
  /-- ERRDRAIN: Drains records from one die's error ring. (R394) -/
  | errdrain (h : MsgHdr) (die count : Nat)
  /-- EVDRAIN: Drains records from the event ring. (R402) -/
  | evdrain (h : MsgHdr) (count : Nat)
  /-- HEALTH: Returns the health and wear indicators of one die. (R398) -/
  | health (h : MsgHdr) (die : Nat)
  /-- CERT: Returns bytes of the identity certificate. (R404) -/
  | cert (h : MsgHdr) (off len : Nat)
  /-- QUOTE: Returns a signed quote of the measurement registers over a nonce. (R405) -/
  | quote (h : MsgHdr) (nonce : List Byte)
  /-- WORLDB: Changes the world of a core or peer port, clearing the core's SRAM. (R401) -/
  | worldb (h : MsgHdr) (kind idx world : Nat)
  /-- WORLDR: Changes the world of a run of 2 MiB regions, zeroing them. (R401) -/
  | worldr (h : MsgHdr) (first count world : Nat)
  /-- FWLOAD: Writes part of a firmware image into the staging buffer. (R402) -/
  | fwload (h : MsgHdr) (off : Nat) (data : List Byte)
  /-- FWCOMMIT: Checks the staged firmware image and stores it for the next reset. (R403) -/
  | fwcommit (h : MsgHdr)
  /-- REPAIR: Adds a unit to the soft-fuse map, disabling it from the next reset. (R397) -/
  | repair (h : MsgHdr) (kind idx : Nat)
  /-- PWRLIM: Sets the module power limit. (R402) -/
  | pwrlim (h : MsgHdr) (watts : Nat)
  /-- MGMT_UNKNOWN_OP: A management operation with an unknown OP is answered with STAT 1. (R402) -/
  | mgmtUnknownOp (h : MsgHdr) (op : Nat)
  /-- SCRUB: The scrubber visits a granule or line and rewrites it when its read was corrected. (R391) -/
  | scrub (find : Finding)
  /-- WEAR_UPDATE: Each power-on hour, the wear indicators and EOL are updated. (R399) -/
  | wearUpdate (die : Nat) (m : Measured)
  /-- THROTTLE_BEGIN: A junction reaches 100 °C or power exceeds its limit, so the clock is lowered and THERM_N driven low. (R408) -/
  | throttleBegin
  /-- THROTTLE_END: The throttling condition clears and the clock is restored. (R408) -/
  | throttleEnd
  /-- THERMAL_TRIP: At 110 °C the module stops and drives TRIP_N low. (R408) -/
  | thermalTrip
  /-- RESET_ASSERT: RESET_N low resets the whole module. (R407) -/
  | resetAssert
  /-- LOGICAL_CLOCK_ADVANCE: Each core's logical clock advances by at least 1 in every 64 clocks, even when no access moves it. (R239) -/
  | logicalClockAdvance (core : Nat)
  /-- POWER_FAULT: VIN leaves 46 V to 56 V or a rail leaves its limits, so PWRGD falls, which counts as a job-interrupting power fault. (R407) -/
  | powerFault
  deriving DecidableEq, Repr

end Sys2Proof
end

