-- ==== Sys2Proof/WellFormed.lean ====
section
/-! DEFINITION. When an instruction is one that a word can encode: pairs start at an even register (R59) and a value in
an instruction's own sub-field is not a reserved one (R71, R73). -/
namespace Sys2Proof

/-- The system registers of R26, by number. -/
def sysRegs : List Nat :=
  [0x000, 0x001, 0x002, 0x003, 0x004, 0x005, 0x006, 0x007, 0x008, 0x009, 0x00A, 0x00B, 0x00C, 0x00D, 0x010, 0x011,
   0x012, 0x020, 0x021, 0x022, 0x023, 0x024, 0x025, 0x026, 0x027, 0x028, 0x040]

/-- A number in the table of R26. -/
def isSysReg (n : Nat) : Bool := sysRegs.contains n

/-- An item of the table of R98. -/
def isItem (k : Nat) : Bool := k ≤ 10 || (16 ≤ k && k ≤ 18) || (32 ≤ k && k ≤ 63)

/-- The first register of a pair (R59). -/
def evenReg (r : VReg) : Bool := r.val % 2 == 0

/-- An instruction that some word encodes, or a step of another agent. -/
def wellFormed (i : Instr) : Bool :=
  match i with

  | .nop _ => true
  | .endif _ => true
  | .ret _ _ => true
  | .brx _ _ => true
  | .exit _ => true
  | .yieldG _ => true
  | .launch _ d _ _ => evenReg d
  | .lwait _ _ a => evenReg a
  | .trap _ _ => true
  | .tret _ => true
  | .xsave _ k => isItem k.toNat
  | .xrst _ k => isItem k.toNat
  | .esc _ _ => true
  | .rqmv _ _ _ _ => true
  | .bra _ _ => true
  | .call _ _ => true
  | .ifP _ _ _ => true
  | .elseP _ _ => true
  | .loop _ _ => true
  | .endloop _ _ => true
  | .brk _ _ _ => true
  | .nextP _ _ _ => true
  | .mode _ _ => true
  | .gmode _ _ => true
  | .gshape _ _ k => k.toNat < 5
  | .shape _ d l t => t.toNat < 3 && d.val ≤ l.val
  | .modet _ _ _ _ => true
  | .moder _ _ => true
  | .modeg _ _ _ => true
  | .modef _ _ _ _ => true
  | .add _ _ _ _ => true
  | .sub _ _ _ _ => true
  | .mul _ _ _ _ => true
  | .mulh _ _ _ _ => true
  | .mad _ _ _ _ => true
  | .min _ _ _ _ => true
  | .max _ _ _ _ => true
  | .abs _ _ _ => true
  | .neg _ _ _ => true
  | .and _ _ _ _ => true
  | .or _ _ _ _ => true
  | .xor _ _ _ _ => true
  | .not _ _ _ => true
  | .shl _ _ _ _ => true
  | .shr _ _ _ _ => true
  | .sar _ _ _ _ => true
  | .rot _ _ _ _ => true
  | .popc _ _ _ => true
  | .clz _ _ _ => true
  | .brev _ _ _ => true
  | .bfx _ _ _ _ => true
  | .bfi _ _ _ _ => true
  | .sel _ _ _ _ => true
  | .mov _ _ _ => true
  | .cvt _ _ _ => true
  | .cmpEq _ _ _ _ => true
  | .cmpNe _ _ _ _ => true
  | .cmpLt _ _ _ _ => true
  | .cmpLe _ _ _ _ => true
  | .cmpGt _ _ _ _ => true
  | .cmpGe _ _ _ _ => true
  | .addi _ _ _ _ => true
  | .andi _ _ _ _ => true
  | .ori _ _ _ _ => true
  | .xori _ _ _ _ => true
  | .shli _ _ _ i => i.toNat < 32
  | .shri _ _ _ i => i.toNat < 32
  | .cmpiEq _ _ _ _ => true
  | .cmpiNe _ _ _ _ => true
  | .cmpiLt _ _ _ _ => true
  | .cmpiLe _ _ _ _ => true
  | .cmpiGt _ _ _ _ => true
  | .cmpiGe _ _ _ _ => true
  | .li _ _ _ => true
  | .lhi _ _ _ => true
  | .bset _ _ _ _ => true
  | .badd _ _ _ _ => true
  | .bmov _ _ _ => true
  | .bmovV _ _ _ => true
  | .bget _ _ _ k => k.toNat < 2
  | .fadd _ _ _ _ => true
  | .fsub _ _ _ _ => true
  | .fmul _ _ _ _ => true
  | .ffma _ _ _ _ => true
  | .fmin _ _ _ _ => true
  | .fmax _ _ _ _ => true
  | .fminn _ _ _ _ => true
  | .fmaxn _ _ _ _ => true
  | .fabs _ _ _ => true
  | .fneg _ _ _ => true
  | .fcpys _ _ _ _ => true
  | .frcp _ _ _ => true
  | .frsq _ _ _ => true
  | .fsqrt _ _ _ => true
  | .fex2 _ _ _ => true
  | .flg2 _ _ _ => true
  | .fsin _ _ _ => true
  | .fcos _ _ _ => true
  | .fdiv _ _ _ _ => true
  | .fcls _ _ _ => true
  | .frnd _ _ _ => true
  | .fdot2 _ _ _ _ => true
  | .fcmpEq _ _ _ _ => true
  | .fcmpNe _ _ _ _ => true
  | .fcmpLt _ _ _ _ => true
  | .fcmpLe _ _ _ _ => true
  | .fcmpGt _ _ _ _ => true
  | .fcmpGe _ _ _ _ => true
  | .fcmpUn _ _ _ _ => true
  | .pk _ _ _ _ => true
  | .upk _ _ _ j => j.toNat ≤ 7
  | .qnt _ _ _ _ => true
  | .dqn _ _ _ _ => true
  | .dp4 _ _ _ _ => true
  | .pand _ _ _ _ => true
  | .por _ _ _ _ => true
  | .pxor _ _ _ _ => true
  | .pnot _ _ _ => true
  | .pmov _ _ _ => true
  | .pany _ _ _ => true
  | .pall _ _ _ => true
  | .pcnt _ _ _ => true
  | .ballot _ _ _ => true
  | .shfl _ _ _ _ => true
  | .shfx _ _ _ _ => true
  | .bcst _ _ _ _ => true
  | .redgAdd _ _ _ => true
  | .redgMin _ _ _ => true
  | .redgMax _ _ _ => true
  | .redgAnd _ _ _ => true
  | .redgOr _ _ _ => true
  | .redgXor _ _ _ => true
  | .redgArgmin _ d a => evenReg d && evenReg a
  | .redgArgmax _ d a => evenReg d && evenReg a
  | .scanAdd _ _ _ => true
  | .scanMin _ _ _ => true
  | .scanMax _ _ _ => true
  | .rng _ _ => true
  | .rngj _ _ => true
  | .rngs _ a => evenReg a
  | .clk _ d => evenReg d
  | .gid _ _ k => k.toNat < 4
  | .rdsys _ _ n => isSysReg n.toNat
  | .wrsys _ _ n => isSysReg n.toNat
  | .ld _ _ _ _ _ => true
  | .st _ _ _ _ _ => true
  | .ldx _ _ _ _ => true
  | .stx _ _ _ _ => true
  | .ldc _ _ _ _ => true
  | .pref _ _ _ _ => true
  | .lck _ _ _ _ => true
  | .ulk _ _ _ => true
  | .fencePkg _ => true
  | .fenceHost _ => true
  | .fenceSys _ => true
  | .aadd _ _ _ _ _ => true
  | .amin _ _ _ _ _ => true
  | .amax _ _ _ _ _ => true
  | .aand _ _ _ _ _ => true
  | .aor _ _ _ _ _ => true
  | .axor _ _ _ _ _ => true
  | .axch _ _ _ _ _ => true
  | .acas _ _ _ _ _ => true
  | .afadd _ _ _ _ _ => true
  | .afmin _ _ _ _ _ => true
  | .afmax _ _ _ _ _ => true
  | .aminx _ _ d _ b => evenReg d && evenReg b
  | .amaxx _ _ d _ b => evenReg d && evenReg b
  | .cpy _ _ _ _ => true
  | .cpyt _ _ _ b => evenReg b
  | .cpyg _ _ _ _ => true
  | .cpys _ _ _ _ => true
  | .waitany _ _ a => evenReg a
  | .waitall _ a => evenReg a
  | .tagffr _ _ a => evenReg a
  | .tagclr _ a => evenReg a
  | .taggt _ _ a k => k.toNat < 5 && (k.toNat == 4 || a.val == 0)
  | .rput _ _ _ _ => true
  | .rtake _ _ _ => true
  | .rpeek _ _ _ _ => true
  | .bar _ _ _ => true
  | .barv _ _ => true
  | .arrv _ _ _ => true
  | .hld _ _ _ _ => true
  | .hst _ _ _ _ => true
  | .hset _ _ _ _ => true
  | .hget _ _ _ _ => true
  | .hchk _ _ _ => true
  | .tld _ d _ _ => evenReg d
  | .tst _ d _ _ => evenReg d
  | .nzs _ _ a _ => evenReg a
  | .lodld _ d _ _ => evenReg d
  | .lodq _ d _ _ => evenReg d
  | .nput _ _ _ b => evenReg b
  | .nget _ _ _ b => evenReg b
  | .nredAdd _ _ _ b => evenReg b
  | .nredMin _ _ _ b => evenReg b
  | .nredMax _ _ _ b => evenReg b
  | .gang _ a => evenReg a
  | .fmtb _ _ _ => true
  | .mma _ _ a b => evenReg a && evenReg b
  | .aclr _ _ _ => true
  | .ald _ _ _ _ => true
  | .ast _ _ _ _ => true
  | .amov _ _ _ _ => true
  | .adrn _ _ _ b => evenReg b
  | .adexp _ _ _ _ => true
  | .tdq _ d _ _ => evenReg d
  | .tdset _ _ a _ => evenReg a
  | .bcl _ _ _ _ => true
  | .prn _ _ _ => true
  | .mrch _ _ _ b => evenReg b
  | .mres _ d _ => evenReg d
  | .bsmp _ _ _ _ => true
  | .trace _ _ _ _ => true
  | .rast _ _ _ => true
  | .hitq _ _ k => k.toNat < 9
  | .spawn _ _ _ => true
  | .payl _ _ k => k.toNat < 11
  | .dpt _ d _ b => evenReg d && evenReg b
  | .illegalWord _ _ => true
  | .extensionWord _ => true
  | .resultReturn _ => true
  | .groupPromotion _ => true
  | .mmaCompletion _ => true
  | .copyCompletion _ => true
  | .nputCompletion _ => true
  | .ngetCompletion _ => true
  | .nredCompletion _ => true
  | .nredRetry _ => true
  | .adrnDrainApply _ => true
  | .bclCompletion _ => true
  | .prnCompletion _ => true
  | .rayMarchEnd _ _ => true
  | .traversalEnd _ => true
  | .boardingIdleTimeout _ => true
  | .boardingGroupFormation _ _ => true
  | .rastCompletion _ => true
  | .trapEntry _ => true
  | .placementDecision => true
  | .convoyMemberStart _ => true
  | .preemptTake _ => true
  | .saveEnd _ => true
  | .priorityAgeing _ _ => true
  | .gridRetirement _ _ => true
  | .replayMatch _ => true
  | .manifestStall _ => true
  | .walkerFill _ _ => true
  | .pageMigration _ _ _ _ => true
  | .flipreqReply _ _ => true
  | .flipCompletion _ _ => true
  | .hostLineReply _ _ _ => true
  | .launchMessage _ _ => true
  | .wopen _ _ _ _ => true
  | .wread _ _ _ _ => true
  | .wwrite _ _ _ _ => true
  | .flip _ _ _ => true
  | .drain _ _ _ => true
  | .supply _ _ => true
  | .unknownMessage _ _ => true
  | .frameDiscard _ => true
  | .retransmitTimeout _ => true
  | .connectionDown _ => true
  | .pput _ _ _ => true
  | .pget _ _ _ => true
  | .pred _ _ => true
  | .pfwd _ _ _ _ => true
  | .peerReservedKind _ _ => true
  | .peerReply _ _ _ => true
  | .create _ _ _ _ _ _ => true
  | .destroy _ _ => true
  | .jobset _ _ _ _ => true
  | .migset _ _ => true
  | .disc _ _ _ => true
  | .errdrain _ _ _ => true
  | .evdrain _ _ => true
  | .health _ _ => true
  | .cert _ _ _ => true
  | .quote _ _ => true
  | .worldb _ _ _ _ => true
  | .worldr _ _ _ _ => true
  | .fwload _ _ _ => true
  | .fwcommit _ => true
  | .repair _ _ _ => true
  | .pwrlim _ _ => true
  | .mgmtUnknownOp _ _ => true
  | .scrub _ => true
  | .wearUpdate _ _ => true
  | .throttleBegin => true
  | .throttleEnd => true
  | .thermalTrip => true
  | .resetAssert => true
  | .resetRelease _ => true
  | .logicalClockAdvance _ => true
  | .powerFault => true

end Sys2Proof
end

