-- ==== Sys2Proof/Decode.lean ====
section
/-! DEFINITION. Instruction words: the decoder, total on every word and refusing by name (R58 to R74), and the encoder. -/
namespace Sys2Proof

/-- Why a word is not an instruction: `illegal` with its sub-code (R73), or `extension` (R74). -/
inductive DecodeError where
  | illegal (sub : Nat)
  | extension
  deriving DecidableEq, Repr

/-- The `n` bits of `w` from bit `lo` up. -/
def fld (w : Word) (lo n : Nat) : Nat := w.toNat / 2 ^ lo % 2 ^ n

/-- The switch marker (R58). -/
def sb (w : Word) : Bool := fld w 31 1 == 1

/-- A v register by number. -/
def vr (n : Nat) : VReg := Fin.ofNat 64 n
/-- A p register by number. -/
def pr (n : Nat) : PReg := Fin.ofNat 8 n
/-- A b register by number. -/
def br (n : Nat) : BReg := Fin.ofNat 8 n
/-- An h register by number. -/
def hr (n : Nat) : HReg := Fin.ofNat 16 n

/-- The checks of R73 on a word: an unused field not zero, a register beyond its file, an odd pair, a reserved value.
The lowest sub-code is reported. -/
def chk (unused beyond odd reserved : Bool) (i : Instr) : Except DecodeError Instr :=
  if unused then .error (.illegal 1)
  else if beyond then .error (.illegal 2)
  else if odd then .error (.illegal 4)
  else if reserved then .error (.illegal 5)
  else .ok i

/-- A word of format RRR (R58). -/
def rrr (s : Bool) (major func d a b : Nat) : Word :=
  .ofNat 32 (s.toNat * 2 ^ 31 + major * 2 ^ 24 + func * 2 ^ 18 + d * 2 ^ 12 + a * 2 ^ 6 + b)

/-- A word of format RRI (R58). -/
def rri (s : Bool) (major d a imm : Nat) : Word :=
  .ofNat 32 (s.toNat * 2 ^ 31 + major * 2 ^ 24 + d * 2 ^ 18 + a * 2 ^ 12 + imm)

/-- A word of format J (R58). -/
def jfm (s : Bool) (major off : Nat) : Word :=
  .ofNat 32 (s.toNat * 2 ^ 31 + major * 2 ^ 24 + off)

/-- Major 0x00 by its func (R67 to R70). -/
def decodeControl (w : Word) : Except DecodeError Instr :=
  match fld w 18 6 with
  | 1 => chk (fld w 0 18 != 0) false false false
      (.nop (sb w))
  | 2 => chk (fld w 0 18 != 0) false false false
      (.endif (sb w))
  | 3 => chk (fld w 0 6 != 0 || fld w 12 6 != 0) false false false
      (.ret (sb w) (vr (fld w 6 6)))
  | 4 => chk (fld w 0 6 != 0 || fld w 12 6 != 0) false false false
      (.brx (sb w) (vr (fld w 6 6)))
  | 5 => chk (fld w 0 18 != 0) false false false
      (.exit (sb w))
  | 6 => chk (fld w 0 18 != 0) false false false
      (.yieldG (sb w))
  | 7 => chk false (fld w 6 6 ≥ 8) (fld w 12 6 % 2 == 1) false
      (.launch (sb w) (vr (fld w 12 6)) (br (fld w 6 6)) (vr (fld w 0 6)))
  | 8 => chk (fld w 0 6 != 0) false (fld w 6 6 % 2 == 1) false
      (.lwait (sb w) (vr (fld w 12 6)) (vr (fld w 6 6)))
  | 9 => chk (fld w 12 6 != 0) false false false
      (.trap (sb w) (.ofNat 12 (fld w 0 12)))
  | 10 => chk (fld w 0 18 != 0) false false false
      (.tret (sb w))
  | 11 => chk (fld w 6 12 != 0) false false (!isItem (fld w 0 6))
      (.xsave (sb w) (.ofNat 6 (fld w 0 6)))
  | 12 => chk (fld w 6 12 != 0) false false (!isItem (fld w 0 6))
      (.xrst (sb w) (.ofNat 6 (fld w 0 6)))
  | 13 => chk (fld w 12 6 != 0) false false false
      (.esc (sb w) (.ofNat 12 (fld w 0 12)))
  | 14 => .ok (.rqmv (sb w) (vr (fld w 12 6)) (vr (fld w 6 6)) (vr (fld w 0 6)))
  | _ => .error (.illegal 0)

/-- Major 0x09 by its func (R67 to R70). -/
def decodeMode (w : Word) : Except DecodeError Instr :=
  match fld w 18 6 with
  | 0 => chk (fld w 0 6 != 0 || fld w 12 6 != 0) false false false
      (.mode (sb w) (vr (fld w 6 6)))
  | 1 => chk (fld w 0 12 != 0) false false false
      (.gmode (sb w) (vr (fld w 12 6)))
  | 2 => chk (fld w 6 6 != 0) false false (fld w 0 6 ≥ 5)
      (.gshape (sb w) (vr (fld w 12 6)) (.ofNat 6 (fld w 0 6)))
  | _ => .error (.illegal 0)

/-- Major 0x10 by its func (R67 to R70). -/
def decodeInteger (w : Word) : Except DecodeError Instr :=
  match fld w 18 6 with
  | 0 => .ok (.add (sb w) (vr (fld w 12 6)) (vr (fld w 6 6)) (vr (fld w 0 6)))
  | 1 => .ok (.sub (sb w) (vr (fld w 12 6)) (vr (fld w 6 6)) (vr (fld w 0 6)))
  | 2 => .ok (.mul (sb w) (vr (fld w 12 6)) (vr (fld w 6 6)) (vr (fld w 0 6)))
  | 3 => .ok (.mulh (sb w) (vr (fld w 12 6)) (vr (fld w 6 6)) (vr (fld w 0 6)))
  | 4 => .ok (.mad (sb w) (vr (fld w 12 6)) (vr (fld w 6 6)) (vr (fld w 0 6)))
  | 5 => .ok (.min (sb w) (vr (fld w 12 6)) (vr (fld w 6 6)) (vr (fld w 0 6)))
  | 6 => .ok (.max (sb w) (vr (fld w 12 6)) (vr (fld w 6 6)) (vr (fld w 0 6)))
  | 7 => chk (fld w 0 6 != 0) false false false
      (.abs (sb w) (vr (fld w 12 6)) (vr (fld w 6 6)))
  | 8 => chk (fld w 0 6 != 0) false false false
      (.neg (sb w) (vr (fld w 12 6)) (vr (fld w 6 6)))
  | 9 => .ok (.and (sb w) (vr (fld w 12 6)) (vr (fld w 6 6)) (vr (fld w 0 6)))
  | 10 => .ok (.or (sb w) (vr (fld w 12 6)) (vr (fld w 6 6)) (vr (fld w 0 6)))
  | 11 => .ok (.xor (sb w) (vr (fld w 12 6)) (vr (fld w 6 6)) (vr (fld w 0 6)))
  | 12 => chk (fld w 0 6 != 0) false false false
      (.not (sb w) (vr (fld w 12 6)) (vr (fld w 6 6)))
  | 13 => .ok (.shl (sb w) (vr (fld w 12 6)) (vr (fld w 6 6)) (vr (fld w 0 6)))
  | 14 => .ok (.shr (sb w) (vr (fld w 12 6)) (vr (fld w 6 6)) (vr (fld w 0 6)))
  | 15 => .ok (.sar (sb w) (vr (fld w 12 6)) (vr (fld w 6 6)) (vr (fld w 0 6)))
  | 16 => .ok (.rot (sb w) (vr (fld w 12 6)) (vr (fld w 6 6)) (vr (fld w 0 6)))
  | 17 => chk (fld w 0 6 != 0) false false false
      (.popc (sb w) (vr (fld w 12 6)) (vr (fld w 6 6)))
  | 18 => chk (fld w 0 6 != 0) false false false
      (.clz (sb w) (vr (fld w 12 6)) (vr (fld w 6 6)))
  | 19 => chk (fld w 0 6 != 0) false false false
      (.brev (sb w) (vr (fld w 12 6)) (vr (fld w 6 6)))
  | 20 => .ok (.bfx (sb w) (vr (fld w 12 6)) (vr (fld w 6 6)) (vr (fld w 0 6)))
  | 21 => .ok (.bfi (sb w) (vr (fld w 12 6)) (vr (fld w 6 6)) (vr (fld w 0 6)))
  | 22 => .ok (.sel (sb w) (vr (fld w 12 6)) (vr (fld w 6 6)) (vr (fld w 0 6)))
  | 23 => chk (fld w 0 6 != 0) false false false
      (.mov (sb w) (vr (fld w 12 6)) (vr (fld w 6 6)))
  | 24 => chk (fld w 0 6 != 0) false false false
      (.cvt (sb w) (vr (fld w 12 6)) (vr (fld w 6 6)))
  | 32 => chk false (fld w 12 6 ≥ 8) false false
      (.cmpEq (sb w) (pr (fld w 12 6)) (vr (fld w 6 6)) (vr (fld w 0 6)))
  | 33 => chk false (fld w 12 6 ≥ 8) false false
      (.cmpNe (sb w) (pr (fld w 12 6)) (vr (fld w 6 6)) (vr (fld w 0 6)))
  | 34 => chk false (fld w 12 6 ≥ 8) false false
      (.cmpLt (sb w) (pr (fld w 12 6)) (vr (fld w 6 6)) (vr (fld w 0 6)))
  | 35 => chk false (fld w 12 6 ≥ 8) false false
      (.cmpLe (sb w) (pr (fld w 12 6)) (vr (fld w 6 6)) (vr (fld w 0 6)))
  | 36 => chk false (fld w 12 6 ≥ 8) false false
      (.cmpGt (sb w) (pr (fld w 12 6)) (vr (fld w 6 6)) (vr (fld w 0 6)))
  | 37 => chk false (fld w 12 6 ≥ 8) false false
      (.cmpGe (sb w) (pr (fld w 12 6)) (vr (fld w 6 6)) (vr (fld w 0 6)))
  | _ => .error (.illegal 0)

/-- Major 0x1A by its func (R67 to R70). DESIGN CHOICE (log entry 100): a `bmov` whose b is neither 0 nor 1 gives a no register file, so
only the reserved sub-field is reported, 5 (R73). -/
def decodeBase (w : Word) : Except DecodeError Instr :=
  match fld w 18 6 with
  | 0 => chk false (fld w 12 6 ≥ 8) false false
      (.bset (sb w) (br (fld w 12 6)) (vr (fld w 6 6)) (vr (fld w 0 6)))
  | 1 => chk false (fld w 12 6 ≥ 8 || fld w 6 6 ≥ 8) false false
      (.badd (sb w) (br (fld w 12 6)) (br (fld w 6 6)) (vr (fld w 0 6)))
  | 2 => match fld w 0 6 with
    | 0 => chk false (fld w 12 6 ≥ 8 || fld w 6 6 ≥ 8) false false
      (.bmov (sb w) (br (fld w 12 6)) (br (fld w 6 6)))
    | 1 => chk false (fld w 12 6 ≥ 8) false false
      (.bmovV (sb w) (br (fld w 12 6)) (vr (fld w 6 6)))
    | _ => .error (.illegal (if fld w 12 6 ≥ 8 then 2 else 5))
  | 3 => chk false (fld w 6 6 ≥ 8) false (fld w 0 6 ≥ 2)
      (.bget (sb w) (vr (fld w 12 6)) (br (fld w 6 6)) (.ofNat 6 (fld w 0 6)))
  | _ => .error (.illegal 0)

/-- Major 0x20 by its func (R67 to R70). -/
def decodeFloat (w : Word) : Except DecodeError Instr :=
  match fld w 18 6 with
  | 0 => .ok (.fadd (sb w) (vr (fld w 12 6)) (vr (fld w 6 6)) (vr (fld w 0 6)))
  | 1 => .ok (.fsub (sb w) (vr (fld w 12 6)) (vr (fld w 6 6)) (vr (fld w 0 6)))
  | 2 => .ok (.fmul (sb w) (vr (fld w 12 6)) (vr (fld w 6 6)) (vr (fld w 0 6)))
  | 3 => .ok (.ffma (sb w) (vr (fld w 12 6)) (vr (fld w 6 6)) (vr (fld w 0 6)))
  | 4 => .ok (.fmin (sb w) (vr (fld w 12 6)) (vr (fld w 6 6)) (vr (fld w 0 6)))
  | 5 => .ok (.fmax (sb w) (vr (fld w 12 6)) (vr (fld w 6 6)) (vr (fld w 0 6)))
  | 6 => .ok (.fminn (sb w) (vr (fld w 12 6)) (vr (fld w 6 6)) (vr (fld w 0 6)))
  | 7 => .ok (.fmaxn (sb w) (vr (fld w 12 6)) (vr (fld w 6 6)) (vr (fld w 0 6)))
  | 8 => chk (fld w 0 6 != 0) false false false
      (.fabs (sb w) (vr (fld w 12 6)) (vr (fld w 6 6)))
  | 9 => chk (fld w 0 6 != 0) false false false
      (.fneg (sb w) (vr (fld w 12 6)) (vr (fld w 6 6)))
  | 10 => .ok (.fcpys (sb w) (vr (fld w 12 6)) (vr (fld w 6 6)) (vr (fld w 0 6)))
  | 11 => chk (fld w 0 6 != 0) false false false
      (.frcp (sb w) (vr (fld w 12 6)) (vr (fld w 6 6)))
  | 12 => chk (fld w 0 6 != 0) false false false
      (.frsq (sb w) (vr (fld w 12 6)) (vr (fld w 6 6)))
  | 13 => chk (fld w 0 6 != 0) false false false
      (.fsqrt (sb w) (vr (fld w 12 6)) (vr (fld w 6 6)))
  | 14 => chk (fld w 0 6 != 0) false false false
      (.fex2 (sb w) (vr (fld w 12 6)) (vr (fld w 6 6)))
  | 15 => chk (fld w 0 6 != 0) false false false
      (.flg2 (sb w) (vr (fld w 12 6)) (vr (fld w 6 6)))
  | 16 => chk (fld w 0 6 != 0) false false false
      (.fsin (sb w) (vr (fld w 12 6)) (vr (fld w 6 6)))
  | 17 => chk (fld w 0 6 != 0) false false false
      (.fcos (sb w) (vr (fld w 12 6)) (vr (fld w 6 6)))
  | 18 => .ok (.fdiv (sb w) (vr (fld w 12 6)) (vr (fld w 6 6)) (vr (fld w 0 6)))
  | 19 => chk (fld w 0 6 != 0) false false false
      (.fcls (sb w) (vr (fld w 12 6)) (vr (fld w 6 6)))
  | 20 => chk (fld w 0 6 != 0) false false false
      (.frnd (sb w) (vr (fld w 12 6)) (vr (fld w 6 6)))
  | 21 => .ok (.fdot2 (sb w) (vr (fld w 12 6)) (vr (fld w 6 6)) (vr (fld w 0 6)))
  | 32 => chk false (fld w 12 6 ≥ 8) false false
      (.fcmpEq (sb w) (pr (fld w 12 6)) (vr (fld w 6 6)) (vr (fld w 0 6)))
  | 33 => chk false (fld w 12 6 ≥ 8) false false
      (.fcmpNe (sb w) (pr (fld w 12 6)) (vr (fld w 6 6)) (vr (fld w 0 6)))
  | 34 => chk false (fld w 12 6 ≥ 8) false false
      (.fcmpLt (sb w) (pr (fld w 12 6)) (vr (fld w 6 6)) (vr (fld w 0 6)))
  | 35 => chk false (fld w 12 6 ≥ 8) false false
      (.fcmpLe (sb w) (pr (fld w 12 6)) (vr (fld w 6 6)) (vr (fld w 0 6)))
  | 36 => chk false (fld w 12 6 ≥ 8) false false
      (.fcmpGt (sb w) (pr (fld w 12 6)) (vr (fld w 6 6)) (vr (fld w 0 6)))
  | 37 => chk false (fld w 12 6 ≥ 8) false false
      (.fcmpGe (sb w) (pr (fld w 12 6)) (vr (fld w 6 6)) (vr (fld w 0 6)))
  | 38 => chk false (fld w 12 6 ≥ 8) false false
      (.fcmpUn (sb w) (pr (fld w 12 6)) (vr (fld w 6 6)) (vr (fld w 0 6)))
  | _ => .error (.illegal 0)

/-- Major 0x21 by its func (R67 to R70). -/
def decodeNarrow (w : Word) : Except DecodeError Instr :=
  match fld w 18 6 with
  | 0 => .ok (.pk (sb w) (vr (fld w 12 6)) (vr (fld w 6 6)) (vr (fld w 0 6)))
  | 1 => chk false false false (fld w 0 6 > 7)
      (.upk (sb w) (vr (fld w 12 6)) (vr (fld w 6 6)) (.ofNat 6 (fld w 0 6)))
  | 2 => .ok (.qnt (sb w) (vr (fld w 12 6)) (vr (fld w 6 6)) (vr (fld w 0 6)))
  | 3 => .ok (.dqn (sb w) (vr (fld w 12 6)) (vr (fld w 6 6)) (vr (fld w 0 6)))
  | 4 => .ok (.dp4 (sb w) (vr (fld w 12 6)) (vr (fld w 6 6)) (vr (fld w 0 6)))
  | _ => .error (.illegal 0)

/-- Major 0x22 by its func (R67 to R70). -/
def decodePred (w : Word) : Except DecodeError Instr :=
  match fld w 18 6 with
  | 0 => chk false (fld w 12 6 ≥ 8 || fld w 6 6 ≥ 8 || fld w 0 6 ≥ 8) false false
      (.pand (sb w) (pr (fld w 12 6)) (pr (fld w 6 6)) (pr (fld w 0 6)))
  | 1 => chk false (fld w 12 6 ≥ 8 || fld w 6 6 ≥ 8 || fld w 0 6 ≥ 8) false false
      (.por (sb w) (pr (fld w 12 6)) (pr (fld w 6 6)) (pr (fld w 0 6)))
  | 2 => chk false (fld w 12 6 ≥ 8 || fld w 6 6 ≥ 8 || fld w 0 6 ≥ 8) false false
      (.pxor (sb w) (pr (fld w 12 6)) (pr (fld w 6 6)) (pr (fld w 0 6)))
  | 3 => chk (fld w 0 6 != 0) (fld w 12 6 ≥ 8 || fld w 6 6 ≥ 8) false false
      (.pnot (sb w) (pr (fld w 12 6)) (pr (fld w 6 6)))
  | 4 => chk (fld w 0 6 != 0) (fld w 12 6 ≥ 8 || fld w 6 6 ≥ 8) false false
      (.pmov (sb w) (pr (fld w 12 6)) (pr (fld w 6 6)))
  | 5 => chk (fld w 0 6 != 0) (fld w 12 6 ≥ 8 || fld w 6 6 ≥ 8) false false
      (.pany (sb w) (pr (fld w 12 6)) (pr (fld w 6 6)))
  | 6 => chk (fld w 0 6 != 0) (fld w 12 6 ≥ 8 || fld w 6 6 ≥ 8) false false
      (.pall (sb w) (pr (fld w 12 6)) (pr (fld w 6 6)))
  | 7 => chk (fld w 0 6 != 0) (fld w 6 6 ≥ 8) false false
      (.pcnt (sb w) (vr (fld w 12 6)) (pr (fld w 6 6)))
  | 8 => chk (fld w 0 6 != 0) (fld w 6 6 ≥ 8) false false
      (.ballot (sb w) (vr (fld w 12 6)) (pr (fld w 6 6)))
  | _ => .error (.illegal 0)

/-- Major 0x23 by its func (R67 to R70). -/
def decodeCross (w : Word) : Except DecodeError Instr :=
  match fld w 18 6 with
  | 0 => .ok (.shfl (sb w) (vr (fld w 12 6)) (vr (fld w 6 6)) (vr (fld w 0 6)))
  | 1 => .ok (.shfx (sb w) (vr (fld w 12 6)) (vr (fld w 6 6)) (vr (fld w 0 6)))
  | 2 => .ok (.bcst (sb w) (vr (fld w 12 6)) (vr (fld w 6 6)) (vr (fld w 0 6)))
  | 8 => chk (fld w 0 6 != 0) false false false
      (.redgAdd (sb w) (vr (fld w 12 6)) (vr (fld w 6 6)))
  | 9 => chk (fld w 0 6 != 0) false false false
      (.redgMin (sb w) (vr (fld w 12 6)) (vr (fld w 6 6)))
  | 10 => chk (fld w 0 6 != 0) false false false
      (.redgMax (sb w) (vr (fld w 12 6)) (vr (fld w 6 6)))
  | 11 => chk (fld w 0 6 != 0) false false false
      (.redgAnd (sb w) (vr (fld w 12 6)) (vr (fld w 6 6)))
  | 12 => chk (fld w 0 6 != 0) false false false
      (.redgOr (sb w) (vr (fld w 12 6)) (vr (fld w 6 6)))
  | 13 => chk (fld w 0 6 != 0) false false false
      (.redgXor (sb w) (vr (fld w 12 6)) (vr (fld w 6 6)))
  | 14 => chk (fld w 0 6 != 0) false (fld w 12 6 % 2 == 1 || fld w 6 6 % 2 == 1) false
      (.redgArgmin (sb w) (vr (fld w 12 6)) (vr (fld w 6 6)))
  | 15 => chk (fld w 0 6 != 0) false (fld w 12 6 % 2 == 1 || fld w 6 6 % 2 == 1) false
      (.redgArgmax (sb w) (vr (fld w 12 6)) (vr (fld w 6 6)))
  | 16 => chk (fld w 0 6 != 0) false false false
      (.scanAdd (sb w) (vr (fld w 12 6)) (vr (fld w 6 6)))
  | 17 => chk (fld w 0 6 != 0) false false false
      (.scanMin (sb w) (vr (fld w 12 6)) (vr (fld w 6 6)))
  | 18 => chk (fld w 0 6 != 0) false false false
      (.scanMax (sb w) (vr (fld w 12 6)) (vr (fld w 6 6)))
  | _ => .error (.illegal 0)

/-- Major 0x24 by its func (R67 to R70). -/
def decodeRandom (w : Word) : Except DecodeError Instr :=
  match fld w 18 6 with
  | 0 => chk (fld w 0 12 != 0) false false false
      (.rng (sb w) (vr (fld w 12 6)))
  | 1 => chk (fld w 0 6 != 0 || fld w 12 6 != 0) false false false
      (.rngj (sb w) (vr (fld w 6 6)))
  | 2 => chk (fld w 0 6 != 0 || fld w 12 6 != 0) false (fld w 6 6 % 2 == 1) false
      (.rngs (sb w) (vr (fld w 6 6)))
  | 3 => chk (fld w 0 12 != 0) false (fld w 12 6 % 2 == 1) false
      (.clk (sb w) (vr (fld w 12 6)))
  | 4 => chk (fld w 6 6 != 0) false false (fld w 0 6 ≥ 4)
      (.gid (sb w) (vr (fld w 12 6)) (.ofNat 6 (fld w 0 6)))
  | _ => .error (.illegal 0)

/-- Major 0x36 by its func (R67 to R70). -/
def decodePin (w : Word) : Except DecodeError Instr :=
  match fld w 18 6 with
  | 0 => chk false (fld w 0 6 ≥ 8) false false
      (.lck (sb w) (vr (fld w 12 6)) (vr (fld w 6 6)) (br (fld w 0 6)))
  | 1 => chk (fld w 12 6 != 0) (fld w 0 6 ≥ 8) false false
      (.ulk (sb w) (vr (fld w 6 6)) (br (fld w 0 6)))
  | 8 => chk (fld w 0 18 != 0) false false false
      (.fencePkg (sb w))
  | 9 => chk (fld w 0 18 != 0) false false false
      (.fenceHost (sb w))
  | 10 => chk (fld w 0 18 != 0) false false false
      (.fenceSys (sb w))
  | _ => .error (.illegal 0)

/-- Major 0x37 by its func (R67 to R70). -/
def decodeIntAtomic (w : Word) : Except DecodeError Instr :=
  match fld w 18 3 with
  | 0 => .ok (.aadd (sb w) (br (fld w 21 3)) (vr (fld w 12 6)) (vr (fld w 6 6)) (vr (fld w 0 6)))
  | 1 => .ok (.amin (sb w) (br (fld w 21 3)) (vr (fld w 12 6)) (vr (fld w 6 6)) (vr (fld w 0 6)))
  | 2 => .ok (.amax (sb w) (br (fld w 21 3)) (vr (fld w 12 6)) (vr (fld w 6 6)) (vr (fld w 0 6)))
  | 3 => .ok (.aand (sb w) (br (fld w 21 3)) (vr (fld w 12 6)) (vr (fld w 6 6)) (vr (fld w 0 6)))
  | 4 => .ok (.aor (sb w) (br (fld w 21 3)) (vr (fld w 12 6)) (vr (fld w 6 6)) (vr (fld w 0 6)))
  | 5 => .ok (.axor (sb w) (br (fld w 21 3)) (vr (fld w 12 6)) (vr (fld w 6 6)) (vr (fld w 0 6)))
  | 6 => .ok (.axch (sb w) (br (fld w 21 3)) (vr (fld w 12 6)) (vr (fld w 6 6)) (vr (fld w 0 6)))
  | _ => .ok (.acas (sb w) (br (fld w 21 3)) (vr (fld w 12 6)) (vr (fld w 6 6)) (vr (fld w 0 6)))

/-- Major 0x38 by its func (R67 to R70). -/
def decodeFloatAtomic (w : Word) : Except DecodeError Instr :=
  match fld w 18 3 with
  | 0 => .ok (.afadd (sb w) (br (fld w 21 3)) (vr (fld w 12 6)) (vr (fld w 6 6)) (vr (fld w 0 6)))
  | 1 => .ok (.afmin (sb w) (br (fld w 21 3)) (vr (fld w 12 6)) (vr (fld w 6 6)) (vr (fld w 0 6)))
  | 2 => .ok (.afmax (sb w) (br (fld w 21 3)) (vr (fld w 12 6)) (vr (fld w 6 6)) (vr (fld w 0 6)))
  | 3 => chk false false (fld w 12 6 % 2 == 1 || fld w 0 6 % 2 == 1) false
      (.aminx (sb w) (br (fld w 21 3)) (vr (fld w 12 6)) (vr (fld w 6 6)) (vr (fld w 0 6)))
  | 4 => chk false false (fld w 12 6 % 2 == 1 || fld w 0 6 % 2 == 1) false
      (.amaxx (sb w) (br (fld w 21 3)) (vr (fld w 12 6)) (vr (fld w 6 6)) (vr (fld w 0 6)))
  | _ => .error (.illegal 0)

/-- Major 0x39 by its func (R67 to R70). -/
def decodeCopy (w : Word) : Except DecodeError Instr :=
  match fld w 18 6 with
  | 0 => chk false (fld w 12 6 ≥ 8) false false
      (.cpy (sb w) (br (fld w 12 6)) (vr (fld w 6 6)) (vr (fld w 0 6)))
  | 1 => chk false (fld w 12 6 ≥ 16) (fld w 0 6 % 2 == 1) false
      (.cpyt (sb w) (hr (fld w 12 6)) (vr (fld w 6 6)) (vr (fld w 0 6)))
  | 2 => chk false (fld w 12 6 ≥ 16) false false
      (.cpyg (sb w) (hr (fld w 12 6)) (vr (fld w 6 6)) (vr (fld w 0 6)))
  | 3 => chk false (fld w 12 6 ≥ 16) false false
      (.cpys (sb w) (hr (fld w 12 6)) (vr (fld w 6 6)) (vr (fld w 0 6)))
  | _ => .error (.illegal 0)

/-- Major 0x3A by its func (R67 to R70). -/
def decodeTag (w : Word) : Except DecodeError Instr :=
  match fld w 18 6 with
  | 0 => chk (fld w 0 6 != 0) false (fld w 6 6 % 2 == 1) false
      (.waitany (sb w) (vr (fld w 12 6)) (vr (fld w 6 6)))
  | 1 => chk (fld w 0 6 != 0 || fld w 12 6 != 0) false (fld w 6 6 % 2 == 1) false
      (.waitall (sb w) (vr (fld w 6 6)))
  | 2 => chk (fld w 0 6 != 0) false (fld w 6 6 % 2 == 1) false
      (.tagffr (sb w) (vr (fld w 12 6)) (vr (fld w 6 6)))
  | 3 => chk (fld w 0 6 != 0 || fld w 12 6 != 0) false (fld w 6 6 % 2 == 1) false
      (.tagclr (sb w) (vr (fld w 6 6)))
  | 4 => chk ((fld w 0 6 < 4 && fld w 6 6 != 0)) false false (fld w 0 6 ≥ 5)
      (.taggt (sb w) (vr (fld w 12 6)) (vr (fld w 6 6)) (.ofNat 6 (fld w 0 6)))
  | _ => .error (.illegal 0)

/-- Major 0x3B by its func (R67 to R70). -/
def decodeRing (w : Word) : Except DecodeError Instr :=
  match fld w 18 6 with
  | 0 => .ok (.rput (sb w) (vr (fld w 12 6)) (vr (fld w 6 6)) (vr (fld w 0 6)))
  | 1 => chk (fld w 0 6 != 0) false false false
      (.rtake (sb w) (vr (fld w 12 6)) (vr (fld w 6 6)))
  | 2 => .ok (.rpeek (sb w) (vr (fld w 12 6)) (vr (fld w 6 6)) (vr (fld w 0 6)))
  | _ => .error (.illegal 0)

/-- Major 0x3C by its func (R67 to R70). -/
def decodeBarrier (w : Word) : Except DecodeError Instr :=
  match fld w 18 6 with
  | 0 => chk (fld w 12 6 != 0) false false false
      (.bar (sb w) (vr (fld w 6 6)) (vr (fld w 0 6)))
  | 1 => chk (fld w 0 6 != 0 || fld w 12 6 != 0) false false false
      (.barv (sb w) (vr (fld w 6 6)))
  | 2 => chk (fld w 12 6 != 0) false false false
      (.arrv (sb w) (vr (fld w 6 6)) (vr (fld w 0 6)))
  | _ => .error (.illegal 0)

/-- Major 0x3D by its func (R67 to R70). -/
def decodeHandle (w : Word) : Except DecodeError Instr :=
  match fld w 18 6 with
  | 0 => chk false (fld w 12 6 ≥ 16 || fld w 0 6 ≥ 8) false false
      (.hld (sb w) (hr (fld w 12 6)) (vr (fld w 6 6)) (br (fld w 0 6)))
  | 1 => chk false (fld w 12 6 ≥ 16 || fld w 0 6 ≥ 8) false false
      (.hst (sb w) (hr (fld w 12 6)) (vr (fld w 6 6)) (br (fld w 0 6)))
  | 2 => chk false (fld w 12 6 ≥ 16) false false
      (.hset (sb w) (hr (fld w 12 6)) (vr (fld w 6 6)) (vr (fld w 0 6)))
  | 3 => chk false (fld w 6 6 ≥ 16) false false
      (.hget (sb w) (vr (fld w 12 6)) (hr (fld w 6 6)) (vr (fld w 0 6)))
  | 4 => chk (fld w 0 6 != 0) (fld w 6 6 ≥ 16) false false
      (.hchk (sb w) (vr (fld w 12 6)) (hr (fld w 6 6)))
  | _ => .error (.illegal 0)

/-- Major 0x3E by its func (R67 to R70). -/
def decodeTensor (w : Word) : Except DecodeError Instr :=
  match fld w 18 6 with
  | 0 => chk false (fld w 6 6 ≥ 16) (fld w 12 6 % 2 == 1) false
      (.tld (sb w) (vr (fld w 12 6)) (hr (fld w 6 6)) (vr (fld w 0 6)))
  | 1 => chk false (fld w 6 6 ≥ 16) (fld w 12 6 % 2 == 1) false
      (.tst (sb w) (vr (fld w 12 6)) (hr (fld w 6 6)) (vr (fld w 0 6)))
  | 2 => chk false false (fld w 6 6 % 2 == 1) false
      (.nzs (sb w) (vr (fld w 12 6)) (vr (fld w 6 6)) (vr (fld w 0 6)))
  | _ => .error (.illegal 0)

/-- Major 0x3F by its func (R67 to R70). -/
def decodeLod (w : Word) : Except DecodeError Instr :=
  match fld w 18 6 with
  | 0 => chk false (fld w 0 6 ≥ 8) (fld w 12 6 % 2 == 1) false
      (.lodld (sb w) (vr (fld w 12 6)) (vr (fld w 6 6)) (br (fld w 0 6)))
  | 1 => chk false (fld w 0 6 ≥ 8) (fld w 12 6 % 2 == 1) false
      (.lodq (sb w) (vr (fld w 12 6)) (vr (fld w 6 6)) (br (fld w 0 6)))
  | _ => .error (.illegal 0)

/-- Major 0x40 by its func (R67 to R70). -/
def decodeDevice (w : Word) : Except DecodeError Instr :=
  match fld w 18 6 with
  | 0 => chk false (fld w 12 6 ≥ 8) (fld w 0 6 % 2 == 1) false
      (.nput (sb w) (br (fld w 12 6)) (vr (fld w 6 6)) (vr (fld w 0 6)))
  | 1 => chk false (fld w 12 6 ≥ 8) (fld w 0 6 % 2 == 1) false
      (.nget (sb w) (br (fld w 12 6)) (vr (fld w 6 6)) (vr (fld w 0 6)))
  | 8 => chk false (fld w 12 6 ≥ 8) (fld w 0 6 % 2 == 1) false
      (.nredAdd (sb w) (br (fld w 12 6)) (vr (fld w 6 6)) (vr (fld w 0 6)))
  | 9 => chk false (fld w 12 6 ≥ 8) (fld w 0 6 % 2 == 1) false
      (.nredMin (sb w) (br (fld w 12 6)) (vr (fld w 6 6)) (vr (fld w 0 6)))
  | 10 => chk false (fld w 12 6 ≥ 8) (fld w 0 6 % 2 == 1) false
      (.nredMax (sb w) (br (fld w 12 6)) (vr (fld w 6 6)) (vr (fld w 0 6)))
  | _ => .error (.illegal 0)

/-- Major 0x48 by its func (R67 to R70). -/
def decodeMatrix (w : Word) : Except DecodeError Instr :=
  match fld w 18 6 with
  | 0 => chk (fld w 0 6 != 0 || fld w 12 6 != 0) false (fld w 6 6 % 2 == 1) false
      (.gang (sb w) (vr (fld w 6 6)))
  | 1 => chk (fld w 0 6 != 0) false false false
      (.fmtb (sb w) (vr (fld w 12 6)) (vr (fld w 6 6)))
  | 2 => chk false false (fld w 6 6 % 2 == 1 || fld w 0 6 % 2 == 1) false
      (.mma (sb w) (vr (fld w 12 6)) (vr (fld w 6 6)) (vr (fld w 0 6)))
  | 3 => chk (fld w 6 6 != 0) false false false
      (.aclr (sb w) (vr (fld w 12 6)) (vr (fld w 0 6)))
  | 4 => .ok (.ald (sb w) (vr (fld w 12 6)) (vr (fld w 6 6)) (vr (fld w 0 6)))
  | 5 => .ok (.ast (sb w) (vr (fld w 12 6)) (vr (fld w 6 6)) (vr (fld w 0 6)))
  | 6 => .ok (.amov (sb w) (vr (fld w 12 6)) (vr (fld w 6 6)) (vr (fld w 0 6)))
  | 7 => chk false false (fld w 0 6 % 2 == 1) false
      (.adrn (sb w) (vr (fld w 12 6)) (vr (fld w 6 6)) (vr (fld w 0 6)))
  | 8 => .ok (.adexp (sb w) (vr (fld w 12 6)) (vr (fld w 6 6)) (vr (fld w 0 6)))
  | 9 => chk false (fld w 6 6 ≥ 16) (fld w 12 6 % 2 == 1) false
      (.tdq (sb w) (vr (fld w 12 6)) (hr (fld w 6 6)) (vr (fld w 0 6)))
  | 10 => chk false (fld w 12 6 ≥ 16) (fld w 6 6 % 2 == 1) false
      (.tdset (sb w) (hr (fld w 12 6)) (vr (fld w 6 6)) (vr (fld w 0 6)))
  | _ => .error (.illegal 0)

/-- Major 0x49 by its func (R67 to R70). -/
def decodeMarch (w : Word) : Except DecodeError Instr :=
  match fld w 18 6 with
  | 0 => chk false (fld w 12 6 ≥ 8) false false
      (.bcl (sb w) (br (fld w 12 6)) (vr (fld w 6 6)) (vr (fld w 0 6)))
  | 1 => chk (fld w 12 6 != 0) false false false
      (.prn (sb w) (vr (fld w 6 6)) (vr (fld w 0 6)))
  | 2 => chk false false (fld w 0 6 % 2 == 1) false
      (.mrch (sb w) (vr (fld w 12 6)) (vr (fld w 6 6)) (vr (fld w 0 6)))
  | 3 => chk (fld w 0 6 != 0) false (fld w 12 6 % 2 == 1) false
      (.mres (sb w) (vr (fld w 12 6)) (vr (fld w 6 6)))
  | 4 => chk false (fld w 0 6 ≥ 8) false false
      (.bsmp (sb w) (vr (fld w 12 6)) (vr (fld w 6 6)) (br (fld w 0 6)))
  | _ => .error (.illegal 0)

/-- Major 0x4A by its func (R67 to R70). -/
def decodeTrace (w : Word) : Except DecodeError Instr :=
  match fld w 18 6 with
  | 0 => chk false (fld w 0 6 ≥ 8) false false
      (.trace (sb w) (vr (fld w 12 6)) (vr (fld w 6 6)) (br (fld w 0 6)))
  | 1 => chk (fld w 12 6 != 0) false false false
      (.rast (sb w) (vr (fld w 6 6)) (vr (fld w 0 6)))
  | 2 => chk (fld w 6 6 != 0) false false (fld w 0 6 ≥ 9)
      (.hitq (sb w) (vr (fld w 12 6)) (.ofNat 6 (fld w 0 6)))
  | 3 => chk (fld w 12 6 != 0) false false false
      (.spawn (sb w) (vr (fld w 6 6)) (vr (fld w 0 6)))
  | 4 => chk (fld w 6 6 != 0) false false (fld w 0 6 ≥ 11)
      (.payl (sb w) (vr (fld w 12 6)) (.ofNat 6 (fld w 0 6)))
  | 5 => chk false false (fld w 12 6 % 2 == 1 || fld w 0 6 % 2 == 1) false
      (.dpt (sb w) (vr (fld w 12 6)) (vr (fld w 6 6)) (vr (fld w 0 6)))
  | _ => .error (.illegal 0)

/-- `cmpi` by its condition field (R71). -/
def decodeCmpi (w : Word) : Except DecodeError Instr :=
  match fld w 9 3 with
  | 0 => chk false (fld w 18 6 ≥ 8) false false
      (.cmpiEq (sb w) (pr (fld w 18 6)) (vr (fld w 12 6)) (.ofNat 9 (fld w 0 9)))
  | 1 => chk false (fld w 18 6 ≥ 8) false false
      (.cmpiNe (sb w) (pr (fld w 18 6)) (vr (fld w 12 6)) (.ofNat 9 (fld w 0 9)))
  | 2 => chk false (fld w 18 6 ≥ 8) false false
      (.cmpiLt (sb w) (pr (fld w 18 6)) (vr (fld w 12 6)) (.ofNat 9 (fld w 0 9)))
  | 3 => chk false (fld w 18 6 ≥ 8) false false
      (.cmpiLe (sb w) (pr (fld w 18 6)) (vr (fld w 12 6)) (.ofNat 9 (fld w 0 9)))
  | 4 => chk false (fld w 18 6 ≥ 8) false false
      (.cmpiGt (sb w) (pr (fld w 18 6)) (vr (fld w 12 6)) (.ofNat 9 (fld w 0 9)))
  | 5 => chk false (fld w 18 6 ≥ 8) false false
      (.cmpiGe (sb w) (pr (fld w 18 6)) (vr (fld w 12 6)) (.ofNat 9 (fld w 0 9)))
  | _ => .error (.illegal (if fld w 18 6 ≥ 8 then 2 else 5))

/-- The instruction a word encodes, or why it encodes none (R65, R66, R73). DESIGN CHOICE (log entry 33): a `modet` whose
bit 8 is 0 is accepted whatever its STYPE bits hold, and they are not read (R71). -/
def decode (w : Word) : Except DecodeError Instr :=
  match fld w 24 7 with
  | 0 => decodeControl w
  | 1 => .ok (.bra (sb w) (.ofNat 24 (fld w 0 24)))
  | 2 => .ok (.call (sb w) (.ofNat 24 (fld w 0 24)))
  | 3 => chk (fld w 18 6 != 0) (fld w 12 6 ≥ 8) false false
      (.ifP (sb w) (pr (fld w 12 6)) (.ofNat 12 (fld w 0 12)))
  | 4 => chk (fld w 12 12 != 0) false false false
      (.elseP (sb w) (.ofNat 12 (fld w 0 12)))
  | 5 => chk (fld w 12 12 != 0) false false false
      (.loop (sb w) (.ofNat 12 (fld w 0 12)))
  | 6 => chk (fld w 12 12 != 0) false false false
      (.endloop (sb w) (.ofNat 12 (fld w 0 12)))
  | 7 => chk (fld w 18 6 != 0) (fld w 12 6 ≥ 8) false false
      (.brk (sb w) (pr (fld w 12 6)) (.ofNat 12 (fld w 0 12)))
  | 8 => chk (fld w 18 6 != 0) (fld w 12 6 ≥ 8) false false
      (.nextP (sb w) (pr (fld w 12 6)) (.ofNat 12 (fld w 0 12)))
  | 9 => decodeMode w
  | 10 => chk (fld w 2 4 != 0 || fld w 12 6 != 0) false false (fld w 0 2 == 3 || decide (fld w 6 6 < fld w 18 6))
      (.shape (sb w) (vr (fld w 18 6)) (vr (fld w 6 6)) (.ofNat 2 (fld w 0 2)))
  | 11 => chk (fld w 9 15 != 0) false false false
      (.modet (sb w) (fld w 8 1 == 1) (.ofNat 4 (fld w 4 4)) (.ofNat 4 (fld w 0 4)))
  | 12 => chk (fld w 3 21 != 0) false false false
      (.moder (sb w) (.ofNat 3 (fld w 0 3)))
  | 13 => chk (fld w 3 1 != 0 || fld w 5 19 != 0) false false false
      (.modeg (sb w) (fld w 4 1 == 1) (pr (fld w 0 3)))
  | 14 => chk (fld w 0 8 != 0 || fld w 12 12 != 0) false false false
      (.modef (sb w) (.ofNat 2 (fld w 10 2)) (fld w 9 1 == 1) (fld w 8 1 == 1))
  | 16 => decodeInteger w
  | 17 => .ok (.addi (sb w) (vr (fld w 18 6)) (vr (fld w 12 6)) (.ofNat 12 (fld w 0 12)))
  | 18 => .ok (.andi (sb w) (vr (fld w 18 6)) (vr (fld w 12 6)) (.ofNat 12 (fld w 0 12)))
  | 19 => .ok (.ori (sb w) (vr (fld w 18 6)) (vr (fld w 12 6)) (.ofNat 12 (fld w 0 12)))
  | 20 => .ok (.xori (sb w) (vr (fld w 18 6)) (vr (fld w 12 6)) (.ofNat 12 (fld w 0 12)))
  | 21 => chk false false false (fld w 0 12 ≥ 32)
      (.shli (sb w) (vr (fld w 18 6)) (vr (fld w 12 6)) (.ofNat 12 (fld w 0 12)))
  | 22 => chk false false false (fld w 0 12 ≥ 32)
      (.shri (sb w) (vr (fld w 18 6)) (vr (fld w 12 6)) (.ofNat 12 (fld w 0 12)))
  | 23 => decodeCmpi w
  | 24 => .ok (.li (sb w) (vr (fld w 18 6)) (.ofNat 18 (fld w 0 18)))
  | 25 => chk (fld w 14 4 != 0) false false false
      (.lhi (sb w) (vr (fld w 18 6)) (.ofNat 14 (fld w 0 14)))
  | 26 => decodeBase w
  | 32 => decodeFloat w
  | 33 => decodeNarrow w
  | 34 => decodePred w
  | 35 => decodeCross w
  | 36 => decodeRandom w
  | 37 => chk (fld w 12 6 != 0) false false (!isSysReg (fld w 0 12))
      (.rdsys (sb w) (vr (fld w 18 6)) (.ofNat 12 (fld w 0 12)))
  | 38 => chk (fld w 18 6 != 0) false false (!isSysReg (fld w 0 12))
      (.wrsys (sb w) (vr (fld w 12 6)) (.ofNat 12 (fld w 0 12)))
  | 48 => .ok (.ld (sb w) (vr (fld w 18 6)) (vr (fld w 12 6)) (br (fld w 9 3)) (.ofNat 9 (fld w 0 9)))
  | 49 => .ok (.st (sb w) (vr (fld w 18 6)) (vr (fld w 12 6)) (br (fld w 9 3)) (.ofNat 9 (fld w 0 9)))
  | 50 => .ok (.ldx (sb w) (vr (fld w 18 6)) (vr (fld w 12 6)) (.ofNat 12 (fld w 0 12)))
  | 51 => .ok (.stx (sb w) (vr (fld w 18 6)) (vr (fld w 12 6)) (.ofNat 12 (fld w 0 12)))
  | 52 => .ok (.ldc (sb w) (vr (fld w 18 6)) (vr (fld w 12 6)) (.ofNat 12 (fld w 0 12)))
  | 53 => chk (fld w 18 6 != 0) false false false
      (.pref (sb w) (vr (fld w 12 6)) (br (fld w 9 3)) (.ofNat 9 (fld w 0 9)))
  | 54 => decodePin w
  | 55 => decodeIntAtomic w
  | 56 => decodeFloatAtomic w
  | 57 => decodeCopy w
  | 58 => decodeTag w
  | 59 => decodeRing w
  | 60 => decodeBarrier w
  | 61 => decodeHandle w
  | 62 => decodeTensor w
  | 63 => decodeLod w
  | 64 => decodeDevice w
  | 72 => decodeMatrix w
  | 73 => decodeMarch w
  | 74 => decodeTrace w
  | _ => .error (if fld w 24 7 ≥ 0x70 && fld w 24 7 ≤ 0x7E then .extension else .illegal 0)

/-- The word of an instruction, from the formats of R58 and the assignments of R66 to R71; none for a step of another
agent. -/
def encode (i : Instr) : Option Word :=
  match i with
  | .nop s => some (rrr s 0 1 0 0 0)
  | .endif s => some (rrr s 0 2 0 0 0)
  | .ret s a => some (rrr s 0 3 0 a.val 0)
  | .brx s a => some (rrr s 0 4 0 a.val 0)
  | .exit s => some (rrr s 0 5 0 0 0)
  | .yieldG s => some (rrr s 0 6 0 0 0)
  | .launch s d a b => some (rrr s 0 7 d.val a.val b.val)
  | .lwait s d a => some (rrr s 0 8 d.val a.val 0)
  | .trap s n => some (rrr s 0 9 0 (n.toNat / 64) (n.toNat % 64))
  | .tret s => some (rrr s 0 10 0 0 0)
  | .xsave s k => some (rrr s 0 11 0 0 k.toNat)
  | .xrst s k => some (rrr s 0 12 0 0 k.toNat)
  | .esc s n => some (rrr s 0 13 0 (n.toNat / 64) (n.toNat % 64))
  | .rqmv s d a b => some (rrr s 0 14 d.val a.val b.val)
  | .bra s o => some (jfm s 1 o.toNat)
  | .call s o => some (jfm s 2 o.toNat)
  | .ifP s a i => some (rri s 3 0 a.val (i.toNat))
  | .elseP s i => some (rri s 4 0 0 (i.toNat))
  | .loop s i => some (rri s 5 0 0 (i.toNat))
  | .endloop s i => some (rri s 6 0 0 (i.toNat))
  | .brk s a i => some (rri s 7 0 a.val (i.toNat))
  | .nextP s a i => some (rri s 8 0 a.val (i.toNat))
  | .mode s a => some (rrr s 9 0 0 a.val 0)
  | .gmode s d => some (rrr s 9 1 d.val 0 0)
  | .gshape s d k => some (rrr s 9 2 d.val 0 k.toNat)
  | .shape s d l t => some (rri s 10 d.val 0 (64 * l.val + t.toNat))
  | .modet s w u t => some (rri s 11 0 0 (256 * w.toNat + 16 * u.toNat + t.toNat))
  | .moder s r => some (rri s 12 0 0 (r.toNat))
  | .modeg s g p => some (rri s 13 0 0 (16 * g.toNat + p.val))
  | .modef s w t z => some (rri s 14 0 0 (1024 * w.toNat + 512 * t.toNat + 256 * z.toNat))
  | .add s d a b => some (rrr s 16 0 d.val a.val b.val)
  | .sub s d a b => some (rrr s 16 1 d.val a.val b.val)
  | .mul s d a b => some (rrr s 16 2 d.val a.val b.val)
  | .mulh s d a b => some (rrr s 16 3 d.val a.val b.val)
  | .mad s d a b => some (rrr s 16 4 d.val a.val b.val)
  | .min s d a b => some (rrr s 16 5 d.val a.val b.val)
  | .max s d a b => some (rrr s 16 6 d.val a.val b.val)
  | .abs s d a => some (rrr s 16 7 d.val a.val 0)
  | .neg s d a => some (rrr s 16 8 d.val a.val 0)
  | .and s d a b => some (rrr s 16 9 d.val a.val b.val)
  | .or s d a b => some (rrr s 16 10 d.val a.val b.val)
  | .xor s d a b => some (rrr s 16 11 d.val a.val b.val)
  | .not s d a => some (rrr s 16 12 d.val a.val 0)
  | .shl s d a b => some (rrr s 16 13 d.val a.val b.val)
  | .shr s d a b => some (rrr s 16 14 d.val a.val b.val)
  | .sar s d a b => some (rrr s 16 15 d.val a.val b.val)
  | .rot s d a b => some (rrr s 16 16 d.val a.val b.val)
  | .popc s d a => some (rrr s 16 17 d.val a.val 0)
  | .clz s d a => some (rrr s 16 18 d.val a.val 0)
  | .brev s d a => some (rrr s 16 19 d.val a.val 0)
  | .bfx s d a b => some (rrr s 16 20 d.val a.val b.val)
  | .bfi s d a b => some (rrr s 16 21 d.val a.val b.val)
  | .sel s d a b => some (rrr s 16 22 d.val a.val b.val)
  | .mov s d a => some (rrr s 16 23 d.val a.val 0)
  | .cvt s d a => some (rrr s 16 24 d.val a.val 0)
  | .cmpEq s d a b => some (rrr s 16 32 d.val a.val b.val)
  | .cmpNe s d a b => some (rrr s 16 33 d.val a.val b.val)
  | .cmpLt s d a b => some (rrr s 16 34 d.val a.val b.val)
  | .cmpLe s d a b => some (rrr s 16 35 d.val a.val b.val)
  | .cmpGt s d a b => some (rrr s 16 36 d.val a.val b.val)
  | .cmpGe s d a b => some (rrr s 16 37 d.val a.val b.val)
  | .addi s d a i => some (rri s 17 d.val a.val (i.toNat))
  | .andi s d a i => some (rri s 18 d.val a.val (i.toNat))
  | .ori s d a i => some (rri s 19 d.val a.val (i.toNat))
  | .xori s d a i => some (rri s 20 d.val a.val (i.toNat))
  | .shli s d a i => some (rri s 21 d.val a.val (i.toNat))
  | .shri s d a i => some (rri s 22 d.val a.val (i.toNat))
  | .cmpiEq s d a i => some (rri s 23 d.val a.val (0 + i.toNat))
  | .cmpiNe s d a i => some (rri s 23 d.val a.val (512 + i.toNat))
  | .cmpiLt s d a i => some (rri s 23 d.val a.val (1024 + i.toNat))
  | .cmpiLe s d a i => some (rri s 23 d.val a.val (1536 + i.toNat))
  | .cmpiGt s d a i => some (rri s 23 d.val a.val (2048 + i.toNat))
  | .cmpiGe s d a i => some (rri s 23 d.val a.val (2560 + i.toNat))
  | .li s d i => some (rri s 24 d.val (i.toNat / 4096) (i.toNat % 4096))
  | .lhi s d i => some (rri s 25 d.val (i.toNat / 4096) (i.toNat % 4096))
  | .bset s d a b => some (rrr s 26 0 d.val a.val b.val)
  | .badd s d a b => some (rrr s 26 1 d.val a.val b.val)
  | .bmov s d a => some (rrr s 26 2 d.val a.val 0)
  | .bmovV s d a => some (rrr s 26 2 d.val a.val 1)
  | .bget s d a k => some (rrr s 26 3 d.val a.val k.toNat)
  | .fadd s d a b => some (rrr s 32 0 d.val a.val b.val)
  | .fsub s d a b => some (rrr s 32 1 d.val a.val b.val)
  | .fmul s d a b => some (rrr s 32 2 d.val a.val b.val)
  | .ffma s d a b => some (rrr s 32 3 d.val a.val b.val)
  | .fmin s d a b => some (rrr s 32 4 d.val a.val b.val)
  | .fmax s d a b => some (rrr s 32 5 d.val a.val b.val)
  | .fminn s d a b => some (rrr s 32 6 d.val a.val b.val)
  | .fmaxn s d a b => some (rrr s 32 7 d.val a.val b.val)
  | .fabs s d a => some (rrr s 32 8 d.val a.val 0)
  | .fneg s d a => some (rrr s 32 9 d.val a.val 0)
  | .fcpys s d a b => some (rrr s 32 10 d.val a.val b.val)
  | .frcp s d a => some (rrr s 32 11 d.val a.val 0)
  | .frsq s d a => some (rrr s 32 12 d.val a.val 0)
  | .fsqrt s d a => some (rrr s 32 13 d.val a.val 0)
  | .fex2 s d a => some (rrr s 32 14 d.val a.val 0)
  | .flg2 s d a => some (rrr s 32 15 d.val a.val 0)
  | .fsin s d a => some (rrr s 32 16 d.val a.val 0)
  | .fcos s d a => some (rrr s 32 17 d.val a.val 0)
  | .fdiv s d a b => some (rrr s 32 18 d.val a.val b.val)
  | .fcls s d a => some (rrr s 32 19 d.val a.val 0)
  | .frnd s d a => some (rrr s 32 20 d.val a.val 0)
  | .fdot2 s d a b => some (rrr s 32 21 d.val a.val b.val)
  | .fcmpEq s d a b => some (rrr s 32 32 d.val a.val b.val)
  | .fcmpNe s d a b => some (rrr s 32 33 d.val a.val b.val)
  | .fcmpLt s d a b => some (rrr s 32 34 d.val a.val b.val)
  | .fcmpLe s d a b => some (rrr s 32 35 d.val a.val b.val)
  | .fcmpGt s d a b => some (rrr s 32 36 d.val a.val b.val)
  | .fcmpGe s d a b => some (rrr s 32 37 d.val a.val b.val)
  | .fcmpUn s d a b => some (rrr s 32 38 d.val a.val b.val)
  | .pk s d a b => some (rrr s 33 0 d.val a.val b.val)
  | .upk s d a j => some (rrr s 33 1 d.val a.val j.toNat)
  | .qnt s d a b => some (rrr s 33 2 d.val a.val b.val)
  | .dqn s d a b => some (rrr s 33 3 d.val a.val b.val)
  | .dp4 s d a b => some (rrr s 33 4 d.val a.val b.val)
  | .pand s d a b => some (rrr s 34 0 d.val a.val b.val)
  | .por s d a b => some (rrr s 34 1 d.val a.val b.val)
  | .pxor s d a b => some (rrr s 34 2 d.val a.val b.val)
  | .pnot s d a => some (rrr s 34 3 d.val a.val 0)
  | .pmov s d a => some (rrr s 34 4 d.val a.val 0)
  | .pany s d a => some (rrr s 34 5 d.val a.val 0)
  | .pall s d a => some (rrr s 34 6 d.val a.val 0)
  | .pcnt s d a => some (rrr s 34 7 d.val a.val 0)
  | .ballot s d a => some (rrr s 34 8 d.val a.val 0)
  | .shfl s d a b => some (rrr s 35 0 d.val a.val b.val)
  | .shfx s d a b => some (rrr s 35 1 d.val a.val b.val)
  | .bcst s d a b => some (rrr s 35 2 d.val a.val b.val)
  | .redgAdd s d a => some (rrr s 35 8 d.val a.val 0)
  | .redgMin s d a => some (rrr s 35 9 d.val a.val 0)
  | .redgMax s d a => some (rrr s 35 10 d.val a.val 0)
  | .redgAnd s d a => some (rrr s 35 11 d.val a.val 0)
  | .redgOr s d a => some (rrr s 35 12 d.val a.val 0)
  | .redgXor s d a => some (rrr s 35 13 d.val a.val 0)
  | .redgArgmin s d a => some (rrr s 35 14 d.val a.val 0)
  | .redgArgmax s d a => some (rrr s 35 15 d.val a.val 0)
  | .scanAdd s d a => some (rrr s 35 16 d.val a.val 0)
  | .scanMin s d a => some (rrr s 35 17 d.val a.val 0)
  | .scanMax s d a => some (rrr s 35 18 d.val a.val 0)
  | .rng s d => some (rrr s 36 0 d.val 0 0)
  | .rngj s a => some (rrr s 36 1 0 a.val 0)
  | .rngs s a => some (rrr s 36 2 0 a.val 0)
  | .clk s d => some (rrr s 36 3 d.val 0 0)
  | .gid s d k => some (rrr s 36 4 d.val 0 k.toNat)
  | .rdsys s d n => some (rri s 37 d.val 0 (n.toNat))
  | .wrsys s a n => some (rri s 38 0 a.val (n.toNat))
  | .ld s d a b n => some (rri s 48 d.val a.val (512 * b.val + n.toNat))
  | .st s d a b n => some (rri s 49 d.val a.val (512 * b.val + n.toNat))
  | .ldx s d a n => some (rri s 50 d.val a.val (n.toNat))
  | .stx s d a n => some (rri s 51 d.val a.val (n.toNat))
  | .ldc s d a n => some (rri s 52 d.val a.val (n.toNat))
  | .pref s a b n => some (rri s 53 0 a.val (512 * b.val + n.toNat))
  | .lck s d a b => some (rrr s 54 0 d.val a.val b.val)
  | .ulk s a b => some (rrr s 54 1 0 a.val b.val)
  | .fencePkg s => some (rrr s 54 8 0 0 0)
  | .fenceHost s => some (rrr s 54 9 0 0 0)
  | .fenceSys s => some (rrr s 54 10 0 0 0)
  | .aadd s n d a b => some (rrr s 55 (8 * n.val + 0) d.val a.val b.val)
  | .amin s n d a b => some (rrr s 55 (8 * n.val + 1) d.val a.val b.val)
  | .amax s n d a b => some (rrr s 55 (8 * n.val + 2) d.val a.val b.val)
  | .aand s n d a b => some (rrr s 55 (8 * n.val + 3) d.val a.val b.val)
  | .aor s n d a b => some (rrr s 55 (8 * n.val + 4) d.val a.val b.val)
  | .axor s n d a b => some (rrr s 55 (8 * n.val + 5) d.val a.val b.val)
  | .axch s n d a b => some (rrr s 55 (8 * n.val + 6) d.val a.val b.val)
  | .acas s n d a b => some (rrr s 55 (8 * n.val + 7) d.val a.val b.val)
  | .afadd s n d a b => some (rrr s 56 (8 * n.val + 0) d.val a.val b.val)
  | .afmin s n d a b => some (rrr s 56 (8 * n.val + 1) d.val a.val b.val)
  | .afmax s n d a b => some (rrr s 56 (8 * n.val + 2) d.val a.val b.val)
  | .aminx s n d a b => some (rrr s 56 (8 * n.val + 3) d.val a.val b.val)
  | .amaxx s n d a b => some (rrr s 56 (8 * n.val + 4) d.val a.val b.val)
  | .cpy s d a b => some (rrr s 57 0 d.val a.val b.val)
  | .cpyt s d a b => some (rrr s 57 1 d.val a.val b.val)
  | .cpyg s d a b => some (rrr s 57 2 d.val a.val b.val)
  | .cpys s d a b => some (rrr s 57 3 d.val a.val b.val)
  | .waitany s d a => some (rrr s 58 0 d.val a.val 0)
  | .waitall s a => some (rrr s 58 1 0 a.val 0)
  | .tagffr s d a => some (rrr s 58 2 d.val a.val 0)
  | .tagclr s a => some (rrr s 58 3 0 a.val 0)
  | .taggt s d a k => some (rrr s 58 4 d.val a.val k.toNat)
  | .rput s d a b => some (rrr s 59 0 d.val a.val b.val)
  | .rtake s d a => some (rrr s 59 1 d.val a.val 0)
  | .rpeek s d a b => some (rrr s 59 2 d.val a.val b.val)
  | .bar s a b => some (rrr s 60 0 0 a.val b.val)
  | .barv s a => some (rrr s 60 1 0 a.val 0)
  | .arrv s a b => some (rrr s 60 2 0 a.val b.val)
  | .hld s d a b => some (rrr s 61 0 d.val a.val b.val)
  | .hst s d a b => some (rrr s 61 1 d.val a.val b.val)
  | .hset s d a b => some (rrr s 61 2 d.val a.val b.val)
  | .hget s d a b => some (rrr s 61 3 d.val a.val b.val)
  | .hchk s d a => some (rrr s 61 4 d.val a.val 0)
  | .tld s d a b => some (rrr s 62 0 d.val a.val b.val)
  | .tst s d a b => some (rrr s 62 1 d.val a.val b.val)
  | .nzs s d a b => some (rrr s 62 2 d.val a.val b.val)
  | .lodld s d a b => some (rrr s 63 0 d.val a.val b.val)
  | .lodq s d a b => some (rrr s 63 1 d.val a.val b.val)
  | .nput s d a b => some (rrr s 64 0 d.val a.val b.val)
  | .nget s d a b => some (rrr s 64 1 d.val a.val b.val)
  | .nredAdd s d a b => some (rrr s 64 8 d.val a.val b.val)
  | .nredMin s d a b => some (rrr s 64 9 d.val a.val b.val)
  | .nredMax s d a b => some (rrr s 64 10 d.val a.val b.val)
  | .gang s a => some (rrr s 72 0 0 a.val 0)
  | .fmtb s d a => some (rrr s 72 1 d.val a.val 0)
  | .mma s d a b => some (rrr s 72 2 d.val a.val b.val)
  | .aclr s d b => some (rrr s 72 3 d.val 0 b.val)
  | .ald s d a b => some (rrr s 72 4 d.val a.val b.val)
  | .ast s d a b => some (rrr s 72 5 d.val a.val b.val)
  | .amov s d a b => some (rrr s 72 6 d.val a.val b.val)
  | .adrn s d a b => some (rrr s 72 7 d.val a.val b.val)
  | .adexp s d a b => some (rrr s 72 8 d.val a.val b.val)
  | .tdq s d a b => some (rrr s 72 9 d.val a.val b.val)
  | .tdset s d a b => some (rrr s 72 10 d.val a.val b.val)
  | .bcl s d a b => some (rrr s 73 0 d.val a.val b.val)
  | .prn s a b => some (rrr s 73 1 0 a.val b.val)
  | .mrch s d a b => some (rrr s 73 2 d.val a.val b.val)
  | .mres s d a => some (rrr s 73 3 d.val a.val 0)
  | .bsmp s d a b => some (rrr s 73 4 d.val a.val b.val)
  | .trace s d a b => some (rrr s 74 0 d.val a.val b.val)
  | .rast s a b => some (rrr s 74 1 0 a.val b.val)
  | .hitq s d k => some (rrr s 74 2 d.val 0 k.toNat)
  | .spawn s a b => some (rrr s 74 3 0 a.val b.val)
  | .payl s d k => some (rrr s 74 4 d.val 0 k.toNat)
  | .dpt s d a b => some (rrr s 74 5 d.val a.val b.val)
  | .illegalWord _ _ => none
  | .extensionWord _ => none
  | .resultReturn _ => none
  | .groupPromotion _ => none
  | .mmaCompletion _ => none
  | .copyCompletion _ => none
  | .nputCompletion _ => none
  | .ngetCompletion _ => none
  | .nredCompletion _ => none
  | .nredRetry _ => none
  | .adrnDrainApply _ => none
  | .bclCompletion _ => none
  | .prnCompletion _ => none
  | .rayMarchEnd _ _ => none
  | .traversalEnd _ => none
  | .boardingIdleTimeout _ => none
  | .boardingGroupFormation _ _ => none
  | .rastCompletion _ => none
  | .trapEntry _ => none
  | .placementDecision => none
  | .convoyMemberStart _ => none
  | .preemptTake _ => none
  | .saveEnd _ => none
  | .priorityAgeing _ _ => none
  | .gridRetirement _ _ => none
  | .replayMatch _ => none
  | .manifestStall _ => none
  | .walkerFill _ _ => none
  | .pageMigration _ _ _ _ => none
  | .flipreqReply _ _ => none
  | .flipCompletion _ _ => none
  | .hostLineReply _ _ _ => none
  | .launchMessage _ _ => none
  | .wopen _ _ _ _ => none
  | .wread _ _ _ _ => none
  | .wwrite _ _ _ _ => none
  | .flip _ _ _ => none
  | .drain _ _ _ => none
  | .supply _ _ => none
  | .unknownMessage _ _ => none
  | .frameDiscard _ => none
  | .retransmitTimeout _ => none
  | .connectionDown _ => none
  | .pput _ _ _ => none
  | .pget _ _ _ => none
  | .pred _ _ => none
  | .pfwd _ _ _ _ => none
  | .peerReservedKind _ _ => none
  | .peerReply _ _ _ => none
  | .create _ _ _ _ _ _ => none
  | .destroy _ _ => none
  | .jobset _ _ _ _ => none
  | .migset _ _ => none
  | .disc _ _ _ => none
  | .errdrain _ _ _ => none
  | .evdrain _ _ => none
  | .health _ _ => none
  | .cert _ _ _ => none
  | .quote _ _ => none
  | .worldb _ _ _ _ => none
  | .worldr _ _ _ _ => none
  | .fwload _ _ _ => none
  | .fwcommit _ => none
  | .repair _ _ _ => none
  | .pwrlim _ _ => none
  | .mgmtUnknownOp _ _ => none
  | .scrub _ => none
  | .wearUpdate _ _ => none
  | .throttleBegin => none
  | .throttleEnd => none
  | .thermalTrip => none
  | .resetAssert => none
  | .resetRelease _ => none
  | .logicalClockAdvance _ => none
  | .powerFault => none

/-- The instruction the decoder reads from an instruction whose bits are `w`; every instruction is one 32-bit word. -/
def decodeTableWord (nbits w : Nat) : Option Instr :=
  if nbits = 32 then (decode (.ofNat 32 w)).toOption else none

end Sys2Proof
end

