-- ==== Sys2Proof/Config.lean ====
section
/-! DEFINITION. What an implementation of the Ruelm fixes, and the free values: constants without a body, of which
nothing can be proved. Each is named in a row of notes/assumptions. -/
namespace Sys2Proof.Config

/-- Cores of a full part (R3). -/
def cores : Nat := 1152
/-- Cores of one compute die (R2). -/
def coresPerDie : Nat := 144
/-- Compute dies of a full part (R2). -/
def dies : Nat := 8
/-- Memory channels of a full part (R3). -/
def channels : Nat := 48
/-- Bytes of device memory behind one channel (R3: 32 Gbit is 4 GiB). -/
def channelBytes : Nat := 2 ^ 32
/-- Bytes of device memory of a full part (R3). -/
def memBytes : Nat := channels * channelBytes
/-- Register words of a core (R3, R319). -/
def coreWords : Nat := 393216
/-- Scratchpad bytes of a core (R319). -/
def coreScratch : Nat := 524288
/-- Accumulator rows of a core (R24). -/
def coreAccRows : Nat := 512
/-- Completion tags of a core (R2). -/
def coreTags : Nat := 64
/-- Issue ports of a core (R222). -/
def ports : Nat := 12
/-- Groups a port holds (R222). -/
def portGroups : Nat := 64
/-- Active groups of a port (R222). -/
def portActive : Nat := 8
/-- Teams a core holds (R319). -/
def coreTeams : Nat := 64
/-- Ray slots of a core (R197). -/
def raySlots : Nat := 512
/-- Continuations a boarding unit holds (R294). -/
def boardSlots : Nat := 512
/-- Pending returning instructions of a group (R62). -/
def maxPending : Nat := 16
/-- Resident contexts (R307). -/
def contexts : Nat := 64
/-- Records of an error ring (R394). -/
def errRing : Nat := 4096
/-- Records of the event ring (R402). -/
def evRing : Nat := 1024
/-- Bytes of the firmware staging buffer (R402). -/
def fwBytes : Nat := 16777216

/-- FREE VALUE (log entry 2): the time stamped in an error or event record (R394, R402). -/
opaque freeTime : Nat → DWord
/-- FREE VALUE (log entry 3): the bytes of an opaque save item (R337: the contents of items 17 and 18 are opaque). -/
opaque opaqueByte : Nat → Nat → Byte
/-- FREE VALUE (log entries 4, 13): the order of the chunks of an operation that the manual leaves unordered, and of the entries of a
`cpys` with repeated rows (R152, R242). -/
opaque freeOrder : Nat → Nat → Nat
/-- FREE VALUE (log entry 5): the modulus of the identity key, an RSA-4096 key pair with exponent 65,537 that the security
controller creates at manufacture (R404). -/
opaque identityModulus : Nat
/-- FREE VALUE (log entry 5): the private exponent of the identity key, which never leaves the security controller (R404). -/
opaque identityExponent : Nat
/-- FREE VALUE (log entry 5): the bytes of the certificate issued for an identity key, by its modulus (R404). -/
opaque certByte : List Byte → Nat → Byte
/-- FREE VALUE (log entry 5): the bytes of the salt of a quote's signature (R405). -/
opaque saltByte : Nat → Nat → Byte
/-- FREE VALUE (log entry 48): the indicators of a die at power-on hour 0, before its first update (R398, R399). -/
opaque wear0 : Nat → Nat × Nat × Nat
/-- FREE VALUE (log entry 6): the entries of the migration request ring, whose size the manual does not give (R351). -/
opaque migRingSize : Nat
/-- FREE VALUE (log entry 42): the lines of the translation directory beyond its first; the manual does not give its size (R355). -/
opaque tdirSize : Nat
/-- FREE VALUE (log entry 7): the digest of the signing root key fused in the landing die (R403). -/
opaque rootDigest : BitVec 512
/-- FREE VALUE (log entry 8): DIG of the boot firmware with which the part leaves manufacture (R404). -/
opaque bootDigest : BitVec 512
/-- FREE VALUE (log entry 21): the bytes by which the operands of WORLDB and WORLDR are measured into M2, whose widths the
manual does not give (R402, R404). -/
opaque operandBytes : List Nat → List Byte
/-- FREE VALUE (log entry 21): the bytes of the fuse map and the soft-fuse map as measured into M1 (R404): disabled cores, dies,
channels and ports of each. -/
opaque fuseBytes : List (List Nat) → List Byte
/-- FREE VALUE (log entry 10): a result value the manual does not state. -/
opaque freeWord : Nat → Word
/-- Values that the manual does not give of a raster fragment, by a key of what replay repeats (log entry 10). -/
opaque fragmentWord : Nat → BitVec 32

end Sys2Proof.Config
end

