-- ==== Sys2Proof/Machine/State.lean ====
section
/-! DEFINITION. The state of the Ruelm as plain data: groups, teams, convoys, grids, contexts, engine operations and
everything the package holds (01_state, 07, 14 to 18 and 21 of the spec), the reasons a step can stop, and the state
right after reset. INVENTORY.md's '## State' lists every field with its rule. -/
namespace Sys2Proof.Machine

/-! ## Memory -/

/-- A byte store in canonical form: addresses strictly rising, no entry equal to the byte 0 that an unlisted address
reads as (R409 step 5 and R133: memory and scratchpad start zero). -/
structure Memory where
  cells : List Host.Cell
  deriving DecidableEq, Repr, Inhabited

/-- The store with nothing listed. -/
def Memory.empty : Memory := ⟨[]⟩

/-! ## Groups -/

/-- The content of a v register by its shape tag (R12): uniform, affine (base and stride) or general. -/
inductive VVal where
  | uni (w : Word)
  | aff (base stride : Word)
  | gen (ws : List Word)
  deriving DecidableEq, Repr, Inhabited

/-- A group's role (R89). -/
inductive Role where
  | copy
  | matrix
  | vector
  deriving DecidableEq, Repr, Inhabited

/-- Trap causes 1 to 14 (R325). -/
inductive Cause where
  | illegal
  | extension
  | shape
  | nonuniform
  | divergent
  | role
  | page
  | protection
  | poison
  | replayDivergence
  | manifestStall
  | preempt
  | breakpoint
  | software
  deriving DecidableEq, Repr, Inhabited

/-- A trap: its cause, SUB and the value for `sys.tval` (R325). -/
structure Trap where
  cause : Cause
  sub : Nat
  tval : DWord
  deriving DecidableEq, Repr, Inhabited

/-- What a group waits for (R225 and the rules it names). -/
inductive Wait where
  | none
  | marker          -- a switch marker with results outstanding (R61)
  | grid            -- `lwait` (R96)
  | tag             -- a tag wait, or a tag still bound at issue (R148, R146)
  | ring            -- a ring wait (R154, R155)
  | barrier         -- `bar`, `barv`, `rqmv` (R157, R99)
  | latch           -- the rendezvous latch (R180)
  | engine          -- a busy matrix engine (R183)
  | raySlots        -- ray slots (R197, R233)
  | member          -- a convoy member that has not started (R133, R193)
  | manifest        -- a full manifest, or its place in the schedule (R364, R366)
  | forwarded       -- the reply of a line's owner (R63)
  | frozen          -- a page being migrated or flipped (R248, R352)
  | captures        -- a 65th capturable operation (R334)
  deriving DecidableEq, Repr, Inhabited

/-- An arrival a group has made and still waits on (R158): the barrier, team or convoy, the generation, the word address of
the waiting instruction, and the status of a budget move applied while the group was in a handler (R99). -/
structure Arrival where
  convoy : Bool
  bar : Nat
  gen : Nat
  pc : Word
  status : Option Word
  deriving DecidableEq, Repr, Inhabited

/-- A group at the rendezvous latch (R180): the operand values of its `mma`, its marker, and whether the listed groups
have been found to disagree. -/
structure Latch where
  acc : Word
  aAddr : Word
  aFmt : Word
  bAddr : Word
  bFmt : Word
  swz : Nat
  s : Bool
  bad : Bool
  deriving DecidableEq, Repr, Inhabited

/-- A reply to a forwarded request of a group's instruction (R348): which of the instruction's forwarded accesses it
answers, the status and the bytes. -/
structure FwdReply where
  idx : Nat
  stat : Nat
  bytes : List Byte
  deriving DecidableEq, Repr, Inhabited

/-- One group (R11) with everything the device holds of it. -/
structure Group where
  v : List VVal
  vDue : List VVal
  h : List (BitVec 512)
  hDue : List (BitVec 512)
  pend : Nat
  awaited : Nat
  p : List Half
  b : List DWord
  md : Word
  gang : DWord
  count : List (BitVec 8)
  live : Half
  helper : Half
  draw : List DWord
  gfid : List DWord
  retired : DWord
  pc : Word
  flags : Word
  cause : Word
  epc : Word
  tval : DWord
  priv : Bool
  budget : Nat
  role : Role
  ended : Bool
  left : Bool
  wait : Wait
  arrived : List Arrival
  latch : Option Latch
  /-- Forwarded requests still without a reply, and the replies so far (R63). -/
  fwdOpen : List Nat
  fwd : List FwdReply
  /-- Manifest records kept free for the forwarded atomics sent (R364). -/
  owed : Nat
  /-- A preempt request: 0 save, 1 restore (R332). -/
  preempt : Option Nat
  trapDue : Option Trap
  port : Nat
  inSet : Bool
  entered : Nat
  readySince : Nat
  deriving DecidableEq, Repr, Inhabited

/-! ## Teams -/

/-- The state of a ring slot with the sequence number it carries (R153). -/
inductive Slot where
  | empty
  | writing (q : Word)
  | full (q : Word)
  | taken (q : Word)
  deriving DecidableEq, Repr, Inhabited

/-- A stage ring (R153). -/
structure Ring where
  base : Nat
  size : Nat
  hd : Word
  tl : Word
  slots : List Slot
  deriving DecidableEq, Repr, Inhabited

/-- A barrier: generation, arrivals in it, the expected count its first arrival set (R157; 0 means every group), and which
groups have arrived: slots, or 64 × member + slot for a convoy's. -/
structure Barrier where
  gen : Nat
  arrivals : Nat
  expect : Option Nat
  who : List Nat
  deriving DecidableEq, Repr, Inhabited

/-- A budget move requested at barrier 0 by the `rqmv` at a word address (R99). -/
structure Move where
  slot : Nat
  pc : Word
  vd : VReg
  va : Word
  vb : Word
  deriving DecidableEq, Repr, Inhabited

/-- A tile mark (R135, R186): state code, constant, non-finite bit, type code (15 any), swizzle (3 any) and the format
register under which a narrow type was judged. -/
structure Mark where
  state : Nat
  const : Word
  nonfin : Bool
  type : Nat
  swz : Nat
  fmt : Word
  deriving DecidableEq, Repr, Inhabited

/-- Where a team stands with respect to pre-emption (R332 to R340). -/
inductive Phase where
  | running
  | preempting      -- requested, not yet delivered
  | saving          -- delivered, groups in the save routine
  | saved           -- in its frame, waiting to be restored
  | restoring
  deriving DecidableEq, Repr, Inhabited

/-- A team (R219, R231) on a core, or saved. -/
structure Team where
  tid : Nat
  ctx : Nat
  serial : Nat
  lin : Nat
  cont : Bool
  core : Nat
  groups : List Group
  scr : Memory
  scrBytes : Nat
  scrBase : Nat
  scrPoison : List Nat
  marks : List (Nat × Mark)
  acc : List (Nat × Word)
  accRows : Nat
  accBase : Nat
  tagN : Nat
  tagBase : Nat
  tg : DWord
  /-- Tags that an operation has been bound to. -/
  bound : DWord
  tagErr : DWord
  tagReason : List (Nat × Nat)
  rings : List Ring
  bars : List Barrier
  moves : List Move
  convoy : Option (Nat × Nat)       -- convoy identity and member index
  prio : Nat
  stamp : Nat
  phase : Phase
  frame : Option Nat                -- offset of its frame in the save area
  ltime : Nat
  /-- MODEL: which save its opaque items belong to. -/
  saveKey : Nat
  /-- Which of items 16, 17 and 18 a restore has loaded (R340). -/
  got16 : Bool
  got17 : Bool
  got18 : Bool
  deriving DecidableEq, Repr, Inhabited

/-- A convoy (R230): its die, its member count, the teams started and its four barriers. -/
structure Convoy where
  id : Nat
  ctx : Nat
  serial : Nat
  first : Nat
  die : Nat
  members : Nat
  started : List Nat
  /-- Members placed and since ended (R230: they count as arrived). -/
  ended : List Nat
  /-- The cores its members have been placed on: each member takes another (R321). -/
  cores : List Nat
  bars : List Barrier
  deriving DecidableEq, Repr, Inhabited

/-! ## Grids and contexts -/

/-- A ring table entry (R217). -/
structure RingEntry where
  base : Nat
  nslot : Nat
  sz16 : Nat
  deriving DecidableEq, Repr, Inhabited

/-- A target table entry (R217). -/
structure Target where
  entry : Word
  payB : Nat
  deriving DecidableEq, Repr, Inhabited

/-- An accepted launch and its grid (R211 to R217, R309 to R324). -/
structure Grid where
  ctx : Nat
  serial : Nat
  fromHost : Bool
  parent : Option Nat
  depth : Nat
  queue : Nat
  basePrio : Nat
  effPrio : Nat
  eligible : Bool
  conv : Nat
  nmat : Nat
  ncpy : Nat
  gx : Nat
  gy : Nat
  gz : Nat
  tbase : Nat
  tags : Nat
  bud : Nat
  grp : Nat
  scr : Nat
  acc : Nat
  pgrp : Nat
  seed : DWord
  args : DWord
  deps : List Nat
  entry : Word
  image : List VVal
  stage : DWord
  stageB : Nat
  arriv : Nat
  /-- The constant bytes loaded before the launch was accepted, and the 16-byte chunks of them that could not be read, with what a
load of them raises (R241). -/
  const : Memory
  constBad : List (Nat × Trap)
  ringTab : List RingEntry
  targets : List Target
  placed : Nat
  formed : Nat
  retired : Bool
  lost : Bool
  deriving DecidableEq, Repr, Inhabited

/-- A host window (R374, WOPEN). -/
structure Window where
  win : Nat
  base : DWord
  bytes : Nat
  deriving DecidableEq, Repr, Inhabited

/-- A context (R307). -/
structure Context where
  num : Nat
  secure : Bool
  recMode : Nat
  pinq : Nat
  code : DWord
  const : DWord
  constSz : Nat
  save : DWord
  saveSz : Nat
  mani : DWord
  maniBase : DWord
  maniLog : Nat
  maniStall : Nat
  wpr : DWord
  qcfg : List Word
  l0 : Nat
  nextSerial : Nat
  pinned : List Nat
  lodLost : Word
  windows : List Window
  counters : List (Nat × Nat)       -- page and forwarded accesses counted (R350)
  frames : List (Nat × Nat × Nat)   -- offset, bytes and team of each frame in use (R336)
  raced : List Nat                  -- lines whose race has been reported (R370)
  deriving DecidableEq, Repr, Inhabited

/-- Room kept for a launch whose next team, or whose next convoy, waits for evicted teams to be saved (R323): its core, or its
die. -/
structure Claim where
  ctx : Nat
  serial : Nat
  convoy : Bool
  at_ : Nat
  deriving DecidableEq, Repr, Inhabited

/-! ## Engine operations -/

/-- What a brick node gave (R260): lost, fell back, met poison, the level used, a NaN sample, and its bound (in point mode
its value and the level's error). A ray keeps them, so that one held by the manifest goes on without reading a brick twice. -/
structure NodeRes where
  lost : Bool
  fb : Bool
  pois : Bool
  lvl : Nat
  nv : Bool
  lo : Word
  hi : Word
  deriving DecidableEq, Repr, Inhabited

/-- What a ray keeps of the reads it has made, so that a step that waits goes on without making one twice: a brick node, or the
bytes of a scene line or a program (none: poisoned, or it cannot be read). -/
inductive Memo where
  | node (x : NodeRes)
  | line (bs : Option (List Byte))
  deriving DecidableEq, Repr, Inhabited

/-- One ray of a march (R197, R262, R264, R265): its fibre, its eight words, its current segment and depth (in point mode `a` is
t), the far halves that wait, its evaluations and status bits, and the brick nodes its next evaluation has met. -/
structure MRay where
  f : Fibre
  words : List Word
  a : Word
  b : Word
  depth : Nat
  stack : List (Word × Word × Nat)
  evals : Nat
  nv : Bool
  fb : Bool
  lvl : Nat
  memo : List Memo
  deriving DecidableEq, Repr, Inhabited

/-- What an engine operation does, with its operands as read at issue; `bad` are the entries of an index list that lay in
poisoned granules, `elems` the elements of a contribution read so far. -/
inductive OpKind where
  | cpy (glob : DWord) (scr : Word) (len rows stride swz : Nat) (out : Bool)
  | cpyt (desc : BitVec 512) (starts : List Word) (ext : List Nat) (scr : Word) (out : Bool)
  | rows (desc : BitVec 512) (list : List Word) (bad : List Nat) (scr : Word) (stride swz : Nat) (scatter : Bool)
  | xfer (put : Bool) (loc rem : DWord) (len : Nat) (host : Bool) (dev : Nat)
  | nred (op type : Nat) (loc rem : DWord) (n : Nat) (host : Bool) (dev : Nat) (elems : List Word)
  | adrn (dst : Word) (rows cols : Nat) (cells : List Word) (int sat : Bool) (gen member : Nat)
  | bcl (desc : DWord) (pos : List Word) (spec : Word)
  | prn (img : List Byte) (box out cap : Word) (swz : Nat)
  | mrch (img : List Byte) (recs tol lip : Word) (mode : Nat) (table : DWord) (swz : Nat) (rays : List MRay)
  | rast (desc : List Byte) (swz : Nat)
  deriving DecidableEq, Repr, Inhabited

/-- A piece that an operation has read and not yet used: its place among them, its bytes, and the reason met instead of them
(R147). -/
structure Piece where
  at_ : Nat
  bytes : List Byte
  reason : Nat
  deriving DecidableEq, Repr, Inhabited

/-- An engine operation in flight (R145): its issuer, its tag and ring binding, the first reason met, the count of its chunks
that are done (R334), whether the writes of its next chunk to a line elsewhere have been sent, the requests it waits on, the
replies it has, and whether its issuing team has been saved with it captured (R334). -/
structure Op where
  id : Nat
  ctx : Nat
  tid : Nat
  slot : Nat
  kind : OpKind
  tag : Option Nat
  ring : Option Nat
  /-- The sequence number of the ring slot an inward copy fills (R155). -/
  seq : Word
  reason : Nat
  done : Nat
  /-- A remote failure has been met: nothing further is sent (R147). -/
  cut : Bool
  /-- What it has written of poisoned granules: the space, and a run of half bytes (R393). -/
  spans : List (Nat × Nat × Nat)
  /-- Scratchpad blocks it is half-way through: team and block (R243). -/
  busy : List (Nat × Nat)
  /-- What it has read and not yet used. -/
  seen : List Piece
  /-- The first poisoned granule it has met: its physical address, or the scratchpad offset (R394). -/
  bad : Option DWord
  sent : Bool
  waits : List Nat
  got : List FwdReply
  captured : Bool
  deriving DecidableEq, Repr, Inhabited

/-- A matrix operation in flight on a core (R183): for each member, its group, its flags and the cells it writes. -/
structure MatrixOp where
  core : Nat
  members : List (GRef × Word × List (Nat × Word))
  deriving DecidableEq, Repr, Inhabited

/-- A party of the manifest (R360): an identity that does not depend on placement. -/
structure Party where
  serial : Nat
  cont : Bool
  eng : Bool
  host : Bool
  team : Nat
  slot : Nat
  fibre : Nat
  deriving DecidableEq, Repr, Inhabited

/-- A ray in the intersection unit (R202, R288). -/
structure Ray where
  id : Nat
  ctx : Nat
  serial : Nat
  core : Nat
  words : List Word
  ctl : Word
  payload : List Word
  root : DWord
  gfid : DWord
  draw : DWord
  party : Party
  memo : List Memo
  /-- The requests it waits on, and the replies it has (R348). -/
  waits : List Nat
  got : List FwdReply
  deriving DecidableEq, Repr, Inhabited

/-- A continuation in a boarding unit (R294). -/
structure Continuation where
  core : Nat
  bin : BinKey
  hash : Word
  order : Nat
  payload : List Word
  gfid : DWord
  draw : DWord
  helper : Bool
  arrival : List Word
  raster : Option Nat               -- the raster group it belongs to (R292), never sorted
  deriving DecidableEq, Repr, Inhabited

/-! ## Landing die -/

/-- What a party has touched of a line since a record: the manifest HEAD it saw, whether it wrote, and the half bytes, bit 2i being
the low half of byte i (R236, R370). -/
structure Touch where
  party : Party
  head : Nat
  wr : Bool
  mask : Nat
  deriving DecidableEq, Repr, Inhabited

/-- A 128-byte line's logical times and what has touched it since the last record (R239, R370). -/
structure LineMark where
  /-- The team whose scratchpad the line is in; none: device or host memory. -/
  space : Option Nat
  line : Nat
  wt : Nat
  lease : Nat
  touches : List Touch
  deriving DecidableEq, Repr, Inhabited

/-- A line of the translation directory (R355, R357): sharer cores and pending marks. -/
structure TLine where
  line : Nat
  sharers : List Nat
  marks : List Nat
  deriving DecidableEq, Repr, Inhabited

/-- A bias flip in progress (R248): the page, its new bias, whom to answer, and whether its flip point has been taken. -/
structure Flip where
  ctx : Nat
  page : DWord
  toHost : Bool
  begun : Bool
  own : Bool                        -- the device's own flip, for a migration (R352)
  deriving DecidableEq, Repr, Inhabited

/-- Where a migration stands (R352): it waits for the host's FLIPREQ reply, its bias flip drains, or its page is frozen and
its lines are read. -/
inductive MigStage where
  | asked
  | flipping
  | copying
  deriving DecidableEq, Repr, Inhabited

/-- A migration in progress (R352): the page, its new frame, and a line known to be bad. -/
structure Migration where
  ctx : Nat
  page : DWord
  frame : Nat
  bad : Option Nat
  stage : MigStage
  deriving DecidableEq, Repr, Inhabited

/-- A table walker at work (R357): its core, the translation it walks for, the level it has reached, and the line it has marked
and read with the 128 bytes it found. -/
structure Walker where
  core : Nat
  ctx : Nat
  va : DWord
  level : Nat
  line : Nat
  bytes : List Byte
  deriving DecidableEq, Repr, Inhabited

/-- A contribution of which messages have arrived and the last has not (R378, R379). -/
structure Inbound where
  ctx : Nat
  dev : Nat
  buf : DWord
  op : Nat
  type : Nat
  elems : List Word
  deriving DecidableEq, Repr, Inhabited

/-- A message sent by the package (R372 to R378): connection, KIND, CTX, whether it is a reply, STAT, the request number
its reply names, and its payload bytes. -/
structure OutMsg where
  conn : ConnId
  kind : Nat
  ctx : Nat
  reply : Bool
  stat : Nat
  req : Nat
  data : List Byte
  /-- The granules of the line that a written line carries poisoned (R248; log entry 44). -/
  spoiled : List Nat
  deriving DecidableEq, Repr, Inhabited

/-- Who waits for the reply of a request (R348). -/
inductive Asker where
  | group (g : GRef) (idx : Nat)
  | op (id idx : Nat)
  | ray (id idx : Nat)
  | held (id idx : Nat)
  | flip (ctx : Nat) (page : DWord)
  | mig (ctx : Nat) (page : DWord) (line : Nat)
  deriving DecidableEq, Repr, Inhabited

/-- A line elsewhere that an access has been asked of: who asked, the context and address, the line, and whether it writes. It is in
the asker's hands until its instruction or chunk is performed (R138, R237, R348). -/
structure Away where
  who : Asker
  ctx : Nat
  va : DWord
  line : Nat
  wr : Bool
  deriving DecidableEq, Repr, Inhabited

/-- A message in its frame (R372, R377): SEQ and ACK, FLG bit 1, and for a peer the port it leaves through and the IPv6 address
it goes to (prefix and interface identifier). -/
structure Frame where
  msg : OutMsg
  seq : Nat
  ack : Nat
  secure : Bool
  port : Option Nat
  pre : DWord
  dev : Nat
  deriving DecidableEq, Repr, Inhabited

/-- A request whose reply is outstanding: its number, its context, its connection, who waits and the virtual address. -/
structure Request where
  id : Nat
  ctx : Nat
  conn : ConnId
  who : Asker
  va : DWord
  /-- The host line the reply fills (R347: the first use of a device-biased line). -/
  fetch : Option Nat
  deriving DecidableEq, Repr, Inhabited

/-- What the landing die performs in its order: a launch, a read or write of a context's memory for a message of a kind, a
peer's forwarded access, a drain or a supply, a post to a wanted-page ring that is not all in the package, a message of a
contribution, the operation of this package that offers it or none for a peer's, or the arming of a grid's reduction descriptor
(R379). -/
inductive HeldMsg where
  | launch (record : List Byte)
  | read (kind : Nat) (va : DWord) (n : Nat)
  | write (kind : Nat) (va : DWord) (bs : List Byte)
  | forward (va : DWord) (kind : FwdKind) (bs : List Byte)
  | drain (ring max : Nat)
  | supply (records : List (List Byte))
  | post (desc : DWord) (page level : Nat) (poisoned : Bool)
  | contribute (dev : Nat) (x : Contribution) (own : Option Nat)
  | arm (serial i : Nat)
  deriving DecidableEq, Repr, Inhabited

/-- A message held at the landing die (R248, R313, R352, R370): until its page, its place in the schedule or the lines it
needs are there. `got` and `waits` are as an operation's; `plan` is the STAT and data of its reply once its accesses have been
performed and sent, and `gated` that the manifest holds it. -/
structure Held where
  id : Nat
  conn : ConnId
  ctx : Nat
  msg : HeldMsg
  got : List FwdReply
  waits : List Nat
  plan : Option (Nat × List Byte)
  gated : Bool
  deriving DecidableEq, Repr, Inhabited

/-- What a request of the host asks for (R374, R402). -/
inductive HostReq where
  | launchMessage (record : List Byte)
  | wopen (win : Nat) (base : DWord) (units : Nat)
  | wread (win off len : Nat)
  | wwrite (win off : Nat) (data : List Byte)
  | flip (page : DWord) (toHost : Bool)
  | drain (ring max : Nat)
  | supply (records : List (List Byte))
  | unknownMessage (kind : Nat)
  | create (ctx world : Nat) (pad : BitVec 48) (root : DWord) (desc : List Byte)
  | destroy (ctx : Nat)
  | jobset (index ndev : Nat) (pre : DWord)
  | migset (val : Word)
  | disc (first count : Nat)
  | errdrain (die count : Nat)
  | evdrain (count : Nat)
  | health (die : Nat)
  | cert (off len : Nat)
  | quote (nonce : List Byte)
  | worldb (kind idx world : Nat)
  | worldr (first count world : Nat)
  | fwload (off : Nat) (data : List Byte)
  | fwcommit
  | repair (kind idx : Nat)
  | pwrlim (watts : Nat)
  | mgmtUnknownOp (op : Nat)
  deriving DecidableEq, Repr, Inhabited

/-- A connection (R373): the next numbers to send and to take, the messages sent and not yet acknowledged, oldest first, the
retransmissions without progress, and whether it is down. -/
structure Conn where
  id : ConnId
  send : Nat
  expect : Nat
  queue : List Frame
  retries : Nat
  down : Bool
  deriving DecidableEq, Repr, Inhabited

/-- An error record (R394). -/
structure ErrRec where
  time : DWord
  sev : Nat
  src : Nat
  loc : Nat
  ctx : Nat
  addr : DWord
  det : Word
  count : Nat
  deriving DecidableEq, Repr, Inhabited

/-- An event record (R402). -/
structure EvRec where
  time : DWord
  kind : Nat
  ctx : Nat
  detail : Word
  deriving DecidableEq, Repr, Inhabited

/-- Health and wear of one die (R398): the last readings, power-on hours, EOL, and the indicators one reading per hour
over the window of R399 (newest first). -/
structure Health where
  temp : BitVec 16
  vcore : BitVec 16
  pwr : Word
  poh : Nat
  eol : Nat
  hist : List (Nat × Nat × Nat)
  deriving DecidableEq, Repr, Inhabited

/-- Units disabled (R396, R397): cores, dies, memory channels and peer ports. -/
structure Units where
  cores : List Nat
  dies : List Nat
  channels : List Nat
  ports : List Nat
  deriving DecidableEq, Repr, Inhabited

/-- dsc.boot and what bring-up leaves (R395, R409). -/
structure Boot where
  step : Nat
  fail : Nat
  recov : Bool
  ready : Bool
  deriving DecidableEq, Repr, Inhabited

/-- A brick held in a core's brick cache (R195, R279): the physical addresses of its bytes and of its map byte. -/
structure CachedBrick where
  core : Nat
  addr : Nat
  map : Nat
  deriving DecidableEq, Repr, Inhabited

/-- The job table (R377). -/
structure Job where
  index : Nat
  ndev : Nat
  pre : DWord
  deriving DecidableEq, Repr, Inhabited

/-- The whole package. -/
structure State where
  /-- MODEL: the group whose turn it is; none: the units' turn. -/
  cur : Option GRef
  /-- MODEL: the interleaving still to come; empty: the groups take turns. -/
  turns : List GRef
  /-- MODEL: what the host, the peers, nature and the clock-driven units do next, oldest first. -/
  inbox : List Instr
  /-- MODEL: fresh identities. -/
  nextId : Nat
  /-- MODEL: the counter of free values. -/
  free : Nat
  mem : Memory
  poison : List Nat
  dirBad : List Nat
  hostMem : Memory
  hostPoison : List Nat
  hostLines : List Nat
  /-- Lines of host memory held with changes not yet written back (R247). -/
  hostDirty : List Nat
  contexts : List Context
  grids : List Grid
  teams : List Team
  saved : List Team
  convoys : List Convoy
  claims : List Claim
  ops : List Op
  matrix : List MatrixOp
  rays : List Ray
  conts : List Continuation
  idle : List Nat                   -- cores whose boarding unit is due a group (R294)
  bricks : List CachedBrick
  clocks : List (Nat × Nat)
  lines : List LineMark
  tdir : List TLine
  walkers : List Walker
  flips : List Flip
  migs : List Migration
  migctl : Word
  /-- The migration request ring: its entries in secure memory, HEAD and TAIL (R351). -/
  migRing : Memory
  migHead : Nat
  migTail : Nat
  served : List (Nat × Nat)
  held : List Held
  /-- Host requests that have arrived behind one that is held, oldest first (R309). -/
  port : List (MsgHdr × HostReq)
  conns : List Conn
  requests : List Request
  away : List Away
  job : Job
  /-- Messages sent, and the frames that carried them, each with every retransmission (R372, R373). -/
  outbox : List OutMsg
  wire : List Frame
  /-- Contributions still incomplete (R379). -/
  inbound : List Inbound
  errRings : List (Nat × ErrRec)    -- die and record, oldest first
  errLost : List (Nat × Nat)
  errWarned : List Nat              -- dies whose overflow event has been posted since their last drain (R394)
  events : List EvRec
  evLost : Nat
  fused : Units
  softFused : Units
  disabled : Units                  -- what is disabled since the last reset
  boot : Boot
  strap : BitVec 6
  svn : Nat
  health : List Health
  eolWarned : Bool
  secCores : List Nat
  secPorts : List Nat
  secRegions : List Nat
  meas : List (BitVec 512)
  quotes : Nat
  fwStage : Memory
  fwFlash : Option (Memory × Nat)   -- the committed image and its SVN
  resetN : Bool
  pwrgd : Bool
  throttled : Bool
  tripped : Bool
  pwrLimit : Nat
  deriving DecidableEq, Repr, Inhabited

/-- Why the machine stops with a fault. -/
inductive Fault where
  /-- Raised by `exec` of an instruction word when no group has the turn: an instruction word has no meaning without a
  group to execute it. Safe: the hardware issues words only from groups (R223). -/
  | noGroup
  deriving DecidableEq, Repr, Inhabited

/-- Why a step is refused. -/
inductive Refusal where
  /-- Raised by the arms of Dispatch for an instruction whose meaning is not modelled yet. Safe. -/
  | notModelled (mnemonic : String)
  deriving DecidableEq, Repr, Inhabited

/-- Nothing disabled. -/
def Units.none : Units := ⟨[], [], [], []⟩

/-- One die's health before any update (log entry 1). -/
def Health.new : Health := ⟨0, 0, 0, 0, 0xFFFFFFFF, []⟩

/-- The machine right after reset: RESET_N has risen, bring-up has not run (dsc.boot reads 0, R395), memory lists
nothing, every world is non-secure (R401), M0 to M3 are zero (R404), no context, grid or team exists, and logical clocks
are 0 (R239). Values the manual does not give are log entry 1's. -/
def State.reset : State where
  cur := none
  turns := []
  inbox := []
  nextId := 0
  free := 0
  mem := Memory.empty
  poison := []
  dirBad := []
  hostMem := Memory.empty
  hostPoison := []
  hostLines := []
  hostDirty := []
  contexts := []
  grids := []
  teams := []
  saved := []
  convoys := []
  claims := []
  ops := []
  matrix := []
  rays := []
  conts := []
  idle := []
  bricks := []
  clocks := []
  lines := []
  tdir := []
  walkers := []
  flips := []
  migs := []
  migctl := 0
  migRing := Memory.empty
  migHead := 0
  migTail := 0
  served := []
  held := []
  port := []
  conns := []
  requests := []
  away := []
  job := ⟨0, 0, 0⟩
  outbox := []
  wire := []
  inbound := []
  errRings := []
  errLost := []
  errWarned := []
  events := []
  evLost := 0
  fused := Units.none
  softFused := Units.none
  disabled := Units.none
  boot := ⟨0, 0, false, false⟩
  strap := 0
  svn := 0
  health := List.replicate 9 Health.new
  eolWarned := false
  secCores := []
  secPorts := []
  secRegions := []
  meas := [0, 0, 0, 0]
  quotes := 0
  fwStage := Memory.empty
  fwFlash := none
  resetN := true
  pwrgd := true
  throttled := false
  tripped := false
  pwrLimit := 4800

end Sys2Proof.Machine
end

