-- ==== Sys2Proof/Machine/Store.lean ====
section
/-! DEFINITION. Sorting, byte stores and their canonical form, and finding and replacing the parts of the package. -/
namespace Sys2Proof.Machine

/-! ## Sorting -/

/-- An element put before the first element of a list that it does not come after. -/
def insertBy {α : Type} (le : α → α → Bool) (x : α) : List α → List α
  | [] => [x]
  | y :: r => if le x y then x :: y :: r else y :: insertBy le x r

/-- A list in the order `le`, elements that tie in the order they stood. -/
def sortBy {α : Type} (le : α → α → Bool) (l : List α) : List α := l.foldr (insertBy le) []

/-! ## Byte stores -/

/-- The byte at `a`; an unlisted address reads 0. -/
def Memory.get (m : Memory) (a : Nat) : Byte := (m.cells.lookup a).getD 0

/-- Writing one byte of a sorted list of cells, keeping it sorted and free of zeros. -/
def putCell : List Host.Cell → Nat → Byte → List Host.Cell
  | [], a, b => if b = 0 then [] else [(a, b)]
  | (k, x) :: r, a, b =>
    if a < k then if b = 0 then (k, x) :: r else (a, b) :: (k, x) :: r
    else if a = k then if b = 0 then r else (a, b) :: r
    else (k, x) :: putCell r a b

/-- The store with the byte `b` at `a`. -/
def Memory.put (m : Memory) (a : Nat) (b : Byte) : Memory := ⟨putCell m.cells a b⟩

/-- The `n` bytes from `a`. -/
def Memory.read (m : Memory) (a n : Nat) : List Byte :=
  let near := m.cells.filter fun c => a ≤ c.1 && c.1 < a + n
  (List.range n).map fun i => (near.lookup (a + i)).getD 0

/-- The store with the bytes `bs` from `a`. -/
def Memory.write (m : Memory) (a : Nat) : List Byte → Memory
  | [] => m
  | b :: bs => (m.put a b).write (a + 1) bs

/-- The store with the `n` bytes from `a` zero. -/
def Memory.clear (m : Memory) (a n : Nat) : Memory := ⟨m.cells.filter fun c => c.1 < a || a + n ≤ c.1⟩

/-- A list of cells is in canonical form from `lo` up: addresses rise strictly and no byte is 0. -/
def cellsWf (lo : Nat) : List Host.Cell → Bool
  | [] => true
  | (k, x) :: r => lo ≤ k && x != 0 && cellsWf (k + 1) r

/-- The canonical form of a byte store. -/
def Memory.wf (m : Memory) : Bool := cellsWf 0 m.cells

/-- The value of little-endian bytes (R6). -/
def leNat : List Byte → Nat
  | [] => 0
  | b :: r => b.toNat + 256 * leNat r

/-- The low `n` bytes of a value, little-endian (R6). -/
def natLe : Nat → Nat → List Byte
  | 0, _ => []
  | n + 1, v => .ofNat 8 v :: natLe n (v / 256)

/-- A field of `n` bytes at an offset of a byte string. -/
def bytesAt (bs : List Byte) (off n : Nat) : Nat := leNat ((bs.drop off).take n)

/-- Little-endian 32-bit words as bytes. -/
def wordBytes (ws : List Word) : List Byte := ws.flatMap fun w => natLe 4 w.toNat

/-- Bytes as `n` little-endian 32-bit words. -/
def bytesWords (bs : List Byte) (n : Nat) : List Word := (List.range n).map fun i => .ofNat 32 (bytesAt bs (4 * i) 4)

/-! ## Finding and replacing parts of the package -/

/-- The team of identity `tid`. -/
def State.team? (s : State) (tid : Nat) : Option Team := s.teams.find? (·.tid == tid)
/-- A group. -/
def State.group? (s : State) (r : GRef) : Option Group := (s.team? r.tid).bind fun t => t.groups[r.slot]?
/-- The context of number `n`. -/
def State.context? (s : State) (n : Nat) : Option Context := s.contexts.find? (·.num == n)
/-- A grid by context and serial. -/
def State.grid? (s : State) (c n : Nat) : Option Grid := s.grids.find? fun x => x.ctx == c && x.serial == n
/-- An engine operation. -/
def State.op? (s : State) (id : Nat) : Option Op := s.ops.find? (·.id == id)

/-- Changing the team of identity `tid`. -/
def State.modTeam (s : State) (tid : Nat) (f : Team → Team) : State :=
  { s with teams := s.teams.map fun t => if t.tid == tid then f t else t }
/-- Changing a group of a team. -/
def Team.modGroup (t : Team) (slot : Nat) (f : Group → Group) : Team := { t with groups := t.groups.modify slot f }
/-- Changing a group. -/
def State.modGroup (s : State) (r : GRef) (f : Group → Group) : State := s.modTeam r.tid fun t => t.modGroup r.slot f
/-- Replacing a group. -/
def State.setGroup (s : State) (r : GRef) (g : Group) : State := s.modGroup r fun _ => g
/-- Changing a context. -/
def State.modContext (s : State) (n : Nat) (f : Context → Context) : State :=
  { s with contexts := s.contexts.map fun c => if c.num == n then f c else c }
/-- Changing a grid. -/
def State.modGrid (s : State) (c n : Nat) (f : Grid → Grid) : State :=
  { s with grids := s.grids.map fun x => if x.ctx == c && x.serial == n then f x else x }
/-- Changing an engine operation. -/
def State.modOp (s : State) (id : Nat) (f : Op → Op) : State :=
  { s with ops := s.ops.map fun o => if o.id == id then f o else o }

/-- A value of an association list. -/
def assoc (l : List (Nat × Nat)) (k d : Nat) : Nat := (l.lookup k).getD d
/-- Setting a value of an association list. -/
def setAssoc (l : List (Nat × Nat)) (k v : Nat) : List (Nat × Nat) := (k, v) :: l.filter (·.1 != k)

end Sys2Proof.Machine
end

