-- ==== Sys2Proof/Machine/Translate.lean ====
section
/-! DEFINITION. Virtual addresses, the table walk and where an access is performed (R19, R344 to R347, R400). -/
namespace Sys2Proof.Machine

/-- A canonical virtual address: bits 63:56 all equal bit 55 (R19). -/
def canonical (va : DWord) : Bool := (va.extractLsb' 0 56).signExtend 64 == va

/-- The virtual address of a forwarded or translated access: the low 56 bits (R344). -/
def vaNat (va : DWord) : Nat := va.toNat % 2 ^ 56

/-- Access kinds (R346). -/
inductive AccKind where
  | read
  | write
  | rmw
  | fetch
  deriving DecidableEq, Repr

/-- SUB of `page` and `poison` for an access kind (R325). -/
def AccKind.sub : AccKind → Nat
  | .read => 0
  | .write => 1
  | .rmw => 2
  | .fetch => 0

/-- Device memory in bytes over the enabled channels (R395, R396). -/
def State.memBytes (s : State) : Nat := (Config.channels - s.disabled.channels.length) * Config.channelBytes

/-- A leaf of the table with the page it maps (R345): the owner, the base of its frame, the page size and the address of
the entry. -/
structure Leaf where
  own : Nat
  hostBias : Bool
  dnm : Bool
  dira : Bool
  dtype : Nat
  frame : Nat
  dev : Nat
  ns : Bool
  x : Bool
  w : Bool
  r : Bool
  bits : Nat
  entry : Nat
  deriving DecidableEq, Repr, Inhabited

/-- What a walk meets before a leaf: an entry with V = 0, or a malformed entry (R346). -/
inductive WalkError where
  | page
  | malformed
  deriving DecidableEq, Repr

/-- A table entry (R345). -/
def State.entryAt (s : State) (a : Nat) : DWord := .ofNat 64 (leNat (s.mem.read a 8))

/-- A field of an entry as a number. -/
def efld (e : DWord) (lo n : Nat) : Nat := e.toNat / 2 ^ lo % 2 ^ n

/-- A reserved bit is 1 (R345). -/
def entryReserved (e : DWord) : Bool := efld e 52 3 != 0 || efld e 6 6 != 0

/-- The next table of a non-leaf entry: its address, when the entry is well formed; `bytes` is the table's size and
alignment (R344, R345). -/
def State.nextTable (s : State) (e : DWord) (bytes : Nat) : Except WalkError Nat :=
  let a := efld e 12 40 * 4096
  if efld e 0 1 = 0 then .error .page
  else if entryReserved e || efld e 1 5 != 0 || efld e 55 9 != 0 || a % bytes != 0 || s.memBytes < a + bytes then
    .error .malformed
  else .ok a

/-- The leaf an entry holds, for a page of 2^bits bytes (R345). -/
def State.leafOf (s : State) (e : DWord) (bits entry : Nat) : Except WalkError Leaf :=
  let own := efld e 62 2
  let dira := efld e 59 1 == 1
  let frame := efld e 12 40 * 4096
  let frameOk := match own with
    | 0 => frame % 2 ^ bits == 0 && frame + 2 ^ bits ≤ s.memBytes
    | 1 => frame % 2 ^ bits == 0
    | _ => efld e 36 16 == 0 && efld e 12 4 == 0
  if efld e 0 1 = 0 then .error .page
  else if entryReserved e || efld e 1 1 == 0 || own == 3 || (efld e 61 1 == 1 && own != 1) || (dira && own != 0)
      || (!dira && efld e 55 4 != 0) || 14 ≤ efld e 55 4 || !frameOk then .error .malformed
  else .ok ⟨own, efld e 61 1 == 1, efld e 60 1 == 1, dira, efld e 55 4, frame, efld e 16 20, efld e 5 1 == 1,
    efld e 4 1 == 1, efld e 3 1 == 1, efld e 2 1 == 1, bits, entry⟩

/-- The walk from a context's root: one entry at each level (R344, R346). -/
def State.walk (s : State) (root : Nat) (va : DWord) : Except WalkError Leaf := do
  let v := vaNat va
  let l1 ← s.nextTable (s.entryAt (root + 8 * (v / 2 ^ 47))) 4096
  let l2 ← s.nextTable (s.entryAt (l1 + 8 * (v / 2 ^ 38 % 512))) 65536
  let a2 := l2 + 8 * (v / 2 ^ 25 % 8192)
  let e2 := s.entryAt a2
  if efld e2 0 2 = 3 then s.leafOf e2 25 a2
  else
    let l3 ← s.nextTable e2 4096
    let a3 := l3 + 8 * (v / 2 ^ 16 % 512)
    s.leafOf (s.entryAt a3) 16 a3

/-- The 128-byte table lines a walk reads (R355). -/
def State.walkLines (s : State) (root : Nat) (va : DWord) : List Nat :=
  let v := vaNat va
  let a0 := root + 8 * (v / 2 ^ 47)
  let more : List Nat := match s.nextTable (s.entryAt a0) 4096 with
    | .error _ => []
    | .ok l1 =>
      let a1 := l1 + 8 * (v / 2 ^ 38 % 512)
      a1 :: match s.nextTable (s.entryAt a1) 65536 with
        | .error _ => []
        | .ok l2 =>
          let a2 := l2 + 8 * (v / 2 ^ 25 % 8192)
          a2 :: (if efld (s.entryAt a2) 0 2 = 3 then [] else
            match s.nextTable (s.entryAt a2) 4096 with
            | .error _ => []
            | .ok l3 => [l3 + 8 * (v / 2 ^ 16 % 512)])
  (a0 :: more).map (· / 128)

/-- A 2 MiB region of the other world (R346, R400). -/
def State.otherWorld (s : State) (secure : Bool) (a : Nat) : Bool := s.secRegions.contains (a / 2 ^ 21) != secure

/-- Why a translation fails: `page`, or `protection` with its sub-code (R346). -/
inductive XError where
  | page
  | protection (sub : Nat)
  deriving DecidableEq, Repr

/-- Translating an address for an access: the leaf, with the checks of R346 in order. -/
def State.translate (s : State) (c : Context) (va : DWord) (k : AccKind) : Except XError Leaf :=
  match s.walk c.l0 va with
  | .error .page => .error .page
  | .error .malformed => .error (.protection 27)
  | .ok l =>
    if l.ns == c.secure || (l.own == 0 && s.otherWorld c.secure (l.frame + vaNat va % 2 ^ l.bits)) then
      .error (.protection 26)
    else if (match k with
      | .read => !l.r
      | .write => !l.w
      | .rmw => !(l.r && l.w)
      | .fetch => false) then .error (.protection 24)
    else if k = .fetch ∧ !l.x then .error (.protection 25)
    else .ok l

/-- Where the bytes of an access are: device memory, or a line of host memory held by the package (R347). -/
inductive Loc where
  | dev (a : Nat)
  | host (a : Nat)
  deriving DecidableEq, Repr

/-- Where an access is performed (R347). -/
inductive Home where
  | here (l : Loc)
  | atHost (a : Nat)
  | atPeer (dev : Nat)
  deriving DecidableEq, Repr

/-- The home of an address under its leaf (R347). -/
def Leaf.home (l : Leaf) (va : DWord) : Home :=
  let off := vaNat va % 2 ^ l.bits
  match l.own with
  | 0 => .here (.dev (l.frame + off))
  | 1 => if l.hostBias then .atHost (l.frame + off) else .here (.host (l.frame + off))
  | _ => .atPeer l.dev

/-- The line of a location; host lines are kept apart from device lines. -/
def Loc.line : Loc → Nat
  | .dev a => a / 128
  | .host a => a / 128 + 2 ^ 50
/-- The line of an address under its leaf, wherever its home is. -/
def Leaf.line (l : Leaf) (va : DWord) : Nat :=
  match l.home va with
  | .here x => x.line
  | .atHost a => Loc.line (.host a)
  | .atPeer dev => (dev + 1) * 2 ^ 51 + vaNat va / 128
/-- The page of an address under its leaf. -/
def Leaf.page (l : Leaf) (va : DWord) : DWord := .ofNat 64 (va.toNat / 2 ^ l.bits * 2 ^ l.bits)

/-! ## Bytes, poison and lines by location -/

/-- Moving a location by some bytes. -/
def Loc.plus : Loc → Nat → Loc
  | .dev a, n => .dev (a + n)
  | .host a, n => .host (a + n)

/-- The address of a location. -/
def Loc.addr : Loc → Nat
  | .dev a => a
  | .host a => a

/-- The bytes at a location. -/
def State.bytesAtLoc (s : State) (l : Loc) (n : Nat) : List Byte :=
  match l with
  | .dev a => s.mem.read a n
  | .host a => s.hostMem.read a n

/-- The poisoned granules of a location's memory. -/
def State.poisonOf (s : State) : Loc → List Nat
  | .dev _ => s.poison
  | .host _ => s.hostPoison

/-- The granules of n bytes from an address (R393). -/
def granules (a n : Nat) : List Nat := (List.range ((a + n + 63) / 64 - a / 64)).map (a / 64 + ·)

/-- Some granule of n bytes at a location is poisoned. -/
def State.poisonedAt (s : State) (l : Loc) (n : Nat) : Bool := (granules l.addr n).any (s.poisonOf l).contains

/-- Clearing poison marks. -/
def State.unpoison (s : State) (l : Loc) (gs : List Nat) : State :=
  match l with
  | .dev _ => { s with poison := s.poison.filter (!gs.contains ·) }
  | .host _ => { s with hostPoison := s.hostPoison.filter (!gs.contains ·) }

/-- Setting poison marks. -/
def State.poisonLoc (s : State) (l : Loc) (gs : List Nat) : State :=
  match l with
  | .dev _ => { s with poison := gs.filter (!s.poison.contains ·) ++ s.poison }
  | .host _ => { s with hostPoison := gs.filter (!s.hostPoison.contains ·) ++ s.hostPoison }
/-- A write that leaves granules poisoned: a host line so written is changed, and is written back with its marks (R147, R248). -/
def State.spoilLoc (s : State) (l : Loc) (gs : List Nat) : State :=
  match l with
  | .dev _ => s.poisonLoc l gs
  | .host _ =>
    let lines := (gs.map (· / 2)).eraseDups
    let s := s.poisonLoc l gs
    { s with hostDirty := lines.filter (!s.hostDirty.contains ·) ++ s.hostDirty }

/-- The well-formed next tables that the entries of a table name. -/
def State.nextTables (s : State) (table entries bytes : Nat) : List Nat :=
  (List.range entries).filterMap fun i => (s.nextTable (s.entryAt (table + 8 * i)) bytes).toOption
/-- The leaf entries of a context's tables: the address and the size in bits of the page each maps (R344). -/
def State.leafEntries (s : State) (root : Nat) : List (Nat × Nat) :=
  (s.nextTables root 512 4096).flatMap fun l1 => (s.nextTables l1 512 65536).flatMap fun l2 =>
    (List.range 8192).flatMap fun i =>
      let a := l2 + 8 * i
      let e := s.entryAt a
      if efld e 0 2 = 3 then [(a, 25)]
      else match s.nextTable e 4096 with
        | .ok l3 => (List.range 512).map fun k => (l3 + 8 * k, 16)
        | .error _ => []
/-- The bytes of device memory whose tiles a table write of n bytes makes the device judge: a leaf with DIRA = 1 on which the
write sets DIRA or changes DTYPE or FRAME (R354); `s` is the state before it. -/
def State.rejudged (s : State) (mem : Memory) (a n : Nat) : List (Nat × Nat) :=
  let t : State := { s with mem := mem }
  s.contexts.flatMap fun c => ((t.leafEntries c.l0).filter fun e => a < e.1 + 8 && e.1 < a + n).filterMap fun (ea, bits) =>
    match t.leafOf (t.entryAt ea) bits ea with
    | .ok l =>
      let old := s.entryAt ea
      if l.dira && (efld old 59 1 == 0 || efld old 55 4 != l.dtype || efld old 12 40 * 4096 != l.frame) then
        some (l.frame, 2 ^ bits)
      else none
    | .error _ => none

/-- Writing bytes at a location: the bytes, the shoot-down of a table line (R356), the tile entries judged
anew (R185, R354), and the brick-cache copies it invalidates (R279). -/
def State.putBytes (s : State) (l : Loc) (bs : List Byte) : State :=
  match l with
  | .dev a =>
    let mem := s.mem.write a bs
    { s with
      mem := mem
      tdir := s.tdir.map fun t =>
        if a / 128 ≤ t.line && t.line ≤ (a + bs.length - 1) / 128 then { t with sharers := [], marks := [] } else t
      dirBad := if s.dirBad.isEmpty then [] else
        let pages := s.rejudged mem a bs.length
        s.dirBad.filter fun t => (t < a / 2048 || (a + bs.length - 1) / 2048 < t)
          && !pages.any fun p => p.1 ≤ 2048 * t && 2048 * t < p.1 + p.2
      bricks := s.bricks.filter fun b =>
        (b.addr + 2048 ≤ a || a + bs.length ≤ b.addr) && (b.map < a || a + bs.length ≤ b.map) }
  | .host a =>
    let new := (List.range ((a + bs.length - 1) / 128 + 1 - a / 128)).map (a / 128 + ·)
    { s with hostMem := s.hostMem.write a bs, hostDirty := new.filter (!s.hostDirty.contains ·) ++ s.hostDirty }

/-- Whether a device-biased host line is held by the package (R347). -/
def State.lineHere (s : State) (l : Loc) : Bool :=
  match l with
  | .dev _ => true
  | .host a => s.hostLines.contains (a / 128)

/-- A core becomes a sharer of every table line that its walk reads; the line filled earliest is dropped when the directory is
full (R355, log entry 42). The landing die, 0x7FF, is no core of the sharer bitmap. -/
def State.shareWalk (s : State) (c : Context) (core : Nat) (va : DWord) : State :=
  if Config.cores ≤ core then s else
  { s with tdir := (s.walkLines c.l0 va).foldl (fun dir line =>
      match dir.find? (·.line == line) with
      | some t =>
        if t.sharers.contains core then dir
        else dir.map fun t => if t.line == line then { t with sharers := core :: t.sharers } else t
      | none => (⟨line, [core], []⟩ :: dir).take (Config.tdirSize + 1)) s.tdir }
/-- A virtual address is translated through a table line that n bytes at a device address touch. -/
def State.walksThrough (s : State) (ctx : Nat) (va : DWord) (a n : Nat) : Bool :=
  match s.context? ctx with
  | some c => (s.walkLines c.l0 va).any fun t => a / 128 ≤ t && t ≤ (a + n - 1) / 128
  | none => false
/-- A group's instruction other than `me`'s keeps the owner's answer to this access, and is not yet done. -/
def State.keptBy (s : State) (me : Option GRef) (x : Away) : Bool :=
  match x.who with
  | .group r idx => me != some r && ((s.group? r).map fun g => g.fwd.any (·.idx == idx)).getD false
  | _ => false
/-- Bytes of a table line that an access still outstanding was translated through: a write to them by another waits until that
access has been performed (R248, R356). -/
def State.inUse (s : State) (l : Loc) (n : Nat) (me : Option GRef := none) : Bool :=
  match l with
  | .host _ => false
  | .dev a => s.requests.any (fun q => q.fetch.isNone && s.walksThrough q.ctx q.va a n)
      || s.away.any fun x => s.keptBy me x && s.walksThrough x.ctx x.va a n

/-- A page in the hands of a flip or of the copy engine: accesses to it wait (R248, R352). -/
def State.frozen (s : State) (c : Nat) (page : DWord) : Bool :=
  s.flips.any (fun x => x.ctx == c && x.page == page)
    || s.migs.any fun x => x.stage == .copying && x.ctx == c && x.page == page

/-- Splitting n bytes from an address at multiples of q. -/
def pieces (q : Nat) : Nat → Nat → Nat → List (Nat × Nat)
  | 0, _, _ => []
  | fuel + 1, a, n =>
    if n = 0 then [] else
    let k := Nat.min n (q - a % q)
    (a, k) :: pieces q fuel (a + k) (n - k)

/-- The pieces of n bytes from an address, split at multiples of 16. -/
def chunks (a n : Nat) : List (Nat × Nat) := pieces 16 (n / 16 + 2) a n

/-- The location of an address for an access of the device's own; a line with another home is refused (R347, R349). -/
def State.locOf (s : State) (c : Context) (va : DWord) (k : AccKind) : Except XError Loc :=
  match s.translate c va k with
  | .error e => .error e
  | .ok l => match l.home va with
    | .here x => if s.lineHere x then .ok x else .error (.protection 28)
    | _ => .error (.protection 28)

/-- The device's own read of n bytes at a virtual address; the failing address with its cause. -/
def State.peek (s : State) (c : Context) (va : DWord) (n : Nat) : Except (XError × DWord) (List Byte) := do
  let parts ← (chunks va.toNat n).mapM fun (a, k) =>
    match s.locOf c (.ofNat 64 a) .read with
    | .error e => .error (e, (.ofNat 64 a : DWord))
    | .ok l => .ok (s.bytesAtLoc l k)
  return parts.flatten

/-- Some granule of n bytes at a virtual address is poisoned: its address. -/
def State.peekPoison (s : State) (c : Context) (va : DWord) (n : Nat) : Option DWord :=
  ((chunks va.toNat n).find? fun (a, k) =>
    match s.locOf c (.ofNat 64 a) .read with
    | .error _ => false
    | .ok l => s.poisonedAt l k).map fun (a, _) => .ofNat 64 (a / 64 * 64)

/-- A write of the device's own must wait for accesses that were translated through what it overwrites (R356). -/
def State.pokeWaits (s : State) (c : Context) (va : DWord) (n : Nat) : Bool :=
  (pieces 65536 (n / 65536 + 2) va.toNat n).any fun (a, k) =>
    match s.locOf c (.ofNat 64 a) .write with
    | .ok l => s.inUse l k
    | .error _ => false

/-- The device's own write at a virtual address; none when some byte cannot be written. -/
def State.poke (s : State) (c : Context) (va : DWord) (bs : List Byte) : Option State :=
  (chunks va.toNat bs.length).foldl (fun acc (a, k) => acc.bind fun st =>
    match st.locOf c (.ofNat 64 a) .write with
    | .error _ => none
    | .ok l => some (st.putBytes l ((bs.drop (a - va.toNat)).take k))) (some s)

end Sys2Proof.Machine
end

