-- ==== Sys2Proof/Machine/Ops.lean ====
section
/-! DEFINITION. The named operations over groups and registers, messages and events, taking a trap and returning from one, and how an
instruction word meets its group (R61 to R64, R86, R327 to R330). -/
namespace Sys2Proof.Machine

/-- What a meaning answers. -/
abbrev Out := Host.Outcome State Fault Refusal

/-! ## Registers (R11 to R19) -/

/-- The sixteen fibre indices. -/
def fibres : List Nat := List.range 16

/-- What fibre `f` reads of a register's contents (R12). -/
def VVal.at (x : VVal) (f : Nat) : Word :=
  match x with
  | .uni w => w
  | .aff b s => b + .ofNat 32 f * s
  | .gen ws => ws.getD f 0

/-- The rank of a register's tag: uniform, affine, general (R12, R88). -/
def VVal.rank : VVal → Nat
  | .uni _ => 0
  | .aff _ _ => 1
  | .gen _ => 2

/-- Words stored (R12). -/
def VVal.words : VVal → Nat
  | .uni _ => 1
  | .aff _ _ => 2
  | .gen _ => 16

/-- Storing a result into a register's contents: the whole register when it is shared, else the words of the fibres in
`m` (R13, R88). `val` gives what each fibre's result is. -/
def VVal.store (old : VVal) (sh : Nat) (m : Nat → Bool) (val : Nat → Word) : VVal :=
  match old with
  | .uni _ => .uni (val 0)
  | .aff _ _ => .aff (val 0) (if sh = 0 then 0 else val 1 - val 0)
  | .gen ws => .gen (fibres.map fun f => if m f then val f else ws.getD f 0)

/-- The contents of v register `r` as an instruction reads it (R61). -/
def Group.reg (g : Group) (r : VReg) : VVal := g.v.getD r.val (.uni 0)
/-- What fibre `f` reads of v register `r`. -/
def Group.rd (g : Group) (r : VReg) (f : Nat) : Word := (g.reg r).at f
/-- The second register of a pair (R59). -/
def nextReg (r : VReg) : VReg := r + 1
/-- A pair of registers as 64 bits of fibre `f`. -/
def Group.rd2 (g : Group) (r : VReg) (f : Nat) : DWord := (g.rd (nextReg r) f) ++ (g.rd r f)
/-- A p register; p0 reads all ones (R18). -/
def Group.preg (g : Group) (p : PReg) : Half := if p = 0 then 0xFFFF else g.p.getD p.val 0
/-- A b register. -/
def Group.breg (g : Group) (b : BReg) : DWord := g.b.getD b.val 0
/-- An h register as an instruction reads it (R61). -/
def Group.hreg (g : Group) (h : HReg) : BitVec 512 := g.h.getD h.val 0
/-- Register words in use (R15). -/
def Group.wordsInUse (g : Group) : Nat := (g.v.map VVal.words).sum

/-- `md.STYPE` (R21). -/
def Group.stype (g : Group) : Nat := (g.md.extractLsb' 20 4).toNat
/-- `md.TYPE` (R21). -/
def Group.type (g : Group) : Nat := (g.md.extractLsb' 16 4).toNat
/-- `md.RND` (R21). -/
def Group.rnd (g : Group) : Nat := (g.md.extractLsb' 12 3).toNat
/-- `md.SWZ` (R21). -/
def Group.swz (g : Group) : Nat := (g.md.extractLsb' 10 2).toNat
/-- `md.SAT` (R21). -/
def Group.sat (g : Group) : Bool := g.md.getLsbD 9
/-- `md.FTZ` (R21). -/
def Group.ftz (g : Group) : Bool := g.md.getLsbD 8
/-- `md.GINV` (R21). -/
def Group.ginv (g : Group) : Bool := g.md.getLsbD 4
/-- `md.GPRED` (R21). -/
def Group.gpred (g : Group) : PReg := Fin.ofNat 8 (g.md.extractLsb' 0 3).toNat
/-- The bits of `md` that can be written; reserved bits read zero (R21). -/
def mdMask : Word := 0x00FF7F17

/-- Fibre `f` is active: live with a nesting count of 0 (R11); while privileged every fibre is (R328). -/
def Group.active (g : Group) (f : Nat) : Bool := g.priv || (g.live.getLsbD f && g.count.getD f 0 == 0)
/-- Fibre `f` passes the guard (R21). -/
def Group.passes (g : Group) (f : Nat) : Bool := (g.preg g.gpred).getLsbD f != g.ginv
/-- Fibre `f` is active and passes the guard. -/
def Group.on (g : Group) (f : Nat) : Bool := g.active f && g.passes f
/-- The active fibres, ascending. -/
def Group.actives (g : Group) : List Nat := fibres.filter g.active
/-- The active, guard-passing fibres, ascending. -/
def Group.ons (g : Group) : List Nat := fibres.filter g.on
/-- Fibre `f` is a helper whose effects are suppressed; held aside while privileged (R328). -/
def Group.isHelper (g : Group) (f : Nat) : Bool := !g.priv && g.helper.getLsbD f

/-! ## Stopping at a boundary -/

/-- What stops an instruction at its boundary: a trap, with the value for `sys.tval` (none: the instruction word), or a
wait, with the state as the wait leaves it. -/
inductive Stop where
  | trap (cause : Cause) (sub : Nat) (tval : Option DWord)
  | wait (w : Wait) (s : State)

/-- `illegal` with a sub-code; `sys.tval` takes the word (R325). -/
def illegal {α : Type} (sub : Nat) : Except Stop α := .error (.trap .illegal sub none)
/-- `protection` of an operand value; `sys.tval` takes the word (R325). -/
def protect {α : Type} (sub : Nat) : Except Stop α := .error (.trap .protection sub none)
/-- `protection` of an address (R325). -/
def protectAt {α : Type} (sub : Nat) (a : DWord) : Except Stop α := .error (.trap .protection sub (some a))
/-- `shape` of a destination (R88, R325). -/
def shapeTrap {α : Type} (d : VReg) (sub : Nat) : Except Stop α := .error (.trap .shape sub (some (.ofNat 64 d.val)))
/-- What stops an instruction leaves the state s: nothing of it has been performed. -/
def stopAt {α : Type} (s : State) (x : Except Stop α) : Except Stop α :=
  match x with
  | .error (.wait w _) => .error (.wait w s)
  | x => x
/-- A check of a sequence of checks. -/
def check (ok : Bool) (e : Except Stop Unit) : Except Stop Unit := if ok then .ok () else e

/-- A must-be-uniform operand (R14). -/
def Group.uniform (g : Group) (r : VReg) : Except Stop Word :=
  match g.reg r with
  | .uni w => .ok w
  | x =>
    match g.actives with
    | [] => .ok (x.at 0)
    | f :: fs =>
      if (match x with | .aff _ s => s == 0 | _ => false) then .ok (x.at 0)
      else if fs.all fun k => x.at k == x.at f then .ok (x.at f)
      else .error (.trap .nonuniform 0 (some 0))

/-- A must-be-uniform pair (R14). -/
def Group.uniform2 (g : Group) (r : VReg) : Except Stop DWord := do
  let lo ← g.uniform r
  let hi ← g.uniform (nextReg r)
  return hi ++ lo

/-- Raising sticky flags (R27). -/
def Group.raise (g : Group) (fl : Word) : Group := { g with flags := g.flags ||| fl }

/-- The shape check of a result against its destination's tag (R88). -/
def Group.fits (g : Group) (d : VReg) (sh : Nat) : Except Stop Unit :=
  check (sh ≤ (g.reg d).rank) (shapeTrap d 0)

/-- Storing a result into v register `d` in both views: now, and in program order (R61). -/
def Group.store (g : Group) (d : VReg) (sh : Nat) (m : Nat → Bool) (val : Nat → Word) : Group :=
  { g with
    v := g.v.modify d.val fun x => x.store sh m val
    vDue := g.vDue.modify d.val fun x => x.store sh m val }

/-- Storing a returning result: visible when the group passes its next marker (R61). -/
def Group.storeDue (g : Group) (d : VReg) (sh : Nat) (m : Nat → Bool) (val : Nat → Word) : Group :=
  { g with vDue := g.vDue.modify d.val fun x => x.store sh m val }

/-- An instruction that writes v register `d` with a result of shape `sh`, for the fibres in `m`: once when the
destination is shared, else per fibre; flags of the executions are raised (R86). -/
def Group.result (g : Group) (d : VReg) (sh : Nat) (m : Nat → Bool) (res : Nat → Word × Word) : Except Stop Group := do
  g.fits d sh
  if (g.reg d).rank < 2 then
    if fibres.any m then return (g.store d sh m fun f => (res f).1).raise (res 0).2 else return g
  else
    let rs := fibres.map fun f => if m f then res f else (0, 0)
    return (g.store d sh m fun f => (rs.getD f (0, 0)).1).raise (rs.foldl (fun a x => a ||| x.2) 0)

/-- Writing a value of shape U to v register `d`, when some active fibre passes the guard (R86, R88). -/
def Group.putU (g : Group) (d : VReg) (w : Word) : Group := if g.ons.isEmpty then g else g.store d 0 g.on fun _ => w

/-- Writing bits of a p register: the fibres in `m`; p0 ignores writes (R18). -/
def Group.putP (g : Group) (p : PReg) (m val : Nat → Bool) : Group :=
  if p = 0 then g else
  { g with p := g.p.modify p.val fun old =>
      fibres.foldl (fun (acc : Half) f => if m f then
        (if val f then acc ||| (1#16 <<< f) else acc &&& ~~~(1#16 <<< f)) else acc) old }

/-- Writing a b register. -/
def Group.putB (g : Group) (b : BReg) (x : DWord) : Group := { g with b := g.b.set b.val x }

/-- What an h register stores of a value: the reserved bits of its four format registers ignore writes (R40). CTL keeps
every bit, since `hchk` reports its reserved ones (R162, code 8; log entry 32). -/
def hStored (x : BitVec 512) : BitVec 512 :=
  x &&& ((0x00FFF770#32 ++ 0x00FFF770#32 ++ 0x00FFF770#32 ++ 0x00FFF770#32 : BitVec 128) ++ BitVec.allOnes 384)
/-- Writing an h register in both views (R61). -/
def Group.putH (g : Group) (h : HReg) (x : BitVec 512) : Group :=
  { g with h := g.h.set h.val (hStored x), hDue := g.hDue.set h.val (hStored x) }

/-- The member count of a gang register. -/
def gangN (x : DWord) : Nat := (x.extractLsb' 0 4).toNat
/-- The gang register's value: its reserved bits and the member fields beyond N read zero (R22). -/
def gangValue (x : DWord) : DWord := .ofNat 64 (x.toNat % 2 ^ (12 + 6 * Nat.min (gangN x) 6)) &&& 0xFFFFFFFFFFFFF00F
/-- Passing a marker: every pending result is written (R61, R64). -/
def Group.settle (g : Group) : Group := { g with v := g.vDue, h := g.hDue, pend := 0, awaited := 0 }

/-- What issuing a returning instruction adds: one pending result (R61, R62); one that was held for an owner's reply returns when
its hold ends, so nothing more is awaited for it (R63). -/
def Group.pending (g : Group) : Group :=
  { g with pend := g.pend + 1, awaited := if g.fwd.isEmpty then g.awaited + 1 else g.awaited }
/-- Some forwarded store or atomic of the group's instruction has been performed by its owner (R348): the indices below 2^17. -/
def Group.doneAway (g : Group) : Bool := g.fwd.any (·.idx < 2 ^ 17)

/-! ## Free values, identities, messages and events -/

/-- A free time stamp (log entry 2). -/
def State.stamp (s : State) : DWord × State := (Config.freeTime s.free, { s with free := s.free + 1 })

/-- A free word (log entry 10). -/
def State.freeWord (s : State) : Word × State := (Config.freeWord s.free, { s with free := s.free + 1 })

/-- A fresh identity. -/
def State.fresh (s : State) : Nat × State := (s.nextId, { s with nextId := s.nextId + 1 })

/-- A connection; one that has carried nothing is at number 0 (R373). -/
def State.conn (s : State) (id : ConnId) : Conn := (s.conns.find? (·.id == id)).getD ⟨id, 0, 0, [], 0, false⟩
/-- Replacing a connection. -/
def State.setConn (s : State) (c : Conn) : State := { s with conns := c :: s.conns.filter (·.id != c.id) }
/-- The enabled peer port that carries the traffic of a package (R377). -/
def State.portOf (s : State) (dev : Nat) : Option Nat :=
  let ps := (List.range 16).filter (!s.disabled.ports.contains ·)
  if ps.isEmpty then none else ps[dev % ps.length]?
/-- The world of a context; that of no context is non-secure. -/
def State.worldOf (s : State) (ctx : Nat) : Bool := ((s.context? ctx).map (·.secure)).getD false
/-- The frame that carries a message next on its connection (R372, R377). -/
def State.frameOf (s : State) (m : OutMsg) (secure : Bool) : Frame :=
  let c := s.conn m.conn
  match m.conn with
  | .host => ⟨m, c.send, c.expect, secure, none, 0, 0⟩
  | .peer dev => ⟨m, c.send, c.expect, secure, s.portOf dev, s.job.pre, dev⟩
/-- The 16 bytes of a frame's header (R372). -/
def Frame.header (f : Frame) : List Byte :=
  [1, .ofNat 8 f.msg.kind] ++ natLe 2 f.msg.data.length ++ natLe 4 f.seq ++ natLe 4 f.ack
    ++ [.ofNat 8 f.msg.ctx, .ofNat 8 (f.msg.reply.toNat + 2 * f.secure.toNat)] ++ natLe 2 f.msg.stat
/-- Sending a message: it takes the next number of its connection, and is kept until it is acknowledged (R373). -/
def State.post (s : State) (m : OutMsg) (secure : Bool) : State :=
  let c := s.conn m.conn
  let f := s.frameOf m secure
  { s with outbox := s.outbox ++ [m], wire := s.wire ++ [f] }.setConn
    { c with send := (c.send + 1) % 2 ^ 32, queue := c.queue ++ [f] }
/-- A reply on a connection, of the world of its context unless another is given (R372, R374). -/
def State.reply (s : State) (conn : ConnId) (kind ctx stat : Nat) (data : List Byte) (secure : Bool := s.worldOf ctx) : State :=
  s.post ⟨conn, kind, ctx, true, stat, 0, data, []⟩ secure
/-- A message of the package's own (R374, R378). -/
def State.sendMsg (s : State) (conn : ConnId) (kind ctx req : Nat) (data : List Byte) (secure : Bool := s.worldOf ctx)
    (spoiled : List Nat := []) : State :=
  s.post ⟨conn, kind, ctx, false, 0, req, data, spoiled⟩ secure

/-- The module runs: in none of the states that stop it (R407, R408). -/
def State.powered (s : State) : Bool := s.resetN && s.pwrgd && !s.tripped
/-- Posting an event; a full ring drops and counts it (R402). -/
def State.event (s : State) (kind ctx : Nat) (detail : Word) : State :=
  if s.events.length < Config.evRing then
    let (t, s) := s.stamp
    { s with events := s.events ++ [⟨t, kind, ctx, detail⟩] }
  else { s with evLost := s.evLost + 1 }

/-- The records of one die's error ring (R394). -/
def State.errsOf (s : State) (die : Nat) : List ErrRec := (s.errRings.filter (·.1 == die)).map (·.2)

/-- Writing an error record: merged into a record of severity 0 among the 64 most recent, or appended, or dropped and
counted when the ring is full, with an event at the first drop after a drain (R394). -/
def State.errRecord (s : State) (die sev src loc ctx : Nat) (addr : DWord) (det : Word) : State :=
  let mine := s.errsOf die
  let recent := (mine.drop (mine.length - 64)).reverse
  let same (e : ErrRec) : Bool := e.sev == 0 && e.src == src && e.loc == loc && e.addr == addr
  match (if sev = 0 then recent.find? same else none) with
  | some e =>
    { s with errRings := s.errRings.map fun p =>
        if p.1 == die && p.2 == e then (die, { e with count := Nat.min (e.count + 1) 0xFFFFFFFF }) else p }
  | none =>
    if mine.length < Config.errRing then
      let (t, s) := s.stamp
      { s with errRings := s.errRings ++ [(die, ⟨t, sev, src, loc, ctx, addr, det, 1⟩)] }
    else
      let s := { s with errLost := setAssoc s.errLost die (assoc s.errLost die 0 + 1) }
      if s.errWarned.contains die then s
      else { s with errWarned := die :: s.errWarned }.event 7 0xFF (.ofNat 32 die)

/-- The die of a core (R2: 144 cores each). -/
def dieOf (core : Nat) : Nat := core / Config.coresPerDie

/-- The launch token of a grid (R211). -/
def token (ctx serial : Nat) : DWord := .ofNat 64 (ctx * 2 ^ 32 + serial)

/-! ## Losing a context (R342) -/

/-- The STATE word of a frame becomes free (R338); the cause and SUB of a write that fails (R342). -/
def State.freeFrame (s : State) (c : Context) (off : Nat) : Except (Nat × Nat) State :=
  let va := c.save + .ofNat 64 (off + 0x0C)
  match s.peekPoison c va 4, s.peek c va 4 with
  | some _, _ => .error (9, 1)
  | none, .error _ => .error (7, 1)
  | none, .ok bs => match s.poke c va (natLe 4 (leNat bs / 4 * 4)) with
    | some s => .ok s
    | none => .error (7, 1)
/-- The effects of losing a context, without the event: its teams end at once, its engine operations are abandoned, its
frames are freed and its queues discarded (R308, R342). -/
def State.dropContext (s : State) (c : Nat) : State :=
  let gone := (s.teams ++ s.saved).filter (·.ctx == c) |>.map (·.tid)
  let told := s.grids.filter fun x => x.ctx == c && x.fromHost && !x.retired
  let s : State := match s.context? c with
    | some x => x.frames.foldl (fun (s : State) y => (s.freeFrame x y.1).toOption.getD s) s
    | none => s
  let s : State := { s with
    teams := s.teams.filter (·.ctx != c)
    saved := s.saved.filter (·.ctx != c)
    convoys := s.convoys.filter (·.ctx != c)
    ops := s.ops.filter (·.ctx != c)
    matrix := s.matrix.filterMap fun m =>
      let ms := m.members.filter fun x => !gone.contains x.1.tid
      if ms.isEmpty then none else some { m with members := ms }
    rays := s.rays.filter (·.ctx != c)
    inbound := s.inbound.filter (·.ctx != c)
    claims := s.claims.filter (·.ctx != c)
    walkers := s.walkers.filter (·.ctx != c)
    conts := s.conts.filter (·.bin.ctx != c)
    cur := s.cur.filter fun r => !gone.contains r.tid
    grids := s.grids.map fun x => if x.ctx == c && !x.retired then { x with retired := true, lost := true } else x
    contexts := s.contexts.map fun x => if x.num == c then { x with frames := [] } else x }
  told.foldl (fun s x => s.sendMsg .host 2 c 0 (natLe 8 (token c x.serial).toNat ++ natLe 4 1)) s

/-- Losing a context: its effects and the secure-world event (R342). -/
def State.loseContext (s : State) (c : Nat) (cause sub : Nat) : State :=
  (s.dropContext c).event 1 c (.ofNat 32 (cause * 256 + sub))

/-! ## Taking a trap and returning from one (R327 to R330) -/

/-- The number of a cause (R325). -/
def Cause.code : Cause → Nat
  | .illegal => 1
  | .extension => 2
  | .shape => 3
  | .nonuniform => 4
  | .divergent => 5
  | .role => 6
  | .page => 7
  | .protection => 8
  | .poison => 9
  | .replayDivergence => 10
  | .manifestStall => 11
  | .preempt => 12
  | .breakpoint => 13
  | .software => 14

/-- `sys.cause` of a trap (R28, R327). -/
def causeWord (c : Cause) (sub : Nat) : Word := 0x80000000 ||| .ofNat 32 (sub % 256 * 256 + c.code)

/-- A group as a trap leaves it (R327): pending results are written first (R64), a wait ends, and an arrival at the
latch is withdrawn (R180). -/
def Group.trapped (g : Group) (t : Trap) : Group :=
  { g.settle with
    epc := g.pc, cause := causeWord t.cause t.sub, tval := t.tval, priv := true, pc := 0
    wait := .none, trapDue := none, latch := none, fwdOpen := [], fwd := [], owed := 0 }

/-- A trap that the translation of an address, or its owner, raises (R346, R349). -/
def Trap.walked (t : Trap) : Bool := t.cause == .page || (t.cause == .protection && 24 ≤ t.sub)
/-- The walk of an address whose translation or owner raises a trap has made the core a sharer of its table lines (R355; log
entry 42). -/
def State.faultWalk (s : State) (tm : Team) (t : Trap) : State :=
  if t.walked then s.shareWalk ((s.context? tm.ctx).getD default) tm.core t.tval else s
/-- A group takes a trap at its boundary; a trap raised while privileged loses the context instead (R327, R330). -/
def State.takeTrap (s : State) (r : GRef) (t : Trap) : State :=
  match s.team? r.tid, s.group? r with
  | some tm, some g =>
    let s := s.faultWalk tm t
    if g.priv then s.loseContext tm.ctx t.cause.code t.sub else s.setGroup r (g.trapped t)
  | _, _ => s

/-- A trap that a party of the device raises for a group, taken at its next boundary; for a privileged group it is not taken
and the context is lost (R330, R365, R367). -/
def State.dueTrap (s : State) (r : GRef) (t : Trap) : State :=
  match s.team? r.tid, s.group? r with
  | some tm, some g =>
    if g.ended then s
    else if g.priv then s.loseContext tm.ctx t.cause.code t.sub
    else s.setGroup r { g with trapDue := g.trapDue <|> some t }
  | _, _ => s

/-- A group as `tret` leaves it (R98, R329). -/
def Group.returned (g : Group) : Group :=
  { g with pc := g.epc, cause := g.cause &&& 0x7FFFFFFF, priv := false }

/-! ## How a word meets its group -/

/-- How an instruction word meets its group: the marker (R58), the roles that may issue it (R89, R130, R174), whether it
executes with no fibre active (R86), is group-collective (R120, R131), is returning (R62), or first waits as at a
marker. -/
structure Issue where
  s : Bool
  roles : Role → Bool := fun _ => true
  always : Bool := false
  collective : Bool := false
  returning : Bool := false
  syncs : Bool := false
  /-- Who must be there for an instruction that acts once to act (R108, R131, R174). -/
  once : Group → Bool := fun _ => true

/-- Only `vector` groups. -/
def vectorOnly : Role → Bool
  | .vector => true
  | _ => false
/-- All but `copy` groups. -/
def notCopy : Role → Bool
  | .copy => false
  | _ => true
/-- All but `matrix` groups. -/
def notMatrix : Role → Bool
  | .matrix => false
  | _ => true

/-- An instruction's own effect: on the state and its group, whose pc already names the next word. -/
abbrev Effect := State → GRef → Group → Except Stop (State × Group)

/-- The effect of an instruction that touches nothing but its group. -/
def groupEffect (f : Group → Except Stop Group) : Effect := fun s _ g => do return (s, ← f g)

/-- Every live fibre has a nesting count of zero (R120); held aside while privileged (R328). -/
def Group.converged (g : Group) : Bool :=
  g.priv || fibres.all fun f => !g.live.getLsbD f || g.count.getD f 0 == 0

/-- Some active fibre passes the guard. -/
def Group.someOn (g : Group) : Bool := !g.ons.isEmpty
/-- Some active, guard-passing fibre is no helper (R131, R174). -/
def Group.someActs (g : Group) : Bool := g.ons.any fun f => !g.isHelper f

/-- An instruction's checks in the order of R326 and its effect; with no fibre active it is skipped (R14, R86), and one that
acts once does nothing when nobody is there for whom it acts (R108, R131, R174). DESIGN CHOICE (log entry 35): a word skipped
because no fibre is active still meets its role, divergent-collective and pending checks, and none of its others. -/
def issueWord (q : Issue) (eff : Effect) (s : State) (r : GRef) (g : Group) : Except Stop (State × Group) := do
  check (!(q.returning && Config.maxPending ≤ g.pend)) (illegal 6)
  check (q.roles g.role) (.error (.trap .role 0 none))
  check (!q.collective || g.converged) (.error (.trap .divergent 0 (some 0)))
  let g1 := { g with pc := g.pc + 1, wait := .none }
  if (!q.always && g.actives.isEmpty) || !q.once g then return (s, g1)
  else if q.syncs && 0 < g.awaited then .error (.wait .marker s)
  else eff s r (if q.syncs then g1.settle else g1)

/-- A group after an instruction that completed: the word is retired unless it issued privileged (R126, R328), and with
S = 1 the group passes the marker or parks at it (R61). -/
def Group.retire (g : Group) (q : Issue) (wasPriv : Bool) : Group :=
  let g := { g with retired := if wasPriv then g.retired else g.retired + 1, fwdOpen := [], fwd := [], owed := 0 }
  if q.s && !g.ended then
    if g.awaited = 0 then g.settle else { g with wait := .marker }
  else g

/-- The address of a group's next instruction: the code base plus 4 × the word address (R93). -/
def Context.codeAddr (c : Context) (g : Group) : DWord := c.code + g.pc.setWidth 64 * 4
/-- The key of a line's reply among those of an instruction or operation. -/
def lineKey (va : DWord) : Nat := 2 ^ 20 + va.toNat % 2 ^ 56 / 128
/-- The key of a peer's reply: the address and the bytes asked for (R348). -/
def peerKey (va : DWord) (n : Nat) : Nat := 2 ^ 72 + va.toNat % 2 ^ 56 * 256 + n
/-- A group that waits at its boundary: of the replies to its forwarded reads only that of the word itself outlasts the wait,
since a copy of a line lasts no longer than its access (R247); those of accesses that their owners have performed are kept. -/
def State.waitAt (s : State) (r : GRef) (w : Wait) : State :=
  let c := (((s.team? r.tid).bind fun t => s.context? t.ctx)).getD default
  s.modGroup r fun g =>
    let word := [lineKey (c.codeAddr g), peerKey (c.codeAddr g) 4]
    if w = .forwarded || g.doneAway then { g with wait := w }
    else { g with wait := w, fwd := g.fwd.filter (word.contains ·.idx), owed := 0 }

/-- An instruction word executed by the group whose turn it is: it completes, waits at its boundary, or takes a trap. -/
def runWord (i : Instr) (q : Issue) (eff : Effect) (s : State) : Out :=
  match s.cur with
  | none => .fault .noGroup
  | some r =>
    match s.group? r with
    | none => .fault .noGroup
    | some g =>
      match issueWord q eff s r g with
      | .ok (s', g') => .next (s'.setGroup r (g'.retire q g.priv))
      | .error (.wait w s') => .next (s'.waitAt r w)
      | .error (.trap c sub tv) =>
        .next (s.takeTrap r ⟨c, sub, tv.getD (.setWidth 64 ((encode i).getD 0))⟩)

/-- A word that touches nothing but its group. -/
def runGroup (i : Instr) (q : Issue) (f : Group → Except Stop Group) (s : State) : Out :=
  runWord i q (groupEffect f) s

end Sys2Proof.Machine
end

