-- ==== Sys2Proof/Machine/Flags.lean ====
section
/-! DEFINITION. The sticky flags of `sys.flags` (R27) and the roundings that decide them (R35, R37). -/
namespace Sys2Proof.Machine

/-- NV, invalid operation (R27). -/
def flagNV : Word := 1
/-- DZ, division by zero (R27). -/
def flagDZ : Word := 2
/-- OF, overflow (R27). -/
def flagOF : Word := 4
/-- UF, underflow (R27). -/
def flagUF : Word := 8
/-- NX, inexact (R27). -/
def flagNX : Word := 16
/-- SA, a result saturated (R27). -/
def flagSA : Word := 32

/-- The bits of `sys.flags` that can be written (R27). -/
def flagsMask : Word := 0x3F

/-- A flag when a condition holds. -/
def flagIf (c : Bool) (f : Word) : Word := if c then f else 0

/-- Whether a rounding moves a magnitude up, from the last bit kept, the comparison of the part dropped with half a unit
(0 zero, 1 below, 2 half, 3 above), the sign and the rounding code of R35. -/
def roundsUp (rnd : Nat) (neg odd : Bool) (part : Nat) : Bool :=
  match rnd with
  | 0 => part == 3 || (part == 2 && odd)
  | 1 => false
  | 2 => part != 0 && !neg
  | 3 => part != 0 && neg
  | _ => part == 3 || part == 2

/-- Rounding the magnitude m × 2^e, a little above it when `st` holds, to a multiple of 2^q: the multiple and whether
something was lost (R35). -/
def roundAt (rnd : Nat) (neg : Bool) (m : Nat) (e : Int) (st : Bool) (q : Int) : Nat × Bool :=
  if q ≤ e then (m * 2 ^ (e - q).toNat, st)
  else
    let k := (q - e).toNat
    let n := m / 2 ^ k
    let r := m % 2 ^ k
    let h := 2 ^ (k - 1)
    let part := if r = 0 then (if st then 1 else 0)
      else if r < h then 1 else if r = h then (if st then 3 else 2) else 3
    (if roundsUp rnd neg (n % 2 == 1) part then n + 1 else n, part != 0)

end Sys2Proof.Machine
end

