-- ==== Sys2Proof/Machine/Float.lean ====
section
/-! DEFINITION. Integers and floating-point elements: reading, exact values, rounding once and writing (R31 to R39). -/
namespace Sys2Proof.Machine

/-! ## Integers (R31, R32) -/

/-- Element type codes 0 to 5 are integers (R31). -/
def isIntType (t : Nat) : Bool := t < 6
/-- Element type codes 6 to 9 are floats (R33). -/
def isFloatType (t : Nat) : Bool := 6 ≤ t && t ≤ 9
/-- Element type codes 10 to 13 are narrow (R40). -/
def isNarrowType (t : Nat) : Bool := 10 ≤ t && t ≤ 13
/-- Codes 14 and 15 are reserved (R21). -/
def isReservedType (t : Nat) : Bool := 14 ≤ t
/-- Signed integer types (R31). -/
def isSignedType (t : Nat) : Bool := t < 3
/-- Bits of an integer type (R31). -/
def intWidth (t : Nat) : Nat := match t with | 0 => 8 | 3 => 8 | 1 => 16 | 4 => 16 | _ => 32
/-- The minimum of an integer type (R31). -/
def intMin (t : Nat) : Int := if isSignedType t then -(2 ^ (intWidth t - 1) : Nat) else 0
/-- The maximum of an integer type (R31). -/
def intMax (t : Nat) : Int := if isSignedType t then (2 ^ (intWidth t - 1) : Nat) - 1 else (2 ^ intWidth t : Nat) - 1
/-- Reading an integer element (R32). -/
def intOf (t : Nat) (w : Word) : Int :=
  let n := w.toNat % 2 ^ intWidth t
  if isSignedType t && 2 ^ (intWidth t - 1) ≤ n then (n : Int) - (2 ^ intWidth t : Nat) else n
/-- An integer in the register form of its type: sign-extended or zero-extended (R32). -/
def intWord (t : Nat) (v : Int) : Word := .ofInt 32 (intOf t (.ofInt 32 v))
/-- Writing an exact integer result: wrapping, or clamping with SA (R32). -/
def intResult (t : Nat) (sat : Bool) (v : Int) : Word × Word :=
  if intMin t ≤ v ∧ v ≤ intMax t then (.ofInt 32 v, 0)
  else if sat then (.ofInt 32 (if v < intMin t then intMin t else intMax t), flagSA)
  else (intWord t v, 0)

/-! ## Floating-point elements (R33, R34) -/

/-- Exponent and fraction bits of a format, and its place in a 32-bit container. -/
structure FFmt where
  eb : Nat
  fb : Nat
  shift : Nat
  deriving DecidableEq, Repr

/-- The formats of R33 by type code. -/
def fmtOf (t : Nat) : FFmt :=
  match t with
  | 6 => ⟨5, 10, 0⟩
  | 7 => ⟨8, 7, 0⟩
  | 9 => ⟨8, 10, 13⟩
  | _ => ⟨8, 23, 0⟩

/-- The exponent bias. -/
def FFmt.bias (x : FFmt) : Int := (2 ^ (x.eb - 1) : Nat) - 1
/-- The exponent of the smallest normal. -/
def FFmt.emin (x : FFmt) : Int := 1 - x.bias
/-- The exponent of one unit of a subnormal's last place. -/
def FFmt.qmin (x : FFmt) : Int := x.emin - x.fb
/-- The bits below the sign of +∞. -/
def FFmt.infBits (x : FFmt) : Nat := (2 ^ x.eb - 1) * 2 ^ x.fb

/-- A value read from an element: a NaN with its fraction of `fb` bits, an infinity, or ±m × 2^e. -/
inductive Fp where
  | nan (neg : Bool) (frac fb : Nat)
  | inf (neg : Bool)
  | fin (neg : Bool) (m : Nat) (e : Int)
  deriving DecidableEq, Repr

/-- The narrow NaN: quiet, and the default NaN of any type it is converted to (R43). -/
def Fp.narrowNan : Fp := .nan false 1 1
/-- Any NaN. -/
def Fp.isNan : Fp → Bool
  | .nan _ _ _ => true
  | _ => false
/-- A signalling NaN: its most significant fraction bit is 0 (R33). -/
def Fp.isSnan : Fp → Bool
  | .nan _ fr fb => fr < 2 ^ (fb - 1)
  | _ => false
/-- Any infinity. -/
def Fp.isInf : Fp → Bool
  | .inf _ => true
  | _ => false
/-- Any zero. -/
def Fp.isZero : Fp → Bool
  | .fin _ 0 _ => true
  | _ => false
/-- The sign. -/
def Fp.neg : Fp → Bool
  | .nan s _ _ => s
  | .inf s => s
  | .fin s _ _ => s
/-- The value with its sign flipped. -/
def Fp.negate : Fp → Fp
  | .nan s a b => .nan s a b
  | .inf s => .inf !s
  | .fin s m e => .fin (!s) m e

/-- An element's bits (R34). -/
def elemBits (t : Nat) (w : Word) : Nat :=
  let x := fmtOf t
  w.toNat / 2 ^ x.shift % 2 ^ (1 + x.eb + x.fb)
/-- A register word of an element's bits (R34). -/
def elemWord (t : Nat) (bits : Nat) : Word := .ofNat 32 (bits * 2 ^ (fmtOf t).shift)

/-- Reading a float element, with subnormals as zeros of the same sign under FTZ (R33, R36). -/
def fpOf (t : Nat) (ftz : Bool) (w : Word) : Fp :=
  let x := fmtOf t
  let b := elemBits t w
  let s := b / 2 ^ (x.eb + x.fb) == 1
  let e := b / 2 ^ x.fb % 2 ^ x.eb
  let fr := b % 2 ^ x.fb
  if e = 2 ^ x.eb - 1 then if fr = 0 then .inf s else .nan s fr x.fb
  else if e = 0 then .fin s (if ftz then 0 else fr) x.qmin
  else .fin s (2 ^ x.fb + fr) (x.qmin + (e - 1 : Nat))

/-- The sign bit of an element's bits. -/
def signBits (t : Nat) (neg : Bool) : Nat := if neg then 2 ^ ((fmtOf t).eb + (fmtOf t).fb) else 0
/-- ±∞. -/
def fpInf (t : Nat) (neg : Bool) : Word := elemWord t (signBits t neg + (fmtOf t).infBits)
/-- ±0. -/
def fpZero (t : Nat) (neg : Bool) : Word := elemWord t (signBits t neg)
/-- The largest finite magnitude, signed. -/
def fpMax (t : Nat) (neg : Bool) : Word := elemWord t (signBits t neg + (fmtOf t).infBits - 1)
/-- The default NaN (R33). -/
def fpNan (t : Nat) : Word := elemWord t ((fmtOf t).infBits + 2 ^ ((fmtOf t).fb - 1))

/-- A NaN carried to a type: quiet, its sign kept, the most significant fraction bits that fit (R38). -/
def carryNan (t : Nat) (neg : Bool) (frac fb : Nat) : Word :=
  let d := (fmtOf t).fb
  let fr := if fb ≤ d then frac * 2 ^ (d - fb) else frac / 2 ^ (fb - d)
  let q := 2 ^ (d - 1)
  elemWord t (signBits t neg + (fmtOf t).infBits + (if fr % (2 * q) / q = 1 then fr else fr + q))

/-- The result when some source is a NaN: the first in operand order, and NV for any signalling one (R37, R38). -/
def pickNan (t : Nat) (xs : List Fp) : Option (Word × Word) :=
  match xs.find? Fp.isNan with
  | some (.nan s fr fb) => some (carryNan t s fr fb, flagIf (xs.any Fp.isSnan) flagNV)
  | _ => none

/-- The result of an overflow, by rounding code and sign (R35). -/
def overflowWord (t rnd : Nat) (neg : Bool) : Word :=
  match rnd with
  | 1 => fpMax t neg
  | 2 => if neg then fpMax t true else fpInf t false
  | 3 => if neg then fpInf t true else fpMax t false
  | _ => fpInf t neg

/-- The exact value ±m × 2^e, a little beyond it when `st` holds, rounded once to a type, with its flags (R35 to R37). -/
def fpRound (t rnd : Nat) (ftz neg : Bool) (m : Nat) (e : Int) (st : Bool) : Word × Word :=
  if m = 0 then (fpZero t neg, 0) else
  let x := fmtOf t
  let top := e + (Nat.log2 m : Int)
  let qu := top - x.fb
  let (nu, _) := roundAt rnd neg m e st qu
  -- the rounded magnitude with an unbounded exponent, as exponent of its leading bit
  let topR := if nu = 2 ^ (x.fb + 1) then top + 1 else top
  if x.bias < topR then (overflowWord t rnd neg, flagOF ||| flagNX)
  else
    let q := if qu < x.qmin then x.qmin else qu
    let (n, inx) := roundAt rnd neg m e st q
    let tiny := topR < x.emin
    if ftz && n != 0 && n < 2 ^ x.fb then (fpZero t neg, flagUF ||| flagNX)
    else
      (elemWord t (signBits t neg + n + (q - x.qmin).toNat * 2 ^ x.fb),
        flagIf inx flagNX ||| flagIf (inx && tiny) flagUF)

/-- A value that is no NaN, written to a type with one rounding. -/
def fpPut (t rnd : Nat) (ftz : Bool) : Fp → Word × Word
  | .nan s fr fb => (carryNan t s fr fb, 0)
  | .inf s => (fpInf t s, 0)
  | .fin s m e => fpRound t rnd ftz s m e false

/-! ## Exact sums and products -/

/-- An exact finite sum of signed values m × 2^e. -/
structure Dyad where
  m : Int
  e : Int
  deriving DecidableEq, Repr

/-- The exact sum. -/
def Dyad.add (a b : Dyad) : Dyad :=
  if a.e ≤ b.e then ⟨a.m + b.m * (2 ^ (b.e - a.e).toNat : Nat), a.e⟩
  else ⟨a.m * (2 ^ (a.e - b.e).toNat : Nat) + b.m, b.e⟩
/-- The exact product. -/
def Dyad.mul (a b : Dyad) : Dyad := ⟨a.m * b.m, a.e + b.e⟩
/-- The negation. -/
def Dyad.neg (a : Dyad) : Dyad := ⟨-a.m, a.e⟩
/-- The magnitude. -/
def Dyad.abs (a : Dyad) : Dyad := ⟨a.m.natAbs, a.e⟩
/-- Exact comparison. -/
def Dyad.lt (a b : Dyad) : Bool := (a.add b.neg).m < 0
/-- Exact comparison. -/
def Dyad.le (a b : Dyad) : Bool := (a.add b.neg).m ≤ 0
/-- Zero. -/
def Dyad.zero : Dyad := ⟨0, 0⟩
/-- One. -/
def Dyad.one : Dyad := ⟨1, 0⟩
/-- The value of a finite element. -/
def Fp.dyad : Fp → Dyad
  | .fin s m e => ⟨if s then -(m : Int) else m, e⟩
  | _ => .zero
/-- An exact value rounded once; an exact zero takes the sign given. -/
def Dyad.round (a : Dyad) (t rnd : Nat) (ftz zneg : Bool) : Word × Word :=
  if a.m = 0 then (fpZero t zneg, 0) else fpRound t rnd ftz (a.m < 0) a.m.natAbs a.e false

/-- The product of two values that are no NaNs; none for 0 × ∞ (R37). -/
def Fp.mul (a b : Fp) : Option Fp :=
  let s := a.neg != b.neg
  match a, b with
  | .fin _ m e, .fin _ n k => some (.fin s (m * n) (e + k))
  | x, y => if x.isZero || y.isZero then none else some (.inf s)

/-- The exact sum of values that are no NaNs, rounded once: infinities of both signs are invalid, and an exact zero is
signed under R35. -/
def fpSum (t rnd : Nat) (ftz : Bool) (xs : List Fp) : Word × Word :=
  let infs := xs.filter Fp.isInf
  if infs.any Fp.neg && infs.any (!·.neg) then (fpNan t, flagNV)
  else if !infs.isEmpty then (fpInf t (infs.any Fp.neg), 0)
  else
    let zs := xs.all Fp.isZero
    let zneg := if zs && xs.all Fp.neg then true else if zs && xs.all (!·.neg) then false else rnd == 3
    ((xs.map Fp.dyad).foldl Dyad.add .zero).round t rnd ftz zneg

/-! ## The float operations of R109 to R113 -/

/-- `fadd` (R109). -/
def fpAdd (t rnd : Nat) (ftz : Bool) (a b : Fp) : Word × Word := (pickNan t [a, b]).getD (fpSum t rnd ftz [a, b])
/-- `fsub` (R109). -/
def fpSub (t rnd : Nat) (ftz : Bool) (a b : Fp) : Word × Word :=
  (pickNan t [a, b]).getD (fpSum t rnd ftz [a, b.negate])
/-- `fmul` (R109). -/
def fpMul (t rnd : Nat) (ftz : Bool) (a b : Fp) : Word × Word :=
  (pickNan t [a, b]).getD (match a.mul b with
    | none => (fpNan t, flagNV)
    | some p => fpPut t rnd ftz p)
/-- 0 × ∞ among two sources. -/
def zeroTimesInf (a b : Fp) : Bool := (a.isZero && b.isInf) || (a.isInf && b.isZero)
/-- `ffma`: a × b + d with one rounding; 0 × ∞ sets NV even when d is a quiet NaN (R109). -/
def fpFma (t rnd : Nat) (ftz : Bool) (a b d : Fp) : Word × Word :=
  let nv := flagIf (zeroTimesInf a b) flagNV
  match pickNan t [a, b, d] with
  | some (w, fl) => (w, fl ||| nv)
  | none => match a.mul b with
    | none => (fpNan t, flagNV)
    | some p => fpSum t rnd ftz [p, d]

/-- The order of values in which −0 is below +0 (R110). -/
def Fp.below (a b : Fp) : Bool :=
  match a, b with
  | .inf s, y => s && !(y.isInf && y.neg)
  | _, .inf s => !s
  | x, y => if x.isZero && y.isZero then x.neg && !y.neg else x.dyad.lt y.dyad

/-- `fmin`, `fmax`, and with `num` `fminn`, `fmaxn` (R110). -/
def fpMinMax (t rnd : Nat) (ftz isMax num : Bool) (a b : Fp) : Word × Word :=
  if num && a.isNan != b.isNan then
    ((fpPut t rnd ftz (if a.isNan then b else a)).1, flagIf (a.isSnan || b.isSnan) flagNV)
  else (pickNan t [a, b]).getD
    ((fpPut t rnd ftz (if (if isMax then a.below b else b.below a) then b else a)).1, 0)

/-- `fdiv` (R111). -/
def fpDiv (t rnd : Nat) (ftz : Bool) (a b : Fp) : Word × Word :=
  (pickNan t [a, b]).getD (
    let s := a.neg != b.neg
    match a, b with
    | .inf _, .inf _ => (fpNan t, flagNV)
    | .inf _, _ => (fpInf t s, 0)
    | _, .inf _ => (fpZero t s, 0)
    | .fin _ m e, .fin _ n k =>
      if m = 0 ∧ n = 0 then (fpNan t, flagNV)
      else if n = 0 then (fpInf t s, flagDZ)
      else if m = 0 then (fpZero t s, 0)
      else
        let up := 64 + (Nat.log2 n - Nat.log2 m)
        fpRound t rnd ftz s (m * 2 ^ up / n) (e - k - up) (m * 2 ^ up % n != 0)
    | _, _ => (fpNan t, 0))

/-- The whole square root of `n` below 2^k, bit by bit. -/
def isqrtUpTo (n : Nat) : Nat → Nat → Nat
  | 0, r => r
  | k + 1, r => isqrtUpTo n k (if (r + 2 ^ k) * (r + 2 ^ k) ≤ n then r + 2 ^ k else r)
/-- The whole square root. -/
def isqrt (n : Nat) : Nat := isqrtUpTo n (Nat.log2 n / 2 + 1) 0

/-- A positive value m × 2^e as m' × 2^(2k) with m' of at least 128 bits: (m', k). -/
def evenScale (m : Nat) (e : Int) : Nat × Int :=
  let up : Nat := 128 + (if (e - 128) % 2 = 0 then 0 else 1)
  (m * 2 ^ up, (e - up) / 2)

/-- `fsqrt` (R111). -/
def fpSqrt (t rnd : Nat) (ftz : Bool) (a : Fp) : Word × Word :=
  (pickNan t [a]).getD (
    match a with
    | .inf s => if s then (fpNan t, flagNV) else (fpInf t false, 0)
    | .fin s m e =>
      if m = 0 then (fpZero t s, 0)
      else if s then (fpNan t, flagNV)
      else
        let (n, k) := evenScale m e
        let r := isqrt n
        fpRound t rnd ftz false r k (r * r != n)
    | _ => (fpNan t, 0))

/-- `frsq` (R111): 1 ÷ √a. -/
def fpRsq (t rnd : Nat) (ftz : Bool) (a : Fp) : Word × Word :=
  (pickNan t [a]).getD (
    match a with
    | .inf s => if s then (fpNan t, flagNV) else (fpZero t false, 0)
    | .fin s m e =>
      if m = 0 then (fpInf t s, flagDZ)
      else if s then (fpNan t, flagNV)
      else
        -- √(2^256 ÷ n) with n × 2^(2k) the value, as a whole number of units 2^-128-k
        let (n, k) := evenScale m e
        let big := 2 ^ 512
        let r := isqrt (big / n)
        fpRound t rnd ftz false r (-256 - k) (r * r * n != big)
    | _ => (fpNan t, 0))

/-- `frcp` (R111): 1 ÷ a. -/
def fpRcp (t rnd : Nat) (ftz : Bool) (a : Fp) : Word × Word := fpDiv t rnd ftz (.fin false 1 0) a

/-- `frnd`: an integral value of the same type, without NX (R113). -/
def fpRnd (t rnd : Nat) (a : Fp) : Word × Word :=
  (pickNan t [a]).getD (
    match a with
    | .inf s => (fpInf t s, 0)
    | .fin s m e => if 0 ≤ e then ((fpRound t rnd false s m e false).1, 0)
      else ((fpRound t rnd false s (roundAt rnd s m e false 0).1 0 false).1, 0)
    | _ => (fpNan t, 0))

/-- `fdot2`: a.lo × b.lo + a.hi × b.hi + d to f32 with one rounding (R113). DESIGN CHOICE (log entry 37): with a quiet NaN
source the opposite infinities of other terms set no NV. -/
def fpDot2 (rnd : Nat) (ftz : Bool) (al ah bl bh d : Fp) : Word × Word :=
  let nv := flagIf (zeroTimesInf al bl || zeroTimesInf ah bh) flagNV
  match pickNan 8 [al, ah, bl, bh, d] with
  | some (w, fl) => (w, fl ||| nv)
  | none => match al.mul bl, ah.mul bh with
    | some p, some q => fpSum 8 rnd ftz [p, q, d]
    | _, _ => (fpNan 8, flagNV)

/-- The conditions of `fcmp`: eq, ne, lt, le, gt, ge, un (R68). -/
inductive FCond where
  | eq | ne | lt | le | gt | ge | un
  deriving DecidableEq, Repr

/-- `fcmp` with its flags: −0 equals +0 (R112). -/
def fpCmp (c : FCond) (a b : Fp) : Bool × Word :=
  let nan := a.isNan || b.isNan
  let snan := a.isSnan || b.isSnan
  let lt := fun (x y : Fp) => !nan && !(x.isZero && y.isZero) && x.below y
  let eq := !nan && !(lt a b) && !(lt b a)
  match c with
  | .eq => (eq, flagIf snan flagNV)
  | .ne => (!eq, flagIf snan flagNV)
  | .un => (nan, flagIf snan flagNV)
  | .lt => (lt a b, flagIf nan flagNV)
  | .le => (lt a b || eq, flagIf nan flagNV)
  | .gt => (lt b a, flagIf nan flagNV)
  | .ge => (lt b a || eq, flagIf nan flagNV)

/-- `fcls`: the one-hot class code of an element's bits (R112). -/
def fpClass (t : Nat) (w : Word) : Word :=
  match fpOf t false w with
  | .nan s fr fb => if (Fp.nan s fr fb).isSnan then 1 else 2
  | .inf s => if s then 4 else 512
  | .fin s m e =>
    if m = 0 then (if s then 32 else 64)
    else if m < 2 ^ (fmtOf t).fb ∧ e = (fmtOf t).qmin then (if s then 16 else 128)
    else if s then 8 else 256

/-! ## Conversions between integers and floats (R39) -/

/-- A value as an integer of a type (R39). -/
def fpToInt (t rnd : Nat) (sat : Bool) (a : Fp) : Word × Word :=
  let clamp (neg : Bool) : Word × Word :=
    (.ofInt 32 (if neg then intMin t else intMax t), if sat then flagSA else flagNV)
  match a with
  | .nan _ _ _ => (0, flagNV)
  | .inf s => clamp s
  | .fin s m e =>
    let (n, inx) := roundAt rnd s m e false 0
    let v : Int := if s then -(n : Int) else n
    if intMin t ≤ v ∧ v ≤ intMax t then (.ofInt 32 v, flagIf inx flagNX) else clamp s

/-- An integer as an exact value. -/
def intFp (v : Int) : Fp := .fin (v < 0) v.natAbs 0

end Sys2Proof.Machine
end

