-- ==== Sys2Proof/Machine/Narrow.lean ====
section
/-! DEFINITION. The narrow family: format registers, codes, encoding and decoding, block scales, and conversion between any
two element types (R40 to R47, R107). -/
namespace Sys2Proof.Machine

/-- A format register's fields (R40). -/
structure NFmt where
  bias : Int
  nc : Nat
  ov : Bool
  s : Nat
  e : Nat
  m : Nat
  deriving DecidableEq, Repr

/-- Reading a format register (R40). -/
def nfmtOf (w : Word) : NFmt :=
  ⟨(w.extractLsb' 16 8).toInt, (w.extractLsb' 14 2).toNat, w.getLsbD 13, (w.extractLsb' 12 1).toNat,
    (w.extractLsb' 8 3).toNat, (w.extractLsb' 4 3).toNat⟩

/-- The element width W (R40). -/
def NFmt.width (x : NFmt) : Nat := x.s + x.e + x.m

/-- A valid format register (R41). -/
def NFmt.valid (x : NFmt) : Bool :=
  1 ≤ x.width && x.width ≤ 8 && (2 ^ x.e - 1 : Nat) - x.bias ≤ 127 && -149 ≤ 1 - x.bias - x.m
    && (x.nc != 1 || 1 ≤ x.e + x.m) && (x.nc != 2 || x.s == 1) && (x.nc != 3 || 1 ≤ x.e)

/-- The exponent field of a code. -/
def NFmt.expOf (x : NFmt) (c : Nat) : Nat := c / 2 ^ x.m % 2 ^ x.e
/-- The fraction field of a code. -/
def NFmt.fracOf (x : NFmt) (c : Nat) : Nat := c % 2 ^ x.m
/-- The sign of a code. -/
def NFmt.signOf (x : NFmt) (c : Nat) : Bool := x.s == 1 && c / 2 ^ (x.e + x.m) % 2 == 1

/-- A NaN code (R43). -/
def NFmt.isNanCode (x : NFmt) (c : Nat) : Bool :=
  match x.nc with
  | 0 => false
  | 1 => c % 2 ^ (x.e + x.m) == 2 ^ (x.e + x.m) - 1
  | 2 => x.signOf c && c % 2 ^ (x.e + x.m) == 0
  | _ => x.expOf c == 2 ^ x.e - 1

/-- The canonical NaN code (R43). -/
def NFmt.nanCode (x : NFmt) : Nat := if x.nc = 2 then 2 ^ (x.e + x.m) else 2 ^ (x.e + x.m) - 1

/-- The exponent of one unit of the least code (R42). -/
def NFmt.qmin (x : NFmt) : Int := 1 - x.bias - x.m

/-- The value of a code (R42, R43). -/
def NFmt.decode (x : NFmt) (c : Nat) : Fp :=
  let c := c % 2 ^ x.width
  if x.isNanCode c then .narrowNan
  else if x.expOf c = 0 then .fin (x.signOf c) (x.fracOf c) x.qmin
  else .fin (x.signOf c) (2 ^ x.m + x.fracOf c) (x.qmin + (x.expOf c - 1 : Nat))

/-- The code of the largest finite magnitude: the largest magnitude code that is no NaN code (R42). -/
def NFmt.maxCode (x : NFmt) : Nat :=
  let top := 2 ^ (x.e + x.m) - 1
  ((List.range (2 ^ (x.e + x.m))).map (top - ·)).find? (fun c => !x.isNanCode c) |>.getD 0

/-- The sign bit of a code. -/
def NFmt.signBit (x : NFmt) (neg : Bool) : Nat := if neg && x.s == 1 then 2 ^ (x.e + x.m) else 0

/-- Whether a zero of that sign keeps it (R43). -/
def NFmt.zeroCode (x : NFmt) (neg : Bool) : Nat := if x.nc = 2 then 0 else x.signBit neg

/-- The largest finite magnitude with a sign; where it is zero, the zero of that sign that the format has (R44). -/
def NFmt.maxSigned (x : NFmt) (neg : Bool) : Nat :=
  if x.maxCode = 0 then x.zeroCode neg else x.signBit neg + x.maxCode

/-- An exact value encoded into a narrow format, with its flags (R44). DESIGN CHOICE (log entry 31): a tie is broken on the
parity of the whole significand, which in a format with M = 0 counts the implied bit, R44 naming only the fraction m; and in
a format with E = 0, which has no normal code, every inexact result in range is tiny. -/
def NFmt.encode (x : NFmt) (rnd : Nat) (sat : Bool) (a : Fp) : Nat × Word :=
  let past (neg : Bool) (fl : Word) : Nat × Word :=
    if !x.ov || x.nc == 0 || sat then (x.maxSigned neg, fl ||| flagSA) else (x.nanCode, fl ||| flagNV)
  match a with
  | .nan s fr fb =>
    (if x.nc = 0 then 0 else x.nanCode, flagIf (x.nc == 0 || (Fp.nan s fr fb).isSnan) flagNV)
  | .inf neg => if neg && x.s == 0 then (0, flagSA) else past neg 0
  | .fin neg m e =>
    if m = 0 then (x.zeroCode neg, 0)
    else if neg && x.s == 0 then (0, flagSA ||| flagNX)
    else
      let top := e + (Nat.log2 m : Int)
      let qu := top - x.m
      let q := if x.e = 0 || qu < x.qmin then x.qmin else qu
      let (n, inx) := roundAt rnd neg m e false q
      -- the magnitude of n × 2^q as a code counted with an unbounded exponent
      let code := n + (q - x.qmin).toNat * 2 ^ x.m
      let (nu, _) := roundAt rnd neg m e false qu
      let tiny := if x.e = 0 then n < 2 ^ x.m else (Dyad.mk nu qu).lt ⟨1, 1 - x.bias⟩
      if n = 0 then (x.zeroCode neg, flagUF ||| flagNX)
      else if x.maxCode < code then past neg (flagOF ||| flagNX)
      else (x.signBit neg + code, flagIf inx flagNX ||| flagIf (inx && tiny) flagUF)

/-! ## Block scales (R47) -/

/-- The exponent of a block scale code; none for the NaN code (R47). -/
def scaleExp (x : Nat) : Option Int := if x % 256 = 255 then none else some ((x % 256 : Nat) - 127)

/-- A value times a power of two. -/
def Fp.scale (a : Fp) (k : Int) : Fp :=
  match a with
  | .fin s m e => .fin s m (e + k)
  | y => y

/-! ## Conversion (R107) -/

/-- The value of an element of any type; `fmt` is the format register of a narrow type. -/
def elemOf (t : Nat) (fmt : Word) (ftz : Bool) (w : Word) : Fp :=
  if isIntType t then intFp (intOf t w)
  else if isNarrowType t then (nfmtOf fmt).decode w.toNat
  else fpOf t ftz w

/-- `cvt` of one element from type `st` to type `t`, with the format registers of each (R107). -/
def convert (st t : Nat) (sfmt fmt : Word) (rnd : Nat) (sat ftz : Bool) (w : Word) : Word × Word :=
  if isIntType st && isIntType t then intResult t sat (intOf st w)
  else
    let a := elemOf st sfmt (ftz && isFloatType t) w
    if isIntType t then fpToInt t rnd sat a
    else if isNarrowType t then
      let (c, fl) := (nfmtOf fmt).encode rnd sat a
      (.ofNat 32 c, fl)
    else (pickNan t [a]).getD (fpPut t rnd ftz a)

end Sys2Proof.Machine
end

