-- ==== Sys2Proof/Machine/Transc.lean ====
section
/-! DEFINITION. The functions of R111 whose exact values are irrational: computed to 400 binary places, far beyond the
distance at which any of their values can lie from a rounding boundary (log entry 11), then rounded once. -/
namespace Sys2Proof.Machine

/-- Binary places of the evaluation. -/
def fixBits : Nat := 400
/-- One, in units of 2^-400. -/
def fixOne : Nat := 2 ^ fixBits
/-- ln 2, in units of 2^-400. -/
def fixLn2 : Nat :=
  0xB17217F7D1CF79ABC9E3B39803F2F6AF40F343267298B62D8A0D175B8BAAFA2BE7B876206DEBAC98559552FB4AFA1B10ED2E
/-- 2π, in units of 2^-400. -/
def fixTau : Nat :=
  0x6487ED5110B4611A62633145C06E0E68948127044533E63A0105DF531D89CD9128A5043CC71A026EF7CA8CD9E69D218D98158
/-- A product in units of 2^-400. -/
def fixMul (a b : Nat) : Nat := a * b / fixOne

/-- Σ y^k ÷ k! over `fuel` terms from term `k`, whose value is `t`. -/
def expTerms (y : Nat) : Nat → Nat → Nat → Nat
  | 0, _, _ => 0
  | fuel + 1, k, t => t + expTerms y fuel (k + 1) (fixMul t y / (k + 1))

/-- Σ z^(2i+1) ÷ (2i+1) over `fuel` terms: `p` is z^n, `n` odd and `zz` is z². -/
def atanhTerms (zz : Nat) : Nat → Nat → Nat → Nat
  | 0, _, _ => 0
  | fuel + 1, n, p => p / n + atanhTerms zz fuel (n + 2) (fixMul p zz)

/-- The alternating series t − t·yy÷((n+1)(n+2)) + … of sine (n = 1) and cosine (n = 0). -/
def trigTerms (yy : Nat) : Nat → Nat → Int → Int
  | 0, _, _ => 0
  | fuel + 1, n, t => t + trigTerms yy fuel (n + 2) (-(t * yy / (fixOne : Int)) / ((n + 1) * (n + 2) : Nat))

/-- `fex2` (R111). -/
def fpEx2 (t rnd : Nat) (ftz : Bool) (a : Fp) : Word × Word :=
  (pickNan t [a]).getD (
    match a with
    | .inf s => if s then (fpZero t false, 0) else (fpInf t false, 0)
    | .fin s m e =>
      let v : Int := if s then -(m : Int) else m
      if 0 ≤ e + (Nat.log2 m : Int) - 10 && m != 0 then
        fpRound t rnd ftz false 1 (if s then -1024 else 1024) false
      else if m = 0 then fpRound t rnd ftz false 1 0 false
      else if 0 ≤ e then fpRound t rnd ftz false 1 (v * (2 ^ e.toNat : Nat)) false
      else
        let d : Nat := 2 ^ (-e).toNat
        let k := v.fdiv d
        let f := (v - k * d).toNat
        if f = 0 then fpRound t rnd ftz false 1 k false
        else fpRound t rnd ftz false (expTerms (fixMul (f * fixOne / d) fixLn2) 100 0 fixOne) (k - fixBits) true
    | _ => (fpNan t, 0))

/-- log₂ of x, from 1 up to 2, in units of 2^-400. -/
def fixLog2 (x : Nat) : Nat :=
  let z := (x - fixOne) * fixOne / (x + fixOne)
  2 * atanhTerms (fixMul z z) 140 1 z * fixOne / fixLn2

/-- `flg2` (R111). -/
def fpLg2 (t rnd : Nat) (ftz : Bool) (a : Fp) : Word × Word :=
  (pickNan t [a]).getD (
    match a with
    | .inf s => if s then (fpNan t, flagNV) else (fpInf t false, 0)
    | .fin s m e =>
      if m = 0 then (fpInf t true, flagDZ)
      else if s then (fpNan t, flagNV)
      else
        let top := Nat.log2 m
        let k := e + (top : Int)
        if m = 2 ^ top then Dyad.round ⟨k, 0⟩ t rnd ftz false
        else
          let v : Int := k * (fixOne : Int) + (fixLog2 (m * fixOne / 2 ^ top) : Nat)
          fpRound t rnd ftz (v < 0) v.natAbs (-fixBits) true
    | _ => (fpNan t, 0))

/-- sin(2πr), for r up to 1÷8, in units of 2^-400. -/
def fixSin (r : Nat) : Nat :=
  let y := fixMul r fixTau
  (trigTerms (fixMul y y) 50 1 y).toNat
/-- cos(2πr), for r up to 1÷8, in units of 2^-400. -/
def fixCos (r : Nat) : Nat :=
  let y := fixMul r fixTau
  (trigTerms (fixMul y y) 50 0 fixOne).toNat
/-- sin(2πr) for r up to 1÷4. -/
def fixQuarterSin (r : Nat) : Nat := if 8 * r ≤ fixOne then fixSin r else fixCos (fixOne / 4 - r)

/-- The part of |m × 2^e| below one turn, in units of 2^-400. -/
def turnsOf (m : Nat) (e : Int) : Nat :=
  if 0 ≤ e then 0 else m * 2 ^ (fixBits - (-e).toNat) % fixOne

/-- sin(2πr) for r below one turn, rounded; `zneg` is the sign of an exact zero and `neg` flips the result. -/
def sinTurns (t rnd : Nat) (ftz neg zneg : Bool) (r : Nat) : Word × Word :=
  let half := fixOne / 2
  let q := fixOne / 4
  let s := neg != decide (half ≤ r)
  let h := r % half
  if h = 0 then (fpZero t zneg, 0)
  else if h = q then fpRound t rnd ftz s 1 0 false
  else fpRound t rnd ftz s (fixQuarterSin (if h < q then h else half - h)) (-fixBits) true

/-- `fsin` (R111): the argument is in turns. -/
def fpSin (t rnd : Nat) (ftz : Bool) (a : Fp) : Word × Word :=
  (pickNan t [a]).getD (
    match a with
    | .fin s m e => sinTurns t rnd ftz s s (turnsOf m e)
    | _ => (fpNan t, flagNV))

/-- `fcos` (R111): the cosine is the sine a quarter turn later. -/
def fpCos (t rnd : Nat) (ftz : Bool) (a : Fp) : Word × Word :=
  (pickNan t [a]).getD (
    match a with
    | .fin _ m e => sinTurns t rnd ftz false false ((turnsOf m e + fixOne / 4) % fixOne)
    | _ => (fpNan t, flagNV))

end Sys2Proof.Machine
end

