-- ==== Sys2Proof/Machine/Operands.lean ====
section
/-! DEFINITION. Operand forms shared by the arithmetic families: result shapes from tags (R87, R88), the checks of `md` in
the order of R326 row 4, typed elements, the format registers of h0 (R114), and predicate writes. -/
namespace Sys2Proof.Machine

/-! ## Result shapes (R87) -/

/-- The tag rank of a register. -/
def Group.rank (g : Group) (r : VReg) : Nat := (g.reg r).rank
/-- Affine results of typed instructions arise only in 32-bit types without saturation (R87). -/
def Group.affineTyped (g : Group) : Bool := (g.type == 2 || g.type == 5) && !g.sat
/-- A shape rank under a condition for an affine result. -/
def affineIf (ok : Bool) (sh : Nat) : Nat := if sh = 1 && !ok then 2 else sh
/-- `add`, `sub`, `addi` and the addition step of `mad` (R87). -/
def linearShape (xs : List Nat) : Nat := xs.foldl Nat.max 0
/-- `mul` and the product step of `mad` (R87). -/
def productShape (x y : Nat) : Nat := if x = 2 || y = 2 then 2 else if x = 1 && y = 1 then 2 else Nat.max x y
/-- `shl` and `shli` (R87). -/
def shiftShape (x k : Nat) : Nat := if x = 2 || k = 2 then 2 else if k = 1 then 2 else x
/-- Every other instruction (R87). -/
def otherShape (xs : List Nat) : Nat := if xs.all (· == 0) then 0 else 2

/-! ## Checks of `md` (R21, R326 row 4) -/

/-- Row 4 of R326: reserved codes (3), then invalid formats (10), then refused types (11). -/
def mdChecks (reserved badFormat refused : Bool) : Except Stop Unit := do
  check (!reserved) (illegal 3)
  check (!badFormat) (illegal 10)
  check (!refused) (illegal 11)

/-- `md.RND` holds a reserved code. -/
def Group.badRnd (g : Group) : Bool := 5 ≤ g.rnd

/-- `md.TYPE` must be an integer type (R102). -/
def Group.needInt (g : Group) : Except Stop Unit := mdChecks (isReservedType g.type) false (!isIntType g.type)

/-- `md.TYPE` must be a float type (R109); `round` when the instruction rounds by `md.RND`. -/
def Group.needFloat (g : Group) (round : Bool) : Except Stop Unit :=
  mdChecks (isReservedType g.type || (round && g.badRnd)) false (!isFloatType g.type)

/-- The checks of a quad operand (R59, R326). -/
def quadCheck (a : VReg) : Except Stop Unit := check (a.val % 4 == 0) (illegal 12)
/-- A register of a group of operands. -/
def regAt (a : VReg) (k : Nat) : VReg := vr (a.val + k)
/-- `md.SWZ` must not be reserved (R21). -/
def Group.needSwz (g : Group) : Except Stop Unit := mdChecks (g.swz == 3) false false

/-! ## h0 and narrow formats (R114) -/

/-- Format register of a narrow type in a handle's descriptor (R159). -/
def handleFmt (h : BitVec 512) (t : Nat) : Word := h.extractLsb' (384 + 32 * (t - 10)) 32
/-- The TYPE field of a handle's descriptor (R159). -/
def handleType (h : BitVec 512) : Nat := (h.extractLsb' 64 4).toNat
/-- The format register h0 carries for a narrow type. -/
def Group.fmt0 (g : Group) (t : Nat) : Word := handleFmt (g.hreg 0) t
/-- A narrow type whose format register in h0 is invalid (R41). -/
def Group.badFmt0 (g : Group) (t : Nat) : Bool := isNarrowType t && !(nfmtOf (g.fmt0 t)).valid
/-- The TYPE field of h0 must not be 0 or reserved when a narrow type is named (R20, R114). -/
def Group.needH0 (g : Group) (ts : List Nat) : Except Stop Unit :=
  check (!(ts.any isNarrowType) || (1 ≤ handleType (g.hreg 0) && handleType (g.hreg 0) ≤ 4)) (protect 2)

/-! ## Typed elements -/

/-- An integer element of `md.TYPE` as fibre `f` reads it. -/
def Group.int (g : Group) (r : VReg) (f : Nat) : Int := intOf g.type (g.rd r f)
/-- A float element of `md.TYPE` as fibre `f` reads it. -/
def Group.fp (g : Group) (r : VReg) (f : Nat) : Fp := fpOf g.type g.ftz (g.rd r f)

/-- A typed integer instruction: its exact result, wrapped or saturated (R32, R102). -/
def typedInt (d : VReg) (sh : Group → Nat) (res : Group → Nat → Int) (g : Group) : Except Stop Group := do
  g.needInt
  g.result d (affineIf g.affineTyped (sh g)) g.on fun f => intResult g.type g.sat (res g f)

/-- An untyped instruction on 32-bit words (R102). -/
def untyped (d : VReg) (sh : Group → Nat) (res : Group → Nat → Word) (g : Group) : Except Stop Group :=
  g.result d (sh g) g.on fun f => (res g f, 0)

/-- Writing a predicate and the flags of the comparison, for active, guard-passing fibres (R18, R86). -/
def Group.compare (g : Group) (d : PReg) (res : Nat → Bool × Word) : Group :=
  (g.putP d g.on fun f => (res f).1).raise ((g.ons.map fun f => (res f).2).foldl (· ||| ·) 0)

end Sys2Proof.Machine
end

