-- ==== Sys2Proof/Machine/Manifest.lean ====
section
/-! DEFINITION. The manifest: records, hashes, and what a recorded event meets when a context records or replays
(R358 to R368). -/
namespace Sys2Proof.Machine

/-- A recorded event: its kind, the identity of its party, the address or object it names, the hash of the value observed,
the core, 0x7FF for the landing die, and the logical time of its access; none: it takes its place as it is recorded (R359 to
R362). -/
structure RecEvent where
  kind : Nat
  party : Party
  addr : DWord
  hash : Word
  core : Nat
  time : Option Nat
  deriving DecidableEq, Repr, Inhabited

/-- The hash of a value's little-endian words (R362). -/
def hashWords (ws : List Word) : Word := ws.foldl (fun h w => h.rotateLeft 5 ^^^ w) 0
/-- The hash of a value's bytes, the last word zero-padded (R362). -/
def hashBytes (bs : List Byte) : Word := hashWords (bytesWords bs ((bs.length + 3) / 4))

/-- The FIB byte of a record (R359). -/
def Party.fib (p : Party) : Nat := p.fibre % 16 + p.eng.toNat * 16 + p.cont.toNat * 32 + p.host.toNat * 64

/-- The key of a context's logical clock on a core, 0x7FF for the landing die. -/
def clockKey (ctx core : Nat) : Nat := ctx * 4096 + core
/-- A context's logical clock on a core: 0 when the context is created (R239). -/
def State.clockOf (s : State) (ctx core : Nat) : Nat := assoc s.clocks (clockKey ctx core) 0
/-- A clock set to a time. -/
def State.setClock (s : State) (ctx core t : Nat) : State := { s with clocks := setAssoc s.clocks (clockKey ctx core) t }

/-- A time after that of every access a context has made so far (R314). -/
def State.timeAfter (s : State) (ctx : Nat) : Nat :=
  ((s.clocks.filter fun x => x.1 / 4096 == ctx).map (·.2)).foldl Nat.max 0 + 1
/-- What a core does next for a context follows every access it has made so far (R238, R239, R314). -/
def State.catchUp (s : State) (ctx core : Nat) : State := s.setClock ctx core (s.timeAfter ctx)

/-! ## Logical times of lines (R238, R239) -/

/-- The mark of a 128-byte line. -/
def State.lineMark (s : State) (space : Option Nat) (line : Nat) : LineMark :=
  (s.lines.find? fun x => x.space == space && x.line == line).getD ⟨space, line, 0, 0, []⟩
/-- Replacing the mark of a line. -/
def State.setLine (s : State) (m : LineMark) : State :=
  { s with lines := m :: s.lines.filter fun x => !(x.space == m.space && x.line == m.line) }

/-- A read or write takes its logical time: a load raises its core's clock to the line's write time and extends the lease
to its own time plus 32; a store's time passes the lease and the last write (R238, R239). -/
def State.order (s : State) (ctx core : Nat) (space : Option Nat) (line : Nat) (wr : Bool) : State :=
  let m := s.lineMark space line
  let now := s.clockOf ctx core
  if wr then
    let t := Nat.max now (Nat.max (m.lease + 1) (m.wt + 1))
    (s.setClock ctx core t).setLine { m with wt := t }
  else
    let t := Nat.max now m.wt
    (s.setClock ctx core t).setLine { m with lease := Nat.max m.lease (t + 32) }

/-- The 32 bytes of a record with its event's logical time (R359). -/
def RecEvent.bytes (e : RecEvent) (time : Nat) : List Byte :=
  [.ofNat 8 e.kind, .ofNat 8 e.party.fib] ++ natLe 2 e.core ++ [.ofNat 8 e.party.slot, 0] ++ natLe 6 time
    ++ natLe 4 e.party.serial ++ natLe 8 e.addr.toNat ++ natLe 4 e.party.team ++ natLe 4 e.hash.toNat

/-- A counter of the manifest control block: HEAD at 0x10, TAIL at 0x18; none when it cannot be read (R358). -/
def State.maniCount (s : State) (c : Context) (off : Nat) : Option Nat :=
  match s.peek c (c.mani + .ofNat 64 off) 8 with
  | .ok bs => some (leNat bs)
  | .error _ => none

/-- The address of record i (R358). -/
def Context.recordAddr (c : Context) (i : Nat) : DWord := c.maniBase + .ofNat 64 (32 * (i % 2 ^ c.maniLog))

/-- Writing a counter of the control block. -/
def State.setMani (s : State) (c : Context) (off v : Nat) : State := (s.poke c (c.mani + .ofNat 64 off) (natLe 8 v)).getD s

/-- The line of HEAD, by which the events of a context's records are ordered (R363, R364). -/
def State.headLine (s : State) (c : Context) : Option Nat :=
  match s.locOf c (c.mani + 0x10) .write with
  | .ok l => some l.line
  | .error _ => none
/-- An event of a recording context takes its place after the last recorded one: its access's time passes that of HEAD's last
write (R239, R363). -/
def State.afterHead (s : State) (c : Context) (core : Nat) : State :=
  if c.recMode != 1 then s else
  match s.headLine c with
  | some line => s.order c.num core none line true
  | none => s
/-- HEAD's line carries the time of the event last recorded (R364). -/
def State.stampHead (s : State) (c : Context) (time : Nat) : State :=
  match s.headLine c with
  | some line => let m := s.lineMark none line; s.setLine { m with wt := Nat.max m.wt time }
  | none => s

/-- Writing records from index `h` up, each before HEAD rises, in the package order of their events (R363, R364). -/
def State.writeRecords (s : State) (c : Context) (h : Nat) : List RecEvent → State
  | [] => s
  | e :: es =>
    let s := if e.time.isNone then s.afterHead c e.core else s
    let time := e.time.getD (s.clockOf c.num e.core)
    let s := (s.poke c (c.recordAddr h) (e.bytes time)).getD s
    ((s.setMani c 0x10 (h + 1)).stampHead c time).writeRecords c (h + 1) es

/-- Records kept free for the forwarded atomics of a context's groups (R364). -/
def State.owed (s : State) (c : Context) : Nat :=
  ((s.teams.filter (·.ctx == c.num)).map fun t => (t.groups.map (·.owed)).sum).sum

/-- The record at index `i`; empty when it cannot be read. -/
def State.recordAt (s : State) (c : Context) (i : Nat) : List Byte := (s.peek c (c.recordAddr i) 32).toOption.getD []

/-- The first index from `h` below `t` whose record is no unordered-conflict record (R366). -/
def State.skipConflicts (s : State) (c : Context) : Nat → Nat → Nat
  | 0, h => h
  | n + 1, h => if bytesAt (s.recordAt c h) 0 1 = 11 then s.skipConflicts c n (h + 1) else h

/-- The next record of the schedule: its index and bytes; none when the schedule is empty (R366). -/
def State.headRecord (s : State) (c : Context) : Option (Nat × List Byte) :=
  match s.maniCount c 0x10, s.maniCount c 0x18 with
  | some h, some t =>
    let i := s.skipConflicts c (t - h) h
    if i < t then some (i, s.recordAt c i) else none
  | _, _ => none

/-- A record names a party's identity (R360, R366): every field of FIB but the fibre's, SLOT, SERIAL, TEAM and the fibre. -/
def namesParty (r : List Byte) (p : Party) : Bool :=
  bytesAt r 1 1 == p.fib && bytesAt r 4 1 == p.slot && bytesAt r 0x0C 4 == p.serial && bytesAt r 0x18 4 == p.team

/-- An event is compared with a record: the record names its party's identity, whichever fibre of an instruction it is; for an
engine's, its kind and ADDR too (R366). -/
def RecEvent.offered (e : RecEvent) (r : List Byte) : Bool :=
  namesParty r e.party && (!e.party.eng || (bytesAt r 0 1 == e.kind && bytesAt r 0x10 8 == e.addr.toNat))

/-- What an event meets at the manifest (R364, R366, R367). -/
inductive Gate where
  | go (s : State)
  | hold
  | diverge (n : Nat)

/-- Comparing events with the records from index `i`: the index of the first mismatch, or none. A tag completion's ADDR is
not compared (R367). -/
def State.mismatch (s : State) (c : Context) : Nat → List RecEvent → Option Nat
  | _, [] => none
  | i, e :: es =>
    let r := s.recordAt c i
    if namesParty r e.party && bytesAt r 0 1 == e.kind && (e.kind == 5 || bytesAt r 0x10 8 == e.addr.toNat)
        && bytesAt r 0x1C 4 == e.hash.toNat then s.mismatch c (i + 1) es
    else some i

/-- The writes of n records from index h, or of HEAD, must wait (R356). -/
def State.maniWaits (s : State) (c : Context) (h n : Nat) : Bool :=
  s.pokeWaits c (c.mani + 0x10) 8 || (List.range n).any fun i => s.pokeWaits c (c.recordAddr (h + i)) 32

/-- Offering the events of one instruction or unit: recorded when there is room, or compared with the schedule
(R364, R366 to R368). -/
def State.gate (s : State) (c : Context) (evs : List RecEvent) : Gate :=
  match evs with
  | [] => .go s
  | _ :: _ =>
    match c.recMode with
    | 1 =>
      match s.maniCount c 0x10, s.maniCount c 0x18 with
      | some h, some t => if h - t + evs.length + s.owed c ≤ 2 ^ c.maniLog && !s.maniWaits c h evs.length then .go (s.writeRecords c h evs) else .hold
      | _, _ => .hold
    | 2 =>
      match s.headRecord c, s.maniCount c 0x18 with
      | some (i, r), some t =>
        if !evs.any (·.offered r) then .hold
        else match s.mismatch c i (evs.take (t - i)) with
          | some n => .diverge n
          | none => if t < i + evs.length || s.maniWaits c i 0 then .hold else .go (s.setMani c 0x10 (i + evs.length))
      | _, _ => .hold
    | _ => .go s

/-- Whether events of an instruction could be performed now, before their values are known: room to record n of them, or one of
their parties named at HEAD with n records supplied (R364, R366). -/
def State.turnOf (s : State) (c : Context) (ps : List Party) (n : Nat) : Bool :=
  match c.recMode with
  | 1 => match s.maniCount c 0x10, s.maniCount c 0x18 with
    | some h, some t => h - t + n + s.owed c ≤ 2 ^ c.maniLog
    | _, _ => false
  | 2 => match s.headRecord c, s.maniCount c 0x18 with
    | some (i, r), some t => ps.any (namesParty r) && i + n ≤ t
    | _, _ => false
  | _ => true

/-- The events of a privileged group are neither recorded nor held (R343). -/
def State.gateGroup (s0 s : State) (c : Context) (priv : Bool) (evs : List RecEvent) : Except Stop State :=
  if priv then .ok s
  else match s.gate c evs with
    | .go s => .ok s
    | .hold => .error (.wait .manifest s0)
    | .diverge n => .error (.trap .replayDivergence 0 (some (.ofNat 64 n)))

/-- What a party that ends finds at record HEAD of the schedule: the index of a record that names one of the fibres `gone`
in a record of one fibre (kinds 1 and 10), or, when the whole group ends, any of its fibres (R367). -/
def State.endsNamed (s : State) (c : Context) (party : Nat → Party) (gone : List Nat) (whole : Bool) : Option Nat :=
  if c.recMode != 2 then none else
  match s.headRecord c with
  | some (i, r) =>
    let one := bytesAt r 0 1 == 1 || bytesAt r 0 1 == 10
    if (one && gone.any fun f => namesParty r (party f)) || (whole && (List.range 16).any fun f => namesParty r (party f)) then
      some i
    else none
  | none => none

end Sys2Proof.Machine
end

