-- ==== Sys2Proof/Machine/Tiles.lean ====
section
/-! DEFINITION. Element containers, scratchpad swizzle and windows, tile marks and the tile directory
(R133 to R135, R175, R184 to R186). -/
namespace Sys2Proof.Machine

/-! ## Elements in memory -/

/-- The container of an element type in bits: 32, 16, 8 or 4 (R45, R132, R161). -/
def elemContainer (t : Nat) (fmt : Word) : Nat :=
  if isNarrowType t then (if (nfmtOf fmt).width ≤ 4 then 4 else 8)
  else match t with | 0 => 8 | 3 => 8 | 1 => 16 | 4 => 16 | 6 => 16 | 7 => 16 | _ => 32

/-- Element `i` of packed bytes, as its code (R45: the low nibble first). -/
def elemCode (bits : Nat) (bs : List Byte) (i : Nat) : Nat :=
  if bits = 4 then bytesAt bs (i / 2) 1 / 16 ^ (i % 2) % 16 else bytesAt bs (i * bits / 8) (bits / 8)

/-- A code of value zero: integer 0, +0 or −0, or a non-NaN narrow code of value 0 (R184). -/
def codeZero (t : Nat) (fmt : Word) (c : Nat) : Bool :=
  if isIntType t then c == 0 else (elemOf t fmt false (.ofNat 32 c)).isZero
/-- A code of ±∞, a float NaN or a narrow NaN (R184). -/
def codeNonfinite (t : Nat) (fmt : Word) (c : Nat) : Bool :=
  !isIntType t && (let x := elemOf t fmt false (.ofNat 32 c); x.isNan || x.isInf)
/-- The element a code of a container holds: the bits above a narrow code, and a tf word's bits 12 to 0, are not part of it
(R34, R45, R132). -/
def codeOf (t : Nat) (fmt : Word) (c : Nat) : Nat :=
  if isNarrowType t then c % 2 ^ (nfmtOf fmt).width else if t = 9 then c / 2 ^ 13 * 2 ^ 13 else c
/-- The code of exactly 1 (R184). -/
def codeOne (t : Nat) (fmt : Word) : Option Nat :=
  if isIntType t then some 1
  else if isNarrowType t then
    let (c, fl) := (nfmtOf fmt).encode 0 false (.fin false 1 0)
    if fl = 0 then some c else none
  else some ((fmtOf t).bias.toNat * 2 ^ ((fmtOf t).fb + (fmtOf t).shift))

/-- Rows and columns of a tile by container (R175, R184). -/
def tileShape (bits : Nat) : Nat × Nat :=
  match bits with
  | 32 => (32, 16)
  | 16 => (32, 32)
  | 8 => (32, 64)
  | _ => (64, 64)

/-- A tile's judgement: state code, constant and non-finite bit (R184). -/
structure Judged where
  state : Nat
  const : Nat
  nonfin : Bool
  deriving DecidableEq, Repr

/-- Judging the 2,048 bytes of a tile (R184). -/
def judgeTile (t : Nat) (fmt : Word) (bs : List Byte) : Judged :=
  let bits := elemContainer t fmt
  let (rows, cols) := tileShape bits
  let codes := (List.range (16384 / bits)).map fun i => codeOf t fmt (elemCode bits bs i)
  let nf := codes.any (codeNonfinite t fmt)
  if codes.all (codeZero t fmt) then ⟨1, 0, nf⟩
  else if rows == cols && (match codeOne t fmt with
      | some one => codes.mapIdx (fun i c => if i / cols = i % cols then c == one else codeZero t fmt c) |>.all id
      | none => false) then ⟨3, 0, nf⟩
  else match codes with
    | [] => ⟨0, 0, nf⟩
    | c :: cs => if cs.all (· == c) then ⟨2, c, nf⟩ else ⟨0, 0, nf⟩

/-- The directory entry of the tile at a physical address on an attributed page (R185): an entry with an ECC failure and
a narrow page type are general with the non-finite bit set. -/
def State.dirEntry (s : State) (dtype a : Nat) : Judged :=
  if isNarrowType dtype || s.dirBad.contains (a / 2048) then ⟨0, 0, true⟩
  else judgeTile dtype 0 (s.mem.read (a / 2048 * 2048) 2048)

/-! ## Swizzle (R134) -/

/-- The physical offset of a logical one under a swizzle mode (R134). -/
def swizzle (mode off : Nat) : Nat :=
  let c := off / 16 % 8
  let r := match mode with | 1 => off / 128 % 8 | 2 => off / 256 % 8 | _ => 0
  off - c * 16 + (c ^^^ r) * 16

/-! ## Block marks (R135, R186) -/

/-- The mark of an all-zero block (R135, R186). -/
def Mark.zero : Mark := ⟨1, 0, false, 15, 3, 0⟩
/-- The mark of a partial block, the interim mark, and that of a writer with no element type (R135). -/
def Mark.general : Mark := ⟨0, 0, true, 15, 3, 0⟩

/-- The element type of a writer, with its format register for a narrow type; none: no element type (R135). -/
abbrev Writer := Option (Nat × Word)

/-- Block `b` lies wholly in the window (R135). -/
def Team.wholeBlock (t : Team) (b : Nat) : Bool := 2048 * b + 2048 ≤ t.scrBytes
/-- The mark of block `b` (R135). -/
def Team.mark (t : Team) (b : Nat) : Mark :=
  if t.wholeBlock b then (t.marks.lookup b).getD Mark.zero else Mark.general
/-- Setting the mark of block `b`. -/
def Team.setMark (t : Team) (b : Nat) (m : Mark) : Team :=
  { t with marks := (if m = Mark.zero then [] else [(b, m)]) ++ t.marks.filter (·.1 != b) }

/-- Judging a block by the byte rule (R135, R186): its elements that hold a non-zero byte decide the non-finite bit, since
the code 0 is finite in every type. -/
def Team.byteRule (t : Team) (w : Writer) (b : Nat) : Mark :=
  let cells := t.scr.cells.filter fun c => 2048 * b ≤ c.1 && c.1 < 2048 * b + 2048
  if cells.isEmpty then Mark.zero
  else match w with
    | none => Mark.general
    | some (ty, fmt) =>
      let bits := elemContainer ty fmt
      let bad (a : Nat) : Bool :=
        if bits = 4 then
          let x := (t.scr.get a).toNat
          codeNonfinite ty fmt (x % 16) || codeNonfinite ty fmt (x / 16)
        else codeNonfinite ty fmt (leNat (t.scr.read (a / (bits / 8) * (bits / 8)) (bits / 8)))
      ⟨0, 0, cells.any fun c => bad c.1, ty, 3, if isNarrowType ty then fmt else 0⟩

/-- Remarking the blocks that physical bytes a to a + n − 1 touch. -/
def Team.remark (t : Team) (w : Writer) (a n : Nat) : Team :=
  if n = 0 then t else
  (List.range ((a + n - 1) / 2048 + 1 - a / 2048)).foldl (fun t i =>
    let b := a / 2048 + i
    t.setMark b (t.byteRule w b)) t

/-! ## The window by logical offset (R133, R134) -/

/-- The pieces of n bytes from a logical offset: physical offset and length, each inside one 16-byte chunk. -/
def scrPieces (swz off n : Nat) : List (Nat × Nat) := (chunks off n).map fun (a, k) => (swizzle swz a, k)

/-- Reading n bytes from a logical offset. -/
def Team.scrRead (t : Team) (swz off n : Nat) : List Byte := (scrPieces swz off n).flatMap fun (a, k) => t.scr.read a k

/-- Writing bytes from a logical offset; marks are the caller's. -/
def Team.scrPut (t : Team) (swz off : Nat) (bs : List Byte) : Team :=
  (chunks off bs.length).foldl (fun t (a, k) =>
    { t with scr := t.scr.write (swizzle swz a) ((bs.drop (a - off)).take k) }) t

/-- The blocks that n bytes from a logical offset lie in; a swizzle stays inside its block (R134). -/
def blocksOf (off n : Nat) : List Nat :=
  if n = 0 then [] else (List.range ((off + n - 1) / 2048 + 1 - off / 2048)).map (off / 2048 + ·)

/-- Writing bytes from a logical offset with the byte rule on each block touched (R135). -/
def Team.scrWrite (t : Team) (swz : Nat) (w : Writer) (off : Nat) (bs : List Byte) : Team :=
  (blocksOf off bs.length).foldl (fun t b => t.setMark b (t.byteRule w b)) (t.scrPut swz off bs)

/-- The granules, by physical offset, that n bytes from a logical offset lie in. -/
def scrGranules (swz off n : Nat) : List Nat := ((scrPieces swz off n).map fun (a, _) => a / 64).eraseDups

/-- Some granule of n bytes from a logical offset is poisoned. -/
def Team.scrPoisoned (t : Team) (swz off n : Nat) : Bool := (scrGranules swz off n).any t.scrPoison.contains

end Sys2Proof.Machine
end

