-- ==== Sys2Proof/Machine/Access.lean ====
section
/-! DEFINITION. The accesses of an instruction: their checks, where they are performed, requests to the owner of a line,
logical times, races, poison, and the accesses themselves in ascending fibre index; reads whose addresses depend on what is read,
and writes to virtual addresses (R132, R133, R138, R236 to R239, R347 to R350, R370, R393). -/
namespace Sys2Proof.Machine

/-- The context of a team. -/
def State.ctxOf (s : State) (t : Team) : Context := (s.context? t.ctx).getD default
/-- The team of a group. -/
def State.teamOf (s : State) (r : GRef) : Team := (s.team? r.tid).getD default
/-- The identity of a group's fibre, or of its engine operations and units (R360). -/
def Team.party (t : Team) (slot fibre : Nat) (eng : Bool) : Party := ⟨t.serial, t.cont, eng, false, t.lin, slot, fibre⟩

/-! ## Races, and the place of an access (R238, R239, R370) -/

/-- The name of a line among those whose race has been reported (R370). -/
def raceKey (space : Option Nat) (line : Nat) : Nat := match space with | none => line | some t => (t + 1) * 2 ^ 60 + line

/-- Who makes accesses: its context, its core, the party of a plain access (none: no race is possible), whether each access is
itself recorded, and the events that its instruction or chunk has met before. -/
structure Visitor where
  ctx : Context
  core : Nat
  party : Option Party
  recorded : Bool
  before : Nat

/-- The half bytes of n bytes from an offset of a line (R236). -/
def byteMask (off n : Nat) : Nat := (2 ^ (2 * n) - 1) * 2 ^ (2 * off)
/-- One half of a byte. -/
def nibbleMask (off : Nat) (high : Bool) : Nat := 2 ^ (2 * off + high.toNat)
/-- A run of bytes inside a line: where it lies, and the address by which the access names it (R134, R236, R361). -/
structure Run where
  at_ : Nat
  n : Nat
  addr : DWord
/-- The runs of n bytes from an offset of a line of global memory. -/
def lineRuns (line off n : Nat) (addr : DWord) : List Run :=
  let a0 := 128 * line + off % 128
  (pieces 128 (n / 128 + 2) a0 n).map fun (a, k) => ⟨a, k, addr + .ofNat 64 (a - a0)⟩
/-- The runs of n bytes of a window, each chunk where its swizzle puts it. -/
def scrRuns (swz off n : Nat) (addr : DWord) : List Run :=
  (chunks off n).map fun (a, k) => ⟨swizzle swz a, k, addr + .ofNat 64 (a - off)⟩

/-- HEAD as an access of an instruction finds it, the events before it in the instruction counted (R363, R370). -/
def Visitor.head (v : Visitor) (s : State) (met : Nat) : Nat := (s.maniCount v.ctx 0x10).getD 0 + v.before + met
/-- A touch conflicts with an access: their locations overlap, and one of them writes (R236). -/
def Touch.conflicts (x : Touch) (wr : Bool) (mask : Nat) : Bool := (wr || x.wr) && x.mask &&& mask != 0
/-- A plain access of a recording context races: it meets the conflicting access of another party since the last record, the
first time on that line (R236, R370). -/
def State.races (s : State) (v : Visitor) (p : Party) (met : Nat) (space : Option Nat) (line : Nat) (wr : Bool) (mask : Nat) : Bool :=
  v.ctx.recMode == 1 && !((s.context? v.ctx.num).getD v.ctx).raced.contains (raceKey space line) &&
    (s.lineMark space line).touches.any fun x => x.party != p && x.head == v.head s met && x.conflicts wr mask

/-- What a line keeps when a party touches it: only what came since the last record, a party's accesses of one kind joined. -/
def LineMark.touch (m : LineMark) (x : Touch) : LineMark :=
  let same (y : Touch) : Bool := y.party == x.party && y.wr == x.wr
  let now := m.touches.filter (·.head == x.head)
  { m with touches := { x with mask := ((now.filter same).map (·.mask)).foldl (· ||| ·) x.mask } :: now.filter (!same ·) }
/-- A plain access of a recording context noted on its line, with the unordered-conflict event of a race (R370). -/
def State.noted (s : State) (v : Visitor) (p : Party) (met : Nat) (space : Option Nat) (line : Nat) (wr : Bool) (mask : Nat)
    (hit : Bool) (addr : DWord) : State × List RecEvent :=
  if v.ctx.recMode != 1 then (s, []) else
  let s := s.setLine ((s.lineMark space line).touch ⟨p, v.head s met, wr, mask⟩)
  if hit then
    (s.modContext v.ctx.num fun x => { x with raced := raceKey space line :: x.raced },
      [⟨11, p, .ofNat 64 (addr.toNat / 128 * 128), 0, v.core, some (s.clockOf v.ctx.num v.core)⟩])
  else (s, [])

/-- One access to a line: the walk that translated it, its logical time, after the last record when it is itself recorded,
and, when it is plain, the race it meets (R239, R355, R363, R370). -/
def State.visit (s : State) (v : Visitor) (met : Nat) (space : Option Nat) (line : Nat) (wr : Bool) (mask : Nat) (addr : DWord) :
    State × List RecEvent :=
  let s := if space.isNone then s.shareWalk v.ctx v.core addr else s
  let hit := (v.party.map fun p => s.races v p met space line wr mask).getD false
  let s := if v.recorded || hit then s.afterHead v.ctx v.core else s
  let s := s.order v.ctx.num v.core space line wr
  let s := if v.recorded then s.stampHead v.ctx (s.clockOf v.ctx.num v.core) else s
  match v.party with
  | some p => s.noted v p met space line wr mask hit addr
  | none => (s, [])

/-- Every line that an access touches, each once; `half`: only one half of the first byte (R165, R236). -/
def State.visitAll (s : State) (v : Visitor) (space : Option Nat) (xs : List Run) (wr : Bool) (half : Option Bool := none) :
    State × List RecEvent :=
  ((xs.map fun x => x.at_ / 128).eraseDups).foldl (fun (acc : State × List RecEvent) line =>
    let mine := xs.filter fun x => x.at_ / 128 == line
    let mask := mine.foldl (fun m x => m ||| match half with
      | some high => nibbleMask (x.at_ % 128) high
      | none => byteMask (x.at_ % 128) x.n) 0
    let (s, evs) := acc.1.visit v acc.2.length space line wr mask ((mine.head?.map (·.addr)).getD 0)
    (s, acc.2 ++ evs)) (s, [])

/-- The reads made of global memory, in order, at their places. -/
def State.visitReads (s : State) (v : Visitor) (log : List (DWord × Nat)) : State × List RecEvent :=
  log.foldl (fun (acc : State × List RecEvent) x =>
    match acc.1.translate v.ctx x.1 .read with
    | .ok l =>
      let (s, evs) := acc.1.visitAll { v with before := v.before + acc.2.length } none
        (lineRuns (l.line x.1) x.1.toNat x.2 x.1) false
      (s, acc.2 ++ evs)
    | .error _ => acc) (s, [])

/-! ## Scratchpad operands (R133) -/

/-- OFF of a scratchpad address. -/
def scrOff (w : Word) : Nat := (w.extractLsb' 0 19).toNat
/-- XM of a scratchpad address. -/
def scrXm (w : Word) : Bool := w.getLsbD 28
/-- MEM of a scratchpad address. -/
def scrMem (w : Word) : Nat := (w.extractLsb' 29 3).toNat
/-- A reserved bit of a scratchpad address is 1. -/
def scrReserved (w : Word) : Bool := w.extractLsb' 19 9 != 0

/-- The convoy of a team. -/
def State.convoyOf (s : State) (t : Team) : Option Convoy := t.convoy.bind fun p => s.convoys.find? (·.id == p.1)

/-- XM = 1 outside a convoy, beyond its members, or at a member that has ended (R133, R230). -/
def State.scrMisuse (s : State) (t : Team) (w : Word) : Bool :=
  scrXm w && (match s.convoyOf t with
    | some v => decide (v.members ≤ scrMem w) || v.ended.contains (scrMem w)
    | none => true)

/-- The team whose window holds an address; none while that member has not started (R133). -/
def State.scrTid (s : State) (t : Team) (w : Word) : Option Nat :=
  if !scrXm w then some t.tid
  else match t.convoy with
    | none => none
    | some (v, me) =>
      if scrMem w = me then some t.tid
      else (s.teams.find? fun x => x.convoy == some (v, scrMem w)).map (·.tid)

/-- The value `sys.tval` takes for a scratchpad address. -/
def scrVal (w : Word) : DWord := w.setWidth 64

/-- Checks on addresses, in the order of R411 and then by fibre: each check with its sub-code. -/
def checkEach {α : Type} (val : α → DWord) (xs : List α) : List (Nat × (α → Bool)) → Except Stop Unit
  | [] => .ok ()
  | (sub, bad) :: more =>
    match xs.find? bad with
    | some x => protectAt sub (val x)
    | none => checkEach val xs more

/-- The checks of scratchpad operands: reserved bits, convoy misuse, alignment, the window (R133, R411). -/
def State.scrChecks (s : State) (t : Team) (align : Nat) (xs : List (Word × Nat)) : Except Stop Unit :=
  checkEach (fun x => scrVal x.1) xs
    [(14, fun x => scrReserved x.1), (17, fun x => s.scrMisuse t x.1), (11, fun x => scrOff x.1 % align != 0),
      (12, fun x => t.scrBytes ≤ scrOff x.1 || t.scrBytes < scrOff x.1 + x.2)]

/-- The windows of scratchpad operands; an access to a member that has not started waits (R133). -/
def State.scrTids (s : State) (t : Team) (xs : List Word) : Except Stop (List Nat) :=
  match xs.mapM (s.scrTid t) with
  | some ts => .ok ts
  | none => .error (.wait .member s)

/-- One scratchpad operand of n bytes, checked: the team whose window holds it and its offset. -/
def State.scrOperand (s : State) (t : Team) (align n : Nat) (w : Word) : Except Stop (Nat × Nat) := do
  s.scrChecks t align [(w, n)]
  match s.scrTid t w with
  | some tid => return (tid, scrOff w)
  | none => .error (.wait .member s)

/-- Reading n bytes of a team's window. -/
def State.scrBytesAt (s : State) (tid swz off n : Nat) : List Byte := ((s.team? tid).getD default).scrRead swz off n
/-- The instruction's read meets a poisoned granule of a window (R393). -/
def State.scrPoisonCheck (s : State) (sub tid swz off n : Nat) (w : Word) : Except Stop Unit :=
  check (!((s.team? tid).getD default).scrPoisoned swz off n) (.error (.trap .poison sub (some (scrVal w))))

/-! ## Where an access is performed -/

/-- What an access asks of the owner of a line (R348): its bytes, a write, a write of one nibble of a byte (R165), that its
granule be poisoned (R147), or an atomic with its TYPE and its rounding (RND, with FTZ at bit 3). -/
inductive Ask where
  | read
  | write (bs : List Byte)
  | nibble (high : Bool) (v : Nat)
  | spoil
  | atomic (major op type mode : Nat) (operand : List Byte)
  deriving DecidableEq

/-- One access of an instruction: its fibre, its address (virtual, or a scratchpad address), its bytes, what it writes given
the old bytes, and what it asks of an owner elsewhere. -/
structure Acc where
  fib : Nat
  addr : DWord
  n : Nat
  upd : List Byte → Option (List Byte)
  ask : Ask

/-- Where an access is performed: at a location of the package, in a window, or at an owner elsewhere, with its line and the
bytes of its reply. -/
inductive Site where
  | loc (l : Loc)
  | scr (tid off : Nat)
  | away (line : Nat) (bs : List Byte)

/-- A load (R136). -/
def Acc.load (f : Nat) (a : DWord) (n : Nat) : Acc := ⟨f, a, n, fun _ => none, .read⟩
/-- A store (R137). -/
def Acc.store (f : Nat) (a : DWord) (bs : List Byte) : Acc := ⟨f, a, bs.length, fun _ => some bs, .write bs⟩

/-! ## Requests to an owner (R347 to R350) -/

/-- The page size code of a leaf in the migration request ring (R351). -/
def Leaf.sizeCode (l : Leaf) : Nat := if l.bits = 25 then 1 else 0

/-- The 16 bytes of a migration request (R351). -/
def Leaf.migEntry (l : Leaf) (page ctx : Nat) : List Byte :=
  natLe 8 page ++ [.ofNat 8 ctx, .ofNat 8 l.own, .ofNat 8 l.sizeCode, 0, 0, 0, 0, 0]
/-- A page's count returns to 0, and a request for it is posted at HEAD, or dropped when the ring is full (R350, R351). -/
def State.postMig (s : State) (c : Context) (l : Leaf) (page : Nat) : State :=
  if l.dnm then s else
  let s : State := s.modContext c.num fun x => { x with counters := setAssoc x.counters page 0 }
  if s.migHead - s.migTail < Config.migRingSize then
    { s with
      migRing := s.migRing.write (16 * (s.migHead % Config.migRingSize)) (l.migEntry page c.num)
      migHead := s.migHead + 1 }
  else s
/-- Counting a forwarded line access; at the threshold a request is posted (R350). -/
def State.countAccess (s : State) (c : Context) (l : Leaf) (va : DWord) : State :=
  let log2t := s.migctl.toNat % 32
  if l.dnm || c.recMode == 2 || log2t < 8 || 24 < log2t then s else
  let page := (l.page va).toNat
  let k := assoc (((s.context? c.num).getD c).counters) page 0 + 1
  if 2 ^ log2t ≤ k then s.postMig c l page else s.modContext c.num fun x => { x with counters := setAssoc x.counters page k }

/-- The 16-byte mask of an LWRITE that writes n bytes at an offset of the line (R374). -/
def lineMaskBytes (off n : Nat) : List Byte := natLe 16 ((2 ^ n - 1) * 2 ^ off)
/-- The 128 data bytes of an LWRITE. -/
def lineDataBytes (off : Nat) (bs : List Byte) : List Byte :=
  List.replicate off 0 ++ bs ++ List.replicate (128 - off - bs.length) 0

/-- The kind byte of a PFWD (log entry 12). -/
def Ask.kindByte : Ask → Nat
  | .read => 0
  | .write _ => 1
  | .nibble high _ => 2 + high.toNat
  | .spoil => 4
  | .atomic major op type _ _ => 0x80 + (major - 0x37) * 0x40 + op * 8 + (if type = 2 then 0 else if type = 5 then 1
      else if type = 8 then 2 else if type = 6 then 3 else if type = 7 then 4 else 5)
/-- The size byte of a PFWD: an atomic's rounding stands in its high half (log entry 12). -/
def Ask.sizeByte (n : Nat) : Ask → Nat
  | .atomic _ _ _ mode _ => n + 16 * mode
  | _ => n
/-- The bytes or operand an access carries. -/
def Ask.data : Ask → List Byte
  | .read => []
  | .write bs => bs
  | .nibble _ v => [.ofNat 8 v]
  | .spoil => []
  | .atomic _ _ _ _ bs => bs

/-- The message that asks the host for an access at a host physical address: LREAD, LWRITE or LATOM (R374; log entry 12). A
nibble is never asked of the host: it is written by a read and a compare and swap. -/
def Ask.hostMsg (k : Ask) (a : Nat) : Nat × List Byte :=
  let line := natLe 8 (a / 128 * 128)
  match k with
  | .read => (3, line)
  | .nibble _ _ => (3, line)
  | .spoil => (4, line ++ lineMaskBytes 0 0 ++ lineDataBytes 0 [])
  | .write bs => (4, line ++ lineMaskBytes (a % 128) bs.length ++ lineDataBytes (a % 128) bs)
  | .atomic major op type mode bs =>
    (5, line ++ natLe 2 (a % 128) ++ natLe 2 (major * 8 + op) ++ natLe 4 (type + 256 * mode) ++ bs
      ++ List.replicate (8 - bs.length) 0)

/-- Sending a request for a context and remembering who waits for its reply. -/
def State.request (s : State) (c : Context) (conn : ConnId) (who : Asker) (va : DWord) (fetch : Option Nat) (kind ctx : Nat)
    (data : List Byte) (spoiled : List Nat := []) : State × Nat :=
  let (id, s) := s.fresh
  let s : State := { s with requests := s.requests ++ [⟨id, c.num, conn, who, va, fetch⟩] }
  (s.sendMsg conn kind ctx id data c.secure spoiled, id)

/-- The world of the port that carries a package's traffic (R400). -/
def State.portWorld (s : State) (dev : Nat) : Bool := match s.portOf dev with
  | some p => s.secPorts.contains p
  | none => false
/-- Whether a context can reach a device index: it names another package of the job, through an enabled port of the context's
world, and the connection is up (R349, R373, R377, R400). -/
def State.reachable (s : State) (c : Context) (dev : Nat) : Bool :=
  dev < s.job.ndev && dev != s.job.index && (s.portOf dev).isSome && s.portWorld dev == c.secure && !(s.conn (.peer dev)).down

/-! ### Lines in the hands of an access

The accesses of an instruction stand together, and a chunk is one access (R138, R236, R237). What is asked of an owner is performed
there before the rest of the instruction or chunk, so its line stays in the asker's hands until then: no other party of the package
asks for it meanwhile, unless both only read. One that must wait for such a line gives up those it has (log entry 92). -/

/-- Who asks, whatever the request. -/
def Asker.same : Asker → Asker → Bool
  | .group r _, .group q _ => r == q
  | .op i _, .op j _ => i == j
  | .ray i _, .ray j _ => i == j
  | .held i _, .held j _ => i == j
  | _, _ => false
/-- The reply to a request is still kept by the one who asked. -/
def State.keeps (s : State) : Asker → Bool
  | .group r idx => ((s.group? r).map fun g => g.fwd.any (·.idx == idx)).getD false
  | .op id idx => ((s.op? id).map fun o => o.got.any (·.idx == idx)).getD false
  | .ray id idx => s.rays.any fun x => x.id == id && x.got.any (·.idx == idx)
  | .held id idx => s.held.any fun x => x.id == id && x.got.any (·.idx == idx)
  | _ => false
/-- A line is still in its asker's hands: its request is open, or its reply is kept. -/
def State.awaits (s : State) (x : Away) : Bool := s.requests.any (fun q => q.who == x.who && q.va == x.va) || s.keeps x.who
/-- A line is in the hands of another, and one of the two writes. -/
def State.taken (s : State) (me : Asker) (line : Nat) (wr : Bool) : Bool :=
  s.away.any fun x => x.line == line && (wr || x.wr) && !me.same x.who && s.awaits x
/-- A line is in one's own hands. -/
def State.has (s : State) (me : Asker) (line : Nat) : Bool := s.away.any fun x => x.line == line && me.same x.who && s.awaits x
/-- Taking a line into one's hands. -/
def State.grasp (s : State) (x : Away) : State :=
  { s with away := x :: s.away.filter fun y => s.awaits y && !(y.who == x.who && y.va == x.va) }

/-- Asking the owner of an address elsewhere for an access, which counts unless it belongs to one already counted (R350); none
when it cannot be asked. A fetch takes no line into its hands; `wr`: the instruction or chunk writes there. -/
def State.askOwner (s : State) (c : Context) (who : Asker) (va : DWord) (n : Nat) (k : Ask) (l : Leaf) (count : Bool := true)
    (wr : Bool := k != .read) (fetch : Bool := false) : Option State :=
  let s := if count then s.countAccess c l va else s
  let s := if fetch then s else s.grasp ⟨who, c.num, va, l.line va, wr⟩
  match l.home va with
  | .here _ => none
  | .atHost a =>
    if (s.conn .host).down then none else
    let (kind, data) := k.hostMsg a
    some (s.request c .host who va none kind 0xFF data (match k with | .spoil => [a % 128 / 64] | _ => [])).1
  | .atPeer dev =>
    if !s.reachable c dev then none else
    some (s.request c (.peer dev) who va none 35 c.num
      (natLe 8 va.toNat ++ [.ofNat 8 k.kindByte, .ofNat 8 (k.sizeByte n)] ++ List.replicate 6 0 ++ k.data)).1

/-- Asking the host for a line of a device-biased page that the package does not hold yet (R347). -/
def State.askLine (s : State) (c : Context) (who : Asker) (va : DWord) (a : Nat) : Option State :=
  if (s.conn .host).down then none
  else some (s.request c .host who va (some (a / 128)) 3 0xFF (natLe 8 (a / 128 * 128))).1

/-- The index by which a group's request for a missing line is known, apart from those of its forwarded accesses. -/
def fetchIdx (i : Nat) : Nat := 2 ^ 17 + i
/-- The index of the read of the word around the i-th forwarded nibble. -/
def wordIdx (i : Nat) : Nat := 2 ^ 18 + i
/-- The index of a read, which changes nothing at its owner: a load's, or the one that tries the i-th store or atomic. -/
def readIdx (i : Nat) : Nat := 2 ^ 19 + i

/-- Sending one request per item of a group's instruction and waiting for the replies; what cannot be asked fails as a
refusal of the owner would (R349, R373). -/
def askAll (s : State) (r : GRef) (xs : List (Nat × DWord × (State → Option State))) : Except Stop (State × List (List Byte)) :=
  match xs.foldl (fun (acc : Except DWord State) x => do
      let s ← acc
      match x.2.2 s with
      | some s => .ok s
      | none => .error x.2.1) (.ok s) with
  | .error va => protectAt 28 va
  | .ok s => .error (.wait .forwarded (s.modGroup r fun g => { g with fwdOpen := g.fwdOpen ++ xs.map (·.1) }))

/-! ## Performing -/

/-- The bytes an access reads at its site. -/
def State.siteBytes (s : State) (swz n : Nat) : Site → List Byte
  | .loc l => s.bytesAtLoc l n
  | .scr tid off => s.scrBytesAt tid swz off n
  | .away _ bs => bs

/-- Blocks that an operation other than `me` is half-way through keep the interim mark (R135, R243). -/
def State.interim (s : State) (me : Option Nat) (tid : Nat) (bs : List Nat) : State :=
  s.modTeam tid fun t => bs.foldl (fun t b =>
    if s.ops.any fun o => some o.id != me && o.busy.contains (tid, b) then t.setMark b Mark.general else t) t
/-- Writing at a site: the bytes, the marks, and the poison of the granules touched, which the instruction's accesses
cover (R135, R243, R393). -/
def State.sitePut (s : State) (swz : Nat) (w : Writer) (bs : List Byte) : Site → State
  | .loc l => (s.putBytes l bs).unpoison l (granules l.addr bs.length)
  | .scr tid off => (s.modTeam tid fun t =>
    let t := t.scrWrite swz w off bs
    let gs := scrGranules swz off bs.length
    { t with scrPoison := t.scrPoison.filter (!gs.contains ·) }).interim none tid (blocksOf off bs.length)
  | .away _ _ => s

/-- Who performs an instruction's accesses: its group and team, its context and its core; `plain` when a race is possible
(R370), `recorded` when each access is an event (R361), what scratchpad writes carry, and the races met before. -/
structure Actor where
  tm : Team
  slot : Nat
  ctx : Context
  plain : Bool
  recorded : Bool
  swz : Nat
  writer : Writer
  before : Nat

/-- Performing an instruction's accesses in order: the state, the bytes each read, and the races met (R138). An access at an
owner was performed there; it keeps its place among the others (R348). -/
def Actor.perform (v : Actor) : List (Acc × Site) → State → State × List (List Byte) × List RecEvent
  | [], s => (s, [], [])
  | (a, site) :: rest, s =>
    let old := s.siteBytes v.swz a.n site
    let new := a.upd old
    let p := if v.plain then some (v.tm.party v.slot a.fib false) else none
    let who : Visitor := ⟨v.ctx, v.tm.core, p, v.recorded, v.before⟩
    let half := match a.ask with | .nibble high _ => some high | _ => none
    let (s, evs) := match site with
      | .loc l => s.visitAll who none (lineRuns l.line l.addr a.n a.addr) new.isSome half
      | .scr tid off => s.visitAll who (some tid) (scrRuns v.swz off a.n a.addr) new.isSome half
      | .away line _ => s.visitAll who none (lineRuns line a.addr.toNat a.n a.addr) new.isSome half
    let s := match new with
      | some bs => s.sitePut v.swz v.writer bs site
      | none => s
    let (s, olds, more) := { v with before := v.before + evs.length }.perform rest s
    (s, old :: olds, evs ++ more)

/-- The logical time that each of an instruction's accesses takes (R239). -/
def Actor.times (v : Actor) : List (Acc × Site) → State → List Nat
  | [], _ => []
  | x :: rest, s =>
    let s := (v.perform [x] s).1
    s.clockOf v.ctx.num v.tm.core :: v.times rest s

/-- The actor of a group's instruction. -/
def State.actor (s : State) (r : GRef) (plain : Bool) (swz : Nat) (w : Writer) (recorded : Bool := false) : Actor :=
  let t := s.teamOf r
  ⟨t, r.slot, s.ctxOf t, plain, recorded, swz, w, 0⟩

/-! ## Checks of rows 7 and 8 of R326 -/

/-- The instruction's stores together cover every byte of a granule (R393). -/
def coversGranule (spans : List (Nat × Nat)) (g : Nat) : Bool :=
  (List.range 64).all fun i => spans.any fun (a, n) => a ≤ 64 * g + i && 64 * g + i < a + n

/-- A poisoned granule that an instruction's access may not touch: any read, or a store that does not cover it. -/
def badGranule (poison : List Nat) (isStore : Bool) (spans : List (Nat × Nat)) (a n : Nat) : Option Nat :=
  (granules a n).find? fun g => poison.contains g && !(isStore && coversGranule spans g)

/-- Translating every access: `page` first, then `protection`, each by the lowest fibre (R326 row 8). -/
def State.translateAll (s : State) (c : Context) (k : AccKind) (xs : List Acc) : Except Stop (List (Acc × Leaf)) := do
  let ts := xs.map fun a => (a, s.translate c a.addr k)
  match ts.find? fun x => match x.2 with | .error .page => true | _ => false with
  | some (a, _) => .error (.trap .page k.sub (some a.addr))
  | none =>
    ts.mapM fun (a, t) => match t with
      | .ok l => .ok (a, l)
      | .error (.protection sub) => protectAt sub a.addr
      | .error .page => .error (.trap .page k.sub (some a.addr))

/-- The spans of the accesses in one of the package's memories. -/
def localSpans (host : Bool) (xs : List (Acc × Leaf)) : List (Nat × Nat) :=
  xs.filterMap fun (a, l) => match l.home a.addr with
    | .here (.dev p) => if host then none else some (p, a.n)
    | .here (.host p) => if host then some (p, a.n) else none
    | _ => none

/-- The bytes of a forwarded access in its reply: an LREAD answers the whole line (R374). -/
def replyBytes (k : Ask) (l : Leaf) (va : DWord) (n : Nat) (bs : List Byte) : List Byte :=
  match l.home va, k with
  | .atHost p, .read => (bs.drop (p % 128)).take n
  | _, _ => (bs ++ List.replicate n 0).take n

/-! ### An instruction's requests to owners -/

/-- A request of a group's instruction to an owner: its index, the address, the bytes and what it asks, and the leaf. -/
structure FarAsk where
  idx : Nat
  va : DWord
  n : Nat
  ask : Ask
  leaf : Leaf

/-- A byte that an instruction writes elsewhere: its address, its leaf, and its low and high nibbles as far as written. -/
abbrev FarByte := Nat × Leaf × Option Nat × Option Nat
/-- A later write joined with those before it: the higher fibre's stays (R138), and each nibble by itself (R165, R236). -/
def putFar (l : List FarByte) (x : FarByte) : List FarByte :=
  match l.find? (·.1 == x.1) with
  | some y => (x.1, x.2.1, x.2.2.1 <|> y.2.2.1, x.2.2.2 <|> y.2.2.2) :: l.filter (·.1 != x.1)
  | none => x :: l
/-- The bytes an access writes elsewhere. -/
def Acc.farBytes (a : Acc) (l : Leaf) : List FarByte :=
  match a.ask with
  | .write bs => bs.zipIdx.map fun (b, i) => (a.addr.toNat + i, l, some (b.toNat % 16), some (b.toNat / 16))
  | .nibble high v => [(a.addr.toNat, l, if high then none else some v, if high then some v else none)]
  | _ => []
/-- Putting a byte before the requests of the bytes above it: stores to consecutive bytes of a granule are one request. -/
def addFar (x : FarByte) (qs : List FarAsk) : List FarAsk :=
  match x.2.2 with
  | (some lo, some hi) =>
    let b : Byte := .ofNat 8 (lo + 16 * hi)
    match qs with
    | ⟨_, va, n, .write bs, _⟩ :: more =>
      if va.toNat = x.1 + 1 ∧ va.toNat % 64 ≠ 0 then ⟨0, .ofNat 64 x.1, n + 1, .write (b :: bs), x.2.1⟩ :: more
      else ⟨0, .ofNat 64 x.1, 1, .write [b], x.2.1⟩ :: qs
    | _ => ⟨0, .ofNat 64 x.1, 1, .write [b], x.2.1⟩ :: qs
  | (some lo, none) => ⟨0, .ofNat 64 x.1, 1, .nibble false lo, x.2.1⟩ :: qs
  | (none, some hi) => ⟨0, .ofNat 64 x.1, 1, .nibble true hi, x.2.1⟩ :: qs
  | (none, none) => qs
/-- The accesses of an instruction whose home is elsewhere. -/
def farAccs (ls : List (Acc × Leaf)) : List ((Acc × Leaf) × Nat) :=
  ls.zipIdx.filter fun ((a, l), _) => match l.home a.addr with | .here _ => false | _ => true
/-- The requests of an instruction: its stores joined into runs inside a granule, so that an owner sees what they cover together
(R393); each load and atomic by itself. -/
def farAsks (k : AccKind) (ls : List (Acc × Leaf)) : List FarAsk :=
  if k = .write then
    let bytes := ((farAccs ls).flatMap fun ((a, l), _) => a.farBytes l).foldl putFar []
    ((sortBy (fun a b : FarByte => a.1 ≤ b.1) bytes).foldr addFar []).zipIdx.map fun (q, i) => { q with idx := i }
  else (farAccs ls).map fun ((a, l), i) => ⟨if k = .read then readIdx i else i, a.addr, a.n, a.ask, l⟩
/-- The read that tries a store or an atomic at its owner before any is performed: an instruction that a cause stops has written
nothing (R9, R137, R326; log entry 93); and under replay an atomic's old value is compared first (R368). -/
def FarAsk.try (q : FarAsk) : FarAsk := { q with idx := readIdx q.idx, ask := .read }
/-- A request is part of an access: its bytes overlap, for a store, or its number is the access's. -/
def FarAsk.serves (q : FarAsk) (k : AccKind) (a : Acc) (i : Nat) : Bool :=
  if k = .write then q.va.toNat < a.addr.toNat + a.n && a.addr.toNat < q.va.toNat + q.n else q.idx == i || q.idx == readIdx i

/-- What a request still lacks: it is answered, refused with a status, or something is to be asked next, after dropping
replies that no longer serve, which counts or not (R350). -/
inductive FarNext where
  | done (bs : List Byte)
  | refused (stat : Nat)
  | ask (q : FarAsk) (drop : List Nat) (count : Bool)
/-- A reply of a group's instruction by its index. -/
def Group.reply? (g : Group) (idx : Nat) : Option FwdReply := g.fwd.find? (·.idx == idx)
/-- Where a request stands. A nibble of host memory is written by reading its word and a compare and swap, until that meets the
word it read: no access comes between (R236). -/
def Group.farNext (g : Group) (q : FarAsk) : FarNext :=
  match q.ask, q.leaf.home q.va with
  | .nibble high v, .atHost p =>
    let word : FarAsk := { q with idx := wordIdx q.idx, va := .ofNat 64 (q.va.toNat / 4 * 4), n := 4, ask := .read }
    match g.reply? (wordIdx q.idx) with
    | none => .ask word [] true
    | some y =>
      if y.stat != 0 then .refused y.stat else
      let old := replyBytes .read q.leaf word.va 4 y.bytes
      let b := bytesAt old (p % 4) 1
      let new := old.set (p % 4) (.ofNat 8 (if high then b % 16 + 16 * v else b / 16 * 16 + v))
      match g.reply? q.idx with
      | none => .ask { word with idx := q.idx, ask := .atomic 0x37 7 5 0 (old ++ new) } [] false
      | some z =>
        if z.stat != 0 then .refused z.stat
        else if z.bytes.take 4 = old then .done []
        else .ask word [q.idx, wordIdx q.idx] false
  | _, _ =>
    match g.reply? q.idx with
    | none => .ask q [] true
    | some y => if y.stat = 0 then .done (replyBytes q.ask q.leaf q.va q.n y.bytes) else .refused y.stat
/-- Whether an owner can be asked at all (R349, R373). -/
def State.canAsk (s : State) (c : Context) (l : Leaf) (va : DWord) : Bool :=
  match l.home va with
  | .here _ => true
  | .atHost _ => !(s.conn .host).down
  | .atPeer dev => s.reachable c dev
/-- Where a request stands, one that cannot be asked being refused; a try that meets poison the store covers goes on (R393). -/
def State.farStand (s : State) (c : Context) (g : Group) (k : AccKind) (q : FarAsk) : FarAsk × FarNext :=
  (q, match g.farNext q with
    | .ask x drop count => if s.canAsk c x.leaf x.va then .ask x drop count else .refused 2
    | .refused 4 => if k = .write && q.ask == .read && q.n == 64 then .done [] else .refused 4
    | x => x)
/-- What the owners' answers raise: `protection` first, then `poison`, each by the lowest fibre (R326, R349). -/
def farStop (k : AccKind) (ls : List (Acc × Leaf)) (qs : List (FarAsk × FarNext)) : Option Stop :=
  let hit (poison : Bool) : Option (Acc × FarAsk) := (farAccs ls).findSome? fun ((a, _), i) => (qs.find? fun (q, x) =>
    q.serves k a i && (match x with | .refused stat => (stat == 4) == poison | _ => false)).map fun (q, _) => (a, q)
  match hit false, hit true with
  | some (a, _), _ => some (.trap .protection 28 (some a.addr))
  | none, some (_, q) => some (.trap .poison k.sub (some (.ofNat 64 (q.va.toNat / 64 * 64))))
  | none, none => none
/-- The bytes that an access reads of the answers. -/
def farBytesOf (k : AccKind) (qs : List (FarAsk × FarNext)) (a : Acc) (i : Nat) : List Byte :=
  match qs.find? fun (q, _) => q.serves k a i with
  | some (_, .done bs) => bs
  | _ => []
/-- The old values of atomics that are compared before they are performed: each finds what the fibres before it leave (R368). -/
def chainFar (seen : List (Nat × List Byte)) : List (Acc × Site) → List (Acc × Site)
  | [] => []
  | (a, .away line bs) :: rest =>
    let key := 128 * line + a.addr.toNat % 128
    let old := (seen.lookup key).getD bs
    (a, .away line old) :: chainFar ((key, (a.upd old).getD old) :: seen) rest
  | x :: rest => x :: chainFar seen rest

/-- A group that must wait for a line in another's hands gives up what it has. -/
def State.giveUp (s : State) (r : GRef) : State := s.modGroup r fun g => { g with fwd := [], owed := 0 }
/-- The manifest records that an instruction with forwarded stores or atomics may come to write, kept free before any is performed
(R364, R370): one for each atomic; for stores the races of those elsewhere, whose lines are then in its hands, and one for each
line here, which others may still touch. -/
def State.recordsDue (s : State) (r : GRef) (g : Group) (k : AccKind) (ls : List (Acc × Leaf)) : Nat :=
  let v := s.actor r (!g.priv) 0 none
  if g.priv || v.ctx.recMode != 1 then 0
  else if k = .rmw then ls.length
  else if k = .write then
    let far : List (Acc × Site) := (farAccs ls).map fun ((a, l), _) => (a, .away (l.line a.addr) [])
    let here := ls.filterMap fun (a, l) => match l.home a.addr with | .here x => some x.line | _ => none
    (v.perform far s).2.2.length + here.eraseDups.length
  else 0
/-- Whether an instruction may have owners try or perform its accesses: room for its records, or its place in the schedule (R364,
R366). -/
def State.mayPerform (s : State) (r : GRef) (g : Group) (k : AccKind) (ls : List (Acc × Leaf)) (due : Nat) (trying : Bool) : Bool :=
  let t := s.teamOf r
  let c := s.ctxOf t
  -- the room kept for its own records is no longer in the way of them
  let su := s.modGroup r fun x => { x with owed := 0 }
  if g.priv then true
  else if c.recMode = 1 then due == 0 || su.turnOf c [] due
  else if k = .rmw then su.turnOf c (ls.map fun x => t.party r.slot x.1.fib false) (if trying then 1 else ls.length)
  else true

/-- The global accesses of a group's instruction, up to the point where they are performed: the checks of R411 and of
row 8 of R326, the wait for a page being moved, missing lines, poison, the wait of a table write for the accesses that used the
entry, and the owners' replies (R63, R347 to R349, R356). With `probe` an atomic is only tried. -/
def State.globalSites (s : State) (r : GRef) (g : Group) (k : AccKind) (align : Nat) (xs : List Acc) (probe : Bool := false) :
    Except Stop (List (Acc × Site)) := do
  let c := s.ctxOf (s.teamOf r)
  checkEach (·.addr) xs [(23, fun a => !canonical a.addr), (11, fun a => a.addr.toNat % align != 0)]
  let ls ← s.translateAll c k xs
  if !g.fwdOpen.isEmpty then .error (.wait .forwarded s)
  else if !g.doneAway && ls.any (fun (a, l) => s.frozen c.num (l.page a.addr)) then .error (.wait .frozen s)
  else
    let missing := (ls.zipIdx.filterMap fun ((a, l), i) => match l.home a.addr with
      | .here (.host p) => if s.lineHere (.host p) then none else some (fetchIdx i, a.addr, p)
      | _ => none)
    match missing.find? fun x => g.fwd.any fun y => y.idx == x.1 && y.stat != 0 with
    | some x => protectAt 28 x.2.1
    | none =>
    if !missing.isEmpty then do
      let _ ← askAll s r (missing.map fun (i, va, p) => (i, va, fun s => s.askLine c (.group r i) va p))
      .error (.wait .forwarded s)
    else
    match ls.findSome? fun (a, l) => match l.home a.addr with
        | .here x => (badGranule (s.poisonOf x) (k == .write)
            (localSpans (match x with | .dev _ => false | .host _ => true) ls) x.addr a.n).map fun g => (a, x, g)
        | _ => none with
    | some (a, x, g) => .error (.trap .poison k.sub (some (a.addr - .ofNat 64 (x.addr % 64) + .ofNat 64 (64 * (g - x.addr / 64)))))
    | none =>
      if k != .read && ls.any (fun (a, l) => match l.home a.addr with | .here x => s.inUse x a.n (some r) | _ => false) then
        .error (.wait .frozen s)
      else
      let asks := farAsks k ls
      let tries := if probe || (k != .read && 2 ≤ asks.length) then asks.map FarAsk.try else []
      let ts := tries.map (s.farStand c g k)
      let qs := if probe then [] else asks.map (s.farStand c g k)
      match farStop k ls (ts ++ qs) with
      | some e => .error e
      | none =>
        let pending (ys : List (FarAsk × FarNext)) : List (FarAsk × List Nat × Bool) :=
          ys.filterMap fun (_, x) => match x with | .ask q drop count => some (q, drop, count) | _ => none
        let trying := !(pending ts).isEmpty
        let todo := if trying then pending ts else pending qs
        let due := s.recordsDue r g k ls
        if todo.isEmpty then
          let sites : List (Acc × Site) := ls.zipIdx.map fun ((a, l), i) => (a, match l.home a.addr with
            | .here x => .loc x
            | _ => .away (l.line a.addr) (farBytesOf k (if probe then ts else qs) a i))
          return if probe then chainFar [] sites else sites
        else if todo.any fun (q, _, _) => s.taken (.group r q.idx) (q.leaf.line q.va) (k != .read) then
          .error (.wait .forwarded (s.giveUp r))
        else if !g.doneAway && !s.mayPerform r g k ls due trying then .error (.wait .manifest s)
        else do
          let gone := todo.flatMap (·.2.1)
          let s := s.modGroup r fun g => { g with
            fwd := g.fwd.filter (!gone.contains ·.idx), owed := if g.doneAway then g.owed else due }
          let count (i : Nat) (q : FarAsk) : Bool := !trying
            && (k != .write || !(todo.take i).any fun y => y.1.leaf.line y.1.va == q.leaf.line q.va)
          let _ ← askAll s r (todo.zipIdx.map fun ((q, _, counts), i) => (q.idx, q.va, fun s =>
            s.askOwner c (.group r q.idx) q.va q.n q.ask q.leaf (counts && count i q) (k != .read)))
          .error (.wait .forwarded s)

/-- The logical offset of the poisoned granule that n bytes from an offset may not touch (R393); a swizzle moves granules whole
(R134). -/
def Team.badOffset (t : Team) (isStore : Bool) (spans : List (Nat × Nat)) (swz off n : Nat) : Option Nat :=
  (chunks off n).findSome? fun (a, k) => (badGranule t.scrPoison isStore spans (swizzle swz a) k).map fun _ => a / 64 * 64

/-- The windows of an instruction's scratchpad accesses, with their checks and poison. A store or `tld` reports the poisoned
granule, the other reads their own address (R133, R325, R393). -/
def State.scrSites (s : State) (r : GRef) (k : AccKind) (align swz : Nat) (xs : List Acc) (byGranule : Bool := k == .write) :
    Except Stop (List (Acc × Site)) := do
  let t := s.teamOf r
  let w (a : Acc) : Word := a.addr.setWidth 32
  s.scrChecks t align (xs.map fun a => (w a, a.n))
  let tids ← s.scrTids t (xs.map w)
  let ps := xs.zip tids
  let spans (tid : Nat) := (ps.filter (·.2 == tid)).flatMap fun (a, _) => scrPieces swz (scrOff (w a)) a.n
  match ps.findSome? fun (a, tid) =>
      (((s.team? tid).getD default).badOffset (k == .write) (spans tid) swz (scrOff (w a)) a.n).map fun o => (a, o) with
  | some (a, o) =>
    .error (.trap .poison k.sub (some (if byGranule then a.addr - .ofNat 64 (scrOff (w a)) + .ofNat 64 o else a.addr)))
  | none => return ps.map fun (a, tid) => (a, .scr tid (scrOff (w a)))

/-- The plain scratchpad accesses of a group's instruction, performed. -/
def State.scrAccess (s : State) (r : GRef) (g : Group) (k : AccKind) (align swz : Nat) (w : Writer) (xs : List Acc)
    (byGranule : Bool := k == .write) : Except Stop (State × List (List Byte)) := do
  let sites ← s.scrSites r k align swz xs byGranule
  let v := s.actor r (!g.priv) swz w
  let (s', olds, races) := v.perform sites s
  return (← s.gateGroup s' v.ctx g.priv races, olds)

/-! ## Reads whose addresses depend on what is read: descriptors, pages, bricks, nodes, engine chunks -/

/-- What such reads see: the state, the context, and the lines already answered by their owners. -/
structure View where
  st : State
  ctx : Context
  got : List FwdReply

/-- Why such a read gives no bytes: it needs n bytes of an owner first, known by a key, its page is being moved, its
translation fails, its owner refuses it, or its granule is poisoned. -/
inductive RdFail where
  | need (key : Nat) (va : DWord) (n : Nat)
  | frozen
  | page (va : DWord)
  | protection (sub : Nat) (va : DWord)
  | poison (va : DWord)

/-- What a reader has done: the reads it has made, each of which takes its place in the order (R238, R242), and the first poison
it passed over, and whether one failed at an owner (R147). -/
structure RdLog where
  reads : List (DWord × Nat)
  bad : Option DWord
  cut : Bool
/-- A reader of such bytes. -/
abbrev Rd := StateT RdLog (Except RdFail)
/-- What a reader gives, with what it has done. -/
def Rd.run {α : Type} (x : Rd α) : Except RdFail (α × RdLog) := StateT.run x ⟨[], none, false⟩
/-- A reader's result or its failure, as a result. -/
def Rd.try {α : Type} (x : Rd α) : Rd (Except RdFail α) := fun log =>
  match StateT.run x log with
  | .ok (a, log) => .ok (.ok a, log)
  | .error e => .ok (.error e, log)

/-- A reader whose reads take no place in the order. -/
def Rd.silent {α : Type} (x : Rd α) : Rd α := fun log =>
  match StateT.run x log with
  | .ok (a, _) => .ok (a, log)
  | .error e => .error e

/-- A reader's result, or a failure that nothing awaited can change. -/
def settled {α : Type} (x : Rd α) : Rd (Except RdFail α) := do
  match ← x.try with
  | .error (.need key va n) => throw (.need key va n)
  | .error .frozen => throw .frozen
  | y => return y

/-- The key of what a read asks an owner for: a peer is asked for the bytes themselves, the host for their line (R348, R374). -/
def readKey (l : Leaf) (va : DWord) (n : Nat) : Nat := if l.own = 2 then peerKey va n else lineKey va

/-- Reading n bytes inside one granule. -/
def View.readIn (v : View) (va : DWord) (n : Nat) (kind : AccKind := .read) : Rd (List Byte) :=
  if !canonical va then throw (.protection 23 va) else
  match v.st.translate v.ctx va kind with
  | .error .page => throw (.page va)
  | .error (.protection sub) => throw (.protection sub va)
  | .ok l =>
    if v.st.frozen v.ctx.num (l.page va) then throw .frozen
    else
      let reply := v.got.find? (·.idx == readKey l va n)
      let granule : DWord := .ofNat 64 (va.toNat / 64 * 64)
      match l.home va with
      | .here x =>
        if !v.st.lineHere x then
          match reply with
          | some y => if y.stat = 0 then throw (.need (lineKey va) va n) else throw (.protection 28 va)
          | none => throw (.need (lineKey va) va n)
        else if v.st.poisonedAt x n then throw (.poison granule)
        else do
          modify fun log => { log with reads := log.reads ++ [(va, n)] }
          return v.st.bytesAtLoc x n
      | _ =>
        match reply with
        | none => throw (.need (readKey l va n) va n)
        | some y =>
          if y.stat = 0 then do
            modify fun log => { log with reads := log.reads ++ [(va, n)] }
            return replyBytes .read l va n y.bytes
          else if y.stat = 4 then throw (.poison granule)
          else throw (.protection 28 va)

/-- The order in which the causes that reads meet are taken: the checks made before translation, `page`, `protection`, `poison`
(R326 rows 7 and 8, R411); a wait is none of them. -/
def RdFail.rank : RdFail → Nat
  | .protection 14 _ => 1
  | .protection 23 _ => 2
  | .page _ => 3
  | .protection _ _ => 4
  | .poison _ => 5
  | _ => 0
/-- The cause that decides among those met: of the first rank, the first met. -/
def worstOf (xs : List RdFail) : Option RdFail :=
  xs.foldl (fun (acc : Option RdFail) x => match acc with
    | none => some x
    | some y => if x.rank < y.rank then some x else some y) none
/-- Reads that one instruction makes together, of its pieces or of its fibres in ascending index: all are tried before a cause is
taken (R326). -/
def Rd.all {α : Type} (xs : List (Rd α)) : Rd (List α) := do
  let ys ← xs.mapM settled
  match worstOf (ys.filterMap fun y => match y with | .error e => some e | .ok _ => none) with
  | some e => throw e
  | none => return ys.filterMap Except.toOption

/-- Reading n bytes: what lies in each granule by itself, so that a failure names its granule (R325, R326). -/
def View.read (v : View) (va : DWord) (n : Nat) : Rd (List Byte) := do
  return (← Rd.all ((pieces 64 (n / 64 + 2) va.toNat n).map fun (a, k) => v.readIn (.ofNat 64 a) k)).flatten

/-- The line of an address whose home is elsewhere. -/
def State.farLine (s : State) (c : Context) (va : DWord) : Option Nat :=
  match s.walk c.l0 va with
  | .error _ => none
  | .ok l => match l.home va with
    | .here _ => none
    | _ => some (l.line va)
/-- What an access needs is in the hands of another. -/
def State.blocked (s : State) (c : Context) (who : Asker) (va : DWord) (wr : Bool := false) : Bool :=
  ((s.farLine c va).map fun line => s.taken who line wr).getD false
/-- Asking the owner for what an access needs, whose permission has been checked; the reads of one line count once (R350). -/
def State.askFor (s : State) (c : Context) (who : Asker) (va : DWord) (n : Nat) (fetch : Bool := false) : Option State :=
  match s.walk c.l0 va with
  | .error _ => none
  | .ok l => match l.home va with
    | .here (.host a) => s.askLine c who va a
    | .here _ => none
    | _ => s.askOwner c who va n .read l (fetch || !s.has who (l.line va)) false fetch

/-- The trap of a failed read. -/
def RdFail.trap : RdFail → Trap
  | .page va => ⟨.page, 0, va⟩
  | .protection sub va => ⟨.protection, sub, va⟩
  | .poison va => ⟨.poison, 0, va⟩
  | .need _ va _ => ⟨.protection, 28, va⟩
  | .frozen => ⟨.page, 0, 0⟩
/-- What a group's instruction makes of a failed read (R63, R346). -/
def State.readStop (s : State) (r : GRef) (c : Context) (f : RdFail) (fetch : Bool := false) : Stop :=
  match f with
  | .need key va n =>
    if !fetch && s.blocked c (.group r key) va then .wait .forwarded (s.giveUp r) else
    match s.askFor c (.group r key) va n fetch with
    | some s => .wait .forwarded (s.modGroup r fun g => { g with fwdOpen := key :: g.fwdOpen })
    | none => .trap .protection 28 (some va)
  | .frozen => .wait .frozen s
  | .page va => .trap .page 0 (some va)
  | .protection sub va => .trap .protection sub (some va)
  | .poison va => .trap .poison 0 (some va)

/-- The view of a group's instruction. -/
def State.viewOf (s : State) (r : GRef) (g : Group) : View := ⟨s, s.ctxOf (s.teamOf r), g.fwd⟩

/-- What one fibre's reads gave: their result, the races they met, and the logical time of the last. -/
structure Placed (α : Type) where
  res : α
  races : List RecEvent
  time : Nat
/-- The reads of a group's fibres take their places in ascending order; each fibre's own record, if it has one, follows them (R138,
R239, R370). -/
def State.placeReads {α : Type} (s : State) (r : GRef) (g : Group) (recorded : Bool) :
    Nat → List (Nat × α × List (DWord × Nat)) → State × List (Placed α)
  | _, [] => (s, [])
  | met, (f, a, reads) :: more =>
    let t := s.teamOf r
    let c := s.ctxOf t
    let (s, races) := s.visitReads ⟨c, t.core, if g.priv then none else some (t.party r.slot f false), recorded && !g.priv, met⟩ reads
    let (s', xs) := s.placeReads r g recorded (met + races.length + recorded.toNat) more
    (s', ⟨a, races, s.clockOf c.num t.core⟩ :: xs)
/-- A group's instruction that reads so, one reader for each of some fibres: it waits while a line is being asked for; every fibre's
causes are met before one is taken (R326). -/
def State.readTogether {α : Type} (s : State) (r : GRef) (g : Group) (recorded : Bool) (xs : List (Nat × (View → Rd α))) :
    Except Stop (State × List (Placed α)) :=
  if !g.fwdOpen.isEmpty then .error (.wait .forwarded s) else
  let v := s.viewOf r g
  match (Rd.all (xs.map fun x => x.2 v)).run with
  | .error e => .error (s.readStop r (s.ctxOf (s.teamOf r)) e)
  | .ok _ => .ok (s.placeReads r g recorded 0 (xs.filterMap fun (f, x) => match (x v).run with
    | .ok (a, log) => some (f, a, log.reads)
    | .error _ => none))
/-- Such an instruction whose reads are not themselves recorded. -/
def State.groupReads {α : Type} (s : State) (r : GRef) (g : Group) (xs : List (Nat × (View → Rd α))) :
    Except Stop (State × List α) := do
  let (s', ys) ← s.readTogether r g false xs
  return (← s.gateGroup s' (s.ctxOf (s.teamOf r)) g.priv (ys.flatMap (·.races)), ys.map (·.res))
/-- One reader, as fibre f's. -/
def State.groupRead {α : Type} (s : State) (r : GRef) (g : Group) (f : Nat) (x : View → Rd α) : Except Stop (State × α) := do
  if !g.fwdOpen.isEmpty then .error (.wait .forwarded s) else
  match (x (s.viewOf r g)).run with
  | .error e => .error (s.readStop r (s.ctxOf (s.teamOf r)) e)
  | .ok (a, log) =>
    let (s', ys) := s.placeReads r g false 0 [(f, a, log.reads)]
    return (← s.gateGroup s' (s.ctxOf (s.teamOf r)) g.priv (ys.flatMap (·.races)), a)

/-! ## Writes to virtual addresses by engines and by the landing die -/

/-- Where a write to a virtual address goes: performed here, sent to an owner, or failed with its reason (R147). -/
inductive Dest where
  | here (l : Loc)
  | far (l : Leaf)
  | fail (reason : Nat)

/-- Translating a write (R147, R346); a write to a table line waits for the accesses that used its entries (R356). -/
def View.dest (v : View) (va : DWord) (n : Nat) : Rd Dest :=
  if !canonical va then return .fail 3 else
  match v.st.translate v.ctx va .write with
  | .error .page => return .fail 2
  | .error (.protection _) => return .fail 3
  | .ok l =>
    if v.st.frozen v.ctx.num (l.page va) then throw .frozen
    else match l.home va with
      | .here x =>
        if v.st.lineHere x then if v.st.inUse x n then throw .frozen else return .here x
        else match v.got.find? (·.idx == lineKey va) with
          | some y => if y.stat = 0 then throw (.need (lineKey va) va n) else return .fail 5
          | none => throw (.need (lineKey va) va n)
      | _ => return .far l

/-- The pieces of n bytes inside lines. -/
def linePieces (va : DWord) (n : Nat) : List (DWord × Nat) :=
  (pieces 128 (n / 128 + 2) va.toNat n).map fun (a, k) => (.ofNat 64 a, k)
/-- One line of a write: where it goes. -/
abbrev HeldPiece := DWord × List Byte × Dest
/-- Where the lines of writes go. -/
def View.place (v : View) (ws : List (DWord × List Byte)) : Rd (List HeldPiece) :=
  (ws.flatMap fun (va, bs) => (linePieces va bs.length).map fun (a, k) =>
    (a, (bs.drop (a.toNat - va.toNat)).take k)).mapM fun (a, b) => do return (a, b, ← v.dest a b.length)
/-- The spans of writes in one of the package's memories. -/
def heldSpans (host : Bool) (ps : List HeldPiece) : List (Nat × Nat) :=
  ps.filterMap fun (_, b, d) => match d with
    | .here (.dev a) => if host then none else some (a, b.length)
    | .here (.host a) => if host then some (a, b.length) else none
    | _ => none
/-- The spans in the memory of a location. -/
def Loc.heldSpans (l : Loc) (ps : List HeldPiece) : List (Nat × Nat) :=
  Sys2Proof.Machine.heldSpans (match l with | .dev _ => false | .host _ => true) ps
/-- Writes into the package's memory: the bytes, and the poison of the granules that they cover (R393). -/
def State.putPieces (s : State) (ps : List HeldPiece) : State :=
  ps.foldl (fun (s : State) (_, b, d) => match d with
    | .here l => (s.putBytes l b).unpoison l ((granules l.addr b.length).filter (coversGranule (l.heldSpans ps)))
    | _ => s) s
/-- The places of writes in the order, and their races (R239, R370). -/
def State.visitWrites (s : State) (v : Visitor) (ps : List HeldPiece) : State × List RecEvent :=
  ps.foldl (fun (acc : State × List RecEvent) (a, b, d) =>
    match (match d with | .here x => some x.line | .far l => some (l.line a) | .fail _ => none) with
    | some line =>
      let (s, evs) := acc.1.visitAll { v with before := v.before + acc.2.length } none (lineRuns line a.toNat b.length a) true
      (s, acc.2 ++ evs)
    | none => acc) (s, [])
/-- The landing die as the device's own agent, which races with nobody. -/
def ownVisitor (c : Context) : Visitor := ⟨c, 0x7FF, none, false, 0⟩
/-- The device's own reads and writes, performed at their places when all of them lie in the package and none must wait; none
else. -/
def State.performHere (s : State) (c : Context) (x : View → Rd (List (DWord × List Byte))) : Option State :=
  let v : View := ⟨s, c, []⟩
  match (do v.place (← x v) : Rd (List HeldPiece)).run with
  | .ok (ps, log) =>
    if ps.all fun p => match p.2.2 with | .far _ => false | _ => true then
      some (((s.visitReads (ownVisitor c) log.reads).1.visitWrites (ownVisitor c) ps).1.putPieces ps)
    else none
  | .error _ => none

end Sys2Proof.Machine
end

