-- ==== Sys2Proof/Machine/Staging.lean ====
section
/-! DEFINITION. Reduction staging: arming a descriptor, and accepting, holding and folding the contributions of `nred`
(R57, R171, R379, R380; the layouts of slots and states are log entry 16). The landing die reads and writes staging memory like any
other agent: each access follows its leaf and takes its place in the order (R237, R347). -/
namespace Sys2Proof.Machine

/-- What a message at the landing die comes to: the writes it makes, the STAT and data of its reply, what else it changes, the
records it writes, and the reason of R147 that ends it without its writes (0: none). -/
structure MsgJob where
  writes : List (DWord × List Byte) := []
  stat : Nat := 0
  data : List Byte := []
  after : State → State := id
  evs : List RecEvent := []
  reason : Nat := 0

/-- The device's own read of staging memory; none when it cannot be read or is poisoned. -/
def View.own (v : View) (va : DWord) (n : Nat) : Rd (Option (List Byte)) := do return (← settled (v.read va n)).toOption

/-- A reduction descriptor with its grid and its address (R379). -/
structure RDesc where
  grid : Nat
  base : DWord
  room : Nat
  at_ : DWord
  addr : DWord
  count : Nat
  op : Nat
  type : Nat
  nslot : Nat
  dlo : Nat
  ncon : Nat
  status : Word
  slots : Nat
  acc : Nat
  spare : Bool
  deriving DecidableEq, Repr, Inhabited

/-- The address of descriptor i of a grid's staging area. -/
def Grid.descAt (x : Grid) (i : Nat) : DWord := x.stage + .ofNat 64 (64 + 64 * i)
/-- Reading descriptor i of a grid's staging area. -/
def View.rdesc (v : View) (x : Grid) (i : Nat) : Rd (Option RDesc) := do
  let va := x.descAt i
  return (← v.own va 64).map fun bs =>
    ⟨x.serial, x.stage, x.stageB, va, .ofNat 64 (bytesAt bs 0 8), bytesAt bs 8 4, bytesAt bs 0x0C 1, bytesAt bs 0x0D 1,
      bytesAt bs 0x0E 2, bytesAt bs 0x10 4, bytesAt bs 0x14 4, .ofNat 32 (bytesAt bs 0x18 4), bytesAt bs 0x20 8,
      bytesAt bs 0x28 8, bytesAt bs 0x30 16 == 0⟩
/-- The number of descriptors of a staging area: at most 64, with the header's other words zero. -/
def View.nbuf (v : View) (x : Grid) : Rd Nat := do
  match ← v.own x.stage 64 with
  | some bs => return if bytesAt bs 4 60 == 0 && bytesAt bs 0 4 ≤ 64 then bytesAt bs 0 4 else 0
  | none => return 0
/-- The grids of a context that have a staging area and have not retired. -/
def State.stagingGrids (s : State) (c : Context) : List Grid :=
  s.grids.filter fun x => x.ctx == c.num && !x.retired && x.stage != 0
/-- Every descriptor of a context's grids that have not retired. -/
def View.rdescs (v : View) : Rd (List RDesc) := do
  let parts ← (v.st.stagingGrids v.ctx).mapM fun x => do
    return (← (List.range (← v.nbuf x)).mapM (v.rdesc x)).filterMap id
  return parts.flatten

/-- A slot's bytes. -/
def RDesc.slotBytes (d : RDesc) : Nat := 16 + 4 * d.count
/-- A descriptor that breaks the layout of R379. -/
def RDesc.bad (d : RDesc) : Bool :=
  d.addr.toNat % 16 != 0 || !canonical d.addr || d.count = 0 || 1048576 < d.count || 2 < d.op
    || !(d.type == 2 || d.type == 5 || d.type == 8) || 256 < d.nslot || d.ncon = 0 || 786432 < d.ncon || !d.spare
    || d.room < d.slots + d.nslot * d.slotBytes || d.room < d.acc + 8 * d.count
/-- ARM. -/
def RDesc.armed (d : RDesc) : Bool := d.status.getLsbD 31 && !d.status.getLsbD 30

/-! ## Arming (R379) -/

/-- What a store with ARM = 1 and DONE = 0 to the STATUS of descriptor i makes the device write: it is cleared, or ends in error. -/
def armWritesOf (v : View) (x : Grid) (i : Nat) : Rd (List (DWord × List Byte)) := do
  if (← v.nbuf x) ≤ i then return []
  match ← v.rdesc x i with
  | none => return []
  | some d =>
    if !d.armed then return []
    else if d.bad then return [(d.at_ + 0x18, natLe 4 0x60000000)]
    else return [(d.at_ + 0x1C, natLe 4 0), (d.base + .ofNat 64 d.slots, List.replicate (d.nslot * d.slotBytes) 0),
      (d.base + .ofNat 64 d.acc, List.replicate (8 * d.count) 0)]
/-- A descriptor whose STATUS has been stored to: the device acts at once, or as soon as the lines it needs are there. -/
def State.arm (s : State) (c : Context) (x : Grid) (i : Nat) : State :=
  match s.performHere c fun v => armWritesOf v x i with
  | some t => t
  | none =>
    let (id, s) := s.fresh
    { s with held := s.held ++ [⟨id, .peer s.job.index, c.num, .arm x.serial i, [], [], none, false⟩] }
/-- A write to n bytes at a virtual address that may have armed descriptors: those whose STATUS word it touched. -/
def State.armAt (s : State) (c : Context) (va : DWord) (n : Nat) : State :=
  (s.stagingGrids c).foldl (fun s x =>
    ((List.range 64).filter fun i => let a := (x.descAt i + 0x18).toNat; a < va.toNat + n && va.toNat < a + 4).foldl
      (fun s i => s.arm c x i) s) s
/-- Writes by any agent of a context: stores, atomics, engine chunks and messages (R379). -/
def State.armWrites (s : State) (c : Context) (ws : List (DWord × Nat)) : State :=
  if (s.stagingGrids c).isEmpty then s else ws.foldl (fun s (va, n) => s.armAt c va n) s

/-! ## Folding (R57, R171, R380) -/

/-- One element's state: the value, how many contributors it holds, P, N and Q, and its flags. -/
structure Partial where
  s : Word
  k : Nat
  p : Bool
  n : Bool
  q : Bool
  fl : Word
  deriving DecidableEq, Repr, Inhabited

/-- Reading a state of 8 bytes: the value; bits 0 to 2 P, N and Q, bits 9 to 4 the flags, bits 31 to 12 the contributors. -/
def partialOf (bs : List Byte) : Partial :=
  let x := bytesAt bs 4 4
  ⟨.ofNat 32 (bytesAt bs 0 4), x / 2 ^ 12, x % 2 == 1, x / 2 % 2 == 1, x / 4 % 2 == 1, .ofNat 32 (x / 16 % 64)⟩
/-- A state as 8 bytes. -/
def Partial.bytes (x : Partial) : List Byte :=
  natLe 4 x.s.toNat ++ natLe 4 (x.k * 2 ^ 12 + x.fl.toNat * 16 + x.q.toNat * 4 + x.n.toNat * 2 + x.p.toNat)

/-- Folding a value of f32 (R380). -/
def Partial.addF (x : Partial) (w : Word) : Partial :=
  let v := fpOf 8 false w
  let x := { x with fl := x.fl ||| flagIf v.isSnan flagNV, k := x.k + 1 }
  if x.q then x
  else if v.isNan then { x with s := w ||| 0x400000, q := true }
  else if w = 0x7F800000 then { x with p := true }
  else if w = 0xFF800000 then { x with n := true }
  else x
/-- A finite value joins the sum: the first contributor gives its own bits (R57, R380). -/
def Partial.sumF (x : Partial) (w : Word) : Partial :=
  if x.k = 0 then { x with s := w, k := 1 }
  else
    let (r, fl) := fpAdd 8 0 false (fpOf 8 false x.s) (fpOf 8 false w)
    { x with s := r, fl := x.fl ||| fl, k := x.k + 1 }
/-- Folding one contributor's element by OP and TYPE (R171, R380). -/
def Partial.fold (x : Partial) (op type : Nat) (w : Word) : Partial :=
  if type = 8 then
    let v := fpOf 8 false w
    if op = 0 then
      if v.isNan || v.isInf || x.q then x.addF w else x.sumF w
    else if v.isNan || x.q then x.addF w
    else if x.k = 0 then { x with s := w, k := 1 }
    else
      let old := fpOf 8 false x.s
      { x with s := if (if op = 1 then v.below old else old.below v) then w else x.s, k := x.k + 1 }
  else
    let r : Word := if x.k = 0 then w else match op with
      | 0 => x.s + w
      | 1 => if intOf type w < intOf type x.s then w else x.s
      | _ => if intOf type x.s < intOf type w then w else x.s
    { x with s := r, k := x.k + 1 }
/-- An element's result and flags (R380). -/
def Partial.result (x : Partial) (op type : Nat) : Word × Word :=
  if type = 8 && op = 0 && !x.q then
    if x.p && x.n then (0x7FC00000, x.fl ||| flagNV)
    else if x.p then (0x7F800000, x.fl) else if x.n then (0xFF800000, x.fl) else (x.s, x.fl)
  else (x.s, x.fl)

/-- The states of a descriptor. -/
def View.folds (v : View) (d : RDesc) : Rd (Option (List Partial)) := do
  return (← v.own (d.base + .ofNat 64 d.acc) (8 * d.count)).map fun bs =>
    (List.range d.count).map fun i => partialOf (bs.drop (8 * i))
/-- Folding one contributor's elements. -/
def RDesc.foldIn (d : RDesc) (fs : List Partial) (ws : List Word) : List Partial :=
  (fs.zip ws).map fun (f, w) => f.fold d.op d.type w

/-- The address of a slot. -/
def RDesc.slotAt (d : RDesc) (i : Nat) : DWord := d.base + .ofNat 64 (d.slots + i * d.slotBytes)
/-- The slots: each index with the contributor it holds (none: free). -/
def View.slots (v : View) (d : RDesc) : Rd (List (Nat × Option Nat)) :=
  (List.range d.nslot).mapM fun i => do
    match ← v.own (d.slotAt i) 16 with
    | some bs => return (i, if bytesAt bs 0 4 = 0 then none else some (bytesAt bs 0 4 - 1))
    | none => return (i, some 0xFFFFFFFF)
/-- A slot's 16 bytes before its elements. -/
def slotHeader (who : Option Nat) (got : Nat) : List Byte :=
  natLe 4 (match who with | some x => x + 1 | none => 0) ++ natLe 4 got ++ List.replicate 8 0

/-- Folding every held slot that has become next, from contributor k on: the count, the states and the slots set free (R379). -/
def View.foldSlots (v : View) (d : RDesc) (slots : List (Nat × Option Nat)) :
    Nat → Nat → List Partial → List Nat → Rd (Nat × List Partial × List Nat)
  | 0, k, fs, gone => return (k, fs, gone)
  | fuel + 1, k, fs, gone => do
    match (if d.ncon ≤ k then none else slots.find? fun x => x.2 == some (d.dlo + k)) with
    | none => return (k, fs, gone)
    | some (i, _) =>
      let ws := bytesWords ((← v.own (d.slotAt i + 16) (4 * d.count)).getD []) d.count
      v.foldSlots d slots fuel (k + 1) (d.foldIn fs ws) (gone ++ [i])
/-- What the device writes when contributor k − 1 has been folded: the states, the slots set free, NEXT, and after the last
contributor the results and then STATUS (R379). -/
def RDesc.foldWrites (d : RDesc) (k : Nat) (fs : List Partial) (gone : List Nat) : List (DWord × List Byte) :=
  let rs := fs.map fun f => f.result d.op d.type
  (d.base + .ofNat 64 d.acc, fs.flatMap Partial.bytes) :: gone.map (fun i => (d.slotAt i, slotHeader none 0))
    ++ [(d.at_ + 0x1C, natLe 4 k)]
    ++ (if d.ncon ≤ k then [(d.addr, wordBytes (rs.map (·.1))),
        (d.at_ + 0x18, natLe 4 ((0x40000000 : Word) ||| rs.foldl (fun a x => a ||| x.2) 0).toNat)] else [])
/-- A whole contribution put in its place: folded when its device is next, else into a free slot; none: no slot is free (R379). -/
def View.stage (v : View) (d : RDesc) (dev : Nat) (ws : List Word) : Rd (Option (List (DWord × List Byte))) := do
  match ← v.folds d with
  | none => return none
  | some fs =>
    let k := fs.foldl (fun m f => Nat.min m f.k) ((fs.head?.map (·.k)).getD 0)
    let slots ← v.slots d
    if dev = d.dlo + k then
      let (k, fs, gone) ← v.foldSlots d slots (d.nslot + 1) (k + 1) (d.foldIn fs ws) []
      return some (d.foldWrites k fs gone)
    else
      return (slots.find? fun x => x.2 == none).map fun x =>
        [(d.slotAt x.1, slotHeader (some dev) ws.length), (d.slotAt x.1 + 16, wordBytes ws)]

/-! ## Contributions (R171, R378, R379) -/

/-- The elements of a device's contribution that have arrived before. -/
def State.arrivedElems (s : State) (c : Context) (dev : Nat) (x : Contribution) : List Word :=
  ((s.inbound.find? fun y => y.ctx == c.num && y.dev == dev && y.buf == x.buf).map (·.elems)).getD []
/-- Forgetting them. -/
def State.dropInbound (s : State) (c : Context) (dev : Nat) (x : Contribution) : State :=
  { s with inbound := s.inbound.filter fun y => !(y.ctx == c.num && y.dev == dev && y.buf == x.buf) }
/-- Keeping them. -/
def State.keepInbound (s : State) (c : Context) (dev : Nat) (x : Contribution) (ws : List Word) : State :=
  let s := s.dropInbound c dev x
  { s with inbound := ⟨c.num, dev, x.buf, x.op, x.type, ws⟩ :: s.inbound }

/-- A message of a contribution offered to staging: STAT 0 accepted, 1 not accepted, 3 a mismatch (R378, R379). Its elements wait
until the last has come; then the contribution arrives as one event, whose record hashes all its elements (R171, R361). -/
def contributeJob (v : View) (dev : Nat) (x : Contribution) : Rd MsgJob := do
  let c := v.ctx
  match (← v.rdescs).find? fun d => d.addr == x.buf && d.armed with
  | none => return { stat := 1 }
  | some d =>
    -- a contribution offered again begins anew
    let before := if x.off = 0 then [] else v.st.arrivedElems c dev x
    let ws := before ++ x.elems
    if d.bad then return { stat := 1 }
    else if x.op != d.op || x.type != d.type || x.last != (x.off + x.elems.length == d.count) || d.count < x.off + x.elems.length
        || dev < d.dlo || d.dlo + d.ncon ≤ dev then return { stat := 3, after := fun s => s.dropInbound c dev x }
    else if x.off != before.length then return { stat := 1 }
    else if !x.last then return { after := fun s => s.keepInbound c dev x ws }
    else
      match ← v.stage d dev ws with
      | none => return { stat := 1 }
      | some writes =>
        return { writes := writes, after := fun s => s.dropInbound c dev x,
                 evs := [⟨9, ⟨d.grid, false, true, false, dev, 0, 0⟩, x.buf, hashWords ws, 0x7FF, none⟩] }

end Sys2Proof.Machine
end

