-- ==== Sys2Proof/Machine/Perform.lean ====
section
/-! DEFINITION. Performing the plain global accesses of a group's instruction, with what their stores arm (R138, R370, R379). -/
namespace Sys2Proof.Machine

/-- An instruction's stores or atomics that may have armed reduction descriptors of the context (R379). -/
def State.armedBy (s : State) (c : Context) (xs : List Acc) : State := s.armWrites c (xs.map fun a => (a.addr, a.n))

/-- The plain global accesses of a group's instruction, performed; the bytes each read (R138). -/
def State.globalAccess (s : State) (r : GRef) (g : Group) (k : AccKind) (align : Nat) (xs : List Acc) :
    Except Stop (State × List (List Byte)) := do
  let sites ← s.globalSites r g k align xs
  let v := s.actor r (!g.priv) 0 none
  let (s', olds, races) := v.perform sites (s.modGroup r fun x => { x with owed := 0 })
  let s' := if k == .write then s'.armedBy v.ctx xs else s'
  return (← s.gateGroup s' v.ctx g.priv races, olds)

end Sys2Proof.Machine
end

