-- ==== Sys2Proof/Machine/LoadStore.lean ====
section
/-! DEFINITION. Loads, stores, prefetch, line pinning and fences (R132, R136 to R140). -/
namespace Sys2Proof.Machine

/-- The access size of `md.TYPE` in bytes (R132). -/
def memSize (t : Nat) : Nat := match t with | 0 => 1 | 3 => 1 | 1 => 2 | 4 => 2 | 6 => 2 | 7 => 2 | _ => 4
/-- `md.TYPE` must name an access size; a scratchpad access reads `md.SWZ` (R21, R132). -/
def Group.needMem (g : Group) (scr : Bool) : Except Stop Unit :=
  mdChecks (isReservedType g.type || (scr && g.swz == 3)) false (isNarrowType g.type)

/-- A loaded element in its register word: sign- or zero-extended; tf clears bits 12:0 (R132). -/
def loadWord (t : Nat) (bs : List Byte) : Word :=
  let w : Word := .ofNat 32 (leNat bs)
  if isIntType t then .ofInt 32 (intOf t w) else if t = 9 then w &&& 0xFFFFE000 else w
/-- The bytes a store writes: the low bytes of the word; tf writes bits 12:0 as zero (R132). -/
def storeBytes (t : Nat) (w : Word) : List Byte := natLe (memSize t) (if t = 9 then w &&& 0xFFFFE000 else w).toNat

/-- The global address bb + sign_extend(va) + n × size (R19). -/
def Group.gaddr (g : Group) (b : BReg) (a : VReg) (n : Int) (f : Nat) : DWord :=
  g.breg b + (g.rd a f).signExtend 64 + .ofInt 64 n
/-- The 32-bit address va + n × size (R136). -/
def Group.saddr (g : Group) (a : VReg) (n : Int) (f : Nat) : DWord := ((g.rd a f) + .ofInt 32 n).setWidth 64

/-- The fibres that perform an access: one for a uniform address, else every active, guard-passing fibre (R136, R137). -/
def Group.performers (g : Group) (uniform : Bool) (stores : Bool) : List Nat :=
  let fs := if stores then g.ons.filter (!g.isHelper ·) else g.ons
  if uniform then fs.take 1 else fs

/-- The word a fibre's result has among those performed. -/
def pick (fs : List Nat) (ws : List Word) (f : Nat) : Word := ((fs.zip ws).lookup f).getD 0

/-- Deferring a load's result: shape U when the address is uniform, else G (R136). DESIGN CHOICE (log entry 34): a returning
instruction that no fibre performs adds no pending result (R62). -/
def Group.loadResult (g : Group) (d : VReg) (uniform : Bool) (fs : List Nat) (ws : List Word) : Group :=
  if fs.isEmpty then g
  else if uniform then (g.storeDue d 0 g.on fun _ => ws.headD 0).pending
  else (g.storeDue d 2 fs.contains (pick fs ws)).pending

/-- A load from the addresses of `addr` through `access` (R136). -/
def loadOp (d a : VReg) (scr : Bool) (addr : Group → Int → Nat → DWord) (n : Int)
    (access : State → GRef → Group → Nat → List Acc → Except Stop (State × List (List Byte))) : Effect := fun s r g => do
  g.needMem scr
  let uni := g.rank a == 0
  g.fits d (if uni then 0 else 2)
  let size := memSize g.type
  let fs := g.performers uni false
  let (s, olds) ← access s r g size (fs.map fun f => .load f (addr g (n * size) f) size)
  return (s, g.loadResult d uni fs (olds.map (loadWord g.type)))

/-- LD (R136). -/
def execLd (m : Bool) (d a : VReg) (b : BReg) (n : BitVec 9) : State → Out :=
  runWord (.ld m d a b n) { s := m, roles := vectorOnly, returning := true }
    (loadOp d a false (fun g k f => g.gaddr b a k f) n.toInt fun s r g size xs => s.globalAccess r g .read size xs)
/-- LDX (R136). -/
def execLdx (m : Bool) (d a : VReg) (n : BitVec 12) : State → Out :=
  runWord (.ldx m d a n) { s := m, roles := vectorOnly, returning := true }
    (loadOp d a true (fun g k f => g.saddr a k f) n.toInt fun s r g size xs =>
      s.scrAccess r g .read size g.swz none xs)
/-- The constant bytes of a context as a launch finds them, wherever their home is: the bytes, and the 16-byte chunks that cannot
be read with what a load of them raises (R241; log entry 43). -/
def constRead (v : View) : Rd (Memory × List (Nat × Trap)) :=
  (List.range ((v.ctx.constSz + 15) / 16)).foldlM (fun (acc : Memory × List (Nat × Trap)) i => do
    match ← settled (v.read (v.ctx.const + .ofNat 64 (16 * i)) 16) with
    | .ok bs => return (acc.1.write (16 * i) bs, acc.2)
    | .error e => return (acc.1, (i, e.trap) :: acc.2)) (Memory.empty, [])
/-- The trap of a chunk of a grid's constant space, as the access at an address meets it. -/
def Grid.constTrap (x : Grid) (c : Context) (a : Acc) : Option Trap :=
  (x.constBad.lookup (a.addr.toNat / 16)).map fun t => if t.cause = .poison then t else { t with tval := c.const + a.addr }
/-- The constant space of a group's grid (R136, R241): offsets are checked, then the bytes that its launch found are read, which
no access during the launch changes. The reads take no place in the package order. -/
def State.constAccess (s : State) (r : GRef) (size : Nat) (xs : List Acc) : Except Stop (State × List (List Byte)) := do
  let t := s.teamOf r
  let c := s.ctxOf t
  let x := (s.grid? t.ctx t.serial).getD default
  checkEach (·.addr) xs [(11, fun a => a.addr.toNat % size != 0), (13, fun a => c.constSz < a.addr.toNat + a.n)]
  let bad := xs.filterMap (x.constTrap c)
  match [Cause.page, .protection, .poison].findSome? fun k => bad.find? (·.cause == k) with
  | some t => .error (.trap t.cause t.sub (some t.tval))
  | none => return (s, xs.map fun a => x.const.read a.addr.toNat a.n)
/-- LDC (R136). -/
def execLdc (m : Bool) (d a : VReg) (n : BitVec 12) : State → Out :=
  runWord (.ldc m d a n) { s := m, roles := vectorOnly, returning := true }
    (loadOp d a false (fun g k f => g.saddr a k f) n.toInt fun s r _ size xs => s.constAccess r size xs)

/-- A store of the low bytes of `d` (R137). -/
def storeOp (d a : VReg) (scr : Bool) (addr : Group → Int → Nat → DWord) (n : Int)
    (access : State → GRef → Group → Nat → List Acc → Except Stop (State × List (List Byte))) : Effect := fun s r g => do
  g.needMem scr
  let size := memSize g.type
  let fs := g.performers (g.rank a == 0 && g.rank d == 0) true
  let (s, _) ← access s r g size (fs.map fun f => .store f (addr g (n * size) f) (storeBytes g.type (g.rd d f)))
  return (s, g)
/-- ST (R137). -/
def execSt (m : Bool) (d a : VReg) (b : BReg) (n : BitVec 9) : State → Out :=
  runWord (.st m d a b n) { s := m, roles := vectorOnly }
    (storeOp d a false (fun g k f => g.gaddr b a k f) n.toInt fun s r g size xs => s.globalAccess r g .write size xs)
/-- STX (R137): the writer's element type is `md.TYPE` (R135). -/
def execStx (m : Bool) (d a : VReg) (n : BitVec 12) : State → Out :=
  runWord (.stx m d a n) { s := m, roles := vectorOnly }
    (storeOp d a true (fun g k f => g.saddr a k f) n.toInt fun s r g size xs =>
      s.scrAccess r g .write size g.swz (some (g.type, 0)) xs)
/-- PREF (R136): raises nothing and changes nothing a program reads. -/
def execPref (m : Bool) (a : VReg) (b : BReg) (n : BitVec 9) : State → Out :=
  runGroup (.pref m a b n) { s := m, roles := vectorOnly } fun g => .ok g

/-! ## Line pinning (R139) -/

/-- One fibre's `lck`: its status and the context's pinned lines (R139). -/
def pinLine (quota : Nat) (pinned : List Nat) (x : Home) : Word × List Nat :=
  match x with
  | .here (.dev a) =>
    if pinned.contains (a / 128) then (1, pinned)
    else if quota ≤ pinned.length then (2, pinned)
    else (0, pinned ++ [a / 128])
  | _ => (3, pinned)
/-- The walks that translate addresses for a group's instruction make its core a sharer of their table lines (R355). -/
def State.shareWalks (s : State) (r : GRef) (vas : List DWord) : State :=
  let t := s.teamOf r
  vas.foldl (fun s va => s.shareWalk (s.ctxOf t) t.core va) s
/-- LCK (R139). -/
def execLck (m : Bool) (d a : VReg) (b : BReg) : State → Out :=
  runWord (.lck m d a b) { s := m, roles := vectorOnly, returning := true } fun s r g => do
    g.fits d 2
    let c := s.ctxOf (s.teamOf r)
    let xs := g.ons.map fun f => Acc.load f (g.gaddr b a 0 f) 1
    checkEach (·.addr) xs [(23, fun x => !canonical x.addr)]
    let ls ← s.translateAll c .read xs
    let s := s.shareWalks r (xs.map (·.addr))
    if ls.any fun (x, l) => s.frozen c.num (l.page x.addr) then .error (.wait .frozen s) else
    match ls.find? fun (x, l) => match l.home x.addr with | .here p => s.poisonedAt p 1 | _ => false with
    | some (x, _) => .error (.trap .poison 0 (some (.ofNat 64 (x.addr.toNat / 64 * 64))))
    | none =>
      let (ws, pinned) := ls.foldl (fun (acc : List Word × List Nat) x =>
        let (w, p) := pinLine c.pinq acc.2 (x.2.home x.1.addr)
        (acc.1 ++ [w], p)) ([], c.pinned)
      return (s.modContext c.num fun c => { c with pinned := pinned }, g.loadResult d false g.ons ws)
/-- ULK (R139): an address that cannot be translated for a read unpins nothing. -/
def execUlk (m : Bool) (a : VReg) (b : BReg) : State → Out :=
  runWord (.ulk m a b) { s := m, roles := vectorOnly } fun s r g =>
    let c := s.ctxOf (s.teamOf r)
    let lines := g.ons.filterMap fun f =>
      let va := g.gaddr b a 0 f
      if !canonical va then none else
      match s.translate c va .read with
      | .ok l => match l.home va with
        | .here (.dev p) => some (p / 128)
        | _ => none
      | .error _ => none
    return ((s.shareWalks r ((g.ons.map fun f => g.gaddr b a 0 f).filter canonical)).modContext c.num fun c =>
      { c with pinned := c.pinned.filter (!lines.contains ·) }, g)

/-! ## Fences (R140): every earlier access of the group has been performed when the next instruction issues -/

/-- FENCE_PKG (R140). -/
def execFencePkg (m : Bool) : State → Out := runGroup (.fencePkg m) { s := m } fun g => .ok g
/-- FENCE_HOST (R140). -/
def execFenceHost (m : Bool) : State → Out := runGroup (.fenceHost m) { s := m } fun g => .ok g
/-- FENCE_SYS (R140). -/
def execFenceSys (m : Bool) : State → Out := runGroup (.fenceSys m) { s := m } fun g => .ok g

end Sys2Proof.Machine
end

