-- ==== Sys2Proof/Machine/Handles.lean ====
section
/-! DEFINITION. Tensor handles and their validity, the handle instructions, and tensor access (R159 to R166). -/
namespace Sys2Proof.Machine

/-! ## The descriptor (R159 to R161) -/

/-- A 4-byte word of a handle. -/
def hWord (h : BitVec 512) (k : Nat) : Word := h.extractLsb' (32 * k) 32
/-- An 8-byte word of a handle at a byte offset. -/
def hDWord (h : BitVec 512) (off : Nat) : DWord := h.extractLsb' (8 * off) 64
/-- A field of CTL (R160). -/
def hCtl (h : BitVec 512) (lo n : Nat) : Nat := (hWord h 2).toNat / 2 ^ lo % 2 ^ n

/-- A handle's fields (R159 to R161). -/
structure Handle where
  raw : BitVec 512
  base : DWord
  dir : Bool
  swz : Nat
  blk : Nat
  elem : Nat
  spb : Nat
  scr : Bool
  rank : Nat
  type : Nat
  deriving DecidableEq, Repr

/-- Reading a descriptor. -/
def handleOf (h : BitVec 512) : Handle :=
  ⟨h, hDWord h 0, hCtl h 31 1 == 1, hCtl h 26 2, hCtl h 24 2, hCtl h 16 4, hCtl h 8 4, hCtl h 7 1 == 1, hCtl h 4 3, hCtl h 0 4⟩

/-- BOUNDk. -/
def Handle.bound (x : Handle) (k : Nat) : Nat := (hWord x.raw (3 + k)).toNat
/-- STRIDEk in 16-byte units, k from 1. -/
def Handle.stride (x : Handle) (k : Nat) : Nat := (hWord x.raw (7 + k)).toNat
/-- The format register of a narrow element type. -/
def Handle.fmt (x : Handle) : Word := if isNarrowType x.elem then handleFmt x.raw x.elem else 0
/-- The container width in bits (R161). -/
def Handle.bits (x : Handle) : Nat := elemContainer x.elem x.fmt
/-- The block length of a block-scaled handle. -/
def Handle.blockLen (x : Handle) : Nat := if x.blk = 1 then 16 else 32

/-- KH, KW, SY, SX, DY, DX, PY, PX, OH, OW and ROWB of an unfold view (R161). -/
structure Unfold where
  kh : Nat
  kw : Nat
  sy : Nat
  sx : Nat
  dy : Nat
  dx : Nat
  py : Nat
  px : Nat
  oh : Nat
  ow : Nat
  rowb : Nat
/-- Reading them. -/
def Handle.unfold (x : Handle) : Unfold :=
  let f (k lo n : Nat) : Nat := (hWord x.raw k).toNat / 2 ^ lo % 2 ^ n
  ⟨f 8 0 8, f 8 8 8, f 8 16 4, f 8 20 4, f 8 24 4, f 8 28 4, f 9 0 8, f 9 8 8, f 10 0 16, f 10 16 16, f 11 0 32⟩

/-- A rank, bound or stride that breaks R159 or the type (R162 code 2). -/
def Handle.badShape (x : Handle) : Bool :=
  let ones (k : Nat) : Bool := (List.range 5).all fun i => i < k || x.bound i == 1
  x.rank = 0 || 5 < x.rank || (x.type != 1 && x.rank != 2)
    || (List.range 5).any (fun k => x.bound k == 0)
    || !(if x.type = 4 then ones 3 else ones x.rank)
    || (x.type = 1 && (if x.blk = 0 then [1, 2, 3, 4] else [1, 2]).any fun k => x.rank ≤ k && x.stride k != 0)
/-- A reserved SWZ or BLK, or BLK ≠ 0 against R161 (code 5). -/
def Handle.badBlock (x : Handle) : Bool :=
  x.swz == 3 || x.blk == 3
    || (x.blk != 0 && (x.type != 1 || 3 < x.rank || x.bound 0 % x.blockLen != 0 || !isNarrowType x.elem))
/-- A sparse or unfold field out of range (code 7). -/
def Handle.badFields (x : Handle) : Bool :=
  if x.type = 3 then x.spb < 2 || 5 < x.spb
  else if x.type = 4 then
    let u := x.unfold
    !x.scr || [u.kh, u.kw, u.sy, u.sx, u.dy, u.dx, u.oh, u.ow].any (· == 0) || u.rowb * 8 < x.bound 0 * x.bits
  else false
/-- The first failure of a handle (R162). -/
def Handle.check (x : Handle) : Nat :=
  if x.type = 0 || 4 < x.type then 1
  else if x.badShape then 2
  else if isReservedType x.elem || (isNarrowType x.elem && !(nfmtOf x.fmt).valid) then 3
  else if (if x.scr then x.base.toNat / 2 ^ 19 != 0 else !canonical x.base) || x.base.toNat % 16 != 0 then 4
  else if x.badBlock then 5
  else if x.dir && (x.type != 1 || x.scr || x.base.toNat % 2048 != 0) then 6
  else if x.badFields then 7
  else if hCtl x.raw 28 3 != 0 || hCtl x.raw 20 4 != 0 || hCtl x.raw 12 4 != 0 then 8
  else 0

/-- A valid handle of a group (R20, R162). -/
def Group.handle (g : Group) (h : HReg) : Except Stop Handle := do
  let x := handleOf (g.hreg h)
  check (x.check == 0) (protect 2)
  return x

/-! ## Handle instructions (R163) -/

/-- A 64-byte value as bytes. -/
def hBytes (h : BitVec 512) : List Byte := natLe 64 h.toNat
/-- The address of an `hld` or `hst`. -/
def Group.haddr (g : Group) (b : BReg) (a : VReg) : Except Stop DWord := do
  let o ← g.uniform a
  return g.breg b + o.signExtend 64
/-- HLD (R163). -/
def execHld (m : Bool) (d : HReg) (a : VReg) (b : BReg) : State → Out :=
  runWord (.hld m d a b) { s := m, returning := true, once := Group.someOn } fun s r g => do
    let va ← g.haddr b a
    let (s, olds) ← s.globalAccess r g .read 64 [.load (g.ons.headD 0) va 64]
    return (s, { g with hDue := g.hDue.set d.val (hStored (.ofNat 512 (leNat (olds.headD [])))) }.pending)
/-- HST (R163). -/
def execHst (m : Bool) (d : HReg) (a : VReg) (b : BReg) : State → Out :=
  runWord (.hst m d a b) { s := m, once := Group.someActs } fun s r g => do
    let va ← g.haddr b a
    let fs := g.performers true true
    let (s, _) ← s.globalAccess r g .write 64 (fs.map fun f => .store f va (hBytes (g.hreg d)))
    return (s, g)
/-- HSET (R163). -/
def execHset (m : Bool) (d : HReg) (a b : VReg) : State → Out :=
  runGroup (.hset m d a b) { s := m, once := Group.someOn } fun g => do
    let k ← g.uniform a
    let w ← g.uniform b
    check (k.toNat < 16) (protect 14)
    let mask : BitVec 512 := 0xFFFFFFFF#512 <<< (32 * k.toNat)
    return g.putH d ((g.hreg d &&& ~~~mask) ||| (w.setWidth 512 <<< (32 * k.toNat)))
/-- HGET (R163). -/
def execHget (m : Bool) (d : VReg) (a : HReg) (b : VReg) : State → Out :=
  runGroup (.hget m d a b) { s := m, once := Group.someOn } fun g => do
    let k ← g.uniform b
    check (k.toNat < 16) (protect 14)
    return g.putU d (hWord (g.hreg a) k.toNat)
/-- HCHK (R162, R163). -/
def execHchk (m : Bool) (d : VReg) (a : HReg) : State → Out :=
  runGroup (.hchk m d a) { s := m, once := Group.someOn } fun g => .ok (g.putU d (.ofNat 32 (handleOf (g.hreg a)).check))

/-! ## Element positions (R161, R164) -/

/-- The extent of dimension k as an index is held against it. -/
def Handle.extent (x : Handle) (k : Nat) : Nat :=
  if x.type = 4 then
    let u := x.unfold
    match k with | 0 => u.kh * u.kw * x.bound 0 | 1 => u.oh * u.ow | _ => 1
  else x.bound k

/-- An element's place relative to BASE in bits; none: the element reads as zero and is stored nowhere. -/
inductive Spot where
  | at (bit : Nat)
  | zero
  | absent

/-- The bit offset of a dense element. -/
def Handle.denseBit (x : Handle) (ix : List Nat) : Nat :=
  ix.headD 0 * x.bits + ((ix.zipIdx.drop 1).map fun (i, k) => i * x.stride k * 128).sum
/-- The place of an element of an unfold view. -/
def Handle.unfoldSpot (x : Handle) (j i : Nat) : Spot :=
  let u := x.unfold
  let c := x.bound 0
  let iy : Int := (i / u.ow * u.sy : Nat) - (u.py : Int) + (j / (u.kw * c) * u.dy : Nat)
  let ix : Int := (i % u.ow * u.sx : Nat) - (u.px : Int) + (j / c % u.kw * u.dx : Nat)
  if iy < 0 || (x.bound 2 : Int) ≤ iy || ix < 0 || (x.bound 1 : Int) ≤ ix then .zero
  else .at (8 * ((iy.toNat * x.bound 1 + ix.toNat) * u.rowb) + j % c * x.bits)

/-- The first entry p of the range whose column index matches (R165). -/
def findEntry (v : View) (cols : DWord) (col : Nat) : Nat → Nat → Rd (Option Nat)
  | 0, _ => return none
  | n + 1, p => do
    let bs ← v.read (cols + .ofNat 64 (4 * p)) 4
    if leNat bs = col then return some p else findEntry v cols col n (p + 1)
/-- The place of an element of a sparse handle. -/
def Handle.sparseSpot (x : Handle) (v : View) (i0 i1 : Nat) : Rd Spot := do
  let side := if x.type = 3 then 2 ^ x.spb else 1
  let ptr := hDWord x.raw 0x20
  let lo ← v.read (ptr + .ofNat 64 (4 * (i1 / side))) 4
  let hi ← v.read (ptr + .ofNat 64 (4 * (i1 / side + 1))) 4
  match ← findEntry v (hDWord x.raw 0x28) (i0 / side) (leNat hi - leNat lo) (leNat lo) with
  | none => return .absent
  | some p => return .at ((p * side * side + i1 % side * side + i0 % side) * x.bits)
/-- The place of an element in bounds. -/
def Handle.spot (x : Handle) (v : View) (ix : List Nat) : Rd Spot :=
  match x.type with
  | 1 => return .at (x.denseBit ix)
  | 4 => return x.unfoldSpot (ix.getD 0 0) (ix.getD 1 0)
  | _ => x.sparseSpot v (ix.getD 0 0) (ix.getD 1 0)

/-- An index tuple: skipped, out of bounds, or in bounds (R164, R165). -/
def Handle.position (x : Handle) (ix : List Word) : Nat :=
  if ix.any (· == 0xFFFFFFFF) then 3
  else if (ix.zipIdx.any fun (w, k) => x.extent k ≤ w.toNat) then 1 else 0

/-! ## Tensor access (R165) -/

/-- The bytes that hold an element: 1, 2 or 4. -/
def Handle.bytes (x : Handle) : Nat := (x.bits + 7) / 8
/-- An element read from its bytes: its container word, or the code of its nibble (R32, R34, R45). -/
def Handle.elemWord (x : Handle) (bit : Nat) (bs : List Byte) : Word :=
  if isNarrowType x.elem then
    .ofNat 32 (leNat bs / 2 ^ (bit % 8) % 2 ^ (nfmtOf x.fmt).width)
  else loadWord x.elem bs
/-- An element stored into its bytes: a narrow code takes its low W bits, zero above, and leaves the other nibble (R165). -/
def Handle.elemPut (x : Handle) (bit : Nat) (w : Word) (old : List Byte) : List Byte :=
  if isNarrowType x.elem then
    let c := w.toNat % 2 ^ (nfmtOf x.fmt).width
    if x.bits = 4 then
      let o := leNat old
      [.ofNat 8 (if bit % 8 = 0 then o / 16 * 16 + c else o % 16 + c * 16)]
    else [.ofNat 8 c]
  else storeBytes x.elem w

/-- What the store of an element asks of an owner elsewhere: its nibble, or its bytes (R165, R348). -/
def Handle.elemAsk (x : Handle) (bit : Nat) (w : Word) : Ask :=
  if isNarrowType x.elem && x.bits = 4 then .nibble (bit % 8 != 0) (w.toNat % 2 ^ (nfmtOf x.fmt).width)
  else .write (x.elemPut bit w [])

/-- The index tuple of fibre f, from vb on. -/
def Group.tuple (g : Group) (b : VReg) (n f : Nat) : List Word :=
  (List.range n).map fun k => ((g.v.getD (b.val + k) default).at f)

/-- What a fibre of a tensor access meets: its fibre, its status and its place. -/
def tensorSpot (g : Group) (x : Handle) (b : VReg) (f : Nat) (v : View) : Rd (Nat × Nat × Spot) := do
  let ix := g.tuple b x.rank f
  match x.position ix with
  | 0 =>
    let p ← x.spot v (ix.map (·.toNat))
    return (f, match p with | .absent => 2 | _ => 0, p)
  | st => return (f, st, .absent)
/-- What the fibres of a tensor access meet. -/
def tensorSpots (s : State) (r : GRef) (g : Group) (x : Handle) (b : VReg) (fs : List Nat) :
    Except Stop (State × List (Nat × Nat × Spot)) :=
  s.groupReads r g (fs.map fun f => (f, tensorSpot g x b f))

/-- The address of an element's bytes. -/
def Handle.addr (x : Handle) (bit : Nat) : DWord := x.base + .ofNat 64 (bit / 8)

/-- The access of a tensor instruction: global, or scratchpad by `md.SWZ`; an element beyond the scratchpad layout is beyond
the window. -/
def tensorAccess (s : State) (r : GRef) (g : Group) (x : Handle) (k : AccKind) (xs : List Acc) :
    Except Stop (State × List (List Byte)) :=
  if x.scr then
    match xs.find? fun a => 2 ^ 19 ≤ a.addr.toNat with
    | some a => protectAt 12 a.addr
    | none => s.scrAccess r g k 1 g.swz (some (x.elem, x.fmt)) xs true
  else s.globalAccess r g k 1 xs

/-- The checks shared by `tld` and `tst` in the order of R326 and R411: `md.SWZ` for a scratchpad handle, the shape, the
handle, for a store its type, and the register range (R165). -/
def tensorHandle (g : Group) (dests : List VReg) (a : HReg) (b : VReg) (stores : Bool) : Except Stop Handle := do
  let h := handleOf (g.hreg a)
  mdChecks (h.scr && g.swz == 3) false false
  dests.forM fun x => g.fits x 2
  let x ← g.handle a
  check (!stores || x.type != 4) (protect 16)
  check (b.val + x.rank ≤ 64) (protect 14)
  return x

/-- TLD (R165). -/
def execTld (m : Bool) (d : VReg) (a : HReg) (b : VReg) : State → Out :=
  runWord (.tld m d a b) { s := m, roles := vectorOnly, returning := true } fun s r g => do
    let x ← tensorHandle g [d, nextReg d] a b false
    let fs := g.ons
    if fs.isEmpty then return (s, g)
    let (s, spots) ← tensorSpots s r g x b fs
    let reads := spots.filterMap fun (f, _, p) => match p with | .at bit => some (f, bit) | _ => none
    let (s, olds) ← tensorAccess s r g x .read (reads.map fun (f, bit) => .load f (x.addr bit) x.bytes)
    let got := (reads.zip olds).map fun ((f, bit), bs) => (f, x.elemWord bit bs)
    let val (f : Nat) : Word := (got.lookup f).getD 0
    let st (f : Nat) : Word := match spots.find? (·.1 == f) with | some y => .ofNat 32 y.2.1 | none => 0
    return (s, ((g.storeDue d 2 g.on val).storeDue (nextReg d) 2 g.on st).pending)
/-- TST (R165). -/
def execTst (m : Bool) (d : VReg) (a : HReg) (b : VReg) : State → Out :=
  runWord (.tst m d a b) { s := m, roles := vectorOnly } fun s r g => do
    let x ← tensorHandle g [nextReg d] a b true
    let fs := g.performers false true
    let (s, spots) ← tensorSpots s r g x b fs
    let xs := (spots.filterMap fun (f, _, p) => match p with | .at bit => some (f, bit) | _ => none).map fun (f, bit) =>
      (⟨f, x.addr bit, x.bytes, fun old => some (x.elemPut bit (g.rd d f) old), x.elemAsk bit (g.rd d f)⟩ : Acc)
    let (s, _) ← tensorAccess s r g x .write xs
    let st (f : Nat) : Word := match spots.find? (·.1 == f) with | some y => .ofNat 32 y.2.1 | none => 0
    return (s, g.store (nextReg d) 2 fs.contains st)

/-! ## NZS (R166) -/

/-- The positions of the elements that are not zero: subnormals and NaNs count as non-zero (R166). -/
def nonZeros (t : Nat) (bs : List Byte) (n : Nat) : List Nat :=
  let bits := elemContainer t 0
  (List.range n).filter fun i =>
    let c := elemCode bits bs i
    !(if isIntType t then c == 0 else (fpOf t false (.ofNat 32 c)).isZero)
/-- The index list with its padding (R166). -/
def nzsList (ks : List Nat) : List Word :=
  let p := Nat.max 16 (16 * ((ks.length + 15) / 16))
  ks.map (.ofNat 32 ·) ++ List.replicate (p - ks.length) 0xFFFFFFFF
/-- NZS (R166). -/
def execNzs (m : Bool) (d a b : VReg) : State → Out :=
  runWord (.nzs m d a b) { s := m, roles := vectorOnly, returning := true, once := Group.someActs } fun s r g => do
    g.needMem true
    let src ← g.uniform a
    let n ← g.uniform (nextReg a)
    let dst ← g.uniform b
    let fs := g.performers true true
    let len := n.toNat * memSize g.type
    s.scrChecks (s.teamOf r) 1 [(src, len)]
    check (1 ≤ n.toNat && n.toNat ≤ 65536) (protect 14)
    let f := fs.headD 0
    -- the list takes at least 64 bytes; how many more is known once the source has been read (log entry 95)
    s.scrChecks (s.teamOf r) 4 [(dst, 64)]
    let sites ← s.scrSites r .read 1 g.swz [.load f (scrVal src) len]
    let bs := match sites with | [(a, p)] => s.siteBytes g.swz a.n p | _ => []
    let ks := nonZeros g.type bs n.toNat
    let (s1, _) ← s.scrAccess r g .read 1 g.swz none [.load f (scrVal src) len]
    let (s2, _) ← s1.scrAccess r g .write 4 g.swz (some (5, 0)) [.store f (scrVal dst) (wordBytes (nzsList ks))]
    return (s2, (g.storeDue d 0 g.on fun _ => .ofNat 32 ks.length).pending)

end Sys2Proof.Machine
end

