-- ==== Sys2Proof/Machine/Teams.lean ====
section
/-! DEFINITION. What the groups of a team share beyond its registers: barriers and budget moves (R99, R157), the end of a
group and of a team (R94, R221, R230), and the places of an issue port (R226). -/
namespace Sys2Proof.Machine

/-! ## Barriers (R157) -/

/-- A barrier at the start of a generation. -/
def Barrier.next (b : Barrier) : Barrier := ⟨b.gen + 1, 0, none, []⟩
/-- An arrival: its first sets the expected count (R157). -/
def Barrier.arrive (b : Barrier) (who c : Nat) : Barrier :=
  { b with arrivals := b.arrivals + 1, expect := some (b.expect.getD c), who := who :: b.who.filter (· != who) }
/-- The generation is complete: its count is reached, or with a count of 0 every group of `alive` has arrived (R157). -/
def Barrier.full (b : Barrier) (alive : List Nat) : Bool :=
  match b.expect with
  | none => false
  | some 0 => alive.all b.who.contains
  | some c => c ≤ b.arrivals

/-- The slots of a team's groups that have not ended. -/
def Team.alive (t : Team) : List Nat :=
  (t.groups.zipIdx.filter fun (g, _) => !g.ended).map (·.2)

/-! ## Budget moves (R99) -/

/-- Checking and applying one budget move: the groups and the status (R99). -/
def applyMove (gs : List Group) (m : Move) : List Group × Word :=
  let src := (m.va.extractLsb' 0 6).toNat
  let dst := (m.va.extractLsb' 8 6).toNat
  let n := m.vb.toNat
  let budget (k : Nat) : Int := ((gs.getD k default).budget : Int) - (if k = src then n else 0) + (if k = dst then n else 0)
  if m.va.extractLsb' 6 2 != 0 || m.va.extractLsb' 14 18 != 0 || n % 16 != 0 || gs.length ≤ src || gs.length ≤ dst then
    (gs, 3)
  else if [src, dst].any fun k => budget k < 64 || 1024 < budget k then (gs, 2)
  else if budget src < (gs.getD src default).wordsInUse then (gs, 1)
  else (gs.mapIdx fun k g => if k = src || k = dst then { g with budget := (budget k).toNat } else g, 0)

/-- The status of a move reaches its requester: vd is written, or, when the requester is in a handler, the status is kept with
its arrival until it passes the barrier (R99). -/
def Group.moved (g : Group) (m : Move) (st : Word) : Group :=
  if g.pc = m.pc then g.store m.vd 0 g.active fun _ => st
  else { g with arrived := g.arrived.map fun x => if !x.convoy && x.bar == 0 && x.pc == m.pc then { x with status := some st } else x }
/-- Applying the moves of barrier 0 in ascending order of requesting group (R99). -/
def Team.applyMoves (t : Team) : Team :=
  let ms := sortBy (fun x y => x.slot ≤ y.slot) t.moves
  let gs := ms.foldl (fun gs m =>
    let (gs, st) := applyMove gs m
    gs.modify m.slot fun g => g.moved m st) t.groups
  { t with groups := gs, moves := [] }

/-- A request has been raised for a team that is being restored: it is held until the team has left its routine (R332). -/
def Team.evicted (t : Team) : Bool := t.phase == .restoring && t.groups.any (·.preempt.isSome)
/-- Completing the team's generations that are complete; barrier 0 stays open from a preempt request until the team is saved,
so that no budget changes after a group has saved it (R157, R336, R341). -/
def Team.completeBarriers (t : Team) : Team :=
  (List.range t.bars.length).foldl (fun t k =>
    let b := t.bars.getD k default
    if b.full t.alive && !(k == 0 && (t.phase == .preempting || t.phase == .saving || t.evicted)) then
      let t := { t with bars := t.bars.set k b.next }
      if k = 0 then t.applyMoves else t
    else t) t

/-! ## Convoys (R230) -/

/-- Groups of a convoy that have not ended: 64 × member + slot; a member that has not started counts as one that has not
arrived (R157, R230). -/
def State.convoyAlive (s : State) (v : Convoy) : List Nat :=
  (List.range v.members).flatMap fun m =>
    if v.ended.contains m then []
    else match (s.teams ++ s.saved).find? fun t => t.convoy == some (v.id, m) with
      | some t => t.alive.map (64 * m + ·)
      | none => [64 * m]

/-- Completing a convoy's generations that are complete. -/
def State.completeConvoys (s : State) : State :=
  { s with convoys := s.convoys.map fun v =>
      { v with bars := v.bars.map fun b => if b.full (s.convoyAlive v) then b.next else b } }

/-! ## Ends (R94, R221) -/

/-- Every group of the team has ended. -/
def Team.over (t : Team) : Bool := t.groups.all (·.ended)

/-- Operations of a team still in flight. -/
def State.busy (s : State) (tid : Nat) : Bool :=
  s.ops.any (fun o => o.tid == tid) || s.matrix.any (fun m => m.members.any fun x => x.1.tid == tid)

/-- A team whose groups have ended and whose operations have completed; one in its save routine is freed by the save. -/
def State.finished (s : State) (t : Team) : Bool := t.over && !s.busy t.tid && t.phase != .saving && t.phase != .saved

/-- Freeing the frames of a team, but one it is to be saved in; a write of STATE that fails loses the context (R336, R338, R342). -/
def State.dropFrame (s : State) (tid : Nat) (keep : Option Nat := none) : State :=
  let mine (y : Nat × Nat × Nat) : Bool := y.2.2 == tid && some y.1 != keep
  s.contexts.foldl (fun (s : State) c =>
    (c.frames.filter mine).foldl (fun (s : State) y =>
      match s.freeFrame c y.1 with
      | .ok s => s.modContext c.num fun c => { c with frames := c.frames.filter (!mine ·) }
      | .error (cause, sub) => if (s.context? c.num).any (·.frames.any mine) then s.loseContext c.num cause sub else s) s) s
/-- The frame that a request has allocated to a team still being restored from another (R332, R336). -/
def State.nextFrame (s : State) (t : Team) : Option Nat :=
  if t.evicted then
    (s.context? t.ctx).bind fun c => (c.frames.find? fun y => y.2.2 == t.tid && some y.1 != t.frame).map (·.1)
  else none
/-- The write that frees a team's frame must wait (R356). -/
def State.freeWaits (s : State) (t : Team) : Bool :=
  match s.context? t.ctx, t.frame with
  | some c, some off => s.pokeWaits c (c.save + .ofNat 64 (off + 0x0C)) 4
  | _, _ => false
/-- Freeing the teams that have finished, with the frame one of them may still hold (R221, R336). -/
def State.freeTeams (s : State) : State :=
  let done := (s.teams.filter s.finished).map (·.tid)
  if done.isEmpty then s else
  let s := done.foldl State.dropFrame s
  { s with teams := s.teams.filter fun t => !done.contains t.tid }

/-- A convoy member whose groups have all ended is marked so; a convoy whose members have all ended is gone (R230). -/
def State.settleConvoys (s : State) : State :=
  let overs := (s.teams.filter fun t => t.over && (t.phase == .running || t.phase == .restoring)).filterMap (·.convoy)
  let marked := s.convoys.map fun v =>
    { v with ended := v.ended ++ (overs.filter fun p => p.1 == v.id && !v.ended.contains p.2).map (·.2) }
  { s with convoys := marked.filter fun v => v.ended.length < v.members }

/-- The end of a restore, when every group has left its routine: captured operations that `xrst 18` has not re-forked are
abandoned, or lose the context when items 16 or 17 were restored; the frame is freed (R340). A request that was held meanwhile is
then taken (R332). -/
def State.endRestore (s : State) (tid : Nat) : State :=
  match s.team? tid with
  | none => s
  | some t =>
    if t.phase != .restoring || !t.groups.all (fun g => g.ended || g.left) || s.freeWaits t then s
    else if !t.got18 && (t.got16 || t.got17) && s.ops.any (fun o => o.tid == tid && o.captured) then
      s.loseContext t.ctx 12 1
    else
      let s : State := { s with
        ops := s.ops.filter fun o => !(o.tid == tid && o.captured)
        saved := s.saved.filter (·.tid != tid) }
      let next := s.nextFrame t
      (s.dropFrame tid next).modTeam tid fun t => { t with
        phase := if next.isSome then .preempting else .running, frame := next
        groups := t.groups.map fun g => { g with left := false } }

/-- What follows when a group has ended: generations that waited on it, its convoy, its team (R94, R157, R221). -/
def State.afterEnd (s : State) (tid : Nat) : State :=
  (((s.endRestore tid).modTeam tid Team.completeBarriers).settleConvoys.completeConvoys).freeTeams

/-- A group that has ended. -/
def Group.over (g : Group) : Group :=
  { g with ended := true, live := 0, wait := .none, latch := none, arrived := [], preempt := none, priv := false,
           trapDue := none, inSet := false }

/-- Ending a group (R94). -/
def State.endGroup (s : State) (r : GRef) (g : Group) : State := (s.setGroup r g.over).afterEnd r.tid

/-! ## Places of a port (R226) -/

/-- Groups of a core with the port they stand on. -/
def State.portGroups (s : State) (core port : Nat) : List (GRef × Group) :=
  (s.teams.filter (·.core == core)).flatMap fun t =>
    t.groups.zipIdx.filterMap fun (g, i) => if g.port == port && !g.ended then some (⟨t.tid, i⟩, g) else none

/-- The pending group of a port that has been ready longest (R226). -/
def longestReady (gs : List (GRef × Group)) : Option (GRef × Group) :=
  gs.foldl (fun acc x =>
    if x.2.inSet || x.2.wait != .none then acc else
    match acc with
    | none => some x
    | some y => if x.2.readySince < y.2.readySince then some x else some y) none

/-- A group gives up its place in the active set to the pending group that has been ready longest, when one exists (R226). -/
def State.swapOut (s : State) (r : GRef) : State :=
  match s.group? r with
  | none => s
  | some g =>
    let core := (s.teamOf r).core
    match longestReady (s.portGroups core g.port) with
    | none => s
    | some (q, _) =>
      let (n, s) := s.fresh
      (s.modGroup r fun g => { g with inSet := false, readySince := n }).modGroup q fun g =>
        { g with inSet := true, entered := n }

end Sys2Proof.Machine
end

