-- ==== Sys2Proof/Machine/Engines.lean ====
section
/-! DEFINITION. Engine operations: completion words, binding, their chunk accesses, and completion (R145 to R147, R155,
R242, R334). An operation performs its chunks one at a time (log entry 13). -/
namespace Sys2Proof.Machine

/-! ## Completion words (R146) -/

/-- A completion word's fields. -/
structure Completion where
  out : Bool
  ring : Option Nat
  tag : Option Nat
  deriving DecidableEq, Repr

/-- Reading a completion word. -/
def completionOf (w : Word) : Completion :=
  ⟨w.getLsbD 21, if w.getLsbD 20 then some (w.extractLsb' 16 4).toNat else none,
    if w.getLsbD 7 then some (w.extractLsb' 0 6).toNat else none⟩
/-- A reserved bit, or a field that is invalid for the instruction (R146). -/
def completionBad (w : Word) (dirOk ringOk : Bool) : Bool :=
  w.extractLsb' 22 10 != 0 || w.extractLsb' 8 8 != 0 || w.getLsbD 6 || (w.getLsbD 21 && !dirOk)
    || (w.getLsbD 20 && !ringOk)
/-- Checking a completion word: 14, then the tag window (4), then the rings (15) (R146, R411). -/
def Team.completion (t : Team) (w : Word) (dirOk ringOk : Bool) : Except Stop Completion := do
  check (!completionBad w dirOk ringOk) (protect 14)
  let c := completionOf w
  check ((c.tag.getD 0) < t.tagN || c.tag.isNone) (protect 4)
  check ((c.ring.getD 0) < t.rings.length || c.ring.isNone) (protect 15)
  return c

/-! ## Rings (R153) -/

/-- The slot that sequence number q refers to. -/
def Ring.slotOf (g : Ring) (q : Word) : Nat := q.toNat % g.slots.length
/-- The state of that slot. -/
def Ring.at (g : Ring) (q : Word) : Slot := g.slots.getD (g.slotOf q) .empty
/-- Setting the state of that slot. -/
def Ring.set (g : Ring) (q : Word) (x : Slot) : Ring := { g with slots := g.slots.set (g.slotOf q) x }
/-- Slot TL holds sequence number TL and is F (R154). -/
def Ring.fullAtTail (g : Ring) : Bool := match g.at g.tl with | .full _ => true | _ => false
/-- Slot HD is E (R154). -/
def Ring.emptyAtHead (g : Ring) : Bool := g.at g.hd == .empty
/-- The sequence number of the K slot of lowest sequence number: the furthest behind TL (R154). -/
def Ring.lowestTaken (g : Ring) : Option Word :=
  g.slots.foldl (fun acc x => match x, acc with
    | .taken q, none => some q
    | .taken q, some p => if (g.tl - p).toNat < (g.tl - q).toNat then some q else some p
    | _, acc => acc) none
/-- The address word of a sequence number's slot (R153). -/
def Ring.address (g : Ring) (q : Word) : Word :=
  .ofNat 32 (g.base + g.slotOf q * g.size) ||| (if q.toNat / g.slots.length % 2 = 1 then 0x80000000 else 0)
/-- Changing a ring of a team. -/
def Team.modRing (t : Team) (k : Nat) (f : Ring → Ring) : Team := { t with rings := t.rings.modify k f }

/-! ## Starting an operation (R145, R146, R155, R334) -/

/-- Bit t of a 64-bit mask. -/
def bit64 (t : Nat) : DWord := 1#64 <<< t
/-- Operations a pre-emption would capture (R334). -/
def OpKind.capturable : OpKind → Bool
  | .cpy .. => true
  | .cpyt .. => true
  | .rows .. => true
  | .mrch .. => true
  | _ => false

/-- The issue waits of an operation: its tag still pending, the head slot of its ring not empty, a 65th capturable operation
(R146, R155, R334). -/
def State.issueWait (s : State) (tm : Team) (c : Completion) (k : OpKind) : Except Stop Unit :=
  if (c.tag.map tm.tg.getLsbD).getD false then .error (.wait .tag s)
  else if !c.out && (match c.ring with | some n => !(tm.rings.getD n default).emptyAtHead | none => false) then
    .error (.wait .ring s)
  else if k.capturable && 64 ≤ (s.ops.filter fun o => o.tid == tm.tid && o.kind.capturable).length then
    .error (.wait .captures s)
  else .ok ()

/-- Binding a tag: its bit is set, its error state cleared (R146). -/
def Team.bind (t : Team) (tag : Nat) : Team :=
  { t with
    tg := t.tg ||| bit64 tag, bound := t.bound ||| bit64 tag, tagErr := t.tagErr &&& ~~~(bit64 tag)
    tagReason := t.tagReason.filter (·.1 != tag) }

/-- Starting an operation. -/
def State.startOp (s : State) (r : GRef) (c : Completion) (k : OpKind) : Except Stop State := do
  let tm := s.teamOf r
  s.issueWait tm c k
  let (id, s) := s.fresh
  let s := s.modTeam r.tid fun t =>
    let t := match c.tag with | some n => t.bind n | none => t
    match c.ring with
    | some n => if c.out then t else t.modRing n fun g => { g.set g.hd (.writing g.hd) with hd := g.hd + 1 }
    | none => t
  -- the slot an inward copy fills is the head slot at issue
  let seq := match c.ring with | some n => (tm.rings.getD n default).hd | none => 0
  return { s with ops := s.ops ++ [⟨id, tm.ctx, r.tid, r.slot, k, c.tag, c.ring, seq, 0, 0, false, [], [], [], none, false, [], [], false⟩] }

/-! ## Ending an operation (R147, R155) -/

/-- The core a team's operations run on. -/
def State.coreOf (s : State) (tid : Nat) : Nat := ((s.team? tid).map (·.core)).getD 0

/-- The tag of a completed operation: its bit clears; a reason sets the error bit (R147). -/
def Team.unbind (t : Team) (tag reason : Nat) : Team :=
  { t with
    tg := t.tg &&& ~~~(bit64 tag)
    tagErr := if reason = 0 then t.tagErr else t.tagErr ||| bit64 tag
    tagReason := if reason = 0 then t.tagReason else setAssoc t.tagReason tag reason }

/-- The physical address of the poisoned granule that an operation met, in device or host memory; that of a granule in another
package's memory is not known here (R394; log entry 10). -/
def State.granuleAt (s : State) (c : Context) (va : DWord) : Option DWord :=
  match s.walk c.l0 va with
  | .error _ => none
  | .ok l => match l.home va with
    | .here x => some (.ofNat 64 (x.addr / 64 * 64))
    | .atHost a => some (.ofNat 64 (a / 64 * 64))
    | .atPeer _ => none
/-- The error record of an operation that met a reason (R147, R394): ADDR is the physical address of its poisoned granule; of the
other reasons the manual states none (log entry 10). -/
def State.engineError (s : State) (ctx core reason : Nat) (at_ : Option DWord) : State :=
  if reason = 0 then s else
  let (lo, s) := s.freeWord
  let (hi, s) := s.freeWord
  s.errRecord (dieOf core) 5 11 core ctx (if reason = 4 then at_.getD (hi ++ lo) else hi ++ lo) (.ofNat 32 reason)

/-- An operation that has completed: its error record, its tag, and what waited for it to end. -/
def State.endOp (s : State) (o : Op) (reason : Nat) : State :=
  let s := s.engineError o.ctx (s.coreOf o.tid) reason o.bad
  let s := s.modTeam o.tid fun t => match o.tag with
    | some n => t.unbind n reason
    | none => t
  ({ s with ops := s.ops.filter (·.id != o.id) }).freeTeams

/-- The ring event of a completing copy: its own slot published, or the K slot of lowest sequence number released; the
number the record takes, and the change (R155, R361). -/
def Team.ringEvent (t : Team) (n : Nat) (out : Bool) (seq : Word) : Word × (Ring → Ring) :=
  if out then
    match (t.rings.getD n default).lowestTaken with
    | some q => (q, fun g => g.set q .empty)
    | none => (0xFFFFFFFF, fun g => g)
  else (seq, fun g => g.set seq (.full seq))

/-- The party of an operation (R360). -/
def State.opParty (s : State) (o : Op) : Party := ((s.team? o.tid).getD default).party o.slot 0 true

/-- Completing an operation with its writes performed: a ring event is first offered to the manifest and may hold the
completion or diverge (R155, R156, R364, R367). -/
def State.completeOp (s0 s : State) (o : Op) (out : Bool) (reason : Nat) : State :=
  match o.ring with
  | none => s.endOp o reason
  | some n =>
    let t := (s.team? o.tid).getD default
    let (q, f) := t.ringEvent n out o.seq
    let c := (s.context? o.ctx).getD default
    let ev : RecEvent := ⟨if out then 4 else 3, s.opParty o, .ofNat 64 n, q, t.core, none⟩
    match s.gate c [ev] with
    | .hold => s0
    | .go s => (s.modTeam o.tid fun t => t.modRing n f).endOp o reason
    | .diverge i =>
      (s.dueTrap ⟨o.tid, o.slot⟩ ⟨.replayDivergence, 0, .ofNat 64 i⟩).endOp o 5

/-! ## Chunk accesses -/

/-- The view of an operation. -/
def State.opView (s : State) (o : Op) : View := ⟨s, (s.context? o.ctx).getD default, o.got⟩

/-- The reason a failed chunk read gives (R147, R349). -/
def RdFail.reason : RdFail → Nat
  | .page _ => 2
  | .protection 28 _ => 5
  | .protection _ _ => 3
  | .poison _ => 4
  | _ => 0

/-- The reason an operation keeps of two it met: the first in the order of R147's table. -/
def firstReason (a b : Nat) : Nat := if a = 0 then b else if b = 0 then a else Nat.min a b

/-- What an operation's evaluation gives: it needs a line first, it waits, or it has its results. -/
abbrev OpM := Rd

/-- A failed read of an operation: its reason, and what is kept of it. -/
def RdFail.noted (e : RdFail) : OpM Nat := do
  modify fun log => { log with
    bad := match e with | .poison va => log.bad <|> some va | _ => log.bad
    cut := log.cut || e.reason == 5 }
  return e.reason
/-- A chunk read: its bytes; a failed read gives none of them and its reason. A line still to be asked for, or a page being moved,
stops the evaluation. -/
def View.chunk (v : View) (va : DWord) (n : Nat) : OpM (Option (List Byte) × Nat) := do
  match ← settled (v.read va n) with
  | .ok bs => return (some bs, 0)
  | .error e => return (none, ← e.noted)

/-- A window that an operation works on: its team, the swizzle, and the bits of the address that name the member (R133, R134). -/
structure ScrWin where
  tid : Nat
  swz : Nat
  name : DWord
/-- The window of a scratchpad operand of an operation; none when that member has ended. -/
def State.opWin (s : State) (o : Op) (swz : Nat) (w : Word) : Option ScrWin :=
  (s.scrTid ((s.team? o.tid).getD default) w).map fun tid => ⟨tid, swz, scrVal (w &&& 0xF0000000)⟩
/-- The team of a window. -/
def State.winTeam (s : State) (w : ScrWin) : Team := (s.team? w.tid).getD default
/-- The runs of bytes from an offset of a window, as an operation names them (R361). -/
def ScrWin.runs (w : ScrWin) (off n : Nat) : List Run := scrRuns w.swz off n (w.name + .ofNat 64 off)

/-- What an operation reads of a window at its issue takes its places as chunk reads of the operation (R152, R242, R252). -/
def State.issueReads (s : State) (r : GRef) (g : Group) (w : ScrWin) (off n : Nat) : Except Stop State := do
  let t := s.teamOf r
  let c := s.ctxOf t
  let (s', races) := (chunks off n).foldl (fun (acc : State × List RecEvent) (a, k) =>
    let v : Visitor := ⟨c, t.core, if g.priv then none else some (t.party r.slot 0 true), false, acc.2.length⟩
    let (s, e) := acc.1.visitAll v (some w.tid) (w.runs a k) false
    (s, acc.2 ++ e)) (s, [])
  s.gateGroup s' c g.priv races

/-- A write of an operation: to a virtual address, of one nibble there, or a poisoned granule there; to a window from a logical
offset, whose block then holds the interim mark, or a poisoned granule there; a chunk read of a window, whose place in the order it
takes, or a read of a line elsewhere that its owner has answered; and the mark of a block after one of its chunks: with the last its
final one, carried from the source or judged, else the interim one (R135, R147, R165, R243). -/
inductive OpWrite where
  | glob (va : DWord) (bs : List Byte)
  | nibble (va : DWord) (high : Bool) (v : Nat)
  | globPoison (va : DWord) (n : Nat)
  | scr (w : ScrWin) (off : Nat) (bs : List Byte)
  | scrPoison (w : ScrWin) (off n : Nat)
  | seenScr (w : ScrWin) (off n : Nat)
  | seenFar (line : Nat) (va : DWord) (n : Nat)
  | mark (w : ScrWin) (block : Nat) (writer : Writer) (last : Bool) (carried : Option Mark)

/-- What a chunk's evaluation answers: its writes, the reason met, what the operation has read and not yet used, and what else it
changes. -/
structure ChunkRes where
  writes : List OpWrite := []
  reason : Nat := 0
  keep : List Piece → List Piece := id
  after : State → State := id

/-- The order in which an operation performs n chunks that the manual leaves unordered: a free one (R242, R246; log entry 13). -/
def chunkOrder (id n : Nat) : List Nat := sortBy (fun i j => Config.freeOrder id i ≤ Config.freeOrder id j) (List.range n)
/-- The chunk performed as number c of n. -/
def nthChunk (id n c : Nat) : Nat := (chunkOrder id n).getD c c

/-- Chunk writes that other agents perform: the address, the bytes, what is asked, and the leaf. -/
abbrev Sends := List (DWord × Nat × Ask × Leaf)

/-- An operation as a party of its own, after some events of the same chunk (R242, R370). -/
def State.opVisitor (s : State) (o : Op) (before : Nat) : Visitor :=
  ⟨(s.context? o.ctx).getD default, s.coreOf o.tid, some (s.opParty o), false, before⟩

/-- The half bytes of runs of bytes. -/
def halves (pieces : List (Nat × Nat)) : List (Nat × Nat) := pieces.map fun x => (2 * x.1, 2 * x.2)
/-- Runs of half bytes cover a granule. -/
def coversHalves (spans : List (Nat × Nat)) (g : Nat) : Bool :=
  (List.range 128).all fun i => spans.any fun (a, n) => a ≤ 128 * g + i && 128 * g + i < a + n
/-- The poison that an operation's write into poisoned granules clears, and what it has written of them (R393): a granule is
cleared at the operation's last chunk into it when its chunks cover it. -/
def Op.cover (o : Op) (space : Nat) (poison : List Nat) (runs : List (Nat × Nat)) : Op × List Nat :=
  let hit := (runs.flatMap fun (a, n) => granules (a / 2) ((a + n + 1) / 2 - a / 2)).eraseDups.filter poison.contains
  if hit.isEmpty then (o, []) else
  let o : Op := { o with spans := o.spans ++ runs.map fun x => (space, x.1, x.2) }
  let mine : List (Nat × Nat) := (o.spans.filter (·.1 == space)).map (·.2)
  let clear := hit.filter (coversHalves mine)
  ({ o with spans := o.spans.filter fun x => !(x.1 == space && clear.contains (x.2.1 / 128)) }, clear)
/-- The space of a location for that. -/
def Loc.space : Loc → Nat
  | .dev _ => 0
  | .host _ => 1

/-- Writing runs of half bytes at a location, with the poison they clear. -/
def Op.putAt (o : Op) (s : State) (l : Loc) (bs : List Byte) (runs : List (Nat × Nat)) : Op × State :=
  let (o, clear) := o.cover l.space (s.poisonOf l) runs
  (o, (s.putBytes l bs).unpoison l clear)
/-- The mark of a block after one of an operation's chunks into it (R135, R243). -/
def Op.putMark (o : Op) (s : State) (tid b : Nat) (writer : Writer) (last : Bool) (carried : Option Mark) : Op × State :=
  if last then
    ({ o with busy := o.busy.filter (· != (tid, b)) }, (s.modTeam tid fun t => t.setMark b (match carried with
      | some k => if t.wholeBlock b then k else t.byteRule writer b
      | none => t.byteRule writer b)).interim (some o.id) tid [b])
  else
    ({ o with busy := if o.busy.contains (tid, b) then o.busy else (tid, b) :: o.busy },
      s.modTeam tid fun t => t.setMark b Mark.general)

/-- One write of an operation performed at its place; one sent to an owner takes its place too (R237, R347). -/
def performWrite (o : Op) (before : Nat) (s : State) (x : OpWrite) (d : Option Dest) : Op × State × List RecEvent :=
  let v := s.opVisitor o before
  match x, d with
  | .glob va bs, some (.here l) =>
    let (s, evs) := s.visitAll v none (lineRuns l.line l.addr bs.length va) true
    let (o, s) := o.putAt s l bs (halves [(l.addr, bs.length)])
    (o, s, evs)
  | .glob va bs, some (.far l) =>
    let (s, evs) := s.visitAll v none (lineRuns (l.line va) va.toNat bs.length va) true
    (o, s, evs)
  | .nibble va high k, some (.here l) =>
    let (s, evs) := s.visitAll v none (lineRuns l.line l.addr 1 va) true (some high)
    let old := ((s.bytesAtLoc l 1).headD 0).toNat
    let (o, s) := o.putAt s l [.ofNat 8 (if high then old % 16 + 16 * k else old / 16 * 16 + k)] [(2 * l.addr + high.toNat, 1)]
    (o, s, evs)
  | .nibble va high _, some (.far l) =>
    let (s, evs) := s.visitAll v none (lineRuns (l.line va) va.toNat 1 va) true (some high)
    (o, s, evs)
  | .globPoison va n, some (.here l) =>
    let (s, evs) := s.visitAll v none (lineRuns l.line l.addr n va) true
    (o, s.spoilLoc l (granules l.addr n), evs)
  | .globPoison va n, some (.far l) =>
    let (s, evs) := s.visitAll v none (lineRuns (l.line va) va.toNat n va) true
    (o, s, evs)
  | .scr w off bs, _ =>
    let (s, evs) := s.visitAll v (some w.tid) (w.runs off bs.length) true
    let (o, clear) := o.cover (2 + w.tid) (s.winTeam w).scrPoison (halves (scrPieces w.swz off bs.length))
    (o, s.modTeam w.tid fun t =>
      let t := (blocksOf off bs.length).foldl (fun t b => t.setMark b Mark.general) (t.scrPut w.swz off bs)
      { t with scrPoison := t.scrPoison.filter (!clear.contains ·) }, evs)
  | .scrPoison w off n, _ =>
    let (s, evs) := s.visitAll v (some w.tid) (w.runs off n) true
    (o, s.modTeam w.tid fun t =>
      { t with scrPoison := ((scrGranules w.swz off n).filter (!t.scrPoison.contains ·)) ++ t.scrPoison }, evs)
  | .seenScr w off n, _ =>
    let (s, evs) := s.visitAll v (some w.tid) (w.runs off n) false
    (o, s, evs)
  | .seenFar line va n, _ =>
    let (s, evs) := s.visitAll v none (lineRuns line va.toNat n va) false
    (o, s, evs)
  | .mark w b writer last carried, _ =>
    let (o, s) := o.putMark s w.tid b writer last carried
    (o, s, [])
  | _, _ => (o, s, [])

/-- Where a write to a virtual address goes; with nothing further to be sent, one elsewhere is a `remote` failure (R147). -/
def OpWrite.dest (x : OpWrite) (v : View) (cut : Bool) : OpM (Option Dest) := do
  let goes (va : DWord) (n : Nat) : OpM (Option Dest) := do
    match ← v.dest va n with
    | .far l => return some (if cut then .fail 5 else .far l)
    | d => return some d
  match x with
  | .glob va bs => goes va bs.length
  | .nibble va _ _ => goes va 1
  | .globPoison va n => goes va n
  | _ => return none
/-- What a write asks of an owner elsewhere. -/
def OpWrite.send : OpWrite → Option (DWord × Nat × Ask)
  | .glob va bs => some (va, bs.length, .write bs)
  | .nibble va high k => some (va, 1, .nibble high k)
  | .globPoison va n => some (va, n, .spoil)
  | _ => none

/-- Performing an operation's writes at their places, after some events of the same chunk: the operation, the state, the writes to
send elsewhere, the reason met, and the races (R147, R370, R393). A line elsewhere that is in another's hands stops it. -/
def performWrites (o : Op) (before : Nat) (all : List OpWrite) (s : State) : OpM (Op × State × Sends × Nat × List RecEvent) := do
  let v := s.opView o
  let ds ← all.mapM fun x => x.dest v o.cut
  let sends : Sends := (all.zip ds).filterMap fun (x, d) => match x.send, d with
    | some (va, n, k), some (.far l) => some (va, n, k, l)
    | _, _ => none
  if sends.any fun (va, _, _, l) => s.taken (.op o.id 0) (l.line va) true then throw .frozen
  let reason := ds.foldl (fun r d => firstReason r (match d with | some (.fail k) => k | _ => 0)) 0
  let (o, s, evs) := (all.zip ds).foldl (fun (acc : Op × State × List RecEvent) (x, d) =>
    let (o, s, e) := performWrite acc.1 (before + acc.2.2.length) acc.2.1 x d
    (o, s, acc.2.2 ++ e)) (o, s, [])
  return (o, s, sends, reason, evs)

/-- Sending the writes of a chunk that owners elsewhere perform, each inside one line; a line that the chunk touches counts once,
`seen` being those it has read (R350). After one that cannot be sent, a `remote` failure, nothing further is sent (R147). -/
def State.sendWrites (s : State) (o : Op) (seen : List Nat) (sends : Sends) : State :=
  let c := (s.context? o.ctx).getD default
  (sends.zipIdx.foldl (fun (acc : State × Bool) (x, i) =>
    let (s, cut) := acc
    let (va, n, k, l) := x
    if cut then acc else
    let first := !(sends.take i).any (fun y => y.2.2.2.line y.1 == l.line va) && !seen.contains (l.line va)
    match s.askOwner c (.op o.id 0) va n k l first true with
    | some s => (s.modOp o.id fun o => { o with waits := o.waits ++ [s.nextId - 1] }, false)
    | none => (s.modOp o.id fun o => { o with reason := firstReason o.reason 5, cut := true }, true)) (s, o.cut)).1

/-- An owner has refused what an evaluation asked: nothing further is sent (R147). -/
def Op.refused (o : Op) : Bool := o.cut || o.got.any fun y => y.idx < 2 ^ 100 && y.stat != 0 && y.stat != 4
/-- Asking for what an operation's evaluation needs, or failing it; while its line is in another's hands it gives up what it has. -/
def State.needFor (s : State) (o : Op) (key : Nat) (va : DWord) (n : Nat) : State :=
  let c := (s.context? o.ctx).getD default
  if s.blocked c (.op o.id key) va then s.modOp o.id fun o => { o with got := [] }
  else match (if o.refused then none else s.askFor c (.op o.id key) va n) with
    | some s => s.modOp o.id fun o => { o with waits := o.waits ++ [s.nextId - 1] }
    | none => s.modOp o.id fun o => { o with got := ⟨key, 1, []⟩ :: o.got }

/-- The key of the i-th remote piece's reply. -/
def pieceKey (i : Nat) : Nat := 2 ^ 100 + i
/-- An operation after one of its chunks: no copy of a line elsewhere is kept beyond the access (R247), and after a remote failure
nothing further is sent (R147). -/
def Op.chunkDone (o : Op) (reason : Nat) (cut : Bool) : Op :=
  { o with done := o.done + 1, reason := firstReason o.reason reason, got := [], cut := o.cut || cut }

/-- The first poisoned granule that a chunk met: in memory, or in a window it read (R394). -/
def State.badAt (s : State) (c : Context) (log : RdLog) (ws : List OpWrite) : Option DWord :=
  (log.bad.bind (s.granuleAt c)) <|> ws.findSome? fun x => match x with
    | .seenScr w off n => ((chunks off n).find? fun (a, k) => (s.winTeam w).scrPoisoned w.swz a k).map
        fun (a, _) => .ofNat 64 (a / 64 * 64)
    | _ => none
/-- What a chunk stored here or sent, which may have armed reduction descriptors (R379). -/
def OpWrite.stored : OpWrite → Option (DWord × Nat)
  | .glob va bs => some (va, bs.length)
  | .nibble va _ _ => some (va, 1)
  | _ => none
/-- One step of an operation of `total` chunks: its next chunk is evaluated, which may first need a line of an owner, takes its
places, and sends its writes elsewhere, which the next chunk awaits; with the last chunk done and acknowledged the operation
completes, with its ring event (R242, R334). -/
def State.runOp (s : State) (id : Nat) (out : Op → Bool) (total : Op → Nat) (eval : Op → View → Nat → OpM ChunkRes) : State :=
  match s.op? id with
  | none => s
  | some o =>
    if o.captured || !o.waits.isEmpty then s
    else if total o ≤ o.done then s.completeOp s o (out o) o.reason
    else
    let c := (s.context? o.ctx).getD default
    match (do
      let x ← eval o (s.opView o) o.done
      let log ← get
      -- its reads take their places before its writes
      let (s1, reads) := s.visitReads (s.opVisitor o 0) log.reads
      let (o', s', sends, r2, evs) ← performWrites { o with cut := o.cut || log.cut, seen := x.keep o.seen } reads.length x.writes s1
      let o' : Op := { o' with bad := o.bad <|> s.badAt c log x.writes }
      return (x, o'.chunkDone (firstReason x.reason r2) (r2 == 5), x.after s', sends, reads ++ evs) : OpM _).run with
    | .error (.need key va n) => s.needFor o key va n
    | .error _ => s.modOp id fun o => { o with got := [] }
    | .ok ((x, o', s', sends, evs), log) =>
      match (if evs.isEmpty then .go s' else s'.gate c evs) with
      | .go s' =>
        let seen := log.reads.filterMap fun y => s.farLine c y.1
        let s' := ((s'.modOp id fun _ => o').sendWrites o' seen sends).armWrites c (x.writes.filterMap OpWrite.stored)
        match s'.op? id with
        | some o' => if total o' ≤ o'.done && o'.waits.isEmpty then s.completeOp s' o' (out o) o'.reason else s'
        | none => s'
      | _ => s

end Sys2Proof.Machine
end

