-- ==== Sys2Proof/Machine/System.lean ====
section
/-! DEFINITION. Random draws, identifiers, system registers and the wait for a grid (R26, R96, R124 to R128, R220). -/
namespace Sys2Proof.Machine

/-! ## Random draws (R124, R125) -/

/-- The multiplier A of R124. -/
def lcgA : Nat := 0xD3A26B1C47E09F5581C62B7AE39D4C2D
/-- The increment C of R124. -/
def lcgC : Nat := 0x6C5F0E83B92A1D47
/-- The k-fold step of the sequence as a multiplier and an increment, for k below 2^fuel. -/
def lcgJump : Nat → Nat → Nat × Nat
  | 0, _ => (1, 0)
  | fuel + 1, k =>
    let (m, a) := lcgJump fuel (k / 2)
    let (m, a) := (m * m % 2 ^ 128, (m * a + a) % 2 ^ 128)
    if k % 2 = 1 then (lcgA * m % 2 ^ 128, (lcgA * a + lcgC) % 2 ^ 128) else (m, a)
/-- X(f, k) from the seed and the global fibre identifier (R124). -/
def lcgX (seed gfid : DWord) (k : Nat) : Nat :=
  let (m, a) := lcgJump 65 k
  (m * (seed.toNat * 2 ^ 64 + gfid.toNat) + a) % 2 ^ 128
/-- out(X) (R124). -/
def lcgOut (x : Nat) : Word := .ofNat 32 (x / 2 ^ 96 ^^^ x / 2 ^ 45)

/-- The draw index of fibre f. -/
def Group.drawAt (g : Group) (f : Nat) : DWord := g.draw.getD f 0
/-- A fibre's draw index changes when it is active, passes the guard and is no helper (R125). -/
def Group.draws (g : Group) (f : Nat) : Bool := g.on f && !g.isHelper f
/-- The draw indices with those of the drawing fibres changed. -/
def Group.setDraws (g : Group) (n : Nat → DWord) : Group :=
  { g with draw := fibres.map fun f => if g.draws f then n f else g.drawAt f }

/-- The grid of a team. -/
def State.gridOf (s : State) (t : Team) : Grid := (s.grid? t.ctx t.serial).getD default

/-- RNG (R125). -/
def execRng (m : Bool) (d : VReg) : State → Out :=
  runWord (.rng m d) { s := m } fun s r g => do
    let seed := (s.gridOf (s.teamOf r)).seed
    let g' ← g.result d 2 g.on fun f => (lcgOut (lcgX seed (g.gfid.getD f 0) ((g.drawAt f).toNat + 1)), 0)
    return (s, g'.setDraws fun f => g.drawAt f + 1)
/-- RNGJ (R125). -/
def execRngj (m : Bool) (a : VReg) : State → Out :=
  runGroup (.rngj m a) { s := m, once := Group.someOn } fun g => do
    let k ← g.uniform a
    return g.setDraws fun f => g.drawAt f + (if k.toNat < 64 then 1#64 <<< k.toNat else 0)
/-- RNGS (R125). -/
def execRngs (m : Bool) (a : VReg) : State → Out :=
  runGroup (.rngs m a) { s := m } fun g => .ok (g.setDraws (g.rd2 a))
/-- Writing a pair with a U result. -/
def Group.putU2 (g : Group) (d : VReg) (x : DWord) : Group :=
  (g.putU d (x.extractLsb' 0 32)).putU (nextReg d) (x.extractLsb' 32 32)
/-- CLK (R125, R126). -/
def execClk (m : Bool) (d : VReg) : State → Out :=
  runGroup (.clk m d) { s := m } fun g => .ok (g.putU2 d g.retired)

/-- The global fibre identifier of fibre f of slot `slot` in the team of linear index `lin` (R127). -/
def gfidOf (lin slot f : Nat) : DWord := .ofNat 64 (lin * 1024 + slot * 16 + f)
/-- GID (R127, R231). -/
def execGid (m : Bool) (d : VReg) (k : BitVec 6) : State → Out :=
  runWord (.gid m d k) { s := m } fun s r g => do
    let t := s.teamOf r
    let unknown (x : Word) : Word := if t.cont then 0xFFFFFFFF else x
    let val (f : Nat) : Word := match k.toNat with
      | 0 => .ofNat 32 (r.slot * 16 + f)
      | 1 => unknown (.ofNat 32 t.lin)
      | 2 => unknown ((gfidOf t.lin r.slot f).setWidth 32)
      | _ => unknown ((gfidOf t.lin r.slot f).extractLsb' 32 32)
    return (s, ← g.result d (if k.toNat % 2 = 0 then 1 else 0) g.on fun f => (val f, 0))

/-! ## System registers (R26, R128, R220) -/

/-- A register that unprivileged code may not access (R26). -/
def sysPrivate (n : Nat) : Bool := 0x020 ≤ n && n ≤ 0x028
/-- A register that may be written in this mode (R26). -/
def sysWritable (priv : Bool) (n : Nat) : Bool := n == 0x010 || (priv && (n == 0x011 || (0x020 ≤ n && n ≤ 0x023)))
/-- One word of a pair. -/
def half (x : DWord) (n : Nat) : Word := x.extractLsb' (32 * (n % 2)) 32
/-- `id.conv` (R26): the member count less one and the member index. -/
def State.convReg (s : State) (t : Team) : Word :=
  match t.convoy, s.convoyOf t with
  | some (_, i), some v => .ofNat 32 ((v.members - 1) * 256 + i)
  | _, _ => 0
/-- What a system register reads as (R26, R220). -/
def State.sysRead (s : State) (r : GRef) (g : Group) (n : Nat) : Word :=
  let t := s.teamOf r
  let c := s.ctxOf t
  let x := s.gridOf t
  let coord (k : Nat) : Word := if t.cont then 0xFFFFFFFF else .ofNat 32 k
  match n with
  | 0x001 => .ofNat 32 r.slot
  | 0x002 => coord (t.lin % x.gx)
  | 0x003 => coord (t.lin / x.gx % x.gy)
  | 0x004 => coord (t.lin / (x.gx * x.gy))
  | 0x005 => .ofNat 32 x.gx
  | 0x006 => .ofNat 32 x.gy
  | 0x007 => .ofNat 32 x.gz
  | 0x008 => .ofNat 32 t.core
  | 0x009 => .ofNat 32 x.depth
  | 0x00A => .ofNat 32 t.ctx
  | 0x00B => s.convReg t
  | 0x00C => half (token t.ctx t.serial) 0
  | 0x00D => half (token t.ctx t.serial) 1
  | 0x010 => g.flags
  | 0x011 => c.lodLost
  | 0x012 => .ofNat 32 (c.pinq * 65536 + c.pinned.length)
  | 0x020 => g.cause
  | 0x021 => g.epc
  | 0x022 => half g.tval 0
  | 0x023 => half g.tval 1
  | 0x024 => half c.code 0
  | 0x025 => half c.code 1
  | 0x026 => half c.save 0
  | 0x027 => half c.save 1
  | 0x028 => .ofNat 32 c.recMode
  | _ => 0
/-- RDSYS (R26, R128): `id.fibre` is affine, every other register uniform; no extension is implemented, so `sys.feat0`
reads 0. -/
def execRdsys (m : Bool) (d : VReg) (n : BitVec 12) : State → Out :=
  runWord (.rdsys m d n) { s := m } fun s r g => do
    if n = 0 then
      return (s, ← g.result d 1 g.on fun f => (.ofNat 32 f, 0))
    check (g.priv || !sysPrivate n.toNat) (protect 7)
    return (s, g.putU d (s.sysRead r g n.toNat))
/-- Writing a system register of a group (R26, R27, R28). -/
def Group.sysWrite (g : Group) (n : Nat) (w : Word) : Group :=
  match n with
  | 0x010 => { g with flags := w &&& flagsMask }
  | 0x020 => { g with cause := w &&& 0x8000FFFF }
  | 0x021 => { g with epc := w }
  | 0x022 => { g with tval := g.tval.extractLsb' 32 32 ++ w }
  | 0x023 => { g with tval := w ++ g.tval.extractLsb' 0 32 }
  | _ => g
/-- WRSYS (R26, R128). DESIGN CHOICE (log entry 101): va is read, and may be nonuniform, also when no active fibre passes the guard. -/
def execWrsys (m : Bool) (a : VReg) (n : BitVec 12) : State → Out :=
  runWord (.wrsys m a n) { s := m } fun s r g => do
    let w ← g.uniform a
    check (g.priv || !sysPrivate n.toNat) (protect 7)
    check (sysWritable g.priv n.toNat) (protect 8)
    if g.ons.isEmpty then return (s, g)
    if n = 0x011 then return (s.modContext (s.teamOf r).ctx fun c => { c with lodLost := w }, g)
    else return (s, g.sysWrite n.toNat w)

/-! ## Waiting for a grid (R96) -/

/-- LWAIT (R96): parks until the grid retires; status 0 retired, 1 lost, 2 no grid of this context. -/
def execLwait (m : Bool) (d a : VReg) : State → Out :=
  runWord (.lwait m d a) { s := m, syncs := true, once := Group.someOn } fun s r g => do
    let tk ← g.uniform2 a
    let c := (s.teamOf r).ctx
    match (if tk.toNat / 2 ^ 32 = c then s.grid? c (tk.toNat % 2 ^ 32) else none) with
    | none => return (s, g.putU d 2)
    | some x =>
      if x.lost then return (s, g.putU d 1)
      -- what follows comes after every access of the grid (R314)
      else if x.retired then return (s.catchUp c (s.teamOf r).core, g.putU d 0)
      else .error (.wait .grid s)

end Sys2Proof.Machine
end

