-- ==== Sys2Proof/Machine/Launch.lean ====
section
/-! DEFINITION. Launch records and side blocks, acceptance, and `launch` (R29, R95, R211 to R217, R309 to R316). -/
namespace Sys2Proof.Machine

/-! ## Records (R211 to R216) -/

/-- A launch record's fields. -/
structure Record where
  pri : Nat
  queue : Nat
  ndep : Nat
  conv : Nat
  nmat : Nat
  ncpy : Nat
  gx : Nat
  gy : Nat
  gz : Nat
  tbase : Nat
  tags : Nat
  bud : Nat
  grp : Nat
  rings : Nat
  acc : Nat
  scr : Nat
  ntgt : Nat
  pgrp : Nat
  side : DWord
  seed : DWord
  args : DWord
  deps : List Nat
  reserved : Bool
  deriving DecidableEq, Repr, Inhabited

/-- Reading a record; the ORG bit submitted is ignored (R212). -/
def recordOf (bs : List Byte) : Record :=
  let f (off lo n : Nat) : Nat := bytesAt bs off 4 / 2 ^ lo % 2 ^ n
  let ndep := f 0 21 3
  ⟨f 0 28 3, f 0 24 4, ndep, f 0 17 4, f 0 7 7, f 0 0 7,
    bytesAt bs 4 4 + 1, f 8 0 16 + 1, f 8 16 16 + 1,
    f 0x0C 24 7, f 0x0C 16 7, f 0x0C 8 7, f 0x0C 0 6,
    f 0x10 18 5, f 0x10 12 6, f 0x10 0 12, f 0x14 16 5, f 0x14 0 16,
    .ofNat 64 (bytesAt bs 0x18 8), .ofNat 64 (bytesAt bs 0x20 8), .ofNat 64 (bytesAt bs 0x28 8),
    (List.range (Nat.min ndep 4)).map fun i => bytesAt bs (0x30 + 4 * i) 4,
    f 0 14 3 != 0 || f 0x0C 31 1 != 0 || f 0x0C 23 1 != 0 || f 0x0C 15 1 != 0 || f 0x0C 6 2 != 0 || f 0x10 23 9 != 0
      || f 0x14 21 11 != 0⟩

/-- Teams of a launch. -/
def Record.teams (x : Record) : Nat := x.gx * x.gy * x.gz
/-- A record whose own fields break R216. -/
def Record.bad (x : Record) : Bool :=
  x.reserved || 4 < x.ndep || x.conv == 1 || 8 < x.conv || x.grp + 1 < x.nmat + x.ncpy
    || (x.tbase != 127 && 64 < x.tbase + x.tags) || x.bud < 4 || 64 < x.bud || 64 < x.tags || 32 < x.acc || 16 < x.rings
    || 2048 < x.scr || 16 < x.ntgt || (0 < x.ntgt) != (0 < x.pgrp) || 2 ^ 32 < x.teams
    || (x.conv != 0 && x.teams % x.conv != 0) || x.side == 0 || x.side.toNat % 64 != 0

/-! ## Side blocks (R217) and the shape map image (R29) -/

/-- A side block's contents. -/
structure Side where
  entry : Word
  image : List VVal
  stage : DWord
  stageB : Nat
  arriv : Nat
  rings : List RingEntry
  targets : List Target
  /-- The constant bytes found with it (R241). -/
  const : Memory
  constBad : List (Nat × Trap)
  deriving DecidableEq, Repr, Inhabited

/-- The 64 tags of a tag map. -/
def tagsOf (bs : List Byte) : List Nat := (List.range 64).map fun n => bytesAt bs (n / 4) 1 / 4 ^ (n % 4) % 4
/-- Words a tag costs (R15). -/
def tagCost (t : Nat) : Nat := match t with | 0 => 1 | 1 => 2 | _ => 16
/-- A register of a tag from its words. -/
def vvalOf (t : Nat) (ws : List Word) : VVal :=
  match t with
  | 0 => .uni (ws.getD 0 0)
  | 1 => .aff (ws.getD 0 0) (ws.getD 1 0)
  | _ => .gen ((List.range 16).map fun i => ws.getD i 0)
/-- The registers of tags from their words in order. -/
def vvalsOf : List Nat → List Word → List VVal
  | [], _ => []
  | t :: ts, ws => vvalOf t (ws.take (tagCost t)) :: vvalsOf ts (ws.drop (tagCost t))
/-- The registers of an image (R29). -/
def imageOf (bs : List Byte) : List VVal := vvalsOf (tagsOf bs) (bytesWords (bs.drop 16) ((bs.length - 16) / 4))
/-- The bytes of registers as an image (R29). -/
def imageBytes (v : List VVal) : List Byte :=
  (List.range 16).map (fun i => .ofNat 8 ((List.range 4).foldl (fun acc j => acc + (v.getD (4 * i + j) (.uni 0)).rank * 4 ^ j) 0))
    ++ v.flatMap fun x => match x with
      | .uni w => wordBytes [w]
      | .aff b s => wordBytes [b, s]
      | .gen ws => wordBytes ((List.range 16).map fun f => ws.getD f 0)

/-- The payload registers made general, as a continuation group starts (R16). -/
def payloadTags (ts : List Nat) (payB : Nat) : List Nat := List.replicate (payB / 4) 2 ++ ts.drop (payB / 4)
/-- A ring entry in a window of n bytes (R217). -/
def RingEntry.bad (x : RingEntry) (n : Nat) : Bool :=
  x.base % 16 != 0 || x.nslot < 2 || 256 < x.nslot || !(List.range 9).any (fun k => x.nslot == 2 ^ k) || x.sz16 = 0
    || 4096 < x.sz16 || n < x.base + x.nslot * x.sz16 * 16
/-- Two rings that overlap. -/
def ringsOverlap : List RingEntry → Bool
  | [] => false
  | x :: xs => xs.any (fun y => x.base < y.base + y.nslot * y.sz16 * 16 && y.base < x.base + x.nslot * x.sz16 * 16)
      || ringsOverlap xs

/-- The side block of a record from its bytes; none when its contents break R217. -/
def sideOf (x : Record) (bs : List Byte) (imgsz : Nat) : Option Side :=
  let img := (bs.drop 24).take imgsz
  let ts := tagsOf img
  let words (ts : List Nat) : Nat := (ts.map tagCost).sum
  let at1 := (24 + imgsz + 7) / 8 * 8
  let at2 := at1 + 8 * x.rings
  let rings : List RingEntry := (List.range x.rings).map fun i =>
    ⟨bytesAt bs (at1 + 8 * i) 4, bytesAt bs (at1 + 8 * i + 4) 2, bytesAt bs (at1 + 8 * i + 6) 2⟩
  let targets : List Target := (List.range x.ntgt).map fun i =>
    ⟨.ofNat 32 (bytesAt bs (at2 + 8 * i) 4), bytesAt bs (at2 + 8 * i + 4) 1⟩
  let zeros := (List.range x.ntgt).all fun i => bytesAt bs (at2 + 8 * i + 5) 3 == 0
  let window := 256 * x.scr
  let arriv := bytesAt bs 0x14 4
  if ts.any (· == 3) || imgsz != 16 + 4 * words ts || 16 * x.bud < words ts
      || targets.any (fun t => 64 < t.payB || t.payB % 4 != 0 || 16 * x.bud < words (payloadTags ts t.payB)) || !zeros
      || rings.any (·.bad window) || ringsOverlap rings
      || arriv % 16 != 0 || (0 < x.pgrp && window < arriv + 1280) then none
  else some ⟨.ofNat 32 (bytesAt bs 0 4), imageOf img, .ofNat 64 (bytesAt bs 8 8), bytesAt bs 0x10 4, arriv, rings, targets, Memory.empty, []⟩

/-- Reading the side block of a record: its bytes fail to be read, its contents break R217, or it stands. -/
def readSide (x : Record) (v : View) : Rd (Option Side) := do
  let head ← v.read x.side 24
  let imgsz := bytesAt head 4 4
  if imgsz < 16 + 256 || 16 + 4096 < imgsz then return none
  let bs ← v.read x.side ((24 + imgsz + 7) / 8 * 8 + 8 * x.rings + 8 * x.ntgt)
  return sideOf x bs imgsz

/-! ## Queues (R310 to R316) -/

/-- A queue's configuration word. -/
def Context.queueWord (c : Context) (q : Nat) : Word := c.qcfg.getD q 0
/-- ENT of a queue. -/
def Context.entries (c : Context) (q : Nat) : Nat := ((c.queueWord q).extractLsb' 0 13).toNat
/-- CEIL of a queue. -/
def Context.ceiling (c : Context) (q : Nat) : Nat := ((c.queueWord q).extractLsb' 16 3).toNat

/-- Teams of a grid. -/
def Grid.teams (x : Grid) : Nat := x.gx * x.gy * x.gz
/-- A convoy's members that have neither started nor been saved. -/
def State.unstarted (s : State) (v : Convoy) : List Nat :=
  (List.range v.members).filter fun i => !v.started.contains i && !s.saved.any fun t => t.convoy == some (v.id, i)
/-- A launch still holds its queue entry: its last team has not been placed (R312). -/
def State.queued (s : State) (x : Grid) : Bool :=
  !x.lost && (x.placed < x.teams
    || s.convoys.any fun v => v.ctx == x.ctx && v.serial == x.serial && !(s.unstarted v).isEmpty)
/-- The launches in a queue. -/
def State.queue (s : State) (c q : Nat) : List Grid := s.grids.filter fun x => x.ctx == c && x.queue == q && s.queued x
/-- A launch's prerequisites have retired (R314). -/
def State.ready (s : State) (x : Grid) : Bool :=
  x.deps.all fun d => match s.grid? x.ctx d with | some y => y.retired | none => true
/-- A launch is at the head of its queue when every earlier one has placed its last team (R315). -/
def State.atHead (s : State) (x : Grid) : Bool := (s.queue x.ctx x.queue).all fun y => x.serial ≤ y.serial
/-- Launches at the head whose prerequisites have retired become eligible (R315). -/
def State.markEligible (s : State) : State :=
  { s with grids := s.grids.map fun x =>
      if !x.eligible && s.queued x && s.atHead x && s.ready x then { x with eligible := true } else x }

/-- The serials of a grid and of the grids that launched it, over at most ten levels (R322). -/
def State.ancestors (s : State) (c : Nat) : Nat → Option Nat → List Nat
  | 0, _ => []
  | _, none => []
  | n + 1, some k => k :: s.ancestors c n ((s.grid? c k).bind (·.parent))

/-! ## Acceptance (R309 to R311) -/

/-- A record that R216 finds invalid in a context: its own fields, or a prerequisite that is 0 or not yet assigned. -/
def Context.refuses (c : Context) (x : Record) : Bool := x.bad || x.deps.any fun d => d = 0 || c.nextSerial ≤ d
/-- The status of a submission: 3 `record`, 4 `full`, or 0 with the side block. -/
def State.judge (s : State) (c : Context) (x : Record) (issuer : Option Nat) (side : Option Side) : Nat :=
  if c.refuses x || side.isNone || c.entries x.queue = 0 || x.deps.any (s.ancestors c.num 12 issuer).contains then 3
  else if 2 ^ 32 ≤ c.nextSerial || c.entries x.queue ≤ (s.queue c.num x.queue).length then 4
  else 0

/-- Loading the constant bytes with a side block whose launch would be accepted; the reads take no place (R241). -/
def withConst (s : State) (c : Context) (x : Record) (issuer : Option Nat) (side : Option Side) (v : View) : Rd (Option Side) := do
  match side with
  | some b =>
    if s.judge c x issuer side = 0 then
      let k ← (constRead v).silent
      return some { b with const := k.1, constBad := k.2 }
    else return some b
  | none => return none
/-- Entering an accepted launch at the tail of its queue with the context's next serial (R309); its constant bytes are those
found with its side block (R241). -/
def State.enter (s : State) (c : Context) (x : Record) (b : Side) (issuer : Option Grid) : State :=
  let base := Nat.min x.pri (c.ceiling x.queue)
  let g : Grid := {
    ctx := c.num, serial := c.nextSerial, fromHost := issuer.isNone, parent := issuer.map (·.serial)
    depth := match issuer with | some y => y.depth + 1 | none => 0
    queue := x.queue, basePrio := base, effPrio := base, eligible := false
    conv := x.conv, nmat := x.nmat, ncpy := x.ncpy, gx := x.gx, gy := x.gy, gz := x.gz
    tbase := x.tbase, tags := x.tags, bud := x.bud, grp := x.grp, scr := x.scr, acc := x.acc, pgrp := x.pgrp
    seed := x.seed, args := x.args, deps := x.deps, entry := b.entry, image := b.image, stage := b.stage
    stageB := b.stageB, arriv := b.arriv, const := b.const, constBad := b.constBad, ringTab := b.rings, targets := b.targets
    placed := 0, formed := 0, retired := false, lost := false }
  ({ s with grids := s.grids ++ [g] }.modContext c.num fun c => { c with nextSerial := c.nextSerial + 1 }).markEligible

/-- The pair that answers a submission (R95, R311): the token, or a status with 0xFFFF_FFFF. -/
def launchPair (c : Context) (st : Nat) : DWord :=
  if st = 0 then token c.num c.nextSerial else .ofNat 64 (0xFFFFFFFF * 2 ^ 32 + st)
/-- The hash of a pair. -/
def pairHash (x : DWord) : Word := hashBytes (natLe 8 x.toNat)

/-- A `launch` that has reached acceptance, with the status found: the state and the pair returned (R309, R313). -/
def acceptLaunch (s : State) (r : GRef) (g : Group) (va : DWord) (x : Record) (side : Option Side) :
    Except Stop (State × DWord) :=
  let t := s.teamOf r
  let c := s.ctxOf t
  let grid := s.gridOf t
  let st := s.judge c x (some grid.serial) side
  let p := t.party r.slot 0 false
  let ev (pair : DWord) : RecEvent := ⟨6, p, va, pairHash pair, t.core, none⟩
  let accept (s : State) (st : Nat) : State := match side with
    | some b => if st = 0 then s.enter c x b (some grid) else s
    | none => s
  if g.priv || c.recMode != 2 then do
    let s' ← s.gateGroup (accept s st) c g.priv [ev (launchPair c st)]
    return (s', launchPair c st)
  else
    -- R313: a recorded `full` is returned again; a recorded acceptance waits for a free entry
    match s.headRecord c with
    | none => .error (.wait .manifest s)
    | some (_, rec) =>
      let h : Word := .ofNat 32 (bytesAt rec 0x1C 4)
      let full := (st == 0 || st == 4) && h == pairHash (launchPair c 4)
      let same := bytesAt rec 0 1 == 6 && bytesAt rec 0x10 8 == va.toNat
      if !namesParty rec p then .error (.wait .manifest s)
      else if st = 4 && h == pairHash (launchPair c 0) && same then .error (.wait .manifest s)
      else do
        let st := if full then 4 else st
        let s' ← s.gateGroup (accept s st) c g.priv [ev (launchPair c st)]
        return (s', launchPair c st)

/-- LAUNCH (R95). DESIGN CHOICE (log entry 36): `depth` is reported before `leader` when both hold. DESIGN CHOICE (log entry 94): an
address that is not a multiple of 64 gives `record` with nothing read, and, not having reached acceptance, writes no record. -/
def execLaunch (m : Bool) (d : VReg) (a : BReg) (b : VReg) : State → Out :=
  runWord (.launch m d a b) { s := m, once := Group.someOn } fun s r g => do
    let o ← g.uniform b
    let t := s.teamOf r
    let status (st : Nat) : Group := g.putU2 d (.ofNat 64 (0xFFFFFFFF * 2 ^ 32 + st))
    if 10 ≤ (s.gridOf t).depth then return (s, status 1)
    if r.slot != 0 || !g.on 0 || g.isHelper 0 then return (s, status 2)
    let va := g.breg a + o.signExtend 64
    if va.toNat % 64 != 0 then return (s, status 3)
    let (s1, olds) ← s.globalAccess r g .read 64 [.load 0 va 64]
    let x := recordOf (olds.headD [])
    let c := s.ctxOf t
    if c.refuses x then
      let (s2, pair) ← stopAt s (acceptLaunch s1 r g va x none)
      return (s2, g.putU2 d pair)
    else
      -- the whole side block and the constant bytes are there before any read takes its place
      let (_, side) ← s.groupRead r g 0 fun v => do withConst s c x (some (s.gridOf t).serial) (← readSide x v) v
      let (s2, _) ← stopAt s (s1.groupRead r g 0 (readSide x))
      let (s3, pair) ← stopAt s (acceptLaunch s2 r g va x side)
      return (s3, g.putU2 d pair)

end Sys2Proof.Machine
end

