-- ==== Sys2Proof/Machine/Placement.lean ====
section
/-! DEFINITION. What a core has room for, teams and their start state, save frames, and pre-emption requests
(R16, R219, R222, R231, R319 to R323, R332, R336 to R338, R396, R400). -/
namespace Sys2Proof.Machine

/-! ## Start state (R16, R219) -/

/-- Descriptor and register state common to every starting group. -/
def newGroup (v : List VVal) (args : DWord) (role : Role) (budget port : Nat) (pc : Word) (lin slot now : Nat)
    (active : Bool) : Group where
  v := v
  vDue := v
  h := List.replicate 16 0
  hDue := List.replicate 16 0
  pend := 0
  awaited := 0
  p := List.replicate 8 0
  b := args :: List.replicate 7 0
  md := 0x00880000
  gang := 0
  count := List.replicate 16 0
  live := 0xFFFF
  helper := 0
  draw := List.replicate 16 0
  gfid := fibres.map (gfidOf lin slot)
  retired := 0
  pc := pc
  flags := 0
  cause := 0
  epc := 0
  tval := 0
  priv := false
  budget := budget
  role := role
  ended := false
  left := false
  wait := .none
  arrived := []
  latch := none
  fwdOpen := []
  fwd := []
  owed := 0
  preempt := none
  trapDue := none
  port := port
  inSet := active
  entered := now
  readySince := now

/-- The role of a slot (R212). -/
def Grid.role (x : Grid) (slot : Nat) : Role :=
  if slot < x.ncpy then .copy else if slot < x.ncpy + x.nmat then .matrix else .vector
/-- The budget B of a grid's groups. -/
def Grid.budget (x : Grid) : Nat := 16 * x.bud

/-- The empty rings of a grid (R153). -/
def Grid.newRings (x : Grid) : List Ring :=
  x.ringTab.map fun e => ⟨e.base, 16 * e.sz16, 0, 0, List.replicate e.nslot .empty⟩
/-- A barrier at generation 0. -/
def Barrier.new : Barrier := ⟨0, 0, none, []⟩

/-! ## Room on a core (R222, R319) -/

/-- What a team needs. -/
structure Need where
  words : Nat
  groups : Nat
  scr : Nat
  acc : Nat
  tags : Nat
  tbase : Nat
  deriving DecidableEq, Repr, Inhabited

/-- What an ordinary team of a grid needs. -/
def Grid.need (x : Grid) : Need := ⟨(x.grp + 1) * x.budget, x.grp + 1, 256 * x.scr, 16 * x.acc, x.tags, x.tbase⟩
/-- What a continuation team needs (R231). -/
def Grid.contNeed (x : Grid) : Need := ⟨x.budget, 1, 256 * x.scr, 0, x.tags, x.tbase⟩
/-- What a team holds, and needs again when it is restored (R324); its tag window is placed as its launch asks. -/
def Team.need (t : Team) (x : Grid) : Need :=
  ⟨(t.groups.map (·.budget)).sum, t.groups.length, t.scrBytes, t.accRows, t.tagN, x.tbase⟩

/-- Where a team goes on a core. -/
structure Room where
  core : Nat
  ports : List Nat
  scr : Nat
  acc : Nat
  tags : Nat
  deriving DecidableEq, Repr, Inhabited

/-- Register words the teams of a list hold. -/
def wordsOf (ts : List Team) : Nat := (ts.map fun t => (t.groups.map (·.budget)).sum).sum
/-- Register words free beside some teams. -/
def freeWords (ts : List Team) : Nat := Config.coreWords - wordsOf ts
/-- Groups of each port. DESIGN CHOICE (log entry 104): an ended group gives up its place on its port, though its team is still on
the core. -/
def portCounts (ts : List Team) : List Nat :=
  (List.range Config.ports).map fun k => (ts.flatMap fun t => t.groups.filter fun g => g.port == k && !g.ended).length
/-- Placing n groups, each on the port that holds the fewest, the lowest first (R222). -/
def choosePorts : Nat → List Nat → Option (List Nat)
  | 0, _ => some []
  | n + 1, cs =>
    let m := cs.foldl Nat.min Config.portGroups
    if Config.portGroups ≤ m then none
    else
      let k := cs.idxOf m
      (choosePorts n (cs.set k (m + 1))).map (k :: ·)
/-- The lowest place of a size among ranges in use, at a multiple of `step` (R319). -/
def lowestGap (used : List (Nat × Nat)) (size limit step : Nat) : Option Nat :=
  if size = 0 then some 0 else
  let starts := sortBy (fun x y => x ≤ y) (0 :: used.map fun (a, n) => (a + n + step - 1) / step * step)
  starts.find? fun a => a + size ≤ limit && used.all fun (b, n) => n == 0 || a + size ≤ b || b + n ≤ a

/-- Where a team of a need goes beside the teams of a core (R319); none when some row of the table fails. -/
def roomBeside (core : Nat) (ts : List Team) (n : Need) : Option Room := do
  let ports ← choosePorts n.groups (portCounts ts)
  let scr ← lowestGap (ts.map fun t => (t.scrBase, t.scrBytes)) n.scr Config.coreScratch 256
  let acc ← lowestGap (ts.map fun t => (t.accBase, t.accRows)) n.acc Config.coreAccRows 1
  let tags := ts.map fun t => (t.tagBase, t.tagN)
  let tag ← if n.tbase = 127 then lowestGap tags n.tags Config.coreTags 1
    else if tags.all fun (b, k) => n.tbase + n.tags ≤ b || b + k ≤ n.tbase || n.tags == 0 || k == 0 then some n.tbase else none
  if ts.length < Config.coreTeams && n.words ≤ freeWords ts then some ⟨core, ports, scr, acc, tag⟩ else none

/-- The teams of a core. -/
def State.teamsOn (s : State) (core : Nat) : List Team := s.teams.filter (·.core == core)
/-- A core the scheduler may use for a context: enabled, on an enabled die, of the context's world (R396, R400). -/
def State.coreFor (s : State) (c : Context) (core : Nat) : Bool :=
  core < Config.cores && !s.disabled.cores.contains core && !s.disabled.dies.contains (dieOf core)
    && s.secCores.contains core == c.secure
/-- The cores of a die that a context may use. -/
def State.dieCores (s : State) (c : Context) (die : Nat) : List Nat :=
  ((List.range Config.coresPerDie).map (die * Config.coresPerDie + ·)).filter (s.coreFor c)

/-! ## Reserved room (R320, R321, R323) -/

/-- A team whose state is being saved, or is about to be: it counts as gone when a launch looks for room again. -/
def savingTeam (t : Team) : Bool := t.phase == .preempting || t.phase == .saving || t.evicted
/-- The package without the teams being saved and some others. -/
def State.without (s : State) (ts : List Team) : State :=
  { s with teams := s.teams.filter fun t => !savingTeam t && !ts.any (·.tid == t.tid) }
/-- A need in a room, as a team beside the others. -/
def Need.phantom (n : Need) (r : Room) : Team :=
  { (default : Team) with
    core := r.core, scrBytes := n.scr, scrBase := r.scr, accRows := n.acc, accBase := r.acc, tagN := n.tags, tagBase := r.tags
    groups := r.ports.zipIdx.map fun (p, i) => { (default : Group) with port := p, budget := if i = 0 then n.words else 0 } }

/-- A row of R319 for each resource. -/
def sumRows (a b : List Nat) : List Nat := a.zipWith (· + ·) b
/-- Free capacity over cores in each row of R319: words, group places, scratchpad, accumulator rows, tags and teams. -/
def State.capacity (s : State) (cores : List Nat) : List Nat :=
  let per (core : Nat) : List Nat :=
    let ts := s.teamsOn core
    [freeWords ts, Config.ports * Config.portGroups - (portCounts ts).sum,
      Config.coreScratch - (ts.map (·.scrBytes)).sum, Config.coreAccRows - (ts.map (·.accRows)).sum,
      Config.coreTags - (ts.map (·.tagN)).sum, Config.coreTeams - ts.length]
  cores.foldl (fun acc core => sumRows acc (per core)) [0, 0, 0, 0, 0, 0]
/-- A need as a row of the same kind, k times. -/
def Need.row (n : Need) (k : Nat) : List Nat := [n.words, n.groups, n.scr, n.acc, n.tags, 1].map (k * ·)
/-- What the convoys of a context's world that are admitted to a die still have reserved there (R321). -/
def State.reserved (s : State) (c : Context) (die : Nat) : List Nat :=
  (s.convoys.filter fun v => v.die == die && s.worldOf v.ctx == c.secure).foldl (fun acc v =>
    match s.grid? v.ctx v.serial with
    | some x => sumRows acc (x.need.row ((List.range v.members).filter fun i => !v.started.contains i && !v.ended.contains i).length)
    | none => acc) [0, 0, 0, 0, 0, 0]
/-- What is kept on a die for convoys that wait for evicted teams to be saved, but for those of the launch `who` (R323). -/
def State.claimed (s : State) (c : Context) (die : Nat) (who : Nat × Nat) : List Nat :=
  (s.claims.filter fun k => k.convoy && k.at_ == die && s.worldOf k.ctx == c.secure && (k.ctx, k.serial) != who).foldl (fun acc k =>
    match s.grid? k.ctx k.serial with
    | some x => sumRows acc (x.need.row x.conv)
    | none => acc) [0, 0, 0, 0, 0, 0]
/-- A row fits a die: now, beside what convoys have reserved there, and beside what is kept for waiting convoys when the teams
being saved have gone. -/
def State.dieSpares (s : State) (c : Context) (die : Nat) (row : List Nat) (who : Nat × Nat) : Bool :=
  let fits (s : State) (row : List Nat) : Bool := ((s.capacity (s.dieCores c die)).zip row).all fun (a, b) => b ≤ a
  let kept := s.reserved c die
  let held := s.claimed c die who
  (kept.all (· == 0) || fits s (sumRows kept row))
    && (held.all (· == 0) || fits (s.without []) (sumRows held (sumRows kept row)))
/-- The launches for which room is kept on a core still fit there beside some teams, but for the launch `who` (R323). -/
def State.claimsFit (s : State) (core : Nat) (ts : List Team) (who : Nat × Nat) : Bool :=
  ((s.claims.filter fun k => !k.convoy && k.at_ == core && (k.ctx, k.serial) != who).foldl (fun (acc : Option (List Team)) k =>
    acc.bind fun ts => match s.grid? k.ctx k.serial with
      | some x => (roomBeside core ts x.need).map fun r => x.need.phantom r :: ts
      | none => some ts) (some ts)).isSome

/-- The room of highest rank among cores: most free register words, then the lowest core (R319). -/
def bestRoom (xs : List (Room × Nat)) : Option Room :=
  (xs.foldl (fun acc x => match acc with
    | none => some x
    | some y => if y.2 < x.2 then some x else some y) none).map (·.1)
/-- Where a team of a context goes among some cores; `who` is the launch that takes the room it has had kept. -/
def State.place (s : State) (c : Context) (cores : List Nat) (n : Need) (who : Nat × Nat := (0, 0)) : Option Room :=
  bestRoom (cores.filterMap fun core =>
    let ts := s.teamsOn core
    match roomBeside core ts n with
    | some r =>
      if s.dieSpares c (dieOf core) (n.row 1) who && s.claimsFit core (n.phantom r :: (s.without []).teamsOn core) who then
        some (r, freeWords ts)
      else none
    | none => none)
/-- Every core a context may use. -/
def State.coresFor (s : State) (c : Context) : List Nat := (List.range Config.cores).filter (s.coreFor c)

/-! ## Teams (R219, R231) -/

/-- Whether each group of a new team enters the active set of its port, which holds at most eight; a free place is a ready pending
group's first (R222, R226). -/
def activeFlags (s : State) (core : Nat) : List Nat → List Nat → List Bool
  | [], _ => []
  | p :: ps, seen =>
    let now := ((s.portGroups core p).filter (·.2.inSet)).length + (seen.filter (· == p)).length
    (now < Config.portActive && (longestReady (s.portGroups core p)).isNone) :: activeFlags s core ps (p :: seen)

/-- A team of a grid at a room, with the state of R219. -/
def State.newTeam (s : State) (x : Grid) (room : Room) (lin : Nat) (convoy : Option (Nat × Nat)) : Team :=
  let flags := activeFlags s room.core room.ports []
  { tid := s.nextId, ctx := x.ctx, serial := x.serial, lin := lin, cont := false, core := room.core
    groups := (List.range (x.grp + 1)).map fun i =>
      newGroup x.image x.args (x.role i) x.budget (room.ports.getD i 0) x.entry lin i (s.nextId + i) (flags.getD i false)
    scr := Memory.empty, scrBytes := 256 * x.scr, scrBase := room.scr, scrPoison := [], marks := []
    acc := [], accRows := 16 * x.acc, accBase := room.acc, tagN := x.tags, tagBase := room.tags
    tg := 0, bound := 0, tagErr := 0, tagReason := [], rings := x.newRings
    bars := List.replicate 8 Barrier.new, moves := [], convoy := convoy, prio := x.effPrio, stamp := s.nextId
    phase := .running, frame := none, ltime := 0, saveKey := 0, got16 := false, got17 := false, got18 := false }
/-- Placing a team; that of a launch that waited for others follows all their accesses (R314). -/
def State.addTeam (s : State) (t : Team) : State :=
  let s := if ((s.grid? t.ctx t.serial).any fun x => !x.deps.isEmpty) then s.catchUp t.ctx t.core else s
  { s with teams := s.teams ++ [t], nextId := s.nextId + t.groups.length + 1 }

/-! ## Frames (R336 to R338) -/

/-- G₀ of a team's frame (R337). -/
def Team.frameHead (t : Team) : Nat := 0x3B000 + 1024 * t.accRows + t.scrBytes + 64 * ((t.scrBytes / 256 + 63) / 64)
/-- F of a team's frame: G₀ and the group frames, whose budgets sum to what the launch record gave (R337). -/
def Team.frameBytes (t : Team) : Nat := t.frameHead + (t.groups.map fun g => 1344 + 4 * g.budget).sum
/-- The lowest range of free 65,536-byte units of a context's save area that holds n bytes (R336). -/
def Context.frameFor (c : Context) (n : Nat) : Option Nat :=
  lowestGap (c.frames.map fun (a, k, _) => (a, k)) ((n + 65535) / 65536 * 65536) (c.saveSz / 65536 * 65536) 65536

/-- Raising the request for every group of a team that has not ended, with its frame; a team that is being restored is saved when it
has left its routine (R332, R336). -/
def State.requestPreempt (s : State) (tid : Nat) : State :=
  match s.team? tid with
  | none => s
  | some t =>
    match ((s.context? t.ctx).getD default).frameFor t.frameBytes with
    | none => s
    | some off =>
      (s.modContext t.ctx fun c => { c with frames := c.frames ++ [(off, (t.frameBytes + 65535) / 65536 * 65536, tid)] }).modTeam tid
        fun t => if t.phase == .restoring then
            { t with groups := t.groups.map fun g => if g.ended then g else { g with preempt := some 0 } }
          else { t with
            phase := .preempting, frame := some off, got16 := false, got17 := false, got18 := false
            groups := t.groups.map fun g => if g.ended then g else { g with preempt := some 0, left := false } }

/-! ## Eviction sets (R323) -/

/-- The other members of a team's convoy that run or wait. -/
def State.mates (s : State) (t : Team) : List Team :=
  match t.convoy with
  | none => [t]
  | some (v, _) => s.teams.filter fun x => (x.convoy.map (·.1)) == some v
/-- A team that an eviction over some teams may take: its priority is below, it is not in its save routine, and its whole
convoy is among them (R323). -/
def State.evictable (s : State) (among : List Team) (p : Nat) (t : Team) : Bool :=
  let ms := s.mates t
  ms.all (fun x => x.prio < p && (x.phase == .running || x.phase == .restoring) && !x.evicted && !x.over
    && among.any (·.tid == x.tid))
    && (match s.convoyOf t with | some v => (s.unstarted v).isEmpty | none => true)
/-- Candidates in eviction order: ascending priority, the most recently placed first (R323). -/
def evictionOrder (ts : List Team) : List Team :=
  sortBy (fun x y => x.prio < y.prio || (x.prio == y.prio && y.stamp ≤ x.stamp)) ts
/-- Taking frames for a team and its convoy, when the save areas hold them; the contexts with those frames. -/
def takeFrames (cs : List Context) (ts : List Team) : Option (List Context) :=
  ts.foldl (fun acc t => acc.bind fun cs =>
    match (cs.find? (·.num == t.ctx)).bind (·.frameFor t.frameBytes) with
    | none => none
    | some off => some (cs.map fun c => if c.num == t.ctx then
        { c with frames := c.frames ++ [(off, (t.frameBytes + 65535) / 65536 * 65536, t.tid)] } else c)) (some cs)
/-- Adding teams until the need is met; a team whose frame does not fit is left out (R323, R336). -/
def State.grow (s : State) (fits : List Team → Bool) : List Team → List Team → List Context → Option (List Team)
  | [], gone, _ => if fits gone then some gone else none
  | t :: ts, gone, cs =>
    if fits gone then some gone
    else if gone.any (·.tid == t.tid) then s.grow fits ts gone cs
    else match takeFrames cs (s.mates t) with
      | none => s.grow fits ts gone cs
      | some cs' => s.grow fits ts (gone ++ s.mates t) cs'
/-- The eviction set over some teams for a priority. -/
def State.evictionSet (s : State) (among : List Team) (p : Nat) (fits : List Team → Bool) : Option (List Team) :=
  s.grow fits (evictionOrder (among.filter (s.evictable among p))) [] s.contexts
/-- The highest priority of a set. -/
def highest (ts : List Team) : Nat := ts.foldl (fun a t => Nat.max a t.prio) 0
/-- The set chosen: the lowest highest priority, then the fewest teams, then the first (R323). -/
def chooseSet (xs : List (List Team)) : Option (List Team) :=
  xs.foldl (fun acc x => match acc with
    | none => some x
    | some y => if highest x < highest y || (highest x == highest y && x.length < y.length) then some x else some y) none

end Sys2Proof.Machine
end

