-- ==== Sys2Proof/Machine/Preempt.lean ====
section
/-! DEFINITION. Taking `preempt`, save items and frames, the end of a save, and restoring a team
(R29, R98, R158, R332 to R342). -/
namespace Sys2Proof.Machine

/-! ## Frames in memory (R335, R337 to R339) -/

/-- How the device's own access to a frame fails: the cause and SUB of R342. -/
abbrev OwnFail := Nat × Nat
/-- The device's own write of n bytes: whole granules clear their poison, and one that covers a granule in part meets it
(R342, R393). -/
def State.ownWrite (s : State) (c : Context) (va : DWord) (bs : List Byte) : Except OwnFail State :=
  (chunks va.toNat bs.length).foldlM (fun st (a, k) =>
    match st.locOf c (.ofNat 64 a) .write with
    | .error _ => .error (7, 1)
    | .ok l =>
      let whole := va.toNat ≤ a / 64 * 64 && a / 64 * 64 + 64 ≤ va.toNat + bs.length
      if !whole && st.poisonedAt l k then .error (9, 1) else
      let st := st.putBytes l ((bs.drop (a - va.toNat)).take k)
      .ok (if whole then st.unpoison l [l.addr / 64] else st)) s
/-- The device's own read of n bytes (R342). -/
def State.ownRead (s : State) (c : Context) (va : DWord) (n : Nat) : Except OwnFail (List Byte) :=
  match s.peek c va n, s.peekPoison c va n with
  | .error _, _ => .error (7, 0)
  | .ok _, some _ => .error (9, 0)
  | .ok bs, none => .ok bs
/-- Writing a granule poisoned at an address of the save area (R335). -/
def State.ownPoison (s : State) (c : Context) (va : DWord) : Except OwnFail State :=
  match s.locOf c va .write with
  | .error _ => .error (7, 1)
  | .ok l => .ok (s.spoilLoc l [l.addr / 64])

/-- The context and the address of a team's frame. -/
def State.frameAt (s : State) (t : Team) : Option (Context × DWord) :=
  match s.context? t.ctx, t.frame with
  | some c, some off => some (c, c.save + .ofNat 64 off)
  | _, _ => none

/-- The frame header (R338). -/
def Team.header (t : Team) (state : Nat) : List Byte :=
  let ended := (t.groups.zipIdx.map fun (g, i) => if g.ended then 2 ^ i else 0).sum
  let conv := match t.convoy with | some (_, i) => 2 ^ 8 + i * 2 ^ 16 | none => 0
  natLe 8 (token t.ctx t.serial).toNat ++ natLe 4 (if t.cont then 0xFFFFFFFF else t.lin) ++ natLe 4 (state + conv)
    ++ natLe 8 t.frameBytes ++ natLe 8 t.ltime ++ natLe 4 t.prio ++ natLe 4 0 ++ natLe 8 ended ++ natLe 16 0
    ++ (List.range 64).flatMap (fun i => natLe 2 ((t.groups[i]?.map (·.budget)).getD 0)) ++ natLe 64 0

/-- The offset of a group's frame, from the budgets at delivery (R337). -/
def Team.groupFrame (t : Team) (slot : Nat) : Nat :=
  t.frameHead + ((t.groups.take slot).map fun g => 1344 + 4 * g.budget).sum

/-- The offset in a group's frame and the size of its items but item 0 (R339). -/
def itemPlace (k : Nat) : Nat × Nat :=
  match k with
  | 10 => (0, 8)
  | 9 => (8, 8)
  | 8 => (0x10, 8)
  | 4 => (0x18, 8)
  | 5 => (0x20, 8)
  | 6 => (0x28, 32)
  | 7 => (0x48, 128)
  | 1 => (0xC8, 16)
  | 2 => (0xD8, 64)
  | 3 => (0x118, 1024)
  | _ => (0x518, 16)

/-- A role's code in item 10 (log entry 14). -/
def Role.code : Role → Nat
  | .copy => 0
  | .matrix => 1
  | .vector => 2

/-- A group's item as bytes (R29, R339). -/
def Group.item (g : Group) (k : Nat) : List Byte :=
  match k with
  | 0 => imageBytes g.v
  | 1 => (g.p.drop 1).flatMap (fun x => natLe 2 x.toNat) ++ natLe 2 0
  | 2 => g.b.flatMap fun x => natLe 8 x.toNat
  | 3 => g.h.flatMap fun x => natLe 64 x.toNat
  | 4 => natLe 4 g.md.toNat ++ natLe 4 g.flags.toNat
  | 5 => natLe 8 g.gang.toNat
  | 6 => fibres.flatMap fun f => natLe 2 ((g.count.getD f 0).toNat + (g.live.getLsbD f).toNat * 256 + (g.helper.getLsbD f).toNat * 512)
  | 7 => g.draw.flatMap fun x => natLe 8 x.toNat
  | 8 => natLe 8 g.retired.toNat
  | 9 => natLe 4 g.epc.toNat ++ natLe 4 g.cause.toNat
  | _ => natLe 4 g.budget ++ natLe 4 g.role.code

/-- The n-bit half-words of a byte string as a mask of one of their bits. -/
def bitOf (bs : List Byte) (k : Nat) : Half :=
  fibres.foldl (fun (acc : Half) f => if bytesAt bs (2 * f) 2 / 2 ^ k % 2 = 1 then acc ||| (1#16 <<< f) else acc) 0
/-- A group with one of items 1 to 9 loaded. -/
def Group.loadItem (g : Group) (k : Nat) (bs : List Byte) : Group :=
  match k with
  | 1 => { g with p := g.p.getD 0 0 :: (List.range 7).map fun i => .ofNat 16 (bytesAt bs (2 * i) 2) }
  | 2 => { g with b := (List.range 8).map fun i => .ofNat 64 (bytesAt bs (8 * i) 8) }
  | 3 =>
    let h : List (BitVec 512) := (List.range 16).map fun i => hStored (.ofNat 512 (bytesAt bs (64 * i) 64))
    { g with h := h, hDue := h }
  | 4 => { g with md := .ofNat 32 (bytesAt bs 0 4) &&& mdMask, flags := .ofNat 32 (bytesAt bs 4 4) &&& flagsMask }
  | 5 => { g with gang := gangValue (.ofNat 64 (bytesAt bs 0 8)) }
  | 6 => { g with
      count := fibres.map fun f => .ofNat 8 (bytesAt bs (2 * f) 1), live := bitOf bs 8, helper := bitOf bs 9 }
  | 7 => { g with draw := fibres.map fun f => .ofNat 64 (bytesAt bs (8 * f) 8) }
  | 8 => { g with retired := .ofNat 64 (bytesAt bs 0 8) }
  | 9 => { g with epc := .ofNat 32 (bytesAt bs 0 4), cause := .ofNat 32 (bytesAt bs 4 4) &&& 0x8000FFFF }
  | _ => g

/-! ## Opaque items (R337; log entry 3) -/

/-- n bytes of an opaque item from an offset of its frame: the number of the save, so that no other save's item is taken for
it, then opaque bytes. -/
def opaqueItem (key off n : Nat) : List Byte := natLe 8 key ++ (List.range (n - 8)).map fun i => Config.opaqueByte key (off + i)
/-- Item 17 under a save's key. -/
def item17 (key : Nat) : List Byte := opaqueItem key 0x200 2048
/-- The parts of item 18: its header, an entry for each captured operation, and one for each unfinished captured ray, as
offsets in the frame and sizes. -/
def item18Parts (ops rays : Nat) : List (Nat × Nat) :=
  (0xA00, 16) :: (List.range ops).map (fun i => (0xA10 + 1152 * i, 1152))
    ++ (List.range rays).map fun j => (0xA10 + 64 * 1152 + 320 * j, 320)
/-- The captured operations of a team and their unfinished rays. -/
def State.capturedParts (s : State) (tid : Nat) : List (Nat × Nat) :=
  let ops := s.ops.filter fun o => o.tid == tid && o.captured
  item18Parts ops.length ((ops.map fun o => match o.kind with | .mrch _ _ _ _ _ _ _ rays => rays.length | _ => 0).sum)

/-! ## XSAVE and XRST (R98) -/

/-- Stores or loads of a run of bytes, in pieces inside 128-byte lines. -/
def lineAccs (va : DWord) (bs : List Byte) : List Acc :=
  (pieces 128 (bs.length / 128 + 2) va.toNat bs.length).map fun (a, k) =>
    .store 0 (.ofNat 64 a) ((bs.drop (a - va.toNat)).take k)
/-- Loads of n bytes. -/
def lineLoads (va : DWord) (n : Nat) : List Acc :=
  (pieces 128 (n / 128 + 2) va.toNat n).map fun (a, k) => .load 0 (.ofNat 64 a) k

/-- The checks of `xsave` and `xrst` before their operands, and their team's frame (R98). -/
def itemFrame (s : State) (r : GRef) (g : Group) (k : Nat) : Except Stop (Team × DWord) := do
  check g.priv (protect 9)
  check (k < 16 || r.slot == 0) (protect 10)
  let t := s.teamOf r
  match s.frameAt t with
  | none => protect 29
  | some (_, va) =>
    check (k < 32 || 16 * (k - 32) + 16 ≤ t.accRows) (protect 5)
    return (t, va)

/-- Operations that run to completion before a team item is stored: the drained ones and the matrix engine's (R334). -/
def State.draining (s : State) (t : Team) : Bool :=
  s.ops.any (fun o => o.tid == t.tid && !o.captured) || s.matrix.any fun m => m.members.any fun x => x.1.tid == t.tid

/-- The cell of a team's window. -/
def Team.cell (t : Team) (row col : Nat) : Word := (t.acc.lookup (row * 256 + col)).getD 0
/-- Setting cells, none of them listed when zero. -/
def Team.setCells (t : Team) (cs : List (Nat × Word)) : Team :=
  { t with acc := cs.filter (·.2 != 0) ++ t.acc.filter fun x => !cs.any (·.1 == x.1) }

/-- The place of an item from the frame's base, and its bytes. -/
def saveItem (s : State) (r : GRef) (g : Group) (t : Team) (k : Nat) : List (Nat × List Byte) :=
  match k with
  | 16 => [(0x100, natLe 8 t.tg.toNat ++ natLe 8 t.tagErr.toNat)]
  | 17 => [(0x200, item17 t.saveKey)]
  | 18 => (s.capturedParts t.tid).map fun (off, n) => (off, opaqueItem t.saveKey off n)
  | _ =>
    if 32 ≤ k then [(0x3B000 + 16384 * (k - 32),
      (List.range 4096).flatMap fun i => natLe 4 ((t.acc.lookup (4096 * (k - 32) + i)).getD 0).toNat)]
    else [(t.groupFrame r.slot + (itemPlace k).1, g.item k)]

/-- XSAVE (R98): a team item waits for delivery and for the operations that must complete first (R334). -/
def execXsave (m : Bool) (k : BitVec 6) : State → Out :=
  runWord (.xsave m k) { s := m, always := true } fun s r g => do
    let (t, va) ← itemFrame s r g k.toNat
    if 16 ≤ k.toNat && (t.phase == .preempting || s.draining t) then .error (.wait .engine s)
    let (s, _) ← s.globalAccess r g .write 1
      ((saveItem s r g t k.toNat).flatMap fun (off, bs) => lineAccs (va + .ofNat 64 off) bs)
    return (s, g)

/-- Reading n bytes of a frame as a load of the routine. -/
def frameRead (s : State) (r : GRef) (g : Group) (va : DWord) (n : Nat) : Except Stop (State × List Byte) := do
  let (s, olds) ← s.globalAccess r g .read 1 (lineLoads va n)
  return (s, olds.flatten)
/-- Reading several runs of a frame. -/
def frameReads (r : GRef) (g : Group) (va : DWord) : State → List (Nat × Nat) → Except Stop (State × List (List Byte))
  | s, [] => .ok (s, [])
  | s, (off, n) :: more => do
    let (s, bs) ← frameRead s r g (va + .ofNat 64 off) n
    let (s, bss) ← frameReads r g va s more
    return (s, bs :: bss)

/-- The header fields that the check words cover, as the frame holds them: TOKEN and TEAM, and LTIME (R337). -/
def headerCheck (s : State) (r : GRef) (g : Group) (x : Team) (va : DWord) : Except Stop (State × Bool) := do
  let (s, bs) ← frameRead s r g va 32
  return (s, bs.take 12 == (x.header 0).take 12 && bs.drop 24 == ((x.header 0).drop 24).take 8)
/-- A failed check word: the context is lost (R337, R342). -/
def failCheck (s : State) (t : Team) (g : Group) : Except Stop (State × Group) := .ok (s.loseContext t.ctx 12 1, g)

/-- The saved copy of a team being restored. -/
def State.snapshot (s : State) (tid : Nat) : Option Team := s.saved.find? (·.tid == tid)

/-- Loading item 17: the rings, tag states and barriers as they were saved; a group that had arrived is counted so, and a
generation completed by arrivals already saved completes (R341). -/
def Team.load17 (t x : Team) : Team :=
  ({ t with
    rings := x.rings, tagReason := x.tagReason, bound := x.bound, bars := x.bars, moves := x.moves, got17 := true
    groups := t.groups.zipIdx.map fun (g, i) => ({ g with arrived := (x.groups.getD i default).arrived } : Group) } : Team).completeBarriers

/-- Loading a team item (R98, R334, R337, R340). -/
def loadTeamItem (s : State) (r : GRef) (g : Group) (t : Team) (va : DWord) (k : Nat) : Except Stop (State × Group) := do
  match k with
  | 16 =>
    let (s, bs) ← frameRead s r g (va + 0x100) 16
    return (s.modTeam t.tid fun t => { t with
      tg := .ofNat 64 (bytesAt bs 0 8 % 2 ^ t.tagN), tagErr := .ofNat 64 (bytesAt bs 8 8 % 2 ^ t.tagN), got16 := true }, g)
  | 17 =>
    let (s, bs) ← frameRead s r g (va + 0x200) 2048
    match s.snapshot t.tid with
    | some x =>
      let (s, whole) ← headerCheck s r g x va
      if bs != item17 x.saveKey || !whole then failCheck s t g
      else
        let s := (s.setGroup r g).modTeam t.tid fun t => t.load17 x
        return (s, (s.group? r).getD g)
    | none => failCheck s t g
  | 18 =>
    let parts := s.capturedParts t.tid
    let (s, bss) ← frameReads r g va s parts
    match s.snapshot t.tid with
    | some x =>
      let (s, whole) ← headerCheck s r g x va
      if (parts.zip bss).any (fun ((off, n), bs) => bs != opaqueItem x.saveKey off n) || !whole then failCheck s t g
      else
        let s : State := { s with ops := s.ops.map fun o => if o.tid == t.tid then { o with captured := false } else o }
        return (s.modTeam t.tid fun t => { t with got18 := true }, g)
    | none => failCheck s t g
  | _ =>
    let (s, bs) ← frameRead s r g (va + .ofNat 64 (0x3B000 + 16384 * (k - 32))) 16384
    return (s.modTeam t.tid fun t => t.setCells ((bytesWords bs 4096).mapIdx fun i w => (4096 * (k - 32) + i, w)), g)

/-- XRST (R98). -/
def execXrst (m : Bool) (k : BitVec 6) : State → Out :=
  runWord (.xrst m k) { s := m, always := true } fun s r g => do
    let (t, va) ← itemFrame s r g k.toNat
    if 16 ≤ k.toNat then loadTeamItem s r g t va k.toNat else
    let base := va + .ofNat 64 (t.groupFrame r.slot)
    let (off, n) := itemPlace k.toNat
    let (s, bs) ← frameRead s r g (base + .ofNat 64 off) n
    match k.toNat with
    | 0 =>
      let ts := tagsOf bs
      let words := (ts.map tagCost).sum
      if ts.any (· == 3) then failCheck s t g else
      check (words ≤ g.budget) (shapeTrap 0 1)
      let (s, rest) ← frameRead s r g (base + .ofNat 64 (off + 16)) (4 * words)
      let v := vvalsOf ts (bytesWords rest words)
      return (s, { g with v := v, vDue := v })
    | 10 =>
      let (s, bud) ← frameRead s r g (va + .ofNat 64 (0x40 + 2 * r.slot)) 2
      if bytesAt bs 0 4 != leNat bud || bytesAt bs 4 4 != g.role.code then failCheck s t g
      else return (s, g)
    | k => return (s, g.loadItem k bs)

/-! ## Taking the request (R332 to R334, R338) -/

/-- The device's writes to a team's frame must wait (R356). -/
def State.frameWaits (s : State) (t : Team) : Bool :=
  match s.frameAt t with
  | some (c, va) => s.pokeWaits c va t.frameBytes
  | none => false
/-- What the device's own access to a frame leads to: its state, or the loss of the context (R342). -/
def State.orLost (s : State) (t : Team) (x : Except OwnFail State) : State :=
  match x with
  | .ok s => s
  | .error (cause, sub) => s.loseContext t.ctx cause sub
/-- An operation captured: the count of its chunks whose writes have completed is kept, and the chunk under way is performed again
in full (R334). -/
def State.capture (s : State) (o : Op) : Op :=
  let writing := s.requests.any fun q => o.waits.contains q.id && q.who == .op o.id 0
  { o with captured := true, done := if writing then o.done - 1 else o.done, waits := [], got := [] }
/-- Delivery: every group that has not ended has taken the request; the header is written and the capturable operations in
flight are captured (R333, R334, R338). -/
def State.deliver (s : State) (tid : Nat) : State :=
  match s.team? tid with
  | none => s
  | some t =>
    if t.phase != .preempting || !t.groups.all (fun g => g.ended || g.preempt.isNone) || s.frameWaits t then s else
    let t := { t with ltime := s.clockOf t.ctx t.core, phase := .saving, saveKey := s.nextId }
    let s : State := { s with
      nextId := s.nextId + 1
      teams := s.teams.map fun x => if x.tid == tid then t else x
      ops := s.ops.map fun o => if o.tid == tid && o.kind.capturable then s.capture o else o }
    match s.frameAt t with
    | none => s
    | some (c, va) => s.orLost t (s.ownWrite c va (t.header 1))

/-- PREEMPT_TAKE (R332): at its next boundary a group takes `preempt`, unless it is in a handler or its team still in its restore
routine, or an owner has still to answer it or has performed an access of its instruction (R333). A trap due at that boundary stays
due for the resumption. -/
def execPreemptTake (r : GRef) (s : State) : Out :=
  match s.group? r with
  | none => .next s
  | some g =>
    match g.preempt with
    | none => .next s
    | some sub =>
      if g.priv || g.ended || !g.fwdOpen.isEmpty || g.doneAway || (s.teamOf r).phase == .restoring then .next s
      else .next ((s.setGroup r { g.trapped ⟨.preempt, sub, 0⟩ with preempt := none, trapDue := g.trapDue, left := false }).deliver r.tid)

/-! ## The end of a save (R335) -/

/-- An 8-byte block mark (log entry 15). -/
def Mark.bytes (m : Mark) : List Byte :=
  let lo := m.state % 4 + m.nonfin.toNat * 4 + m.type % 16 * 16 + m.swz % 4 * 256
  if isNarrowType m.type then natLe 4 (lo + m.const.toNat % 256 * 2 ^ 16) ++ natLe 4 m.fmt.toNat
  else natLe 4 lo ++ natLe 4 m.const.toNat
/-- Reading one. -/
def markOf (bs : List Byte) : Mark :=
  let lo := bytesAt bs 0 4
  let ty := lo / 16 % 16
  let hi : Word := .ofNat 32 (bytesAt bs 4 4)
  if isNarrowType ty then ⟨lo % 4, .ofNat 32 (lo / 2 ^ 16 % 256), lo / 4 % 2 == 1, ty, lo / 256 % 4, hi⟩
  else ⟨lo % 4, hi, lo / 4 % 2 == 1, ty, lo / 256 % 4, 0⟩

/-- Offsets of the scratchpad window and its marks in a frame (R337). -/
def Team.windowAt (t : Team) : Nat := 0x3B000 + 1024 * t.accRows
/-- Blocks of a window. -/
def Team.blocks (t : Team) : Nat := (t.scrBytes + 2047) / 2048

/-- The device's writes that end a save: the window, its poison carried, and its marks (R335). -/
def State.writeWindow (s : State) (c : Context) (va : DWord) (t : Team) : Except OwnFail State := do
  let at_ (k : Nat) : DWord := va + .ofNat 64 (t.windowAt + k)
  let s ← (List.range (t.scrBytes / 64)).foldlM (fun (st : State) i =>
    if t.scrPoison.contains i then st.ownPoison c (at_ (64 * i))
    else st.ownWrite c (at_ (64 * i)) (t.scr.read (64 * i) 64)) s
  s.ownWrite c (at_ t.scrBytes) ((List.range t.blocks).flatMap fun b => (t.mark b).bytes)
/-- The device's write of STATE (R338). -/
def State.writeState (s : State) (c : Context) (va : DWord) (t : Team) (state : Nat) : Except OwnFail State :=
  s.ownWrite c (va + 0x0C) (((t.header state).drop 0x0C).take 4)

/-- SAVE_END (R335): every group that took the request has left and every drained operation has completed; the window, the
marks and STATE 2 are written, and the core's resources are free. A delivery or an end of a restore that has waited comes first. -/
def execSaveEnd (tid : Nat) (s : State) : Out :=
  let s := (s.endRestore tid).deliver tid
  match s.team? tid with
  | none => .next s
  | some t =>
    if t.phase != .saving || !t.groups.all (fun g => g.ended || g.left) || s.draining t || s.frameWaits t then .next s else
    match s.frameAt t with
    | none => .next s
    | some (c, va) =>
      match (do (← s.writeWindow c va t).writeState c va t 2) with
      | .error (cause, sub) => .next (s.loseContext t.ctx cause sub)
      | .ok s =>
        .next { s with
          teams := s.teams.filter (·.tid != tid)
          saved := s.saved ++ [{ t with phase := .saved, stamp := s.nextId }]
          nextId := s.nextId + 1
          cur := s.cur.filter fun r => r.tid != tid }

/-! ## Restoring (R324, R340) -/

/-- The budgets and the ended groups a frame's header records. -/
def State.headerOf (s : State) (c : Context) (va : DWord) (t : Team) : Except OwnFail (List Nat × Nat) := do
  let bs ← s.ownRead c va 256
  return ((List.range t.groups.length).map fun i => bytesAt bs (0x40 + 2 * i) 2, bytesAt bs 0x28 8)
/-- Loading the window of a frame, its poison carried, and its marks (R340). -/
def State.readWindow (s : State) (c : Context) (va : DWord) (t : Team) : Except OwnFail Team := do
  let at_ (k : Nat) : DWord := va + .ofNat 64 (t.windowAt + k)
  let t := { t with scr := Memory.empty, scrPoison := [], marks := [] }
  let t ← (List.range (t.scrBytes / 64)).foldlM (fun (t : Team) i =>
    match s.ownRead c (at_ (64 * i)) 64 with
    | .ok bs => .ok { t with scr := t.scr.write (64 * i) bs }
    | .error (9, _) => .ok { t with scrPoison := i :: t.scrPoison }
    | .error x => .error x) t
  (List.range t.blocks).foldlM (fun (t : Team) b => do
    let bs ← s.ownRead c (at_ (t.scrBytes + 8 * b)) 8
    return if t.wholeBlock b then t.setMark b (markOf bs) else t) t

/-- A restored team before its window is loaded: its groups start in the restore routine (R340). -/
def State.freshTeam (s : State) (x : Grid) (t : Team) (room : Room) (buds : List Nat) (ended : Nat) : Team :=
  let flags := activeFlags s room.core room.ports []
  let groups := t.groups.zipIdx.map fun (g, i) =>
    let n := newGroup x.image x.args g.role (buds.getD i 0) (room.ports.getD i 0) 0 t.lin i (s.nextId + i) (flags.getD i false)
    let n := { n with gfid := g.gfid, trapDue := g.trapDue }
    if ended / 2 ^ i % 2 = 1 then n.over
    else { n with cause := causeWord .preempt 1, priv := true }
  { t with
    core := room.core, groups := groups, scrBase := room.scr, acc := [], accBase := room.acc, tagBase := room.tags
    tg := 0, bound := 0, tagErr := 0, tagReason := [], rings := if t.cont then [] else x.newRings
    bars := List.replicate 8 Barrier.new, moves := [], prio := x.effPrio, stamp := s.nextId
    phase := .restoring, got16 := false, got17 := false, got18 := false }
/-- A team placed again from its frame (R340). -/
def State.restoreTeam (s : State) (t : Team) (room : Room) : State :=
  match s.grid? t.ctx t.serial, s.frameAt t with
  | some x, some (c, va) =>
    match (do
      let (buds, ended) ← s.headerOf c va t
      let team ← s.readWindow c va (s.freshTeam x t room buds ended)
      return (team, ← s.writeState c va t 3)) with
    | .error (cause, sub) => s.loseContext t.ctx cause sub
    | .ok (team, s) =>
      { s.setClock t.ctx room.core (Nat.max (s.clockOf t.ctx room.core) t.ltime) with
        teams := s.teams ++ [team]
        saved := s.saved.map fun y => if y.tid == t.tid then { y with phase := .restoring } else y
        nextId := s.nextId + t.groups.length + 1
        convoys := s.convoys.map fun v => match t.convoy with
          | some (k, i) =>
            if k == v.id && !v.started.contains i then { v with started := v.started ++ [i], cores := room.core :: v.cores } else v
          | none => v }
  | _, _ => s

end Sys2Proof.Machine
end

