-- ==== Sys2Proof/Machine/Accum.lean ====
section
/-! DEFINITION. Accumulator addresses and shape words, the accumulator instructions, and drains (R24, R25, R190 to R194). -/
namespace Sys2Proof.Machine

/-! ## Addresses and shapes (R25, R190) -/

/-- A tile of a window: first row and column, rows and columns. -/
structure Tile where
  row : Nat
  col : Nat
  rows : Nat
  cols : Nat
  deriving DecidableEq, Repr, Inhabited

/-- A reserved bit of an accumulator address. -/
def accReserved (w : Word) : Bool := w.extractLsb' 25 3 != 0 || w.extractLsb' 8 8 != 0
/-- ROW0 of an accumulator address. -/
def accRow (w : Word) : Nat := (w.extractLsb' 16 9).toNat
/-- COL0 of an accumulator address. -/
def accCol (w : Word) : Nat := (w.extractLsb' 0 8).toNat
/-- ROWS of a shape word. -/
def shapeRows (w : Word) : Nat := (w.extractLsb' 16 10).toNat
/-- COLS of a shape word. -/
def shapeCols (w : Word) : Nat := (w.extractLsb' 0 9).toNat
/-- The tile an address and a shape word name. -/
def tileOf (a w : Word) : Tile := ⟨accRow a, accCol a, shapeRows w, shapeCols w⟩
/-- A tile that reaches past the rows of a window or past column 255 (R25). -/
def Tile.beyond (x : Tile) (rows : Nat) : Bool := rows < x.row + x.rows || 256 < x.col + x.cols
/-- The checks of an accumulator address with XM = 0 (R25, R411). -/
def Team.accCheck (t : Team) (a : Word) (x : Tile) : Except Stop Unit := do
  check (!accReserved a) (protectAt 14 (a.setWidth 64))
  check (!a.getLsbD 28) (protectAt 6 (a.setWidth 64))
  check (!x.beyond t.accRows) (protectAt 5 (a.setWidth 64))
/-- The check of a shape word (R190). -/
def shapeCheck (w : Word) (tl : Bool) : Except Stop Unit :=
  check ((tl || !w.getLsbD 31) && w.extractLsb' 26 5 == 0 && w.extractLsb' 9 7 == 0 && 1 ≤ shapeRows w && shapeRows w ≤ 512
    && 1 ≤ shapeCols w && shapeCols w ≤ 256) (protect 14)

/-- The cells of a tile, row by row, as their numbers in the window. -/
def Tile.cells (x : Tile) : List Nat :=
  (List.range (x.rows * x.cols)).map fun i => (x.row + i / x.cols) * 256 + x.col + i % x.cols
/-- The words of a tile. -/
def Team.tileWords (t : Team) (x : Tile) : List Word := x.cells.map fun i => (t.acc.lookup i).getD 0
/-- Setting a tile's words. -/
def Team.setTile (t : Team) (x : Tile) (ws : List Word) : Team := t.setCells (x.cells.zip ws)

/-- The matrix engine of a core has an operation in flight: the next one waits (R183). -/
def State.engineWait (s : State) (t : Team) : Except Stop Unit :=
  if s.matrix.any fun m => m.core == t.core then .error (.wait .engine s) else .ok ()
/-- The bytes of a row, rounded up to 16 (R190). -/
def rowPitchOf (bytes : Nat) : Nat := (bytes + 15) / 16 * 16

/-! ## The cell instructions (R191, R192) -/

/-- ACLR (R191). -/
def execAclr (m : Bool) (d b : VReg) : State → Out :=
  runWord (.aclr m d b) { s := m, roles := (· == .matrix), once := Group.someActs } fun s r g => do
    let a ← g.uniform d
    let w ← g.uniform b
    let t := s.teamOf r
    t.accCheck a (tileOf a w)
    shapeCheck w false
    s.engineWait t
    return (s.modTeam r.tid fun t => t.setTile (tileOf a w) ((tileOf a w).cells.map fun _ => 0), g)

/-- The scratchpad accesses of a tile's rows. -/
def rowAccs (va : Word) (pitch : Nat) (rows : List (List Byte)) : List Acc :=
  rows.zipIdx.map fun (bs, r) => .store 0 (scrVal (va + .ofNat 32 (r * pitch))) bs
/-- The loads of a tile's rows. -/
def rowLoads (va : Word) (pitch rows n : Nat) : List Acc :=
  (List.range rows).map fun r => .load 0 (scrVal (va + .ofNat 32 (r * pitch))) n

/-- ALD (R191). -/
def execAld (m : Bool) (d a b : VReg) : State → Out :=
  runWord (.ald m d a b) { s := m, roles := (· == .matrix), once := Group.someActs } fun s r g => do
    g.needSwz
    let da ← g.uniform d
    let va ← g.uniform a
    let w ← g.uniform b
    let t := s.teamOf r
    let x := tileOf da w
    let pitch := rowPitchOf (4 * x.cols)
    t.accCheck da x
    s.scrChecks t 16 [(va, (x.rows - 1) * pitch + 4 * x.cols)]
    shapeCheck w false
    let _ ← s.scrSites r .read 16 g.swz (rowLoads va pitch x.rows (4 * x.cols))
    s.engineWait t
    let (s, olds) ← s.scrAccess r g .read 16 g.swz none (rowLoads va pitch x.rows (4 * x.cols))
    return (s.modTeam r.tid fun t => t.setTile x (olds.flatMap fun bs => bytesWords bs x.cols), g)

/-- AMOV (R191): every source cell is read before any cell is written. -/
def execAmov (m : Bool) (d a b : VReg) : State → Out :=
  runWord (.amov m d a b) { s := m, roles := (· == .matrix), once := Group.someActs } fun s r g => do
    let da ← g.uniform d
    let sa ← g.uniform a
    let w ← g.uniform b
    let t := s.teamOf r
    t.accCheck da (tileOf da w)
    t.accCheck sa (tileOf sa w)
    shapeCheck w false
    s.engineWait t
    return (s.modTeam r.tid fun t => t.setTile (tileOf da w) (t.tileWords (tileOf sa w)), g)

/-- ADEXP (R191): each cell times its row's factor, rounded to nearest even. -/
def execAdexp (m : Bool) (d a b : VReg) : State → Out :=
  runWord (.adexp m d a b) { s := m, roles := (· == .matrix), once := Group.someActs } fun s r g => do
    g.needSwz
    let da ← g.uniform d
    let va ← g.uniform a
    let w ← g.uniform b
    let t := s.teamOf r
    let x := tileOf da w
    t.accCheck da x
    s.scrChecks t 4 [(va, 4 * x.rows)]
    shapeCheck w false
    let _ ← s.scrSites r .read 4 g.swz [.load 0 (scrVal va) (4 * x.rows)]
    s.engineWait t
    let (s, olds) ← s.scrAccess r g .read 4 g.swz none [.load 0 (scrVal va) (4 * x.rows)]
    let fs := bytesWords (olds.headD []) x.rows
    let rs := (t.tileWords x).mapIdx fun i c => fpMul 8 0 false (fpOf 8 false c) (fpOf 8 false (fs.getD (i / x.cols) 0))
    return (s.modTeam r.tid fun t => t.setTile x (rs.map (·.1)), g.raise (rs.foldl (fun a y => a ||| y.2) 0))

/-- K of an element class by its container (R175). -/
def classK (bits : Nat) : Nat := match bits with | 32 => 16 | 16 => 64 | 8 => 128 | _ => 256
/-- The types of matrix operands (R175, R177). -/
def operandType (t : Nat) : Bool := t == 0 || t == 3 || t == 6 || t == 7 || t == 9 || isNarrowType t
/-- The byte offset of stored element (s, k) of an operand, from its base (R176). -/
def operandOff (bits s k : Nat) : Nat :=
  let (rows, cols) := tileShape bits
  let tc := classK bits / cols
  ((s / rows) * tc + k / cols) * 2048 + (s % rows * cols + k % cols) * bits / 8
/-- Element codes packed at a container width; two 4-bit codes to a byte, the low one first (R45). DESIGN CHOICE (log entry 103): the
high nibble of the last byte, when the codes are odd in number, is 0. -/
def packCodes (bits : Nat) : List Nat → List Byte
  | [] => []
  | c :: rest =>
    if bits = 4 then
      match rest with
      | [] => [.ofNat 8 (c % 16)]
      | e :: rest => .ofNat 8 (c % 16 + 16 * (e % 16)) :: packCodes bits rest
    else natLe (bits / 8) c ++ packCodes bits rest
/-- A converted element's code in memory. -/
def storeCode (t : Nat) (w : Word) : Nat := if isNarrowType t then w.toNat else leNat (storeBytes t w)

/-- The stores of an `ast`: rows at the pitch, or the pieces of the operand layout (R190, R192). -/
def astAccs (bits : Nat) (tl : Bool) (va : Word) (x : Tile) (codes : List Nat) : List Acc :=
  let pitch := rowPitchOf ((x.cols * bits + 7) / 8)
  (List.range x.rows).flatMap fun r =>
    let row := (codes.drop (r * x.cols)).take x.cols
    if !tl then [.store 0 (scrVal (va + .ofNat 32 (r * pitch))) (packCodes bits row)]
    else
      let (_, cols) := tileShape bits
      (List.range (x.cols / cols)).map fun j =>
        .store 0 (scrVal (va + .ofNat 32 (operandOff bits r (j * cols)))) (packCodes bits ((row.drop (j * cols)).take cols))

/-- AST (R192). -/
def execAst (m : Bool) (d a b : VReg) : State → Out :=
  runWord (.ast m d a b) { s := m, roles := (· == .matrix), once := Group.someActs } fun s r g => do
    let w0 := g.rd b (g.actives.headD 0)
    let tl := w0.getLsbD 31
    let st := if isIntType g.type then 2 else 8
    mdChecks (isReservedType g.type || (!isIntType g.type && g.type != 8 && g.badRnd) || g.swz == 3) (g.badFmt0 g.type)
      (tl && !operandType g.type)
    let da ← g.uniform d
    let va ← g.uniform a
    let w ← g.uniform b
    g.needH0 [g.type]
    let t := s.teamOf r
    let x := tileOf da w
    let bits := elemContainer g.type (g.fmt0 g.type)
    let pitch := rowPitchOf ((x.cols * bits + 7) / 8)
    let bytes := if tl then 64 * classK bits * bits / 8 else (x.rows - 1) * pitch + (x.cols * bits + 7) / 8
    t.accCheck da x
    s.scrChecks t (if tl then 2048 else 16) [(va, bytes)]
    shapeCheck w true
    check (!tl || (x.rows == 64 && x.cols == classK bits)) (protect 14)
    let conv (c : Word) : Word × Word :=
      if g.type = 8 then (c, 0) else convert st g.type 0 (g.fmt0 g.type) g.rnd g.sat g.ftz c
    let rs := (t.tileWords x).map conv
    let xs := astAccs bits tl va x (rs.map fun y => storeCode g.type y.1)
    let writer : Writer := some (g.type, if isNarrowType g.type then g.fmt0 g.type else 0)
    let _ ← s.scrSites r .write 1 g.swz xs
    s.engineWait t
    let (s, _) ← s.scrAccess r g .write 1 g.swz writer xs
    return (s, g.raise (rs.foldl (fun a y => a ||| y.2) 0))

/-! ## Drains (R193, R194) -/

/-- The team a drain's destination lies in; none while that member has not started. -/
def State.accTid (s : State) (t : Team) (w : Word) : Option Nat :=
  if !w.getLsbD 28 then some t.tid
  else match t.convoy with
    | none => none
    | some (v, me) =>
      let k := (w.extractLsb' 29 3).toNat
      if k = me then some t.tid else (s.teams.find? fun x => x.convoy == some (v, k)).map (·.tid)
/-- XM = 1 outside a convoy, beyond its members, or at a member that has ended (R25, R230). -/
def State.accMisuse (s : State) (t : Team) (w : Word) : Bool :=
  w.getLsbD 28 && (match s.convoyOf t with
    | some v => decide (v.members ≤ (w.extractLsb' 29 3).toNat) || v.ended.contains (w.extractLsb' 29 3).toNat
    | none => true)

/-- The member an accumulator address names has not started (R193, R225). -/
def State.accUnstarted (s : State) (t : Team) (w : Word) : Bool :=
  w.getLsbD 28 && (match s.convoyOf t with
    | some v => !v.started.contains (w.extractLsb' 29 3).toNat
    | none => false)

/-- ADRN (R193): a drain to a member that has not started waits at issue; the source cells are read at issue. -/
def execAdrn (m : Bool) (d a b : VReg) : State → Out :=
  runWord (.adrn m d a b) { s := m, roles := (· == .matrix), once := Group.someActs } fun s r g => do
    mdChecks (isReservedType g.type) false (!(g.type == 8 || g.type == 2))
    let da ← g.uniform d
    let sa ← g.uniform a
    let w ← g.uniform b
    let cw ← g.uniform (nextReg b)
    let t := s.teamOf r
    check (!accReserved da) (protectAt 14 (da.setWidth 64))
    check (!s.accMisuse t da) (protectAt 6 (da.setWidth 64))
    check (!(tileOf da w).beyond t.accRows) (protectAt 5 (da.setWidth 64))
    t.accCheck sa (tileOf sa w)
    shapeCheck w false
    let c ← t.completion cw false false
    if s.accUnstarted t da then .error (.wait .member s)
    s.engineWait t
    let gen := match s.convoyOf t with | some v => (v.bars.getD 0 default).gen | none => 0
    let me := match t.convoy with | some (_, i) => i | none => 0
    return (← s.startOp r c (.adrn da (shapeRows w) (shapeCols w) (t.tileWords (tileOf sa w)) (g.type == 2) g.sat gen me), g)

/-- The destination tile of a drain. -/
def drainTile (dst : Word) (rows cols : Nat) : Tile := ⟨accRow dst, accCol dst, rows, cols⟩
/-- Two drains name a common destination: the same tile of the same team. -/
def sameDest (s : State) (x y : Op) : Bool :=
  match x.kind, y.kind with
  | .adrn d r c _ _ _ _ _, .adrn e p q _ _ _ _ _ =>
    s.accTid ((s.team? x.tid).getD default) d == s.accTid ((s.team? y.tid).getD default) e
      && accRow d == accRow e && accCol d == accCol e && r == p && c == q
  | _, _ => false
/-- A drain's place in the order fixed by the program: generation, member, and issue (R194). -/
def drainRank : OpKind → Nat × Nat
  | .adrn _ _ _ _ _ _ gen me => (gen, me)
  | _ => (0, 0)
/-- An earlier drain in that order is still to be applied. -/
def State.drainBefore (s : State) (o : Op) : Bool :=
  let (gen, me) := drainRank o.kind
  s.ops.any fun y => y.id != o.id && sameDest s y o &&
    (let (h, k) := drainRank y.kind
     h < gen || (h == gen && (k < me || (k == me && y.id < o.id))))
/-- Every lower member has arrived at convoy barrier 0 in the drain's generation, so that it can start no drain of it. -/
def State.lowerArrived (s : State) (o : Op) : Bool :=
  let t := (s.team? o.tid).getD default
  match s.convoyOf t with
  | none => true
  | some v =>
    let (gen, me) := drainRank o.kind
    let b := v.bars.getD 0 default
    gen < b.gen || (List.range me).all fun j =>
      v.ended.contains j || (match (s.teams ++ s.saved).find? fun x => x.convoy == some (v.id, j) with
        | some x => x.alive.all fun g => b.who.contains (64 * j + g)
        | none => false)

/-- ADRN_DRAIN_APPLY (R193, R194): the next drain in the program's order is added into its destination, and recorded. -/
def execAdrnDrainApply (id : Nat) (s : State) : Out :=
  match s.op? id with
  | none => .next s
  | some o =>
    match o.kind with
    | .adrn dst rows cols cells int sat gen me =>
      let t := (s.team? o.tid).getD default
      match s.accTid t dst with
      -- a destination member that has ended is protected, as it is at issue (R147, R230)
      | none => .next (if s.accMisuse t dst then s.endOp o 3 else s)
      | some tid =>
        let dt := (s.team? tid).getD default
        -- the destination's engine order: no add lands inside an operation in flight (R182)
        let busy := s.matrix.any fun m => m.core == dt.core
        if o.captured || busy || s.drainBefore o || !s.lowerArrived o then .next s else
        let x := drainTile dst rows cols
        let rs : List (Word × Word) := ((dt.tileWords x).zip cells).map fun (c, w) =>
          if int then
            if sat then intResult 2 true (intOf 2 c + intOf 2 w) else (c + w, 0)
          else fpAdd 8 0 false (fpOf 8 false c) (fpOf 8 false w)
        let s' := s.modTeam tid fun t => t.setTile x (rs.map (·.1))
        let s' := s'.modGroup ⟨o.tid, o.slot⟩ fun g => g.raise (rs.foldl (fun a y => a ||| y.2) 0)
        let ev : RecEvent := ⟨8, s.opParty o, dst.setWidth 64, hashWords [.ofNat 32 gen, .ofNat 32 me], dt.core, none⟩
        match s'.gate ((s.context? o.ctx).getD default) [ev] with
        | .hold => .next s
        | .go s' => .next (s'.endOp o 0)
        | .diverge n =>
          .next ((s.dueTrap ⟨o.tid, o.slot⟩ ⟨.replayDivergence, 0, .ofNat 64 n⟩).endOp o 5)
    | _ => .next s

end Sys2Proof.Machine
end

