-- ==== Sys2Proof/Machine/Integer.lean ====
section
/-! DEFINITION. The integer instructions (R102 to R107). -/
namespace Sys2Proof.Machine

/-- The linear shape of two registers. -/
def linear2 (a b : VReg) (g : Group) : Nat := linearShape [g.rank a, g.rank b]
/-- The shape of every instruction without a rule of its own, over its sources. -/
def other (rs : List VReg) (g : Group) : Nat := otherShape (rs.map g.rank)

/-- ADD (R103): d := a + b. -/
def execAdd (m : Bool) (d a b : VReg) : State → Out :=
  runGroup (.add m d a b) { s := m } (typedInt d (linear2 a b) fun g f => g.int a f + g.int b f)
/-- SUB (R103): d := a − b. -/
def execSub (m : Bool) (d a b : VReg) : State → Out :=
  runGroup (.sub m d a b) { s := m } (typedInt d (linear2 a b) fun g f => g.int a f - g.int b f)
/-- MUL (R103): d := a × b. -/
def execMul (m : Bool) (d a b : VReg) : State → Out :=
  runGroup (.mul m d a b) { s := m }
    (typedInt d (fun g => productShape (g.rank a) (g.rank b)) fun g f => g.int a f * g.int b f)
/-- MULH (R103): d := ⌊a × b ÷ 2^w⌋. -/
def execMulh (m : Bool) (d a b : VReg) : State → Out :=
  runGroup (.mulh m d a b) { s := m }
    (typedInt d (other [a, b]) fun g f => (g.int a f * g.int b f).fdiv ((2 ^ intWidth g.type : Nat) : Int))
/-- MAD (R103): d := a × b + d. -/
def execMad (m : Bool) (d a b : VReg) : State → Out :=
  runGroup (.mad m d a b) { s := m }
    (typedInt d (fun g => linearShape [productShape (g.rank a) (g.rank b), g.rank d])
      fun g f => g.int a f * g.int b f + g.int d f)
/-- MIN (R103): the smaller of a and b. -/
def execMin (m : Bool) (d a b : VReg) : State → Out :=
  runGroup (.min m d a b) { s := m }
    (typedInt d (other [a, b]) fun g f => if g.int b f < g.int a f then g.int b f else g.int a f)
/-- MAX (R103): the larger of a and b. -/
def execMax (m : Bool) (d a b : VReg) : State → Out :=
  runGroup (.max m d a b) { s := m }
    (typedInt d (other [a, b]) fun g f => if g.int a f < g.int b f then g.int b f else g.int a f)
/-- ABS (R103): d := |a|. -/
def execAbs (m : Bool) (d a : VReg) : State → Out :=
  runGroup (.abs m d a) { s := m } (typedInt d (other [a]) fun g f => ((g.int a f).natAbs : Int))
/-- NEG (R103): d := −a. -/
def execNeg (m : Bool) (d a : VReg) : State → Out :=
  runGroup (.neg m d a) { s := m } (typedInt d (fun g => g.rank a) fun g f => -(g.int a f))
/-- AND (R103). -/
def execAnd (m : Bool) (d a b : VReg) : State → Out :=
  runGroup (.and m d a b) { s := m } (untyped d (other [a, b]) fun g f => g.rd a f &&& g.rd b f)
/-- OR (R103). -/
def execOr (m : Bool) (d a b : VReg) : State → Out :=
  runGroup (.or m d a b) { s := m } (untyped d (other [a, b]) fun g f => g.rd a f ||| g.rd b f)
/-- XOR (R103). -/
def execXor (m : Bool) (d a b : VReg) : State → Out :=
  runGroup (.xor m d a b) { s := m } (untyped d (other [a, b]) fun g f => g.rd a f ^^^ g.rd b f)
/-- NOT (R103). -/
def execNot (m : Bool) (d a : VReg) : State → Out :=
  runGroup (.not m d a) { s := m } (untyped d (other [a]) fun g f => ~~~(g.rd a f))
/-- SHL (R103): zero for an amount of 32 or more. -/
def execShl (m : Bool) (d a b : VReg) : State → Out :=
  runGroup (.shl m d a b) { s := m }
    (untyped d (fun g => shiftShape (g.rank a) (g.rank b)) fun g f => g.rd a f <<< Nat.min (g.rd b f).toNat 32)
/-- SHR (R103): zero for an amount of 32 or more. -/
def execShr (m : Bool) (d a b : VReg) : State → Out :=
  runGroup (.shr m d a b) { s := m } (untyped d (other [a, b]) fun g f => g.rd a f >>> Nat.min (g.rd b f).toNat 32)
/-- SAR (R103): copies of bit 31 for an amount of 32 or more. -/
def execSar (m : Bool) (d a b : VReg) : State → Out :=
  runGroup (.sar m d a b) { s := m }
    (untyped d (other [a, b]) fun g f => (g.rd a f).sshiftRight (Nat.min (g.rd b f).toNat 32))
/-- ROT (R103): rotate left by b bits 4:0. -/
def execRot (m : Bool) (d a b : VReg) : State → Out :=
  runGroup (.rot m d a b) { s := m }
    (untyped d (other [a, b]) fun g f => (g.rd a f).rotateLeft ((g.rd b f).toNat % 32))
/-- Count of the one bits of a word. -/
def popcount (w : Word) : Nat := ((List.range 32).filter w.getLsbD).length
/-- Count of the leading zeros of a word. -/
def leadingZeros (w : Word) : Nat := if w = 0 then 32 else 31 - Nat.log2 w.toNat
/-- A word with its bits reversed. -/
def bitReverse (w : Word) : Word :=
  (List.range 32).foldl (fun (acc : Word) i => if w.getLsbD i then acc ||| (1#32 <<< (31 - i)) else acc) 0
/-- POPC (R103). -/
def execPopc (m : Bool) (d a : VReg) : State → Out :=
  runGroup (.popc m d a) { s := m } (untyped d (other [a]) fun g f => .ofNat 32 (popcount (g.rd a f)))
/-- CLZ (R103). -/
def execClz (m : Bool) (d a : VReg) : State → Out :=
  runGroup (.clz m d a) { s := m } (untyped d (other [a]) fun g f => .ofNat 32 (leadingZeros (g.rd a f)))
/-- BREV (R103). -/
def execBrev (m : Bool) (d a : VReg) : State → Out :=
  runGroup (.brev m d a) { s := m } (untyped d (other [a]) fun g f => bitReverse (g.rd a f))
/-- The position and the length, cut at bit 31, of a bit field (R103). -/
def fieldOf (b : Word) : Nat × Nat :=
  let pos := (b.extractLsb' 0 5).toNat
  (pos, Nat.min (b.extractLsb' 8 5).toNat (32 - pos))
/-- A field of a word, sign-extended when bit 16 of the descriptor is 1 (R103). -/
def fieldExtract (a b : Word) : Word :=
  let (pos, len) := fieldOf b
  let x := a.toNat / 2 ^ pos % 2 ^ len
  if len = 0 then 0
  else if b.getLsbD 16 && 2 ^ (len - 1) ≤ x then .ofInt 32 ((x : Int) - (2 ^ len : Nat)) else .ofNat 32 x
/-- A word with a field replaced by the low bits of `a` (R103). -/
def fieldInsert (d a b : Word) : Word :=
  let (pos, len) := fieldOf b
  let mask : Word := .ofNat 32 ((2 ^ len - 1) * 2 ^ pos)
  (d &&& ~~~mask) ||| ((a <<< pos) &&& mask)
/-- BFX (R103). -/
def execBfx (m : Bool) (d a b : VReg) : State → Out :=
  runGroup (.bfx m d a b) { s := m } (untyped d (other [a, b]) fun g f => fieldExtract (g.rd a f) (g.rd b f))
/-- BFI (R103). -/
def execBfi (m : Bool) (d a b : VReg) : State → Out :=
  runGroup (.bfi m d a b) { s := m }
    (untyped d (other [a, b, d]) fun g f => fieldInsert (g.rd d f) (g.rd a f) (g.rd b f))
/-- The shape of a `sel`: that of the source chosen under p0, else general (R88, R105). -/
def selShape (a b : VReg) (g : Group) : Nat := if g.gpred = 0 then (if g.ginv then g.rank b else g.rank a) else 2
/-- SEL (R105): every active fibre takes a when it passes the guard, else b. -/
def execSel (m : Bool) (d a b : VReg) : State → Out :=
  runGroup (.sel m d a b) { s := m } fun g =>
    g.result d (selShape a b g) g.active fun f => (if g.passes f then g.rd a f else g.rd b f, 0)
/-- MOV (R103). -/
def execMov (m : Bool) (d a : VReg) : State → Out :=
  runGroup (.mov m d a) { s := m } (untyped d (fun g => g.rank a) fun g f => g.rd a f)
/-- CVT (R107): from `md.STYPE` to `md.TYPE`; narrow formats come from h0 (R114). -/
def execCvt (m : Bool) (d a : VReg) : State → Out :=
  runGroup (.cvt m d a) { s := m } fun g => do
    let rounds := !(isIntType g.stype && isIntType g.type)
    mdChecks (isReservedType g.stype || isReservedType g.type || (rounds && g.badRnd))
      (g.badFmt0 g.stype || g.badFmt0 g.type) false
    g.fits d (other [a] g)
    g.needH0 [g.stype, g.type]
    g.result d (other [a] g) g.on fun f =>
      convert g.stype g.type (g.fmt0 g.stype) (g.fmt0 g.type) g.rnd g.sat g.ftz (g.rd a f)

/-- A typed integer comparison into a predicate (R103, R105). -/
def intCompare (d : PReg) (a b : VReg) (c : Int → Int → Bool) (g : Group) : Except Stop Group := do
  g.needInt
  return g.compare d fun f => (c (g.int a f) (g.int b f), 0)
/-- CMP_EQ (R103). -/
def execCmpEq (m : Bool) (d : PReg) (a b : VReg) : State → Out :=
  runGroup (.cmpEq m d a b) { s := m } (intCompare d a b fun x y => x == y)
/-- CMP_NE (R103). -/
def execCmpNe (m : Bool) (d : PReg) (a b : VReg) : State → Out :=
  runGroup (.cmpNe m d a b) { s := m } (intCompare d a b fun x y => x != y)
/-- CMP_LT (R103). -/
def execCmpLt (m : Bool) (d : PReg) (a b : VReg) : State → Out :=
  runGroup (.cmpLt m d a b) { s := m } (intCompare d a b fun x y => x < y)
/-- CMP_LE (R103). -/
def execCmpLe (m : Bool) (d : PReg) (a b : VReg) : State → Out :=
  runGroup (.cmpLe m d a b) { s := m } (intCompare d a b fun x y => x ≤ y)
/-- CMP_GT (R103). -/
def execCmpGt (m : Bool) (d : PReg) (a b : VReg) : State → Out :=
  runGroup (.cmpGt m d a b) { s := m } (intCompare d a b fun x y => y < x)
/-- CMP_GE (R103). -/
def execCmpGe (m : Bool) (d : PReg) (a b : VReg) : State → Out :=
  runGroup (.cmpGe m d a b) { s := m } (intCompare d a b fun x y => y ≤ x)

/-- ADDI (R104): d := a + sign_extend(imm12). -/
def execAddi (m : Bool) (d a : VReg) (i : BitVec 12) : State → Out :=
  runGroup (.addi m d a i) { s := m } (typedInt d (fun g => g.rank a) fun g f => g.int a f + i.toInt)
/-- ANDI (R104). -/
def execAndi (m : Bool) (d a : VReg) (i : BitVec 12) : State → Out :=
  runGroup (.andi m d a i) { s := m } (untyped d (other [a]) fun g f => g.rd a f &&& i.signExtend 32)
/-- ORI (R104). -/
def execOri (m : Bool) (d a : VReg) (i : BitVec 12) : State → Out :=
  runGroup (.ori m d a i) { s := m } (untyped d (other [a]) fun g f => g.rd a f ||| i.signExtend 32)
/-- XORI (R104). -/
def execXori (m : Bool) (d a : VReg) (i : BitVec 12) : State → Out :=
  runGroup (.xori m d a i) { s := m } (untyped d (other [a]) fun g f => g.rd a f ^^^ i.signExtend 32)
/-- SHLI (R104): by 0 to 31. -/
def execShli (m : Bool) (d a : VReg) (i : BitVec 12) : State → Out :=
  runGroup (.shli m d a i) { s := m } (untyped d (fun g => shiftShape (g.rank a) 0) fun g f => g.rd a f <<< i.toNat)
/-- SHRI (R104): by 0 to 31. -/
def execShri (m : Bool) (d a : VReg) (i : BitVec 12) : State → Out :=
  runGroup (.shri m d a i) { s := m } (untyped d (other [a]) fun g f => g.rd a f >>> i.toNat)

/-- A comparison with a 9-bit immediate, sign-extended and then wrapped into the type (R104). -/
def immCompare (d : PReg) (a : VReg) (i : BitVec 9) (c : Int → Int → Bool) (g : Group) : Except Stop Group := do
  g.needInt
  return g.compare d fun f => (c (g.int a f) (intOf g.type (i.signExtend 32)), 0)
/-- CMPI_EQ (R104). -/
def execCmpiEq (m : Bool) (d : PReg) (a : VReg) (i : BitVec 9) : State → Out :=
  runGroup (.cmpiEq m d a i) { s := m } (immCompare d a i fun x y => x == y)
/-- CMPI_NE (R104). -/
def execCmpiNe (m : Bool) (d : PReg) (a : VReg) (i : BitVec 9) : State → Out :=
  runGroup (.cmpiNe m d a i) { s := m } (immCompare d a i fun x y => x != y)
/-- CMPI_LT (R104). -/
def execCmpiLt (m : Bool) (d : PReg) (a : VReg) (i : BitVec 9) : State → Out :=
  runGroup (.cmpiLt m d a i) { s := m } (immCompare d a i fun x y => x < y)
/-- CMPI_LE (R104). -/
def execCmpiLe (m : Bool) (d : PReg) (a : VReg) (i : BitVec 9) : State → Out :=
  runGroup (.cmpiLe m d a i) { s := m } (immCompare d a i fun x y => x ≤ y)
/-- CMPI_GT (R104). -/
def execCmpiGt (m : Bool) (d : PReg) (a : VReg) (i : BitVec 9) : State → Out :=
  runGroup (.cmpiGt m d a i) { s := m } (immCompare d a i fun x y => y < x)
/-- CMPI_GE (R104). -/
def execCmpiGe (m : Bool) (d : PReg) (a : VReg) (i : BitVec 9) : State → Out :=
  runGroup (.cmpiGe m d a i) { s := m } (immCompare d a i fun x y => y ≤ x)

/-- LI (R104): a U result. -/
def execLi (m : Bool) (d : VReg) (i : BitVec 18) : State → Out :=
  runGroup (.li m d i) { s := m } (untyped d (fun _ => 0) fun _ _ => i.signExtend 32)
/-- LHI (R88, R104): bits 31:18 of each written word; U when the destination is uniform, else G. -/
def execLhi (m : Bool) (d : VReg) (i : BitVec 14) : State → Out :=
  runGroup (.lhi m d i) { s := m }
    (untyped d (fun g => if g.rank d = 0 then 0 else 2) fun g f => i ++ (g.rd d f).extractLsb' 0 18)

end Sys2Proof.Machine
end

