-- ==== Sys2Proof/Machine/FloatOps.lean ====
section
/-! DEFINITION. The float instructions (R109 to R113). -/
namespace Sys2Proof.Machine

/-- A float instruction that rounds by `md.RND`, or does not (R109). -/
def floatOp (d : VReg) (rs : List VReg) (round : Bool) (res : Group → Nat → Word × Word) (g : Group) :
    Except Stop Group := do
  g.needFloat round
  g.result d (other rs g) g.on (res g)

/-- The sign bit of an element in a register word. -/
def signWord (t : Nat) : Word := elemWord t (signBits t true)
/-- The bits of an element in a register word (R34). -/
def elemMask (t : Nat) : Word := elemWord t (signBits t true * 2 - 1)

/-- FADD (R109): a + b. -/
def execFadd (m : Bool) (d a b : VReg) : State → Out :=
  runGroup (.fadd m d a b) { s := m, roles := vectorOnly }
    (floatOp d [a, b] true fun g f => fpAdd g.type g.rnd g.ftz (g.fp a f) (g.fp b f))
/-- FSUB (R109): a − b. -/
def execFsub (m : Bool) (d a b : VReg) : State → Out :=
  runGroup (.fsub m d a b) { s := m, roles := vectorOnly }
    (floatOp d [a, b] true fun g f => fpSub g.type g.rnd g.ftz (g.fp a f) (g.fp b f))
/-- FMUL (R109): a × b. -/
def execFmul (m : Bool) (d a b : VReg) : State → Out :=
  runGroup (.fmul m d a b) { s := m, roles := vectorOnly }
    (floatOp d [a, b] true fun g f => fpMul g.type g.rnd g.ftz (g.fp a f) (g.fp b f))
/-- FDIV (R111): a ÷ b. -/
def execFdiv (m : Bool) (d a b : VReg) : State → Out :=
  runGroup (.fdiv m d a b) { s := m, roles := vectorOnly }
    (floatOp d [a, b] true fun g f => fpDiv g.type g.rnd g.ftz (g.fp a f) (g.fp b f))
/-- FFMA (R109): round(a × b + d), one rounding. -/
def execFfma (m : Bool) (d a b : VReg) : State → Out :=
  runGroup (.ffma m d a b) { s := m, roles := vectorOnly }
    (floatOp d [a, b, d] true fun g f => fpFma g.type g.rnd g.ftz (g.fp a f) (g.fp b f) (g.fp d f))
/-- FMIN (R110): IEEE minimum. -/
def execFmin (m : Bool) (d a b : VReg) : State → Out :=
  runGroup (.fmin m d a b) { s := m, roles := vectorOnly }
    (floatOp d [a, b] false fun g f => fpMinMax g.type 0 g.ftz false false (g.fp a f) (g.fp b f))
/-- FMAX (R110): IEEE maximum. -/
def execFmax (m : Bool) (d a b : VReg) : State → Out :=
  runGroup (.fmax m d a b) { s := m, roles := vectorOnly }
    (floatOp d [a, b] false fun g f => fpMinMax g.type 0 g.ftz true false (g.fp a f) (g.fp b f))
/-- FMINN (R110): minimumNumber. -/
def execFminn (m : Bool) (d a b : VReg) : State → Out :=
  runGroup (.fminn m d a b) { s := m, roles := vectorOnly }
    (floatOp d [a, b] false fun g f => fpMinMax g.type 0 g.ftz false true (g.fp a f) (g.fp b f))
/-- FMAXN (R110): maximumNumber. -/
def execFmaxn (m : Bool) (d a b : VReg) : State → Out :=
  runGroup (.fmaxn m d a b) { s := m, roles := vectorOnly }
    (floatOp d [a, b] false fun g f => fpMinMax g.type 0 g.ftz true true (g.fp a f) (g.fp b f))
/-- FABS (R109): the sign bit cleared. -/
def execFabs (m : Bool) (d a : VReg) : State → Out :=
  runGroup (.fabs m d a) { s := m, roles := vectorOnly }
    (floatOp d [a] false fun g f => (g.rd a f &&& elemMask g.type &&& ~~~(signWord g.type), 0))
/-- FNEG (R109): the sign bit flipped. -/
def execFneg (m : Bool) (d a : VReg) : State → Out :=
  runGroup (.fneg m d a) { s := m, roles := vectorOnly }
    (floatOp d [a] false fun g f => ((g.rd a f &&& elemMask g.type) ^^^ signWord g.type, 0))
/-- FCPYS (R109): the magnitude of a with the sign of b. -/
def execFcpys (m : Bool) (d a b : VReg) : State → Out :=
  runGroup (.fcpys m d a b) { s := m, roles := vectorOnly }
    (floatOp d [a, b] false fun g f =>
      ((g.rd a f &&& elemMask g.type &&& ~~~(signWord g.type)) ||| (g.rd b f &&& signWord g.type), 0))
/-- FRCP (R111): 1 ÷ a, rounded once. -/
def execFrcp (m : Bool) (d a : VReg) : State → Out :=
  runGroup (.frcp m d a) { s := m, roles := vectorOnly }
    (floatOp d [a] true fun g f => fpRcp g.type g.rnd g.ftz (g.fp a f))
/-- FRSQ (R111): 1 ÷ √a, rounded once. -/
def execFrsq (m : Bool) (d a : VReg) : State → Out :=
  runGroup (.frsq m d a) { s := m, roles := vectorOnly }
    (floatOp d [a] true fun g f => fpRsq g.type g.rnd g.ftz (g.fp a f))
/-- FSQRT (R111): √a, rounded once. -/
def execFsqrt (m : Bool) (d a : VReg) : State → Out :=
  runGroup (.fsqrt m d a) { s := m, roles := vectorOnly }
    (floatOp d [a] true fun g f => fpSqrt g.type g.rnd g.ftz (g.fp a f))
/-- FEX2 (R111): 2^a, rounded once. -/
def execFex2 (m : Bool) (d a : VReg) : State → Out :=
  runGroup (.fex2 m d a) { s := m, roles := vectorOnly }
    (floatOp d [a] true fun g f => fpEx2 g.type g.rnd g.ftz (g.fp a f))
/-- FLG2 (R111): log₂ a, rounded once. -/
def execFlg2 (m : Bool) (d a : VReg) : State → Out :=
  runGroup (.flg2 m d a) { s := m, roles := vectorOnly }
    (floatOp d [a] true fun g f => fpLg2 g.type g.rnd g.ftz (g.fp a f))
/-- FSIN (R111): sin(2π·a), rounded once. -/
def execFsin (m : Bool) (d a : VReg) : State → Out :=
  runGroup (.fsin m d a) { s := m, roles := vectorOnly }
    (floatOp d [a] true fun g f => fpSin g.type g.rnd g.ftz (g.fp a f))
/-- FCOS (R111): cos(2π·a), rounded once. -/
def execFcos (m : Bool) (d a : VReg) : State → Out :=
  runGroup (.fcos m d a) { s := m, roles := vectorOnly }
    (floatOp d [a] true fun g f => fpCos g.type g.rnd g.ftz (g.fp a f))
/-- FCLS (R112): the one-hot class code. -/
def execFcls (m : Bool) (d a : VReg) : State → Out :=
  runGroup (.fcls m d a) { s := m, roles := vectorOnly }
    (floatOp d [a] false fun g f => (fpClass g.type (g.rd a f), 0))
/-- FRND (R113): an integral value. -/
def execFrnd (m : Bool) (d a : VReg) : State → Out :=
  runGroup (.frnd m d a) { s := m, roles := vectorOnly }
    (floatOp d [a] true fun g f => fpRnd g.type g.rnd (g.fp a f))
/-- The high half of a word. -/
def hiHalf (w : Word) : Word := w >>> 16
/-- FDOT2 (R113): a.lo × b.lo + a.hi × b.hi + d to f32; TYPE f16 or bf16. -/
def execFdot2 (m : Bool) (d a b : VReg) : State → Out :=
  runGroup (.fdot2 m d a b) { s := m, roles := vectorOnly } fun g => do
    mdChecks (isReservedType g.type || g.badRnd) false (!(g.type == 6 || g.type == 7))
    g.result d (other [a, b, d] g) g.on fun f =>
      let e := fpOf g.type g.ftz
      fpDot2 g.rnd g.ftz (e (g.rd a f)) (e (hiHalf (g.rd a f))) (e (g.rd b f)) (e (hiHalf (g.rd b f)))
        (fpOf 8 g.ftz (g.rd d f))

/-- A float comparison into a predicate (R112). -/
def floatCompare (d : PReg) (a b : VReg) (c : FCond) (g : Group) : Except Stop Group := do
  g.needFloat false
  return g.compare d fun f => fpCmp c (g.fp a f) (g.fp b f)
/-- FCMP_EQ (R112). -/
def execFcmpEq (m : Bool) (d : PReg) (a b : VReg) : State → Out :=
  runGroup (.fcmpEq m d a b) { s := m, roles := vectorOnly } (floatCompare d a b .eq)
/-- FCMP_NE (R112). -/
def execFcmpNe (m : Bool) (d : PReg) (a b : VReg) : State → Out :=
  runGroup (.fcmpNe m d a b) { s := m, roles := vectorOnly } (floatCompare d a b .ne)
/-- FCMP_LT (R112). -/
def execFcmpLt (m : Bool) (d : PReg) (a b : VReg) : State → Out :=
  runGroup (.fcmpLt m d a b) { s := m, roles := vectorOnly } (floatCompare d a b .lt)
/-- FCMP_LE (R112). -/
def execFcmpLe (m : Bool) (d : PReg) (a b : VReg) : State → Out :=
  runGroup (.fcmpLe m d a b) { s := m, roles := vectorOnly } (floatCompare d a b .le)
/-- FCMP_GT (R112). -/
def execFcmpGt (m : Bool) (d : PReg) (a b : VReg) : State → Out :=
  runGroup (.fcmpGt m d a b) { s := m, roles := vectorOnly } (floatCompare d a b .gt)
/-- FCMP_GE (R112). -/
def execFcmpGe (m : Bool) (d : PReg) (a b : VReg) : State → Out :=
  runGroup (.fcmpGe m d a b) { s := m, roles := vectorOnly } (floatCompare d a b .ge)
/-- FCMP_UN (R112). -/
def execFcmpUn (m : Bool) (d : PReg) (a b : VReg) : State → Out :=
  runGroup (.fcmpUn m d a b) { s := m, roles := vectorOnly } (floatCompare d a b .un)

end Sys2Proof.Machine
end

