-- ==== Sys2Proof/Machine/CrossFibre.lean ====
section
/-! DEFINITION. Instructions across fibres (R119 to R123). -/
namespace Sys2Proof.Machine

/-- SHFL (R119): va of fibre (vb bits 3:0); G. -/
def execShfl (m : Bool) (d a b : VReg) : State → Out :=
  runGroup (.shfl m d a b) { s := m, roles := vectorOnly }
    (untyped d (fun _ => 2) fun g f => g.rd a ((g.rd b f).toNat % 16))
/-- SHFX (R119): va of fibre (f XOR vb bits 3:0); G. -/
def execShfx (m : Bool) (d a b : VReg) : State → Out :=
  runGroup (.shfx m d a b) { s := m, roles := vectorOnly }
    (untyped d (fun _ => 2) fun g f => g.rd a (f ^^^ ((g.rd b f).toNat % 16)))
/-- BCST (R119): va of the fibre a uniform vb names; U. DESIGN CHOICE (log entry 39): vb is read under R14 even when no active
fibre passes the guard. -/
def execBcst (m : Bool) (d a b : VReg) : State → Out :=
  runGroup (.bcst m d a b) { s := m, roles := vectorOnly } fun g => do
    let k ← g.uniform b
    return g.putU d (g.rd a (k.toNat % 16))

/-- The reductions of R121. -/
inductive Fold where
  | add | min | max
  deriving DecidableEq, Repr

/-- `md.TYPE` must be integer or float; a float addition rounds by `md.RND` (R121). -/
def Group.needFoldType (g : Group) (round : Bool) : Except Stop Unit :=
  mdChecks (isReservedType g.type || (round && isFloatType g.type && g.badRnd)) false (isNarrowType g.type)

/-- One integer step of a fold, exact. -/
def Fold.intStep (o : Fold) (x y : Int) : Int :=
  match o with
  | .add => x + y
  | .min => if y < x then y else x
  | .max => if x < y then y else x
/-- One float step of a fold (R121). -/
def Fold.fpStep (o : Fold) (g : Group) (x y : Word) : Word × Word :=
  let a := fpOf g.type g.ftz x
  let b := fpOf g.type g.ftz y
  match o with
  | .add => fpAdd g.type g.rnd g.ftz a b
  | .min => fpMinMax g.type 0 g.ftz false false a b
  | .max => fpMinMax g.type 0 g.ftz true false a b

/-- The integer fold of words, wrapped or saturated once (R121). -/
def Fold.ints (o : Fold) (g : Group) : List Word → Word × Word
  | [] => (0, 0)
  | w :: ws => intResult g.type g.sat (ws.foldl (fun x y => o.intStep x (intOf g.type y)) (intOf g.type w))
/-- A float word as the value it gives: a subnormal flushed under FTZ, a NaN made quiet, a signalling one with NV (R36 to
R38). -/
def Group.fpValue (g : Group) (w : Word) : Word × Word :=
  let a := fpOf g.type g.ftz w
  (pickNan g.type [a]).getD (fpPut g.type g.rnd g.ftz a)
/-- The left fold of float words, with the union of the flags (R121). -/
def Fold.fps (o : Fold) (g : Group) : List Word → Word × Word
  | [] => (0, 0)
  | w :: ws => ws.foldl (fun x y => let r := o.fpStep g x.1 y; (r.1, x.2 ||| r.2)) (g.fpValue w)
/-- The fold of words in ascending fibre index (R121). -/
def Fold.run (o : Fold) (g : Group) (ws : List Word) : Word × Word :=
  if isIntType g.type then o.ints g ws else o.fps g ws

/-- `redg` of a fold: over the live, guard-passing fibres; U (R120, R121). -/
def foldReduce (o : Fold) (d a : VReg) (g : Group) : Except Stop Group := do
  g.needFoldType (o == .add)
  let (w, fl) := o.run g (g.ons.map (g.rd a))
  return if g.ons.isEmpty then g else (g.putU d w).raise fl
/-- REDG_ADD (R121). -/
def execRedgAdd (m : Bool) (d a : VReg) : State → Out :=
  runGroup (.redgAdd m d a) { s := m, roles := vectorOnly, collective := true } (foldReduce .add d a)
/-- REDG_MIN (R121). -/
def execRedgMin (m : Bool) (d a : VReg) : State → Out :=
  runGroup (.redgMin m d a) { s := m, roles := vectorOnly, collective := true } (foldReduce .min d a)
/-- REDG_MAX (R121). -/
def execRedgMax (m : Bool) (d a : VReg) : State → Out :=
  runGroup (.redgMax m d a) { s := m, roles := vectorOnly, collective := true } (foldReduce .max d a)

/-- A bitwise `redg` over 32 bits; TYPE is not read (R121). -/
def bitReduce (op : Word → Word → Word) (d a : VReg) (g : Group) : Except Stop Group :=
  match g.ons.map (g.rd a) with
  | [] => .ok g
  | w :: ws => .ok (g.putU d (ws.foldl op w))
/-- REDG_AND (R121). -/
def execRedgAnd (m : Bool) (d a : VReg) : State → Out :=
  runGroup (.redgAnd m d a) { s := m, roles := vectorOnly, collective := true } (bitReduce (· &&& ·) d a)
/-- REDG_OR (R121). -/
def execRedgOr (m : Bool) (d a : VReg) : State → Out :=
  runGroup (.redgOr m d a) { s := m, roles := vectorOnly, collective := true } (bitReduce (· ||| ·) d a)
/-- REDG_XOR (R121). -/
def execRedgXor (m : Bool) (d a : VReg) : State → Out :=
  runGroup (.redgXor m d a) { s := m, roles := vectorOnly, collective := true } (bitReduce (· ^^^ ·) d a)

/-- A value of a type strictly above another, with −0 below +0 (R122). -/
def valueAbove (t : Nat) (y x : Word) : Bool :=
  if isIntType t then intOf t x < intOf t y else (fpOf t false x).below (fpOf t false y)
/-- A NaN of a type. -/
def valueNan (t : Nat) (x : Word) : Bool := isFloatType t && (fpOf t false x).isNan
/-- The total order of R122: the pair y replaces the running pair x, under `argmax` (`max`) or `argmin`. -/
def pairWins (t : Nat) (isMax : Bool) (y x : Word × Word) : Bool :=
  let ny := valueNan t y.1
  let nx := valueNan t x.1
  if ny && nx then if y.2 != x.2 then y.2 < x.2 else elemBits t x.1 < elemBits t y.1
  else if ny then true
  else if nx then false
  else if (if isMax then valueAbove t y.1 x.1 else valueAbove t x.1 y.1) then true
  else if (if isMax then valueAbove t x.1 y.1 else valueAbove t y.1 x.1) then false
  else y.2 < x.2
/-- `redg.argmin` and `redg.argmax` (R122): the winning pair, as offered. -/
def pairReduce (isMax : Bool) (d a : VReg) (g : Group) : Except Stop Group := do
  g.needFoldType false
  match g.ons.map fun f => (g.rd a f, g.rd (nextReg a) f) with
  | [] => return g
  | p :: ps =>
    let w := ps.foldl (fun x y => if pairWins g.type isMax y x then y else x) p
    let snan := isFloatType g.type && (p :: ps).any fun q => (fpOf g.type false q.1).isSnan
    return ((g.putU d w.1).putU (nextReg d) w.2).raise (flagIf snan flagNV)
/-- REDG_ARGMIN (R122). -/
def execRedgArgmin (m : Bool) (d a : VReg) : State → Out :=
  runGroup (.redgArgmin m d a) { s := m, roles := vectorOnly, collective := true } (pairReduce false d a)
/-- REDG_ARGMAX (R122). -/
def execRedgArgmax (m : Bool) (d a : VReg) : State → Out :=
  runGroup (.redgArgmax m d a) { s := m, roles := vectorOnly, collective := true } (pairReduce true d a)

/-- `scan`: each participant's inclusive fold; G, other fibres' words unchanged (R123). -/
def scanOp (o : Fold) (d a : VReg) (g : Group) : Except Stop Group := do
  g.needFoldType (o == .add)
  g.result d 2 g.on fun f => o.run g ((g.ons.filter (· ≤ f)).map (g.rd a))
/-- SCAN_ADD (R123). -/
def execScanAdd (m : Bool) (d a : VReg) : State → Out :=
  runGroup (.scanAdd m d a) { s := m, roles := vectorOnly, collective := true } (scanOp .add d a)
/-- SCAN_MIN (R123). -/
def execScanMin (m : Bool) (d a : VReg) : State → Out :=
  runGroup (.scanMin m d a) { s := m, roles := vectorOnly, collective := true } (scanOp .min d a)
/-- SCAN_MAX (R123). -/
def execScanMax (m : Bool) (d a : VReg) : State → Out :=
  runGroup (.scanMax m d a) { s := m, roles := vectorOnly, collective := true } (scanOp .max d a)

end Sys2Proof.Machine
end

