-- ==== Sys2Proof/Machine/Atomics.lean ====
section
/-! DEFINITION. The atomics (R141 to R144). -/
namespace Sys2Proof.Machine

/-- What one fibre's atomic makes of the old bytes: the new bytes and the flags. -/
abbrev Modify := Group → Nat → List Byte → List Byte × Word

/-- An atomic of `size` bytes: each active, guard-passing, non-helper fibre in ascending order reads and writes indivisibly,
one record each (R141). `put` defers the old values to the destination. -/
def atomicOp (major op size : Nat) (n : BReg) (a : VReg) (dests : List VReg) (round : Bool) (okType : Nat → Bool)
    (operand : Group → Nat → List Byte) (f : Modify) : Effect := fun s r g => do
  mdChecks (isReservedType g.type || (round && g.badRnd)) false (!okType g.type)
  dests.forM fun x => g.fits x 2
  let fs := g.performers false true
  let t := s.teamOf r
  let c := s.ctxOf t
  let xs : List Acc := fs.map fun k =>
    ⟨k, g.gaddr n a 0 k, size, fun old => some (f g k old).1,
      .atomic major op g.type (if major = 0x38 then g.rnd + 8 * g.ftz.toNat else 0) (operand g k)⟩
  -- the room kept for its own records is no longer in the way of them
  let su := s.modGroup r fun x => { x with owed := 0 }
  let v := s.actor r false 0 none (!g.priv)
  let offer (sites : List (Acc × Site)) : Except Stop (State × List (List Byte)) := do
    let (s', olds, _) := v.perform sites su
    let evs := ((xs.zip olds).zip (v.times sites su)).map fun ((x, old), time) =>
      (⟨1, t.party r.slot x.fib false, x.addr, hashBytes old, t.core, some time⟩ : RecEvent)
    return (← s.gateGroup s' c g.priv evs, olds)
  -- under replay every record is compared before any access is performed (R368)
  if !g.priv && c.recMode == 2 then
    let _ ← offer (← s.globalSites r g .rmw size xs true)
  let (s', olds) ← offer (← s.globalSites r g .rmw size xs)
  let s' := s'.armedBy c xs
  let flags := ((fs.zip olds).map fun (k, old) => (f g k old).2).foldl (· ||| ·) 0
  if fs.isEmpty then return (s', g)
  let g' := dests.zipIdx.foldl (fun (g : Group) (x, i) =>
    g.storeDue x 2 fs.contains (pick fs (olds.map fun old => .ofNat 32 (bytesAt old (4 * i) 4)))) g
  return (s', (g'.raise flags).pending)

/-- i32 or n32 (R142). -/
def wordIntType (t : Nat) : Bool := t == 2 || t == 5
/-- A type of 4 bytes (R142). -/
def wordType (t : Nat) : Bool := t == 2 || t == 5 || t == 8 || t == 9

/-- An atomic of major 0x37 on a word (R142). -/
def wordAtomic (op : Nat) (n : BReg) (d a b : VReg) (okType : Nat → Bool) (f : Nat → Word → Word → Word) : Effect :=
  atomicOp 0x37 op 4 n a [d] false okType (fun g k => natLe 4 (g.rd b k).toNat)
    fun g k old => (natLe 4 (f g.type (.ofNat 32 (leNat old)) (g.rd b k)).toNat, 0)

/-- AADD (R142). -/
def execAadd (m : Bool) (n : BReg) (d a b : VReg) : State → Out :=
  runWord (.aadd m n d a b) { s := m, roles := vectorOnly, returning := true }
    (wordAtomic 0 n d a b wordIntType fun _ x y => x + y)
/-- AMIN (R142). -/
def execAmin (m : Bool) (n : BReg) (d a b : VReg) : State → Out :=
  runWord (.amin m n d a b) { s := m, roles := vectorOnly, returning := true }
    (wordAtomic 1 n d a b wordIntType fun t x y => if intOf t y < intOf t x then y else x)
/-- AMAX (R142). -/
def execAmax (m : Bool) (n : BReg) (d a b : VReg) : State → Out :=
  runWord (.amax m n d a b) { s := m, roles := vectorOnly, returning := true }
    (wordAtomic 2 n d a b wordIntType fun t x y => if intOf t x < intOf t y then y else x)
/-- AAND (R142). -/
def execAand (m : Bool) (n : BReg) (d a b : VReg) : State → Out :=
  runWord (.aand m n d a b) { s := m, roles := vectorOnly, returning := true }
    (wordAtomic 3 n d a b wordType fun _ x y => x &&& y)
/-- AOR (R142). -/
def execAor (m : Bool) (n : BReg) (d a b : VReg) : State → Out :=
  runWord (.aor m n d a b) { s := m, roles := vectorOnly, returning := true }
    (wordAtomic 4 n d a b wordType fun _ x y => x ||| y)
/-- AXOR (R142). -/
def execAxor (m : Bool) (n : BReg) (d a b : VReg) : State → Out :=
  runWord (.axor m n d a b) { s := m, roles := vectorOnly, returning := true }
    (wordAtomic 5 n d a b wordType fun _ x y => x ^^^ y)
/-- AXCH (R142). -/
def execAxch (m : Bool) (n : BReg) (d a b : VReg) : State → Out :=
  runWord (.axch m n d a b) { s := m, roles := vectorOnly, returning := true }
    (wordAtomic 6 n d a b wordType fun _ _ y => y)
/-- ACAS (R142): the expected value is d's before the old value is written. -/
def execAcas (m : Bool) (n : BReg) (d a b : VReg) : State → Out :=
  runWord (.acas m n d a b) { s := m, roles := vectorOnly, returning := true }
    (atomicOp 0x37 7 4 n a [d] false wordType
      (fun g k => natLe 4 (g.rd d k).toNat ++ natLe 4 (g.rd b k).toNat)
      fun g k old => (if leNat old = (g.rd d k).toNat then natLe 4 (g.rd b k).toNat else old, 0))

/-- An atomic of major 0x38 on an f32 word (R143). -/
def floatAtomic (op : Nat) (n : BReg) (d a b : VReg) (round : Bool) (f : Group → Fp → Fp → Word × Word) : Effect :=
  atomicOp 0x38 op 4 n a [d] round (fun t => t == 8) (fun g k => natLe 4 (g.rd b k).toNat)
    fun g k old =>
      let (w, fl) := f g (fpOf 8 g.ftz (.ofNat 32 (leNat old))) (g.fp b k)
      (natLe 4 w.toNat, fl)
/-- AFADD (R143). -/
def execAfadd (m : Bool) (n : BReg) (d a b : VReg) : State → Out :=
  runWord (.afadd m n d a b) { s := m, roles := vectorOnly, returning := true }
    (floatAtomic 0 n d a b true fun g x y => fpAdd 8 g.rnd g.ftz x y)
/-- AFMIN (R143). -/
def execAfmin (m : Bool) (n : BReg) (d a b : VReg) : State → Out :=
  runWord (.afmin m n d a b) { s := m, roles := vectorOnly, returning := true }
    (floatAtomic 1 n d a b false fun g x y => fpMinMax 8 0 g.ftz false false x y)
/-- AFMAX (R143). -/
def execAfmax (m : Bool) (n : BReg) (d a b : VReg) : State → Out :=
  runWord (.afmax m n d a b) { s := m, roles := vectorOnly, returning := true }
    (floatAtomic 2 n d a b false fun g x y => fpMinMax 8 0 g.ftz true false x y)

/-- A type of `aminx` and `amaxx` (R144). -/
def pairType (t : Nat) : Bool := t == 2 || t == 5 || t == 8 || t == 6 || t == 7
/-- An offered value as memory holds it: an f16 or bf16 element leaves bits 31:16 zero (R34, R144). -/
def pairValue (t : Nat) (w : Word) : Word := if t = 6 ∨ t = 7 then w &&& 0xFFFF else w
/-- An atomic on a pair of value and index (R144): NV when the offered value is a signalling NaN. -/
def pairAtomic (op : Nat) (isMax : Bool) (n : BReg) (d a b : VReg) : Effect :=
  atomicOp 0x38 op 8 n a [d, nextReg d] false pairType
    (fun g k => natLe 4 (pairValue g.type (g.rd b k)).toNat ++ natLe 4 (g.rd (nextReg b) k).toNat)
    fun g k old =>
      let x : Word × Word := (.ofNat 32 (bytesAt old 0 4), .ofNat 32 (bytesAt old 4 4))
      let y := (pairValue g.type (g.rd b k), g.rd (nextReg b) k)
      (if pairWins g.type isMax y x then natLe 4 y.1.toNat ++ natLe 4 y.2.toNat else old,
        flagIf (isFloatType g.type && (fpOf g.type false y.1).isSnan) flagNV)
/-- AMINX (R144). -/
def execAminx (m : Bool) (n : BReg) (d a b : VReg) : State → Out :=
  runWord (.aminx m n d a b) { s := m, roles := vectorOnly, returning := true } (pairAtomic 3 false n d a b)
/-- AMAXX (R144). -/
def execAmaxx (m : Bool) (n : BReg) (d a b : VReg) : State → Out :=
  runWord (.amaxx m n d a b) { s := m, roles := vectorOnly, returning := true } (pairAtomic 4 true n d a b)

end Sys2Proof.Machine
end

