-- ==== Sys2Proof/Machine/BaseRegs.lean ====
section
/-! DEFINITION. The base registers: each instruction acts once, when some active fibre passes the guard (R108). -/
namespace Sys2Proof.Machine

/-- BSET (R108): bd := (vb ≪ 32) | va. -/
def execBset (m : Bool) (d : BReg) (a b : VReg) : State → Out :=
  runGroup (.bset m d a b) { s := m, once := Group.someOn } fun g => do
    let lo ← g.uniform a
    let hi ← g.uniform b
    return g.putB d (hi ++ lo)
/-- BADD (R108): bd := ba + sign_extend(vb). -/
def execBadd (m : Bool) (d a : BReg) (b : VReg) : State → Out :=
  runGroup (.badd m d a b) { s := m, once := Group.someOn } fun g => do
    let x ← g.uniform b
    return g.putB d (g.breg a + x.signExtend 64)
/-- BMOV from a b register (R108). -/
def execBmov (m : Bool) (d a : BReg) : State → Out :=
  runGroup (.bmov m d a) { s := m, once := Group.someOn } fun g => return g.putB d (g.breg a)
/-- BMOV from a v register (R108): sign-extended. -/
def execBmovV (m : Bool) (d : BReg) (a : VReg) : State → Out :=
  runGroup (.bmovV m d a) { s := m, once := Group.someOn } fun g => do
    let x ← g.uniform a
    return g.putB d (x.signExtend 64)
/-- BGET (R108): the low or high word, a U result. -/
def execBget (m : Bool) (d : VReg) (a : BReg) (k : BitVec 6) : State → Out :=
  runGroup (.bget m d a k) { s := m, once := Group.someOn } fun g =>
    return g.putU d ((g.breg a).extractLsb' (32 * (k.toNat % 2)) 32)

end Sys2Proof.Machine
end

