-- ==== Sys2Proof/Machine/Control.lean ====
section
/-! DEFINITION. Structured control, jumps, ends and traps (R90 to R98). -/
namespace Sys2Proof.Machine

/-! ## Structured control (R90, R91) -/

/-- Fibre f is live for structured control; while privileged the counts are held aside and every fibre is active (R328). -/
def Group.liveAt (g : Group) (f : Nat) : Bool := g.live.getLsbD f
/-- The nesting count of fibre f. -/
def Group.countAt (g : Group) (f : Nat) : Nat := (g.count.getD f 0).toNat
/-- Setting the counts of the live fibres. -/
def Group.setCounts (g : Group) (c : Nat → Nat) : Group :=
  if g.priv then g
  else { g with count := fibres.map fun f => .ofNat 8 (if g.liveAt f then c f else g.countAt f) }
/-- Some live fibre has count 0. -/
def Group.someActive (g : Group) : Bool := !g.actives.isEmpty
/-- Jumping by a signed 12-bit offset from the instruction's own address, which the pc has passed (R60, R72). -/
def Group.hop (g : Group) (i : BitVec 12) : Group := { g with pc := g.pc - 1 + i.signExtend 32 }
/-- A count would pass 255 after adding n to every counted-off live fibre (R30, R90, R91). -/
def Group.countsPass (g : Group) (n : Nat) : Bool :=
  !g.priv && fibres.any fun f => g.liveAt f && g.countAt f != 0 && 255 < g.countAt f + n

/-- IF (R90). -/
def execIfP (m : Bool) (a : PReg) (i : BitVec 12) : State → Out :=
  runGroup (.ifP m a i) { s := m, always := true } fun g =>
    if g.countsPass 1 then illegal 9
    else
      let g' := g.setCounts fun f =>
        if g.countAt f ≠ 0 then g.countAt f + 1 else if (g.preg a).getLsbD f then 0 else 1
      .ok (if g'.someActive then g' else g'.hop i)
/-- ELSE (R90). -/
def execElseP (m : Bool) (i : BitVec 12) : State → Out :=
  runGroup (.elseP m i) { s := m, always := true } fun g =>
    let g' := g.setCounts fun f => if g.countAt f = 0 then 1 else if g.countAt f = 1 then 0 else g.countAt f
    .ok (if g'.someActive then g' else g'.hop i)
/-- ENDIF (R90). -/
def execEndif (m : Bool) : State → Out :=
  runGroup (.endif m) { s := m, always := true } fun g => .ok (g.setCounts fun f => g.countAt f - 1)
/-- LOOP (R91). -/
def execLoop (m : Bool) (i : BitVec 12) : State → Out :=
  runGroup (.loop m i) { s := m, always := true } fun g =>
    if g.countsPass 2 then illegal 9
    else
      let g' := g.setCounts fun f => if g.countAt f ≠ 0 then g.countAt f + 2 else 0
      .ok (if g'.someActive then g' else g'.hop i)
/-- Counting off the active fibres whose predicate bit is 1 (R91). -/
def Group.countOff (g : Group) (a : PReg) (n : Nat) : Group :=
  g.setCounts fun f => if g.countAt f = 0 && (g.preg a).getLsbD f then n else g.countAt f
/-- BRK (R91): to the endloop itself, one word before the target. -/
def execBrk (m : Bool) (a : PReg) (i : BitVec 12) : State → Out :=
  runGroup (.brk m a i) { s := m, always := true } fun g =>
    let g' := g.countOff a 2
    .ok (if g'.someActive then g' else { g'.hop i with pc := (g'.hop i).pc - 1 })
/-- NEXT (R91). -/
def execNextP (m : Bool) (a : PReg) (i : BitVec 12) : State → Out :=
  runGroup (.nextP m a i) { s := m, always := true } fun g =>
    let g' := g.countOff a 1
    .ok (if g'.someActive then g' else g'.hop i)
/-- ENDLOOP (R91). -/
def execEndloop (m : Bool) (i : BitVec 12) : State → Out :=
  runGroup (.endloop m i) { s := m, always := true } fun g =>
    let g' := g.setCounts fun f => if g.countAt f = 1 then 0 else g.countAt f
    .ok (if g'.someActive then g'.hop i
      else g'.setCounts fun f => if 2 ≤ g'.countAt f then g'.countAt f - 2 else g'.countAt f)

/-! ## Jumps (R93) -/

/-- Whether a jump is taken: by every active fibre, by none, else `nonuniform` (R93). -/
def Group.taken (g : Group) : Except Stop Bool :=
  if g.actives.all g.passes then .ok true
  else if g.actives.any g.passes then .error (.trap .nonuniform 0 (some 0))
  else .ok false
/-- BRA (R93). -/
def execBra (m : Bool) (o : BitVec 24) : State → Out :=
  runGroup (.bra m o) { s := m } fun g => do
    return if ← g.taken then { g with pc := g.pc - 1 + o.signExtend 32 } else g
/-- CALL (R93): the return address goes to v63 as a U result. -/
def execCall (m : Bool) (o : BitVec 24) : State → Out :=
  runGroup (.call m o) { s := m } fun g => do
    return if ← g.taken then { g.putU 63 g.pc with pc := g.pc - 1 + o.signExtend 32 } else g
/-- A jump to the address in va, which is read only when the jump is taken (R93). -/
def jumpTo (a : VReg) (g : Group) : Except Stop Group := do
  if ← g.taken then return { g with pc := ← g.uniform a } else return g
/-- BRX (R93). -/
def execBrx (m : Bool) (a : VReg) : State → Out :=
  runGroup (.brx m a) { s := m } (jumpTo a)
/-- RET (R93). -/
def execRet (m : Bool) (a : VReg) : State → Out :=
  runGroup (.ret m a) { s := m } (jumpTo a)

/-! ## Ends, yield and traps (R94, R97, R98, R329) -/

/-- NOP (R94). -/
def execNop (m : Bool) : State → Out := runGroup (.nop m) { s := m } fun g => .ok g
/-- The end of the executing group, and the group as that leaves it: a budget move that its end completes may name it
(R94, R99). -/
def State.endSelf (s : State) (r : GRef) (g : Group) : State × Group :=
  let s := s.endGroup r g
  (s, (s.group? r).getD g.over)
/-- Fibres that stop being live; the group ends when none is left; ending while record HEAD names one of them diverges
(R94, R367). A privileged group's live bits are held aside (R328). -/
def endFibres (gone : List Nat) : Effect := fun s r g => do
  if g.priv then return (s, g)
  let t := s.teamOf r
  let live := fibres.foldl (fun (acc : Half) f => if gone.contains f then acc &&& ~~~(1#16 <<< f) else acc) g.live
  match s.endsNamed (s.ctxOf t) (fun f => t.party r.slot f false) gone (live == 0) with
  | some n => .error (.trap .replayDivergence 0 (some (.ofNat 64 n)))
  | none =>
    let g := { g with live := live }
    return if live = 0 then s.endSelf r g else (s, g)
/-- A privileged group leaves by `exit`: the group ends, or its part of the save does (R329, R335). -/
def privilegedExit : Effect := fun s r g =>
  if (g.cause.extractLsb' 0 16) = 12 ∧ ((s.teamOf r).phase = .preempting ∨ (s.teamOf r).phase = .saving) then
    let g := { g with left := true, preempt := none }
    .ok (s.setGroup r g, g)
  else .ok (s.endSelf r g)
/-- EXIT (R94, R329). -/
def execExit (m : Bool) : State → Out :=
  runWord (.exit m) { s := m } fun s r g => if g.priv then privilegedExit s r g else endFibres g.ons s r g
/-- YIELD (R94): after its results are written the group gives up its place. -/
def execYieldG (m : Bool) : State → Out :=
  runWord (.yieldG m) { s := m, syncs := true } fun s r g =>
    let s := (s.setGroup r g).swapOut r
    .ok (s, (s.group? r).getD g)
/-- TRAP (R97). -/
def execTrap (m : Bool) (n : BitVec 12) : State → Out :=
  runGroup (.trap m n) { s := m } fun g =>
    if g.ons.isEmpty then .ok g else .error (.trap .software 0 (some (n.setWidth 64)))
/-- ESC (R97). -/
def execEsc (m : Bool) (n : BitVec 12) : State → Out :=
  runGroup (.esc m n) { s := m } fun g =>
    if g.ons.isEmpty then .ok g else .error (.trap .breakpoint 0 (some (n.setWidth 64)))
/-- TRET (R98): privileged only; in a restored team the group has left its routine, and the last to leave ends the restore
(R340). -/
def execTret (m : Bool) : State → Out :=
  runWord (.tret m) { s := m, always := true } fun s r g =>
    if !g.priv then protect 9
    else
      let g := { g.returned with left := g.left || (s.teamOf r).phase == .restoring }
      let s := (s.setGroup r g).endRestore r.tid
      .ok (s, (s.group? r).getD g)

/-- ILLEGAL_WORD (R73): a word that is no instruction raises `illegal` at its own boundary. -/
def execIllegalWord (sub : Nat) (w : Word) (s : State) : Out :=
  match s.cur with
  | none => .fault .noGroup
  | some r => .next (s.takeTrap r ⟨.illegal, sub, w.setWidth 64⟩)
/-- EXTENSION (R74): a word of an extension major raises `extension`. -/
def execExtensionWord (w : Word) (s : State) : Out :=
  match s.cur with
  | none => .fault .noGroup
  | some r => .next (s.takeTrap r ⟨.extension, 0, w.setWidth 64⟩)
/-- RESULT_RETURN (R61): the outstanding results of a group have been written; a group parked at a marker resumes, and one that is
pending is ready from now on (R226). -/
def execResultReturn (r : GRef) (s : State) : Out :=
  .next (s.modGroup r fun g =>
    if g.awaited = 0 then g
    else if g.awaited = 1 && g.wait == .marker then
      { g.settle with wait := .none, readySince := if g.inSet then g.readySince else s.nextId }
    else { g with awaited := g.awaited - 1 })
/-- GROUP_PROMOTION (R227): a pending group enters the active set in place of the group that entered it earliest, and takes
the next free lane of its port. -/
def execGroupPromotion (r : GRef) (s : State) : Out :=
  match s.group? r with
  | none => .next s
  | some g =>
    if g.inSet || g.ended || g.wait != .none then .next s else
    let mates := (s.portGroups (s.teamOf r).core g.port).filter (·.2.inSet)
    let (n, s) := s.fresh
    let s := if mates.length < Config.portActive then s else
      match mates.foldl (fun acc x => match acc with
          | none => some x
          | some y => if x.2.entered < y.2.entered then some x else some y) none with
      | some (q, _) => s.modGroup q fun g => { g with inSet := false, readySince := n }
      | none => s
    .next { s.modGroup r fun g => { g with inSet := true, entered := n } with turns := r :: s.turns }
/-- TRAP_ENTRY (R327, R365, R367): a trap due at a group's boundary, one of its engine operations' divergence or a manifest
stall, is taken. -/
def execTrapEntry (r : GRef) (s : State) : Out :=
  match s.group? r with
  | some g => match g.trapDue with
    | some t => if g.priv || g.ended then .next s else .next (s.takeTrap r t)
    | none => .next s
  | none => .next s

end Sys2Proof.Machine
end

