-- ==== Sys2Proof/Machine/Interval.lean ====
section
/-! DEFINITION. Interval and first-order affine arithmetic (R51 to R56). Ends are exact values with infinities, held as `Fp`;
a NaN end gives the whole line and NV. -/
namespace Sys2Proof.Machine

/-! ## Extended reals -/

/-- An exact finite value; zero is +0 (R51). -/
def ofDyad (d : Dyad) : Fp := if d.m = 0 then .fin false 0 0 else .fin (d.m < 0) d.m.natAbs d.e
/-- Zero. -/
def extZero : Fp := .fin false 0 0
/-- −∞. -/
def negInf : Fp := .inf true
/-- +∞. -/
def posInf : Fp := .inf false
/-- The value of an f32 word, a zero read as 0 (R51). -/
def extOf (w : Word) : Fp := match fpOf 8 false w with | .fin s m e => if m = 0 then extZero else .fin s m e | x => x
/-- The f32 word of a value that f32 holds; zero is written +0, a NaN as the default NaN. -/
def extWord (x : Fp) : Word := if x.isNan then fpNan 8 else if x.isZero then 0 else (fpPut 8 0 false x).1
/-- Rounding to f32: rnd 0 is rne, 2 ru, 3 rd (R35). -/
def extRound (rnd : Nat) (x : Fp) : Fp := if x.isNan then x else extOf (fpPut 8 rnd false x).1

/-- Order of extended reals, in which the zeros are equal. -/
def extLt (a b : Fp) : Bool := !(a.isZero && b.isZero) && a.below b
/-- Order of extended reals. -/
def extLe (a b : Fp) : Bool := !extLt b a
/-- The lesser. -/
def extMin (a b : Fp) : Fp := if extLt b a then b else a
/-- The greater. -/
def extMax (a b : Fp) : Fp := if extLt a b then b else a
/-- Negation. -/
def extNeg (a : Fp) : Fp := if a.isZero then a else a.negate
/-- A sum; ∞ − ∞ is −∞ as a lower bound and +∞ as an upper (R51). -/
def extAdd (lower : Bool) (a b : Fp) : Fp :=
  match a, b with
  | .inf s, .inf t => if s = t then .inf s else .inf lower
  | .inf s, _ => .inf s
  | _, .inf t => .inf t
  | x, y => ofDyad (x.dyad.add y.dyad)
/-- A product, 0 × ±∞ taken as 0 (R52). -/
def extMul (a b : Fp) : Fp :=
  if a.isZero || b.isZero then extZero
  else match a, b with
    | .fin s m e, .fin t n k => .fin (s != t) (m * n) (e + k)
    | x, y => .inf (x.neg != y.neg)
/-- A quotient by a value that is not zero, rounded once; none for ±∞ ÷ ±∞ (R52). -/
def extDiv (rnd : Nat) (a b : Fp) : Option Fp :=
  if a.isInf && b.isInf then none else some (extOf (fpDiv 8 rnd false a b).1)
/-- The square root of a value that is not negative, rounded once. -/
def extSqrt (rnd : Nat) (a : Fp) : Fp := extOf (fpSqrt 8 rnd false (if a.isZero then extZero else a)).1
/-- Half a value. -/
def extHalf (a : Fp) : Fp := a.scale (-1)

/-! ## Intervals (R51, R52) -/

/-- An interval: its two ends. -/
structure Ivl where
  lo : Fp
  hi : Fp
  deriving DecidableEq, Repr

/-- The whole line. -/
def Ivl.whole : Ivl := ⟨negInf, posInf⟩
/-- The empty interval. -/
def Ivl.none : Ivl := ⟨posInf, negInf⟩
/-- A NaN end. -/
def Ivl.hasNan (a : Ivl) : Bool := a.lo.isNan || a.hi.isNan
/-- Empty: the ends are out of order. -/
def Ivl.isEmpty (a : Ivl) : Bool := extLt a.hi a.lo
/-- Zero lies in it. -/
def Ivl.hasZero (a : Ivl) : Bool := extLe a.lo extZero && extLe extZero a.hi
/-- A single value. -/
def Ivl.point (x : Fp) : Ivl := ⟨x, x⟩

/-- What raises NV: each step may set it (R51, R53). -/
abbrev NvM := StateM Bool

/-- An operation on intervals: NaN first, then empty, then its own rule (R51). -/
def ivlOp (xs : List Ivl) (f : Ivl) : NvM Ivl :=
  if xs.any Ivl.hasNan then do set true; return .whole
  else if xs.any Ivl.isEmpty then return .none
  else return f

/-- |A| (R52). -/
def Ivl.abs (a : Ivl) : Ivl :=
  if extLe extZero a.lo then a
  else if extLe a.hi extZero then ⟨extNeg a.hi, extNeg a.lo⟩
  else ⟨extZero, extMax (extNeg a.lo) a.hi⟩

/-- The binary operations of field bytecode. -/
inductive Bin where
  | add | sub | mul | div | min | max
  deriving DecidableEq, Repr
/-- The unary operations of field bytecode. -/
inductive Un where
  | neg | abs | sqr | sqrt
  deriving DecidableEq, Repr

/-- The least and the greatest of some values. -/
def extRange (xs : List Fp) : Fp × Fp :=
  match xs with
  | [] => (posInf, negInf)
  | x :: r => (r.foldl extMin x, r.foldl extMax x)

/-- A ÷ B (R52). -/
def Ivl.div (a b : Ivl) : Ivl :=
  if b.hasZero then .whole
  else
    let pairs := [(a.lo, b.lo), (a.lo, b.hi), (a.hi, b.lo), (a.hi, b.hi)]
    if pairs.any fun p => p.1.isInf && p.2.isInf then .whole
    else
      -- rounding keeps order, so each bound is the extreme of the rounded quotients
      ⟨(extRange (pairs.filterMap fun p => extDiv 3 p.1 p.2)).1, (extRange (pairs.filterMap fun p => extDiv 2 p.1 p.2)).2⟩

/-- A binary operation on intervals (R52). -/
def ivlBin (o : Bin) (a b : Ivl) : NvM Ivl := ivlOp [a, b] (match o with
  | .add => ⟨extRound 3 (extAdd true a.lo b.lo), extRound 2 (extAdd false a.hi b.hi)⟩
  | .sub => ⟨extRound 3 (extAdd true a.lo (extNeg b.hi)), extRound 2 (extAdd false a.hi (extNeg b.lo))⟩
  | .mul =>
    let (l, h) := extRange [extMul a.lo b.lo, extMul a.lo b.hi, extMul a.hi b.lo, extMul a.hi b.hi]
    ⟨extRound 3 l, extRound 2 h⟩
  | .div => a.div b
  | .min => ⟨extMin a.lo b.lo, extMin a.hi b.hi⟩
  | .max => ⟨extMax a.lo b.lo, extMax a.hi b.hi⟩)

/-- A unary operation on intervals (R52). -/
def ivlUn (o : Un) (a : Ivl) : NvM Ivl := ivlOp [a] (match o with
  | .neg => ⟨extNeg a.hi, extNeg a.lo⟩
  | .abs => a.abs
  | .sqr =>
    let b := a.abs
    ⟨extRound 3 (extMul b.lo b.lo), extRound 2 (extMul b.hi b.hi)⟩
  | .sqrt =>
    if extLt a.hi extZero then .none else ⟨extSqrt 3 (extMax a.lo extZero), extSqrt 2 a.hi⟩)

/-! ## Affine forms (R53 to R56) -/

/-- An affine form: the whole line, empty, a form with a NaN component (a NaN constant, R255), an infinite coordinate
(±∞, 0, 0) (R410), or c + s·ε + q·δ with finite parts (R53). -/
inductive AForm where
  | whole
  | empty
  | nan
  | inf (neg : Bool)
  | form (c s q : Dyad)
  deriving DecidableEq, Repr

/-- A value rounded to f32; none when it overflows to an infinity. -/
def Dyad.round? (rnd : Nat) (d : Dyad) : Option Dyad :=
  match extRound rnd (ofDyad d) with
  | .fin s m e => some (Fp.fin s m e).dyad
  | _ => none
/-- A form from the exact centre and slope and the other terms of its radius (R53 to R55). -/
def affineOf (c s extra : Dyad) : AForm :=
  match c.round? 0, s.round? 0 with
  | some rc, some rs =>
    match (extra.add ((c.add rc.neg).abs.add (s.add rs.neg).abs)).round? 2 with
    | some q => .form rc rs q
    | none => .whole
  | _, _ => .whole
/-- A constant as a form; an infinite one is the whole line (R53, R54). -/
def affineConst (w : Word) : AForm :=
  if (extOf w).isNan then .nan else if (extOf w).isInf then .whole else .form (extOf w).dyad .zero .zero

/-- A step on forms: a NaN component decides before anything else, and sets NV (R53). -/
def affineStep (xs : List AForm) (f : AForm) : NvM AForm :=
  if xs.contains .nan then do set true; return .whole
  else return f
/-- An operation on two forms that hold no NaN: an empty operand gives empty, and one that is not finite the whole line
(R53). -/
def affineOp (a b : AForm) (f : Dyad → Dyad → Dyad → Dyad → Dyad → Dyad → AForm) : AForm :=
  match a, b with
  | .empty, _ => .empty
  | _, .empty => .empty
  | .form c s q, .form d t r => f c s q d t r
  | _, _ => .whole
/-- The sum (R54). -/
def AForm.add (a b : AForm) : AForm := affineOp a b fun c s q d t r => affineOf (c.add d) (s.add t) (q.add r)
/-- The negation (R54). -/
def AForm.neg : AForm → AForm
  | .form c s q => .form c.neg s.neg q
  | .empty => .empty
  | _ => .whole
/-- The product (R55). -/
def AForm.mul (a b : AForm) : AForm := affineOp a b fun c s q d t r =>
  affineOf (c.mul d) ((c.mul t).add (d.mul s))
    (((c.abs.mul r).add (d.abs.mul q)).add ((s.abs.add q).mul (t.abs.add r)))
/-- The enclosure (R53); a NaN component leaves NaN ends. -/
def AForm.enclosure : AForm → Ivl
  | .whole => .whole
  | .empty => .none
  | .nan => .point .narrowNan
  | .inf s => .point (.inf s)
  | .form c s q =>
    let w := s.abs.add q
    ⟨extRound 3 (ofDyad (c.add w.neg)), extRound 2 (ofDyad (c.add w))⟩
/-- The form of an interval (R56). -/
def affineOfIvl (j : Ivl) : AForm :=
  if j.isEmpty then .empty
  else match j.lo, j.hi with
    | .fin s m e, .fin t n k =>
      let l := (Fp.fin s m e).dyad
      let h := (Fp.fin t n k).dyad
      match (Dyad.mk (l.add h).m ((l.add h).e - 1)).round? 0 with
      | none => .whole
      | some c =>
        let up := h.add c.neg
        let down := c.add l.neg
        match (if up.lt down then down else up).round? 2 with
        | some q => .form c .zero q
        | none => .whole
    | _, _ => .whole

end Sys2Proof.Machine
end

