-- ==== Sys2Proof/Machine/Field.lean ====
section
/-! DEFINITION. Field bytecode: the program image, its check, and the value of each opcode but `brick` in point, interval and
affine mode (R249 to R251, R254, R255, R259). -/
namespace Sys2Proof.Machine

/-! ## Programs (R249 to R251, R254) -/

/-- A field opcode with its operand (R254). -/
inductive FOp where
  | cst (k : Nat)
  | imm (n : Nat)
  | crd (j : Nat)
  | pos (k : Nat)
  | dup (n : Nat)
  | swp
  | rot3
  | pop
  | bin (o : Bin)
  /-- `addc`, `subc`, `mulc`, `minc`, `maxc`, and with `rev` `rsubc`. -/
  | binc (o : Bin) (rev : Bool) (k : Nat)
  | un (o : Un)
  | len2
  | len3
  | abs3
  | sub3 (k : Nat)
  | mul3 (k : Nat)
  | dot3 (k : Nat)
  | max3
  | box3
  /-- `smin`, and with `up` `smax`. -/
  | smooth (up : Bool) (k : Nat)
  | brick (n : Nat)
  | callable (k : Nat)
  deriving DecidableEq, Repr

/-- The opcodes that take no operand. -/
def plainOp (code : Nat) : Option FOp :=
  match code with
  | 0x06 => some .swp
  | 0x07 => some .rot3
  | 0x08 => some .pop
  | 0x10 => some (.bin .add)
  | 0x11 => some (.bin .sub)
  | 0x12 => some (.bin .mul)
  | 0x13 => some (.bin .div)
  | 0x14 => some (.bin .min)
  | 0x15 => some (.bin .max)
  | 0x20 => some (.un .neg)
  | 0x21 => some (.un .abs)
  | 0x22 => some (.un .sqr)
  | 0x23 => some (.un .sqrt)
  | 0x28 => some .len2
  | 0x29 => some .len3
  | 0x2A => some .abs3
  | 0x2E => some .max3
  | 0x2F => some .box3
  | _ => none
/-- The opcodes that name a constant: the constants beyond it that they use, and the opcode. -/
def constOp (code n : Nat) : Option (Nat × FOp) :=
  match code with
  | 0x01 => some (0, .cst n)
  | 0x04 => some (2, .pos n)
  | 0x18 => some (0, .binc .add false n)
  | 0x19 => some (0, .binc .sub false n)
  | 0x1A => some (0, .binc .sub true n)
  | 0x1B => some (0, .binc .mul false n)
  | 0x1C => some (0, .binc .min false n)
  | 0x1D => some (0, .binc .max false n)
  | 0x2B => some (2, .sub3 n)
  | 0x2C => some (2, .mul3 n)
  | 0x2D => some (2, .dot3 n)
  | 0x30 => some (0, .smooth false n)
  | 0x31 => some (0, .smooth true n)
  | _ => none
/-- The opcode of an operation word, within its operand limits (R250, R254). -/
def fopOf (ncon w : Nat) : Option FOp :=
  let n := w % 256
  match plainOp (w / 256) with
  | some o => if n = 0 then some o else none
  | none =>
    match constOp (w / 256) n with
    | some (more, o) => if n + more < ncon then some o else none
    | none =>
      match w / 256 with
      | 0x02 => some (.imm n)
      | 0x03 => if n < 3 then some (.crd n) else none
      | 0x05 => if n < 15 then some (.dup n) else none
      | 0x38 => some (.brick n)
      | 0x39 => if n < 16 then some (.callable n) else none
      | _ => none

/-- Elements popped, elements pushed, and the depth required before (R254). -/
def FOp.effect : FOp → Nat × Nat × Nat
  | .cst _ => (0, 1, 0)
  | .imm _ => (0, 1, 0)
  | .crd _ => (0, 1, 0)
  | .pos _ => (0, 3, 0)
  | .dup n => (0, 1, n + 1)
  | .swp => (2, 2, 2)
  | .rot3 => (3, 3, 3)
  | .pop => (1, 0, 1)
  | .bin _ => (2, 1, 2)
  | .binc _ _ _ => (1, 1, 1)
  | .un _ => (1, 1, 1)
  | .len2 => (2, 1, 2)
  | .len3 => (3, 1, 3)
  | .abs3 => (3, 3, 3)
  | .sub3 _ => (3, 3, 3)
  | .mul3 _ => (3, 3, 3)
  | .dot3 _ => (3, 1, 3)
  | .max3 => (3, 1, 3)
  | .box3 => (3, 1, 3)
  | .smooth _ _ => (2, 1, 2)
  | .brick _ => (3, 1, 3)
  | .callable _ => (0, 1, 0)

/-- Whether an opcode is of the affine class (R254). -/
def FOp.affine : FOp → Bool
  | .cst _ => true
  | .imm _ => true
  | .crd _ => true
  | .pos _ => true
  | .dup _ => true
  | .swp => true
  | .rot3 => true
  | .pop => true
  | .bin o => o == .add || o == .sub || o == .mul
  | .binc o _ _ => o == .add || o == .sub || o == .mul
  | .un o => o == .neg || o == .sqr
  | .sub3 _ => true
  | .mul3 _ => true
  | .dot3 _ => true
  | _ => false

/-- A program: its constants and its opcodes. -/
structure Prog where
  cons : List Word
  ops : List FOp
  deriving DecidableEq, Repr

/-- The stack check from a depth (R251). -/
def stackCheck : Nat → List FOp → Bool
  | d, [] => d == 1
  | d, o :: r =>
    let (pops, pushes, need) := o.effect
    need ≤ d && d - pops + pushes ≤ 16 && stackCheck (d - pops + pushes) r

/-- The length of the image whose first 16 bytes are given (R249). -/
def imageLen (head : List Byte) : Nat := 16 + 4 * bytesAt head 4 1 + 2 * bytesAt head 2 2
/-- The operation words of an image. -/
def imageWords (img : List Byte) : List Nat :=
  (List.range (bytesAt img 2 2)).map fun i => bytesAt img (16 + 4 * bytesAt img 4 1 + 2 * i) 2
/-- Reading an image; none when its header is invalid (R251). -/
def progOf (img : List Byte) : Option Prog :=
  let nops := bytesAt img 2 2
  let ncon := bytesAt img 4 1
  if img.length < imageLen img || bytesAt img 0 2 != 1 || nops == 0 || 256 < nops || 64 < ncon || bytesAt img 5 11 != 0 then
    none
  else
    match (imageWords img).mapM (fopOf ncon) with
    | some ops => if stackCheck 0 ops then some ⟨bytesWords (img.drop 16) ncon, ops⟩ else none
    | none => none

/-! ## Arithmetic by mode (R255, R259) -/

/-- What a mode computes with: constants, steps, and the smooth operations. -/
structure Arith (V : Type) where
  const : Word → V
  bin : Bin → V → V → NvM V
  un : Un → V → NvM V
  smooth : Bool → Word → V → V → NvM V

/-- A constant of a program. -/
def Prog.con (p : Prog) (k : Nat) : Word := p.cons.getD k 0
/-- A radius that is positive and finite (R259). -/
def usableRadius (w : Word) : Bool := match extOf w with | .fin s m _ => !s && m != 0 | _ => false

section
variable {V : Type} (ar : Arith V)

/-- A program's constant. -/
def Arith.con (p : Prog) (k : Nat) : V := ar.const (p.con k)
/-- √(a² + b²). -/
def Arith.len2 (a b : V) : NvM V := do ar.un .sqrt (← ar.bin .add (← ar.un .sqr a) (← ar.un .sqr b))
/-- √(x² + y² + z²). -/
def Arith.len3 (x y z : V) : NvM V := do
  ar.un .sqrt (← ar.bin .add (← ar.bin .add (← ar.un .sqr x) (← ar.un .sqr y)) (← ar.un .sqr z))
/-- max(max(x, y), z). -/
def Arith.max3 (x y z : V) : NvM V := do ar.bin .max (← ar.bin .max x y) z
/-- A step with three constants from k. -/
def Arith.triple (p : Prog) (o : Bin) (k : Nat) (x y z : V) : NvM (List V) := do
  return [← ar.bin o x (ar.con p k), ← ar.bin o y (ar.con p (k + 1)), ← ar.bin o z (ar.con p (k + 2))]

/-- The value of an opcode on its operands, deepest first, with the coordinates; bricks, callables and the stack's own
opcodes are not among them (R254, R255). -/
def Arith.apply (p : Prog) (crd : List V) (o : FOp) (args : List V) : NvM (List V) :=
  match o, args with
  | .cst k, _ => return [ar.con p k]
  | .imm n, _ => return [ar.const (elemWordOfInt (if n < 128 then (n : Int) else n - 256))]
  | .crd j, _ => return (crd.drop j).take 1
  | .pos k, _ => match crd with | [x, y, z] => ar.triple p .sub k x y z | _ => return []
  | .bin o, [a, b] => do return [← ar.bin o a b]
  | .binc o rev k, [a] => do return [← if rev then ar.bin o (ar.con p k) a else ar.bin o a (ar.con p k)]
  | .un o, [a] => do return [← ar.un o a]
  | .len2, [a, b] => do return [← ar.len2 a b]
  | .len3, [x, y, z] => do return [← ar.len3 x y z]
  | .abs3, [x, y, z] => do return [← ar.un .abs x, ← ar.un .abs y, ← ar.un .abs z]
  | .sub3 k, [x, y, z] => ar.triple p .sub k x y z
  | .mul3 k, [x, y, z] => ar.triple p .mul k x y z
  | .dot3 k, [x, y, z] => do
    match ← ar.triple p .mul k x y z with
    | [a, b, c] => return [← ar.bin .add (← ar.bin .add a b) c]
    | _ => return []
  | .max3, [x, y, z] => do return [← ar.max3 x y z]
  | .box3, [x, y, z] => do
    let zero := ar.const 0
    let out ← ar.len3 (← ar.bin .max x zero) (← ar.bin .max y zero) (← ar.bin .max z zero)
    return [← ar.bin .add out (← ar.bin .min (← ar.max3 x y z) zero)]
  | .smooth up k, [a, b] => do
    let r := p.con k
    if usableRadius r then return [← ar.smooth up r a b] else return [← ar.bin (if up then .max else .min) a b]
  | _, _ => return []
where
  /-- A small integer as f32, exact. -/
  elemWordOfInt (v : Int) : Word := (fpPut 8 0 false (intFp v)).1

end

/-- Point mode: f32 words, each step rounded once (R255). -/
def pointBin (o : Bin) (a b : Word) : Word :=
  let x := fpOf 8 false a
  let y := fpOf 8 false b
  (match o with
  | .add => fpAdd 8 0 false x y
  | .sub => fpSub 8 0 false x y
  | .mul => fpMul 8 0 false x y
  | .div => fpDiv 8 0 false x y
  | .min => fpMinMax 8 0 false false false x y
  | .max => fpMinMax 8 0 false true false x y).1
/-- Point mode, one operand: `neg` and `abs` act on the sign bit of a number; a NaN follows R38. -/
def pointUn (o : Un) (a : Word) : Word :=
  match o with
  | .neg => ((pickNan 8 [fpOf 8 false a]).map (·.1)).getD (a ^^^ 0x80000000)
  | .abs => ((pickNan 8 [fpOf 8 false a]).map (·.1)).getD (a &&& 0x7FFFFFFF)
  | .sqr => pointBin .mul a a
  | .sqrt => (fpSqrt 8 0 false (fpOf 8 false a)).1
/-- Point mode's `smin` and `smax`, step by step (R259). -/
def pointSmooth (up : Bool) (r a b : Word) : Word :=
  let h := pointBin .div (pointBin .max (pointBin .sub r (pointUn .abs (pointBin .sub a b))) 0) r
  let q := pointBin .div (pointBin .mul (pointBin .mul h h) r) 0x40800000
  if up then pointBin .add (pointBin .max a b) q else pointBin .sub (pointBin .min a b) q
/-- Point mode. -/
def pointArith : Arith Word :=
  ⟨id, fun o a b => return pointBin o a b, fun o a => return pointUn o a,
    fun up r a b => return pointSmooth up r a b⟩

/-- A constant as an interval; a NaN stays one until an operation meets it (R51, R255). -/
def ivlConst (w : Word) : Ivl := .point (extOf w)
/-- `smin` and `smax` on intervals (R259). -/
def ivlSmooth (up : Bool) (r : Word) (a b : Ivl) : NvM Ivl :=
  let q := (extOf r).scale (-2)
  ivlOp [a, b] (if up then ⟨extMax a.lo b.lo, extRound 2 (extAdd false (extMax a.hi b.hi) q)⟩
    else ⟨extRound 3 (extAdd true (extMin a.lo b.lo) (extNeg q)), extMin a.hi b.hi⟩)
/-- Interval mode. -/
def ivlArith : Arith Ivl := ⟨ivlConst, ivlBin, ivlUn, ivlSmooth⟩

/-- The affine class's own steps; other steps go by the enclosures (R54 to R56). -/
def affineBin (o : Bin) (a b : AForm) : NvM AForm :=
  match o with
  | .add => affineStep [a, b] (a.add b)
  | .sub => affineStep [a, b] (a.add b.neg)
  | .mul => affineStep [a, b] (a.mul b)
  | _ => do return affineOfIvl (← ivlBin o a.enclosure b.enclosure)
/-- One operand. -/
def affineUn (o : Un) (a : AForm) : NvM AForm :=
  match o with
  | .neg => affineStep [a] a.neg
  | .sqr => affineStep [a] (a.mul a)
  | _ => do return affineOfIvl (← ivlUn o a.enclosure)
/-- Affine mode, for the affine class. -/
def affineArith : Arith AForm :=
  ⟨affineConst, affineBin, affineUn, fun up r a b => do return affineOfIvl (← ivlSmooth up r a.enclosure b.enclosure)⟩
/-- Affine mode: a non-affine opcode goes by the enclosures as a whole (R56, R255). -/
def affineApply (p : Prog) (crd : List AForm) (o : FOp) (args : List AForm) : NvM (List AForm) :=
  if o.affine then affineArith.apply p crd o args
  else do return (← ivlArith.apply p (crd.map AForm.enclosure) o (args.map AForm.enclosure)).map affineOfIvl

/-! ## Evaluating a program -/

/-- What evaluating a program in a mode needs beyond its arithmetic: the opcodes' values and the value of a node the program
does not decide. -/
structure FMode (V : Type) where
  apply : Prog → List V → FOp → List V → NvM (List V)
  hole : V

/-- Point mode. -/
def pointMode : FMode Word := ⟨pointArith.apply, 0⟩
/-- Interval mode. -/
def ivlMode : FMode Ivl := ⟨ivlArith.apply, .whole⟩
/-- Affine mode. -/
def affineMode : FMode AForm := ⟨affineApply, .whole⟩

/-- The stack's own opcodes, the top of the stack first. -/
def stackOp {V : Type} (o : FOp) (st : List V) : Option (List V) :=
  match o, st with
  | .dup n, _ => some ((st.drop n).take 1 ++ st)
  | .swp, a :: b :: r => some (b :: a :: r)
  | .rot3, z :: y :: x :: r => some (x :: z :: y :: r)
  | .pop, _ :: r => some r
  | _, _ => none

end Sys2Proof.Machine
end

