-- ==== Sys2Proof/Machine/Lod.lean ====
section
/-! DEFINITION. Level-of-detail resources: descriptors, residency, the level search, the wanted-page ring, sampling, and the
instructions `lodld`, `lodq`, `bsmp` and `bcl` (R167, R168, R195, R200, R201, R273 to R285). -/
namespace Sys2Proof.Machine

/-! ## Resources (R273 to R275) -/

/-- A level of a resource (R274). -/
structure Level where
  data : DWord
  map : DWord
  err : Word
  deriving DecidableEq, Repr, Inhabited

/-- A resource: its descriptor's address, its kind, its level-0 extents, its exterior distance and its levels. -/
structure Resource where
  va : DWord
  pyramid : Bool
  ext : List Nat
  outd : Word
  levels : List Level
  deriving DecidableEq, Repr, Inhabited

/-- The coarsest level. -/
def Resource.coarsest (x : Resource) : Nat := x.levels.length - 1
/-- Level j. -/
def Resource.level (x : Resource) (j : Nat) : Level := x.levels.getD j default

/-- A finite f32 word. -/
def finiteWord (w : Word) : Bool := match fpOf 8 false w with | .fin _ _ _ => true | _ => false
/-- The first failure-free reading of a descriptor's 64 bytes; the levels are still to be read (R273, R274). -/
def descFields (bs : List Byte) : Option (Nat × Nat × List Nat × Word × DWord) :=
  let ctl := bytesAt bs 0 4
  let outd : Word := .ofNat 32 (bytesAt bs 4 4)
  let ext := [bytesAt bs 8 4, bytesAt bs 12 4, bytesAt bs 16 4]
  let ltab : DWord := .ofNat 64 (bytesAt bs 24 8)
  if (ctl % 16 == 1 || ctl % 16 == 2) && ctl / 16 % 16 == 0 && ctl / 4096 == 0 && finiteWord outd
      && ext.all (fun n => 1 ≤ n && n ≤ 2 ^ 24) && bytesAt bs 20 4 == 0 && ltab.toNat % 32 == 0 && bytesAt bs 32 32 == 0 then
    some (ctl % 16, ctl / 256 % 16, ext, outd, ltab)
  else none
/-- A level table entry; none when it makes the descriptor invalid (R274). -/
def levelOf (bs : List Byte) : Option Level :=
  let x : Level := ⟨.ofNat 64 (bytesAt bs 0 8), .ofNat 64 (bytesAt bs 8 8), .ofNat 32 (bytesAt bs 16 4)⟩
  let e := fpOf 8 false x.err
  if x.data.toNat % 65536 = 0 ∧ finiteWord x.err ∧ bytesAt bs 20 12 = 0 ∧ (e.isZero ∨ !e.neg) then some x else none
/-- The bytes of a resource's descriptor and of its level table; the address is checked first (R273, R274, R325, R411). -/
def View.resourceBytes (v : View) (va : DWord) : Rd (List (List Byte)) := do
  if va.toNat % 64 != 0 then throw (.protection 14 va)
  let bs ← v.read va 64
  match descFields bs with
  | none => return [bs]
  | some (_, coarse, _, _, ltab) =>
    return bs :: (← Rd.all ((List.range (coarse + 1)).map fun j => v.read (ltab + .ofNat 64 (32 * j)) 32))
/-- A resource from those bytes; none when its descriptor is invalid (R274). -/
def resourceOf (va : DWord) : List (List Byte) → Option Resource
  | [] => none
  | bs :: es =>
    match descFields bs, es.mapM levelOf with
    | some (kind, _, ext, outd, _), some ls => some ⟨va, kind == 2, ext, outd, ls⟩
    | _, _ => none
/-- Reading a resource; none when its descriptor is invalid. -/
def View.resource (v : View) (va : DWord) : Rd (Option Resource) := do return resourceOf va (← v.resourceBytes va)

/-- An extent at level j. -/
def Resource.extAt (x : Resource) (j a : Nat) : Nat := (x.ext.getD a 0 + 2 ^ j - 1) / 2 ^ j
/-- The number of bricks along an axis at level j. -/
def Resource.bricksAt (x : Resource) (j a : Nat) : Nat := (x.extAt j a + 7) / 8
/-- The index of a brick. -/
def Resource.brickIndex (x : Resource) (j : Nat) (b : List Nat) : Nat :=
  (b.getD 2 0 * x.bricksAt j 1 + b.getD 1 0) * x.bricksAt j 0 + b.getD 0 0
/-- An item of a level, a word or a brick: its address, its bytes and its page (R275). -/
structure Item where
  va : DWord
  bytes : Nat
  page : Nat
  deriving DecidableEq, Repr
/-- The item that holds level-j voxel v. -/
def Resource.item (x : Resource) (j : Nat) (v : List Nat) : Item :=
  if x.pyramid then
    let i := x.brickIndex j (v.map (· / 8))
    ⟨(x.level j).data + .ofNat 64 (2048 * i), 2048, i / 32⟩
  else
    let i := (v.getD 2 0 * x.extAt j 1 + v.getD 1 0) * x.extAt j 0 + v.getD 0 0
    ⟨(x.level j).data + .ofNat 64 (4 * i), 4, 4 * i / 65536⟩
/-- The byte of a voxel's own sample in its brick (R276). -/
def sampleOff (a b c : Nat) : Nat := 2 * (c * 100 + b * 10 + a)

/-! ## The level search (R167, R277 to R280) -/

/-- An item as a search finds it. -/
inductive Found where
  | absent
  | poisoned
  | ok
  deriving DecidableEq, Repr, Inhabited

/-- How an item of level j is found (R277, R280). -/
def View.find (v : View) (x : Resource) (j : Nat) (i : Item) : Rd Found := do
  let here ← (if j = x.coarsest then return true
    else do return leNat (← v.read ((x.level j).map + .ofNat 64 i.page) 1) % 2 == 1)
  if !here then return .absent
  else match ← (v.read i.va i.bytes).try with
    | .ok _ => return .ok
    | .error (.poison _) => return .poisoned
    | .error e => throw e

/-- A level search's answer: the status word's status, the level, how the wanted level's items were found, and whether it met
poison. -/
structure Search where
  status : Nat
  level : Nat
  wanted : List Found
  poison : Bool
  deriving DecidableEq, Repr

/-- Status with j ≪ 8 (R167). -/
def Search.word (r : Search) : Word := .ofNat 32 (if r.status = 4 then 4 else r.status + 256 * r.level)

/-- Searching from level j for one whose items are all readable: the level, or coarsest + 1, and whether poison was met. -/
def View.seek (v : View) (x : Resource) (items : Nat → List Item) : Nat → Nat → Bool → Rd (Nat × Bool)
  | 0, j, p => return (j, p)
  | n + 1, j, p => do
    let fs ← Rd.all ((items j).map (v.find x j))
    if fs.all (· == .ok) then return (j, p)
    else v.seek x items n (j + 1) (p || fs.contains .poisoned)

/-- The search for the items of a voxel or a box from the wanted level; `fixed` is a recorded status word, whose level must
be readable: otherwise none (R167, R168, R201). -/
def View.search (v : View) (x : Resource) (items : Nat → List Item) (k : Nat) (fixed : Option Word) : Rd (Option Search) := do
  let wanted ← Rd.all ((items k).map (v.find x k))
  match fixed with
  | some w =>
    let j := w.toNat / 256 % 256
    if j ≤ x.coarsest then
      let fs ← Rd.all ((items j).map (v.find x j))
      return if fs.all (· == .ok) then some ⟨w.toNat % 256, j, wanted, false⟩ else none
    else return some ⟨w.toNat % 256, j, wanted, false⟩
  | none =>
    let (j, p) ← v.seek x items (x.coarsest + 1 - k) k false
    return some ⟨if x.coarsest < j then 3 else if j = k then 0 else if p then 2 else 1, j, wanted, p⟩

/-- A voxel of level 0 at level j. -/
def coarser (v : List Nat) (j : Nat) : List Nat := v.map (· / 2 ^ j)
/-- The one item of a voxel at each level. -/
def Resource.itemsOf (x : Resource) (v : List Nat) (j : Nat) : List Item := [x.item j (coarser v j)]

/-! ## The wanted-page ring (R283 to R285) -/

/-- A page wanted: the resource, its page, its level, and whether the item was poisoned. -/
structure Want where
  desc : DWord
  page : Nat
  level : Nat
  poisoned : Bool
  deriving DecidableEq, Repr

/-- The pages a search posts: those of the wanted level's items that it could not read; under replay a recorded level posts the
wanted one though all its items can be read now (R285). -/
def wants (x : Resource) (k : Nat) (items : List Item) (r : Search) : List Want :=
  if r.level = k ∨ r.status = 4 then []
  else (items.zip r.wanted).filterMap fun (i, f) =>
    if f = .ok ∧ !r.wanted.all (· == .ok) then none else some ⟨x.va, i.page, k, f == .poisoned⟩

/-- A wanted-page ring: BASE, LOG2N, HEAD and TAIL. -/
structure WantRing where
  base : DWord
  log : Nat
  head : Nat
  tail : Nat
  deriving DecidableEq, Repr, Inhabited
/-- The address of entry e. -/
def WantRing.at (x : WantRing) (e : Nat) : DWord := x.base + .ofNat 64 (16 * (e % 2 ^ x.log))
/-- Reading a context's control block; none when it is invalid or cannot be read (R283). -/
def wantRing (v : View) : Rd (Option WantRing) := do
  match ← settled (v.read v.ctx.wpr 64) with
  | .error _ => return none
  | .ok bs =>
    let x : WantRing := ⟨.ofNat 64 (bytesAt bs 0 8), bytesAt bs 8 4, bytesAt bs 16 8, bytesAt bs 24 8⟩
    return if x.base.toNat % 16 == 0 && 10 ≤ x.log && x.log ≤ 20 && bytesAt bs 12 4 == 0 && bytesAt bs 32 32 == 0 then some x else none
/-- The 12 bytes that name an entry. -/
def Want.key (w : Want) : List Byte := natLe 8 w.desc.toNat ++ natLe 4 w.page ++ [.ofNat 8 w.level]
/-- A dropped post (R285). -/
def State.dropPost (s : State) (c : Nat) : State :=
  s.modContext c fun x => { x with lodLost := if x.lodLost = 0xFFFFFFFF then x.lodLost else x.lodLost + 1 }
/-- What a post comes to (R285): a duplicate, or dropped, or the entry and HEAD to write. -/
inductive PostRes where
  | suppress
  | drop
  | write (ws : List (DWord × List Byte))
/-- The cases of a post, from the ring as it stands (R285). -/
def postRes (w : Want) (v : View) : Rd PostRes := do
  match ← wantRing v with
  | none => return .drop
  | some x =>
    let recent ← ((List.range (Nat.min 1024 x.head)).map fun i => x.head - 1 - i).mapM fun e => settled (v.read (x.at e) 13)
    if recent.any fun (r : Except RdFail (List Byte)) => r.toOption == some w.key then return .suppress
    else if x.head - x.tail = 2 ^ x.log then return .drop
    else return .write [(x.at x.head, w.key ++ [if w.poisoned then 2 else 1, 0, 0]), (v.ctx.wpr + 0x10, natLe 8 (x.head + 1))]
/-- A post made later by the landing die: the issuer never waits (R285, R347). -/
def State.holdPost (s : State) (c : Nat) (w : Want) : State :=
  let (id, s) := s.fresh
  { s with held := s.held ++ [⟨id, .host, c, .post w.desc w.page w.level w.poisoned, [], [], none, false⟩] }
/-- A post of a context that the landing die still holds. -/
def Held.isPost (h : Held) (c : Nat) : Bool := h.ctx == c && (match h.msg with | .post .. => true | _ => false)
/-- Posting a page: a duplicate is suppressed, a full or unusable ring drops and counts it; its reads and writes take their places
together (R285). A ring that is not all in the package is reached through the landing die (R347). -/
def State.postWant (s : State) (cn : Nat) (w : Want) : State :=
  let c := (s.context? cn).getD default
  if s.held.any (·.isPost cn) then s.holdPost cn w else
  match (postRes w ⟨s, c, []⟩).run with
  | .error _ => s.holdPost cn w
  | .ok (.suppress, log) => (s.visitReads (ownVisitor c) log.reads).1
  | .ok (.drop, log) => (s.visitReads (ownVisitor c) log.reads).1.dropPost cn
  | .ok (.write ws, _) => (s.performHere c fun v => do let _ ← postRes w v; return ws).getD (s.holdPost cn w)
/-- Posting pages in order. -/
def State.postWants (s : State) (c : Nat) (ws : List Want) : State := ws.foldl (fun s w => s.postWant c w) s

/-! ## Recorded levels (R168, R201) -/

/-- The next software mark of the schedule that names a party: its index and its record (R201; log entry 17). -/
def State.nextMark (s : State) (c : Context) (p : Party) : Option (Nat × List Byte) :=
  match s.maniCount c 0x10, s.maniCount c 0x18 with
  | some h, some t => (List.range (t - h)).findSome? fun i =>
      let r := s.recordAt c (h + i)
      if namesParty r p && bytesAt r 0 1 == 10 then some (h + i, r) else none
  | _, _ => none
/-- The records of a group's reads, one for each party in order: under replay the next records of the schedule, which the
group waits for (R168, R363, R366). -/
def State.levelRecords (s : State) (c : Context) (priv : Bool) (ps : List Party) : Except Stop (List (Option Word)) :=
  if priv || c.recMode != 2 then .ok (ps.map fun _ => none) else
  match ps, s.headRecord c, s.maniCount c 0x18 with
  | [], _, _ => .ok []
  | p :: _, some (i, r), some t =>
    if !namesParty r p || t < i + ps.length then .error (.wait .manifest s)
    else .ok (ps.zipIdx.map fun (q, k) =>
      let r := s.recordAt c (i + k)
      if namesParty r q && bytesAt r 0 1 == 10 then some (.ofNat 32 (bytesAt r 0x1C 4)) else none)
  | _, _, _ => .error (.wait .manifest s)

/-! ## Sampling (R281) -/

/-- The whole part of an exact value, toward −∞. -/
def Dyad.floor (d : Dyad) : Int := if 0 ≤ d.e then d.m * (2 ^ d.e.toNat : Nat) else d.m / (2 ^ (-d.e).toNat : Nat)
/-- An integer as an exact value. -/
def dyadInt (v : Int) : Dyad := ⟨v, 0⟩
/-- A difference. -/
def Dyad.sub (a b : Dyad) : Dyad := a.add b.neg
/-- A half. -/
def dyadHalf : Dyad := ⟨1, -1⟩

/-- A level-0 position; none outside level 0 (R281). -/
def Resource.position (x : Resource) (p : List Word) : Option (List Dyad) :=
  (p.zip x.ext).mapM fun (w, n) => match extOf w with
    | .fin s m e =>
      let d := (Fp.fin s m e).dyad
      if 0 ≤ d.m ∧ d.lt (dyadInt n) then some d else none
    | _ => none
/-- The level-0 voxel of a position. -/
def voxelOf (p : List Dyad) : List Nat := p.map fun d => d.floor.toNat
/-- A sample of a brick at local coordinates −1 to 8. -/
def brickSample (bs : List Byte) (l : List Int) : Fp :=
  let k (a : Nat) : Nat := (l.getD a 0 + 1).toNat
  fpOf 6 false (.ofNat 32 (bytesAt bs (sampleOff (k 0) (k 1) (k 2)) 2))
/-- The distance and gradient at a position from the brick's bytes, each sum exact and rounded once (R281). -/
def trilinear (bs : List Byte) (j : Nat) (p : List Dyad) : List Word :=
  let q : List Dyad := p.map fun d => ⟨d.m, d.e - j⟩
  let u := q.map fun d => d.sub dyadHalf
  let i := u.map Dyad.floor
  let f := (u.zip i).map fun (d, n) => d.sub (dyadInt n)
  let brick := q.map fun d => d.floor / 8 * 8
  let corners := (List.range 8).map fun k => [k % 2, k / 2 % 2, k / 4]
  let vals := corners.map fun c =>
    brickSample bs ((List.range 3).map fun a => i.getD a 0 + (c.getD a 0 : Nat) - brick.getD a 0)
  if vals.any fun x => x.isNan || x.isInf then List.replicate 4 0x7FC00000 else
  let weight (c a : Nat) : Dyad := if c = 1 then f.getD a .zero else Dyad.one.sub (f.getD a .zero)
  let total (g : Nat) : Dyad := ((corners.zip vals).map fun (c, v) =>
    (List.range 3).foldl (fun acc a => acc.mul (if a = g then dyadInt (if c.getD a 0 = 1 then 1 else -1) else weight (c.getD a 0) a))
      v.dyad).foldl Dyad.add .zero
  (total 3).round 8 0 false false |>.1 |> fun d =>
    d :: (List.range 3).map fun g => (let t := total g; (Dyad.mk t.m (t.e - j)).round 8 0 false false).1

/-! ## lodld and lodq (R167, R168) -/

/-- What one fibre's read gave: its words, its status word, the pages it posts, and the resource. -/
structure LodRes where
  words : List Word
  word : Word
  posts : List Want
  desc : DWord

/-- The reads of a group, one per fibre, with their records, posts and results (R168, R201, R285): `read` is one fibre's,
given its recorded word; none when its recorded level cannot be read. A fibre's mark takes the place of its own reads (R172, R359);
of the records that fail to match the first is named (R368). -/
def lodOp (s : State) (r : GRef) (g : Group) (d : VReg) (n : Nat) (post : Bool)
    (read : View → Nat → Option Word → Rd (Option LodRes)) : Except Stop (State × Group) := do
  let t := s.teamOf r
  let c := s.ctxOf t
  let fs := g.ons
  if fs.isEmpty then return (s, g)
  let recs ← s.levelRecords c g.priv (fs.map fun f => t.party r.slot f false)
  let (s1, xs) ← s.readTogether r g true ((fs.zip recs).map fun (f, w) => (f, fun v => read v f w))
  let mark (f : Nat) (x : Placed (Option LodRes)) : List RecEvent := match x.res with
    | some y => [⟨10, t.party r.slot f false, y.desc, hashWords [y.word], t.core, some x.time⟩]
    | none => []
  match xs.findIdx? (·.res.isNone) with
  | some k =>
    let i := ((s.headRecord c).map (·.1)).getD 0
    .error (.trap .replayDivergence 0 (some (.ofNat 64
      ((s.mismatch c i (((fs.zip xs).take k).flatMap fun (f, x) => mark f x)).getD (i + k)))))
  | none =>
    let s' ← s.gateGroup s1 c g.priv ((fs.zip xs).flatMap fun (f, x) => x.races ++ mark f x)
    let rs := xs.filterMap (·.res)
    let s' := if post then s'.postWants c.num (rs.flatMap (·.posts)) else s'
    let g' := (List.range n).foldl (fun (g : Group) i =>
      g.storeDue (vr (d.val + i)) 2 fs.contains (pick fs (rs.map fun x => x.words.getD i 0))) g
    return (s', g'.pending)

/-- A valid resource of an instruction: 14 otherwise (R274). -/
def lodResource (s : State) (r : GRef) (g : Group) (va : DWord) (pyramid : Bool) : Except Stop (State × Resource) := do
  match ← s.groupRead r g (g.ons.headD 0) fun v => v.resource va with
  | (s, some x) => check (x.pyramid || !pyramid) (protect 14); return (s, x)
  | (_, none) => protect 14

/-- The coordinates and the wanted level of a fibre. -/
def lodArgs (g : Group) (a : VReg) (f : Nat) : List Nat := (List.range 4).map fun k => (g.rd (vr (a.val + k)) f).toNat
/-- The word of a voxel at a level (R275). -/
def View.voxelWord (v : View) (x : Resource) (j : Nat) (xyz : List Nat) : Rd Word := do
  let w := coarser xyz j
  let i := x.item j w
  if x.pyramid then
    let k (a : Nat) : Nat := w.getD a 0 % 8 + 1
    return .ofNat 32 (leNat (← v.read (i.va + .ofNat 64 (sampleOff (k 0) (k 1) (k 2))) 2))
  else return .ofNat 32 (leNat (← v.read i.va 4))
/-- One fibre's `lodld` or `lodq`. -/
def lodRead (x : Resource) (load : Bool) (args : List Nat) (v : View) (fixed : Option Word) : Rd (Option LodRes) := do
  let xyz := args.take 3
  let k := args.getD 3 0
  if x.coarsest < k || (xyz.zip x.ext).any fun (a, n) => n ≤ a then return some ⟨[0, 4], 4, [], x.va⟩
  let items := x.itemsOf xyz
  match ← v.search x items k fixed with
  | none => return none
  | some y =>
    let w ← (if load && y.level ≤ x.coarsest then v.voxelWord x y.level xyz else return 0)
    return some ⟨[w, y.word], y.word, if load then wants x k (items k) y else [], x.va⟩
/-- A `lodld` or `lodq`. -/
def lodWord (load : Bool) (d a : VReg) (b : BReg) : Effect := fun s r g => do
  quadCheck a
  g.fits d 2
  g.fits (nextReg d) 2
  if g.ons.isEmpty then return (s, g)
  let (s, x) ← lodResource s r g (g.breg b) false
  lodOp s r g d 2 load fun v f fixed => lodRead x load (lodArgs g a f) v fixed
/-- LODLD (R167). -/
def execLodld (m : Bool) (d a : VReg) (b : BReg) : State → Out :=
  runWord (.lodld m d a b) { s := m, roles := vectorOnly, returning := true } (lodWord true d a b)
/-- LODQ (R167). -/
def execLodq (m : Bool) (d a : VReg) (b : BReg) : State → Out :=
  runWord (.lodq m d a b) { s := m, roles := vectorOnly, returning := true } (lodWord false d a b)

/-! ## bsmp (R200, R201, R282) -/

/-- A group of eight registers (R59, R326). -/
def octCheck (a : VReg) : Except Stop Unit := check (a.val % 8 == 0) (illegal 12)
/-- The six words of a sample: distance, gradient, status word and the level's error. -/
def sampleAt (v : View) (x : Resource) (p : List Dyad) (y : Search) : Rd (List Word) := do
  let bs ← v.read (x.item y.level (coarser (voxelOf p) y.level)).va 2048
  return trilinear bs y.level p ++ [y.word, (x.level y.level).err]
/-- One fibre's `bsmp`; an entry of 0 is lost. -/
def bsmpRead (x : Option Resource) (p : List Word) (k : Nat) (v : View) (fixed : Option Word) : Rd (Option LodRes) := do
  match x with
  | none => return some ⟨[0, 0, 0, 0, 3, 0], 3, [], 0⟩
  | some x =>
    match x.position p with
    | none => return some ⟨[0, 0, 0, 0, 4, 0], 4, [], x.va⟩
    | some q =>
      if x.coarsest < k then return some ⟨[0, 0, 0, 0, 4, 0], 4, [], x.va⟩
      let items := x.itemsOf (voxelOf q)
      match ← v.search x items k fixed with
      | none => return none
      | some y =>
        let ws ← (if y.level ≤ x.coarsest then sampleAt v x q y else return [0, 0, 0, 0, y.word, 0])
        return some ⟨ws, y.word, wants x k (items k) y, x.va⟩
/-- The resource of a table entry: none for an entry of 0, and within none when the descriptor is not of a brick pyramid (R200,
R274). -/
def tableResource (table : DWord) (n : Nat) (v : View) : Rd (Option (Option Resource)) := do
  let bs ← v.read (table + .ofNat 64 (8 * n)) 8
  if leNat bs = 0 then return none
  let x ← v.resource (.ofNat 64 (leNat bs))
  return some (x.filter (·.pyramid))
/-- The resources that a group's fibres name, each read by the first fibre that names it. -/
def bsmpEntries (s : State) (r : GRef) (g : Group) (table : DWord) (entry : Nat → Nat) :
    Except Stop (State × List (Nat × Option Resource)) := do
  let ns := (g.ons.map entry).eraseDups
  let (s, xs) ← s.groupReads r g (ns.map fun n => ((g.ons.find? (entry · == n)).getD 0, tableResource table n))
  check (xs.all fun x => x != some none) (protect 14)
  return (s, ns.zip (xs.map Option.join))
/-- BSMP (R200). -/
def execBsmp (m : Bool) (d a : VReg) (b : BReg) : State → Out :=
  runWord (.bsmp m d a b) { s := m, roles := vectorOnly, returning := true } fun s r g => do
    octCheck d
    quadCheck a
    (List.range 6).forM fun k => g.fits (vr (d.val + k)) 2
    let req (f : Nat) : Word := g.rd (vr (a.val + 3)) f
    check (g.ons.all fun f => req f &&& 0xFFFFF8E0 == 0) (protect 14)
    let (s, entries) ← bsmpEntries s r g (g.breg b) fun f => ((req f).extractLsb' 8 3).toNat
    lodOp s r g d 6 true fun v f fixed =>
      bsmpRead ((entries.lookup ((req f).extractLsb' 8 3).toNat).join) ((lodArgs g a f).take 3 |>.map (.ofNat 32 ·))
        ((req f).extractLsb' 0 5).toNat v fixed

/-! ## bcl (R195) -/

/-- EX, EY, EZ and k of a `bcl` word. -/
def bclFields (w : Word) : Nat × List Nat :=
  ((w.extractLsb' 0 8).toNat, [(w.extractLsb' 8 8).toNat, (w.extractLsb' 16 8).toNat, (w.extractLsb' 24 8).toNat])
/-- BCL (R195). -/
def execBcl (m : Bool) (d : BReg) (a b : VReg) : State → Out :=
  runWord (.bcl m d a b) { s := m, roles := vectorOnly, once := Group.someActs } fun s r g => do
    quadCheck a
    let pos ← (List.range 3).mapM fun k => g.uniform (regAt a k)
    let spec ← g.uniform (regAt a 3)
    let w ← g.uniform b
    checkEach id [g.breg d] [(14, fun va => va.toNat % 64 != 0), (23, fun va => !canonical va)]
    check ((bclFields spec).2.all fun e => 1 ≤ e && e ≤ 8) (protect 14)
    let c ← (s.teamOf r).completion w false false
    let (s, _) ← lodResource s r g (g.breg d) true
    return (← s.startOp r c (.bcl (g.breg d) pos spec), g)

/-- The bricks of a box, x fastest. -/
def boxBricks (pos : List Nat) (ext : List Nat) : List (List Nat) :=
  let e (k : Nat) : Nat := ext.getD k 1
  (List.range (e 0 * e 1 * e 2)).map fun i =>
    [pos.getD 0 0 + i % e 0, pos.getD 1 0 + i / e 0 % e 1, pos.getD 2 0 + i / (e 0 * e 1)]
/-- The physical place of an address the package holds. -/
def State.devAddr (s : State) (c : Context) (va : DWord) : Option Nat :=
  match s.locOf c va .read with
  | .ok (.dev a) => some a
  | _ => none
/-- A brick placed in a core's cache, which holds 128. -/
def State.cacheBrick (s : State) (c : Context) (core : Nat) (x : Resource) (j : Nat) (i : Item) : State :=
  match s.devAddr c i.va, s.devAddr c ((x.level j).map + .ofNat 64 i.page) with
  | some a, some b =>
    let mine := s.bricks.filter fun y => y.core == core && y.addr != a
    { s with bricks := s.bricks.filter (·.core != core) ++ mine.drop (mine.length - 127) ++ [⟨core, a, b⟩] }
  | _, _ => s

/-- One brick of a `bcl`: its reason, and what it changes. -/
def bclBrick (v : View) (c core : Nat) (x : Resource) (k : Nat) (b : List Nat) : OpM ChunkRes :=
  let vox := b.map fun n => n * 8 * 2 ^ k
  let items := x.itemsOf vox
  if x.coarsest < k || (b.zipIdx.any fun (n, a) => x.bricksAt k a ≤ n) then return {} else do
  match ← settled (v.search x items k none) with
  | .error e => return { reason := ← e.noted }
  | .ok none => return {}
  | .ok (some y) =>
    let post (s : State) : State := s.postWants c (wants x k (items k) y)
    if x.coarsest < y.level then return { reason := if y.poison then 4 else 2, after := post }
    else return { after := fun s =>
      (post s).cacheBrick ((s.context? c).getD default) core x y.level (x.item y.level (coarser vox y.level)) }

/-- The bricks of a `bcl`'s box. -/
def bclBox (pos : List Word) (spec : Word) : List (List Nat) := boxBricks (pos.map (·.toNat)) (bclFields spec).2
/-- Step c of a `bcl`, which writes nothing a program reads: the descriptor is read, then brick after brick is sought. -/
def evalBcl (o : Op) (v : View) (c : Nat) : OpM ChunkRes :=
  match o.kind with
  | .bcl desc pos spec =>
    if c = 0 then do
      match ← settled (v.resourceBytes desc) with
      | .error e => return { reason := ← e.noted }
      | .ok bss => return { reason := if (resourceOf desc bss).isSome then 0 else 2,
                            keep := fun _ => bss.zipIdx.map fun (bs, i) => ⟨i, bs, 0⟩ }
    else
      let bricks := bclBox pos spec
      match resourceOf desc (o.seen.map (·.bytes)), bricks[nthChunk o.id bricks.length (c - 1)]? with
      | some x, some b => bclBrick v o.ctx (v.st.coreOf o.tid) x (bclFields spec).1 b
      | _, _ => return {}
  | _ => return {}
/-- The steps of a `bcl`. -/
def bclTotal (o : Op) : Nat := match o.kind with
  | .bcl _ pos spec => 1 + (bclBox pos spec).length
  | _ => 0
/-- BCL_COMPLETION (R195): the operation's next step, and with the last its completion. -/
def execBclCompletion (id : Nat) (s : State) : Out :=
  match (s.op? id).map (·.kind) with
  | some (OpKind.bcl _ _ _) => .next (s.runOp id (fun _ => false) bclTotal evalBcl)
  | _ => .next s

end Sys2Proof.Machine
end

