-- ==== Sys2Proof/Machine/Marcher.lean ====
section
/-! DEFINITION. The marcher: brick nodes, coordinates, the evaluation of a program over a segment or at a point, the march of
a ray, and the instructions `mrch` and `mres` (R197 to R199, R251, R252, R255 to R265, R410). -/
namespace Sys2Proof.Machine

/-! ## What a ray's evaluation reads and changes -/

/-- Why an evaluation stops: it needs bytes of an owner, a page is being moved, the manifest holds it, it diverges, or it has made
the one read of this step. -/
inductive Halt where
  | need (key : Nat) (va : DWord) (n : Nat)
  | frozen
  | hold
  | diverge (n : Nat)
  | step

/-- Who evaluates: context, party, core and brick resource table. -/
structure FEnv where
  ctx : Nat
  party : Party
  core : Nat
  table : DWord

/-- What an evaluation carries: the state, the reads kept from before, those used so far and the replies of owners, the status
bits of the ray (NV, a fall-back, poison met, the level), its evaluations, and of the current evaluation whether a node was lost,
the callable reached, and the largest level error. -/
structure FieldSt where
  st : State
  memo : List Memo
  done : List Memo
  got : List FwdReply
  nv : Bool
  fb : Bool
  pois : Bool
  lvl : Nat
  evals : Nat
  lost : Bool
  call : Option Nat
  err : Fp

/-- An evaluation. -/
abbrev FieldM := EStateM Halt FieldSt

/-- The start of a step of a ray. -/
def FieldSt.start (s : State) (x : MRay) (got : List FwdReply) : FieldSt :=
  ⟨s, x.memo, [], got, x.nv, x.fb, false, x.lvl, x.evals, false, none, extZero⟩
/-- The reads that a step which stops has made. -/
def FieldSt.kept (b : FieldSt) : List Memo := b.done ++ b.memo
/-- Running steps that may set NV (R198, R255). -/
def liftNv {α : Type} (x : NvM α) : FieldM α := do
  let (a, nv) := (x.run false : Id (α × Bool))
  modify fun b => { b with nv := b.nv || nv }
  return a

/-- A read of resource data, which takes its place, and passes the last record when it is itself to be recorded (R242, R363, R370); a
failure other than a wait is the answer. -/
def FEnv.look {α : Type} (e : FEnv) (f : View → Rd α) (recorded : Bool := false) : FieldM (Except RdFail α) := do
  let b ← get
  let c := (b.st.context? e.ctx).getD default
  match (f ⟨b.st, c, b.got⟩).run with
  | .error (.need key va n) => throw (.need key va n)
  | .error .frozen => throw .frozen
  | .error x => return .error x
  | .ok (x, log) =>
    let (s, races) := b.st.visitReads ⟨c, e.core, some e.party, recorded, 0⟩ log.reads
    match (if races.isEmpty then .go s else s.gate c races) with
    | .go s => set { b with st := s }; return .ok x
    | _ => throw .hold
/-- A read of resource data; none when its translation fails or it is poisoned. -/
def FEnv.read {α : Type} (e : FEnv) (f : View → Rd α) (recorded : Bool := false) : FieldM (Option α) := do
  return (← e.look f recorded).toOption
/-- Offering software marks to the manifest, at the place of the read that they record (R201, R359, R364, R366). -/
def FEnv.marks (e : FEnv) (desc : DWord) (word : Word) (n : Nat) : FieldM Unit := do
  let b ← get
  let time := b.st.clockOf e.ctx e.core
  let ev : RecEvent := ⟨10, e.party, desc, hashWords [word], e.core, some time⟩
  match b.st.gate ((b.st.context? e.ctx).getD default) (List.replicate n ev) with
  | .go s => set { b with st := s }
  | .hold => throw .hold
  | .diverge n => throw (.diverge n)
/-- The index of the schedule's next record: HEAD, past the unordered-conflict records. -/
def FEnv.head (e : FEnv) : FieldM Nat := do
  let b ← get
  let c := (b.st.context? e.ctx).getD default
  return ((b.st.headRecord c).map (·.1)).getD ((b.st.maniCount c 0x10).getD 0)
/-- The schedule is empty: a recorded-kind event waits (R366). -/
def FEnv.scheduleEmpty (e : FEnv) : FieldM Bool := do
  let b ← get
  return (b.st.headRecord ((b.st.context? e.ctx).getD default)).isNone
/-- What the manifest holds leaves nothing behind: it is met again. -/
def unlessHeld {α : Type} (x : FieldM α) : FieldM α := fun b => match x b with
  | .error .hold _ => .error .hold b
  | y => y
/-- A read kept as one of the ray's: the step ends with it, and no copy of a line elsewhere outlasts it (R247). -/
def keepRead {α : Type} (x : Memo) : FieldM α := do
  modify fun b => { b with done := b.done ++ [x], got := [] }
  throw .step

/-! ## Brick nodes (R260, R201) -/

/-- A brick node as it has been read: its result, the marks it owes (their resource, their word and how many) and the pages it
posts (R201, R285). -/
structure NodeRead where
  res : NodeRes
  desc : DWord := 0
  word : Word := 0
  marks : Nat := 0
  posts : List Want := []
/-- A lost node. -/
def NodeRes.lostNode : NodeRes := ⟨true, false, false, 0, false, 0xFF800000, 0x7F800000⟩
/-- A node of the whole line that read nothing. -/
def NodeRes.wholeLine : NodeRes := ⟨false, false, false, 0, false, 0xFF800000, 0x7F800000⟩
/-- The resource of a brick node; none: the node is lost. -/
def FEnv.resource (e : FEnv) (r : Nat) : FieldM (Option Resource) := do
  match ← e.read fun v => v.read (e.table + .ofNat 64 (8 * r)) 8 with
  | none => return none
  | some bs =>
    if leNat bs = 0 then return none
    match ← e.read fun v => v.resource (.ofNat 64 (leNat bs)) with
    | some (some x) => return if x.pyramid then some x else none
    | _ => return none
/-- The recorded status word that a read of a resource uses under replay: that of the party's next mark, when it names the
resource and a level coarser than the wanted one; the read waits for its place (R201; log entry 17). -/
def FEnv.recorded (e : FEnv) (x : Resource) (k : Nat) : FieldM (Option Word) := do
  let b ← get
  let c := (b.st.context? e.ctx).getD default
  if c.recMode != 2 then return none else
  match b.st.nextMark c e.party with
  | none => return none
  | some (i, r) =>
    let w : Word := .ofNat 32 (bytesAt r 0x1C 4)
    if bytesAt r 0x10 8 != x.va.toNat || w.toNat / 256 % 256 ≤ k then return none
    else if (b.st.headRecord c).map (·.1) == some i then return some w
    else throw .hold
/-- The level search of a brick node, with the recorded level under replay: a read without a record must find its wanted
level readable, and waits while the schedule is empty (R201, R260, R366); none: its translation fails. -/
def FEnv.search (e : FEnv) (x : Resource) (items : Nat → List Item) (k : Nat) : FieldM (Option Search) := do
  let fixed ← e.recorded x k
  match ← e.read fun v => v.search x items k fixed with
  | none => return none
  | some none => throw (.diverge (← e.head))
  | some (some y) =>
    let b ← get
    let replay := ((b.st.context? e.ctx).getD default).recMode == 2
    if fixed.isNone && replay && y.level != k then
      if ← e.scheduleEmpty then throw .hold else throw (.diverge (← e.head))
    return some y
/-- A read at the level found is itself recorded. -/
def Resource.marked (x : Resource) (k : Nat) (y : Search) : Bool := y.level != k && y.level ≤ x.coarsest
/-- What a node that a search has found reads, posts and owes: a mark for each brick read at another level (R201, R285). -/
def nodeRead (x : Resource) (k : Nat) (items : Nat → List Item) (y : Search) (post : Bool) (res : NodeRes) : NodeRead :=
  ⟨res, x.va, y.word, if x.marked k y then (items y.level).length else 0, if post then wants x k (items k) y else []⟩

/-- A brick node at a point: its value, and its level's error as `hi` (R260, R265). -/
def pointNode (e : FEnv) (r k : Nat) (p : List Word) : FieldM NodeRead := do
  match ← e.resource r with
  | none => return { res := .lostNode }
  | some x =>
    match x.position p with
    | none => return { res := ⟨false, false, false, 0, false, x.outd, 0⟩ }
    | some q =>
      let kk := Nat.min k x.coarsest
      let items := x.itemsOf (voxelOf q)
      match ← e.search x items kk with
      | none => return { res := .lostNode }
      | some y =>
        let ws ← (if y.level ≤ x.coarsest then e.read (fun v => sampleAt v x q y) (x.marked kk y) else return some [])
        return nodeRead x kk items y (k ≤ x.coarsest) (match ws with
          | some (d :: _) => ⟨false, y.status != 0, y.status == 2, y.level, false, d, (x.level y.level).err⟩
          | _ => .lostNode)

/-- The range of level-0 voxels of a box along an axis that lie in the resource: first and last; none when it lies wholly
outside. -/
def voxelRange (n : Nat) (a : Ivl) : Option (Nat × Nat) :=
  let lo := Nat.max 0 a.lo.dyad.floor.toNat
  let h := a.hi.dyad.floor
  if h < 0 then none
  else
    let hi := Nat.min (n - 1) h.toNat
    if lo ≤ hi then some (lo, hi) else none
/-- The bricks of level j that hold the voxels of ranges, in ascending index. -/
def touchedBricks (vr : List (Nat × Nat)) (j : Nat) : List (List Nat) :=
  let f (a : Nat) : Nat × Nat := let p := vr.getD a (0, 0); (p.1 / 2 ^ j / 8, p.2 / 2 ^ j / 8)
  let n (a : Nat) : Nat := (f a).2 - (f a).1 + 1
  (List.range (n 0 * n 1 * n 2)).map fun i => [(f 0).1 + i % n 0, (f 1).1 + i / n 0 % n 1, (f 2).1 + i / (n 0 * n 1)]
/-- The first and last samples along an axis, local to a brick, of the cells of level j that meet the box (R260, R281). -/
def cellSamples (n j : Nat) (a : Ivl) (r : Nat × Nat) (brick : Nat) : Int × Int :=
  let clip (x : Fp) : Dyad := (extMin (extMax x extZero) (intFp n)).dyad
  let cell (x : Fp) : Int := ((Dyad.mk (clip x).m ((clip x).e - j)).sub dyadHalf).floor
  let v0 : Int := (Nat.max (r.1 / 2 ^ j) (8 * brick) : Nat)
  let v1 : Int := (Nat.min (r.2 / 2 ^ j) (8 * brick + 7) : Nat)
  (max (v0 - 1) (cell a.lo) - 8 * brick, min v1 (cell a.hi) + 1 - 8 * brick)
/-- The samples of a brick in ranges of local coordinates. -/
def samplesIn (bs : List Byte) (rs : List (Int × Int)) : List Fp :=
  let n (a : Nat) : Nat := let p := rs.getD a (0, 0); (p.2 - p.1 + 1).toNat
  (List.range (n 0 * n 1 * n 2)).map fun i =>
    let at_ (a k : Nat) : Int := (rs.getD a (0, 0)).1 + k
    brickSample bs [at_ 0 (i % n 0), at_ 1 (i / n 0 % n 1), at_ 2 (i / (n 0 * n 1))]

/-- The bound of a brick node from its samples; `out`: a part of the box lies outside level 0 (R260). -/
def boxBound (x : Resource) (y : Search) (out : Bool) (vals : List Fp) : NodeRes :=
  let fb := y.status != 0
  if vals.any Fp.isNan then { NodeRes.wholeLine with fb := fb, pois := y.status == 2, lvl := y.level, nv := true }
  else
    let (l, h) := extRange vals
    let er := extOf (x.level y.level).err
    let lo := extRound 3 (extAdd true l (extNeg er))
    let hi := extRound 2 (extAdd false h er)
    ⟨false, fb, y.status == 2, y.level, false, extWord (if out then extMin lo (extOf x.outd) else lo),
      if out then 0x7F800000 else extWord hi⟩
/-- A brick node over a box that is not empty (R260). -/
def boxNode (e : FEnv) (r k : Nat) (box : List Ivl) : FieldM NodeRead := do
  if box.any Ivl.hasNan then return { res := { NodeRes.wholeLine with nv := true } }
  if box.any fun a => a.lo.isInf || a.hi.isInf then return { res := .wholeLine }
  match ← e.resource r with
  | none => return { res := .lostNode }
  | some x =>
    let kk := Nat.min k x.coarsest
    if box.any fun a => (dyadInt (16 * 2 ^ kk)).lt (a.hi.dyad.sub a.lo.dyad) then return { res := .wholeLine }
    let out := (box.zip x.ext).any fun (a, n) => extLt a.lo extZero || extLe (intFp n) a.hi
    match (box.zip x.ext).mapM fun (a, n) => voxelRange n a with
    | none => return { res := ⟨false, false, false, 0, false, extWord (extOf x.outd), 0x7F800000⟩ }
    | some vr =>
      let items (j : Nat) : List Item := (touchedBricks vr j).map fun b => x.item j (b.map (8 * ·))
      match ← e.search x items kk with
      | none => return { res := .lostNode }
      | some y =>
        let sample (v : View) (b : List Nat) : Rd (List Fp) := do
          let bs ← v.read (x.item y.level (b.map (8 * ·))).va 2048
          return samplesIn bs ((List.range 3).map fun a =>
            cellSamples (x.ext.getD a 0) y.level (box.getD a .whole) (vr.getD a (0, 0)) (b.getD a 0))
        let parts ← (if x.coarsest < y.level then return none
          else e.read (fun v => (touchedBricks vr y.level).mapM (sample v)) (x.marked kk y))
        return nodeRead x kk items y (k ≤ x.coarsest) (match parts with
          | none => .lostNode
          | some ps => boxBound x y out ps.flatten)

/-- A node read now, with its marks; its posts are made once the marks are through, so that none is made twice (R285). -/
def FEnv.nodeNow (e : FEnv) (fresh : FieldM NodeRead) : FieldM NodeRes := do
  let x ← unlessHeld do
    let x ← fresh
    if x.marks != 0 then e.marks x.desc x.word x.marks
    return x
  modify fun b => { b with st := b.st.postWants e.ctx x.posts }
  return x.res
/-- A node's result: kept from before, or read now; its status collects in the ray's (R198, R260). -/
def keepNode (e : FEnv) (fresh : FieldM NodeRead) : FieldM NodeRes := do
  let b ← get
  match b.memo with
  | .node x :: r =>
    set { b with
      memo := r, done := b.done ++ [Memo.node x], lost := b.lost || x.lost, fb := b.fb || x.fb, pois := b.pois || x.pois
      nv := b.nv || x.nv, lvl := Nat.max b.lvl x.lvl }
    return x
  | _ => keepRead (.node (← e.nodeNow fresh))

/-- `brick` in point mode; a lost node is 0. -/
def pointBrick (e : FEnv) (n : Nat) (p : List Word) : FieldM Word := do
  let x ← keepNode e (pointNode e (n % 8) (n / 8) p)
  if x.lost then return 0
  modify fun b => { b with err := extMax b.err (extOf x.hi) }
  return x.lo
/-- `brick` in interval mode. DESIGN CHOICE (log entry 90): an empty operand gives empty and reads nothing (R51), though its ends
are infinite (R260); a NaN end comes before it. -/
def ivlBrick (e : FEnv) (n : Nat) (box : List Ivl) : FieldM Ivl := do
  if !(box.any Ivl.hasNan) && box.any Ivl.isEmpty then return .none
  let x ← keepNode e (boxNode e (n % 8) (n / 8) box)
  return ⟨extOf x.lo, extOf x.hi⟩
/-- `brick` in affine mode (R56). -/
def affineBrick (e : FEnv) (n : Nat) (box : List AForm) : FieldM AForm := do
  return affineOfIvl (← ivlBrick e n (box.map AForm.enclosure))

/-! ## Evaluation (R255, R256, R410) -/

/-- Running a program's opcodes, the top of the stack first. -/
def evalOps {V : Type} (md : FMode V) (brick : Nat → List V → FieldM V) (p : Prog) (crd : List V) :
    List FOp → List V → FieldM (List V)
  | [], st => return st
  | o :: r, st =>
    match stackOp o st with
    | some st => evalOps md brick p crd r st
    | none =>
      match o with
      | .brick n => do
        let v ← brick n (st.take 3).reverse
        evalOps md brick p crd r (v :: st.drop 3)
      | .callable k => do
        modify fun b => { b with call := b.call <|> some k }
        evalOps md brick p crd r (md.hole :: st)
      | o => do
        let vs ← liftNv (md.apply p crd o (st.take o.effect.1).reverse)
        evalOps md brick p crd r (vs.reverse ++ st.drop o.effect.1)
/-- One evaluation: what it collects starts afresh. -/
def evalOnce {V : Type} (md : FMode V) (brick : Nat → List V → FieldM V) (p : Prog) (crd : List V) : FieldM V := do
  modify fun b => { b with evals := b.evals + 1, lost := false, call := none, err := extZero }
  return (← evalOps md brick p crd p.ops []).headD md.hole

/-- A ray's origin and direction components. -/
def rayPair (ray : List Word) (a : Nat) : Word × Word := (ray.getD a 0, ray.getD (a + 3) 0)
/-- A coordinate at a point (R256, R410), and whether it sets NV. -/
def pointCoord (o d t : Word) : Word × Bool :=
  let x := extOf o
  let p := extMul (extOf d) (extOf t)
  if !(extOf o).isInf && !(extOf d).isInf && !(extOf t).isInf then
    ((fpFma 8 0 false (fpOf 8 false d) (fpOf 8 false t) (fpOf 8 false o)).1, false)
  else if (extOf d).isZero then (o, false)
  else if x.isInf && p.isInf && x.neg != p.neg then (fpNan 8, true)
  else (extWord (extRound 0 (extAdd true x p)), false)
/-- A coordinate over a segment, as an interval (R256, R410). -/
def segCoord (o d a b : Fp) : Ivl :=
  ⟨extRound 3 (extMin (extAdd true o (extMul d a)) (extAdd true o (extMul d b))),
    extRound 2 (extMax (extAdd false o (extMul d a)) (extAdd false o (extMul d b)))⟩
/-- The exact midpoint of a segment, in the extended reals (R262). -/
def exactMidpoint (a b : Fp) : Fp :=
  match a, b with
  | .inf s, .inf t => if s = t then .inf s else extZero
  | x, y => extHalf (extAdd true x y)
/-- The midpoint, rounded (R256). -/
def midpoint (a b : Fp) : Fp := extRound 0 (exactMidpoint a b)
/-- The word of the midpoint: one that rounds to a zero keeps its sign (R35, R262). -/
def midpointWord (a b : Fp) : Word := (fpPut 8 0 false (exactMidpoint a b)).1
/-- A coordinate over a segment, as an affine form (R256, R410). -/
def affineCoord (o d a b : Fp) : AForm :=
  if d.isZero then if o.isInf then .inf o.neg else .form o.dyad .zero .zero
  else
    let i := segCoord o d a b
    if i.lo.isInf || i.hi.isInf then .whole
    else
      let tm := midpoint a b
      match (let up := b.dyad.sub tm.dyad; let down := tm.dyad.sub a.dyad; if up.lt down then down else up).round? 2 with
      | none => .whole
      | some th => affineOf (o.dyad.add (d.dyad.mul tm.dyad)) (d.dyad.mul th) .zero

/-- The bound that a program's result gives: a NaN end is the whole line, with NV, as for any other reader of it (R51, R53,
R262; log entry 88). -/
def boundOf (x : Ivl) : FieldM Ivl := liftNv (if x.hasNan then do set true; return .whole else return x)
/-- The bound of a program over a segment, in affine (0) or interval (1) mode (R263). -/
def segBound (e : FEnv) (p : Prog) (mode : Nat) (ray : List Word) (a b : Fp) : FieldM Ivl := do
  let od (k : Nat) : Fp × Fp := let (o, d) := rayPair ray k; (extOf o, extOf d)
  let x ← if mode = 0 then
      return (← evalOnce affineMode (affineBrick e) p ((List.range 3).map fun k => affineCoord (od k).1 (od k).2 a b)).enclosure
    else evalOnce ivlMode (ivlBrick e) p ((List.range 3).map fun k => segCoord (od k).1 (od k).2 a b)
  boundOf x
/-- The value of a program at a point. -/
def pointValue (e : FEnv) (p : Prog) (ray : List Word) (t : Word) : FieldM Word := do
  let cs := (List.range 3).map fun k => let (o, d) := rayPair ray k; pointCoord o d t
  modify fun b => { b with nv := b.nv || cs.any (·.2) }
  evalOnce pointMode (pointBrick e) p (cs.map (·.1))

/-! ## The march (R262, R265) -/

/-- How a march ends: CODE, T, TEND, the callable index, and LIM. -/
structure MarchEnd where
  code : Nat
  t : Word
  tend : Word
  call : Nat
  lim : Bool
  deriving DecidableEq, Repr

/-- A miss. -/
def MarchEnd.miss : MarchEnd := ⟨0, 0x7F800000, 0x7F800000, 0, false⟩
/-- An invalid ray. -/
def MarchEnd.invalid : MarchEnd := ⟨4, 0x7F800000, 0x7F800000, 0, false⟩

/-- What one evaluation of a ray leads to: its end, or its next segment or point. -/
inductive March where
  | ended (x : MarchEnd)
  | more (x : MRay)

/-- One round of the segment march (R262). -/
def segGo (e : FEnv) (p : Prog) (mode : Nat) (tol : Fp) (x : MRay) : FieldM March := do
  let a := extOf x.a
  let b := extOf x.b
  let bound ← segBound e p mode x.words a b
  if bound.isEmpty || extLt extZero bound.lo then
    match x.stack with
    | [] => return .ended .miss
    | (a, b, n) :: rest => return .more { x with a := a, b := b, depth := n, stack := rest }
  else
    let s ← get
    if s.lost then return .ended ⟨3, x.a, x.b, 0, false⟩
    else match s.call with
    | some k => return .ended ⟨2, x.a, x.b, k, false⟩
    | none =>
      if extLe bound.hi extZero then return .ended ⟨1, x.a, x.a, 0, false⟩
      else
        let mw := midpointWord a b
        let m := extOf mw
        let short := if extLe b a then true else if a.isInf || b.isInf then false else extLe (ofDyad (b.dyad.sub a.dyad)) tol
        if short || extLe m a || extLe b m then return .ended ⟨1, x.a, x.b, 0, false⟩
        else if x.depth = 24 then return .ended ⟨1, x.a, x.b, 0, true⟩
        else return .more { x with b := mw, depth := x.depth + 1, stack := (mw, x.b, x.depth + 1) :: x.stack }

/-- The least f32 above a word; none above +∞ (R265). -/
def nextUp (w : Word) : Option Word :=
  if w = 0x7F800000 then none
  else if w &&& 0x7FFFFFFF = 0 then some 1
  else if w.getLsbD 31 then some (w - 1) else some (w + 1)
/-- t and a step, rounded down: an exact zero is −0 (R35, R265). DESIGN CHOICE (log entry 89): −∞ and a step of +∞ give −∞, as
the sum of a lower bound does, so t becomes the least f32 above. -/
def pointStep (t : Word) (step : Fp) : Word :=
  if (extOf t).isInf || step.isInf then extWord (extAdd true (extOf t) step) else (fpAdd 8 3 false (fpOf 8 false t) step).1
/-- One round of the point march, `a` being t (R265). -/
def pointGo (e : FEnv) (p : Prog) (tol lip : Fp) (x : MRay) : FieldM March := do
  let t := x.a
  let t1 := x.words.getD 7 0
  let v ← pointValue e p x.words t
  let s ← get
  if s.lost then return .ended ⟨3, t, t, 0, false⟩
  else match s.call with
  | some k => return .ended ⟨2, t, t1, k, false⟩
  | none =>
    if (extOf v).isNan then
      modify fun b => { b with nv := true }
      return .ended ⟨1, t, t, 0, false⟩
    else
      let d := extRound 3 (extAdd true (extOf v) (extNeg s.err))
      if extLe d tol then return .ended ⟨1, t, t, 0, false⟩
      else
        let u := pointStep t ((extDiv 3 d lip).getD posInf)
        match (if extLe (extOf u) (extOf t) then nextUp t else some u) with
        | none => return .ended .miss
        | some u => return if extLt (extOf t1) (extOf u) then .ended .miss else .more { x with a := u }

/-- A value that is positive and finite. -/
def positiveFinite (w : Word) : Bool := match extOf w with | .fin s m _ => !s && m != 0 | _ => false
/-- A ray with a NaN word, or whose parameter runs backwards (R262). -/
def badRay (ray : List Word) : Bool :=
  (ray.take 8).any (fun w => (extOf w).isNan) || extLt (extOf (ray.getD 7 0)) (extOf (ray.getD 6 0))
/-- One round of a ray's march (R262, R265). -/
def marchGo (e : FEnv) (p : Prog) (mode : Nat) (tol lip : Word) (x : MRay) : FieldM March :=
  if badRay x.words then return .ended .invalid
  else if mode = 2 then
    if positiveFinite lip then pointGo e p (extOf tol) (extOf lip) x else return .ended .invalid
  else segGo e p mode (extOf tol) x
/-- A ray at the start of its march. -/
def MRay.new (f : Fibre) (ray : List Word) : MRay := ⟨f, ray, ray.getD 6 0, ray.getD 7 0, 0, [], 0, false, false, 0, []⟩
/-- A whole march; fewer than 2^33 rounds exist (R262, R265). -/
def marchAll (e : FEnv) (p : Prog) (mode : Nat) (tol lip : Word) : Nat → MRay → FieldM MarchEnd
  | 0, _ => return .miss
  | fuel + 1, x => do
    match ← marchGo e p mode tol lip x with
    | .ended y => return y
    | .more x => marchAll e p mode tol lip fuel x
/-- The STATUS word (R198). -/
def marchStatus (x : MarchEnd) (b : FieldSt) : Word :=
  .ofNat 32 (x.code + 16 * (b.lvl % 16) + 256 * x.call + 65536 * b.fb.toNat + 131072 * b.nv.toNat + 262144 * x.lim.toNat)
/-- The 16 bytes of a march record (R198, R264). -/
def marchRecord (x : MarchEnd) (b : FieldSt) : List Byte :=
  wordBytes [x.t, marchStatus x b, x.tend, .ofNat 32 (Nat.min b.evals 0xFFFFFFFF)]

/-! ## mrch (R197, R251, R252) -/

/-- The program image at an address: its checks, its bytes and its program; poison of its granules is the caller's (R197,
R251, R252). -/
def State.fieldImage (s : State) (t : Team) (swz : Nat) (w : Word) : Except Stop (List Byte × Prog) := do
  check (!scrReserved w) (protectAt 14 (scrVal w))
  check (!s.scrMisuse t w) (protectAt 17 (scrVal w))
  check (scrOff w % 4 == 0) (protectAt 11 (scrVal w))
  check (!scrXm w && scrOff w + 16 ≤ t.scrBytes) (protect 21)
  let n := imageLen (t.scrRead swz (scrOff w) 16)
  check (scrOff w + n ≤ t.scrBytes) (protect 21)
  let img := t.scrRead swz (scrOff w) n
  match progOf img with
  | some p => return (img, p)
  | none => protect 21

/-- The ray slots of a core in use (R197, R202). -/
def State.raySlots (s : State) (core : Nat) : Nat :=
  (s.rays.filter (·.core == core)).length + ((s.ops.filter fun o => s.coreOf o.tid == core).map fun o => match o.kind with
    | .mrch _ _ _ _ _ _ _ rays => rays.length
    | _ => 0).sum

/-- MRCH (R197). DESIGN CHOICE (log entry 98): with only helper fibres to act for, none of the operands is checked, no operation
starts and no tag is bound. -/
def execMrch (m : Bool) (d a b : VReg) : State → Out :=
  runWord (.mrch m d a b) { s := m, roles := vectorOnly } fun s r g => do
    g.needSwz
    octCheck d
    quadCheck a
    let prog ← g.uniform a
    let recs ← g.uniform (regAt a 1)
    let tol ← g.uniform (regAt a 2)
    let ctl ← g.uniform (regAt a 3)
    let w ← g.uniform b
    let lip ← g.uniform (nextReg b)
    let t := s.teamOf r
    let fs := g.performers false true
    if fs.isEmpty then return (s, g)
    let (img, _) ← s.fieldImage t g.swz prog
    s.scrChecks t 16 [(recs, 16 * (fs.foldl Nat.max 0 + 1))]
    check (positiveFinite tol) (protect 14)
    check (ctl &&& 0xFFFFFF8C == 0 && ctl.extractLsb' 0 2 != 3) (protect 14)
    let c ← t.completion w false false
    s.scrPoisonCheck 0 t.tid g.swz (scrOff prog) img.length prog
    let _ ← s.scrTids t [recs]
    if Config.raySlots < s.raySlots t.core + fs.length then .error (.wait .raySlots s)
    let seen ← s.issueReads r g ⟨t.tid, g.swz, 0⟩ (scrOff prog) img.length
    let rays : List MRay := fs.map fun f => .new (Fin.ofNat 16 f) ((List.range 8).map fun k => g.rd (regAt d k) f)
    let table := g.breg (Fin.ofNat 8 (ctl.extractLsb' 4 3).toNat)
    return (← stopAt s (seen.startOp r c (.mrch img recs tol lip (ctl.extractLsb' 0 2).toNat table g.swz rays)), g)

/-- Changing the rays of a march. -/
def Op.withRays (o : Op) (f : List MRay → List MRay) : Op :=
  match o.kind with
  | .mrch img recs tol lip mode table swz rays => { o with kind := .mrch img recs tol lip mode table swz (f rays) }
  | _ => o
/-- Changing one ray of a march. -/
def Op.modRay (o : Op) (f : Fibre) (g : MRay → MRay) : Op := o.withRays (·.map fun x => if x.f = f then g x else x)
/-- A ray of a march that has ended: the operation completes with its last (R197). -/
def State.rayDone (s : State) (o : Op) (f : Fibre) (reason : Nat) : State :=
  let o : Op := { o.withRays (·.filter (·.f != f)) with reason := firstReason o.reason reason }
  let s := s.modOp o.id fun _ => o
  match o.kind with
  | .mrch _ _ _ _ _ _ _ [] => s.endOp o o.reason
  | _ => s
/-- What a halted round leaves: the reads it has kept, and what it waits for (R201, R364, R367). -/
def State.rayHalted (b : FieldSt) (o : Op) (f : Fibre) (h : Halt) : State :=
  let o : Op := { o.modRay f fun x => { x with memo := b.kept } with got := b.got }
  let s := b.st.modOp o.id fun _ => o
  match h with
  | .need key va n => s.needFor o key va n
  | .diverge n => (s.dueTrap ⟨o.tid, o.slot⟩ ⟨.replayDivergence, 0, .ofNat 64 n⟩).rayDone o f 5
  | .frozen => s.modOp o.id fun o => { o with got := [] }
  | _ => s
/-- The record of an ended ray, written as a chunk of the operation (R197, R264); a race that the manifest holds is met again. -/
def State.rayRecord (s : State) (o : Op) (recs : Word) (swz : Nat) (rays : List MRay) (f : Fibre) (record : List Byte) :
    Option State :=
  match s.opWin o swz recs with
  | none => some (s.rayDone o f 3)
  | some w =>
    let at_ (f : Fibre) : Nat := scrOff recs + 16 * f.val
    -- the record is the operation's last chunk into its block when no other ray's lies there
    let fin := rays.all fun x => x.f = f || at_ x.f / 2048 != at_ f / 2048
    match (performWrites o 0 [.scr w (at_ f) record, .mark w (at_ f / 2048) none fin none] s).run with
    | .error _ => none
    | .ok ((o, s, _, reason, evs), _) =>
      match (if evs.isEmpty then .go s else s.gate ((s.context? o.ctx).getD default) evs) with
      | .go s => some (s.rayDone o f reason)
      | _ => none

/-- RAY_MARCH_END (R262, R264, R265): one round of a ray's march, and at its end its record. -/
def execRayMarchEnd (id : Nat) (f : Fibre) (s : State) : Out :=
  match s.op? id with
  | none => .next s
  | some o =>
    match o.kind with
    | .mrch img recs tol lip mode table swz rays =>
      (match rays.find? (·.f == f), progOf img with
      | some x, some p =>
        if o.captured || !o.waits.isEmpty then .next s else
        let t := (s.team? o.tid).getD default
        match (marchGo ⟨o.ctx, t.party o.slot f true, t.core, table⟩ p mode tol lip x).run (FieldSt.start s x o.got) with
        | .error h b => .next (State.rayHalted b o f h)
        | .ok (.more y) b =>
          .next (b.st.modOp id fun o => o.modRay f fun _ =>
            { y with evals := b.evals, nv := b.nv, fb := b.fb, lvl := b.lvl, memo := [] })
        | .ok (.ended res) b => .next ((b.st.rayRecord o recs swz rays f (marchRecord res b)).getD s)
      | _, _ => .next s)
    | _ => .next s

/-- MRES (R199). -/
def execMres (m : Bool) (d a : VReg) : State → Out :=
  runWord (.mres m d a) { s := m, roles := vectorOnly, returning := true } fun s r g => do
    g.needSwz
    g.fits d 2
    g.fits (nextReg d) 2
    let base ← g.uniform a
    let fs := g.ons
    if fs.isEmpty then return (s, g)
    let (s, olds) ← s.scrAccess r g .read 16 g.swz none (fs.map fun f => .load f (scrVal (base + .ofNat 32 (16 * f))) 8)
    let word (k : Nat) := olds.map fun bs => (.ofNat 32 (bytesAt bs (4 * k) 4) : Word)
    let g := (g.storeDue d 2 fs.contains (pick fs (word 0))).storeDue (nextReg d) 2 fs.contains (pick fs (word 1))
    return (s, g.pending)

end Sys2Proof.Machine
end

