-- ==== Sys2Proof/Machine/Traverse.lean ====
section
/-! DEFINITION. The intersection unit: scene nodes, exact geometry, the traversal, and the instructions `trace` and `spawn`
(R202 to R204, R286 to R290, R293). -/
namespace Sys2Proof.Machine

/-! ## Exact values with infinities (R287) -/

/-- An exact value or an infinity. -/
inductive Ext where
  | ninf
  | fin (x : Rat)
  | pinf
  deriving DecidableEq, Repr

/-- Order. -/
def Ext.le : Ext → Ext → Bool
  | .ninf, _ => true
  | _, .pinf => true
  | .fin x, .fin y => x ≤ y
  | _, _ => false
/-- Strict order. -/
def Ext.lt (a b : Ext) : Bool := !b.le a
/-- The greater. -/
def Ext.max (a b : Ext) : Ext := if a.le b then b else a
/-- The lesser. -/
def Ext.min (a b : Ext) : Ext := if a.le b then a else b
/-- The exact value of a dyadic number. -/
def Dyad.rat (d : Dyad) : Rat := if 0 ≤ d.e then ((d.m * (2 ^ d.e.toNat : Nat) : Int) : Rat) else mkRat d.m (2 ^ (-d.e).toNat)
/-- The value of an f32 word that is no NaN. -/
def Ext.ofWord (w : Word) : Ext :=
  match extOf w with
  | .inf s => if s then .ninf else .pinf
  | x => .fin x.dyad.rat
/-- An exact value rounded once to f32. -/
def ratWord (rnd : Nat) (q : Rat) : Word := (fpDiv 8 rnd false (intFp q.num) (intFp q.den)).1
/-- An exact value or infinity rounded once to f32. -/
def Ext.word (rnd : Nat) : Ext → Word
  | .ninf => 0xFF800000
  | .pinf => 0x7F800000
  | .fin q => ratWord rnd q

/-! ## Boxes (R287) -/

/-- The parameter at which a ray component meets a plane; none when it is ∞ − ∞ or ∞ ÷ ∞. -/
def planeAt (o d p : Fp) : Option Ext :=
  let diff : Option Ext := match p, o with
    | .inf s, .inf t => if s = t then none else some (if s then .ninf else .pinf)
    | .inf s, _ => some (if s then .ninf else .pinf)
    | _, .inf t => some (if t then .pinf else .ninf)
    | x, y => some (.fin (x.dyad.rat - y.dyad.rat))
  match diff, d with
  | none, _ => none
  | some (.fin _), .inf _ => some (.fin 0)
  | some _, .inf _ => none
  | some (.fin x), d => some (.fin (x / d.dyad.rat))
  | some .ninf, d => some (if d.neg then .pinf else .ninf)
  | some .pinf, d => some (if d.neg then .ninf else .pinf)
/-- The entry and exit of one axis of a box; none: the empty set. A NaN bound and ∞ − ∞ leave the axis unbounded. -/
def slab (o d lo hi : Fp) : Option (Ext × Ext) :=
  if lo.isNan || hi.isNan then some (.ninf, .pinf)
  else if d.isZero then if extLe lo o && extLe o hi then some (.ninf, .pinf) else none
  else
    let (near, far) := if d.neg then (hi, lo) else (lo, hi)
    match planeAt o d near, planeAt o d far with
    | some a, some b => some (a, b)
    | _, _ => some (.ninf, .pinf)
/-- The exact interval of a box of six words within [a, b]; none when it is empty. -/
def boxSpan (ray box : List Word) (a b : Ext) : Option (Ext × Ext) := do
  let (lo, hi) ← (List.range 3).foldlM (fun (acc : Ext × Ext) k => do
    let (o, d) := rayPair ray k
    let (n, x) ← slab (extOf o) (extOf d) (extOf (box.getD k 0)) (extOf (box.getD (k + 3) 0))
    return (acc.1.max n, acc.2.min x)) (a, b)
  if lo.le hi then some (lo, hi) else none

/-! ## Triangles (R287) -/

/-- A vector of exact values. -/
structure Vec where
  x : Rat
  y : Rat
  z : Rat
/-- A difference. -/
def Vec.sub (a b : Vec) : Vec := ⟨a.x - b.x, a.y - b.y, a.z - b.z⟩
/-- A point along a direction. -/
def Vec.along (a : Vec) (t : Rat) (d : Vec) : Vec := ⟨a.x + t * d.x, a.y + t * d.y, a.z + t * d.z⟩
/-- The scalar product. -/
def Vec.dot (a b : Vec) : Rat := a.x * b.x + a.y * b.y + a.z * b.z
/-- The vector product. -/
def Vec.cross (a b : Vec) : Vec := ⟨a.y * b.z - a.z * b.y, a.z * b.x - a.x * b.z, a.x * b.y - a.y * b.x⟩
/-- Three words as a vector; none when one is not finite. -/
def vecOf (ws : List Word) : Option Vec :=
  match ws.map Ext.ofWord, ws.any fun w => (extOf w).isNan with
  | [.fin x, .fin y, .fin z], false => some ⟨x, y, z⟩
  | _, _ => none
/-- Where a ray hits a triangle: t, b₁ and b₂. -/
def triangleHit (ray tri : List Word) : Option (Rat × Rat × Rat) := do
  let o ← vecOf (ray.take 3)
  let d ← vecOf ((ray.drop 3).take 3)
  let v0 ← vecOf (tri.take 3)
  let v1 ← vecOf ((tri.drop 3).take 3)
  let v2 ← vecOf ((tri.drop 6).take 3)
  let e1 := v1.sub v0
  let e2 := v2.sub v0
  let n := e1.cross e2
  let nd := n.dot d
  if n.dot n = 0 || nd = 0 then none
  else
    let t := n.dot (v0.sub o) / nd
    let p := (o.along t d).sub v0
    let b1 := (p.cross e2).dot n / n.dot n
    let b2 := (e1.cross p).dot n / n.dot n
    if 0 ≤ b1 && 0 ≤ b2 && b1 + b2 ≤ 1 then some (t, b1, b2) else none

/-! ## Instances (R287) -/

/-- One row of a matrix applied to some words, rounded once: the exact sum of exact products, 0 × ∞ a NaN. -/
def rowDot (m xs : List Word) : Word :=
  let ps := m.zip xs |>.map fun (a, b) => (fpOf 8 false a, fpOf 8 false b)
  if ps.any fun (a, b) => a.isNan || b.isNan then fpNan 8
  else match ps.mapM fun (a, b) => a.mul b with
    | some ps => (fpSum 8 0 false ps).1
    | none => fpNan 8
/-- The object ray of an instance's matrix: o′, d′ and the parameters as they were. -/
def objectRay (m ray : List Word) : List Word :=
  let row (k : Nat) := (m.drop (4 * k)).take 4
  (List.range 3).map (fun k => rowDot (row k) (ray.take 3 ++ [0x3F800000])) ++
    (List.range 3).map (fun k => rowDot ((row k).take 3) ((ray.drop 3).take 3)) ++ ray.drop 6

/-! ## Hits (R288) -/

/-- A hit: its exact t, its instance and primitive indices, the status and the words t, u, v and level status it reports. -/
structure Hit where
  t : Ext
  inst : Word
  prim : Word
  status : Nat
  word : Word
  u : Word
  v : Word
  level : Word
  deriving DecidableEq, Repr
/-- The order of hits. -/
def Hit.less (a b : Hit) : Bool :=
  if a.t.lt b.t then true else if b.t.lt a.t then false
  else if a.inst < b.inst then true else if b.inst < a.inst then false else a.prim < b.prim
/-- The lesser of the best hit so far and another. -/
def bestHit (a : Option Hit) (b : Hit) : Option Hit :=
  match a with
  | some h => if b.less h then some b else some h
  | none => some b

/-- How a traversal ends (R288): with a hit, at a callable, with no hit, or with a status of 3 or 4. -/
inductive WalkEnd where
  | hit (h : Hit)
  | callable (target : Nat) (inst prim seg0 seg1 : Word) (k : Nat)
  | miss
  | err (status : Nat)
  deriving DecidableEq, Repr

/-! ## The walk (R286 to R289) -/

/-- A node to visit: its address, the instance it lies under, the ray in its space, and the interval of its box. -/
structure Visit where
  va : DWord
  inst : Option Word
  ray : List Word
  lo : Ext
  hi : Ext

/-- What a node gives: it is lost or invalid, more nodes, hits, or a callable. -/
inductive NodeGives where
  | bad
  | nodes (vs : List Visit)
  | hits (hs : List Hit)
  | stop (w : WalkEnd)

/-- The words of a node from an offset. -/
def nodeWords (bs : List Byte) (off n : Nat) : List Word := bytesWords (bs.drop off) n
/-- The address of a child (R286). -/
def childAddr (va : DWord) (w : Word) : DWord := va + w.signExtend 64 * 128

/-- The error record of a poisoned node (R289, R394); its syndrome is not stated, nor the place of a granule in another package's
memory (log entry 10). -/
def State.nodeError (s : State) (c : Context) (core : Nat) (va : DWord) : State :=
  let (det, s) := s.freeWord
  let (lo, s) := s.freeWord
  let (hi, s) := s.freeWord
  s.errRecord (dieOf core) 4 11 core c.num ((s.granuleAt c va).getD (hi ++ lo)) det
/-- A scene line or a program kept from before, or read now: the one read of a step (R290). -/
def keepLine (fresh : FieldM (Option (List Byte))) : FieldM (Option (List Byte)) := do
  let b ← get
  match b.memo with
  | .line x :: r =>
    set { b with memo := r, done := b.done ++ [Memo.line x] }
    return x
  | _ => keepRead (.line (← fresh))
/-- Reading a node's line; a poisoned one writes its error record (R289). -/
def FEnv.node (e : FEnv) (va : DWord) : FieldM (Option (List Byte)) :=
  keepLine do
    match ← e.look fun v => v.read va 128 with
    | .ok bs => return some bs
    | .error (.poison x) =>
      modify fun b => { b with st := b.st.nodeError ((b.st.context? e.ctx).getD default) e.core x }
      return none
    | .error _ => return none
/-- A field leaf's program: its header and image (R249, R251); none: lost or invalid. -/
def FEnv.program (e : FEnv) (va : DWord) : FieldM (Option Prog) := do
  if va.toNat % 4 != 0 then return none
  match ← keepLine (e.read fun v => v.read va 16) with
  | none => return none
  | some head => return (← keepLine (e.read fun v => v.read va (imageLen head))).bind progOf

/-- What a traversal is of: the ray's grid targets, its control word and its world ray. -/
structure Walk where
  targets : List Target
  ctl : Word
  ray : List Word
/-- The instance mask. -/
def Walk.mask (x : Walk) : Word := x.ctl.extractLsb' 12 8 |>.setWidth 32
/-- FIRST. -/
def Walk.first (x : Walk) : Bool := x.ctl.getLsbD 26
/-- vPAY. -/
def ctlPay (w : Word) : Nat := (w.extractLsb' 20 6).toNat
/-- A target that may be used: declared, with a payload that ends by v63 (R202). -/
def targetOk (ts : List Target) (ctl : Word) (n : Nat) : Bool :=
  match ts[n]? with
  | some x => ctlPay ctl + x.payB / 4 ≤ 64
  | none => false

/-- A box node's children that the ray enters, in visiting order (R287, R288). -/
def boxChildren (bs : List Byte) (v : Visit) (a b : Ext) (n : Nat) : List Visit :=
  let cs := (List.range n).filterMap fun c =>
    let ws := nodeWords bs (0x10 + 28 * c) 7
    (boxSpan v.ray ws a b).map fun (lo, hi) => (⟨childAddr v.va (ws.getD 6 0), v.inst, v.ray, lo, hi⟩ : Visit)
  sortBy (fun x y => x.lo.le y.lo) cs
/-- The triangles of a leaf that the ray hits within [a, b]. -/
def leafHits (bs : List Byte) (v : Visit) (a b : Ext) (n : Nat) : List Hit :=
  (List.range n).filterMap fun i => do
    let ws := nodeWords bs (8 + 40 * i) 10
    let (t, b1, b2) ← triangleHit v.ray ws
    if a.le (.fin t) && (Ext.fin t).le b then
      some ⟨.fin t, v.inst.getD 0xFFFFFFFF, ws.getD 9 0, 0, ratWord 0 t, ratWord 0 b1, ratWord 0 b2, 0⟩
    else none
/-- Marching a field leaf over a segment (R287, R288). -/
def FEnv.fieldLeaf (e : FEnv) (x : Walk) (bs : List Byte) (v : Visit) (a b : Ext) (best : Option Hit) : FieldM NodeGives := do
  let ctl := bytesAt bs 0 4
  let target := ctl / 256 % 16
  let tol : Word := .ofNat 32 (bytesAt bs 0x18 4)
  let prim : Word := .ofNat 32 (bytesAt bs 4 4)
  if 2 ≤ ctl / 16 % 4 || !positiveFinite tol || bytesAt bs 0x1C 4 != 0 || bytesAt bs 0x38 72 != 0 then return .bad
  match ← e.program (.ofNat 64 (bytesAt bs 8 8)) with
  | none => return .bad
  | some p =>
    match boxSpan v.ray (nodeWords bs 0x20 6) a b with
    | none => return .hits []
    | some (lo, hi) =>
      let ray := v.ray.take 6 ++ [lo.word 3, hi.word 2]
      modify fun b => { b with nv := false, fb := false, pois := false, lvl := 0, evals := 0 }
      let r ← marchAll { e with table := .ofNat 64 (bytesAt bs 0x10 8) } p (ctl / 16 % 4) tol 0 (2 ^ 33) (.new 0 ray)
      let b ← get
      match r.code with
      | 0 => return .hits []
      | 1 => return .hits [⟨.ofWord r.t, v.inst.getD 0xFFFFFFFF, prim, 1, r.t, 0, 0,
          .ofNat 32 (256 * b.lvl + if b.pois then 2 else if b.fb then 1 else 0)⟩]
      | 2 =>
        if (match best with | some h => (Ext.ofWord (lo.word 3)).lt h.t | none => true) then
          if targetOk x.targets x.ctl target then
            return .stop (.callable target (v.inst.getD 0xFFFFFFFF) prim r.t r.tend r.call)
          else return .bad
        else return .hits []
      | _ => return .bad

/-- What a node gives within [a, b] (R286, R287). -/
def FEnv.visit (e : FEnv) (x : Walk) (v : Visit) (a b : Ext) (best : Option Hit) : FieldM NodeGives := do
  if v.va.toNat % 128 != 0 then return .bad
  match ← e.node v.va with
  | none => return .bad
  | some bs =>
    let ctl := bytesAt bs 0 4
    match ctl % 16 with
    | 1 =>
      let n := ctl / 16 % 8
      if n = 0 || 4 < n || bytesAt bs 4 12 != 0 then return .bad
      return .nodes (boxChildren bs v a b n)
    | 2 =>
      if v.inst.isSome || bytesAt bs 0x0C 4 != 0 || bytesAt bs 0x40 64 != 0 then return .bad
      if (.ofNat 32 (ctl / 256 % 256) &&& x.mask : Word) = 0 then return .nodes []
      let ray := objectRay (nodeWords bs 0x10 12) v.ray
      if (ray.take 6).any fun w => (extOf w).isNan then return .bad
      return .nodes [⟨childAddr v.va (.ofNat 32 (bytesAt bs 8 4)), some (.ofNat 32 (bytesAt bs 4 4)), ray, v.lo, v.hi⟩]
    | 3 =>
      let n := ctl / 16 % 4
      if n = 0 || bytesAt bs 4 4 != 0 then return .bad
      return .hits (leafHits bs v a b n)
    | 4 => e.fieldLeaf x bs v a b best
    | _ => return .bad

/-- The depth-first walk (R288): a node taken from the stack is tested again against the best hit. A scene whose references
run in a circle has no end. -/
def walkLoop (e : FEnv) (x : Walk) : Nat → List Visit → Option Hit → FieldM WalkEnd
  | 0, _, _ => throw .hold
  | _, [], best => return (match best with | some h => .hit h | none => .miss)
  | fuel + 1, v :: rest, best => do
    let a := Ext.ofWord (x.ray.getD 6 0)
    let tmax := Ext.ofWord (x.ray.getD 7 0)
    let b := (match best with | some h => tmax.min h.t | none => tmax)
    if b.lt v.lo || v.hi.lt v.lo then walkLoop e x fuel rest best
    else
      match ← e.visit x v a b best with
      | .bad => return .err 3
      | .stop w => return w
      | .nodes vs => walkLoop e x fuel (vs ++ rest) best
      | .hits [] => walkLoop e x fuel rest best
      | .hits (h :: hs) =>
        if x.first then return .hit h else walkLoop e x fuel rest ((h :: hs).foldl bestHit best)
/-- A whole traversal from a root (R202, R288). -/
def walkRay (e : FEnv) (x : Walk) (root : DWord) : FieldM WalkEnd :=
  if badRay x.ray then return .err 4
  else
    let a := Ext.ofWord (x.ray.getD 6 0)
    walkLoop e x (2 ^ 40) [⟨root, none, x.ray, a, .ofWord (x.ray.getD 7 0)⟩] none

/-! ## Continuations (R206, R207, R288, R293) -/

/-- The ray hash (R293). -/
def rayHash (ray : List Word) : Word :=
  let bits := (List.range 3).foldl (fun acc a =>
    let k := ((ray.getD a 0).extractLsb' 22 9).toNat
    (List.range 9).foldl (fun acc b => acc + (k / 2 ^ b % 2) * 2 ^ (3 * b + a)) acc) 0
  let sign (a : Nat) : Nat := ((ray.getD (a + 3) 0).extractLsb' 31 1).toNat
  .ofNat 32 (sign 2 * 2 ^ 31 + sign 1 * 2 ^ 30 + sign 0 * 2 ^ 29 + bits)
/-- An arrival record's 20 words: the nine fields of `hitq`, then the eleven words of `payl` (R206, R207, R232). -/
def arrivalOf (t : Word) (status : Nat) (inst prim u v level hash pixel : Word) (ray : List Word) (seg : List Word) : List Word :=
  [t, .ofNat 32 status, inst, prim, u, v, level, hash, pixel] ++ (ray ++ List.replicate 8 0).take 8 ++ (seg ++ [0, 0, 0]).take 3
/-- The target and the arrival record of a traversal's end (R288). -/
def WalkEnd.arrival (w : WalkEnd) (ctl : Word) (ray : List Word) : Nat × List Word :=
  let hash := rayHash ray
  match w with
  | .hit h => (ctl.toNat % 16, arrivalOf h.word h.status h.inst h.prim h.u h.v h.level hash 0 ray [])
  | .callable target inst prim s0 s1 k => (target, arrivalOf 0 5 inst prim 0 0 0 hash 0 ray [s0, s1, .ofNat 32 k])
  | .miss => (ctl.toNat / 16 % 16, arrivalOf 0x7F800000 2 0 0 0 0 0 hash 0 ray [])
  | .err st => (ctl.toNat / 256 % 16, arrivalOf 0x7F800000 st 0 0 0 0 0 hash 0 ray [])
/-- The continuations a boarding unit holds that count against its 512; raster groups pass through it (R294). -/
def State.boarded (s : State) (core : Nat) : List Continuation := s.conts.filter fun c => c.core == core && c.raster.isNone
/-- A continuation enters the boarding unit of a core: no longer idle (R294). -/
def State.board (s : State) (c : Continuation) : State :=
  let (n, s) := s.fresh
  { s with conts := s.conts ++ [{ c with order := n }], idle := s.idle.filter (· != c.core) }

/-- A traversal that has ended: its continuation enters the boarding unit (R288). -/
def State.endRay (s : State) (r : Ray) (g : Grid) (w : WalkEnd) : State :=
  let (n, ar) := w.arrival r.ctl r.words
  ({ s with rays := s.rays.filter (·.id != r.id) }).board
    ⟨r.core, ⟨r.ctx, r.serial, n⟩, rayHash r.words, 0, r.payload.take ((g.targets.getD n default).payB / 4),
      r.gfid, r.draw, false, ar, none⟩
/-- Changing a ray. -/
def State.modRay (s : State) (id : Nat) (f : Ray → Ray) : State :=
  { s with rays := s.rays.map fun x => if x.id == id then f x else x }
/-- What a step of a traversal that stops leaves: the reads it has kept, and what it waits for. -/
def State.walkHalted (b : FieldSt) (r : Ray) (g : Grid) (h : Halt) : State :=
  let s := b.st.modRay r.id fun x => { x with memo := b.kept, got := b.got }
  match h with
  | .need key va n =>
    let c := (s.context? r.ctx).getD default
    -- while its line is in another's hands it gives up what it has (log entry 92)
    if s.blocked c (.ray r.id key) va then s.modRay r.id fun x => { x with got := [] } else
    (match s.askFor c (.ray r.id key) va n with
    | some s => s.modRay r.id fun x => { x with waits := x.waits ++ [s.nextId - 1] }
    | none => s.modRay r.id fun x => { x with got := ⟨key, 1, []⟩ :: x.got })
  | .diverge n =>
    -- the group that issued the trace takes it, when it still runs (R367)
    let issuer := s.teams.find? fun t =>
      t.ctx == r.ctx && t.serial == r.serial && t.cont == r.party.cont && t.lin == r.party.team
    (match issuer with
      | some t => s.dueTrap ⟨t.tid, r.party.slot⟩ ⟨.replayDivergence, 0, .ofNat 64 n⟩
      | none => s).endRay r g (.err 3)
  | .frozen => s.modRay r.id fun x => { x with got := [] }
  | _ => s
/-- TRAVERSAL_END (R202, R288, R290): a ray makes its next read, and when it needs none its walk ends in its continuation, which
waits while the boarding unit is full. -/
def execTraversalEnd (ray : Nat) (s : State) : Out :=
  match s.rays.find? (·.id == ray) with
  | none => .next s
  | some r =>
    if !r.waits.isEmpty then .next s else
    match s.grid? r.ctx r.serial with
    | none => .next { s with rays := s.rays.filter (·.id != ray) }
    | some g =>
      let full := Config.boardSlots ≤ (s.boarded r.core).length
      match (walkRay ⟨r.ctx, r.party, r.core, 0⟩ ⟨g.targets, r.ctl, r.words⟩ r.root).run
          (FieldSt.start s { MRay.new 0 r.words with memo := r.memo } r.got) with
      | .ok w b => .next (if full then s else b.st.endRay r g w)
      | .error (.diverge n) b => .next (if full then s else State.walkHalted b r g (.diverge n))
      | .error h b => .next (State.walkHalted b r g h)

/-! ## trace and spawn (R202, R204) -/

/-- The checks of the targets a control word names (R202). -/
def targetsCheck (x : Grid) (ctls : List (Word × List Nat)) : Except Stop Unit :=
  check (0 < x.pgrp && ctls.all fun (c, ns) => ns.all (targetOk x.targets c)) (protect 22)
/-- The sixteen registers from vPAY as a fibre reads them. -/
def Group.payload (g : Group) (ctl : Word) (f : Nat) : List Word :=
  (List.range 16).map fun k => if ctlPay ctl + k < 64 then g.rd (vr (ctlPay ctl + k)) f else 0

/-- TRACE (R202). -/
def execTrace (m : Bool) (d a : VReg) (b : BReg) : State → Out :=
  runWord (.trace m d a b) { s := m, roles := vectorOnly } fun s r g => do
    octCheck d
    let t := s.teamOf r
    let x := (s.grid? t.ctx t.serial).getD default
    let fs := g.ons
    let rays := g.performers false true
    let ctl (f : Nat) := g.rd a f
    let named (w : Word) : List Nat := [w.toNat % 16, w.toNat / 16 % 16, w.toNat / 256 % 16]
    if fs.isEmpty then return (s, g)
    targetsCheck x (rays.map fun f => (ctl f, named (ctl f)))
    -- the root is checked where a ray is to start at it (R19, R132, R286)
    checkEach id (rays.head?.toList.map fun _ => g.breg b) [(23, fun va => !canonical va), (11, fun va => va.toNat % 128 != 0)]
    if Config.raySlots < s.raySlots t.core + rays.length then .error (.wait .raySlots s)
    let new : List Ray := rays.zipIdx.map fun (f, i) =>
      ⟨s.nextId + i, t.ctx, t.serial, t.core, (List.range 8).map fun k => g.rd (regAt d k) f, ctl f, g.payload (ctl f) f,
        g.breg b, g.gfid.getD f 0, g.draw.getD f 0, t.party r.slot f true, [], [], []⟩
    endFibres fs { s with rays := s.rays ++ new, nextId := s.nextId + new.length } r g
/-- SPAWN (R204). DESIGN CHOICE (log entry 45): it waits while the boarding unit has no room for its continuations. DESIGN CHOICE
(log entry 99): it reads HIT and PAY alone; a control word whose other fields are not 0 does the same. -/
def execSpawn (m : Bool) (a b : VReg) : State → Out :=
  runWord (.spawn m a b) { s := m, roles := vectorOnly } fun s r g => do
    let t := s.teamOf r
    let x := (s.grid? t.ctx t.serial).getD default
    let fs := g.ons
    let goers := g.performers false true
    let ctl (f : Nat) := g.rd a f
    if fs.isEmpty then return (s, g)
    targetsCheck x (goers.map fun f => (ctl f, [(ctl f).toNat % 16]))
    -- the boarding unit holds 512 (R294)
    if Config.boardSlots < (s.boarded t.core).length + goers.length then .error (.wait .raySlots s)
    let s := goers.foldl (fun (s : State) f =>
      let n := (ctl f).toNat % 16
      let key := g.rd b f
      s.board ⟨t.core, ⟨t.ctx, t.serial, n⟩, key, 0, (g.payload (ctl f) f).take ((x.targets.getD n default).payB / 4),
        g.gfid.getD f 0, g.draw.getD f 0, false, arrivalOf 0 7 0 0 0 0 0 key 0 [] [], none⟩) s
    endFibres fs s r g

end Sys2Proof.Machine
end

