-- ==== Sys2Proof/Machine/Boarding.lean ====
section
/-! DEFINITION. The boarding unit: bins, when a group is formed and of whom, continuation teams, and the reads of an arrival
record (R206, R207, R231 to R233, R294). -/
namespace Sys2Proof.Machine

/-! ## Bins (R294) -/

/-- A bin in its order: ascending hash, ties in arrival order. -/
def State.binOf (s : State) (core : Nat) (k : BinKey) : List Continuation :=
  sortBy (fun x y => x.hash < y.hash || (x.hash == y.hash && x.order ≤ y.order)) ((s.boarded core).filter (·.bin == k))
/-- The oldest raster group of a bin, in its order. -/
def State.rasterGroup (s : State) (core : Nat) (k : BinKey) : List Continuation :=
  match s.conts.find? fun c => c.core == core && c.bin == k && c.raster.isSome with
  | some c => s.conts.filter fun x => x.core == core && x.bin == k && x.raster == c.raster
  | none => []
/-- A bin is the fullest of its unit, the lowest target first. -/
def State.fullestBin (s : State) (core : Nat) (k : BinKey) : Bool :=
  let n (b : BinKey) : Nat := ((s.boarded core).filter (·.bin == b)).length
  0 < n k && (s.boarded core).all fun c => n c.bin < n k || (n c.bin == n k && k.target ≤ c.bin.target)
/-- A group of a bin is due (R294). -/
def State.groupDue (s : State) (core : Nat) (k : BinKey) : Bool :=
  64 ≤ (s.binOf core k).length
    || ((Config.boardSlots ≤ (s.boarded core).length || s.idle.contains core) && s.fullestBin core k)

/-- The bytes hashed for the members of a group: their global fibre identifiers in order (R361). -/
def memberHash (ms : List Continuation) : Word :=
  hashWords (ms.flatMap fun c => [c.gfid.extractLsb' 0 32, c.gfid.extractLsb' 32 32])
/-- Members of a hash among some continuations, at most n of them, in ascending order of ray hash from `least`. -/
def findMembers (want : Word) : Nat → Word → List Continuation → List Continuation → Option (List Continuation)
  | 0, _, _, _ => none
  | n + 1, least, pool, taken =>
    pool.findSome? fun c =>
      if c.hash < least then none
      else if memberHash (taken ++ [c]) = want then some (taken ++ [c])
      else findMembers want n c.hash (pool.filter (·.order != c.order)) (taken ++ [c])

/-- The continuation teams of a grid that exist; one whose last fibre has retired has released its place (R233). -/
def State.contTeams (s : State) (x : Grid) : Nat :=
  let mine (t : Team) : Bool := t.cont && t.ctx == x.ctx && t.serial == x.serial && !t.over
  (s.teams.filter mine).length + (s.saved.filter fun t => mine t && !s.teams.any (·.tid == t.tid)).length

/-- The party of a grid's next formation (R361). -/
def Grid.formationParty (x : Grid) : Party := ⟨x.serial, true, true, false, x.formed % 2 ^ 32, 0, 0⟩
/-- The members that the record at HEAD gives a grid's next formation, wherever they are held: a raster group, or some of a bin
in its order (R294, R361). -/
def State.recordedMembers (s : State) (k : BinKey) (want : Word) : Option (List Continuation) :=
  let mine := s.conts.filter (·.bin == k)
  match ((mine.filterMap (·.raster)).eraseDups.map fun g => mine.filter (·.raster == some g)).find? fun ms => memberHash ms = want with
  | some ms => some ms
  | none => findMembers want 16 0 (mine.filter (·.raster.isNone)) []
/-- The record at HEAD, when it is that of a grid's next formation from a bin under replay: its index and its hash. -/
def State.formationRecord (s : State) (c : Context) (x : Grid) (k : BinKey) : Option (Nat × Word) :=
  if c.recMode != 2 then none else
  match s.headRecord c with
  | some (i, r) =>
    if namesParty r x.formationParty && bytesAt r 0 1 == 7 && bytesAt r 0x10 8 == k.target then some (i, .ofNat 32 (bytesAt r 0x1C 4))
    else none
  | none => none
/-- The members of the group that a bin forms now; none: no group. -/
def State.nextMembers (s : State) (c : Context) (x : Grid) (core : Nat) (k : BinKey) : Option (List Continuation) :=
  let raster := s.rasterGroup core k
  if c.recMode = 2 then (s.formationRecord c x k).bind fun (_, want) => s.recordedMembers k want
  else if !raster.isEmpty then some raster
  else if s.groupDue core k then some ((s.binOf core k).take 16)
  else none

/-! ## Continuation teams (R16, R231, R232) -/

/-- The registers a continuation group starts with: the payloads general, the rest as the shape map gives (R16). -/
def contRegisters (x : Grid) (n : Nat) (ms : List Continuation) : List VVal :=
  (List.range n).map (fun k => .gen (fibres.map fun f => ((ms.getD f default).payload.getD k 0))) ++ x.image.drop n
/-- A continuation team of some members at a room. -/
def State.contTeam (s : State) (x : Grid) (room : Room) (k : BinKey) (ms : List Continuation) : Team :=
  let tg := x.targets.getD k.target default
  let mask (p : Continuation → Bool) : Half :=
    ms.zipIdx.foldl (fun (acc : Half) (c, f) => if p c then acc ||| (1#16 <<< f) else acc) 0
  let g := newGroup (contRegisters x (tg.payB / 4) ms) x.args .vector x.budget (room.ports.getD 0 0) tg.entry x.formed 0
    s.nextId ((activeFlags s room.core room.ports []).getD 0 false)
  let t : Team := { s.newTeam x room (x.formed % 2 ^ 32) none with
    cont := true, accRows := 0, rings := []
    groups := [{ g with
      live := mask fun _ => true, helper := mask (·.helper)
      gfid := fibres.map fun f => (ms.getD f default).gfid
      draw := fibres.map fun f => (ms.getD f default).draw }] }
  (ms.zipIdx).foldl (fun t (c, f) => t.scrWrite 0 none (x.arriv + 80 * f) (wordBytes c.arrival)) t

/-- The formation of a bin's next group, when it can be placed: it becomes a continuation team on its core, or on the core of the
die with most free register words; while the pool is full or no core has room it waits (R231 to R233, R294). -/
def State.form (s : State) (core : Nat) (bin : BinKey) : Option State :=
  match s.grid? bin.ctx bin.serial, s.context? bin.ctx with
  | some x, some c =>
    if x.pgrp ≤ s.contTeams x then none else
    (s.nextMembers c x core bin).bind fun ms =>
      let own := if s.coreFor c core then s.place c [core] x.contNeed else none
      (own <|> s.place c (s.dieCores c (dieOf core)) x.contNeed).bind fun room =>
        match s.gate c [⟨7, x.formationParty, .ofNat 64 bin.target, memberHash ms, core, none⟩] with
        | .go s =>
          let s := s.addTeam (s.contTeam x room bin ms)
          some (({ s with conts := s.conts.filter fun k => !ms.any (·.order == k.order) }).modGrid x.ctx x.serial
            fun x => { x with formed := x.formed + 1 })
        | _ => none
  | _, _ => none
/-- BOARDING_IDLE_TIMEOUT (R294): no continuation has arrived for 512 clocks, so groups are due from the fullest bins. -/
def execBoardingIdleTimeout (core : Nat) (s : State) : Out :=
  if (s.boarded core).isEmpty || s.idle.contains core then .next s else .next { s with idle := core :: s.idle }

/-! ## Arrival records (R206, R207, R232) -/

/-- Reading a word of each fibre's arrival record. -/
def arrivalWord (d : VReg) (n : Nat) : Effect := fun s r g => do
  g.fits d 2
  let fs := g.ons
  if fs.isEmpty then return (s, g)
  let t := s.teamOf r
  let x := (s.grid? t.ctx t.serial).getD default
  let (s, olds) ← s.scrAccess r g .read 4 0 none (fs.map fun f => .load f (.ofNat 64 (x.arriv + 80 * f + 4 * n)) 4)
  return (s, (g.storeDue d 2 fs.contains (pick fs (olds.map fun bs => .ofNat 32 (leNat bs)))).pending)
/-- HITQ (R206). -/
def execHitq (m : Bool) (d : VReg) (k : BitVec 6) : State → Out :=
  runWord (.hitq m d k) { s := m, roles := vectorOnly, returning := true } fun s r g => do
    check (k.toNat < 9) (illegal 5)
    arrivalWord d k.toNat s r g
/-- PAYL (R207). -/
def execPayl (m : Bool) (d : VReg) (k : BitVec 6) : State → Out :=
  runWord (.payl m d k) { s := m, roles := vectorOnly, returning := true } fun s r g => do
    check (k.toNat < 11) (illegal 5)
    arrivalWord d (9 + k.toNat) s r g

end Sys2Proof.Machine
end

