-- ==== Sys2Proof/Machine/Copies.lean ====
section
/-! DEFINITION. The copies: `cpy`, `cpyt`, `cpyg` and `cpys`, and their completion (R135, R147, R150 to R152, R155). -/
namespace Sys2Proof.Machine

/-- A byte of an operation: its value, and the reason its source met (0: none). -/
structure ByteRes where
  val : Byte
  reason : Nat
  deriving DecidableEq, Repr, Inhabited

/-- Bytes that were read. -/
def plainBytes (bs : List Byte) : List ByteRes := bs.map fun b => ⟨b, 0⟩
/-- The first reason among bytes. -/
def reasonOf (bs : List ByteRes) : Nat := bs.foldl (fun a b => firstReason a b.reason) 0

/-- Chunk reads of n bytes of global memory: a failed chunk gives its reason to each of its bytes. -/
def View.bytesRes (v : View) (va : DWord) (n : Nat) : OpM (List ByteRes) := do
  let parts ← (chunks va.toNat n).mapM fun (a, k) => do
    let (bs, reason) ← v.chunk (.ofNat 64 a) k
    return (List.range k).map fun i => (⟨(bs.getD []).getD i 0, reason⟩ : ByteRes)
  return parts.flatten
/-- Chunk reads of n bytes of a window. -/
def State.scrRes (s : State) (w : ScrWin) (off n : Nat) : List ByteRes :=
  let t := s.winTeam w
  (chunks off n).flatMap fun (a, k) =>
    let reason := if t.scrPoisoned w.swz a k then 4 else 0
    (t.scrRead w.swz a k).map fun b => ⟨b, reason⟩

/-- The runs of bytes that were read: where each begins, and its bytes. -/
def goodRuns : Nat → List ByteRes → List (Nat × List Byte)
  | _, [] => []
  | i, b :: more =>
    let rest := goodRuns (i + 1) more
    if b.reason != 0 then rest else match rest with
      | (j, bs) :: runs => if j = i + 1 then (i, b.val :: bs) :: runs else (i, [b.val]) :: rest
      | [] => [(i, [b.val])]
/-- Writes of bytes inside one granule: those that were read, a poisoned granule for a poisoned source, and nothing for a byte whose
read failed otherwise (R147). -/
def chunkWrites (put : Nat → List Byte → OpWrite) (spoil : Nat → Nat → OpWrite) (at_ : Nat) (bs : List ByteRes) : List OpWrite :=
  let bad := bs.zipIdx.filterMap fun (b, i) => if b.reason = 4 then some i else none
  (goodRuns at_ bs).map (fun x => put x.1 x.2) ++ (match bad with
    | [] => []
    | i :: more => [spoil (at_ + i) ((more.getLast?.getD i) + 1 - i)])
/-- Writing bytes into a window from a logical offset. -/
def scrPutRes (w : ScrWin) (off : Nat) (bs : List ByteRes) : List OpWrite :=
  (chunks off bs.length).flatMap fun (a, k) => chunkWrites (.scr w) (.scrPoison w) a ((bs.drop (a - off)).take k)
/-- Writing bytes to global memory. -/
def globPutRes (va : DWord) (bs : List ByteRes) : List OpWrite :=
  (chunks va.toNat bs.length).flatMap fun (a, k) =>
    chunkWrites (fun i x => .glob (.ofNat 64 i) x) (fun i n => .globPoison (.ofNat 64 i) n) a ((bs.drop (a - va.toNat)).take k)

/-! ## The chunks of a copy (R242, R243, R334)

A copy performs its chunks in ascending order, which is that of the 16-byte chunks of its scratchpad image, since one that is
captured keeps only how many it has done (R334; log entry 13). -/

/-- Where an operation's chunks lie in scratchpad: each row's logical offset, the chunks of a row, and the rows. -/
structure Image where
  off : Nat → Nat
  per : Nat
  rows : Nat
/-- The chunks of an image. -/
def Image.total (m : Image) : Nat := m.rows * m.per
/-- The logical offset of chunk c. -/
def Image.at (m : Image) (c : Nat) : Nat := m.off (c / m.per) + 16 * (c % m.per)
/-- Chunk c is the operation's last into its block (R243). -/
def Image.last (m : Image) (c : Nat) : Bool := m.total ≤ c + 1 || m.at (c + 1) / 2048 != m.at c / 2048
/-- The mark of a chunk's block: with the operation's last chunk into it the final one, though that chunk writes nothing, and the
interim one before (R135, R243). -/
def Image.mark (m : Image) (w : ScrWin) (writer : Writer) (c : Nat) (carried : Option Mark := none) : OpWrite :=
  .mark w (m.at c / 2048) writer (m.last c) carried

/-! ## cpy (R150) -/

/-- The image of a `cpy`: its rows packed (R150). -/
def cpyImage (scr : Word) (len rows : Nat) : Image := ⟨fun i => scrOff scr + i * len, len / 16, rows⟩
/-- The global address of chunk c of a `cpy` (R150). -/
def cpyPlace (glob : DWord) (len stride c : Nat) : DWord :=
  glob + .ofNat 64 (c / (len / 16) * stride * 16 + 16 * (c % (len / 16)))

/-- Chunk c of a `cpy`. DESIGN CHOICE (log entries 13, 41): where rows of one outward copy overlap the later row's bytes stay. -/
def evalCpy (o : Op) (v : View) (glob : DWord) (scr : Word) (len rows stride swz : Nat) (out : Bool) (c : Nat) : OpM ChunkRes := do
  match v.st.opWin o swz scr with
  | none => return { reason := 3 }
  | some w =>
    let m := cpyImage scr len rows
    let va := cpyPlace glob len stride c
    if out then
      let bs := v.st.scrRes w (m.at c) 16
      return { writes := .seenScr w (m.at c) 16 :: globPutRes va bs, reason := reasonOf bs }
    else
      let bs ← v.bytesRes va 16
      return { writes := scrPutRes w (m.at c) bs ++ [m.mark w none c], reason := reasonOf bs }

/-- CPY (R150). -/
def execCpy (m : Bool) (d : BReg) (a b : VReg) : State → Out :=
  runWord (.cpy m d a b) { s := m, roles := (· == .copy), collective := true } fun s r g => do
    g.needSwz
    quadCheck a
    let off ← g.uniform a
    let scr ← g.uniform (regAt a 1)
    let len ← g.uniform (regAt a 2)
    let shape ← g.uniform (regAt a 3)
    let w ← g.uniform b
    let t := s.teamOf r
    let glob := g.breg d + off.signExtend 64
    let rows := (shape.extractLsb' 16 16).toNat
    checkEach id [glob] [(23, fun x => !canonical x), (11, fun x => x.toNat % 16 != 0)]
    s.scrChecks t 16 [(scr, len.toNat * rows)]
    check (len.toNat % 16 == 0 && 16 ≤ len.toNat && len.toNat ≤ 524288) (protect 14)
    check (1 ≤ rows && rows * len.toNat ≤ 524288) (protect 14)
    let c ← t.completion w true true
    let _ ← s.scrTids t [scr]
    return (← s.startOp r c (.cpy glob scr len.toNat rows (shape.extractLsb' 0 16).toNat g.swz c.out), g)

/-! ## cpyt (R151) -/

/-- The indices j1 to j4 of the dimension-0 rows of a box, dimension 1 varying fastest (R151). -/
def boxRows (ext : List Nat) : List (List Nat) :=
  let e (k : Nat) : Nat := ext.getD k 1
  (List.range (e 1 * e 2 * e 3 * e 4)).map fun i =>
    [i % e 1, i / e 1 % e 2, i / (e 1 * e 2) % e 3, i / (e 1 * e 2 * e 3)]
/-- Bytes of one packed row of a box, padded to 16. -/
def rowPitch (bits e0 : Nat) : Nat := (e0 * bits / 8 + (if e0 * bits % 8 = 0 then 0 else 1) + 15) / 16 * 16
/-- Bytes of a whole box. -/
def boxBytes (bits : Nat) (ext : List Nat) : Nat := rowPitch bits (ext.headD 1) * ((ext.drop 1).foldl (· * ·) 1)
/-- The position of an index of a box. -/
def boxPos (starts : List Word) (js : List Nat) : List Word := (starts.zip js).map fun (s, j) => s + .ofNat 32 j

/-- The code of an element in bytes of memory: the bits above a narrow code and the unused bits of a tf are none of it (R34, R45). -/
def Handle.codeIn (x : Handle) (bit : Nat) (bs : List Byte) : List Byte :=
  natLe x.bytes (codeOf x.elem x.fmt (if x.bits = 4 then leNat bs / 2 ^ (bit % 8) % 16 else leNat bs))
/-- Elements of a dense handle that lie together inside a chunk, each with its bit: one chunk read (R236). -/
def readDense (x : Handle) (v : View) (es : List (Nat × Nat)) : OpM (List Piece) :=
  match es.head?, es.getLast? with
  | some (_, b0), some (_, b1) => do
    let (bs, reason) ← v.chunk (x.addr b0) (b1 / 8 + x.bytes - b0 / 8)
    return es.map fun (j, bit) => ⟨j, x.codeIn bit (((bs.getD []).drop (bit / 8 - b0 / 8)).take x.bytes), reason⟩
  | _, _ => return []
/-- One element of a sparse handle; an absent one is zero. -/
def readSparse (x : Handle) (v : View) (j : Nat) (pos : List Nat) : OpM Piece := do
  match ← settled (x.spot v pos) with
  | .error e => return ⟨j, List.replicate x.bytes 0, ← e.noted⟩
  | .ok (.at bit) =>
    let (bs, reason) ← v.chunk (x.addr bit) x.bytes
    return ⟨j, x.codeIn bit (bs.getD []), reason⟩
  | .ok _ => return ⟨j, List.replicate x.bytes 0, 0⟩
/-- A position lies in the tensor. -/
def Handle.holds (x : Handle) (pos : List Word) : Bool := !(pos.zipIdx.take x.rank).any fun (w, k) => x.extent k ≤ w.toNat
/-- A position as indices. -/
def Handle.indices (x : Handle) (pos : List Word) : List Nat := (pos.take x.rank).map (·.toNat)
/-- Elements of a row that lie together, by their index in it; those outside the tensor are zero (R151). -/
def readElems (x : Handle) (v : View) (es : List (Nat × List Word)) : OpM (List Piece) := do
  let inside := es.filter fun e => x.holds e.2
  let got ← (if x.type = 1 then readDense x v (inside.map fun (j, p) => (j, x.denseBit (x.indices p)))
    else inside.mapM fun (j, p) => readSparse x v j (x.indices p))
  return es.map fun (j, _) => (got.find? (·.at_ == j)).getD ⟨j, List.replicate x.bytes 0, 0⟩

/-- Packing elements: two nibbles to a byte, the low one first. -/
def packElems (bits : Nat) : List Piece → List ByteRes
  | [] => []
  | x :: rest =>
    if bits = 4 then
      match rest with
      | [] => [⟨x.bytes.headD 0, x.reason⟩]
      | y :: rest => ⟨.ofNat 8 ((x.bytes.headD 0).toNat + 16 * (y.bytes.headD 0).toNat), firstReason x.reason y.reason⟩ :: packElems bits rest
    else x.bytes.map (fun b => (⟨b, x.reason⟩ : ByteRes)) ++ packElems bits rest
/-- The elements packed in bytes, numbered from `first`. -/
def Handle.unpack (x : Handle) (first n : Nat) (bs : List ByteRes) : List Piece :=
  (List.range n).map fun i =>
    let part := (bs.drop (i * x.bits / 8)).take x.bytes
    ⟨first + i, x.codeIn (i * x.bits) (part.map (·.val)), reasonOf part⟩

/-- The mark that a whole block of a `cpyt` carries: that of the one source tile of an attributed page of the handle's own type
from which the operation fills it; none: the byte rule judges it (R135, R186). `src` gives the source byte of each byte of the
block's chunks. -/
def carriedMark (x : Handle) (v : View) (src : List (Option Nat)) : Option Mark :=
  if !x.dir || isNarrowType x.elem then none else
  let a := ((src.headD none).getD 1)
  if src.length = 2048 && x.base.toNat ≤ a && (a - x.base.toNat) % 2048 == 0 && src.zipIdx.all (fun (y, k) => y == some (a + k)) then
    match v.st.translate v.ctx (.ofNat 64 a) .read with
    | .ok l => match l.home (.ofNat 64 a) with
      | .here (.dev p) =>
        if l.dira && l.dtype == x.elem then
          let j := v.st.dirEntry l.dtype p
          some ⟨j.state, .ofNat 32 j.const, j.nonfin, x.elem, x.swz, 0⟩
        else none
      | _ => none
    | .error _ => none
  else none

/-- Writing one nibble, the byte's other nibble kept, in one access of the memory that holds it. The host has no such access: its byte
is read and written, and one in a granule that the host holds poisoned stays so (R165, R236, R393). -/
def nibbleWrite (x : Handle) (v : View) (bit : Nat) (p : Piece) : OpM (List OpWrite × Nat) := do
  let va := x.addr bit
  let high := bit % 8 != 0
  let code := (p.bytes.headD 0).toNat
  if p.reason != 0 then return ([.globPoison va 1], 0)
  let home : Option Home := (v.st.walk v.ctx.l0 va).toOption.map (·.home va)
  match home with
  | some (Home.atHost _) =>
    match ← settled (v.read va 1) with
    | .ok bs =>
      let old := (bs.headD 0).toNat
      return ([.glob va [.ofNat 8 (if high then old % 16 + 16 * code else old / 16 * 16 + code)]], 0)
    | .error (.poison _) => return ([.globPoison va 1], 0)
    | .error e => return ([], ← e.noted)
  | _ => return ([.nibble va high code], 0)
/-- 4-bit elements from a low nibble on: those that fill bytes, and a last one that does not. -/
def nibblePairs : List (Nat × Piece) → List ByteRes × Option (Nat × Piece)
  | [] => ([], none)
  | [x] => ([], some x)
  | x :: y :: more =>
    let (bs, last) := nibblePairs more
    (packElems 4 [x.2, y.2] ++ bs, last)
/-- Writing elements that lie together inside a chunk, each with its bit (R236); and the reason met. -/
def elemWrites (x : Handle) (v : View) (es : List (Nat × Piece)) : OpM (List OpWrite × Nat) := do
  match es with
  | [] => return ([], 0)
  | (b0, p0) :: more =>
    if x.bits != 4 then return (globPutRes (x.addr b0) (packElems x.bits (es.map (·.2))), 0)
    else
      let (first, r1) ← (if b0 % 8 != 0 then nibbleWrite x v b0 p0 else return ([], 0))
      let rest := if b0 % 8 != 0 then more else es
      let (bs, last) := nibblePairs rest
      let (final, r2) ← (match last with | some (bit, p) => nibbleWrite x v bit p | none => return ([], 0))
      return (first ++ globPutRes (x.addr ((rest.head?.map (·.1)).getD 0)) bs ++ final, firstReason r1 r2)
/-- The first reason among elements. -/
def reasonOfElems (ps : List Piece) : Nat := ps.foldl (fun a p => firstReason a p.reason) 0

/-- The image of a `cpyt`: the box's rows, packed and padded (R151). -/
def cpytImage (x : Handle) (ext : List Nat) (scr : Word) : Image :=
  ⟨fun k => scrOff scr + k * rowPitch x.bits (ext.headD 1), rowPitch x.bits (ext.headD 1) / 16, (boxRows ext).length⟩
/-- The elements of chunk c of a box: the positions of those inside the row. -/
def cpytElems (x : Handle) (m : Image) (starts : List Word) (ext : List Nat) (c : Nat) : List (List Word) :=
  let js := (boxRows ext).getD (c / m.per) []
  let n := 128 / x.bits
  ((List.range n).filter fun j => c % m.per * n + j < ext.headD 1).map fun j => boxPos starts ((c % m.per * n + j) :: js)
/-- The source byte of each byte of the elements of a chunk; none: it has none, or shares it. -/
def cpytSources (x : Handle) (pos : List (List Word)) : List (Option Nat) :=
  let at_ (p : List Word) : Option Nat := if x.type != 1 || !x.holds p then none else some (x.denseBit (x.indices p))
  if x.bits = 4 then
    (List.range (pos.length / 2)).map fun i => match at_ (pos.getD (2 * i) []), at_ (pos.getD (2 * i + 1) []) with
      | some a, some b => if a % 8 = 0 ∧ b = a + 4 then some (x.addr a).toNat else none
      | _, _ => none
  else pos.flatMap fun p => (List.range x.bytes).map fun i => (at_ p).map fun bit => (x.addr bit).toNat + i
/-- The mark that a block carries when chunk c is the last into it. -/
def cpytCarried (x : Handle) (v : View) (m : Image) (starts : List Word) (ext : List Nat) (c : Nat) : Option Mark :=
  let cs := (List.range m.total).filter fun k => m.at k / 2048 == m.at c / 2048
  carriedMark x v (cs.flatMap fun k => cpytSources x (cpytElems x m starts ext k))

/-- How many elements a dense box's rows begin past a 16-byte boundary of global memory. -/
def cpytShift (x : Handle) (starts : List Word) : Nat := if x.type = 1 then (starts.headD 0).toNat % (128 / x.bits) else 0
/-- The steps of a row: one for each of its chunks. A row that begins past a boundary takes one more, since each 16-byte chunk, of
global memory and of scratchpad, is read or written once and whole, what was read of one waiting for the next (R236). -/
def cpytSteps (x : Handle) (m : Image) (starts : List Word) : Nat := m.per + (if cpytShift x starts = 0 then 0 else 1)

/-- Step k of row `row` of an inward `cpyt`: a global chunk is read, and the scratchpad chunk that is now complete written. -/
def cpytIn (o : Op) (v : View) (x : Handle) (w : ScrWin) (m : Image) (starts : List Word) (ext : List Nat) (row k : Nat) :
    OpM ChunkRes := do
  let n := 128 / x.bits
  let sh := cpytShift x starts
  let js := (boxRows ext).getD row []
  let new ← readElems x v (((List.range (ext.headD 1)).filter fun j => (sh + j) / n == k).map fun j => (j, boxPos starts (j :: js)))
  let held := (if k = 0 then [] else o.seen) ++ new
  if sh ≠ 0 ∧ k = 0 then return { reason := reasonOfElems new, keep := fun _ => held }
  let c := row * m.per + (if sh = 0 then k else k - 1)
  let bs := packElems x.bits (held.take n)
  let all := bs ++ plainBytes (List.replicate (16 - bs.length) 0)
  let carried := if !m.last c || o.reason != 0 || reasonOf all != 0 then none else cpytCarried x v m starts ext c
  return { writes := scrPutRes w (m.at c) all ++ [m.mark w (some (x.elem, x.fmt)) c carried], reason := reasonOfElems new,
           keep := fun _ => held.drop n }
/-- Step k of row `row` of an outward `cpyt`: a scratchpad chunk is read, and the global chunk that is now complete written; where
elements of one box coincide the later chunk's stays (log entry 41). -/
def cpytOut (o : Op) (v : View) (x : Handle) (w : ScrWin) (m : Image) (starts : List Word) (ext : List Nat) (row k : Nat) :
    OpM ChunkRes := do
  let n := 128 / x.bits
  let sh := cpytShift x starts
  let js := (boxRows ext).getD row []
  let c := row * m.per + k
  let new := if k < m.per then x.unpack (k * n) (Nat.min n (ext.headD 1 - k * n)) (v.st.scrRes w (m.at c) 16) else []
  let held := (if k = 0 then [] else o.seen) ++ new
  let now := (held.filter fun p => (sh + p.at_) / n == k).filterMap fun p =>
    let pos := boxPos starts (p.at_ :: js)
    if x.holds pos then some (x.denseBit (x.indices pos), p) else none
  let (ws, reason) ← elemWrites x v now
  return { writes := (if k < m.per then [.seenScr w (m.at c) 16] else []) ++ ws
           reason := firstReason reason (reasonOfElems (now.map (·.2)))
           keep := fun _ => held.filter fun p => k < (sh + p.at_) / n }
/-- Step c of a `cpyt`. -/
def evalCpyt (o : Op) (v : View) (desc : BitVec 512) (starts : List Word) (ext : List Nat) (scr : Word) (out : Bool) (c : Nat) :
    OpM ChunkRes :=
  let x := handleOf desc
  match v.st.opWin o x.swz scr with
  | none => return { reason := 3 }
  | some w =>
    let m := cpytImage x ext scr
    let k := cpytSteps x m starts
    if out then cpytOut o v x w m starts ext (c / k) (c % k) else cpytIn o v x w m starts ext (c / k) (c % k)

/-- CPYT (R151). -/
def execCpyt (m : Bool) (d : HReg) (a b : VReg) : State → Out :=
  runWord (.cpyt m d a b) { s := m, roles := (· == .copy), collective := true } fun s r g => do
    check (a.val % 8 == 0) (illegal 12)
    let starts ← (List.range 5).mapM fun k => g.uniform (regAt a k)
    let w0 ← g.uniform (regAt a 5)
    let w1 ← g.uniform (regAt a 6)
    let w2 ← g.uniform (regAt a 7)
    let scr ← g.uniform b
    let w ← g.uniform (nextReg b)
    let t := s.teamOf r
    let x ← g.handle d
    check (!x.scr && x.type != 4 && (x.type == 1 || !w.getLsbD 21)) (protect 16)
    let ext : List Nat := [w0, w1, w2].flatMap fun w => [(w.extractLsb' 0 16).toNat, (w.extractLsb' 16 16).toNat]
    check ((List.range 5).all fun k => k < x.rank || starts.getD k 0 == 0) (protect 14)
    check ((List.range 5).all fun k => 1 ≤ ext.getD k 0 && (k < x.rank || ext.getD k 0 == 1)) (protect 14)
    check (ext.getD 5 0 == 0 && boxBytes x.bits (ext.take 5) ≤ 524288) (protect 14)
    s.scrChecks t 16 [(scr, boxBytes x.bits (ext.take 5))]
    let c ← t.completion w true true
    let _ ← s.scrTids t [scr]
    return (← s.startOp r c (.cpyt x.raw starts (ext.take 5) scr c.out), g)

/-! ## cpyg and cpys (R152) -/

/-- Bytes of a row of a dense rank-2 handle. -/
def Handle.rowBytes (x : Handle) : Nat := (x.bound 0 * x.bits + 7) / 8
/-- The row's last byte holds one nibble only. -/
def Handle.oddRow (x : Handle) : Bool := x.bits == 4 && x.bound 0 % 2 == 1
/-- The address of a row. -/
def Handle.rowAddr (x : Handle) (r : Nat) : DWord := x.base + .ofNat 64 (r * x.stride 1 * 16)
/-- Its bytes padded to a multiple of 16. -/
def Handle.paddedRow (x : Handle) : Nat := (x.rowBytes + 15) / 16 * 16

/-- The order in which the entries of a scatter are written: theirs, or a free one when rows repeat (log entry 4). -/
def scatterOrder (id : Nat) (list : List Word) : List Nat :=
  let is := List.range list.length
  if list.eraseDups.length = list.length then is
  else sortBy (fun i j => Config.freeOrder id i ≤ Config.freeOrder id j) is

/-- The image of a `cpyg` or `cpys`: the padded rows of its entries (R152). -/
def rowsImage (x : Handle) (n : Nat) (scr : Word) (stride : Nat) : Image := ⟨fun i => scrOff scr + i * stride, x.paddedRow / 16, n⟩
/-- The elements of bytes a to a + 15 of row r: each one's index among them with the bit of its place. -/
def Handle.rowElems (x : Handle) (r a : Nat) : List (Nat × Nat) :=
  let n := 128 / x.bits
  ((List.range n).filter fun j => a * 8 / x.bits + j < x.bound 0).map fun j => (j, r * x.stride 1 * 128 + a * 8 + j * x.bits)

/-- Chunk c of a `cpyg` or `cpys`; entries in poisoned granules of the list are `bad` (R152). The bytes of a gathered row past its
last element are zero (log entry 40). -/
def evalRows (o : Op) (v : View) (desc : BitVec 512) (list : List Word) (bad : List Nat) (scr : Word) (stride swz : Nat)
    (scatter : Bool) (c : Nat) : OpM ChunkRes := do
  let x := handleOf desc
  match v.st.opWin o swz scr with
  | none => return { reason := 3 }
  | some w =>
    let m := rowsImage x list.length scr stride
    let i := if scatter then (scatterOrder o.id list).getD (c / m.per) 0 else c / m.per
    let a := 16 * (c % m.per)
    let off := m.off i + a
    let r := (list.getD i 0).toNat
    let zeros := plainBytes (List.replicate 16 0)
    let put (bs : List ByteRes) (reason : Nat) : OpM ChunkRes :=
      return { writes := scrPutRes w off bs ++ [m.mark w (some (x.elem, x.fmt)) c], reason := reason }
    if bad.contains i then
      if scatter then return { reason := 4 } else put (zeros.map fun b => { b with reason := 4 }) 4
    else if r = 0xFFFFFFFF || x.bound 1 ≤ r then
      let reason := if r = 0xFFFFFFFF then 0 else 1
      if scatter then return { reason := reason } else put zeros reason
    else
      let elems := x.rowElems r a
      if scatter then
        let ps := x.unpack 0 elems.length (v.st.scrRes w off 16)
        let (ws, reason) ← elemWrites x v ((elems.map (·.2)).zip ps)
        return { writes := .seenScr w off 16 :: ws, reason := firstReason reason (reasonOfElems ps) }
      else
        let ps ← readDense x v elems
        let bs := packElems x.bits ps
        put (bs ++ zeros.drop bs.length) (reasonOfElems ps)

/-- Issuing a `cpyg` or `cpys`: the index list is read once, now, at its place; entries in poisoned granules are noted (R152, R242,
R393). -/
def rowsOp (scatter : Bool) (d : HReg) (a b : VReg) : Effect := fun s r g => do
  g.needSwz
  quadCheck a
  let idx ← g.uniform a
  let n ← g.uniform (regAt a 1)
  let scr ← g.uniform (regAt a 2)
  let stride ← g.uniform (regAt a 3)
  let w ← g.uniform b
  let t := s.teamOf r
  let x ← g.handle d
  check (x.type == 1 && x.rank == 2 && !x.scr) (protect 16)
  s.scrChecks t 4 [(idx, 4 * n.toNat)]
  check (n.toNat ≤ 65536) (protect 14)
  s.scrChecks t 16 [(scr, if n = 0 then 0 else (n.toNat - 1) * stride.toNat + x.paddedRow)]
  check (stride.toNat % 16 == 0 && x.paddedRow ≤ stride.toNat) (protect 14)
  let c ← t.completion w false true
  let tids ← s.scrTids t [idx, scr]
  let win : ScrWin := ⟨tids.headD 0, g.swz, scrVal (idx &&& 0xF0000000)⟩
  let bs := s.scrRes win (scrOff idx) (4 * n.toNat)
  let list := bytesWords (bs.map (·.val)) n.toNat
  let bad := (List.range n.toNat).filter fun i => ((bs.drop (4 * i)).take 4).any (·.reason != 0)
  let seen ← s.issueReads r g win (scrOff idx) (4 * n.toNat)
  return (← stopAt s (seen.startOp r c (.rows x.raw list bad scr stride.toNat g.swz scatter)), g)

/-- CPYG (R152). -/
def execCpyg (m : Bool) (d : HReg) (a b : VReg) : State → Out :=
  runWord (.cpyg m d a b) { s := m, roles := (· == .copy), collective := true } (rowsOp false d a b)
/-- CPYS (R152). -/
def execCpys (m : Bool) (d : HReg) (a b : VReg) : State → Out :=
  runWord (.cpys m d a b) { s := m, roles := (· == .copy), collective := true } (rowsOp true d a b)

/-- What a copy operation does; other operations are no copies. -/
def evalCopy (o : Op) (v : View) (c : Nat) : OpM ChunkRes :=
  match o.kind with
  | .cpy glob scr len rows stride swz out => evalCpy o v glob scr len rows stride swz out c
  | .cpyt desc starts ext scr out => evalCpyt o v desc starts ext scr out c
  | .rows desc list bad scr stride swz scatter => evalRows o v desc list bad scr stride swz scatter c
  | _ => return {}
/-- The number of a copy's chunks. -/
def Op.chunks (o : Op) : Nat :=
  match o.kind with
  | .cpy _ scr len rows _ _ _ => (cpyImage scr len rows).total
  | .cpyt desc starts ext scr _ =>
    let m := cpytImage (handleOf desc) ext scr
    m.rows * cpytSteps (handleOf desc) m starts
  | .rows desc list _ scr stride _ _ => (rowsImage (handleOf desc) list.length scr stride).total
  | _ => 0
/-- A completion that acts on its ring as an outward copy (R155). -/
def Op.outward (o : Op) : Bool :=
  match o.kind with
  | .cpy _ _ _ _ _ _ out => out
  | .cpyt _ _ _ _ out => out
  | _ => false
/-- A copy operation. -/
def OpKind.isCopy : OpKind → Bool
  | .cpy .. => true
  | .cpyt .. => true
  | .rows .. => true
  | _ => false
/-- COPY_COMPLETION (R145, R147, R155): the copy's next chunk, and with the last its completion. -/
def execCopyCompletion (id : Nat) (s : State) : Out :=
  if ((s.op? id).map (·.kind.isCopy)).getD false then .next (s.runOp id Op.outward Op.chunks evalCopy) else .next s

end Sys2Proof.Machine
end

