-- ==== Sys2Proof/Machine/CrossDevice.lean ====
section
/-! DEFINITION. Cross-device transfers and reductions: `nput`, `nget`, `nred` and their completions (R169 to R171, R378). -/
namespace Sys2Proof.Machine

/-- The target of a transfer: host-domain scope, and the device index (R169). -/
def transferTarget (w : Word) : Option (Bool × Nat) :=
  let scope := (w.extractLsb' 24 2).toNat
  let dev := (w.extractLsb' 0 20).toNat
  if w.extractLsb' 26 6 != 0 || w.extractLsb' 20 4 != 0 || scope = 0 || scope = 3 || (scope = 1 && dev != 0) then none
  else some (scope == 1, dev)

/-- Issuing a transfer: the checks of R169, then the operation. -/
def transfer (red : Bool) (kind : Group → DWord → DWord → Nat → Bool → Nat → OpKind) (d : BReg) (a b : VReg) : Effect :=
    fun s r g => do
  mdChecks (red && isReservedType g.type) false (red && !(g.type == 8 || g.type == 2 || g.type == 5))
  quadCheck a
  let off ← g.uniform a
  let lo ← g.uniform (regAt a 1)
  let hi ← g.uniform (regAt a 2)
  let n ← g.uniform (regAt a 3)
  let w ← g.uniform b
  let z ← g.uniform (nextReg b)
  let loc := g.breg d + off.signExtend 64
  let rem := hi ++ lo
  checkEach id [loc] [(23, fun x => !canonical x), (11, fun x => x.toNat % 16 != 0)]
  checkEach id [rem] [(23, fun x => ((transferTarget z).map (!·.1)).getD false && !canonical x),
    (11, fun x => x.toNat % 16 != 0)]
  check (if red then 1 ≤ n.toNat && n.toNat ≤ 1048576 else n.toNat % 16 == 0 && 16 ≤ n.toNat && n.toNat ≤ 16777216) (protect 14)
  let c ← (s.teamOf r).completion w false false
  match transferTarget z with
  | none => protect 14
  | some (host, dev) => return (← s.startOp r c (kind g loc rem n.toNat host dev), g)

/-- NPUT (R170). -/
def execNput (m : Bool) (d : BReg) (a b : VReg) : State → Out :=
  runWord (.nput m d a b) { s := m, roles := vectorOnly, once := Group.someActs }
    (transfer false (fun _ loc rem n host dev => .xfer true loc rem n host dev) d a b)
/-- NGET (R170). -/
def execNget (m : Bool) (d : BReg) (a b : VReg) : State → Out :=
  runWord (.nget m d a b) { s := m, roles := vectorOnly, once := Group.someActs }
    (transfer false (fun _ loc rem n host dev => .xfer false loc rem n host dev) d a b)
/-- NRED_ADD (R171). -/
def execNredAdd (m : Bool) (d : BReg) (a b : VReg) : State → Out :=
  runWord (.nredAdd m d a b) { s := m, roles := vectorOnly, once := Group.someActs }
    (transfer true (fun g loc rem n host dev => .nred 0 g.type loc rem n host dev []) d a b)
/-- NRED_MIN (R171). -/
def execNredMin (m : Bool) (d : BReg) (a b : VReg) : State → Out :=
  runWord (.nredMin m d a b) { s := m, roles := vectorOnly, once := Group.someActs }
    (transfer true (fun g loc rem n host dev => .nred 1 g.type loc rem n host dev []) d a b)
/-- NRED_MAX (R171). -/
def execNredMax (m : Bool) (d : BReg) (a b : VReg) : State → Out :=
  runWord (.nredMax m d a b) { s := m, roles := vectorOnly, once := Group.someActs }
    (transfer true (fun g loc rem n host dev => .nred 2 g.type loc rem n host dev []) d a b)

/-! ## Transfers (R170)

A transfer takes one 128-byte line of the remote side at a time, in an order that the manual leaves open: a line is sent or asked
for when the line before it has been acknowledged or written (log entry 13). -/

/-- Bytes of the first line of a transfer. -/
def firstPart (rem : DWord) (n : Nat) : Nat := Nat.min n (128 - rem.toNat % 128)
/-- The lines of a transfer. -/
def transferTotal (rem : DWord) (n : Nat) : Nat := 1 + (n - firstPart rem n + 127) / 128
/-- Line i of a transfer: where it begins among its bytes, and its bytes. -/
def transferLine (rem : DWord) (n i : Nat) : Nat × Nat :=
  if i = 0 then (0, firstPart rem n)
  else
    let at_ := firstPart rem n + 128 * (i - 1)
    (at_, Nat.min 128 (n - at_))
/-- The device a transfer reaches is this package. -/
def State.ownDevice (s : State) (host : Bool) (dev : Nat) : Bool := !host && dev == s.job.index && dev < s.job.ndev
/-- The device can be sent to: the host's connection is up, or the package can be reached. -/
def State.canSend (s : State) (c : Context) (host : Bool) (dev : Nat) : Bool :=
  if host then !(s.conn .host).down else s.reachable c dev

/-- The line of an address of the remote side (R242). -/
def farKey (host : Bool) (dev : Nat) (va : DWord) : Nat :=
  if host then Loc.line (.host va.toNat) else (dev + 1) * 2 ^ 51 + vaNat va / 128
/-- Sending a message of an operation, which writes there or not: its reply is remembered by a key, and waited for; its line is in
its hands until then (R138, R237). -/
def State.askOp (s : State) (o : Op) (key : Nat) (host : Bool) (dev : Nat) (wr : Bool) (kind : Nat) (va : DWord) (data : List Byte)
    (spoiled : List Nat := []) : State :=
  let c := (s.context? o.ctx).getD default
  let s := s.grasp ⟨.op o.id key, o.ctx, va, farKey host dev va, wr⟩
  let (s, id) := s.request c (if host then .host else .peer dev) (.op o.id key) va none kind (if host then 0xFF else o.ctx) data spoiled
  s.modOp o.id fun o => { o with waits := o.waits ++ [id] }

/-- A message of a transfer: its kind, its payload and the granules it carries poisoned. -/
abbrev XferMsg := Nat × DWord × List Byte × List Nat
/-- The write of bytes inside one line of the remote side: LWRITE to the host, PPUT to a package (R374, R378). -/
def putMessage (host : Bool) (rem : DWord) (bs : List Byte) : XferMsg :=
  if host then (4, rem, natLe 8 (rem.toNat / 128 * 128) ++ lineMaskBytes (rem.toNat % 128) bs.length
    ++ lineDataBytes (rem.toNat % 128) bs, [])
  else (32, rem, natLe 8 rem.toNat ++ natLe 4 bs.length ++ natLe 4 0 ++ bs, [])
/-- A granule of the remote side written poisoned (R147; log entries 12 and 44). -/
def spoilMessage (host : Bool) (g : Nat) : XferMsg :=
  let va : DWord := .ofNat 64 (64 * g)
  if host then
    let (kind, data) := Ask.spoil.hostMsg va.toNat
    (kind, va, data, [g % 2])
  else (35, va, natLe 8 va.toNat ++ [.ofNat 8 Ask.spoil.kindByte, 64] ++ List.replicate 6 0, [])
/-- The reads that ask for bytes inside one line of the remote side: LREAD, or a PGET for each granule, so that a poisoned one
takes no other with it (R147). -/
def getMessages (host : Bool) (rem : DWord) (n : Nat) : List (Nat × Nat × XferMsg) :=
  if host then [(0, n, (3, rem, natLe 8 (rem.toNat / 128 * 128), []))]
  else (pieces 64 3 rem.toNat n).map fun (a, k) => (a - rem.toNat, k, (33, .ofNat 64 a, natLe 8 a ++ natLe 4 k ++ natLe 4 0, []))
/-- The key of a spoiling message among a line's: PFWD's STATs are not those of the others (R378). -/
def spoilKey (i : Nat) : Nat := pieceKey (32 + i)
/-- Sending the messages of a line, their replies known by their place among them. -/
def State.askLines (s : State) (o : Op) (host : Bool) (dev : Nat) (wr : Bool) (ms : List XferMsg) (key : Nat → Nat := pieceKey) : State :=
  ms.zipIdx.foldl (fun (s : State) (m, i) => s.askOp o (key i) host dev wr m.1 m.2.1 m.2.2.1 m.2.2.2) s

/-- The messages that write a line's bytes: those that were read, and its poisoned granules (R147). -/
def putMessages (host : Bool) (rem : DWord) (bs : List ByteRes) : List XferMsg :=
  (goodRuns 0 bs).map fun x => putMessage host (rem + .ofNat 64 x.1) x.2
/-- The granules of a line that are written poisoned. -/
def spoilMessages (host : Bool) (rem : DWord) (bs : List ByteRes) : List XferMsg :=
  ((bs.zipIdx.filterMap fun (b, i) => if b.reason = 4 then some ((rem.toNat + i) / 64) else none).eraseDups).map (spoilMessage host)

/-- The reason of a reply: a package answers PPUT and PGET with the reason itself and PFWD with 2 for `protection`; the host refuses
(R349, R378). -/
def replyReason (host : Bool) (y : FwdReply) : Nat :=
  if y.stat = 0 then 0
  else if y.stat = 4 then 4
  else if host || 5 < y.stat then 5
  else if spoilKey 0 ≤ y.idx && y.stat == 2 then 3
  else y.stat
/-- The first reason among the replies an operation has. -/
def Op.replies (o : Op) (host : Bool) : Nat := o.got.foldl (fun a y => firstReason a (replyReason host y)) 0
/-- A remote failure among them: nothing further is sent (R147). -/
def Op.failed (o : Op) (host : Bool) : Bool := o.got.any fun y => replyReason host y == 5

/-- The chunks of a transfer that acts on this package. -/
def ownTotal (o : Op) : Nat := match o.kind with
  | .xfer _ _ _ n _ _ => n / 16
  | _ => 0
/-- A chunk of a transfer that acts on this package moves between its two addresses. -/
def evalOwn (o : Op) (put : Bool) (loc rem : DWord) (v : View) (c : Nat) : OpM ChunkRes := do
  let (src, dst) := if put then (loc, rem) else (rem, loc)
  let at_ : DWord := .ofNat 64 (16 * nthChunk o.id (ownTotal o) c)
  let bs ← v.bytesRes (src + at_) 16
  return { writes := globPutRes (dst + at_) bs, reason := reasonOf bs }

/-- The next line of an outward transfer: its bytes are read, at their places, and what was read is sent, unless a read has failed
at an owner (R147). -/
def State.putLine (s : State) (o : Op) (loc rem : DWord) (n : Nat) (host : Bool) (dev : Nat) : State :=
  let c := (s.context? o.ctx).getD default
  let (at_, k) := transferLine rem n (nthChunk o.id (transferTotal rem n) o.done)
  let far : DWord := rem + .ofNat 64 at_
  if s.taken (.op o.id 0) (farKey host dev far) true then s.modOp o.id fun o => { o with got := [] } else
  match ((s.opView o).bytesRes (loc + .ofNat 64 at_) k).run with
  | .error (.need key va n) => s.needFor o key va n
  | .error _ => s.modOp o.id fun o => { o with got := [] }
  | .ok (bs, log) =>
    let o' : Op := { o.chunkDone (reasonOf bs) log.cut with bad := o.bad <|> s.badAt c log [] }
    let (s', e1) := s.visitReads (s.opVisitor o 0) log.reads
    let sent := if o'.cut then [] else bs.zipIdx.filterMap fun (b, i) =>
      if b.reason = 0 ∨ b.reason = 4 then some (⟨far.toNat % 128 + i + 128 * farKey host dev far, 1, far + .ofNat 64 i⟩ : Run) else none
    let (s', e2) := s'.visitAll (s.opVisitor o e1.length) none sent true
    match s'.gate c (e1 ++ e2) with
    | .go s' =>
      let s' := s'.modOp o.id fun _ => o'
      if o'.cut then s'
      else (s'.askLines o' host dev true (putMessages host far bs)).askLines o' host dev true (spoilMessages host far bs) spoilKey
    | _ => s

/-- NPUT_COMPLETION (R170): its lines are read and sent; it completes when the last is acknowledged. -/
def execNputCompletion (id : Nat) (s : State) : Out :=
  match s.op? id with
  | some o =>
    match o.kind with
    | .xfer true loc rem n host dev =>
      if s.ownDevice host dev then .next (s.runOp id (fun _ => false) ownTotal fun o v c => evalOwn o true loc rem v c)
      else if o.captured || !o.waits.isEmpty then .next s
      else
        -- the replies to the line before; copies of local lines answer by other keys
        let o' : Op := { o with got := o.got.filter fun y => pieceKey 0 ≤ y.idx }
        let reason := firstReason o.reason (o'.replies host)
        let o := { o with reason := reason, got := o.got.filter fun y => y.idx < pieceKey 0 }
        if o.cut || o'.failed host || transferTotal rem n ≤ o.done then .next (s.endOp o reason)
        else if !s.canSend ((s.context? o.ctx).getD default) host dev then .next (s.endOp o (firstReason reason 5))
        else .next ((s.modOp id fun _ => o).putLine o loc rem n host dev)
    | _ => .next s
  | none => .next s

/-- A line of an inward transfer that has been answered, written at its local address; a poisoned piece poisons each granule that its
bytes would have gone to (R147). -/
def evalGet (o : Op) (loc rem : DWord) (n : Nat) (host : Bool) (dev c : Nat) : OpM ChunkRes := do
  let (at_, k) := transferLine rem n (nthChunk o.id (transferTotal rem n) c)
  let m := rem + .ofNat 64 at_
  let parts : List (List OpWrite × Nat) := (getMessages host m k).zipIdx.map fun ((off, k, _), i) =>
    match o.got.find? fun (y : FwdReply) => y.idx == pieceKey i with
    | some y =>
      let bs := if host then (y.bytes.drop (m.toNat % 128)).take k else y.bytes.take k
      let reason := replyReason host y
      let l : DWord := loc + .ofNat 64 (at_ + off)
      ((if reason = 0 then .seenFar (farKey host dev m) (m + .ofNat 64 off) k :: globPutRes l (plainBytes bs)
        else if reason = 4 then (pieces 64 3 l.toNat k).map fun (a, k) => OpWrite.globPoison (.ofNat 64 a) k else []), reason)
    | none => ([], 5)
  return { writes := parts.flatMap (·.1), reason := parts.foldl (fun a p => firstReason a p.2) 0 }
/-- The lines of an inward transfer. -/
def getTotal (o : Op) : Nat := match o.kind with
  | .xfer _ _ rem n _ _ => transferTotal rem n
  | _ => 0

/-- NGET_COMPLETION (R170): its lines are asked for and written; it completes when the last has been. -/
def execNgetCompletion (id : Nat) (s : State) : Out :=
  match s.op? id with
  | some o =>
    match o.kind with
    | .xfer false loc rem n host dev =>
      if s.ownDevice host dev then .next (s.runOp id (fun _ => false) ownTotal fun o v c => evalOwn o false loc rem v c)
      else if o.captured || !o.waits.isEmpty then .next s
      else
        let answered := o.got.any fun y => pieceKey 0 ≤ y.idx
        let failed := ({ o with got := o.got.filter fun y => pieceKey 0 ≤ y.idx } : Op).failed host
        if answered || transferTotal rem n ≤ o.done then
          .next ((s.modOp id fun o => { o with cut := o.cut || failed }).runOp id (fun _ => false) getTotal
            fun o _ c => evalGet o loc rem n host dev c)
        else if o.cut then .next (s.endOp o (firstReason o.reason 5))
        else if !s.canSend ((s.context? o.ctx).getD default) host dev then .next (s.endOp o (firstReason o.reason 5))
        else
          let (at_, k) := transferLine rem n (nthChunk id (transferTotal rem n) o.done)
          let m : DWord := rem + .ofNat 64 at_
          .next (if s.taken (.op id 0) (farKey host dev m) false then s
            else s.askLines o host dev false ((getMessages host m k).map (·.2.2)))
    | _ => .next s
  | none => .next s

/-! ## Reductions (R171, R378, R379)

A contribution is read a chunk at a time, in an order that the manual leaves open; then it is offered to the target, in messages of
at most 256 elements that the target takes one after the other, the last one marked (log entry 16). One to this package's own
staging is held at the landing die like a peer's, until its arrival has its place (R169, R364, R366). -/

/-- The chunks in which a contribution is read. -/
def nredChunks (n : Nat) : Nat := (n + 3) / 4
/-- Part i of a contribution. -/
def Op.part (rem : DWord) (op type n : Nat) (ws : List Word) (i : Nat) : Contribution :=
  ⟨rem, 256 * i, op, type, n ≤ 256 * (i + 1), (ws.drop (256 * i)).take 256⟩
/-- A PRED message (R378; log entry 16). -/
def predBytes (x : Contribution) : List Byte :=
  natLe 8 x.buf.toNat ++ natLe 4 x.off ++ natLe 2 x.elems.length ++ [.ofNat 8 (x.op + 128 * x.last.toNat), .ofNat 8 x.type]
    ++ wordBytes x.elems
/-- The reason of an answer that refuses a contribution. -/
def refusalReason (stat : Nat) : Nat := if stat = 3 then 3 else 5
/-- Elements put at their place among n. -/
def putElems (ws : List Word) (n at_ : Nat) (more : List Word) : List Word :=
  let ws := ws ++ List.replicate (n - ws.length) 0
  ws.take at_ ++ more ++ ws.drop (at_ + more.length)

/-- Reading the next chunk of a contribution, at its place. -/
def State.nredRead (s : State) (o : Op) (loc : DWord) (n : Nat) (keep : Nat → List Word → OpKind) : State :=
  let c := (s.context? o.ctx).getD default
  let i := nthChunk o.id (nredChunks n) o.done
  let k := Nat.min 4 (n - 4 * i)
  match ((s.opView o).bytesRes (loc + .ofNat 64 (16 * i)) (4 * k)).run with
  | .error (.need key va n) => s.needFor o key va n
  | .error _ => s.modOp o.id fun o => { o with got := [] }
  | .ok (bs, log) =>
    let (s', evs) := s.visitReads (s.opVisitor o 0) log.reads
    match s'.gate c evs with
    | .go s' =>
      let o' : Op := { o.chunkDone (reasonOf bs) log.cut with
        bad := o.bad <|> s.badAt c log [], kind := keep i (bytesWords (bs.map (·.val)) k) }
      (s'.modOp o.id fun _ => o')
    | _ => s
/-- A contribution handed to this package's own landing die. -/
def State.nredOwn (s : State) (o : Op) (x : Contribution) : State :=
  let (id, s) := s.fresh
  let h : Held := ⟨id, .peer s.job.index, o.ctx, .contribute s.job.index x (some o.id), [], [], none, false⟩
  ({ s with held := s.held ++ [h] } : State).modOp o.id fun o => { o with waits := o.waits ++ [id] }
/-- Offering a contribution that has been read: its next part is sent, or the answer to its last one acted on. A part that is
not accepted waits for its retry (R379); a replay that diverges at the target is the issuing group's trap (R367; log entry 96). -/
def State.nredOffer (s : State) (o : Op) (op type : Nat) (rem : DWord) (n : Nat) (host : Bool) (dev : Nat) (ws : List Word) : State :=
  let part := o.done - nredChunks n
  match o.got.find? (·.idx == pieceKey 0) with
  | some y =>
    if y.stat = 0 then
      if s.ownDevice host dev || n ≤ 256 * (part + 1) then s.endOp o o.reason
      else s.modOp o.id fun o => { o with done := o.done + 1, got := [] }
    else if y.stat = 1 then s
    else if y.stat = 5 ∧ y.bytes.length = 8 then
      (s.dueTrap ⟨o.tid, o.slot⟩ ⟨.replayDivergence, 0, .ofNat 64 (leNat y.bytes)⟩).endOp o 5
    else s.endOp o (refusalReason y.stat)
  | none =>
    if s.ownDevice host dev then s.nredOwn o ⟨rem, 0, op, type, true, ws⟩
    else if host || !s.canSend ((s.context? o.ctx).getD default) false dev then s.endOp o 5
    else s.askOp o (pieceKey 0) false dev true 34 rem (predBytes (Op.part rem op type n ws part))
/-- NRED_COMPLETION (R171): the contribution is read and sent, and the operation completes when the target has accepted it, or
has refused it. DESIGN CHOICE (log entry 97): a contribution of which a chunk is poisoned or cannot be read is not sent, and the
operation ends with that reason; R147 gives poison the effect of a poisoned destination, which a contribution has none of. -/
def execNredCompletion (id : Nat) (s : State) : Out :=
  match s.op? id with
  | some o =>
    match o.kind with
    | .nred op type loc rem n host dev ws =>
      if o.captured || !o.waits.isEmpty then .next s
      else if o.reason != 0 then .next (s.endOp o o.reason)
      else if o.done < nredChunks n then
        .next (s.nredRead o loc n fun i more => .nred op type loc rem n host dev (putElems ws n (4 * i) more))
      else .next (s.nredOffer o op type rem n host dev ws)
    | _ => .next s
  | none => .next s
/-- NRED_RETRY (R379): a contribution that was not accepted is offered again, from its first element. -/
def execNredRetry (id : Nat) (s : State) : Out :=
  match s.op? id with
  | some o =>
    match o.kind with
    | .nred _ _ _ _ n _ _ _ =>
      if !o.captured && o.waits.isEmpty && o.got.any (fun y => y.idx == pieceKey 0 && y.stat == 1) then
        .next (s.modOp id fun o => { o with done := nredChunks n, got := [] })
      else .next s
    | _ => .next s
  | none => .next s

end Sys2Proof.Machine
end

