-- ==== Sys2Proof/Machine/Messages.lean ====
section
/-! DEFINITION. Messages at the landing die: taking one in its order, answering who waits for a reply, and the reads, writes,
launches, drains and forwarded accesses that messages ask for, each performed in its turn and held while it must wait (R309,
R313, R348, R349, R370, R372 to R375, R378). -/
namespace Sys2Proof.Machine

/-! ## Connections (R372, R373) -/

/-- What a message's ACK acknowledges is kept no longer; that is progress (R373). -/
def Conn.acked (c : Conn) (ack : Nat) : Conn :=
  match c.queue with
  | [] => c
  | f :: _ =>
    let n := (ack + 2 ^ 32 - f.seq) % 2 ^ 32
    if 0 < n && n ≤ c.queue.length then { c with queue := c.queue.drop n, retries := 0 } else c
/-- A message arrives on a connection: it is taken when its number is the one expected, else discarded (a duplicate, or ahead of a
gap); on a connection that is down nothing is taken (R373). -/
def State.take (s : State) (id : ConnId) (seq ack : Nat) : State × Bool :=
  let c := s.conn id
  if c.down then (s, false) else
  let c := c.acked ack
  if seq = c.expect then (s.setConn { c with expect := (c.expect + 1) % 2 ^ 32 }, true) else (s.setConn c, false)
/-- A header that breaks the layout of R372. -/
def headerBad (ver len : Nat) : Bool := ver != 1 || 1152 < len
/-- A host message's answer, in its own world (R372). -/
def State.answerHost (s : State) (h : MsgHdr) (kind stat : Nat) (data : List Byte) : State :=
  s.reply .host kind h.ctx stat data h.secure
/-- A host message of a kind arrives: the port takes messages once bring-up has set READY (R409); one that breaks its layout is
answered so (R374). -/
def State.takeHost (s : State) (h : MsgHdr) (kind : Nat) : State × Bool :=
  if !s.boot.ready then (s, false) else
  match s.take .host h.seq h.ack with
  | (s, false) => (s, false)
  | (s, true) => if headerBad h.ver h.len then (s.answerHost h kind 0xFFFF [], false) else (s, true)
/-- A reply of the host arrives. -/
def State.takeReply (s : State) (h : MsgHdr) : State × Bool :=
  match s.take .host h.seq h.ack with
  | (s, ok) => (s, ok && !headerBad h.ver h.len)
/-- A peer's message arrives: it comes from another package of the job, once the package is up (R377, R409). -/
def State.takePeer (s : State) (h : PeerHdr) : State × Bool :=
  if s.boot.ready && !s.boot.recov && h.dev < s.job.ndev && h.dev != s.job.index && (s.portOf h.dev).isSome then
    s.take (.peer h.dev) h.seq h.ack
  else (s, false)
/-- A host message about a context: one that names no resident context is answered STAT 5, one of the other world STAT 2
(R374, R400). -/
def State.withContext (s : State) (h : MsgHdr) (kind : Nat) (f : State → Context → State) : State :=
  match s.context? h.ctx with
  | none => s.answerHost h kind 5 []
  | some c => if c.secure != h.secure then s.answerHost h kind 2 [] else f s c

/-! ## Answers (R348, R349) -/

/-- A group's wait. -/
def State.waitOf (s : State) (r : GRef) : Wait := ((s.group? r).map (·.wait)).getD .none
/-- Changing a held message. -/
def State.modHeld (s : State) (id : Nat) (f : Held → Held) : State :=
  { s with held := s.held.map fun h => if h.id == id then f h else h }
/-- The reason that an operation's forwarded write ends with (R349). -/
def replyCode (stat : Nat) : Nat := if stat = 0 then 0 else if stat = 4 then 4 else 5
/-- A host line that has been fetched is held (R347). -/
def State.fillLine (s : State) (line : Nat) (bs : List Byte) : State :=
  if s.hostLines.contains line then s
  else { s with
    hostLines := line :: s.hostLines
    hostMem := s.hostMem.write (128 * line) ((bs ++ List.replicate 128 0).take 128)
    hostPoison := s.hostPoison.filter fun g => g / 2 != line }
/-- Giving a reply to the one who waits for it. -/
def State.deliverTo (s : State) (who : Asker) (req stat : Nat) (bs : List Byte) : State :=
  match who with
  | .group r idx => s.modGroup r fun g =>
    if g.fwdOpen.contains idx then { g with fwd := g.fwd ++ [⟨idx, stat, bs⟩], fwdOpen := g.fwdOpen.filter (· != idx) } else g
  | .op id idx => s.modOp id fun o =>
    let o := { o with waits := o.waits.filter (· != req) }
    if idx = 0 then { o with reason := firstReason o.reason (replyCode stat), cut := o.cut || replyCode stat == 5 }
    else { o with got := ⟨idx, stat, bs⟩ :: o.got }
  | .ray id idx => { s with
    rays := s.rays.map fun x =>
      if x.id == id then { x with waits := x.waits.filter (· != req), got := ⟨idx, stat, bs⟩ :: x.got } else x }
  | .held id idx => s.modHeld id fun h => { h with waits := h.waits.filter (· != req), got := ⟨idx, stat, bs⟩ :: h.got }
  | .flip _ _ => s
  | .mig c page line => if stat = 0 then s else { s with
    migs := s.migs.map fun m => if m.ctx == c && m.page == page then { m with bad := some (m.bad.getD line) } else m }
/-- Completing a request with its reply. -/
def State.answer (s : State) (conn : ConnId) (req stat : Nat) (bs : List Byte) : State :=
  match s.requests.find? fun q => q.id == req && q.conn == conn with
  | none => s
  | some q =>
    let s : State := { s with requests := s.requests.filter (·.id != req) }
    let s := match q.fetch with
      | some line => if stat = 0 then s.fillLine line bs else s
      | none => s
    s.deliverTo q.who req stat bs

/-! ## Reads and writes for messages (R347, R370, R375) -/

/-- The party of an access that the landing die accepted (R361): the host, or a peer. -/
def agentParty : ConnId → Party
  | .host => ⟨0, false, false, true, 0xFFFFFFFF, 0, 0⟩
  | .peer _ => ⟨0, false, true, false, 0xFFFFFFFF, 0, 0⟩
/-- Who makes a held message's accesses: those of a post and of a reduction's staging are the device's own, and race with nobody. -/
def Held.party (h : Held) : Option Party :=
  match h.msg with
  | .post .. => none
  | .contribute .. => none
  | .arm .. => none
  | _ => some (agentParty h.conn)
/-- Some piece lies on a leaf that a message may not reach: a peer's memory for a window or a transfer (R375), all but device
memory for a forwarded access (R349). -/
def State.ownedElsewhere (s : State) (c : Context) (kind : Nat) (va : DWord) (n : Nat) (k : AccKind) : Bool :=
  (linePieces va n).any fun (a, _) => match s.translate c a k with
    | .ok l => if kind = 35 then l.own != 0 else l.own == 2
    | .error _ => false
/-- A message answered or a post made, and held no longer. -/
def State.finishHeld (s : State) (h : Held) (kind stat : Nat) (data : List Byte) : State :=
  { s with held := s.held.filter (·.id != h.id) }.reply h.conn kind h.ctx stat data
/-- Asking the owner of a line for a held message, or failing the line; one that must wait for a line in another's hands gives up
those it has. -/
def State.askHeld (s : State) (c : Context) (h : Held) (key : Nat) (va : DWord) (n : Nat) : State :=
  if s.blocked c (.held h.id key) va then s.modHeld h.id fun h => { h with got := [] } else
  match s.askFor c (.held h.id key) va n with
  | some t => t.modHeld h.id fun h => { h with waits := h.waits ++ [t.nextId - 1] }
  | none => s.modHeld h.id fun h => { h with got := ⟨key, 1, []⟩ :: h.got }
/-- The manifest holds a message. -/
def State.gateHeld (s : State) (h : Held) : State := s.modHeld h.id fun h => { h with gated := true }

/-- The landing die performing a held message's accesses. -/
def Held.visitor (h : Held) (c : Context) (met : Nat) : Visitor := ⟨c, 0x7FF, h.party, false, met⟩
/-- What a message's writes meet: the reason of one that cannot be made; `strict`: one may not touch a poisoned granule that the
message does not cover, as a store's (R393). -/
def State.piecesReason (s : State) (strict : Bool) (ps : List HeldPiece) : Nat :=
  let reason := ps.foldl (fun r p => firstReason r (match p.2.2 with | .fail k => k | _ => 0)) 0
  if reason = 0 && strict && ps.any fun (_, b, d) => match d with
      | .here l => (badGranule (s.poisonOf l) true (l.heldSpans ps) l.addr b.length).isSome
      | _ => false then 4
  else reason
/-- The lines of a message's writes that lie elsewhere, asked of their owners; its reply is kept until they have answered. -/
def State.sendPieces (s : State) (c : Context) (h : Held) (ps : List HeldPiece) (stat : Nat) (data : List Byte) : State :=
  ps.foldl (fun s (a, b, d) => match d with
    | .far l =>
      match s.askOwner c (.held h.id 0) a b.length (.write b) l with
      | some t => t.modHeld h.id fun h => { h with waits := h.waits ++ [t.nextId - 1] }
      | none => s.modHeld h.id fun h => { h with got := ⟨0, 1, []⟩ :: h.got }
    | _ => s) (s.modHeld h.id fun h => { h with plan := some (stat, data) })
/-- Performing a held message: its reads, then its writes, each at its place; what lies elsewhere is asked of its owner, and the
message is done when every owner has answered. One that ends with a reason of R147 has made its reads (R375), and none of its
writes; `fail` gives its end, `done` that of one that was performed, and `diverge` that of a mismatch under replay. -/
def State.serveJob (s : State) (c : Context) (h : Held) (strict : Bool) (job : View → Rd MsgJob) (fail : State → Nat → State)
    (done : State → Nat → List Byte → State) (diverge : State → Nat → State := fun s _ => s.gateHeld h) : State :=
  match h.plan with
  | some (stat, data) => if h.got.any fun y => y.idx == 0 && y.stat != 0 then fail s 5 else done s stat data
  | none =>
    let v : View := ⟨s, c, h.got⟩
    match (do
      let j ← job v
      return (j, ← v.place j.writes) : Rd (MsgJob × List HeldPiece)).run with
    | .error (.need key va n) => s.askHeld c h key va n
    | .error .frozen => s
    | .error e => fail s e.reason
    | .ok ((j, ps), log) =>
      let far := ps.any fun p => match p.2.2 with | .far _ => true | _ => false
      if ps.any fun (a, _, d) => match d with | .far l => s.taken (.held h.id 0) (l.line a) true | _ => false then
        s.modHeld h.id fun h => { h with got := [] }
      else
        let reason := if j.reason = 0 then s.piecesReason strict ps else j.reason
        let (ps, evs) := if reason = 0 then (ps, j.evs) else ([], [])
        let t := if evs.isEmpty then s else s.afterHead c 0x7FF
        let (t, e1) := t.visitReads (h.visitor c 0) log.reads
        let (t, e2) := t.visitWrites (h.visitor c e1.length) ps
        match t.gate c (e1 ++ e2 ++ evs) with
        | .go t =>
          if reason != 0 then fail t reason
          else
            let t := j.after ((t.putPieces ps).armWrites c (j.writes.map fun x => (x.1, x.2.length)))
            if far then t.sendPieces c h ps j.stat j.data else done t j.stat j.data
        | .hold => s.gateHeld h
        | .diverge n => diverge s n

/-- The STAT that a reply gives for a reason of R147: a window's own codes, a forwarded access's, a drain's or supply's 2, else the
reason (R374, R378). -/
def heldStat (kind reason : Nat) : Nat :=
  if reason = 0 then 0
  else if kind = 7 ∨ kind = 8 then (match reason with | 2 => 1 | 4 => 3 | _ => 2)
  else if kind = 35 then (if reason = 4 then 4 else 2)
  else if kind = 11 ∨ kind = 12 then 2
  else reason
/-- A message's read. -/
def State.serveRead (s : State) (c : Context) (h : Held) (kind : Nat) (va : DWord) (n : Nat) : State :=
  if s.ownedElsewhere c kind va n .read then s.finishHeld h kind (heldStat kind 5) [] else
  s.serveJob c h false (fun v => do return { data := ← v.read va n }) (fun s r => s.finishHeld h kind (heldStat kind r) [])
    fun s _ bs => s.finishHeld h kind 0 bs
/-- A message's write: a window's or a forwarded write into a poisoned granule must cover it, as a store's. -/
def State.serveWrite (s : State) (c : Context) (h : Held) (kind : Nat) (va : DWord) (bs : List Byte) : State :=
  if s.ownedElsewhere c kind va bs.length .write then s.finishHeld h kind (heldStat kind 5) [] else
  s.serveJob c h (kind == 8 || kind == 35) (fun _ => return { writes := [(va, bs)] })
    (fun s r => s.finishHeld h kind (heldStat kind r) []) fun s _ _ => s.finishHeld h kind 0 []

/-! ## Forwarded accesses (R141 to R144, R348) -/

/-- The bytes of a forwarded atomic's operand; none when there is no such atomic. -/
def atomicBytes (major op type : Nat) : Option (Nat × Nat) :=
  if major = 0x37 then
    if op < 3 then (if wordIntType type then some (4, 4) else none)
    else if op < 8 then (if wordType type then some (4, if op = 7 then 8 else 4) else none)
    else none
  else if major = 0x38 then
    if op < 3 then (if type = 8 then some (4, 4) else none)
    else if op < 5 then (if pairType type then some (8, 8) else none)
    else none
  else none
/-- What a forwarded atomic makes of the old bytes, under the RND and FTZ it carries (R143; log entry 12). -/
def remoteAtomic (major op type mode : Nat) (bs old : List Byte) : List Byte :=
  let x : Word := .ofNat 32 (bytesAt old 0 4)
  let y : Word := .ofNat 32 (bytesAt bs 0 4)
  let rnd := mode % 8
  let ftz := mode / 8 % 2 == 1
  let word (w : Word) : List Byte := natLe 4 w.toNat
  let fp (f : Fp → Fp → Word × Word) : List Byte := word (f (fpOf 8 ftz x) (fpOf 8 ftz y)).1
  let pair (isMax : Bool) : List Byte :=
    let v := pairValue type y
    if pairWins type isMax (v, .ofNat 32 (bytesAt bs 4 4)) (x, .ofNat 32 (bytesAt old 4 4)) then word v ++ bs.drop 4 else old
  if major = 0x37 then
    match op with
    | 0 => word (x + y)
    | 1 => if intOf type y < intOf type x then word y else old
    | 2 => if intOf type x < intOf type y then word y else old
    | 3 => word (x &&& y)
    | 4 => word (x ||| y)
    | 5 => word (x ^^^ y)
    | 6 => word y
    | _ => if x = y then (bs.drop 4).take 4 else old
  else
    match op with
    | 0 => fp fun a b => fpAdd 8 rnd ftz a b
    | 1 => fp fun a b => fpMinMax 8 0 ftz false false a b
    | 2 => fp fun a b => fpMinMax 8 0 ftz true false a b
    | 3 => pair false
    | _ => pair true
/-- A peer's access that changes what it finds, made indivisibly where it lies: what it changes, the reply, and whether a poisoned
granule refuses it (R348, R349); it waits for the accesses that use a table entry it writes to (R356). -/
def State.serveModify (s : State) (c : Context) (h : Held) (va : DWord) (n : Nat) (k : AccKind) (half : Option Bool) (strict : Bool)
    (f : State → Loc → State) (data : List Byte → List Byte) : State :=
  match s.locOf c va k with
  | .error _ => s.finishHeld h 35 2 []
  | .ok l =>
    if strict && s.poisonedAt l n then s.finishHeld h 35 4 []
    else if s.inUse l n then s
    else
      -- an atomic is no plain access (R370)
      let v : Visitor := { h.visitor c 0 with party := if k = .rmw then none else h.party }
      let (t, evs) := s.visitAll v none (lineRuns l.line l.addr n va) true half
      match t.gate c evs with
      | .go t => ((f t l).armWrites c [(va, n)]).finishHeld h 35 0 (data (s.bytesAtLoc l n))
      | _ => s.gateHeld h
/-- The bytes at a location changed. -/
def State.changeAt (s : State) (l : Loc) (n : Nat) (f : List Byte → List Byte) : State := s.putBytes l (f (s.bytesAtLoc l n))
/-- A peer's forwarded access (R348, R349). -/
def State.serveForward (s : State) (c : Context) (h : Held) (va : DWord) (kind : FwdKind) (bs : List Byte) : State :=
  match kind with
  | .read n => s.serveRead c h 35 va n
  | .write => s.serveWrite c h 35 va bs
  | .nibble high =>
    let v := bytesAt bs 0 1 % 16
    if s.ownedElsewhere c 35 va 1 .write then s.finishHeld h 35 2 [] else
    s.serveModify c h va 1 .write (some high) true (fun s l => s.changeAt l 1 fun old =>
      [.ofNat 8 (if high then bytesAt old 0 1 % 16 + 16 * v else bytesAt old 0 1 / 16 * 16 + v)]) fun _ => []
  | .spoil =>
    if s.ownedElsewhere c 35 va 1 .write then s.finishHeld h 35 2 [] else
    s.serveModify c h va 1 .write none false (fun s l => s.spoilLoc l [l.addr / 64]) fun _ => []
  | .atomic major op type mode =>
    match atomicBytes major op type with
    | none => s.finishHeld h 35 0xFFFF []
    | some (n, k) =>
      if bs.length != k || va.toNat % n != 0 then s.finishHeld h 35 0xFFFF []
      else if s.ownedElsewhere c 35 va n .rmw then s.finishHeld h 35 2 []
      else s.serveModify c h va n .rmw none true (fun s l => s.changeAt l n (remoteAtomic major op type mode bs)) id

/-! ## Host launches (R309 to R313) -/

/-- The bytes of a launch reply: the pair (R374). -/
def pairBytes (x : DWord) : List Byte := natLe 8 x.toNat
/-- The pair of a status (R95, R311). -/
def statusPair (c : Context) (st : Nat) : List Byte := pairBytes (launchPair c st)
/-- A host launch at its acceptance point, or refused (R309, R311, R313); `t` is the state after its side block was read. -/
def State.judged (s t : State) (c : Context) (h : Held) (x : Record) (side : Option Side) (evs : List RecEvent) : State :=
  let st := s.judge c x none side
  let ev (st : Nat) : RecEvent :=
    ⟨6, ⟨if st = 0 then c.nextSerial else 0, false, true, true, 0xFFFFFFFF, 0, 0⟩, 0, pairHash (launchPair c st), 0x7FF, none⟩
  let accept (s : State) (st : Nat) : State := match side with
    | some b => if st = 0 then s.enter c x b none else s
    | none => s
  let answer (s : State) (st : Nat) : State := s.finishHeld h 1 0 (statusPair c st)
  if c.recMode != 2 then
    match t.gate c (evs ++ [ev st]) with
    | .go t => answer (accept t st) st
    | _ => s.gateHeld h
  else
    match t.headRecord c with
    | none => s.gateHeld h
    | some (i, r) =>
      if bytesAt r 1 1 / 64 % 2 = 0 then s.gateHeld h
      else
        let want := bytesAt r 0x1C 4
        let is (st : Nat) : Bool := want == (pairHash (launchPair c st)).toNat
        let refused := bytesAt r 0x0C 4 == 0
        -- a recorded `full` is returned again, and a recorded acceptance waits for a free entry
        if refused && is 4 && (st = 0 || st = 4) then answer (t.setMani c 0x10 (i + 1)) 4
        else if refused && is 3 && st = 3 then answer (t.setMani c 0x10 (i + 1)) 3
        else if !refused && st = 4 then s.gateHeld h
        else if !refused && st = 0 && is 0 && bytesAt r 0 1 == 6 && bytesAt r 0x10 8 == 0 then
          answer (accept (t.setMani c 0x10 (i + 1)) 0) 0
        else answer t 3
/-- A host launch: its side block is read first, and the constant bytes with it (R241); one that cannot be read makes it `record`
(R309). -/
def State.serveLaunch (s : State) (c : Context) (h : Held) (record : List Byte) : State :=
  let x := recordOf record
  let v : View := ⟨s, c, h.got⟩
  if c.refuses x then s.judged s c h x none []
  else match (do withConst s c x none (← readSide x v) v : Rd (Option Side)).run with
    | .ok (side, log) =>
      let (t, evs) := s.visitReads (h.visitor c 0) log.reads
      s.judged t c h x side evs
    | .error (.need key va n) => s.askHeld c h key va n
    | .error .frozen => s
    | .error _ => s.judged s c h x none []

/-! ## Drains and supplies (R283, R358, R374, R375) -/

/-- A ring's HEAD and TAIL, each by a load of its own; none when one cannot be read. -/
def drainCounts (v : View) (block : DWord) : Rd (Option (Nat × Nat)) := do
  match ← settled (v.read (block + 0x10) 8) with
  | .error _ => return none
  | .ok h =>
    match ← settled (v.read (block + 0x18) 8) with
    | .error _ => return none
    | .ok t => return some (leNat h, leNat t)
/-- Draining up to `max` entries of `size` bytes from TAIL onward. -/
def drainJob (block base : DWord) (log size max : Nat) (v : View) : Rd MsgJob := do
  match ← drainCounts v block with
  | none => return { reason := 2 }
  | some (h, t) =>
    let n := Nat.min max (h - t)
    let parts ← (List.range n).mapM fun i => settled (v.read (base + .ofNat 64 (size * ((t + i) % 2 ^ log))) size)
    let bs := parts.filterMap Except.toOption
    if bs.length < n then return { reason := 2 }
    else return { writes := [(block + 0x18, natLe 8 (t + n))], data := bs.flatten }
/-- A drain of a ring (R374). -/
def State.serveDrain (s : State) (c : Context) (h : Held) (ring max : Nat) : State :=
  let reply (s : State) (st : Nat) (bs : List Byte) : State := s.finishHeld h 11 st bs
  let job (v : View) : Rd MsgJob := if ring = 0 then drainJob c.mani c.maniBase c.maniLog 32 (Nat.min max 32) v
    else do
      match ← wantRing v with
      | some x => drainJob c.wpr x.base x.log 16 (Nat.min max 64) v
      | none => return { reason := 2 }
  if 1 < ring then reply s 0xFFFF []
  else if ring = 0 && c.recMode != 1 then reply s 3 []
  else s.serveJob c h true job (fun s _ => reply s 2 []) reply
/-- What a supply comes to: no room, or its records written from TAIL onward, then TAIL (R374). -/
def supplyJob (c : Context) (records : List (List Byte)) (v : View) : Rd MsgJob := do
  match ← drainCounts v c.mani with
  | none => return { reason := 2 }
  | some (h, t) =>
    if 2 ^ c.maniLog < t - h + records.length then return { stat := 1 }
    else return { writes := (records.zipIdx.map fun (r, i) => (c.recordAddr (t + i), r))
      ++ [(c.mani + 0x18, natLe 8 (t + records.length))] }
/-- A supply of records. -/
def State.serveSupply (s : State) (c : Context) (h : Held) (records : List (List Byte)) : State :=
  let reply (s : State) (st : Nat) : State := s.finishHeld h 12 st []
  if c.recMode != 2 then reply s 3
  else s.serveJob c h true (supplyJob c records) (fun s _ => reply s 2) fun s st _ => reply s st

/-! ## Held messages -/

/-- A message held no longer. -/
def State.dropHeld (s : State) (h : Held) : State := { s with held := s.held.filter (·.id != h.id) }
/-- Making a post that was not all in the package (R285, R347). -/
def State.servePost (s : State) (c : Context) (h : Held) (w : Want) : State :=
  s.serveJob c h false (fun v => do
    match ← postRes w v with
    | .suppress => return {}
    | .drop => return { after := fun s => s.dropPost c.num }
    | .write ws => return { writes := ws }) (fun s _ => (s.dropPost c.num).dropHeld h) fun s _ _ => s.dropHeld h
/-- The answer to a message of a contribution: a reply to its package, or what this package's own operation waits for (R169, R378). -/
def State.answerPart (s : State) (h : Held) (own : Option Nat) (stat : Nat) (data : List Byte) : State :=
  match own with
  | none => s.finishHeld h 34 stat data
  | some id => (s.dropHeld h).modOp id fun o => { o with
      waits := o.waits.filter (· != h.id), got := ⟨pieceKey 0, stat, data⟩ :: o.got }
/-- A message of a contribution at the landing die (R171, R379). One whose writes cannot be made is not accepted; an owner elsewhere
that refuses some of them comes too late for that (log entry 16). A replay that diverges is answered with STAT 5 and the index of its
record (log entry 96). -/
def State.serveContribute (s : State) (c : Context) (h : Held) (dev : Nat) (x : Contribution) (own : Option Nat) : State :=
  s.serveJob c h false (contributeJob · dev x) (fun s _ => s.answerPart h own (if h.plan.isSome then 0 else 1) [])
    (fun s st _ => s.answerPart h own st []) fun s n => s.answerPart h own 5 (natLe 8 n)
/-- Arming a descriptor whose area is not all in the package (R347, R379): what cannot be written is left. -/
def State.serveArm (s : State) (c : Context) (h : Held) (serial i : Nat) : State :=
  match (s.stagingGrids c).find? (·.serial == serial) with
  | none => s.dropHeld h
  | some x => s.serveJob c h false (fun v => do
      let ps ← v.place (← armWritesOf v x i)
      return { writes := ps.filterMap fun (a, b, d) => match d with | .fail _ => none | _ => some (a, b) })
      (fun s _ => s.dropHeld h) fun s _ _ => s.dropHeld h

/-- How a host message stands among the others: a launch of a context, or another. -/
inductive HostShape where
  | launch (ctx : Nat)
  | other
  deriving DecidableEq, Repr
/-- The shape of a held message. -/
def Held.shape (h : Held) : HostShape :=
  match h.msg with
  | .launch _ => .launch h.ctx
  | _ => .other
/-- Whether a message that the manifest holds lets a later one pass: under replay a launch lets all pass but the launches of its
context (R309). -/
def State.lets (s : State) (x y : HostShape) : Bool :=
  match x with
  | .launch c => y != .launch c && ((s.context? c).map (·.recMode)).getD 0 == 2
  | .other => false
/-- A held message stands before another: those of a connection are performed in the order of their arrival (R309), and so are
the posts of a context; a descriptor is armed before contributions to its context come to it; and a contribution that waits for its
record keeps nothing waiting (R366). -/
def State.stands (s : State) (x h : Held) : Bool :=
  match x.msg, h.msg with
  | .post .., .post .. => x.ctx == h.ctx
  | .post .., _ => false
  | _, .post .. => false
  | .arm .., .arm .. => x.ctx == h.ctx
  | .arm .., .contribute .. => x.ctx == h.ctx
  | .arm .., _ => false
  | _, .arm .. => false
  | .contribute .., _ => x.conn == h.conn && !x.gated
  | _, _ => x.conn == h.conn && !(x.gated && s.lets x.shape h.shape)
/-- Performing a held message if it can be: one whose context is gone is answered so (R374). -/
def State.serve (s : State) (h : Held) : State :=
  match s.context? h.ctx, h.msg with
  | none, .launch _ => s.finishHeld h 1 5 (statusPair { (default : Context) with num := h.ctx } 5)
  | none, .read kind _ _ => s.finishHeld h kind (if kind = 7 then 5 else 2) []
  | none, .write kind _ _ => s.finishHeld h kind (if kind = 8 then 5 else 2) []
  | none, .forward _ _ _ => s.finishHeld h 35 2 []
  | none, .drain _ _ => s.finishHeld h 11 5 []
  | none, .supply _ => s.finishHeld h 12 5 []
  | none, .post _ _ _ _ => s.dropHeld h
  | none, .contribute _ _ own => s.answerPart h own 1 []
  | none, .arm _ _ => s.dropHeld h
  | some c, .launch record => s.serveLaunch c h record
  | some c, .forward va kind bs => s.serveForward c h va kind bs
  | some c, .read kind va n => s.serveRead c h kind va n
  | some c, .write kind va bs => s.serveWrite c h kind va bs
  | some c, .drain ring max => s.serveDrain c h ring max
  | some c, .supply records => s.serveSupply c h records
  | some c, .post desc page level poisoned => s.servePost c h ⟨desc, page, level, poisoned⟩
  | some c, .contribute dev x own => s.serveContribute c h dev x own
  | some c, .arm serial i => s.serveArm c h serial i
/-- The held messages that arrived before one. -/
def State.heldBefore (s : State) (id : Nat) : List Held := s.held.takeWhile (·.id != id)
/-- Trying the held messages that nothing stands before and that wait for no reply. -/
def State.retryHeld (s : State) : State :=
  (s.held.map (·.id)).foldl (fun s id =>
    match s.held.find? (·.id == id) with
    | none => s
    | some h => if h.waits.isEmpty && !(s.heldBefore id).any (s.stands · h) then s.serve h else s) s
/-- A message joins those held and is performed at once when nothing stands before it. -/
def State.holdMsg (s : State) (conn : ConnId) (ctx : Nat) (msg : HeldMsg) : State :=
  let (id, s) := s.fresh
  ({ s with held := s.held ++ [⟨id, conn, ctx, msg, [], [], none, false⟩] } : State).retryHeld

end Sys2Proof.Machine
end

