-- ==== Sys2Proof/Machine/Migrate.lean ====
section
/-! DEFINITION. Bias flips, page migration and the translation directory (R248, R350 to R357, R376). -/
namespace Sys2Proof.Machine

/-! ## Leaves rewritten by the device -/

/-- The leaf that maps a page, whatever it permits. -/
def State.pageLeaf (s : State) (c : Context) (page : DWord) : Option Leaf := (s.walk c.l0 page).toOption
/-- Bits of a leaf replaced: a table write at its place in the order, with its shoot-down (R237, R356). -/
def State.rewriteLeaf (s : State) (c : Nat) (l : Leaf) (clear set : DWord) : State :=
  (s.order c 0x7FF none (l.entry / 128) true).putBytes (.dev l.entry) (natLe 8 ((s.entryAt l.entry &&& ~~~clear) ||| set).toNat)
/-- A page's size in bytes. -/
def Leaf.bytes (l : Leaf) : Nat := 2 ^ l.bits
/-- The host lines of a page. -/
def Leaf.hostLine (l : Leaf) (n : Nat) : Bool := l.frame / 128 ≤ n && n < (l.frame + l.bytes) / 128
/-- Accesses to a page that have been translated through its leaf are still to be performed: their requests are outstanding, a
group keeps the answers of owners to them, or it has had owners perform a part of its instruction, whose other accesses may be to
this page (R248, R352, R356). -/
def State.pageBusy (s : State) (c : Nat) (l : Leaf) (page : DWord) : Bool :=
  s.inUse (.dev l.entry) 8 || s.requests.any (fun q => q.ctx == c && l.page q.va == page)
    || s.away.any (fun x => s.keptBy none x && x.ctx == c && l.page x.va == page)
    || s.teams.any fun t => t.ctx == c && t.groups.any Group.doneAway

/-! ## Bias flips (R248) -/

/-- BIAS of a leaf. -/
def biasBit : DWord := 1#64 <<< 61
/-- A flip is asked for: accesses to the page wait from now on, until the drain ends. -/
def State.beginFlip (s : State) (c : Nat) (page : DWord) (toHost own : Bool) : State :=
  { s with flips := s.flips ++ [⟨c, page, toHost, false, own⟩] }
/-- A line's times when its leases are invalidated: what follows comes after them all the same (R239). -/
def LineMark.unleased (m : LineMark) : LineMark := { m with wt := Nat.max m.wt m.lease, lease := 0 }
/-- A line of host memory by its mark. -/
def LineMark.ofHost (m : LineMark) (l : Leaf) : Bool := m.space.isNone && 2 ^ 50 ≤ m.line && m.line < 2 ^ 51 && l.hostLine (m.line - 2 ^ 50)
/-- The package's copies of a host page, and their leases, are dropped. -/
def State.dropPage (s : State) (l : Leaf) : State :=
  { s with
    hostMem := s.hostMem.clear l.frame l.bytes
    hostLines := s.hostLines.filter fun n => !l.hostLine n
    hostDirty := s.hostDirty.filter fun n => !l.hostLine n
    hostPoison := s.hostPoison.filter fun g => !l.hostLine (g / 2)
    lines := s.lines.map fun m => if m.ofHost l then m.unleased else m }
/-- FLIP (R248, R374): a flip begins, or the request is busy or names no host page. -/
def State.doFlip (s : State) (h : MsgHdr) (page : DWord) (toHost : Bool) : State :=
  s.withContext h 9 fun s c =>
    match s.pageLeaf c page with
    | some l =>
      if l.own != 1 then s.answerHost h 9 2 []
      else if s.flips.any (fun f => f.ctx == c.num && f.page == l.page page)
          || s.migs.any (fun m => m.ctx == c.num && m.page == l.page page) then s.answerHost h 9 1 []
      else s.beginFlip c.num (l.page page) toHost false
    | none => s.answerHost h 9 2 []

/-! ## Migration (R352, R353) -/

/-- Replacing a migration. -/
def State.modMig (s : State) (c : Nat) (page : DWord) (f : Migration → Option Migration) : State :=
  { s with migs := s.migs.filterMap fun m => if m.ctx == c && m.page == page then f m else some m }
/-- A migration aborts: the leaf keeps its contents with DNM = 1, and the page and line are recorded (R353). -/
def State.abortMig (s : State) (m : Migration) (l : Leaf) (line : Nat) : State :=
  let s := (s.rewriteLeaf m.ctx l 0 (1#64 <<< 60)).modMig m.ctx m.page fun _ => none
  s.errRecord 8 3 11 0 m.ctx m.page (.ofNat 32 line)
/-- The lines of a moved page keep their times at the new frame. -/
def State.moveLines (s : State) (l : Leaf) (frame : Nat) : State :=
  (s.lines.filter (·.ofHost l)).foldl (fun s m =>
    let line := frame / 128 + (m.line - 2 ^ 50 - l.frame / 128)
    let old := s.lineMark none line
    s.setLine { m with line := line, wt := Nat.max m.wt old.wt, lease := Nat.max m.lease old.lease }) s
/-- The copy, the switch and the notice: the page's bytes in the new frame, the leaf with OWN 0, BIAS 0 and the new frame,
its directory fields clear (R352). -/
def State.finishMig (s : State) (m : Migration) (l : Leaf) : State :=
  let s := (s.putBytes (.dev m.frame) (s.hostMem.read l.frame l.bytes)).unpoison (.dev m.frame) (granules m.frame l.bytes)
  let s := s.moveLines l m.frame
  let frame : DWord := .ofNat 64 (m.frame % 2 ^ 52)
  -- OWN, BIAS, DIRA, DTYPE and FRAME
  let s := s.rewriteLeaf m.ctx l (.ofNat 64 ((2 ^ 62 * 3) + 2 ^ 61 + 2 ^ 59 + 2 ^ 55 * 15 + (2 ^ 52 - 2 ^ 12))) frame
  let s := (s.dropPage l).modMig m.ctx m.page fun _ => none
  let s := s.modContext m.ctx fun c => { c with counters := c.counters.filter (·.1 != m.page.toNat) }
  s.sendMsg .host 13 m.ctx 0 (natLe 8 m.page.toNat ++ natLe 8 m.frame)
/-- A migration whose lines have all been read ends, once no access uses the leaf any longer (R352, R353, R356). -/
def State.settleMig (s : State) (m : Migration) : State :=
  if m.stage != .copying then s
  else match (s.context? m.ctx).bind fun c => s.pageLeaf c m.page with
    | none => s.modMig m.ctx m.page fun _ => none
    | some l =>
      if s.pageBusy m.ctx l m.page then s else
      let poisoned := (s.hostPoison.filter fun g => l.hostLine (g / 2)).foldl (fun acc g => match acc with
        | some n => some (Nat.min n (g / 2 - l.frame / 128))
        | none => some (g / 2 - l.frame / 128)) none
      match m.bad, poisoned with
      | some n, _ => s.abortMig m l n
      | none, some n => s.abortMig m l n
      | none, none => s.finishMig m l
/-- Ending the migrations that can end, and performing what waited for them. -/
def State.settleMigs (s : State) : State :=
  let t := s.migs.foldl State.settleMig s
  if t.migs.length = s.migs.length then t else t.retryHeld
/-- What waits at the landing die is tried again. -/
def State.resume (s : State) : State := s.retryHeld.settleMigs
/-- The page is frozen, and its lines that the package does not hold are asked for in ascending order (R352 steps 2 and 3). -/
def State.beginCopy (s : State) (c : Context) (page : DWord) (l : Leaf) : State :=
  let s := s.modMig c.num page fun m => some { m with stage := .copying }
  let missing := (List.range (l.bytes / 128)).filter fun i => !s.hostLines.contains (l.frame / 128 + i)
  let s := missing.foldl (fun (s : State) i =>
    match s.askLine c (.mig c.num page i) (page + .ofNat 64 (128 * i)) (l.frame + 128 * i) with
    | some t => t
    | none => s.modMig c.num page fun m => some { m with bad := some (m.bad.getD i) }) s
  s.settleMigs
/-- Entry i of the migration request ring. -/
def State.migEntryAt (s : State) (i : Nat) : List Byte := s.migRing.read (16 * (i % Config.migRingSize)) 16
/-- The firmware drains the migration request ring from TAIL: through the request it acts on, or, when there is none, over the
peer pages that system software moves (R351). -/
def State.drainMig (s : State) (ctx : Nat) (page : DWord) : State :=
  let is := (List.range (s.migHead - s.migTail)).map (s.migTail + ·)
  let hit (i : Nat) : Bool := let e := s.migEntryAt i; bytesAt e 0 8 == page.toNat && bytesAt e 8 1 == ctx
  match is.find? hit with
  | some i => { s with migTail := i + 1 }
  | none => { s with migTail := s.migTail + (is.takeWhile fun i => bytesAt (s.migEntryAt i) 9 1 == 2).length }
/-- PAGE_MIGRATION (R352): a host page is moved to a frame; one with host bias is flipped first. -/
def execPageMigration (ctx : Nat) (page : DWord) (frame : Nat) (bad : Option Nat) (s : State) : Out :=
  match (s.context? ctx).bind fun c => (s.pageLeaf c page).map fun l => (c, l) with
  | none => .next s
  | some (c, l) =>
    let p := l.page page
    if l.own != 1 || frame % l.bytes != 0 || s.memBytes < frame + l.bytes || s.frozen ctx p
        || s.migs.any (fun m => m.ctx == ctx && m.page == p) then .next s
    else if l.hostBias then
      if (s.conn .host).down then .next s
      else
        let s := s.drainMig ctx p
        let s : State := { s with migs := s.migs ++ [⟨ctx, p, frame, bad, .asked⟩] }
        .next (s.sendMsg .host 10 0xFF 0 (natLe 8 l.frame ++ [0]) c.secure)
    else
      let s := s.drainMig ctx p
      .next (({ s with migs := s.migs ++ [⟨ctx, p, frame, bad, .copying⟩] } : State).beginCopy c p l)
/-- FLIPREQ_REPLY (R376): the host has written its caches of the page back; the device takes its flip point. -/
def execFlipreqReply (h : MsgHdr) (page : CtxAddr) (s : State) : Out :=
  match s.takeReply h with
  | (s, false) => .next s
  | (s, true) =>
    if s.migs.any fun m => m.ctx == page.ctx && m.page == page.va && m.stage == .asked then
      .next ((s.modMig page.ctx page.va fun m => some { m with stage := .flipping }).beginFlip page.ctx page.va false true)
    else .next s

/-- A changed line written back: its clean granules, and the poison marks of the others (R248; log entry 44). -/
def State.writeBack (s : State) (c : Context) (page : DWord) (l : Leaf) (n : Nat) : State :=
  let bad := [0, 1].filter fun k => s.hostPoison.contains (2 * n + k)
  let mask := lineMaskBytes 0 128
  let mask := if bad.isEmpty then mask else ((List.range 16).map fun i => if bad.contains (i / 8) then 0 else 0xFF)
  (s.request c .host (.flip c.num page) (page + .ofNat 64 (128 * n - l.frame)) none 4 0xFF
    (natLe 8 (128 * n) ++ mask ++ s.hostMem.read (128 * n) 128) bad).1
/-- FLIP_COMPLETION (R248): the flip takes its point once every access before it has been performed; every changed line of a page
that goes to the host is then written back; and when the last is, the package's copies are dropped, the host is answered or the
migration goes on, and what waited for the drain is performed. -/
def execFlipCompletion (ctx : Nat) (page : DWord) (s : State) : Out :=
  match s.flips.find? fun f => f.ctx == ctx && f.page == page with
  | none => .next s
  | some f =>
    let mine (x : Flip) : Bool := x.ctx == ctx && x.page == page
    let done (s : State) : State := { s with flips := s.flips.filter (!mine ·) }
    let ended (s : State) : State := if f.own then s else s.reply .host 9 ctx 0 []
    match (s.context? ctx).bind fun c => (s.pageLeaf c page).map fun l => (c, l) with
    | none => .next (ended (done s)).retryHeld
    | some (c, l) =>
      if !f.begun then
        if s.pageBusy ctx l page then .next s
        else .next { s.rewriteLeaf ctx l biasBit (if f.toHost then biasBit else 0) with
          flips := s.flips.map fun x => if mine x then { x with begun := true } else x }
      else
      let dirty := if f.toHost then s.hostDirty.filter l.hostLine else []
      if !dirty.isEmpty && !(s.conn .host).down then
        .next (dirty.foldl (fun s n => s.writeBack c page l n) { s with hostDirty := s.hostDirty.filter fun n => !l.hostLine n })
      else if s.requests.any fun q => q.who == .flip ctx page then .next s
      else
        let s := done (if f.toHost then s.dropPage l else s)
        .next (if f.own then s.beginCopy c page l else (ended s).retryHeld)

/-! ## The translation directory (R355, R357) -/

/-- The index of an address in the table of a level (R344). -/
def tableIndex (va : DWord) (level : Nat) : Nat :=
  let v := vaNat va
  match level with
  | 0 => v / 2 ^ 47
  | 1 => v / 2 ^ 38 % 512
  | 2 => v / 2 ^ 25 % 8192
  | _ => v / 2 ^ 16 % 512
/-- A line of the directory; the line filled earliest is dropped when it is full (R355). -/
def State.dirLine (s : State) (line : Nat) : State :=
  if s.tdir.any (·.line == line) then s else { s with tdir := (⟨line, [], []⟩ :: s.tdir).take (Config.tdirSize + 1) }
/-- Changing a line of the directory. -/
def State.modDir (s : State) (line : Nat) (f : TLine → TLine) : State :=
  { s with tdir := s.tdir.map fun t => if t.line == line then f t else t }
/-- A pending mark stands. -/
def State.marked (s : State) (core line : Nat) : Bool := s.tdir.any fun t => t.line == line && t.marks.contains core
/-- A walker comes to a level: it sets its pending mark on the line (R357 step 1). -/
def State.walkerAt (s : State) (core ctx : Nat) (va : DWord) (level line : Nat) : State :=
  let s := (s.dirLine line).modDir line fun t => { t with marks := if t.marks.contains core then t.marks else core :: t.marks }
  { s with walkers := ⟨core, ctx, va, level, line, []⟩ :: s.walkers.filter fun w => !(w.core == core && w.ctx == ctx && w.va == va) }
/-- A walker's walk is over. -/
def State.dropWalker (s : State) (core ctx : Nat) (va : DWord) : State :=
  { s with walkers := s.walkers.filter fun w => !(w.core == core && w.ctx == ctx && w.va == va) }
/-- The next table line of a walk from the entry that its line held; none: the walk has reached its leaf, or an entry that gives
none. -/
def State.nextLine (s : State) (w : Walker) : Option Nat :=
  let e : DWord := .ofNat 64 (bytesAt w.bytes (8 * tableIndex w.va w.level % 128) 8)
  if w.level = 3 ∨ (w.level = 2 ∧ efld e 0 2 = 3) then none else
  match s.nextTable e (if w.level = 1 then 65536 else 4096) with
  | .ok a => some ((a + 8 * tableIndex w.va (w.level + 1)) / 128)
  | .error _ => none
/-- WALKER_FILL (R357): a walk's next event. A walker marks a line, reads it, and fills its core's cache only while its mark
stands, when the core becomes a sharer and the walk goes on; one whose mark has been cleared begins again at the root. -/
def execWalkerFill (core : Nat) (a : CtxAddr) (s : State) : Out :=
  let ctx := a.ctx
  let va := a.va
  match s.context? ctx with
  | none => .next (s.dropWalker core ctx va)
  | some c =>
    let root := (c.l0 + 8 * tableIndex va 0) / 128
    match s.walkers.find? fun w => w.core == core && w.ctx == ctx && w.va == va with
    | none => .next (s.walkerAt core ctx va 0 root)
    | some w =>
      if !s.marked core w.line then .next (s.walkerAt core ctx va 0 root)
      else if w.bytes.isEmpty then .next { s with
        walkers := s.walkers.map fun x =>
          if x.core == core && x.ctx == ctx && x.va == va then { x with bytes := s.mem.read (128 * w.line) 128 } else x }
      else
        let t := s.modDir w.line fun t => { t with
          marks := t.marks.filter (· != core), sharers := if t.sharers.contains core then t.sharers else core :: t.sharers }
        match s.nextLine w with
        | some line => .next (t.walkerAt core ctx va (w.level + 1) line)
        | none => .next (t.dropWalker core ctx va)

end Sys2Proof.Machine
end

