-- ==== Sys2Proof/Machine/Prune.lean ====
section
/-! DEFINITION. Pruning a field program against a box: `prn` (R196, R267 to R272). -/
namespace Sys2Proof.Machine

/-! ## The evaluation over the box (R267) -/

/-- A value over the box: its interval, and whether a point of the box may give it as a NaN or as −0. The decisions read the
interval alone; the two marks keep R272's bits (log entry 91). -/
structure BoxVal where
  ivl : Ivl
  nan : Bool
  negZero : Bool
  deriving Repr

/-- The interval holds an infinity. -/
def Ivl.hasInf (a : Ivl) : Bool := a.lo.isInf || a.hi.isInf
/-- A step on numbers of two intervals may be invalid in point mode (R111). -/
def mayFail (o : Bin) (a b : Ivl) : Bool :=
  match o with
  | .add => (a.hi == posInf && b.lo == negInf) || (a.lo == negInf && b.hi == posInf)
  | .sub => (a.hi == posInf && b.hi == posInf) || (a.lo == negInf && b.lo == negInf)
  | .mul => (a.hasZero && b.hasInf) || (a.hasInf && b.hasZero)
  | .div => (a.hasZero && b.hasZero) || (a.hasInf && b.hasInf)
  | _ => false
/-- A value that may have its sign bit set. -/
def BoxVal.mayNegate (a : BoxVal) : Bool := a.negZero || extLt a.ivl.lo extZero
/-- A step on two values may give −0 in point mode, rounding `rne`. -/
def mayNegZero (o : Bin) (a b : BoxVal) : Bool :=
  match o with
  | .add => a.negZero && b.negZero
  | .sub => a.negZero && b.ivl.hasZero
  | .mul => a.mayNegate || b.mayNegate
  | .div => a.mayNegate || b.mayNegate
  | _ => a.negZero || b.negZero
/-- Interval mode with the marks of point mode. -/
def boxArith : Arith BoxVal where
  const w := ⟨ivlConst w, (extOf w).isNan, w == 0x80000000⟩
  bin o a b := do
    return ⟨← ivlBin o a.ivl b.ivl, a.nan || b.nan || mayFail o a.ivl b.ivl, mayNegZero o a b⟩
  un o a := do
    return ⟨← ivlUn o a.ivl, a.nan || (o == .sqrt && extLt a.ivl.lo extZero),
      (o == .neg && a.ivl.hasZero) || (o == .sqrt && a.negZero)⟩
  smooth up r a b := do
    return ⟨← ivlSmooth up r a.ivl b.ivl, a.nan || b.nan || mayFail .sub a.ivl b.ivl, !up && (a.negZero || b.negZero)⟩
/-- A coordinate of the box. -/
def boxCoord (a : Ivl) : BoxVal := ⟨a, false, a.hasZero⟩

/-- A stack element: its value and the word that pushed it. -/
abbrev Pushed := BoxVal × Nat

/-- What the evaluation of one word shows: its operands, deepest first, the interval it pushes last, and the words whose values a
`dup` reaches past or reads. -/
structure Trace1 where
  args : List Pushed
  res : Ivl
  reaches : List Nat
  deriving Repr

/-- The elements that a `dup` counts over, with the one it reads. -/
def FOp.reaches : FOp → List Pushed → List Nat
  | .dup n, st => (st.take (n + 1)).map (·.2)
  | _, _ => []
/-- One evaluation in interval mode, `brick` and `callable` being the whole line: for each word its operands and its result
(R267). -/
def traceOps (p : Prog) (crd : List BoxVal) : Nat → List FOp → List Pushed → List Trace1
  | _, [], _ => []
  | i, o :: r, st =>
    let args := (st.take o.effect.1).reverse
    let vs : List BoxVal := match stackOp o (st.map (·.1)) with
      | some st' => (st'.take o.effect.2.1).reverse
      | none => match o with
        | .brick _ => [⟨.whole, true, true⟩]
        | .callable _ => [⟨.whole, false, false⟩]
        | o => ((boxArith.apply p crd o (args.map (·.1))).run false : Id (List BoxVal × Bool)).1
    let st' := vs.reverse.map (fun v => (v, i)) ++ st.drop o.effect.1
    ⟨args, (vs.getLast?.map (·.ivl)).getD .whole, o.reaches st⟩ :: traceOps p crd (i + 1) r st'

/-! ## Clean subtrees (R268) -/

/-- The opcodes that a clean subtree may not hold. -/
def FOp.dirty : FOp → Bool
  | .dup _ => true
  | .swp => true
  | .rot3 => true
  | .pop => true
  | .pos _ => true
  | .abs3 => true
  | .sub3 _ => true
  | .mul3 _ => true
  | _ => false
/-- The first word of the clean subtree that ends with the first word of a reversed list, counted from it: going back, `need`
values are still to be pushed. -/
def cleanLen : List FOp → Nat → Nat → Option Nat
  | [], _, _ => none
  | o :: back, need, n =>
    if o.dirty then none
    else
      let (pops, pushes, _) := o.effect
      if need < pushes then none
      else if need - pushes + pops = 0 then some (n + 1) else cleanLen back (need - pushes + pops) (n + 1)
/-- The first word of the clean subtree that ends at word e. -/
def cleanStart (ops : List FOp) (e : Nat) : Option Nat :=
  (cleanLen ((ops.take (e + 1)).reverse) 1 0).map fun n => e + 1 - n

/-! ## Decisions (R269) -/

/-- What becomes of the words: those removed, and those replaced by `cst k`. -/
structure Pruned where
  gone : List Nat
  csts : List (Nat × Nat)
  deriving DecidableEq, Repr

/-- A decision on a word: keep it, remove the run of words from the first number to the second with the word itself, or
remove such a run and replace the word by a constant. -/
inductive Verdict where
  | keep
  | drop
  | cut (a b : Nat)
  | const (a b k : Nat)

/-- The words from a to b. -/
def wordsFrom (a b : Nat) : List Nat := (List.range (b + 1 - a)).map (a + ·)
/-- A value of a constant that can be compared. -/
def lt? (a b : Fp) : Bool := !a.isNan && !b.isNan && extLt a b
/-- The run that loses an operand: its clean subtree. DEDUCED (R272, log entry 91): an operand that may be a NaN in point mode, or
that a `dup` before the deciding word reads or counts over, is not removed either. -/
def lostRun (ops : List FOp) (across : List Nat) (a : Pushed) : Option (Nat × Nat) :=
  if a.1.nan || across.contains a.2 then none else (cleanStart ops a.2).map fun s => (s, a.2)
/-- The verdict on a word (R269), `across` being what the words before it reach. A radius that is not usable makes `smin` and `smax`
act as `min` and `max` (R259); a −0 that `smax` keeps becomes +0 (R272, log entry 91). -/
def verdict (p : Prog) (o : FOp) (args : List Pushed) (across : List Nat) : Verdict :=
  let cut (x : Pushed) : Verdict := match lostRun p.ops across x with | some (s, e) => .cut s e | none => .keep
  let two (aWins bWins : Bool) (a b : Pushed) : Verdict :=
    match (if aWins then cut b else .keep) with
    | .cut x y => .cut x y
    | _ => if bWins then cut a else .keep
  let lesser (a b : Pushed) : Verdict := two (lt? a.1.ivl.hi b.1.ivl.lo) (lt? b.1.ivl.hi a.1.ivl.lo) a b
  let greater (a b : Pushed) : Verdict := two (lt? b.1.ivl.hi a.1.ivl.lo) (lt? a.1.ivl.hi b.1.ivl.lo) a b
  let const (a : Pushed) (k : Nat) : Verdict := match lostRun p.ops across a with | some (s, e) => .const s e k | none => .keep
  match o, args with
  | .bin .min, [a, b] => lesser a b
  | .bin .max, [a, b] => greater a b
  | .smooth up k, [a, b] =>
    if usableRadius (p.con k) then
      let gap (x y : Ivl) : Bool :=
        !x.hasNan && !y.hasNan && extLe (extRound 2 (extAdd false x.hi (extOf (p.con k)))) y.lo
      if up then two (!a.1.negZero && gap b.1.ivl a.1.ivl) (!b.1.negZero && gap a.1.ivl b.1.ivl) a b
      else two (gap a.1.ivl b.1.ivl) (gap b.1.ivl a.1.ivl) a b
    else if up then greater a b else lesser a b
  | .binc .min _ k, [a] =>
    let c := extOf (p.con k)
    if lt? a.1.ivl.hi c then .drop else if lt? c a.1.ivl.lo then const a k else .keep
  | .binc .max _ k, [a] =>
    let c := extOf (p.con k)
    if lt? c a.1.ivl.lo then .drop else if lt? a.1.ivl.hi c then const a k else .keep
  | _, _ => .keep
/-- The decisions in word order; a word already removed is not decided (R269). -/
def decideWords (p : Prog) : Nat → List (FOp × Trace1) → List Nat → Pruned → Pruned
  | _, [], _, x => x
  | i, (o, t) :: r, across, x =>
    let drop (a b : Nat) (x : Pruned) : Pruned :=
      ⟨x.gone ++ wordsFrom a b, x.csts.filter fun c => !(wordsFrom a b).contains c.1⟩
    let x' := if x.gone.contains i then x else match verdict p o t.args across with
      | .keep => x
      | .drop => { x with gone := x.gone ++ [i] }
      | .cut a b => drop i i (drop a b x)
      | .const a b k => let y := drop a b x; { y with csts := y.csts ++ [(i, k)] }
    decideWords p (i + 1) r (across ++ t.reaches) x'

/-! ## Folding (R270) -/

/-- A word that stays: its opcode, its source word, and the interval it pushes. -/
structure Kept where
  op : FOp
  word : Nat
  res : Ivl
/-- The words left by the decisions. -/
def keptWords (words : List Nat) (ops : List (FOp × Trace1)) (x : Pruned) (p : Prog) : List Kept :=
  (ops.zip words).zipIdx.filterMap fun ((((o, t), w), i) : ((FOp × Trace1) × Nat) × Nat) =>
    match x.csts.lookup i with
    | some k => some ⟨.cst k, 0x0100 + k, .point (extOf (p.con k))⟩
    | none => if x.gone.contains i then none else some ⟨o, w, t.res⟩
/-- An opcode whose value depends on more than constants. -/
def FOp.varies : FOp → Bool
  | .crd _ => true
  | .brick _ => true
  | .callable _ => true
  | _ => false
/-- The point value of a run of constant words, the top of the stack first. -/
def constPoint (p : Prog) : List FOp → List Word → Word
  | [], st => st.headD 0
  | o :: r, st => constPoint p r
      (((pointArith.apply p [] o (st.take o.effect.1).reverse).run false : Id (List Word × Bool)).1.reverse ++ st.drop o.effect.1)
/-- The clean subtrees to fold: two words or more, constant, with a single finite value; first word, last word, value with the
sign a zero has in point mode; one whose point value is another, a NaN say, stays (R270, R272; log entry 91). -/
def foldable (p : Prog) (ks : List Kept) : List (Nat × Nat × Word) :=
  ks.zipIdx.filterMap fun (k, e) =>
    match cleanStart (ks.map (·.op)) e with
    | none => none
    | some s =>
      let run := (ks.drop s).take (e + 1 - s)
      let w := constPoint p (run.map (·.op)) []
      if s < e && !run.any (·.op.varies) && k.res.lo == k.res.hi && !k.res.lo.isInf && !k.res.lo.isNan
          && (if k.res.lo.isZero then (extOf w).isZero else w == extWord k.res.lo) then some (s, e, w) else none
/-- The maximal ones. -/
def maximal (xs : List (Nat × Nat × Word)) : List (Nat × Nat × Word) :=
  xs.filter fun x => !xs.any fun y => y.1 ≤ x.1 && x.2.1 ≤ y.2.1 && (y.1 < x.1 || x.2.1 < y.2.1)
/-- A value that `imm` holds: an integer from −128 to 127 other than −0 (R270). -/
def immOf (w : Word) : Option Nat :=
  if w = 0x80000000 then none else
  match extOf w with
  | .fin s m e =>
    let d := (Fp.fin s m e).dyad
    let n := d.floor
    if (dyadInt n).sub d |>.m |> (· == 0) then (if -128 ≤ n ∧ n ≤ 127 then some (n % 256).toNat else none) else none
  | _ => none
/-- Replacing the foldable subtrees in word order: the words of the output and its constants (R270, R271). -/
def foldWords (ks : List Kept) : List (Nat × Nat × Word) → List Word → List (Nat × Nat × Nat) → List Nat × List Word
  | [], cons, done =>
    (ks.zipIdx.filterMap fun (k, i) =>
      match done.find? fun (s, e, _) => s ≤ i && i ≤ e with
      | some (_, e, w) => if i = e then some w else none
      | none => some k.word, cons)
  | (s, e, v) :: r, cons, done =>
    match immOf v with
    | some n => foldWords ks r cons (done ++ [(s, e, 0x0200 + n)])
    | none =>
      if cons.length < 64 then foldWords ks r (cons ++ [v]) (done ++ [(s, e, 0x0100 + cons.length)])
      else foldWords ks r cons done

/-- The bytes of an image (R249). -/
def prunedImage (cons : List Word) (words : List Nat) : List Byte :=
  natLe 2 1 ++ natLe 2 words.length ++ [.ofNat 8 cons.length] ++ List.replicate 11 0 ++ wordBytes cons
    ++ words.flatMap (natLe 2)
/-- A box that takes no decision: a NaN, or a lower bound above its upper bound (R267). -/
def badBox (box : List Ivl) : Bool := box.any fun a => a.hasNan || a.isEmpty
/-- The pruned image of a program's image over a box (R267 to R271). -/
def pruneImage (img : List Byte) (p : Prog) (box : List Ivl) : List Byte :=
  if badBox box then img
  else
    let ops := p.ops.zip (traceOps p (box.map boxCoord) 0 p.ops [])
    let ks := keptWords (imageWords img) ops (decideWords p 0 ops [] ⟨[], []⟩) p
    let (words, cons) := foldWords ks (maximal (foldable p ks)) p.cons []
    prunedImage cons words
/-- The output of a `prn`: the status word, then what fits (R196, R271). -/
def pruneOutput (img : List Byte) (p : Prog) (box : List Ivl) (cap : Nat) : List Byte :=
  let new := pruneImage img p box
  if 4 + new.length ≤ cap then natLe 4 0 ++ new
  else if 4 + img.length ≤ cap then natLe 4 1 ++ img
  else natLe 4 2

/-! ## prn (R196) -/

/-- PRN (R196). -/
def execPrn (m : Bool) (a b : VReg) : State → Out :=
  runWord (.prn m a b) { s := m, roles := vectorOnly, once := Group.someActs } fun s r g => do
    g.needSwz
    quadCheck a
    let prog ← g.uniform a
    let box ← g.uniform (regAt a 1)
    let out ← g.uniform (regAt a 2)
    let cap ← g.uniform (regAt a 3)
    let w ← g.uniform b
    let t := s.teamOf r
    let (img, _) ← s.fieldImage t g.swz prog
    s.scrChecks t 4 [(box, 24)]
    s.scrChecks t 4 [(out, Nat.max 4 cap.toNat)]
    let c ← t.completion w false false
    s.scrPoisonCheck 0 t.tid g.swz (scrOff prog) img.length prog
    let _ ← s.scrTids t [box, out]
    let seen ← s.issueReads r g ⟨t.tid, g.swz, 0⟩ (scrOff prog) img.length
    return (← stopAt s (seen.startOp r c (.prn img box out cap g.swz)), g)

/-- The box of 24 bytes. -/
def boxOf (bs : List Byte) : List Ivl :=
  let w (k : Nat) : Fp := extOf (.ofNat 32 (bytesAt bs (4 * k) 4))
  (List.range 3).map fun k => ⟨w k, w (k + 3)⟩
/-- The box's chunks. -/
def boxChunks (box : Word) : List (Nat × Nat) := chunks (scrOff box) 24
/-- The output of a `prn` that has read its box: none while some of it is to be read, or when a chunk was poisoned. -/
def prnBytes (img : List Byte) (box cap : Word) (seen : List Piece) : Option (List Byte) := do
  let p ← progOf img
  let parts ← (List.range (boxChunks box).length).mapM fun i => (seen.find? fun x => x.at_ == i && x.reason == 0).map (·.bytes)
  return pruneOutput img p (boxOf parts.flatten) cap.toNat
/-- The chunks that it writes; of a poisoned box only the status word's. -/
def prnChunks (out : Word) (bs : Option (List Byte)) : List (Nat × Nat) :=
  match bs with
  | some bs => chunks (scrOff out) bs.length
  | none => [(scrOff out, 4)]
/-- Step c of a `prn`: the box's chunks are read, then the output's are written, each set in an order of its own; a poisoned box
poisons the status word's granule (R242, R393; log entries 13, 18). -/
def evalPrn (o : Op) (v : View) (c : Nat) : OpM ChunkRes :=
  match o.kind with
  | .prn img box out cap swz =>
    match v.st.opWin o swz box, v.st.opWin o swz out with
    | some bw, some ow =>
      let ins := boxChunks box
      if c < ins.length then
        let i := nthChunk o.id ins.length c
        let (a, k) := ins.getD i (0, 0)
        let reason := if (v.st.winTeam bw).scrPoisoned swz a k then 4 else 0
        return { writes := [.seenScr bw a k], reason
                 keep := (⟨i, v.st.scrBytesAt bw.tid swz a k, reason⟩ :: ·) }
      else
        let bs := prnBytes img box cap o.seen
        let outs := prnChunks out bs
        let at_ (j : Nat) : Nat × Nat := outs.getD (nthChunk (o.id + 1) outs.length j) (0, 0)
        let j := c - ins.length
        let (a, k) := at_ j
        -- the last chunk into its block gives its final mark
        let last := (List.range outs.length).all fun i => i ≤ j || (at_ i).1 / 2048 != a / 2048
        return { writes := [match bs with
            | some bs => .scr ow a ((bs.drop (a - scrOff out)).take k)
            | none => .scrPoison ow a k, .mark ow (a / 2048) none last none] }
    | _, _ => return { reason := 3 }
  | _ => return {}
/-- The steps of a `prn`. -/
def prnTotal (o : Op) : Nat :=
  match o.kind with
  | .prn img box out cap _ => (boxChunks box).length + (prnChunks out (prnBytes img box cap o.seen)).length
  | _ => 0
/-- PRN_COMPLETION (R271): the operation's next chunk, and with the last its completion. -/
def execPrnCompletion (id : Nat) (s : State) : Out :=
  match (s.op? id).map (·.kind) with
  | some (OpKind.prn _ _ _ _ _) => .next (s.runOp id (fun _ => false) prnTotal evalPrn)
  | _ => .next s

end Sys2Proof.Machine
end

