-- ==== Sys2Proof/Machine/Raster.lean ====
section
/-! DEFINITION. The depth test, screen tiles and their fragments (R205, R208, R291, R292). -/
namespace Sys2Proof.Machine

/-! ## The depth order (R208) -/

/-- A depth pair: z and identifier. -/
abbrev DepthPair := Word × Word
/-- `dwins` (R208). -/
def dwins (y x : DepthPair) : Bool :=
  let a := fpOf 8 false y.1
  let b := fpOf 8 false x.1
  if a.isNan then false
  else if b.isNan then true
  else if extLt a b then true
  else if extLt b a then false
  else if y.2 != x.2 then y.2 < x.2
  else a.isZero && a.neg && !b.neg
/-- The pair that stays. -/
def depthKept (y x : DepthPair) : DepthPair := if dwins y x then y else x
/-- A pair from 8 bytes. -/
def depthOf (bs : List Byte) : DepthPair := (.ofNat 32 (bytesAt bs 0 4), .ofNat 32 (bytesAt bs 4 4))
/-- The 8 bytes of a pair. -/
def depthBytes (x : DepthPair) : List Byte := wordBytes [x.1, x.2]

/-- DPT (R208). -/
def execDpt (m : Bool) (d a b : VReg) : State → Out :=
  runWord (.dpt m d a b) { s := m, roles := vectorOnly } fun s r g => do
    g.needSwz
    g.fits d 2
    g.fits (nextReg d) 2
    let fs := g.performers false true
    let t := s.teamOf r
    let xs : List Acc := fs.map fun f =>
      let y : DepthPair := (g.rd b f, g.rd (nextReg b) f)
      ⟨f, scrVal (g.rd a f), 8, fun old => some (depthBytes (depthKept y (depthOf old))), .read⟩
    let sites ← s.scrSites r .rmw 8 g.swz xs
    let v := s.actor r false g.swz none (!g.priv)
    let (s', olds, _) := v.perform sites s
    let evs := ((xs.zip olds).zip (v.times sites s)).map fun ((x, old), time) =>
      (⟨1, t.party r.slot x.fib false, x.addr, hashBytes old, t.core, some time⟩ : RecEvent)
    let s' ← s.gateGroup s' (s.ctxOf t) g.priv evs
    let word (k : Nat) := olds.map fun bs => (.ofNat 32 (bytesAt bs (4 * k) 4) : Word)
    return (s', (g.store d 2 fs.contains (pick fs (word 0))).store (nextReg d) 2 fs.contains (pick fs (word 1)))

/-! ## Triangles on a tile (R291) -/

/-- A screen triangle with finite vertices. -/
structure Tri where
  v0 : Vec
  v1 : Vec
  v2 : Vec
/-- A triangle record; none when a coordinate is not finite. -/
def triOf (bs : List Byte) : Option Tri := do
  let ws := bytesWords bs 9
  return ⟨← vecOf (ws.take 3), ← vecOf ((ws.drop 3).take 3), ← vecOf ((ws.drop 6).take 3)⟩
/-- Twice the signed area of the screen triangle a, b, c. -/
def area2 (ax ay bx by' cx cy : Rat) : Rat := (bx - ax) * (cy - ay) - (by' - ay) * (cx - ax)
/-- b₁ and b₂ of a pixel's centre; none when the area is zero. -/
def Tri.weights (t : Tri) (px py : Nat) : Option (Rat × Rat) :=
  let x : Rat := mkRat (2 * px + 1) 2
  let y : Rat := mkRat (2 * py + 1) 2
  let a := area2 t.v0.x t.v0.y t.v1.x t.v1.y t.v2.x t.v2.y
  if a = 0 then none
  else some (area2 t.v0.x t.v0.y x y t.v2.x t.v2.y / a, area2 t.v0.x t.v0.y t.v1.x t.v1.y x y / a)
/-- The depth a triangle offers a pixel; none when it does not cover it. -/
def Tri.depth (t : Tri) (px py : Nat) : Option Word := do
  let (b1, b2) ← t.weights px py
  if 0 ≤ b1 && 0 ≤ b2 && b1 + b2 ≤ 1 then
    some (ratWord 0 (t.v0.z + b1 * (t.v1.z - t.v0.z) + b2 * (t.v2.z - t.v0.z)))
  else none
/-- Offering every triangle to a pixel in ascending order (R205). -/
def offerAll (tris : List (Option Tri)) (idb : Word) (px py : Nat) (x : DepthPair) : DepthPair :=
  tris.zipIdx.foldl (fun x (t, i) => match t.bind (·.depth px py) with
    | some z => depthKept (z, idb + .ofNat 32 i) x
    | none => x) x

/-! ## Descriptors (R205) -/

/-- A tile descriptor. -/
structure TileDesc where
  tri : DWord
  count : Nat
  x0 : Nat
  y0 : Nat
  width : Nat
  height : Nat
  depth : Word
  target : Nat
  idb : Word
/-- Reading a descriptor. -/
def tileDesc (bs : List Byte) : TileDesc :=
  ⟨.ofNat 64 (bytesAt bs 0 8), bytesAt bs 8 4, bytesAt bs 0x0C 2, bytesAt bs 0x0E 2, bytesAt bs 0x10 2, bytesAt bs 0x12 2,
    .ofNat 32 (bytesAt bs 0x14 4), bytesAt bs 0x18 4, .ofNat 32 (bytesAt bs 0x1C 4)⟩
/-- Bytes of the depth store. -/
def TileDesc.depthBytes (x : TileDesc) : Nat := 8 * x.width * x.height
/-- A field of a descriptor is out of range, for a window of n bytes and a kernel's targets. -/
def TileDesc.bad (x : TileDesc) (bs : List Byte) (window targets : Nat) : Bool :=
  let side (n : Nat) : Bool := n % 2 == 0 && 2 ≤ n && n ≤ 256
  x.tri.toNat % 8 != 0 || 16777215 < x.count || !side x.width || !side x.height || scrReserved x.depth
    || scrOff x.depth % 8 != 0 || window < scrOff x.depth + x.depthBytes || targets ≤ x.target || bytesAt bs 0x20 32 != 0

/-- RAST (R205). -/
def execRast (m : Bool) (a b : VReg) : State → Out :=
  runWord (.rast m a b) { s := m, roles := vectorOnly, once := Group.someActs } fun s r g => do
    g.needSwz
    let at_ ← g.uniform a
    let w ← g.uniform b
    let t := s.teamOf r
    let (tid, off) ← s.scrOperand t 16 64 at_
    let bs := s.scrBytesAt tid g.swz off 64
    let x := tileDesc bs
    check (!x.bad bs t.scrBytes (((s.grid? t.ctx t.serial).map (·.targets.length)).getD 0)) (protect 14)
    check (!s.scrMisuse t x.depth) (protectAt 17 (scrVal x.depth))
    let c ← t.completion w false false
    s.scrPoisonCheck 0 tid g.swz off 64 at_
    let _ ← s.scrTids t [x.depth]
    -- the list can be read; the descriptor is read now (R237, R242)
    let _ ← s.groupRead r g (g.ons.headD 0) fun v => v.read x.tri (40 * x.count)
    let seen ← s.issueReads r g ⟨tid, g.swz, scrVal (at_ &&& 0xF0000000)⟩ off 64
    return (← stopAt s (seen.startOp r c (.rast bs g.swz)), g)

/-! ## Fragments (R292) -/

/-- The identifier is one of the tile's triangles. -/
def TileDesc.owns (x : TileDesc) (id : Word) : Bool := (id - x.idb).toNat < x.count
/-- The four pixels of a quad, from its index along the rows. -/
def TileDesc.quad (x : TileDesc) (q : Nat) : List (Nat × Nat) :=
  let qx := 2 * (q % (x.width / 2))
  let qy := 2 * (q / (x.width / 2))
  [(qx, qy), (qx + 1, qy), (qx, qy + 1), (qx + 1, qy + 1)]
/-- The quad fragments of a finished depth store, in ascending order of identifier, then of quad. -/
def TileDesc.fragments (x : TileDesc) (store : List DepthPair) : List (Word × Nat) :=
  let at_ (p : Nat × Nat) : Word := (store.getD (p.2 * x.width + p.1) (0, 0)).2
  let fs := (List.range (x.width / 2 * (x.height / 2))).flatMap fun q =>
    (((x.quad q).map at_).filter x.owns).eraseDups.map fun id => (id, q)
  sortBy (fun a b => a.1 < b.1 || (a.1 == b.1 && a.2 ≤ b.2)) fs
/-- The free values of a fragment's fibre are functions of what replay repeats: the descriptor, the issuer and the place (log
entry 10). -/
def fragmentKey (bs : List Byte) (p : Party) (f : Word × Nat) (i : Nat) : Nat :=
  ((((leNat bs * 2 ^ 32 + p.serial) * 2 ^ 32 + p.team) * 64 + p.slot) * 2 ^ 32 + f.1.toNat) * 2 ^ 18 + 4 * f.2 + i
/-- The continuations of one fragment: four fibres; u and v of a triangle without an area, and the carried identifier, are
free. -/
def State.fragment (s : State) (core : Nat) (bin : BinKey) (x : TileDesc) (key : Word × Nat → Nat → Nat) (tris : List (Option Tri))
    (store : List DepthPair) (group : Nat) (f : Word × Nat) : State :=
  (x.quad f.2).zipIdx.foldl (fun s (p, i) =>
    let uv : Word × Word := match ((tris.getD (f.1 - x.idb).toNat none).bind fun t => t.weights (x.x0 + p.1) (x.y0 + p.2)) with
      | some (b1, b2) => (ratWord 0 b1, ratWord 0 b2)
      | none => (Config.fragmentWord (4 * key f i), Config.fragmentWord (4 * key f i + 1))
    let pixel : Word := .ofNat 32 ((x.x0 + p.1) % 65536 + (x.y0 + p.2) % 65536 * 65536)
    s.board ⟨core, bin, 0, 0, [], Config.fragmentWord (4 * key f i + 3) ++ Config.fragmentWord (4 * key f i + 2), 0,
      (store.getD (p.2 * x.width + p.1) (0, 0)).2 != f.1, arrivalOf 0 6 0 f.1 uv.1 uv.2 0 0 pixel [] [], some group⟩) s
/-- Packing fragments four to a raster group. -/
def State.packFragments (s : State) (core : Nat) (bin : BinKey) (x : TileDesc) (key : Word × Nat → Nat → Nat)
    (tris : List (Option Tri)) (store : List DepthPair) (fs : List (Word × Nat)) : State :=
  (List.range ((fs.length + 3) / 4)).foldl (fun s i =>
    let (id, s) := s.fresh
    ((fs.drop (4 * i)).take 4).foldl (fun s f => s.fragment core bin x key tris store id f) s) s

/-- The chunks of the triangle list. -/
def TileDesc.listChunks (x : TileDesc) : List (Nat × Nat) := chunks x.tri.toNat (40 * x.count)
/-- The chunks of the depth store. -/
def TileDesc.storeChunks (x : TileDesc) : List (Nat × Nat) := chunks (scrOff x.depth) x.depthBytes
/-- The bytes of n pieces in their order; none for those of a piece that could not be read. -/
def pieceBytes (seen : List Piece) (cs : List (Nat × Nat)) (first : Nat) : List (Option Byte) :=
  cs.zipIdx.flatMap fun (c, i) => match seen.find? (·.at_ == first + i) with
    | some p => if p.reason = 0 then p.bytes.map some else List.replicate c.2 none
    | none => List.replicate c.2 none
/-- The triangle records as read: one that cannot be read covers nothing. -/
def TileDesc.triangles (x : TileDesc) (seen : List Piece) : List (Option Tri) :=
  let bs := pieceBytes seen x.listChunks 0
  (List.range x.count).map fun i => (((bs.drop (40 * i)).take 40).mapM id).bind triOf
/-- The depth store as left; a poisoned pair is of none of the triangles. -/
def TileDesc.pairs (x : TileDesc) (seen : List Piece) : List DepthPair :=
  let bs := pieceBytes seen x.storeChunks x.listChunks.length
  (List.range (x.width * x.height)).map fun i =>
    (((bs.drop (8 * i)).take 8).mapM id).elim (0, x.idb + .ofNat 32 x.count) depthOf
/-- A chunk of the depth store with every triangle offered to its pixels. -/
def TileDesc.offered (x : TileDesc) (tris : List (Option Tri)) (off : Nat) (old : List Byte) : List Byte :=
  (List.range (old.length / 8)).flatMap fun k =>
    let i := (off - scrOff x.depth) / 8 + k
    Sys2Proof.Machine.depthBytes (offerAll tris x.idb (x.x0 + i % x.width) (x.y0 + i / x.width) (depthOf ((old.drop (8 * k)).take 8)))
/-- Step j of a `rast` on its depth store: a chunk is read and, when a triangle wins a pixel of it, written; a poisoned one is neither
offered anything nor sent for shading (R147, R291). -/
def TileDesc.storeStep (x : TileDesc) (o : Op) (s : State) (w : ScrWin) (tris : List (Option Tri)) (j : Nat) : ChunkRes :=
  let cs := x.storeChunks
  let num (k : Nat) : Nat := nthChunk (o.id + 1) cs.length k
  let at_ (k : Nat) : Nat × Nat := cs.getD (num k) (0, 0)
  let (off, n) := at_ j
  let b := off / 2048
  let last := (List.range cs.length).all fun i => i ≤ j || (at_ i).1 / 2048 != b
  let old := s.scrBytesAt w.tid w.swz off n
  let bad := (s.winTeam w).scrPoisoned w.swz off n
  let new := x.offered tris off old
  let wrote := !bad && new != old
  { writes := (.seenScr w off n :: if wrote then [OpWrite.scr w off new] else [])
      ++ (if wrote || (last && o.busy.contains (w.tid, b)) then [OpWrite.mark w b none last none] else [])
    reason := if bad then 4 else 0
    keep := (⟨x.listChunks.length + num j, if bad then [] else new, if bad then 4 else 0⟩ :: ·) }
/-- Step c of a `rast`: the triangle list is read, then the depth store is gone through, each in an order of its own, and the fragments
are sent to the boarding unit (R242, R292; log entry 13). -/
def evalRast (o : Op) (v : View) (c : Nat) : OpM ChunkRes :=
  match o.kind with
  | .rast bs swz => do
    let x := tileDesc bs
    let n := x.listChunks.length
    if c < n then
      let i := nthChunk o.id n c
      let (a, k) := x.listChunks.getD i (0, 0)
      let (got, reason) ← v.chunk (.ofNat 64 a) k
      return { reason, keep := (⟨i, got.getD [], reason⟩ :: ·) }
    else
      match v.st.opWin o swz x.depth with
      | none => return { reason := 3 }
      | some w =>
        let tris := x.triangles o.seen
        let y := x.storeStep o v.st w tris (c - n)
        if c + 1 < n + x.storeChunks.length then return y
        let t := (v.st.team? o.tid).getD default
        let pairs := x.pairs (y.keep o.seen)
        let key := fragmentKey bs (t.party o.slot 0 true)
        let pack (s : State) : State :=
          s.packFragments t.core ⟨o.ctx, t.serial, x.target⟩ x key tris pairs (x.fragments pairs)
        return { y with after := pack }
  | _ => return {}
/-- The steps of a `rast`. -/
def rastTotal (o : Op) : Nat := match o.kind with
  | .rast bs _ => (tileDesc bs).listChunks.length + (tileDesc bs).storeChunks.length
  | _ => 0
/-- RAST_COMPLETION (R292): the operation's next step, and with the last its completion. -/
def execRastCompletion (id : Nat) (s : State) : Out :=
  match (s.op? id).map (·.kind) with
  | some (OpKind.rast _ _) => .next (s.runOp id (fun _ => false) rastTotal evalRast)
  | _ => .next s

end Sys2Proof.Machine
end

