-- ==== Sys2Proof/Machine/HostPort.lean ====
section
/-! DEFINITION. The host port: replies to the package's requests, launches, windows, drains and supplies, connections that
time out and fail, and the manifest's waits (R309, R348, R365, R366, R372 to R375). -/
namespace Sys2Proof.Machine

/-! ## Replies -/

/-- HOST_LINE_REPLY (R348): the host's reply to LREAD, LWRITE or LATOM. -/
def execHostLineReply (h : MsgHdr) (req : Nat) (x : Answer) (s : State) : Out :=
  match s.takeReply h with
  | (s, false) => .next s
  | (s, true) => .next (s.answer .host req x.stat x.data).resume

/-! ## Launches, windows, drains and supplies (R309, R374, R375)

What each host message does once it is taken; HostQueue.lean takes them. -/

/-- LAUNCH_MESSAGE (R309, R374): a record of 64 bytes is held until its acceptance point. -/
def State.doLaunch (s : State) (h : MsgHdr) (record : List Byte) : State :=
  match s.context? h.ctx with
  | none => s.answerHost h 1 5 (statusPair { (default : Context) with num := h.ctx } 5)
  | some c =>
    if record.length != 64 then s.answerHost h 1 0xFFFF []
    else if c.secure != h.secure then s.answerHost h 1 2 []
    else s.holdMsg .host h.ctx (.launch record)
/-- WOPEN: a window is opened, closed, or refused as invalid. -/
def State.doWopen (s : State) (h : MsgHdr) (win : Nat) (base : DWord) (units : Nat) : State :=
  s.withContext h 6 fun s c =>
    if 15 < win || base.toNat % 65536 != 0 || !canonical base then s.answerHost h 6 1 []
    else
      let s := s.modContext c.num fun c =>
        let rest := c.windows.filter (·.win != win)
        { c with windows := if units = 0 then rest else ⟨win, base, 65536 * units⟩ :: rest }
      s.answerHost h 6 0 []
/-- The address of n bytes of a window; the STAT that refuses them. -/
def Context.windowAt (c : Context) (win off n : Nat) : Except Nat DWord :=
  if n < 1 || 128 < n || 128 < off % 128 + n then .error 0xFFFF
  else match c.windows.find? (·.win == win) with
    | none => .error 4
    | some w => if w.bytes < off + n then .error 2 else .ok (w.base + .ofNat 64 off)
/-- WREAD: one host line read. -/
def State.doWread (s : State) (h : MsgHdr) (win off len : Nat) : State :=
  s.withContext h 7 fun s c =>
    match c.windowAt win off len with
    | .error st => s.answerHost h 7 st []
    | .ok va => s.holdMsg .host h.ctx (.read 7 va len)
/-- WWRITE: one host line write. -/
def State.doWwrite (s : State) (h : MsgHdr) (win off : Nat) (data : List Byte) : State :=
  s.withContext h 8 fun s c =>
    match c.windowAt win off data.length with
    | .error st => s.answerHost h 8 st []
    | .ok va => s.holdMsg .host h.ctx (.write 8 va data)
/-- DRAIN (R283, R358). -/
def State.doDrain (s : State) (h : MsgHdr) (ring max : Nat) : State :=
  s.withContext h 11 fun s c => s.holdMsg .host c.num (.drain ring max)
/-- SUPPLY (R358). -/
def State.doSupply (s : State) (h : MsgHdr) (records : List (List Byte)) : State :=
  s.withContext h 12 fun s c =>
    if 32 < records.length || records.any (·.length != 32) then s.answerHost h 12 0xFFFF []
    else s.holdMsg .host c.num (.supply records)
/-- UNKNOWN_MESSAGE (R374): a message of an unknown kind, or of a bad layout. -/
def State.doUnknown (s : State) (h : MsgHdr) (kind : Nat) : State := s.answerHost h kind 0xFFFF []

/-- FRAME_DISCARD (R372, R377): a discarded frame has no effect. -/
def execFrameDiscard (_ : DiscardReason) (s : State) : Out := .next s

/-! ## Connections that fail (R373) -/

/-- RETRANSMIT_TIMEOUT: a sender without progress sends again from its oldest unacknowledged message, at most 16 times. -/
def execRetransmitTimeout (conn : ConnId) (s : State) : Out :=
  let c := s.conn conn
  if c.queue.isEmpty || c.down || 16 ≤ c.retries then .next s
  else
    let again := c.queue.map fun f => { f with ack := c.expect }
    .next ({ s with wire := s.wire ++ again }.setConn { c with retries := c.retries + 1 })
/-- CONNECTION_DOWN: after 16 retransmissions the connection is down, and what waits on it fails. -/
def execConnectionDown (conn : ConnId) (s : State) : Out :=
  let c := s.conn conn
  if c.queue.isEmpty || c.down || c.retries < 16 then .next s else
  let s := s.setConn { c with down := true }
  let s := match conn with
    | .host => s.event 2 0xFF 0
    | .peer dev => s.event 3 0xFF (.ofNat 32 dev)
  let waiting := (s.requests.filter (·.conn == conn)).map (·.id)
  .next (waiting.foldl (fun s id => s.answer conn id 5 []) s).resume

/-! ## The manifest's waits (R365, R366) -/

/-- What an engine operation does next: its completion, or that of each of its rays. -/
def Op.steps (o : Op) : List (State → Out) :=
  match o.kind with
  | .cpy .. => [Sys2Proof.Machine.execCopyCompletion o.id]
  | .cpyt .. => [Sys2Proof.Machine.execCopyCompletion o.id]
  | .rows .. => [Sys2Proof.Machine.execCopyCompletion o.id]
  | .xfer put _ _ _ _ _ => [if put then Sys2Proof.Machine.execNputCompletion o.id else Sys2Proof.Machine.execNgetCompletion o.id]
  | .nred .. => [Sys2Proof.Machine.execNredCompletion o.id]
  | .adrn .. => [Sys2Proof.Machine.execAdrnDrainApply o.id]
  | .bcl .. => [Sys2Proof.Machine.execBclCompletion o.id]
  | .prn .. => [Sys2Proof.Machine.execPrnCompletion o.id]
  | .mrch _ _ _ _ _ _ _ rays => rays.map fun x => Sys2Proof.Machine.execRayMarchEnd o.id x.f
  | .rast .. => [Sys2Proof.Machine.execRastCompletion o.id]
/-- A step that changes something. -/
def changes (f : State → Out) (s : State) : Bool :=
  match f s with
  | .next t => t != s
  | _ => false
/-- REPLAY_MATCH (R366): a held event is offered again: a group has the next turn, an operation or a host launch tries to
complete. -/
def execReplayMatch (who : HeldBy) (s : State) : Out :=
  match who with
  | .group g => if s.waitOf g = .manifest then .next { s with turns := g :: s.turns } else .next s
  | .engine id => match (s.op? id).bind fun o => o.steps.find? (changes · s) with
    | some f => f s
    | none => .next s
  | .hostLaunch c => if s.held.any fun h => h.ctx == c && (match h.msg with | .launch _ => true | _ => false) then .next s.retryHeld
    else .next s
/-- A step that the manifest holds: it changes nothing now, and would in a context that neither records nor replays (R364, R366). -/
def State.heldStep (s : State) (c : Nat) (f : State → Out) : Bool :=
  !changes f s && changes f (s.modContext c fun x => { x with recMode := 0 })
/-- An operation that the manifest holds: a step of it, or the arrival of its contribution at this package's own staging. -/
def State.heldOp (s : State) (c : Nat) (o : Op) : Bool :=
  (!o.captured && o.waits.isEmpty && o.steps.any (s.heldStep c ·))
    || s.held.any fun h => h.gated && (match h.msg with | .contribute _ _ own => own == some o.id | _ => false)
/-- A ray of a team that the manifest holds. -/
def State.heldRay (s : State) (t : Team) : Bool :=
  s.rays.any fun x => x.ctx == t.ctx && x.party.serial == t.serial && x.party.team == t.lin && x.party.cont == t.cont
    && x.waits.isEmpty && s.heldStep t.ctx (Sys2Proof.Machine.execTraversalEnd x.id)
/-- HEAD of a context's manifest, free when it cannot be read (log entry 10). -/
def State.headOf (s : State) (c : Context) : DWord × State :=
  match s.maniCount c 0x10 with
  | some h => (.ofNat 64 h, s)
  | none =>
    let (lo, s) := s.freeWord
    let (hi, s) := s.freeWord
    (hi ++ lo, s)
/-- MANIFEST_STALL (R365): every group that waits for a record takes `manifest-stall`, one whose accesses owners have already
performed at the boundary after them; when none does, group 0 of every team whose operation or ray waits takes it at its next
boundary. -/
def execManifestStall (ctx : Nat) (s : State) : Out :=
  match s.context? ctx with
  | none => .next s
  | some c =>
    if c.recMode = 0 || c.maniStall = 0 then .next s else
    let teams := s.teams.filter (·.ctx == ctx)
    let waiting : List GRef := teams.flatMap fun t => (List.range t.groups.length).filterMap fun i =>
      match t.groups[i]? with
      | some g => if g.wait = .manifest && !g.priv then some ⟨t.tid, i⟩ else none
      | none => none
    let (hd, s) := s.headOf c
    let trap : Trap := ⟨.manifestStall, 0, hd⟩
    if !waiting.isEmpty then .next (waiting.foldl (fun s r =>
        if ((s.group? r).map Group.doneAway).getD false then s.dueTrap r trap else s.takeTrap r trap) s)
    else
      let due := teams.filter fun t => s.heldRay t || s.ops.any fun o => o.tid == t.tid && s.heldOp ctx o
      .next (due.foldl (fun s t => s.dueTrap ⟨t.tid, 0⟩ trap) s)

end Sys2Proof.Machine
end

