-- ==== Sys2Proof/Machine/Sha.lean ====
section
/-! DEFINITION. SHA-512 and the RSASSA-PSS check of RFC 8017 by which firmware is judged and measurements are extended
(R403, R404; the algorithms are those the spec names, log entry 20). -/
namespace Sys2Proof.Machine

/-! ## SHA-512 -/

/-- The bytes of a word, most significant first. -/
def natBe (n v : Nat) : List Byte := (natLe n v).reverse
/-- The number whose bytes, most significant first, these are. -/
def beNat (bs : List Byte) : Nat := leNat bs.reverse

/-- Round constants 0 to 15. -/
def shaK0 : List DWord :=
  [0x428A2F98D728AE22, 0x7137449123EF65CD, 0xB5C0FBCFEC4D3B2F, 0xE9B5DBA58189DBBC,
   0x3956C25BF348B538, 0x59F111F1B605D019, 0x923F82A4AF194F9B, 0xAB1C5ED5DA6D8118,
   0xD807AA98A3030242, 0x12835B0145706FBE, 0x243185BE4EE4B28C, 0x550C7DC3D5FFB4E2,
   0x72BE5D74F27B896F, 0x80DEB1FE3B1696B1, 0x9BDC06A725C71235, 0xC19BF174CF692694]
/-- Round constants 16 to 31. -/
def shaK1 : List DWord :=
  [0xE49B69C19EF14AD2, 0xEFBE4786384F25E3, 0x0FC19DC68B8CD5B5, 0x240CA1CC77AC9C65,
   0x2DE92C6F592B0275, 0x4A7484AA6EA6E483, 0x5CB0A9DCBD41FBD4, 0x76F988DA831153B5,
   0x983E5152EE66DFAB, 0xA831C66D2DB43210, 0xB00327C898FB213F, 0xBF597FC7BEEF0EE4,
   0xC6E00BF33DA88FC2, 0xD5A79147930AA725, 0x06CA6351E003826F, 0x142929670A0E6E70]
/-- Round constants 32 to 47. -/
def shaK2 : List DWord :=
  [0x27B70A8546D22FFC, 0x2E1B21385C26C926, 0x4D2C6DFC5AC42AED, 0x53380D139D95B3DF,
   0x650A73548BAF63DE, 0x766A0ABB3C77B2A8, 0x81C2C92E47EDAEE6, 0x92722C851482353B,
   0xA2BFE8A14CF10364, 0xA81A664BBC423001, 0xC24B8B70D0F89791, 0xC76C51A30654BE30,
   0xD192E819D6EF5218, 0xD69906245565A910, 0xF40E35855771202A, 0x106AA07032BBD1B8]
/-- Round constants 48 to 63. -/
def shaK3 : List DWord :=
  [0x19A4C116B8D2D0C8, 0x1E376C085141AB53, 0x2748774CDF8EEB99, 0x34B0BCB5E19B48A8,
   0x391C0CB3C5C95A63, 0x4ED8AA4AE3418ACB, 0x5B9CCA4F7763E373, 0x682E6FF3D6B2B8A3,
   0x748F82EE5DEFB2FC, 0x78A5636F43172F60, 0x84C87814A1F0AB72, 0x8CC702081A6439EC,
   0x90BEFFFA23631E28, 0xA4506CEBDE82BDE9, 0xBEF9A3F7B2C67915, 0xC67178F2E372532B]
/-- Round constants 64 to 79. -/
def shaK4 : List DWord :=
  [0xCA273ECEEA26619C, 0xD186B8C721C0C207, 0xEADA7DD6CDE0EB1E, 0xF57D4F7FEE6ED178,
   0x06F067AA72176FBA, 0x0A637DC5A2C898A6, 0x113F9804BEF90DAE, 0x1B710B35131C471B,
   0x28DB77F523047D84, 0x32CAAB7B40C72493, 0x3C9EBE0A15C9BEBC, 0x431D67C49C100D4C,
   0x4CC5D4BECB3E42B6, 0x597F299CFC657E2A, 0x5FCB6FAB3AD6FAEC, 0x6C44198C4A475817]
/-- The eighty round constants. -/
def shaK : List DWord := shaK0 ++ shaK1 ++ shaK2 ++ shaK3 ++ shaK4
/-- The initial hash value. -/
def shaInit : List DWord :=
  [0x6A09E667F3BCC908, 0xBB67AE8584CAA73B, 0x3C6EF372FE94F82B, 0xA54FF53A5F1D36F1,
   0x510E527FADE682D1, 0x9B05688C2B3E6C1F, 0x1F83D9ABFB41BD6B, 0x5BE0CD19137E2179]

/-- One more word of the message schedule: from the last sixteen, oldest first. -/
def shaNext (w : List DWord) : DWord :=
  let a := w.getD 1 0
  let b := w.getD 14 0
  (b.rotateRight 19 ^^^ b.rotateRight 61 ^^^ b >>> 6) + w.getD 9 0
    + (a.rotateRight 1 ^^^ a.rotateRight 8 ^^^ a >>> 7) + w.getD 0 0
/-- A round over the eight working words. -/
def shaRound (h : List DWord) (kw : DWord) : List DWord :=
  match h with
  | [a, b, c, d, e, f, g, x] =>
    let t1 := x + (e.rotateRight 14 ^^^ e.rotateRight 18 ^^^ e.rotateRight 41) + ((e &&& f) ^^^ (~~~e &&& g)) + kw
    let t2 := (a.rotateRight 28 ^^^ a.rotateRight 34 ^^^ a.rotateRight 39) + ((a &&& b) ^^^ (a &&& c) ^^^ (b &&& c))
    [t1 + t2, a, b, c, d + t1, e, f, g]
  | h => h
/-- The rounds of a block: the working words and the window of the schedule. -/
def shaRounds (h w : List DWord) : List DWord → List DWord
  | [] => h
  | k :: ks => shaRounds (shaRound h (k + w.headD 0)) (w.drop 1 ++ [shaNext w]) ks
/-- Taking in one block of 128 bytes. -/
def shaBlock (h : List DWord) (block : List Byte) : List DWord :=
  let w : List DWord := (List.range 16).map fun i => .ofNat 64 (beNat ((block.drop (8 * i)).take 8))
  (h.zip (shaRounds h w shaK)).map fun (a, b) => a + b
/-- Taking in the first blocks. -/
def shaBlocks : Nat → List DWord → List Byte → List DWord
  | 0, h, _ => h
  | n + 1, h, bs => shaBlocks n (shaBlock h (bs.take 128)) (bs.drop 128)
/-- A message with its padding. -/
def shaPad (bs : List Byte) : List Byte :=
  bs ++ 0x80 :: List.replicate ((239 - bs.length % 128) % 128) 0 ++ natBe 16 (8 * bs.length)
/-- The SHA-512 digest, 64 bytes. -/
def sha512 (bs : List Byte) : List Byte :=
  let m := shaPad bs
  (shaBlocks (m.length / 128) shaInit m).flatMap fun w => natBe 8 w.toNat
/-- A measurement register as bytes. -/
def measBytes (m : BitVec 512) : List Byte := natBe 64 m.toNat
/-- Extending a measurement register (R404). -/
def extend (m : BitVec 512) (value : List Byte) : BitVec 512 := .ofNat 512 (beNat (sha512 (measBytes m ++ value)))

/-! ## RSASSA-PSS with SHA-512, MGF1 and a salt of 64 bytes (R403, RFC 8017) -/

/-- x to the power 2^k modulo n. -/
def squarings (n : Nat) : Nat → Nat → Nat
  | 0, x => x
  | k + 1, x => squarings n k (x * x % n)
/-- x to the power 65,537 modulo n. -/
def rsaPublic (n x : Nat) : Nat := squarings n 16 (x % n) * x % n
/-- The first `n` bytes of a mask (MGF1). -/
def maskBytes (seed : List Byte) (n : Nat) : List Byte :=
  ((List.range ((n + 63) / 64)).flatMap fun i => sha512 (seed ++ natBe 4 i)).take n
/-- x to the power d modulo n; d has at most k bits. -/
def rsaPower (n : Nat) : Nat → Nat → Nat → Nat
  | 0, _, _ => 1 % n
  | k + 1, d, x =>
    let y := rsaPower n k (d / 2) (x * x % n)
    if d % 2 = 1 then y * x % n else y
/-- The 512 bytes that encode the digest of a message under a salt. -/
def pssEncode (digest salt : List Byte) : List Byte :=
  let h := sha512 (List.replicate 8 0 ++ digest ++ salt)
  let mixed : List Byte := ((List.replicate 382 0 ++ 1 :: salt).zip (maskBytes h 447)).map fun (a, b) => a ^^^ b
  (match mixed with
    | b :: rest => (b &&& 0x7F) :: rest
    | [] => []) ++ h ++ [0xBC]
/-- A 4,096-bit signature of a message, by a private exponent and with a salt. -/
def pssSign (n d : Nat) (message salt : List Byte) : List Byte := natBe 512 (rsaPower n 4096 d (beNat (pssEncode (sha512 message) salt)))
/-- Whether 512 bytes encode the digest of a message. -/
def pssEncodes (digest em : List Byte) : Bool :=
  let masked := em.take 447
  let h := (em.drop 447).take 64
  let mixed := (masked.zip (maskBytes h 447)).map fun (a, b) => a ^^^ b
  let db := match mixed with
    | b :: rest => (b &&& 0x7F) :: rest
    | [] => []
  em.getD 511 0 == 0xBC && (masked.headD 0).getLsbD 7 == false && (db.take 382).all (· == 0) && db.getD 382 0 == 1
    && sha512 (List.replicate 8 0 ++ digest ++ db.drop 383) == h
/-- A 4,096-bit signature verifies over a message. -/
def pssVerify (modulus message signature : List Byte) : Bool :=
  let n := beNat modulus
  let x := beNat signature
  2 ^ 4095 ≤ n && x < n && pssEncodes (sha512 message) (natBe 512 (rsaPublic n x))

end Sys2Proof.Machine
end

