-- ==== Sys2Proof/Machine/Mgmt.lean ====
section
/-! DEFINITION. The management operations: contexts, the job table, discovery, rings, health, identity, worlds, firmware and
repair (R307, R308, R350, R377, R394, R395, R397, R398, R400 to R405, R409). -/
namespace Sys2Proof.Machine

/-! ## Taking a management message (R402, R409) -/

/-- The reply of a management operation, in the world that asked. -/
def State.mgmtReply (s : State) (h : MsgHdr) (st : Nat) (data : List Byte := []) : State := s.reply .host 14 0xFF st data h.secure
/-- A management operation: `marked` when the secure world alone may ask for it, `always` when recovery mode accepts it. -/
def State.manage (s : State) (h : MsgHdr) (marked always : Bool) (f : State → State) : State :=
  if s.boot.recov then (if always then f s else s.mgmtReply h 2)
  else if marked && !h.secure then s.mgmtReply h 2 else f s

/-! ## Contexts (R307, R308, R344, R358, R402) -/

/-- Every 64 KiB page of an area is mapped to device memory that the context may read and write. -/
def State.areaHere (s : State) (c : Context) : Nat → DWord → Bool
  | 0, _ => true
  | n + 1, va =>
    canonical va && (match s.translate c va .rmw with
      | .ok l => l.own == 0
      | .error _ => false) && s.areaHere c n (va + 65536)
/-- The pages that n bytes from an address touch. -/
def pagesOf (va : DWord) (n : Nat) : Nat := (va.toNat % 65536 + n + 65535) / 65536
/-- The control block of a manifest, as the landing die reads it at creation; none when it cannot be read or is poisoned (R358). -/
def State.controlBlock (s : State) (c : Context) : Option (List Byte) :=
  if (s.peekPoison c c.mani 64).isSome then none else (s.peek c c.mani 64).toOption
/-- The manifest area of a descriptor: BASE, LOG2N and STALL of its control block, when the block keeps its layout and the area
is resident (R358). -/
def State.manifestArea (s : State) (c : Context) : Option (DWord × Nat × Nat) :=
  if c.mani.toNat % 64 != 0 || !s.areaHere c 1 c.mani then none else
  match s.controlBlock c with
  | none => none
  | some bs =>
    let base : DWord := .ofNat 64 (bytesAt bs 0 8)
    let log := bytesAt bs 8 4
    if base.toNat % 65536 == 0 && 12 ≤ log && log ≤ 28 && bytesAt bs 32 32 == 0 && s.areaHere c (pagesOf base (32 * 2 ^ log)) base then
      some (base, log, bytesAt bs 12 4)
    else none
/-- Queue entries named by queue configuration words. -/
def entriesOf (qs : List Word) : Nat := (qs.map fun q => q.toNat % 2 ^ 13).sum
/-- The context a descriptor describes; none when R307 or R308 refuses it. -/
def State.described (s : State) (num : Nat) (secure : Bool) (root : DWord) (d : List Byte) : Option Context :=
  let ctl := bytesAt d 0 4
  let qs : List Word := (List.range 16).map fun i => .ofNat 32 (bytesAt d (0x40 + 4 * i) 4)
  let addr (off : Nat) : DWord := .ofNat 64 (bytesAt d off 8)
  let c : Context := { (default : Context) with
    num := num, secure := secure, recMode := ctl, pinq := bytesAt d 4 4, code := addr 8, const := addr 0x10, constSz := bytesAt d 0x18 4
    save := addr 0x20, saveSz := bytesAt d 0x28 8, mani := addr 0x30, wpr := addr 0x38, qcfg := qs, l0 := root.toNat, nextSerial := 1 }
  if 2 < ctl || 65535 < c.pinq || c.code.toNat % 65536 != 0 || c.const.toNat % 16 != 0 || 65536 < c.constSz
      || bytesAt d 0x1C 4 != 0 || c.save.toNat % 65536 != 0 || (ctl == 0 && c.mani != 0)
      || qs.any (fun q => q.extractLsb' 19 13 != 0 || q.extractLsb' 13 3 != 0 || 4096 < q.toNat % 2 ^ 13)
      || 16384 < (s.contexts.map fun x => entriesOf x.qcfg).sum + entriesOf qs
      || root.toNat % 4096 != 0 || s.memBytes < root.toNat + 4096 || !s.areaHere c (pagesOf c.save c.saveSz) c.save then none
  else if ctl = 0 then some c
  else (s.manifestArea c).map fun (base, log, stall) => { c with maniBase := base, maniLog := log, maniStall := stall }
/-- Extending measurement register k (R404). -/
def State.measure (s : State) (k : Nat) (value : List Byte) : State :=
  { s with meas := s.meas.modify k fun m => extend m value }
/-- CREATE. -/
def State.doCreate (s : State) (h : MsgHdr) (ctx world : Nat) (pad : BitVec 48) (root : DWord) (desc : List Byte) : State :=
  s.manage h true false fun s =>
    if desc.length != 128 then s.mgmtReply h 0xFFFF
    else if (s.context? ctx).isSome then s.mgmtReply h 3
    else if Config.contexts ≤ ctx || 1 < world || pad != 0 then s.mgmtReply h 1
    else match s.described ctx (world == 1) root desc with
      | none => s.mgmtReply h 1
      | some c =>
        let operands := natLe 1 ctx ++ natLe 1 world ++ natLe 6 pad.toNat ++ natLe 8 root.toNat ++ desc
        -- its logical clocks start at 0 (R239)
        ({ s with
          contexts := s.contexts ++ [c]
          clocks := s.clocks.filter fun k => k.1 / 4096 != ctx }.measure 3 operands).mgmtReply h 0
/-- A context ceases to exist: the effects of its loss, and nothing of it stays (R308, R342). -/
def State.removeContext (s : State) (c : Nat) : State :=
  let s := s.dropContext c
  { s with
    contexts := s.contexts.filter (·.num != c)
    grids := s.grids.filter (·.ctx != c)
    migs := s.migs.filter (·.ctx != c) }
/-- DESTROY. -/
def State.doDestroy (s : State) (h : MsgHdr) (ctx : Nat) : State :=
  s.manage h true false fun s =>
    if (s.context? ctx).isNone then s.mgmtReply h 1 else ((s.removeContext ctx).mgmtReply h 0).retryHeld

/-! ## The job table, MIGCTL and discovery (R350, R377, R395) -/

/-- JOBSET. -/
def State.doJobset (s : State) (h : MsgHdr) (index ndev : Nat) (pre : DWord) : State :=
  s.manage h true false fun s =>
    if 1 ≤ ndev ∧ ndev ≤ 786432 ∧ index < ndev then { s with job := ⟨index, ndev, pre⟩ }.mgmtReply h 0 else s.mgmtReply h 1
/-- Posting the requests of pages whose counts reach the threshold (R350). -/
def State.postReached (s : State) : State :=
  let log2t := s.migctl.toNat % 32
  if log2t < 8 || 24 < log2t then s else
  s.contexts.foldl (fun s c => c.counters.foldl (fun s (page, n) =>
    match s.pageLeaf c (.ofNat 64 page) with
    | some l => if 2 ^ log2t ≤ n then s.postMig c l page else s
    | none => s) s) s
/-- MIGSET. -/
def State.doMigset (s : State) (h : MsgHdr) (val : Word) : State :=
  s.manage h true false fun s => ({ s with migctl := val &&& 0x1F } : State).postReached.mgmtReply h 0

/-- A mask of the numbers below n that are not in a list. -/
def maskOf (n : Nat) (off : List Nat) : Nat := ((List.range n).map fun i => if off.contains i then 0 else 2 ^ i).sum
/-- A core is enabled (R396). -/
def State.coreEnabled (s : State) (core : Nat) : Bool :=
  !s.disabled.cores.contains core && !s.disabled.dies.contains (dieOf core)
/-- The enabled cores. -/
def State.enabledCores (s : State) : List Nat := (List.range Config.cores).filter s.coreEnabled
/-- `dsc.part` (R395). -/
def State.partWord (s : State) : Nat := 65536 + s.enabledCores.length
/-- `dsc.boot` (R395). -/
def Boot.word (b : Boot) : Nat := b.step % 256 * 65536 + b.fail % 256 * 256 + b.recov.toNat * 2 + b.ready.toNat
/-- The records dropped from a die's error ring. -/
def State.errLostOf (s : State) (die : Nat) : Nat := assoc s.errLost die 0
/-- A discovery word (R395). -/
def State.discWord (s : State) (i : Nat) : Word :=
  let dies := maskOf Config.dies s.disabled.dies
  .ofNat 32 (
    if i = 0 then s.partWord
    else if i = 1 then dies + 256 * maskOf Config.dies s.fused.dies + 65536
    else if i < 0x26 then ((List.range 32).map fun k => if s.coreEnabled (32 * (i - 2) + k) then 2 ^ k else 0).sum
    else if i = 0x26 then maskOf Config.channels s.disabled.channels
    else if i = 0x27 then maskOf Config.channels s.disabled.channels / 2 ^ 32
    else if i = 0x28 then 1 + 2 * maskOf 16 s.disabled.ports
    else if i = 0x29 then 4096 * (Config.channels - s.disabled.channels.length)
    else if i = 0x2A then 768 * (Config.dies - s.disabled.dies.length)
    else if i = 0x2C then s.svn
    else if i = 0x2D then s.strap.toNat
    else if 0x30 ≤ i ∧ i ≤ 0x38 then s.errLostOf (i - 0x30)
    else if i = 0x39 then s.evLost
    else if i = 0x40 then s.boot.word
    else 0)
/-- DISC. -/
def State.doDisc (s : State) (h : MsgHdr) (first count : Nat) : State :=
  s.manage h false true fun s =>
    if 1 ≤ count ∧ count ≤ 256 then s.mgmtReply h 0 (wordBytes ((List.range count).map fun i => s.discWord (first + i)))
    else s.mgmtReply h 0xFFFF

/-! ## Rings and health (R394, R398, R402) -/

/-- The 32 bytes of an error record. -/
def ErrRec.bytes (e : ErrRec) : List Byte :=
  natLe 8 e.time.toNat ++ natLe 1 e.sev ++ natLe 1 e.src ++ natLe 2 e.loc ++ natLe 1 e.ctx ++ natLe 3 0 ++ natLe 8 e.addr.toNat
    ++ natLe 4 e.det.toNat ++ natLe 4 e.count
/-- The 32 bytes of an event record. -/
def EvRec.bytes (e : EvRec) : List Byte :=
  natLe 8 e.time.toNat ++ natLe 1 e.kind ++ natLe 1 e.ctx ++ natLe 2 0 ++ natLe 4 e.detail.toNat ++ natLe 16 0
/-- ERRDRAIN. -/
def State.doErrdrain (s : State) (h : MsgHdr) (die count : Nat) : State :=
  s.manage h true false fun s =>
    if die ≤ 8 ∧ 1 ≤ count ∧ count ≤ 32 then
      let mine := s.errsOf die
      let t : State := { s with
        errRings := s.errRings.filter (·.1 != die) ++ (mine.drop count).map fun e => (die, e)
        errWarned := s.errWarned.filter (· != die) }
      t.mgmtReply h 0 ((mine.take count).flatMap ErrRec.bytes)
    else s.mgmtReply h 0xFFFF
/-- EVDRAIN. -/
def State.doEvdrain (s : State) (h : MsgHdr) (count : Nat) : State :=
  s.manage h true false fun s =>
    if 1 ≤ count ∧ count ≤ 32 then { s with events := s.events.drop count }.mgmtReply h 0 ((s.events.take count).flatMap EvRec.bytes)
    else s.mgmtReply h 0xFFFF
/-- A die's indicators, one reading for each hour, newest first, back to hour 0 (R398; log entry 48). -/
def Health.readings (x : Health) (die : Nat) : List (Nat × Nat × Nat) := x.hist ++ [Config.wear0 die]
/-- The 32 bytes of a die's health. -/
def Health.bytes (x : Health) (die : Nat) : List Byte :=
  let (rod, vmm, emc) := (x.readings die).headD (0, 0, 0)
  natLe 2 x.temp.toNat ++ natLe 2 x.vcore.toNat ++ natLe 4 x.pwr.toNat ++ natLe 2 rod ++ natLe 2 vmm ++ natLe 4 emc ++ natLe 4 x.poh
    ++ natLe 4 x.eol ++ natLe 8 0
/-- A die's health. -/
def State.healthOf (s : State) (die : Nat) : Health := s.health.getD die Health.new
/-- HEALTH. -/
def State.doHealth (s : State) (h : MsgHdr) (die : Nat) : State :=
  s.manage h false true fun s => if die ≤ 8 then s.mgmtReply h 0 ((s.healthOf die).bytes die) else s.mgmtReply h 0xFFFF

/-! ## Identity (R404, R405) -/

/-- The modulus of the identity key, big-endian (R404). -/
def identityPub : List Byte := natBe 512 Config.identityModulus
/-- CERT: bytes of the certificate issued for the identity key's public part, which the manual does not give (log entry 5). -/
def State.doCert (s : State) (h : MsgHdr) (off len : Nat) : State :=
  s.manage h false false fun s =>
    if 1 ≤ len ∧ len ≤ 1016 then s.mgmtReply h 0 ((List.range len).map fun i => Config.certByte identityPub (off + i)) else s.mgmtReply h 0xFFFF
/-- The quoted bytes 0x000 to 0x15F. -/
def State.quoteBytes (s : State) (nonce : List Byte) : List Byte :=
  natLe 4 1 ++ natLe 4 s.svn ++ natLe 4 s.partWord ++ natLe 4 s.quotes ++ natLe 8 (s.healthOf 8).poh ++ natLe 8 0 ++ nonce
    ++ s.meas.flatMap measBytes
/-- QUOTE: the quoted bytes and their signature by the identity key; its salt is free (log entry 5). -/
def State.doQuote (s : State) (h : MsgHdr) (nonce : List Byte) : State :=
  s.manage h false false fun s =>
    if nonce.length != 64 then s.mgmtReply h 0xFFFF
    else
      let s := { s with quotes := s.quotes + 1, free := s.free + 1 }
      let bs := s.quoteBytes nonce
      s.mgmtReply h 0 (bs ++ pssSign Config.identityModulus Config.identityExponent bs ((List.range 64).map (Config.saltByte s.free)))

/-! ## Worlds (R400, R401) -/

/-- Adding or removing a number. -/
def setWorld (l : List Nat) (k : Nat) (secure : Bool) : List Nat :=
  if secure then (if l.contains k then l else k :: l) else l.filter (· != k)
/-- A core holds a team, its rays or continuations, or lies where room is reserved. -/
def State.coreBusy (s : State) (core : Nat) : Bool :=
  !(s.teamsOn core).isEmpty || s.rays.any (·.core == core) || s.conts.any (·.core == core)
    || (s.contexts.any fun c => c.secure == s.secCores.contains core && (s.reserved c (dieOf core)).any (· != 0))
    || s.claims.any fun k => s.worldOf k.ctx == s.secCores.contains core && k.at_ == (if k.convoy then dieOf core else core)
/-- A port has a connection with outstanding messages. -/
def State.portBusy (s : State) (port : Nat) : Bool :=
  s.conns.any (fun c => match c.id with
    | .peer d => !c.queue.isEmpty && s.portOf d == some port
    | .host => false)
  || s.requests.any fun q => match q.conn with
    | .peer d => s.portOf d == some port
    | .host => false
/-- WORLDB: a core or a port changes its world; a core's SRAM is cleared. -/
def State.doWorldb (s : State) (h : MsgHdr) (kind idx world : Nat) : State :=
  s.manage h true false fun s =>
    let done (s : State) : State := (s.measure 2 (Config.operandBytes [11, kind, idx, world])).mgmtReply h 0
    if 1 < world then s.mgmtReply h 0xFFFF
    else if kind = 0 ∧ idx < Config.cores ∧ s.coreEnabled idx then
      if s.coreBusy idx then s.mgmtReply h 3
      else done { s with secCores := setWorld s.secCores idx (world == 1), bricks := s.bricks.filter (·.core != idx) }
    else if kind = 1 ∧ idx < 16 ∧ !s.disabled.ports.contains idx then
      if s.portBusy idx then s.mgmtReply h 3 else done { s with secPorts := setWorld s.secPorts idx (world == 1) }
    else s.mgmtReply h 0xFFFF
/-- Device memory from an address becomes zero, without poison and without copies. -/
def State.wipe (s : State) (a n : Nat) : State :=
  { s with
    mem := s.mem.clear a n
    poison := s.poison.filter fun g => 64 * g < a || a + n ≤ 64 * g
    dirBad := s.dirBad.filter fun t => 2048 * t < a || a + n ≤ 2048 * t
    bricks := s.bricks.filter fun b => (b.addr + 2048 ≤ a || a + n ≤ b.addr) && (b.map < a || a + n ≤ b.map)
    tdir := s.tdir.map fun t => if 128 * t.line < a || a + n ≤ 128 * t.line then t else { t with sharers := [], marks := [] } }
/-- WORLDR: a run of regions changes its world and reads zero. It is performed once no access still uses a table entry there (R356; HostQueue.lean). -/
def State.doWorldr (s : State) (h : MsgHdr) (first count world : Nat) : State :=
  s.manage h true false fun s =>
    if count < 1 || 65536 < count || 1 < world then s.mgmtReply h 0xFFFF
    else if s.memBytes < 2097152 * (first + count) then s.mgmtReply h 1
    else
      let s := s.wipe (2097152 * first) (2097152 * count)
      let s := { s with secRegions := (List.range count).foldl (fun l i => setWorld l (first + i) (world == 1)) s.secRegions }
      ((s.measure 2 (Config.operandBytes [12, first, count, world])).mgmtReply h 0).retryHeld

/-! ## Firmware, repair and power (R397, R402, R403) -/

/-- FWLOAD. -/
def State.doFwload (s : State) (h : MsgHdr) (off : Nat) (data : List Byte) : State :=
  s.manage h true true fun s =>
    if 1012 < data.length then s.mgmtReply h 0xFFFF
    else if Config.fwBytes < off + data.length then s.mgmtReply h 1
    else { s with fwStage := s.fwStage.write off data }.mgmtReply h 0
/-- A field of an image. -/
def Memory.word (m : Memory) (off : Nat) : Nat := leNat (m.read off 4)
/-- The bytes of "SEILEFW1". -/
def fwMagic : List Byte := [0x53, 0x45, 0x49, 0x4C, 0x45, 0x46, 0x57, 0x31]
/-- An image is signed and whole (R403). -/
def Memory.signedImage (m : Memory) : Bool :=
  let pub := m.read 0x10 512
  let len := m.word 0x0C
  m.read 0 8 == fwMagic && m.word 8 ≤ 63 && 0x450 + len ≤ Config.fwBytes && sha512 pub == measBytes Config.rootDigest
    && pssVerify pub (m.read 0 0x250) (m.read 0x250 512) && m.read 0x210 64 == sha512 (m.read 0x450 len)
/-- FWCOMMIT. -/
def State.doFwcommit (s : State) (h : MsgHdr) : State :=
  s.manage h true true fun s =>
    let svn := s.fwStage.word 8
    if !s.fwStage.signedImage then s.mgmtReply h 1
    else if svn < s.svn then s.mgmtReply h 4
    else ({ s with fwFlash := some (s.fwStage, svn) }.event 8 0xFF (.ofNat 32 svn)).mgmtReply h 0
/-- REPAIR: a unit joins the soft-fuse map, and is disabled from the next reset. -/
def State.doRepair (s : State) (h : MsgHdr) (kind idx : Nat) : State :=
  s.manage h true false fun s =>
    let u := s.softFused
    let add (l : List Nat) : List Nat := if l.contains idx then l else idx :: l
    let fused (u : Units) : State := { s with softFused := u }.mgmtReply h 0
    if kind = 0 ∧ idx < Config.cores then fused { u with cores := add u.cores }
    else if kind = 1 ∧ idx < Config.dies then fused { u with dies := add u.dies }
    else if kind = 2 ∧ idx < Config.channels then fused { u with channels := add u.channels }
    else if kind = 3 ∧ idx < 16 then fused { u with ports := add u.ports }
    else s.mgmtReply h 1
/-- PWRLIM. -/
def State.doPwrlim (s : State) (h : MsgHdr) (watts : Nat) : State :=
  s.manage h true false fun s =>
    if 1000 ≤ watts ∧ watts ≤ 4800 then { s with pwrLimit := watts }.mgmtReply h 0 else s.mgmtReply h 1
/-- MGMT_UNKNOWN_OP. -/
def State.doMgmtUnknownOp (s : State) (h : MsgHdr) (_ : Nat) : State := s.manage h false false fun s => s.mgmtReply h 1

end Sys2Proof.Machine
end

