-- ==== Sys2Proof/Machine/HostQueue.lean ====
section
/-! DEFINITION. The host port's requests in the order of their arrival: each is taken from its connection, and performed at once or
behind those that are held (R309, R372 to R375, R402). -/
namespace Sys2Proof.Machine

/-- The kind of a request (R374). -/
def HostReq.kind : HostReq → Nat
  | .launchMessage _ => 1
  | .wopen _ _ _ => 6
  | .wread _ _ _ => 7
  | .wwrite _ _ _ => 8
  | .flip _ _ => 9
  | .drain _ _ => 11
  | .supply _ => 12
  | .unknownMessage kind => kind
  | _ => 14
/-- What a request of the host does once it is taken. -/
def State.performHost (s : State) (h : MsgHdr) (q : HostReq) : State :=
  match q with
  | .launchMessage record => s.doLaunch h record
  | .wopen win base units => s.doWopen h win base units
  | .wread win off len => s.doWread h win off len
  | .wwrite win off data => s.doWwrite h win off data
  | .flip page toHost => s.doFlip h page toHost
  | .drain ring max => s.doDrain h ring max
  | .supply records => s.doSupply h records
  | .unknownMessage kind => s.doUnknown h kind
  | .create ctx world pad root desc => s.doCreate h ctx world pad root desc
  | .destroy ctx => s.doDestroy h ctx
  | .jobset index ndev pre => s.doJobset h index ndev pre
  | .migset val => s.doMigset h val
  | .disc first count => s.doDisc h first count
  | .errdrain die count => s.doErrdrain h die count
  | .evdrain count => s.doEvdrain h count
  | .health die => s.doHealth h die
  | .cert off len => s.doCert h off len
  | .quote nonce => s.doQuote h nonce
  | .worldb kind idx world => s.doWorldb h kind idx world
  | .worldr first count world => s.doWorldr h first count world
  | .fwload off data => s.doFwload h off data
  | .fwcommit => s.doFwcommit h
  | .repair kind idx => s.doRepair h kind idx
  | .pwrlim watts => s.doPwrlim h watts
  | .mgmtUnknownOp op => s.doMgmtUnknownOp h op
/-- How a request stands among the others of the host. -/
def HostReq.shape (h : MsgHdr) : HostReq → HostShape
  | .launchMessage _ => .launch h.ctx
  | _ => .other
/-- A request that writes table memory waits for the accesses that use its entries (R356). -/
def State.hostWaits (s : State) : HostReq → Bool
  | .worldr first count _ => s.inUse (.dev (2097152 * first)) (2097152 * count)
  | _ => false
/-- Nothing that came before a request and is not yet performed keeps it waiting (R309). -/
def State.hostFree (s : State) (before : List (MsgHdr × HostReq)) (h : MsgHdr) (q : HostReq) : Bool :=
  let mine := s.held.filter fun x => x.conn == .host && (match x.msg with | .post .. => false | _ => true)
  !s.hostWaits q && mine.all (fun x => x.gated && s.lets x.shape (q.shape h))
    && (before.isEmpty || (mine.any (·.gated) && before.all fun (hy, y) => s.lets (y.shape hy) (q.shape h)))
/-- A request of the host arrives: it is taken in its order, and performed, or waits behind those before it. -/
def State.receive (s : State) (h : MsgHdr) (q : HostReq) : Out :=
  match s.takeHost h q.kind with
  | (s, false) => .next s
  | (s, true) => .next (if s.hostFree s.port h q then s.performHost h q else { s with port := s.port ++ [(h, q)] })
/-- The first waiting request that nothing keeps waiting any longer, with those before and after it. -/
def State.nextHost (s : State) (before : List (MsgHdr × HostReq)) :
    List (MsgHdr × HostReq) → Option (List (MsgHdr × HostReq) × (MsgHdr × HostReq) × List (MsgHdr × HostReq))
  | [] => none
  | x :: rest => if s.hostFree before x.1 x.2 then some (before, x, rest) else s.nextHost (before ++ [x]) rest
/-- The landing die performs the next waiting request that it may. -/
def State.serveHost (s : State) : State :=
  match s.nextHost [] s.port with
  | some (before, x, rest) => ({ s with port := before ++ rest } : State).performHost x.1 x.2
  | none => s

/-- LAUNCH_MESSAGE (R309). -/
def execLaunchMessage (h : MsgHdr) (record : List Byte) (s : State) : Out := s.receive h (.launchMessage record)
/-- WOPEN (R374). -/
def execWopen (h : MsgHdr) (win : Nat) (base : DWord) (units : Nat) (s : State) : Out :=
  s.receive h (.wopen win base units)
/-- WREAD (R375). -/
def execWread (h : MsgHdr) (win off len : Nat) (s : State) : Out := s.receive h (.wread win off len)
/-- WWRITE (R375). -/
def execWwrite (h : MsgHdr) (win off : Nat) (data : List Byte) (s : State) : Out := s.receive h (.wwrite win off data)
/-- FLIP (R248). -/
def execFlip (h : MsgHdr) (page : DWord) (toHost : Bool) (s : State) : Out := s.receive h (.flip page toHost)
/-- DRAIN (R374). -/
def execDrain (h : MsgHdr) (ring max : Nat) (s : State) : Out := s.receive h (.drain ring max)
/-- SUPPLY (R374). -/
def execSupply (h : MsgHdr) (records : List (List Byte)) (s : State) : Out := s.receive h (.supply records)
/-- UNKNOWN_MESSAGE (R374). -/
def execUnknownMessage (h : MsgHdr) (kind : Nat) (s : State) : Out := s.receive h (.unknownMessage kind)
/-- CREATE (R308). -/
def execCreate (h : MsgHdr) (ctx world : Nat) (pad : BitVec 48) (root : DWord) (desc : List Byte) (s : State) : Out :=
  s.receive h (.create ctx world pad root desc)
/-- DESTROY (R402). -/
def execDestroy (h : MsgHdr) (ctx : Nat) (s : State) : Out := s.receive h (.destroy ctx)
/-- JOBSET (R377). -/
def execJobset (h : MsgHdr) (index ndev : Nat) (pre : DWord) (s : State) : Out := s.receive h (.jobset index ndev pre)
/-- MIGSET (R350). -/
def execMigset (h : MsgHdr) (val : Word) (s : State) : Out := s.receive h (.migset val)
/-- DISC (R395). -/
def execDisc (h : MsgHdr) (first count : Nat) (s : State) : Out := s.receive h (.disc first count)
/-- ERRDRAIN (R394). -/
def execErrdrain (h : MsgHdr) (die count : Nat) (s : State) : Out := s.receive h (.errdrain die count)
/-- EVDRAIN (R402). -/
def execEvdrain (h : MsgHdr) (count : Nat) (s : State) : Out := s.receive h (.evdrain count)
/-- HEALTH (R398). -/
def execHealth (h : MsgHdr) (die : Nat) (s : State) : Out := s.receive h (.health die)
/-- CERT (R404). -/
def execCert (h : MsgHdr) (off len : Nat) (s : State) : Out := s.receive h (.cert off len)
/-- QUOTE (R405). -/
def execQuote (h : MsgHdr) (nonce : List Byte) (s : State) : Out := s.receive h (.quote nonce)
/-- WORLDB (R401). -/
def execWorldb (h : MsgHdr) (kind idx world : Nat) (s : State) : Out := s.receive h (.worldb kind idx world)
/-- WORLDR (R401). -/
def execWorldr (h : MsgHdr) (first count world : Nat) (s : State) : Out := s.receive h (.worldr first count world)
/-- FWLOAD (R402). -/
def execFwload (h : MsgHdr) (off : Nat) (data : List Byte) (s : State) : Out := s.receive h (.fwload off data)
/-- FWCOMMIT (R403). -/
def execFwcommit (h : MsgHdr) (s : State) : Out := s.receive h .fwcommit
/-- REPAIR (R397). -/
def execRepair (h : MsgHdr) (kind idx : Nat) (s : State) : Out := s.receive h (.repair kind idx)
/-- PWRLIM (R402). -/
def execPwrlim (h : MsgHdr) (watts : Nat) (s : State) : Out := s.receive h (.pwrlim watts)
/-- MGMT_UNKNOWN_OP (R402). -/
def execMgmtUnknownOp (h : MsgHdr) (op : Nat) (s : State) : Out := s.receive h (.mgmtUnknownOp op)

end Sys2Proof.Machine
end

