-- ==== Sys2Proof/Machine/Health.lean ====
section
/-! DEFINITION. What nature and the board do to the module: errors found, wear, throttling, trips, reset, bring-up and power
(R239, R391 to R394, R396 to R399, R401, R403, R404, R407 to R409). -/
namespace Sys2Proof.Machine

/-! ## Errors found (R391, R392) -/

/-- The outcome of an uncorrectable error by where it is found, with its record (R392, R394). -/
def State.meet (s : State) (die src loc : Nat) (at_ : Place) (syn : Word) : State :=
  let record (s : State) (sev ctx addr : Nat) : State := s.errRecord die sev src loc ctx (.ofNat 64 addr) syn
  let ctxOfTeam (tid : Nat) : Nat := (((s.teams ++ s.saved).find? (·.tid == tid)).map (·.ctx)).getD 0xFF
  -- what a record of a team's registers names, which have no physical address: a free word (log entry 10)
  let nowhere (s : State) (sev ctx : Nat) : State :=
    let (w, s) := s.freeWord
    record s sev ctx w.toNat
  match at_ with
  | .granule a => record (s.poisonLoc (.dev a) [a / 64]) 1 0xFF (a / 64 * 64)
  | .hostGranule a => record (s.poisonLoc (.host a) [a / 64]) 1 0xFF (a / 64 * 64)
  | .scratch tid a =>
    record (s.modTeam tid fun t =>
      if t.scrPoison.contains (a / 64) then t else { t with scrPoison := a / 64 :: t.scrPoison }) 1 (ctxOfTeam tid) (a / 64 * 64)
  | .cleanLine a => record s 0 0xFF (a / 64 * 64)
  | .cache a => record s 0 0xFF (a / 64 * 64)
  | .directory a =>
    let tile := a / 2048
    let s : State := if s.dirBad.contains tile then s else { s with dirBad := tile :: s.dirBad }
    record (s.poisonLoc (.dev (2048 * tile)) [32 * tile, 32 * tile + 1]) 6 0xFF (2048 * tile)
  | .mark tid block => record (s.modTeam tid fun t => t.setMark block Mark.general) 6 (ctxOfTeam tid) (2048 * block)
  | .team tid =>
    let c := ctxOfTeam tid
    let s := nowhere s 2 c
    if (s.context? c).isSome then s.loseContext c 9 3 else s
  | .ownAccess c a wr =>
    let s := record s 2 c (a / 64 * 64)
    if (s.context? c).isSome then s.loseContext c 9 wr.toNat else s
/-- SCRUB (R391, R392): a clean visit changes nothing that any party reads; a corrected error leaves a record. -/
def execScrub (find : Finding) (s : State) : Out :=
  match find with
  | .clean _ => .next s
  | .corrected die src loc a syn => .next (s.errRecord die 0 src loc 0xFF (.ofNat 64 (a / 64 * 64)) syn)
  | .uncorrectable die src loc at_ syn => .next (s.meet die src loc at_ syn)

/-! ## Wear (R398, R399) -/

/-- The hours that remain until an indicator that moved `change` in `hours` covers the distance to its limit. -/
def hoursLeft (distance change hours : Nat) : Nat := distance * hours / change
/-- An indicator's remaining hours, from its readings at the window's ends; none when it did not move toward its limit. -/
def risingLeft (limit old new hours : Nat) : Option Nat :=
  if old < new then some (hoursLeft (limit - new) (new - old) hours) else none
/-- As `risingLeft`, for an indicator that falls to its limit. -/
def fallingLeft (limit old new hours : Nat) : Option Nat :=
  if new < old then some (hoursLeft (new - limit) (old - new) hours) else none
/-- EOL from the readings, newest first, one for each hour back to hour 0, over a window of at most 1,000 hours (R399). -/
def eolOf (poh : Nat) (hist : List (Nat × Nat × Nat)) : Nat :=
  let (rod, vmm, emc) := hist.headD (0, 0, 0)
  let hours := Nat.min 1000 (hist.length - 1)
  let (rod0, vmm0, emc0) := hist.getD hours (0, 0, 0)
  let moved := [risingLeft 800 rod0 rod hours, fallingLeft 20 vmm0 vmm hours, risingLeft 1000000 emc0 emc hours].filterMap id
  if poh < 100 || moved.isEmpty then 0xFFFFFFFF
  else if 800 ≤ rod || vmm ≤ 20 || 1000000 ≤ emc then 0
  else moved.foldl Nat.min 0xFFFFFFFE
/-- The package's predicted end of life. -/
def State.packageEol (s : State) : Nat := (s.health.map (·.eol)).foldl Nat.min 0xFFFFFFFF
/-- WEAR_UPDATE (R399): the readings of one more hour; the first time the package's prediction falls below 2,000 is an event. -/
def execWearUpdate (die : Nat) (m : Measured) (s : State) : Out :=
  let s : State := { s with
    health := s.health.modify die fun x =>
      let hist := ((m.rod, m.vmm, m.emc) :: x.hist).take 1001
      ⟨m.temp, m.vcore, m.pwr, x.poh + 1, eolOf (x.poh + 1) (hist ++ [Config.wear0 die]), hist⟩ }
  let eol := s.packageEol
  if eol < 2000 && !s.eolWarned then .next ({ s with eolWarned := true }.event 6 0xFF (.ofNat 32 eol)) else .next s

/-! ## Throttling, reset and power (R407, R408) -/

/-- THROTTLE_BEGIN. -/
def execThrottleBegin (s : State) : Out :=
  if s.throttled || !s.powered then .next s else .next ({ s with throttled := true }.event 4 0xFF 0)
/-- THROTTLE_END. -/
def execThrottleEnd (s : State) : Out :=
  if !s.throttled || !s.powered then .next s else .next ({ s with throttled := false }.event 5 0xFF 0)
/-- What is left when all state but the fuses and the module flash is lost; the model's own counters, and what it has said and
will be told, go on. -/
def State.cold (s : State) : State :=
  { State.reset with
    inbox := s.inbox, nextId := s.nextId, free := s.free, outbox := s.outbox, wire := s.wire, fused := s.fused, softFused := s.softFused
    svn := s.svn, health := s.health, eolWarned := s.eolWarned, fwFlash := s.fwFlash, resetN := s.resetN, pwrgd := s.pwrgd }
/-- THERMAL_TRIP (R408): the module stops and loses all state but the module flash until `RESET_N`. -/
def execThermalTrip (s : State) : Out := .next { s.cold with tripped := true }
/-- RESET_ASSERT (R407): `RESET_N` low resets the whole module. -/
def execResetAssert (s : State) : Out := .next { s.cold with resetN := false, pwrgd := false }
/-- POWER_FAULT (R407): PWRGD falls, and the module stands until its next reset. -/
def execPowerFault (s : State) : Out := .next { s with pwrgd := false }

/-! ## Bring-up (R409) -/

/-- The last step completed, by the FAIL code of the step that failed. -/
def stepBefore (fail : Nat) : Nat := match fail with
  | 0 => 8
  | 1 => 1
  | 2 => 1
  | 3 => 2
  | 4 => 3
  | 5 => 4
  | _ => 6
/-- Two lists as a set. -/
def joined (a b : List Nat) : List Nat := a ++ b.filter (!a.contains ·)
/-- The units that hard and soft fuses disable (R396, R397). -/
def Units.both (a b : Units) : Units :=
  ⟨joined a.cores b.cores, joined a.dies b.dies, joined a.channels b.channels, joined a.ports b.ports⟩
/-- Units as lists. -/
def Units.lists (u : Units) : List (List Nat) := [u.cores, u.dies, u.channels, u.ports]
/-- DIG of the firmware that boots (R404). -/
def State.bootDig (s : State) : List Byte := match s.fwFlash with
  | some (m, _) => m.read 0x210 64
  | none => measBytes Config.bootDigest
/-- RESET_RELEASE (R409): the bring-up sequence, up to the step that fails, if one does. -/
def execResetRelease (b : BringUp) (s : State) : Out :=
  if s.resetN && (s.boot.step != 0 || !s.powered) then .next s else
  let fail := match b.fail with
    | some f => f.val
    | none => 0
  let done := stepBefore fail
  let s := s.cold
  let s := { s with
    resetN := true, pwrgd := true, tripped := false
    strap := b.bootsel ++ b.modaddr
    disabled := s.fused.both s.softFused }
  let s := if 2 ≤ done then (s.measure 0 s.bootDig).measure 1 (Config.fuseBytes (s.fused.lists ++ s.softFused.lists)) else s
  let recov := fail = 1 ∨ fail = 2 ∨ b.bootsel ≠ 0 ∧ fail = 0
  let s := { s with boot := ⟨done, fail, recov, recov || fail = 0⟩ }
  if fail = 0 then
    let s := if recov then s else { s with secRegions := b.regions.filter fun k => 2097152 * (k + 1) ≤ s.memBytes }
    .next (match s.fwFlash with
      | some (_, svn) => if !recov && s.svn < svn then { s with svn := svn } else s
      | none => s)
  else .next s

/-- LOGICAL_CLOCK_ADVANCE (R239): the clock of a core advances, for every context. -/
def execLogicalClockAdvance (core : Nat) (s : State) : Out :=
  .next (s.contexts.foldl (fun s c => s.setClock c.num core (s.clockOf c.num core + 1)) s)

end Sys2Proof.Machine
end

