-- ==== Sys2Proof/Machine/Matrix.lean ====
section
/-! DEFINITION. Format blocks, gangs and the matrix multiply-accumulate (R22, R47 to R50, R174 to R183). The elisions of
R187 give the values and flags of the full work, so every chunk is formed in full here. -/
namespace Sys2Proof.Machine

/-! ## Format blocks (R177, R178) -/

/-- The fields of a format block. -/
structure FmtBlock where
  fid : Word
  scale : Word
  reserved : Nat
  fmts : List Word
  deriving DecidableEq, Repr, Inhabited

/-- Reading the 32 bytes of a format block. -/
def fmtBlockOf (bs : List Byte) : FmtBlock :=
  ⟨.ofNat 32 (bytesAt bs 0 4), .ofNat 32 (bytesAt bs 4 4), bytesAt bs 8 8, bytesWords (bs.drop 16) 4⟩

/-- The element type. -/
def FmtBlock.elem (x : FmtBlock) : Nat := (x.fid.extractLsb' 0 4).toNat
/-- BLK. -/
def FmtBlock.blk (x : FmtBlock) : Nat := (x.fid.extractLsb' 8 2).toNat
/-- The format register of a narrow type. -/
def FmtBlock.fmt (x : FmtBlock) : Word := if isNarrowType x.elem then x.fmts.getD (x.elem - 10) 0 else 0
/-- The container of its elements: its class (R175). -/
def FmtBlock.bits (x : FmtBlock) : Nat := elemContainer x.elem x.fmt
/-- The block length of scales. -/
def FmtBlock.len (x : FmtBlock) : Nat := if x.blk = 1 then 16 else 32
/-- Bytes of the scale array; none when there is none. -/
def FmtBlock.scaleBytes (x : FmtBlock) : Nat :=
  if x.blk = 1 ∨ x.blk = 2 then 64 * classK x.bits / x.len else 0
/-- Bytes of the operand (R175). -/
def FmtBlock.operandBytes (x : FmtBlock) : Nat := 64 * classK x.bits * x.bits / 8

/-- A scratchpad operand that cannot be read: a reserved bit, convoy misuse, or past the window (R133). -/
def State.scrBad (s : State) (t : Team) (w : Word) (n : Nat) : Bool :=
  scrReserved w || s.scrMisuse t w || decide (t.scrBytes < scrOff w + n)

/-- The first failure of a format block at `va`, with its fields when it can be read; while a convoy member that it lies in
has not started the instruction waits (R133, R178). DESIGN CHOICE (log entry 102): code 4 is of FID and of offset 0x08; reserved bits of
the named format register's word read zero (R40). -/
def State.fmtCheck (s : State) (t : Team) (swz : Nat) (va : Word) : Except Stop (Nat × FmtBlock) := do
  if s.scrBad t va 32 then return (5, default)
  let tids ← s.scrTids t [va]
  let x := fmtBlockOf (s.scrBytesAt (tids.headD 0) swz (scrOff va) 32)
  let narrow := isNarrowType x.elem
  if !operandType x.elem then return (1, x)
  if x.blk == 3 || (x.blk != 0 && (!narrow || s.scrBad t x.scale x.scaleBytes)) then return (2, x)
  if narrow && !(nfmtOf x.fmt).valid then return (3, x)
  if x.fid &&& 0xFFFFFCF0 != 0 || x.reserved != 0 then return (4, x)
  if scrOff va % 16 != 0 then return (5, x)
  return (0, x)

/-- The reads of an instruction from one scratchpad operand: poison of any granule, logical times, and the bytes. -/
def State.scrTake (s : State) (r : GRef) (g : Group) (swz : Nat) (va : Word) (n : Nat) : Except Stop (State × List Byte) := do
  let (s, olds) ← s.scrAccess r g .read 1 swz none [.load 0 (scrVal va) n]
  return (s, olds.headD [])

/-- FMTB (R178). -/
def execFmtb (m : Bool) (d a : VReg) : State → Out :=
  runWord (.fmtb m d a) { s := m, roles := notCopy, once := Group.someActs } fun s r g => do
    g.needSwz
    let va ← g.uniform a
    let t := s.teamOf r
    let (code, _) ← s.fmtCheck t g.swz va
    if s.scrBad t va 32 then return (s, g.putU d 5)
    let (s, _) ← s.scrTake r g g.swz va 32
    return (s, g.putU d (.ofNat 32 code))

/-! ## Gangs (R22, R179) -/

/-- The member fields of a gang register. -/
def gangFields (x : DWord) : List Nat := (List.range 6).map fun i => (x.extractLsb' (12 + 6 * i) 6).toNat
/-- The members of a gang register. -/
def gangMembers (x : DWord) : List Nat := (gangFields x).take (gangN x)
/-- The conditions of R179, for the group of slot `me`. -/
def Team.gangOk (t : Team) (me : Nat) (x : DWord) : Bool :=
  x.extractLsb' 48 16 == 0 && x.extractLsb' 4 8 == 0 &&
    (if gangN x = 0 then (gangFields x).all (· == 0)
    else 2 ≤ gangN x && gangN x ≤ 6 && (gangMembers x).eraseDups.length == gangN x && (gangMembers x).contains me
      && (gangMembers x).all fun k => ((t.groups[k]?).map fun g => g.role == .matrix).getD false)

/-- GANG (R179). -/
def execGang (m : Bool) (a : VReg) : State → Out :=
  runWord (.gang m a) { s := m, roles := (· == .matrix), collective := true } fun s r g => do
    let x ← g.uniform2 a
    check ((s.teamOf r).gangOk r.slot x) (protect 18)
    return (s, { g with gang := gangValue x })

/-! ## Operands -/

/-- A matrix operand as read: its class and kind, and its 64 stored rows, each as chunks of 16 values (R48, R176). -/
structure Operand where
  bits : Nat
  int : Bool
  rows : List (List (List Fp))

/-- Splitting a list into runs of 16. -/
def runs16 {α : Type} : Nat → List α → List (List α)
  | 0, _ => []
  | n + 1, xs => xs.take 16 :: runs16 n (xs.drop 16)

/-- The value of an element under its block's scale; a NaN scale makes it a quiet NaN (R47). -/
def scaledValue (x : Fp) (scale : Nat) : Fp := match scaleExp scale with | some k => x.scale k | none => .narrowNan

/-- The codes of stored row s of an operand (R176). -/
def operandRow (bits : Nat) (bs : List Byte) (s : Nat) : List Nat :=
  let (_, cols) := tileShape bits
  (List.range (classK bits / cols)).flatMap fun j =>
    let part := (bs.drop (operandOff bits s (j * cols))).take (cols * bits / 8)
    (List.range cols).map fun c => elemCode bits part c

/-- An operand's values from its bytes and those of its scales (R42, R47, R176). -/
def operandOf (x : FmtBlock) (bs scales : List Byte) : Operand :=
  let k := classK x.bits
  let row (s : Nat) : List Fp :=
    let vals := (operandRow x.bits bs s).map fun c => elemOf x.elem x.fmt false (.ofNat 32 c)
    if x.scaleBytes = 0 then vals
    else
      let sc := (scales.drop (s * (k / x.len))).take (k / x.len)
      vals.mapIdx fun i v => scaledValue v (sc.getD (i / x.len) 0).toNat
  ⟨x.bits, isIntType x.elem, (List.range 64).map fun s => runs16 (k / 16) (row s)⟩

/-- A chunk's effect on an f32 cell (R48, R49). -/
def addF32 (c : Word) (x : Fp) : Word × Word :=
  let (w, fl) := fpAdd 8 0 false (fpOf 8 false c) x
  (if (fpOf 8 false w).isNan then 0x7FC00000 else w, fl)
/-- One chunk of products added to an f32 cell (R48, R49). -/
def chunkF32 (c : Word) (ps : List (Fp × Fp)) : Word × Word :=
  let nanIn := ps.any fun p => p.1.isNan || p.2.isNan
  let zinf := ps.any fun p => zeroTimesInf p.1 p.2
  let prods := ps.filterMap fun p => if p.1.isNan || p.2.isNan then none else p.1.mul p.2
  let infs := prods.filter Fp.isInf
  let mixed := infs.any Fp.neg && infs.any (!·.neg)
  if nanIn || zinf || mixed then
    (0x7FC00000, flagIf (zinf || mixed || ps.any fun p => p.1.isSnan || p.2.isSnan) flagNV)
  else if !infs.isEmpty then addF32 c (.inf (infs.any Fp.neg))
  else
    let sum := (prods.map Fp.dyad).foldl Dyad.add .zero
    if sum.m = 0 then (c, 0)
    else
      let (t, f1) := sum.round 8 0 false false
      let (w, f2) := addF32 c (fpOf 8 false t)
      (w, f1 ||| f2)
/-- One chunk of products added to an i32 cell (R50). -/
def chunkInt (sat : Bool) (c : Word) (ps : List (Fp × Fp)) : Word × Word :=
  intResult 2 sat (intOf 2 c + (ps.map fun p => (p.1.dyad.mul p.2.dyad).m).sum)

/-- One cell over all chunks, in ascending k (R48, R181). -/
def cellSum (int sat : Bool) (c : Word) (a b : List (List Fp)) : Word × Word :=
  (a.zip b).foldl (fun (acc : Word × Word) x =>
    let ps := x.1.zip x.2
    let (w, fl) := if int then chunkInt sat acc.1 ps else chunkF32 acc.1 ps
    (w, acc.2 ||| fl)) (c, 0)

/-- The new words of a 64 × 64 tile, row by row, and the flags (R181). -/
def product (sat : Bool) (old : List Word) (a b : Operand) : List Word × Word :=
  let pairs := (a.rows.flatMap fun x => b.rows.map fun y => (x, y)).zip old
  let rs := pairs.map fun (p, c) => cellSum a.int sat c p.1 p.2
  (rs.map (·.1), rs.foldl (fun f r => f ||| r.2) 0)

/-! ## mma (R180 to R183) -/

/-- Taking an operand's address and format block through their checks (R176 to R178, R411). -/
def State.operandCheck (s : State) (t : Team) (swz : Nat) (va fb : Word) : Except Stop FmtBlock := do
  let (code, x) ← s.fmtCheck t swz fb
  s.scrChecks t 2048 [(va, if code = 0 then x.operandBytes else 1)]
  check (code == 0) (protect 20)
  return x

/-- Reading an operand, its format block and its scales, for one member (R182). -/
def State.takeOperand (s : State) (r : GRef) (g : Group) (swz : Nat) (va fb : Word) (x : FmtBlock) :
    Except Stop (State × Operand) := do
  let (s, bs) ← s.scrTake r g swz va x.operandBytes
  let (s, _) ← s.scrTake r g swz fb 32
  if x.scaleBytes = 0 then return (s, operandOf x bs [])
  else
    let (s, sc) ← s.scrTake r g swz x.scale x.scaleBytes
    return (s, operandOf x bs sc)

/-- One member's own operand checks: the format blocks of its two operands (R181, R411). -/
def State.memberChecks (s : State) (r : GRef) (l : Latch) : Except Stop (FmtBlock × FmtBlock) := do
  let t := s.teamOf r
  t.accCheck l.acc ⟨accRow l.acc, accCol l.acc, 64, 64⟩
  let xa ← s.operandCheck t l.swz l.aAddr l.aFmt
  let xb ← s.operandCheck t l.swz l.bAddr l.bFmt
  check (xa.bits == xb.bits && (xa.bits != 8 || isIntType xa.elem == isIntType xb.elem)) (protect 20)
  return (xa, xb)
/-- One member's checks and reads at its issue: the state and its two operands. -/
def State.memberReads (s : State) (r : GRef) (g : Group) (l : Latch) : Except Stop (State × Operand × Operand) := do
  let (xa, xb) ← s.memberChecks r l
  let (s, a) ← s.takeOperand r g l.swz l.aAddr l.aFmt xa
  let (s, b) ← s.takeOperand r g l.swz l.bAddr l.bFmt xb
  return (s, a, b)

/-- The reads of every member in list order, up to the first that fails, with its slot. -/
def State.allReads (s : State) (tid : Nat) : List (Nat × Group × Latch) →
    Except (Nat × Stop) (State × List (Nat × Group × Latch × Operand × Operand))
  | [] => .ok (s, [])
  | (k, g, l) :: rest =>
    match s.memberReads ⟨tid, k⟩ g l with
    | .error e => .error (k, e)
    | .ok (s, a, b) =>
      match s.allReads tid rest with
      | .error e => .error e
      | .ok (s, more) => .ok (s, (k, g, l, a, b) :: more)

/-- Forming every member's cells in list order, each over what the members before it leave (R181). -/
def formCells (t : Team) : List (Nat × Group × Latch × Operand × Operand) → List (GRef × Word × List (Nat × Word))
  | [] => []
  | (k, g, l, a, b) :: rest =>
    let x : Tile := ⟨accRow l.acc, accCol l.acc, 64, 64⟩
    let (ws, fl) := product g.sat (t.tileWords x) a b
    (⟨t.tid, k⟩, fl, x.cells.zip ws) :: formCells (t.setTile x ws) rest

/-- The matrix operation of some members, started: its operands are read now, its cells change when it completes
(R182, R183). -/
def State.startMatrix (s : State) (tid : Nat) (ms : List (Nat × Group × Latch)) : Except (Nat × Stop) State := do
  let (s, rs) ← s.allReads tid ms
  let t := (s.team? tid).getD default
  return { s with matrix := s.matrix ++ [⟨t.core, formCells t rs⟩] }

/-- A listed group as it waits at the latch, its `mma` unchanged (R180). -/
def Team.atLatch (t : Team) (k : Nat) : Option (Nat × Group × Latch) :=
  match t.groups[k]? with
  | some g => if g.ended then none else g.latch.map fun l => (k, g, l)
  | none => none

/-- A group that passes the latch with the operation (R180). -/
def Group.passLatch (g : Group) (l : Latch) : Group :=
  ({ g with pc := g.pc + 1, wait := .none, latch := none }).retire { s := l.s } g.priv

/-- The joint operation: the group arrives at the latch, and issues it for every member, mismatches, or waits (R180). -/
def jointMma (s : State) (r : GRef) (g : Group) (l : Latch) : Except Stop (State × Group) :=
  let bad := ((s.group? r).bind (·.latch)).map (·.bad) == some true
  let t0 := s.teamOf r
  let members := gangMembers g.gang
  if bad || members.any (fun k => ((t0.groups[k]?).map (·.ended)).getD true) then protect 19 else
  let s := s.modGroup r fun x => { x with latch := some l }
  let t := s.teamOf r
  let here := members.filterMap t.atLatch
  if here.length < members.length then .error (.wait .latch s)
  else if here.any fun (_, x, y) => x.gang != g.gang || y.aAddr != l.aAddr || y.aFmt != l.aFmt || y.bad then
    .error (.wait .latch (s.modTeam r.tid fun t =>
      { t with groups := t.groups.mapIdx fun k x =>
          if members.contains k then { x with latch := x.latch.map fun y => { y with bad := true } } else x }))
  else if s.matrix.any fun m => m.core == t.core then .error (.wait .latch s)
  else match s.startMatrix r.tid here with
    | .error (k, e) =>
      -- a member that fails traps at its own turn
      if k = r.slot then .error e else .error (.wait .latch s)
    | .ok s =>
      let s := here.foldl (fun s (k, _, y) => if k = r.slot then s else s.modGroup ⟨r.tid, k⟩ fun x => x.passLatch y) s
      .ok (s, { g with latch := none })

/-- MMA (R181). -/
def execMma (m : Bool) (d a b : VReg) : State → Out :=
  runWord (.mma m d a b) { s := m, roles := (· == .matrix), collective := true } fun s r g => do
    g.needSwz
    let acc ← g.uniform d
    let aAddr ← g.uniform a
    let aFmt ← g.uniform (nextReg a)
    let bAddr ← g.uniform b
    let bFmt ← g.uniform (nextReg b)
    let l : Latch := ⟨acc, aAddr, aFmt, bAddr, bFmt, g.swz, m, false⟩
    let t := s.teamOf r
    -- the instruction's own checks come before its arrival at the latch; its reads are made when the operation issues
    let _ ← s.memberChecks r l
    if 2 ≤ gangN g.gang then jointMma s r g l
    else
      s.engineWait t
      match s.startMatrix r.tid [(r.slot, g, l)] with
      | .ok s => return (s, g)
      | .error (_, e) => .error e

/-- MMA_COMPLETION (R181 to R183): the cells and flags of each member's sub-product, and the engine is free. -/
def execMmaCompletion (core : Nat) (s : State) : Out :=
  match s.matrix.find? (·.core == core) with
  | none => .next s
  | some x =>
    let s := x.members.foldl (fun s (r, fl, cells) =>
      (s.modTeam r.tid fun t => t.setCells cells).modGroup r fun g => g.raise fl) s
    .next ({ s with matrix := s.matrix.filter (·.core != core) }).freeTeams

end Sys2Proof.Machine
end

