-- ==== Sys2Proof/Machine/ModeShape.lean ====
section
/-! DEFINITION. The mode register and shapes (R71, R100, R101). -/
namespace Sys2Proof.Machine

/-- Writing `md`: reserved bits stay zero (R21). -/
def Group.putMd (g : Group) (w : Word) : Group := { g with md := w &&& mdMask }
/-- Writing `n` bits of `md` from bit `lo`. -/
def Group.putMdField (g : Group) (lo n : Nat) (v : Nat) : Group :=
  let mask : Word := .ofNat 32 ((2 ^ n - 1) * 2 ^ lo)
  g.putMd ((g.md &&& ~~~mask) ||| (.ofNat 32 (v * 2 ^ lo) &&& mask))

/-- MODE (R100): the whole of `md`. -/
def execMode (m : Bool) (a : VReg) : State → Out :=
  runGroup (.mode m a) { s := m } fun g => do
    let w ← g.uniform a
    return g.putMd w
/-- GMODE (R100). -/
def execGmode (m : Bool) (d : VReg) : State → Out :=
  runGroup (.gmode m d) { s := m } fun g => return g.putU d g.md
/-- MODET (R71): TYPE, and STYPE when w holds. -/
def execModet (m : Bool) (w : Bool) (u t : BitVec 4) : State → Out :=
  runGroup (.modet m w u t) { s := m, always := true } fun g =>
    let g := g.putMdField 16 4 t.toNat
    return if w then g.putMdField 20 4 u.toNat else g
/-- MODER (R71): RND. -/
def execModer (m : Bool) (r : BitVec 3) : State → Out :=
  runGroup (.moder m r) { s := m, always := true } fun g => return g.putMdField 12 3 r.toNat
/-- MODEG (R71): GINV and GPRED. -/
def execModeg (m : Bool) (i : Bool) (p : PReg) : State → Out :=
  runGroup (.modeg m i p) { s := m, always := true } fun g =>
    return (g.putMdField 4 1 i.toNat).putMdField 0 3 p.val
/-- MODEF (R71): SWZ, SAT and FTZ together. -/
def execModef (m : Bool) (w : BitVec 2) (t z : Bool) : State → Out :=
  runGroup (.modef m w t z) { s := m, always := true } fun g =>
    return ((g.putMdField 10 2 w.toNat).putMdField 9 1 t.toNat).putMdField 8 1 z.toNat

/-- The tags of v(16k) to v(16k + 15), two bits each (R100). -/
def Group.tagBlock (g : Group) (k : Nat) : Nat :=
  (List.range 16).foldl (fun acc j => acc + (g.v.getD (16 * k + j) (.uni 0)).rank * 4 ^ j) 0
/-- GSHAPE (R100). -/
def execGshape (m : Bool) (d : VReg) (k : BitVec 6) : State → Out :=
  runGroup (.gshape m d k) { s := m } fun g =>
    return g.putU d (.ofNat 32 (if k.toNat < 4 then g.tagBlock k.toNat else g.budget * 65536 + g.wordsInUse))

/-- A register's contents under a new tag (R101). -/
def VVal.retag (x : VVal) (tag : Nat) : VVal :=
  if x.rank = tag then x
  else match tag with
    | 0 => .uni (x.at 0)
    | 1 => .aff (x.at 0) (match x with | .uni _ => 0 | y => y.at 1 - y.at 0)
    | _ => .gen (fibres.map x.at)
/-- Re-tagging the registers from `d` to `l`. -/
def retagRange (v : List VVal) (d l tag : Nat) : List VVal :=
  v.mapIdx fun i x => if d ≤ i && i ≤ l then x.retag tag else x
/-- SHAPE (R101): the budget check is made on the whole range at once (R15). -/
def execShape (m : Bool) (d l : VReg) (t : BitVec 2) : State → Out :=
  runGroup (.shape m d l t) { s := m, always := true } fun g =>
    let g' := { g with v := retagRange g.v d.val l.val t.toNat, vDue := retagRange g.vDue d.val l.val t.toNat }
    if g'.wordsInUse ≤ g.budget then .ok g' else shapeTrap d 1

end Sys2Proof.Machine
end

