-- ==== Sys2Proof/Machine/Packed.lean ====
section
/-! DEFINITION. Narrow and packed instructions (R114 to R117). -/
namespace Sys2Proof.Machine

/-- A type that `pk` and `upk` accept (R115). -/
def isPackType (t : Nat) : Bool := t == 0 || t == 1 || t == 3 || t == 4 || t == 6 || t == 7 || isNarrowType t
/-- The element width of `pk` and `upk`: 16, 8 or 4 bits (R115, R45). -/
def Group.packWidth (g : Group) : Nat :=
  if g.type = 1 ∨ g.type = 4 ∨ g.type = 6 ∨ g.type = 7 then 16
  else if isNarrowType g.type && (nfmtOf (g.fmt0 g.type)).width ≤ 4 then 4 else 8

/-- PK (R115). DESIGN CHOICE (log entry 38): d counts as a source for the result's shape under every TYPE (R87), a 16-bit one
included. -/
def execPk (m : Bool) (d a b : VReg) : State → Out :=
  runGroup (.pk m d a b) { s := m, roles := vectorOnly } fun g => do
    mdChecks (isReservedType g.type || (!isIntType g.type && g.badRnd)) (g.badFmt0 g.type) (!isPackType g.type)
    g.fits d (other [a, b, d] g)
    g.needH0 [g.type]
    let src := if isIntType g.type then (if isSignedType g.type then 2 else 5) else 8
    let fmt := g.fmt0 g.type
    let one (w : Word) : Nat × Word :=
      let (x, fl) := convert src g.type 0 fmt g.rnd g.sat g.ftz w
      (x.toNat % 2 ^ g.packWidth, fl)
    g.result d (other [a, b, d] g) g.on fun f =>
      let (x, fa) := one (g.rd a f)
      let (y, fb) := one (g.rd b f)
      let old := (g.rd d f).toNat
      (.ofNat 32 (match g.packWidth with
        | 16 => y * 2 ^ 16 + x
        | 8 => old / 2 ^ 16 + y * 2 ^ 24 + x * 2 ^ 16
        | _ => old / 2 ^ 8 + y * 2 ^ 28 + x * 2 ^ 24), fa ||| fb)

/-- An element widened exactly, without flags (R115). -/
def widen (t : Nat) (fmt : Word) (c : Nat) : Word :=
  if isIntType t then .ofInt 32 (intOf t (.ofNat 32 c))
  else if isNarrowType t then (fpPut 8 0 false ((nfmtOf fmt).decode c)).1
  else match fpOf t false (.ofNat 32 c) with
    | .nan s fr fb => .ofNat 32 (signBits 8 s + (fmtOf 8).infBits + fr * 2 ^ (23 - fb))
    | x => (fpPut 8 0 false x).1
/-- UPK (R115). -/
def execUpk (m : Bool) (d a : VReg) (j : BitVec 6) : State → Out :=
  runGroup (.upk m d a j) { s := m, roles := vectorOnly } fun g => do
    mdChecks (isReservedType g.type) (g.badFmt0 g.type) (!isPackType g.type)
    check (j.toNat < 32 / g.packWidth) (illegal 5)
    g.fits d (other [a] g)
    g.needH0 [g.type]
    g.result d (other [a] g) g.on fun f =>
      (widen g.type (g.fmt0 g.type) ((g.rd a f).toNat / 2 ^ (j.toNat * g.packWidth) % 2 ^ g.packWidth), 0)

/-- QNT (R116): a ÷ 2^(x − 127) encoded into the narrow TYPE. -/
def execQnt (m : Bool) (d a b : VReg) : State → Out :=
  runGroup (.qnt m d a b) { s := m, roles := vectorOnly } fun g => do
    mdChecks (isReservedType g.stype || isReservedType g.type || g.badRnd) (g.badFmt0 g.type)
      (!isFloatType g.stype || !isNarrowType g.type)
    g.fits d (other [a, b] g)
    g.needH0 [g.type]
    g.result d (other [a, b] g) g.on fun f =>
      let x := match scaleExp (g.rd b f).toNat with
        | none => Fp.narrowNan
        | some k => (fpOf g.stype false (g.rd a f)).scale (-k)
      let (c, fl) := (nfmtOf (g.fmt0 g.type)).encode g.rnd g.sat x
      (.ofNat 32 c, fl)

/-- DQN (R116): the exact product of an element and its scale, rounded to TYPE. -/
def execDqn (m : Bool) (d a b : VReg) : State → Out :=
  runGroup (.dqn m d a b) { s := m, roles := vectorOnly } fun g => do
    mdChecks (isReservedType g.stype || isReservedType g.type || g.badRnd) (g.badFmt0 g.stype)
      (!isNarrowType g.stype || !isFloatType g.type)
    g.fits d (other [a, b] g)
    g.needH0 [g.stype]
    g.result d (other [a, b] g) g.on fun f =>
      let x := (nfmtOf (g.fmt0 g.stype)).decode (g.rd a f).toNat
      match scaleExp (g.rd b f).toNat with
      | none => (fpNan g.type, 0)
      | some k => if x.isNan then (fpNan g.type, 0) else fpPut g.type g.rnd g.ftz (x.scale k)

/-- The four byte elements of a word. -/
def bytesOf (w : Word) : List Nat := (List.range 4).map fun i => (w.extractLsb' (8 * i) 8).toNat
/-- The narrow `dp4` sum with one rounding; any narrow NaN gives the default NaN (R117). -/
def dp4Narrow (g : Group) (fmt : Word) (a b d : Word) : Word × Word :=
  let xs := (bytesOf a).map (nfmtOf fmt).decode
  let ys := (bytesOf b).map (nfmtOf fmt).decode
  let dd := fpOf 8 g.ftz d
  (pickNan 8 (xs ++ ys ++ [dd])).getD
    (fpSum 8 g.rnd g.ftz ((xs.zip ys).filterMap (fun p => p.1.mul p.2) ++ [dd]))
/-- DP4 (R117). -/
def execDp4 (m : Bool) (d a b : VReg) : State → Out :=
  runGroup (.dp4 m d a b) { s := m, roles := vectorOnly } fun g => do
    let narrow := isNarrowType g.type
    mdChecks (isReservedType g.type || (narrow && g.badRnd)) (g.badFmt0 g.type)
      (!(g.type == 0 || g.type == 3 || (narrow && 5 ≤ (nfmtOf (g.fmt0 g.type)).width)))
    g.fits d (other [a, b, d] g)
    g.needH0 [g.type]
    g.result d (other [a, b, d] g) g.on fun f =>
      if narrow then dp4Narrow g (g.fmt0 g.type) (g.rd a f) (g.rd b f) (g.rd d f)
      else
        let prods := ((bytesOf (g.rd a f)).zip (bytesOf (g.rd b f))).map fun p =>
          intOf g.type (.ofNat 32 p.1) * intOf g.type (.ofNat 32 p.2)
        intResult 2 g.sat (prods.foldl (· + ·) (intOf 2 (g.rd d f)))

end Sys2Proof.Machine
end

