-- ==== Sys2Proof/Machine/Peers.lean ====
section
/-! DEFINITION. Messages from the other packages of the job: transfers, contributions, forwarded accesses and replies (R348,
R349, R377 to R379). -/
namespace Sys2Proof.Machine

/-- An answer to a peer's message, in its own world. -/
def State.answerPeer (s : State) (h : PeerHdr) (kind stat : Nat) (data : List Byte) : State :=
  s.reply (.peer h.dev) kind h.ctx stat data h.secure
/-- A peer message of a kind about a context: refused when the context is not resident, or is of another world than its port or
than the message. -/
def State.withPeer (s : State) (h : PeerHdr) (kind absent foreign : Nat) (f : State → Context → State) : Out :=
  match s.takePeer h with
  | (s, false) => .next s
  | (s, true) =>
    if headerBad h.ver h.len then .next (s.answerPeer h kind 0xFFFF []) else
    match s.context? h.ctx with
    | none => .next (s.answerPeer h kind absent [])
    | some c => if c.secure != s.portWorld h.dev || c.secure != h.secure then .next (s.answerPeer h kind foreign []) else .next (f s c)
/-- A length of PPUT or PGET (R378). -/
def transferLength (n : Nat) : Bool := 16 ≤ n && n ≤ 1024 && n % 16 == 0
/-- PPUT (R170, R378). -/
def execPput (h : PeerHdr) (addr : DWord) (data : List Byte) (s : State) : Out :=
  s.withPeer h 32 2 3 fun s _ =>
    if transferLength data.length then s.holdMsg (.peer h.dev) h.ctx (.write 32 addr data)
    else s.answerPeer h 32 0xFFFF []
/-- PGET (R170, R378). -/
def execPget (h : PeerHdr) (addr : DWord) (len : Nat) (s : State) : Out :=
  s.withPeer h 33 2 3 fun s _ =>
    if transferLength len then s.holdMsg (.peer h.dev) h.ctx (.read 33 addr len)
    else s.answerPeer h 33 0xFFFF []
/-- PRED (R379): a contribution is accepted, not accepted, or a mismatch. -/
def execPred (h : PeerHdr) (c : Contribution) (s : State) : Out :=
  s.withPeer h 34 1 3 fun s _ =>
    if c.elems.length < 1 || 256 < c.elems.length then s.answerPeer h 34 0xFFFF []
    else s.holdMsg (.peer h.dev) h.ctx (.contribute h.dev c none)
/-- PFWD (R348, R349): a forwarded access to one line of this package's memory. -/
def execPfwd (h : PeerHdr) (addr : DWord) (kind : FwdKind) (data : List Byte) (s : State) : Out :=
  s.withPeer h 35 2 2 fun s _ =>
    let inLine (n : Nat) : Bool := 1 ≤ n && addr.toNat % 128 + n ≤ 128
    let ok := match kind with
      | .read n => inLine n
      | .write => inLine data.length
      | .nibble _ => data.length == 1
      | .spoil => true
      | .atomic _ _ _ _ => true
    if ok then s.holdMsg (.peer h.dev) h.ctx (.forward addr kind data) else s.answerPeer h 35 0xFFFF []
/-- PEER_RESERVED_KIND (R374, R378): the reserved kinds 36 and 37 are discarded; any other kind is unknown, and answered so. -/
def execPeerReservedKind (h : PeerHdr) (kind : Nat) (s : State) : Out :=
  match s.takePeer h with
  | (s, false) => .next s
  | (s, true) => .next (if kind = 36 ∨ kind = 37 then s else s.answerPeer h kind 0xFFFF [])
/-- PEER_REPLY (R378): a peer's reply completes a forwarded access or a chunk. -/
def execPeerReply (h : PeerHdr) (req : Nat) (x : Answer) (s : State) : Out :=
  match s.takePeer h with
  | (s, false) => .next s
  | (s, true) => .next (if headerBad h.ver h.len then s else (s.answer (.peer h.dev) req x.stat x.data).resume)

end Sys2Proof.Machine
end

