-- ==== Sys2Proof/Machine/Predicates.lean ====
section
/-! DEFINITION. Predicate instructions (R118). -/
namespace Sys2Proof.Machine

/-- A bitwise predicate instruction over active, guard-passing fibres. -/
def predOp (d : PReg) (res : Group → Nat → Bool) (g : Group) : Except Stop Group := .ok (g.putP d g.on (res g))
/-- Fibre `f`'s bit of a p register. -/
def Group.pbit (g : Group) (p : PReg) (f : Nat) : Bool := (g.preg p).getLsbD f

/-- PAND (R118). -/
def execPand (m : Bool) (d a b : PReg) : State → Out :=
  runGroup (.pand m d a b) { s := m } (predOp d fun g f => g.pbit a f && g.pbit b f)
/-- POR (R118). -/
def execPor (m : Bool) (d a b : PReg) : State → Out :=
  runGroup (.por m d a b) { s := m } (predOp d fun g f => g.pbit a f || g.pbit b f)
/-- PXOR (R118). -/
def execPxor (m : Bool) (d a b : PReg) : State → Out :=
  runGroup (.pxor m d a b) { s := m } (predOp d fun g f => g.pbit a f != g.pbit b f)
/-- PNOT (R118). -/
def execPnot (m : Bool) (d a : PReg) : State → Out :=
  runGroup (.pnot m d a) { s := m } (predOp d fun g f => !g.pbit a f)
/-- PMOV (R118): all 16 bits, whatever the masks. -/
def execPmov (m : Bool) (d a : PReg) : State → Out :=
  runGroup (.pmov m d a) { s := m } fun g => .ok (g.putP d (fun _ => true) (g.pbit a))
/-- PANY (R118). -/
def execPany (m : Bool) (d a : PReg) : State → Out :=
  runGroup (.pany m d a) { s := m } (predOp d fun g _ => g.actives.any (g.pbit a))
/-- PALL (R118). -/
def execPall (m : Bool) (d a : PReg) : State → Out :=
  runGroup (.pall m d a) { s := m } (predOp d fun g _ => g.actives.all (g.pbit a))
/-- PCNT (R118): a U result. -/
def execPcnt (m : Bool) (d : VReg) (a : PReg) : State → Out :=
  runGroup (.pcnt m d a) { s := m } fun g => .ok (g.putU d (.ofNat 32 (g.actives.filter (g.pbit a)).length))
/-- BALLOT (R118): a U result. -/
def execBallot (m : Bool) (d : VReg) (a : PReg) : State → Out :=
  runGroup (.ballot m d a) { s := m } fun g =>
    .ok (g.putU d (.ofNat 32 (((g.actives.filter (g.pbit a)).map (2 ^ ·)).sum)))

end Sys2Proof.Machine
end

