-- ==== Sys2Proof/Machine/Sched.lean ====
section
/-! DEFINITION. The scheduler: one placement decision, convoy members, boarding groups, ageing and retirement (R221, R230, R231,
R294, R314 to R324). -/
namespace Sys2Proof.Machine

/-! ## Restoring comes first (R318, R324) -/

/-- The saved teams of one team's convoy that wait to be restored, or the team alone. -/
def State.savedMates (s : State) (t : Team) : List Team :=
  match t.convoy with
  | none => [t]
  | some (v, _) => s.saved.filter fun x => x.phase == .saved && (x.convoy.map (·.1)) == some v
/-- A die whose free capacity, beside what is reserved, covers k times a need: its register words neither held nor reserved
(R321). -/
def State.dieCovers (s : State) (c : Context) (die k : Nat) (n : Need) (who : Nat × Nat) : Option Nat :=
  let cores := s.dieCores c die
  let kept := s.reserved c die
  if die < Config.dies && k ≤ cores.length && ((s.capacity cores).zip (sumRows kept (n.row k))).all (fun (a, b) => b ≤ a)
      && s.dieSpares c die (n.row k) who && cores.all fun core => s.claimsFit core ((s.without []).teamsOn core) who then
    some ((s.capacity cores).headD 0 - kept.headD 0)
  else none
/-- The die a convoy is admitted to: the most free register words, then the lowest (R321). -/
def State.dieFor (s : State) (c : Context) (k : Nat) (n : Need) (who : Nat × Nat := (0, 0)) : Option Nat :=
  ((List.range Config.dies).foldl (fun (acc : Option (Nat × Nat)) d =>
    match s.dieCovers c d k n who, acc with
    | some w, none => some (d, w)
    | some w, some (e, u) => if u < w then some (d, w) else some (e, u)
    | none, acc => acc) none).map (·.1)

/-- Restoring one saved team that fits, or re-admitting its convoy; none when it fits nowhere. -/
def State.tryRestore (s : State) (t : Team) : Option State :=
  let c := (s.context? t.ctx).getD default
  match s.grid? t.ctx t.serial with
  | none => none
  | some x =>
    match t.convoy with
    | none => (s.place c (s.coresFor c) (t.need x)).map (s.restoreTeam t)
    | some (v, _) =>
      let ms := s.savedMates t
      match s.convoys.find? (·.id == v) with
      | none => none
      | some cv =>
        -- a convoy already re-admitted: its members start as they fit
        if !cv.started.contains ((t.convoy.map (·.2)).getD 0) then none
        else if ms.length + cv.ended.length < cv.members then none
        else (s.dieFor c ms.length (t.need x)).map fun die =>
          { s with convoys := s.convoys.map fun y => if y.id == v then
              { y with die := die, cores := [], started := y.started.filter fun i => !ms.any fun m => m.convoy == some (v, i) } else y }
/-- What a placement decision takes first: a saved team to be restored, or the next group of a bin of a boarding unit (R318). -/
inductive First where
  | saved (t : Team)
  | bin (core : Nat) (k : BinKey)
  deriving DecidableEq
/-- The team priority of such a team, and since when it waits. -/
def State.rankOf (s : State) : First → Nat × Nat
  | .saved t => (((s.grid? t.ctx t.serial).map (·.effPrio)).getD t.prio, t.stamp)
  | .bin core k =>
    (((s.grid? k.ctx k.serial).map (·.effPrio)).getD 0,
      ((s.conts.filter fun x => x.core == core && x.bin == k).map (·.order)).foldl Nat.min s.nextId)
/-- The bins of the boarding units, and under replay the one that the next record names (R294). -/
def State.bins (s : State) : List (Nat × BinKey) :=
  let held : List (Nat × BinKey) := s.conts.map fun k => (k.core, k.bin)
  let named : List (Nat × BinKey) := s.contexts.filterMap fun c =>
    if c.recMode != 2 then none else (s.headRecord c).bind fun (_, r) =>
      if bytesAt r 0 1 = 7 then some (0, ⟨c.num, bytesAt r 0x0C 4, bytesAt r 0x10 8⟩) else none
  (held ++ named).eraseDups
/-- The first class of R318 in its order: higher priority first, then the longest waiting. -/
def State.firstClass (s : State) : List First :=
  let xs := (s.saved.filter (·.phase == .saved)).map First.saved ++ s.bins.map fun b => .bin b.1 b.2
  sortBy (fun x y => let a := s.rankOf x; let b := s.rankOf y; b.1 < a.1 || (a.1 == b.1 && a.2 ≤ b.2)) xs
/-- Placing one of them, when it can be placed. -/
def State.takeFirst (s : State) : First → Option State
  | .saved t => s.tryRestore t
  | .bin core k => s.form core k
/-- The first of them that can be placed, and the package with it placed. -/
def State.firstPlaced (s : State) : Option (First × State) := s.firstClass.findSome? fun x => (s.takeFirst x).map fun t => (x, t)

/-! ## The launch chosen (R315 to R318) -/

/-- The number of a queue over all contexts. -/
def Grid.queueNo (x : Grid) : Nat := 16 * x.ctx + x.queue
/-- Launches with teams still to choose. -/
def State.eligibles (s : State) : List Grid := s.grids.filter fun x => x.eligible && !x.lost && x.placed < x.teams
/-- The eligible launch of highest effective priority; among equals the next queue after the one served last (R318). -/
def State.chosen (s : State) : Option Grid :=
  let es := s.eligibles
  let p := es.foldl (fun a x => Nat.max a x.effPrio) 0
  let last := assoc s.served p 1023
  (es.filter (·.effPrio == p)).foldl (fun acc x =>
    let rank (x : Grid) : Nat := (x.queueNo + 1024 - (last + 1) % 1024) % 1024
    match acc with
    | none => some x
    | some y => if rank x < rank y then some x else some y) none

/-- After a decision in favour of a launch: its next team index and its turn; room kept for it is taken (R312, R315, R318). -/
def State.served' (s : State) (x : Grid) (k : Nat) : State :=
  ({ s with
    served := setAssoc s.served x.effPrio x.queueNo
    claims := s.claims.filter fun y => !(y.ctx == x.ctx && y.serial == x.serial) }.modGrid x.ctx x.serial fun y =>
    { y with placed := y.placed + k }).markEligible

/-- Pre-empting for a launch that fits nowhere (R323): the eviction sets of the cores, or of the dies for a convoy; the room they
leave is kept for it; nothing more is evicted while the teams already being saved will leave room. -/
def State.evictFor (s : State) (c : Context) (x : Grid) : State :=
  let who := (x.ctx, x.serial)
  let units : List (Nat × List Team × (List Team → Bool)) :=
    if x.conv = 0 then (s.coresFor c).map fun core => (core, s.teamsOn core, fun ts => ((s.without ts).place c [core] x.need who).isSome)
    else (List.range Config.dies).map fun die =>
      (die, s.teams.filter fun t => dieOf t.core == die, fun ts => ((s.without ts).dieCovers c die x.conv x.need who).isSome)
  if units.any fun (_, _, fits) => fits [] then s
  else
    match chooseSet (units.filterMap fun (_, ts, fits) => s.evictionSet ts x.effPrio fits) with
    | some (t :: ts) =>
      let place := if x.conv = 0 then t.core else dieOf t.core
      (t :: ts).foldl (fun (s : State) t => s.requestPreempt t.tid)
        { s with claims := s.claims.filter (fun y => (y.ctx, y.serial) != who) ++ [⟨x.ctx, x.serial, x.conv != 0, place⟩] }
    | _ => s

/-- Placing the next team of a launch on one of some cores, when it fits there (R319). -/
def State.placeTeam (s : State) (c : Context) (x : Grid) (cores : List Nat) : Option State :=
  (s.place c cores x.need (x.ctx, x.serial)).map fun room => (s.addTeam (s.newTeam x room x.placed none)).served' x 1
/-- Admitting the next convoy of a launch to a die (R321). -/
def State.admitConvoy (s : State) (x : Grid) (die : Nat) : State :=
  let v : Convoy := ⟨s.nextId, x.ctx, x.serial, x.placed, die, x.conv, [], [], [], List.replicate 4 Barrier.new⟩
  { s with nextId := s.nextId + 1, convoys := s.convoys ++ [v] }.served' x x.conv
/-- Placing the next team of the chosen launch, or admitting its next convoy (R319, R321). -/
def State.placeNext (s : State) (x : Grid) : State :=
  let c := (s.context? x.ctx).getD default
  (if x.conv = 0 then s.placeTeam c x (s.coresFor c)
    else (s.dieFor c x.conv x.need (x.ctx, x.serial)).map (s.admitConvoy x)).getD (s.evictFor c x)
/-- A launch for which room has been made is placed there, before anything else, once the evicted teams have been saved (R323,
R385). -/
def State.placeClaimed (s : State) : Option State :=
  s.claims.findSome? fun k => (s.eligibles.find? fun x => x.ctx == k.ctx && x.serial == k.serial).bind fun x =>
    let c := (s.context? x.ctx).getD default
    if k.convoy then (s.dieCovers c k.at_ x.conv x.need (x.ctx, x.serial)).map fun _ => s.admitConvoy x k.at_
    else s.placeTeam c x ((s.coresFor c).filter (· == k.at_))

/-- PLACEMENT_DECISION (R318, R323): a launch whose room has been made, a team waiting to be restored or a boarding group that fits,
else the launch chosen. -/
def execPlacementDecision (s : State) : Out :=
  let s := s.markEligible
  match s.placeClaimed with
  | some s => .next s
  | none =>
    match s.firstPlaced with
    | some (_, s) => .next s
    | none =>
      match s.chosen with
      | some x => .next (s.placeNext x)
      | none => .next s
/-- BOARDING_GROUP_FORMATION (R231 to R233, R294, R318): the next group of a bin is formed when no team that the decision takes
before it can be placed. -/
def execBoardingGroupFormation (core : Nat) (bin : BinKey) (s : State) : Out :=
  match s.placeClaimed, s.firstPlaced with
  | none, some (.bin c k, t) => .next (if c = core && k == bin then t else s)
  | _, _ => .next s

/-- CONVOY_MEMBER_START (R230, R321): the next member, in member order, starts or is restored on a distinct core of the
convoy's die when it fits there; its reservation ends. -/
def execConvoyMemberStart (id : Nat) (s : State) : Out :=
  match s.convoys.find? (·.id == id) with
  | none => .next s
  | some v =>
    match (List.range v.members).find? fun i => !v.started.contains i && !v.ended.contains i with
    | none => .next s
    | some i =>
      match s.grid? v.ctx v.serial with
      | none => .next s
      | some x =>
        let c := (s.context? v.ctx).getD default
        let cores := (s.dieCores c v.die).filter (!v.cores.contains ·)
        -- its own reservation is not in its way
        let free : State := { s with convoys := s.convoys.map fun y => if y.id == id then { y with started := i :: y.started } else y }
        match free.place c cores x.need with
        | none => .next s
        | some room =>
          match s.saved.find? fun t => t.convoy == some (id, i) && t.phase == .saved with
          | some t => .next (s.restoreTeam t room)
          | none =>
            let s := s.addTeam (s.newTeam x room (v.first + i) (some (id, i)))
            .next ({ s with convoys := s.convoys.map fun y =>
              if y.id == id then { y with started := y.started ++ [i], cores := room.core :: y.cores } else y } : State).markEligible

/-- PRIORITY_AGEING (R316): an eligible launch's effective priority rises by one, up to its queue's ceiling. -/
def execPriorityAgeing (ctx serial : Nat) (s : State) : Out :=
  .next (s.modGrid ctx serial fun x =>
    if x.eligible && s.queued x && x.effPrio < ((s.context? ctx).getD default).ceiling x.queue then
      { x with effPrio := x.effPrio + 1 } else x)

/-- A grid whose teams, continuations and children have ended (R221). -/
def State.doneGrid (s : State) (x : Grid) : Bool :=
  let mine (c n : Nat) : Bool := c == x.ctx && n == x.serial
  !x.retired && !s.queued x && !(s.teams ++ s.saved).any (fun t => mine t.ctx t.serial)
    && !s.conts.any (fun k => mine k.bin.ctx k.bin.serial) && !s.rays.any (fun k => mine k.ctx k.serial)
    && s.grids.all fun y => !(y.ctx == x.ctx && y.parent == some x.serial) || y.retired
/-- GRID_RETIREMENT (R221, R314, R375): the grid retires, launches that waited on it may become eligible, and the host is
told of one of its own. -/
def execGridRetirement (ctx serial : Nat) (s : State) : Out :=
  match s.grid? ctx serial with
  | none => .next s
  | some x =>
    if !s.doneGrid x then .next s else
    let s := (s.modGrid ctx serial fun x => { x with retired := true }).markEligible
    .next (if x.fromHost then
      s.sendMsg .host 2 ctx 0 (natLe 8 (token ctx serial).toNat ++ natLe 4 0) else s)

end Sys2Proof.Machine
end

