-- ==== Sys2Proof/Machine/Tags.lean ====
section
/-! DEFINITION. Tags, rings and barriers (R148, R149, R153 to R158) and budget moves (R99). -/
namespace Sys2Proof.Machine

/-! ## Tags (R148) -/

/-- The tag mask of a pair; a bit at T or above is refused (R148). -/
def Group.tagMask (g : Group) (t : Team) (a : VReg) : Except Stop DWord := do
  let m ← g.uniform2 a
  check (m.toNat < 2 ^ t.tagN) (protect 4)
  return m
/-- The lowest tag of a mask whose bit in `pend` is clear. -/
def lowestClear (m pend : DWord) : Option Nat :=
  (List.range 64).find? fun t => m.getLsbD t && !pend.getLsbD t
/-- A tag number as a result. -/
def tagWord (t : Option Nat) : Word := match t with | some n => .ofNat 32 n | none => 0xFFFFFFFF

/-- A tag observation: live, it is recorded with the bitmap observed and the value returned; under replay the recorded
value is enforced by `replay`, from the recorded bitmap and value (R149, R366). -/
def observeTags (s : State) (r : GRef) (g : Group) (live : Word)
    (replay : DWord → Word → Except Stop Word) : Except Stop (State × Word) :=
  let t := s.teamOf r
  let c := s.ctxOf t
  let p := t.party r.slot 0 false
  if g.priv then .ok (s, live)
  else if c.recMode = 2 then
    match s.headRecord c with
    | none => .error (.wait .manifest s)
    | some (i, rec) =>
      let stop : Except Stop (State × Word) := .error (.trap .replayDivergence 0 (some (.ofNat 64 i)))
      if !namesParty rec p then .error (.wait .manifest s)
      else if bytesAt rec 0 1 != 5 then stop
      else
        match replay (.ofNat 64 (bytesAt rec 0x10 8)) (.ofNat 32 (bytesAt rec 0x1C 4)) with
        | .ok v => .ok (s.setMani c 0x10 (i + 1), v)
        | .error (.trap cause sub _) => .error (.trap cause sub (some (.ofNat 64 i)))
        | .error e => .error e
  else do
    let s' ← s.gateGroup s c g.priv [⟨5, p, t.tg, live, t.core, none⟩]
    return (s', live)

/-- The replay of a recorded tag: it waits until that tag is clear (R149). No tag, 0xFFFF_FFFF, is what a `waitany` observes of
an empty mask only (R148, R367). -/
def replayTag (s : State) (t : Team) (any : Bool) (m : DWord) (v : Word) : Except Stop Word :=
  if v = 0xFFFFFFFF then if any && m != 0 then .error (.trap .replayDivergence 0 none) else .ok v
  else if 64 ≤ v.toNat || !m.getLsbD v.toNat || !t.bound.getLsbD v.toNat then .error (.trap .replayDivergence 0 none)
  else if t.tg.getLsbD v.toNat then .error (.wait .tag s)
  else .ok v

/-- WAITANY (R148). -/
def execWaitany (m : Bool) (d a : VReg) : State → Out :=
  runWord (.waitany m d a) { s := m, syncs := true, once := Group.someOn } fun s r g => do
    let t := s.teamOf r
    let k ← g.tagMask t a
    if k != 0 && (lowestClear k t.tg).isNone && !(!g.priv && (s.ctxOf t).recMode == 2) then .error (.wait .tag s)
    let (s, v) ← observeTags s r g (tagWord (lowestClear k t.tg)) fun _ v => replayTag s t true k v
    return (s, g.putU d v)
/-- WAITALL (R148). -/
def execWaitall (m : Bool) (a : VReg) : State → Out :=
  runWord (.waitall m a) { s := m, syncs := true, once := Group.someOn } fun s r g => do
    let t := s.teamOf r
    let k ← g.tagMask t a
    if k &&& t.tg != 0 then .error (.wait .tag s)
    return (s, g)
/-- TAGFFR (R148). -/
def execTagffr (m : Bool) (d a : VReg) : State → Out :=
  runWord (.tagffr m d a) { s := m, once := Group.someOn } fun s r g => do
    let t := s.teamOf r
    let k ← g.tagMask t a
    let (s, v) ← observeTags s r g (tagWord (lowestClear k t.tg)) fun _ v => replayTag s t false k v
    return (s, g.putU d v)
/-- TAGCLR (R148). -/
def execTagclr (m : Bool) (a : VReg) : State → Out :=
  runWord (.tagclr m a) { s := m, once := Group.someOn } fun s r g => do
    let k ← g.tagMask (s.teamOf r) a
    return (s.modTeam r.tid fun t =>
      { t with tagErr := t.tagErr &&& ~~~k, tagReason := t.tagReason.filter fun x => !k.getLsbD x.1 }, g)
/-- TAGGT (R148, R149). -/
def execTaggt (m : Bool) (d a : VReg) (k : BitVec 6) : State → Out :=
  runWord (.taggt m d a k) { s := m, once := Group.someOn } fun s r g => do
    let t := s.teamOf r
    match k.toNat with
    | 4 =>
      let n ← g.uniform a
      check (n.toNat < t.tagN) (protect 4)
      return (s, g.putU d (.ofNat 32 (assoc t.tagReason n.toNat 0)))
    | 2 => return (s, g.putU d (half t.tagErr 0))
    | 3 => return (s, g.putU d (half t.tagErr 1))
    | i =>
      let (s, v) ← observeTags s r g (half t.tg i) fun map v =>
        if v != half map i || map &&& ~~~t.bound != 0 then .error (.trap .replayDivergence 0 none)
        else if t.tg &&& ~~~map != 0 then .error (.wait .tag s)
        else .ok v
      return (s, g.putU d v)

/-! ## Rings (R154) -/

/-- The ring number of a uniform operand (R153). -/
def Group.ringNumber (g : Group) (t : Team) (a : VReg) : Except Stop Nat := do
  let n ← g.uniform a
  check (n.toNat < t.rings.length) (protect 15)
  return n.toNat
/-- A ring event of a group, offered to the manifest (R156). -/
def ringGate (s : State) (r : GRef) (g : Group) (kind n : Nat) (q : Word) : Except Stop State :=
  let t := s.teamOf r
  s.gateGroup s (s.ctxOf t) g.priv [⟨kind, t.party r.slot 0 false, .ofNat 64 n, q, t.core, none⟩]
/-- A group-collective's uniform result, written whatever the guard (R131). -/
def Group.putAll (g : Group) (d : VReg) (w : Word) : Group := g.store d 0 g.active fun _ => w

/-- RPUT (R154). -/
def execRput (m : Bool) (d a b : VReg) : State → Out :=
  runWord (.rput m d a b) { s := m, collective := true } fun s r g => do
    let t := s.teamOf r
    let na ← g.uniform a
    let nb ← g.uniform b
    check (na.toNat < t.rings.length) (protect 15)
    check (nb.toNat < 2) (protect 14)
    let n := na.toNat
    let ring := t.rings.getD n default
    if nb = 0 then
      if !ring.emptyAtHead then .error (.wait .ring s) else
      let s ← ringGate s r g 3 n ring.hd
      return (s.modTeam r.tid fun t => t.modRing n fun x => { x.set x.hd (.full x.hd) with hd := x.hd + 1 },
        g.putAll d ring.hd)
    else
      let q := ring.lowestTaken
      let s ← ringGate s r g 4 n (q.getD 0xFFFFFFFF)
      return (match q with
        | some q => s.modTeam r.tid fun t => t.modRing n fun x => x.set q .empty
        | none => s, g.putAll d (q.getD 0xFFFFFFFF))
/-- RTAKE (R154). -/
def execRtake (m : Bool) (d a : VReg) : State → Out :=
  runWord (.rtake m d a) { s := m, collective := true, returning := true } fun s r g => do
    let t := s.teamOf r
    let n ← g.ringNumber t a
    let ring := t.rings.getD n default
    if !ring.fullAtTail then .error (.wait .ring s) else
    let s ← ringGate s r g 4 n ring.tl
    return (s.modTeam r.tid fun t => t.modRing n fun x => { x.set x.tl (.taken x.tl) with tl := x.tl + 1 },
      (g.storeDue d 0 g.active fun _ => ring.address ring.tl).pending)
/-- RPEEK (R154). -/
def execRpeek (m : Bool) (d a b : VReg) : State → Out :=
  runWord (.rpeek m d a b) { s := m, returning := true, once := Group.someOn } fun s r g => do
    let t := s.teamOf r
    let na ← g.uniform a
    let nb ← g.uniform b
    check (na.toNat < t.rings.length) (protect 15)
    check (nb.toNat < 3) (protect 14)
    let ring := t.rings.getD na.toNat default
    let isFull (x : Slot) : Bool := match x with | .full _ => true | _ => false
    if nb = 0 && !ring.emptyAtHead then .error (.wait .ring s)
    else if nb = 1 && !ring.fullAtTail then .error (.wait .ring s)
    else
      let v : Word := if nb = 0 then ring.address ring.hd else if nb = 1 then ring.address ring.tl
        else .ofNat 32 ((ring.slots.filter (· == .empty)).length * 65536 + (ring.slots.filter isFull).length)
      return (s, (g.storeDue d 0 g.on fun _ => v).pending)

/-! ## Barriers (R157, R158) -/

/-- One arrival at a team's barrier: 14 for a number or count out of range, or a count other than the generation's; the
arrival is offered to the manifest (R157). -/
def arriveBar (s : State) (r : GRef) (g : Group) (k c : Nat) (byMove : Bool) : Except Stop State := do
  let t := s.teamOf r
  let b := t.bars.getD k default
  check (k < 8 && c ≤ 64 && (k != 0 || c == 0)) (protect 14)
  check (b.expect.isNone || b.expect == some c) (protect 14)
  let addr := k + (if byMove then 0x200 else 0)
  let s ← s.gateGroup s (s.ctxOf t) g.priv [⟨2, t.party r.slot 0 false, .ofNat 64 addr, .ofNat 32 b.gen, t.core, none⟩]
  return s.modTeam r.tid fun t => { t with bars := t.bars.modify k fun b => b.arrive r.slot c }

/-- Whether a group's own arrival stands, and its generation has completed (R158). -/
def Team.passed (t : Team) (x : Arrival) : Bool := x.gen < (t.bars.getD x.bar default).gen

/-- The arrivals of a group without those of one barrier made at one word address. -/
def Group.leaveBar (g : Group) (x : Arrival) : Group :=
  { g with arrived := g.arrived.filter fun y => !(y.convoy == x.convoy && y.bar == x.bar && y.pc == x.pc) }
/-- Waiting in a barrier: the first execution arrives; it passes at once when its arrival completes the generation, and
otherwise a later execution passes once the generation has completed, `late` doing with a status kept for it what the
instruction does (R99, R157, R158). -/
def waitBar (s : State) (r : GRef) (g : Group) (arrive : Except Stop State) (mine : Arrival)
    (passed : State → Arrival → Bool) (finish : State → State) (late : Group → Word → Group := fun g _ => g) :
    Except Stop (State × Group) :=
  match g.arrived.find? fun x => x.convoy == mine.convoy && x.bar == mine.bar && x.pc == mine.pc with
  | some x =>
    if !passed s x then .error (.wait .barrier s)
    else
      let g := g.leaveBar x
      .ok (s, match x.status with | some w => late g w | none => g)
  | none => do
    let s ← arrive
    let s := finish (s.modGroup r fun g => { g with arrived := mine :: g.arrived })
    if passed s mine then
      let g' := (s.group? r).getD g
      return (s, { g'.settle.leaveBar mine with pc := g.pc, wait := .none })
    else .error (.wait .barrier s)

/-- BAR (R157). -/
def execBar (m : Bool) (a b : VReg) : State → Out :=
  runWord (.bar m a b) { s := m, collective := true, syncs := true } fun s r g => do
    let k ← g.uniform a
    let c ← g.uniform b
    let x := ((s.teamOf r).bars.getD k.toNat default)
    waitBar s r g (arriveBar s r g k.toNat c.toNat false) ⟨false, k.toNat, x.gen, g.pc - 1, none⟩ (fun s y => (s.teamOf r).passed y)
      fun s => s.modTeam r.tid Team.completeBarriers
/-- ARRV (R157): arrives without waiting. -/
def execArrv (m : Bool) (a b : VReg) : State → Out :=
  runWord (.arrv m a b) { s := m, once := Group.someOn } fun s r g => do
    let k ← g.uniform a
    let c ← g.uniform b
    let s ← arriveBar s r g k.toNat c.toNat false
    let s := (s.setGroup r g).modTeam r.tid Team.completeBarriers
    return (s, (s.group? r).getD g)

/-- One arrival at a convoy barrier (R157). -/
def arriveConvoy (s : State) (r : GRef) (g : Group) (k : Nat) : Except Stop State := do
  let t := s.teamOf r
  match t.convoy, s.convoyOf t with
  | some (_, me), some v =>
    let b := v.bars.getD k default
    let s ← s.gateGroup s (s.ctxOf t) g.priv
      [⟨2, t.party r.slot 0 false, .ofNat 64 (k + 0x100), .ofNat 32 b.gen, t.core, none⟩]
    return { s with convoys := s.convoys.map fun x =>
      if x.id == v.id then { x with bars := x.bars.modify k fun b => b.arrive (64 * me + r.slot) 0 } else x }
  | _, _ => protect 17
/-- BARV (R157). -/
def execBarv (m : Bool) (a : VReg) : State → Out :=
  runWord (.barv m a) { s := m, collective := true, syncs := true } fun s r g => do
    let k ← g.uniform a
    check (k.toNat < 4) (protect 14)
    check ((s.convoyOf (s.teamOf r)).isSome) (protect 17)
    let bar (s : State) : Barrier := (((s.convoyOf (s.teamOf r)).getD default).bars.getD k.toNat default)
    waitBar s r g (arriveConvoy s r g k.toNat) ⟨true, k.toNat, (bar s).gen, g.pc - 1, none⟩ (fun s y => y.gen < (bar s).gen)
      State.completeConvoys

/-- RQMV (R99): arrives at barrier 0 with a request; the moves are applied when the generation completes, and vd receives
the status then. -/
def execRqmv (m : Bool) (d a b : VReg) : State → Out :=
  runWord (.rqmv m d a b) { s := m, collective := true, syncs := true } fun s r g => do
    let va ← g.uniform a
    let vb ← g.uniform b
    let x := ((s.teamOf r).bars.getD 0 default)
    waitBar s r g (arriveBar s r g 0 0 true) ⟨false, 0, x.gen, g.pc - 1, none⟩ (fun s y => (s.teamOf r).passed y)
      (fun s => (s.modTeam r.tid fun t => { t with moves := t.moves ++ [⟨r.slot, g.pc - 1, d, va, vb⟩] }).modTeam r.tid
        Team.completeBarriers) fun g w => g.store d 0 g.active fun _ => w

end Sys2Proof.Machine
end

