-- ==== Sys2Proof/Machine/TileDir.lean ====
section
/-! DEFINITION. The tile directory's instructions: reading a mark and filling tiles (R185, R186, R188, R189). -/
namespace Sys2Proof.Machine

/-- The tensor's bytes, from BASE to its last byte. -/
def Handle.span (x : Handle) : Nat :=
  (x.bound 0 * x.bits + 7) / 8 + ((List.range x.rank).map fun k => if k = 0 then 0 else (x.bound k - 1) * x.stride k * 16).sum

/-- A handle of R188 and a run of its tiles: 2 for an invalid handle, 16 for another kind of handle, 14 for tiles beyond
the tensor or blocks beyond the window; `whole` when the last block must lie wholly in it (R188, R189). -/
def tileHandle (g : Group) (t : Team) (h : HReg) (n count : Nat) (whole : Bool) : Except Stop Handle := do
  let x ← g.handle h
  check ((!x.scr && x.dir) || (x.scr && !x.dir && x.base.toNat % 2048 == 0)) (protect 16)
  check (1 ≤ count && count ≤ 256) (protect 14)
  check (if x.scr then decide (x.base.toNat + (if whole then 2048 * (n + count) else 2048 * n + 1) ≤ t.scrBytes)
    else decide (2048 * (n + count - 1) < x.span)) (protect 14)
  return x

/-- The word `tdq` answers for a mark (R188). -/
def markWord (state : Nat) (nonfin : Bool) (type swz : Nat) : Word :=
  .ofNat 32 (state + 4 * nonfin.toNat + 16 * type + 256 * swz + 0x8000)

/-- What `tdq` answers for a global tile on a page with its leaf (R185, R188): the mark as the handle sees it. -/
def State.globalMark (s : State) (x : Handle) (l : Leaf) (va : DWord) : Word × Word :=
  if !l.dira then (0, 0) else
  match l.home va with
  | .here (.dev a) =>
    let j := s.dirEntry l.dtype a
    if l.dtype = x.elem ∧ !isNarrowType l.dtype then (markWord j.state j.nonfin l.dtype 3, .ofNat 32 j.const)
    else (markWord 0 j.nonfin l.dtype 3, 0)
  | _ => (0, 0)

/-- A tile's mark read at its place in the order, after the stores into the tile: no byte is read, so it races with nothing (R237,
R239). -/
def State.seenTile (s : State) (c : Context) (core : Nat) (space : Option Nat) (xs : List Run) : State :=
  (s.visitAll ⟨c, core, none, false, 0⟩ space xs false).1
/-- TDQ (R188). -/
def execTdq (m : Bool) (d : VReg) (a : HReg) (b : VReg) : State → Out :=
  runWord (.tdq m d a b) { s := m, roles := notCopy, once := Group.someActs } fun s r g => do
    let n ← g.uniform b
    let t := s.teamOf r
    let x ← tileHandle g t a n.toNat 1 false
    if x.scr then
      let b := x.base.toNat / 2048 + n.toNat
      let k := t.mark b
      let s := s.seenTile (s.ctxOf t) t.core (some t.tid) (scrRuns 0 (2048 * b) 2048 (.ofNat 64 (2048 * b)))
      return (s, (g.putU d (markWord k.state k.nonfin k.type k.swz)).putU (nextReg d) k.const)
    else
      let va := x.base + .ofNat 64 (2048 * n.toNat)
      let acc := Acc.load ((g.performers true true).headD 0) va 2048
      checkEach (·.addr) [acc] [(23, fun a => !canonical a.addr)]
      let c := s.ctxOf t
      let ls ← s.translateAll c .read [acc]
      if ls.any fun (a, l) => s.frozen c.num (l.page a.addr) then .error (.wait .frozen s) else
      let (lo, hi) := match ls with | (_, l) :: _ => s.globalMark x l va | [] => (0, 0)
      let s := match ls with | (_, l) :: _ => s.seenTile c t.core none (lineRuns (l.line va) va.toNat 2048 va) | [] => s
      return (s, (g.putU d lo).putU (nextReg d) hi)

/-- The 2,048 bytes of a tile whose elements all hold a code (R45, R189). -/
def tileBytes (x : Handle) (pattern : Word) : List Byte :=
  let code := if isNarrowType x.elem then pattern.toNat % 2 ^ (nfmtOf x.fmt).width
    else leNat (storeBytes x.elem pattern)
  if x.bits = 4 then List.replicate 2048 (.ofNat 8 (code + 16 * code))
  else (List.replicate (16384 / x.bits) (natLe (x.bits / 8) code)).flatten

/-- The mark of a filled block: R184 on its contents, the handle's type, any swizzle (R186). -/
def filledMark (x : Handle) (bs : List Byte) : Mark :=
  let j := judgeTile x.elem x.fmt bs
  ⟨j.state, .ofNat 32 j.const, j.nonfin, x.elem, 3, x.fmt⟩

/-- The stores of tiles n to n + count − 1 from a base, a line at a time, in ascending order. -/
def tileStores (f : Nat) (base : DWord) (n count : Nat) (bs : List Byte) : List Acc :=
  (List.range (16 * count)).map fun i =>
    .store f (base + .ofNat 64 (2048 * n + 128 * i)) ((bs.drop (i % 16 * 128)).take 128)

/-- TDSET (R189). -/
def execTdset (m : Bool) (d : HReg) (a b : VReg) : State → Out :=
  runWord (.tdset m d a b) { s := m, roles := notCopy, once := Group.someActs } fun s r g => do
    let n ← g.uniform a
    let count ← g.uniform (nextReg a)
    let pattern ← g.uniform b
    let fs := g.performers true true
    let x ← tileHandle g (s.teamOf r) d n.toNat count.toNat true
    let bs := tileBytes x pattern
    let xs := tileStores (fs.headD 0) x.base n.toNat count.toNat bs
    if x.scr then
      let (s, _) ← s.scrAccess r g .write 1 0 (some (x.elem, x.fmt)) xs
      let blocks := (List.range count.toNat).map (x.base.toNat / 2048 + n.toNat + ·)
      return ((s.modTeam r.tid fun t => blocks.foldl (fun t b => t.setMark b (filledMark x bs)) t).interim none r.tid blocks, g)
    else
      let (s, _) ← s.globalAccess r g .write 1 xs
      return (s, g)

end Sys2Proof.Machine
end

