-- ==== Sys2Proof/Machine/Dispatch.lean ====
section
/-! DEFINITION. One arm per constructor of Instr: each instruction and step to its meaning. -/
namespace Sys2Proof.Machine

/-- What an instruction, or a step of another agent, does. -/
def exec (i : Instr) (s : State) : Host.Outcome State Fault Refusal :=
  match i with
  | .nop m => Sys2Proof.Machine.execNop m s
  | .endif m => Sys2Proof.Machine.execEndif m s
  | .ret m a => Sys2Proof.Machine.execRet m a s
  | .brx m a => Sys2Proof.Machine.execBrx m a s
  | .exit m => Sys2Proof.Machine.execExit m s
  | .yieldG m => Sys2Proof.Machine.execYieldG m s
  | .launch m d a b => Sys2Proof.Machine.execLaunch m d a b s
  | .lwait m d a => Sys2Proof.Machine.execLwait m d a s
  | .trap m n => Sys2Proof.Machine.execTrap m n s
  | .tret m => Sys2Proof.Machine.execTret m s
  | .xsave m k => Sys2Proof.Machine.execXsave m k s
  | .xrst m k => Sys2Proof.Machine.execXrst m k s
  | .esc m n => Sys2Proof.Machine.execEsc m n s
  | .rqmv m d a b => Sys2Proof.Machine.execRqmv m d a b s
  | .bra m o => Sys2Proof.Machine.execBra m o s
  | .call m o => Sys2Proof.Machine.execCall m o s
  | .ifP m a k => Sys2Proof.Machine.execIfP m a k s
  | .elseP m k => Sys2Proof.Machine.execElseP m k s
  | .loop m k => Sys2Proof.Machine.execLoop m k s
  | .endloop m k => Sys2Proof.Machine.execEndloop m k s
  | .brk m a k => Sys2Proof.Machine.execBrk m a k s
  | .nextP m a k => Sys2Proof.Machine.execNextP m a k s
  | .mode m a => Sys2Proof.Machine.execMode m a s
  | .gmode m d => Sys2Proof.Machine.execGmode m d s
  | .gshape m d k => Sys2Proof.Machine.execGshape m d k s
  | .shape m d l t => Sys2Proof.Machine.execShape m d l t s
  | .modet m w u t => Sys2Proof.Machine.execModet m w u t s
  | .moder m r => Sys2Proof.Machine.execModer m r s
  | .modeg m g p => Sys2Proof.Machine.execModeg m g p s
  | .modef m w t z => Sys2Proof.Machine.execModef m w t z s
  | .add m d a b => Sys2Proof.Machine.execAdd m d a b s
  | .sub m d a b => Sys2Proof.Machine.execSub m d a b s
  | .mul m d a b => Sys2Proof.Machine.execMul m d a b s
  | .mulh m d a b => Sys2Proof.Machine.execMulh m d a b s
  | .mad m d a b => Sys2Proof.Machine.execMad m d a b s
  | .min m d a b => Sys2Proof.Machine.execMin m d a b s
  | .max m d a b => Sys2Proof.Machine.execMax m d a b s
  | .abs m d a => Sys2Proof.Machine.execAbs m d a s
  | .neg m d a => Sys2Proof.Machine.execNeg m d a s
  | .and m d a b => Sys2Proof.Machine.execAnd m d a b s
  | .or m d a b => Sys2Proof.Machine.execOr m d a b s
  | .xor m d a b => Sys2Proof.Machine.execXor m d a b s
  | .not m d a => Sys2Proof.Machine.execNot m d a s
  | .shl m d a b => Sys2Proof.Machine.execShl m d a b s
  | .shr m d a b => Sys2Proof.Machine.execShr m d a b s
  | .sar m d a b => Sys2Proof.Machine.execSar m d a b s
  | .rot m d a b => Sys2Proof.Machine.execRot m d a b s
  | .popc m d a => Sys2Proof.Machine.execPopc m d a s
  | .clz m d a => Sys2Proof.Machine.execClz m d a s
  | .brev m d a => Sys2Proof.Machine.execBrev m d a s
  | .bfx m d a b => Sys2Proof.Machine.execBfx m d a b s
  | .bfi m d a b => Sys2Proof.Machine.execBfi m d a b s
  | .sel m d a b => Sys2Proof.Machine.execSel m d a b s
  | .mov m d a => Sys2Proof.Machine.execMov m d a s
  | .cvt m d a => Sys2Proof.Machine.execCvt m d a s
  | .cmpEq m d a b => Sys2Proof.Machine.execCmpEq m d a b s
  | .cmpNe m d a b => Sys2Proof.Machine.execCmpNe m d a b s
  | .cmpLt m d a b => Sys2Proof.Machine.execCmpLt m d a b s
  | .cmpLe m d a b => Sys2Proof.Machine.execCmpLe m d a b s
  | .cmpGt m d a b => Sys2Proof.Machine.execCmpGt m d a b s
  | .cmpGe m d a b => Sys2Proof.Machine.execCmpGe m d a b s
  | .addi m d a k => Sys2Proof.Machine.execAddi m d a k s
  | .andi m d a k => Sys2Proof.Machine.execAndi m d a k s
  | .ori m d a k => Sys2Proof.Machine.execOri m d a k s
  | .xori m d a k => Sys2Proof.Machine.execXori m d a k s
  | .shli m d a k => Sys2Proof.Machine.execShli m d a k s
  | .shri m d a k => Sys2Proof.Machine.execShri m d a k s
  | .cmpiEq m d a k => Sys2Proof.Machine.execCmpiEq m d a k s
  | .cmpiNe m d a k => Sys2Proof.Machine.execCmpiNe m d a k s
  | .cmpiLt m d a k => Sys2Proof.Machine.execCmpiLt m d a k s
  | .cmpiLe m d a k => Sys2Proof.Machine.execCmpiLe m d a k s
  | .cmpiGt m d a k => Sys2Proof.Machine.execCmpiGt m d a k s
  | .cmpiGe m d a k => Sys2Proof.Machine.execCmpiGe m d a k s
  | .li m d k => Sys2Proof.Machine.execLi m d k s
  | .lhi m d k => Sys2Proof.Machine.execLhi m d k s
  | .bset m d a b => Sys2Proof.Machine.execBset m d a b s
  | .badd m d a b => Sys2Proof.Machine.execBadd m d a b s
  | .bmov m d a => Sys2Proof.Machine.execBmov m d a s
  | .bmovV m d a => Sys2Proof.Machine.execBmovV m d a s
  | .bget m d a k => Sys2Proof.Machine.execBget m d a k s
  | .fadd m d a b => Sys2Proof.Machine.execFadd m d a b s
  | .fsub m d a b => Sys2Proof.Machine.execFsub m d a b s
  | .fmul m d a b => Sys2Proof.Machine.execFmul m d a b s
  | .ffma m d a b => Sys2Proof.Machine.execFfma m d a b s
  | .fmin m d a b => Sys2Proof.Machine.execFmin m d a b s
  | .fmax m d a b => Sys2Proof.Machine.execFmax m d a b s
  | .fminn m d a b => Sys2Proof.Machine.execFminn m d a b s
  | .fmaxn m d a b => Sys2Proof.Machine.execFmaxn m d a b s
  | .fabs m d a => Sys2Proof.Machine.execFabs m d a s
  | .fneg m d a => Sys2Proof.Machine.execFneg m d a s
  | .fcpys m d a b => Sys2Proof.Machine.execFcpys m d a b s
  | .frcp m d a => Sys2Proof.Machine.execFrcp m d a s
  | .frsq m d a => Sys2Proof.Machine.execFrsq m d a s
  | .fsqrt m d a => Sys2Proof.Machine.execFsqrt m d a s
  | .fex2 m d a => Sys2Proof.Machine.execFex2 m d a s
  | .flg2 m d a => Sys2Proof.Machine.execFlg2 m d a s
  | .fsin m d a => Sys2Proof.Machine.execFsin m d a s
  | .fcos m d a => Sys2Proof.Machine.execFcos m d a s
  | .fdiv m d a b => Sys2Proof.Machine.execFdiv m d a b s
  | .fcls m d a => Sys2Proof.Machine.execFcls m d a s
  | .frnd m d a => Sys2Proof.Machine.execFrnd m d a s
  | .fdot2 m d a b => Sys2Proof.Machine.execFdot2 m d a b s
  | .fcmpEq m d a b => Sys2Proof.Machine.execFcmpEq m d a b s
  | .fcmpNe m d a b => Sys2Proof.Machine.execFcmpNe m d a b s
  | .fcmpLt m d a b => Sys2Proof.Machine.execFcmpLt m d a b s
  | .fcmpLe m d a b => Sys2Proof.Machine.execFcmpLe m d a b s
  | .fcmpGt m d a b => Sys2Proof.Machine.execFcmpGt m d a b s
  | .fcmpGe m d a b => Sys2Proof.Machine.execFcmpGe m d a b s
  | .fcmpUn m d a b => Sys2Proof.Machine.execFcmpUn m d a b s
  | .pk m d a b => Sys2Proof.Machine.execPk m d a b s
  | .upk m d a j => Sys2Proof.Machine.execUpk m d a j s
  | .qnt m d a b => Sys2Proof.Machine.execQnt m d a b s
  | .dqn m d a b => Sys2Proof.Machine.execDqn m d a b s
  | .dp4 m d a b => Sys2Proof.Machine.execDp4 m d a b s
  | .pand m d a b => Sys2Proof.Machine.execPand m d a b s
  | .por m d a b => Sys2Proof.Machine.execPor m d a b s
  | .pxor m d a b => Sys2Proof.Machine.execPxor m d a b s
  | .pnot m d a => Sys2Proof.Machine.execPnot m d a s
  | .pmov m d a => Sys2Proof.Machine.execPmov m d a s
  | .pany m d a => Sys2Proof.Machine.execPany m d a s
  | .pall m d a => Sys2Proof.Machine.execPall m d a s
  | .pcnt m d a => Sys2Proof.Machine.execPcnt m d a s
  | .ballot m d a => Sys2Proof.Machine.execBallot m d a s
  | .shfl m d a b => Sys2Proof.Machine.execShfl m d a b s
  | .shfx m d a b => Sys2Proof.Machine.execShfx m d a b s
  | .bcst m d a b => Sys2Proof.Machine.execBcst m d a b s
  | .redgAdd m d a => Sys2Proof.Machine.execRedgAdd m d a s
  | .redgMin m d a => Sys2Proof.Machine.execRedgMin m d a s
  | .redgMax m d a => Sys2Proof.Machine.execRedgMax m d a s
  | .redgAnd m d a => Sys2Proof.Machine.execRedgAnd m d a s
  | .redgOr m d a => Sys2Proof.Machine.execRedgOr m d a s
  | .redgXor m d a => Sys2Proof.Machine.execRedgXor m d a s
  | .redgArgmin m d a => Sys2Proof.Machine.execRedgArgmin m d a s
  | .redgArgmax m d a => Sys2Proof.Machine.execRedgArgmax m d a s
  | .scanAdd m d a => Sys2Proof.Machine.execScanAdd m d a s
  | .scanMin m d a => Sys2Proof.Machine.execScanMin m d a s
  | .scanMax m d a => Sys2Proof.Machine.execScanMax m d a s
  | .rng m d => Sys2Proof.Machine.execRng m d s
  | .rngj m a => Sys2Proof.Machine.execRngj m a s
  | .rngs m a => Sys2Proof.Machine.execRngs m a s
  | .clk m d => Sys2Proof.Machine.execClk m d s
  | .gid m d k => Sys2Proof.Machine.execGid m d k s
  | .rdsys m d n => Sys2Proof.Machine.execRdsys m d n s
  | .wrsys m a n => Sys2Proof.Machine.execWrsys m a n s
  | .ld m d a b n => Sys2Proof.Machine.execLd m d a b n s
  | .st m d a b n => Sys2Proof.Machine.execSt m d a b n s
  | .ldx m d a n => Sys2Proof.Machine.execLdx m d a n s
  | .stx m d a n => Sys2Proof.Machine.execStx m d a n s
  | .ldc m d a n => Sys2Proof.Machine.execLdc m d a n s
  | .pref m a b n => Sys2Proof.Machine.execPref m a b n s
  | .lck m d a b => Sys2Proof.Machine.execLck m d a b s
  | .ulk m a b => Sys2Proof.Machine.execUlk m a b s
  | .fencePkg m => Sys2Proof.Machine.execFencePkg m s
  | .fenceHost m => Sys2Proof.Machine.execFenceHost m s
  | .fenceSys m => Sys2Proof.Machine.execFenceSys m s
  | .aadd m n d a b => Sys2Proof.Machine.execAadd m n d a b s
  | .amin m n d a b => Sys2Proof.Machine.execAmin m n d a b s
  | .amax m n d a b => Sys2Proof.Machine.execAmax m n d a b s
  | .aand m n d a b => Sys2Proof.Machine.execAand m n d a b s
  | .aor m n d a b => Sys2Proof.Machine.execAor m n d a b s
  | .axor m n d a b => Sys2Proof.Machine.execAxor m n d a b s
  | .axch m n d a b => Sys2Proof.Machine.execAxch m n d a b s
  | .acas m n d a b => Sys2Proof.Machine.execAcas m n d a b s
  | .afadd m n d a b => Sys2Proof.Machine.execAfadd m n d a b s
  | .afmin m n d a b => Sys2Proof.Machine.execAfmin m n d a b s
  | .afmax m n d a b => Sys2Proof.Machine.execAfmax m n d a b s
  | .aminx m n d a b => Sys2Proof.Machine.execAminx m n d a b s
  | .amaxx m n d a b => Sys2Proof.Machine.execAmaxx m n d a b s
  | .cpy m d a b => Sys2Proof.Machine.execCpy m d a b s
  | .cpyt m d a b => Sys2Proof.Machine.execCpyt m d a b s
  | .cpyg m d a b => Sys2Proof.Machine.execCpyg m d a b s
  | .cpys m d a b => Sys2Proof.Machine.execCpys m d a b s
  | .waitany m d a => Sys2Proof.Machine.execWaitany m d a s
  | .waitall m a => Sys2Proof.Machine.execWaitall m a s
  | .tagffr m d a => Sys2Proof.Machine.execTagffr m d a s
  | .tagclr m a => Sys2Proof.Machine.execTagclr m a s
  | .taggt m d a k => Sys2Proof.Machine.execTaggt m d a k s
  | .rput m d a b => Sys2Proof.Machine.execRput m d a b s
  | .rtake m d a => Sys2Proof.Machine.execRtake m d a s
  | .rpeek m d a b => Sys2Proof.Machine.execRpeek m d a b s
  | .bar m a b => Sys2Proof.Machine.execBar m a b s
  | .barv m a => Sys2Proof.Machine.execBarv m a s
  | .arrv m a b => Sys2Proof.Machine.execArrv m a b s
  | .hld m d a b => Sys2Proof.Machine.execHld m d a b s
  | .hst m d a b => Sys2Proof.Machine.execHst m d a b s
  | .hset m d a b => Sys2Proof.Machine.execHset m d a b s
  | .hget m d a b => Sys2Proof.Machine.execHget m d a b s
  | .hchk m d a => Sys2Proof.Machine.execHchk m d a s
  | .tld m d a b => Sys2Proof.Machine.execTld m d a b s
  | .tst m d a b => Sys2Proof.Machine.execTst m d a b s
  | .nzs m d a b => Sys2Proof.Machine.execNzs m d a b s
  | .lodld m d a b => Sys2Proof.Machine.execLodld m d a b s
  | .lodq m d a b => Sys2Proof.Machine.execLodq m d a b s
  | .nput m d a b => Sys2Proof.Machine.execNput m d a b s
  | .nget m d a b => Sys2Proof.Machine.execNget m d a b s
  | .nredAdd m d a b => Sys2Proof.Machine.execNredAdd m d a b s
  | .nredMin m d a b => Sys2Proof.Machine.execNredMin m d a b s
  | .nredMax m d a b => Sys2Proof.Machine.execNredMax m d a b s
  | .gang m a => Sys2Proof.Machine.execGang m a s
  | .fmtb m d a => Sys2Proof.Machine.execFmtb m d a s
  | .mma m d a b => Sys2Proof.Machine.execMma m d a b s
  | .aclr m d b => Sys2Proof.Machine.execAclr m d b s
  | .ald m d a b => Sys2Proof.Machine.execAld m d a b s
  | .ast m d a b => Sys2Proof.Machine.execAst m d a b s
  | .amov m d a b => Sys2Proof.Machine.execAmov m d a b s
  | .adrn m d a b => Sys2Proof.Machine.execAdrn m d a b s
  | .adexp m d a b => Sys2Proof.Machine.execAdexp m d a b s
  | .tdq m d a b => Sys2Proof.Machine.execTdq m d a b s
  | .tdset m d a b => Sys2Proof.Machine.execTdset m d a b s
  | .bcl m d a b => Sys2Proof.Machine.execBcl m d a b s
  | .prn m a b => Sys2Proof.Machine.execPrn m a b s
  | .mrch m d a b => Sys2Proof.Machine.execMrch m d a b s
  | .mres m d a => Sys2Proof.Machine.execMres m d a s
  | .bsmp m d a b => Sys2Proof.Machine.execBsmp m d a b s
  | .trace m d a b => Sys2Proof.Machine.execTrace m d a b s
  | .rast m a b => Sys2Proof.Machine.execRast m a b s
  | .hitq m d k => Sys2Proof.Machine.execHitq m d k s
  | .spawn m a b => Sys2Proof.Machine.execSpawn m a b s
  | .payl m d k => Sys2Proof.Machine.execPayl m d k s
  | .dpt m d a b => Sys2Proof.Machine.execDpt m d a b s
  | .illegalWord sub w => Sys2Proof.Machine.execIllegalWord sub w s
  | .extensionWord w => Sys2Proof.Machine.execExtensionWord w s
  | .mmaCompletion core => Sys2Proof.Machine.execMmaCompletion core s
  | .copyCompletion op => Sys2Proof.Machine.execCopyCompletion op s
  | .nputCompletion op => Sys2Proof.Machine.execNputCompletion op s
  | .ngetCompletion op => Sys2Proof.Machine.execNgetCompletion op s
  | .nredCompletion op => Sys2Proof.Machine.execNredCompletion op s
  | .nredRetry op => Sys2Proof.Machine.execNredRetry op s
  | .adrnDrainApply op => Sys2Proof.Machine.execAdrnDrainApply op s
  | .bclCompletion op => Sys2Proof.Machine.execBclCompletion op s
  | .prnCompletion op => Sys2Proof.Machine.execPrnCompletion op s
  | .rayMarchEnd op f => Sys2Proof.Machine.execRayMarchEnd op f s
  | .traversalEnd ray => Sys2Proof.Machine.execTraversalEnd ray s
  | .boardingIdleTimeout core => Sys2Proof.Machine.execBoardingIdleTimeout core s
  | .boardingGroupFormation core bin => Sys2Proof.Machine.execBoardingGroupFormation core bin s
  | .rastCompletion op => Sys2Proof.Machine.execRastCompletion op s
  | .convoyMemberStart convoy => Sys2Proof.Machine.execConvoyMemberStart convoy s
  | .saveEnd tid => Sys2Proof.Machine.execSaveEnd tid s
  | .gridRetirement ctx serial => Sys2Proof.Machine.execGridRetirement ctx serial s
  | .replayMatch who => Sys2Proof.Machine.execReplayMatch who s
  | .flipCompletion ctx page => Sys2Proof.Machine.execFlipCompletion ctx page s
  | .resetRelease b => Sys2Proof.Machine.execResetRelease b s
  | .groupPromotion g => Sys2Proof.Machine.execGroupPromotion g s
  | .resultReturn g => Sys2Proof.Machine.execResultReturn g s
  | .trapEntry g => Sys2Proof.Machine.execTrapEntry g s
  | .placementDecision => Sys2Proof.Machine.execPlacementDecision s
  | .preemptTake g => Sys2Proof.Machine.execPreemptTake g s
  | .priorityAgeing ctx serial => Sys2Proof.Machine.execPriorityAgeing ctx serial s
  | .manifestStall ctx => Sys2Proof.Machine.execManifestStall ctx s
  | .walkerFill core a => Sys2Proof.Machine.execWalkerFill core a s
  | .pageMigration ctx page frame bad => Sys2Proof.Machine.execPageMigration ctx page frame bad s
  | .flipreqReply h page => Sys2Proof.Machine.execFlipreqReply h page s
  | .hostLineReply h req x => Sys2Proof.Machine.execHostLineReply h req x s
  | .launchMessage h record => Sys2Proof.Machine.execLaunchMessage h record s
  | .wopen h win base units => Sys2Proof.Machine.execWopen h win base units s
  | .wread h win off len => Sys2Proof.Machine.execWread h win off len s
  | .wwrite h win off data => Sys2Proof.Machine.execWwrite h win off data s
  | .flip h page toHost => Sys2Proof.Machine.execFlip h page toHost s
  | .drain h ring max => Sys2Proof.Machine.execDrain h ring max s
  | .supply h records => Sys2Proof.Machine.execSupply h records s
  | .unknownMessage h kind => Sys2Proof.Machine.execUnknownMessage h kind s
  | .frameDiscard why => Sys2Proof.Machine.execFrameDiscard why s
  | .retransmitTimeout conn => Sys2Proof.Machine.execRetransmitTimeout conn s
  | .connectionDown conn => Sys2Proof.Machine.execConnectionDown conn s
  | .pput h addr data => Sys2Proof.Machine.execPput h addr data s
  | .pget h addr len => Sys2Proof.Machine.execPget h addr len s
  | .pred h c => Sys2Proof.Machine.execPred h c s
  | .pfwd h addr kind data => Sys2Proof.Machine.execPfwd h addr kind data s
  | .peerReservedKind h kind => Sys2Proof.Machine.execPeerReservedKind h kind s
  | .peerReply h req x => Sys2Proof.Machine.execPeerReply h req x s
  | .create h ctx world pad root desc => Sys2Proof.Machine.execCreate h ctx world pad root desc s
  | .destroy h ctx => Sys2Proof.Machine.execDestroy h ctx s
  | .jobset h index ndev pre => Sys2Proof.Machine.execJobset h index ndev pre s
  | .migset h val => Sys2Proof.Machine.execMigset h val s
  | .disc h first count => Sys2Proof.Machine.execDisc h first count s
  | .errdrain h die count => Sys2Proof.Machine.execErrdrain h die count s
  | .evdrain h count => Sys2Proof.Machine.execEvdrain h count s
  | .health h die => Sys2Proof.Machine.execHealth h die s
  | .cert h off len => Sys2Proof.Machine.execCert h off len s
  | .quote h nonce => Sys2Proof.Machine.execQuote h nonce s
  | .worldb h kind idx world => Sys2Proof.Machine.execWorldb h kind idx world s
  | .worldr h first count world => Sys2Proof.Machine.execWorldr h first count world s
  | .fwload h off data => Sys2Proof.Machine.execFwload h off data s
  | .fwcommit h => Sys2Proof.Machine.execFwcommit h s
  | .repair h kind idx => Sys2Proof.Machine.execRepair h kind idx s
  | .pwrlim h watts => Sys2Proof.Machine.execPwrlim h watts s
  | .mgmtUnknownOp h op => Sys2Proof.Machine.execMgmtUnknownOp h op s
  | .scrub find => Sys2Proof.Machine.execScrub find s
  | .wearUpdate die m => Sys2Proof.Machine.execWearUpdate die m s
  | .throttleBegin => Sys2Proof.Machine.execThrottleBegin s
  | .throttleEnd => Sys2Proof.Machine.execThrottleEnd s
  | .thermalTrip => Sys2Proof.Machine.execThermalTrip s
  | .resetAssert => Sys2Proof.Machine.execResetAssert s
  | .logicalClockAdvance core => Sys2Proof.Machine.execLogicalClockAdvance core s
  | .powerFault => Sys2Proof.Machine.execPowerFault s

end Sys2Proof.Machine
end

