-- ==== Sys2Proof/Machine/Turns.lean ====
section
/-! DEFINITION. Fetching an instruction, what a group and the units do at their turn, whose turn comes next, and placing a
word where the next instruction is fetched (R93, R222 to R227, R332, R346). -/
namespace Sys2Proof.Machine

/-! ## Fetch (R93, R346) -/

/-- Fetching a group's next word; a fetch fault is taken at that word (R346). -/
def State.fetch (s : State) (r : GRef) (g : Group) : Except Stop Word :=
  if !g.fwdOpen.isEmpty then .error (.wait .forwarded s) else
  let c := s.ctxOf (s.teamOf r)
  match ((s.viewOf r g).readIn (c.codeAddr g) 4 .fetch).run with
  | .ok (bs, _) => .ok (.ofNat 32 (leNat bs))
  | .error e => .error (s.readStop r c e true)
/-- The state in which a fetched word executes: the walk of its fetch has made the core a sharer of the table lines (R355). -/
def State.fetched (s : State) (r : GRef) (g : Group) : State :=
  let t := s.teamOf r
  let c := s.ctxOf t
  s.shareWalk c t.core (c.codeAddr g)
/-- The instruction a word is: a word that is none raises its trap at its own boundary (R73, R74). -/
def wordInstr (w : Word) : Instr :=
  match decode w with
  | .ok i => i
  | .error (.illegal sub) => .illegalWord sub w
  | .error .extension => .extensionWord w
/-- Issuing a group's next instruction. -/
def State.issue (s : State) (r : GRef) (g : Group) : Out :=
  match s.fetch r g with
  | .ok w => exec (wordInstr w) (s.fetched r g)
  | .error (.wait w t) => .next (t.waitAt r w)
  | .error (.trap c sub tv) => .next (s.takeTrap r ⟨c, sub, tv.getD 0⟩)

/-! ## A group's turn (R225 to R227) -/

/-- Groups in the active set of a group's port. -/
def State.activeCount (s : State) (r : GRef) (g : Group) : Nat :=
  ((s.portGroups (s.teamOf r).core g.port).filter (·.2.inSet)).length
/-- A group that has just parked gives up its place to a ready pending group, when one exists; one whose next instruction only
waits for an owner's reply has not parked (R225, R226). -/
def State.parked (s : State) (r : GRef) : State :=
  match s.group? r with
  | some g => if g.wait != .none && g.wait != .forwarded && g.inSet then s.swapOut r else s
  | none => s
/-- What follows an outcome. -/
def Outcome.andThen (x : Out) (f : State → State) : Out :=
  match x with
  | .next s => .next (f s)
  | .fault e => .fault e
  | .refused e => .refused e
/-- A pending group's turn: the one of its port that has been ready longest takes a free place; one that waits becomes ready when
its instruction could issue (R225, R226). -/
def State.pendingTurn (s : State) (r : GRef) (g : Group) : Out :=
  if g.wait = .none then
    if s.activeCount r g < Config.portActive
        && ((longestReady (s.portGroups (s.teamOf r).core g.port)).map (·.1)).all (· == r) then
      .next { s.modGroup r fun g => { g with inSet := true, entered := s.nextId } with nextId := s.nextId + 1 }
    else .next s
  else
    match s.issue r g with
    | .next t =>
      if t.waitOf r = .none || t.waitOf r = .forwarded then
        .next { s.modGroup r fun g => { g with wait := .none, readySince := s.nextId } with nextId := s.nextId + 1 }
      else .next s
    | x => x
/-- Every owner has answered what a group's instruction has asked so far (R63). -/
def Group.answered (g : Group) : Bool := g.wait == .forwarded && g.fwdOpen.isEmpty && !g.fwd.isEmpty && !g.ended && !g.left
/-- A group's turn: a pre-emption or a trap due at its boundary comes first, unless accesses of its instruction have been performed,
then the results it waits for at a marker, then its next instruction (R61, R226, R332, R333). -/
def State.groupTurn (s : State) (r : GRef) : Out :=
  match s.group? r with
  | none => .next s
  | some g =>
    let whole := g.fwdOpen.isEmpty && !g.doneAway && !g.priv
    if g.ended then .next s
    else if g.left && savingTeam (s.teamOf r) then
      .next (if g.inSet then s.modGroup r fun g => { g with inSet := false } else s)
    else if g.preempt.isSome && whole then Sys2Proof.Machine.execPreemptTake r s
    else if g.trapDue.isSome && whole then Sys2Proof.Machine.execTrapEntry r s
    else if g.wait = .marker then Sys2Proof.Machine.execResultReturn r s
    else if !g.inSet && !g.answered then s.pendingTurn r g
    else Outcome.andThen (s.issue r g) (·.parked r)

/-! ## The units' turn -/

/-- A turn, or a step, leads to another state. -/
def Outcome.moves (x : Out) (s : State) : Bool := match x with
  | .next t => t != s
  | _ => false

/-- The events an operation may come to. -/
def Op.events (o : Op) : List Instr :=
  match o.kind with
  | .cpy _ _ _ _ _ _ _ => [.copyCompletion o.id]
  | .cpyt _ _ _ _ _ => [.copyCompletion o.id]
  | .rows _ _ _ _ _ _ _ => [.copyCompletion o.id]
  | .xfer put _ _ _ _ _ => [if put then .nputCompletion o.id else .ngetCompletion o.id]
  | .nred _ _ _ _ _ _ _ _ => [.nredCompletion o.id, .nredRetry o.id]
  | .adrn _ _ _ _ _ _ _ _ => [.adrnDrainApply o.id]
  | .bcl _ _ _ => [.bclCompletion o.id]
  | .prn _ _ _ _ _ => [.prnCompletion o.id]
  | .mrch _ _ _ _ _ _ _ rays => rays.map fun x => .rayMarchEnd o.id x.f
  | .rast _ _ => [.rastCompletion o.id]
/-- The events the package's units may come to by themselves, in the order in which they are tried; those that only time
or the host brings stand last or not at all. -/
def State.unitEvents (s : State) : List Instr :=
  (if s.boot.step = 0 then [.resetRelease ⟨0, 0, none, []⟩] else [])
    ++ s.matrix.map (fun m => .mmaCompletion m.core)
    ++ s.ops.flatMap Op.events
    ++ s.rays.map (fun x => .traversalEnd x.id)
    ++ s.bins.map (fun b => .boardingGroupFormation b.1 b.2)
    ++ s.teams.map (fun t => .saveEnd t.tid)
    ++ s.flips.map (fun f => .flipCompletion f.ctx f.page)
    ++ s.contexts.map (fun c => .replayMatch (.hostLaunch c.num))
    ++ s.convoys.map (fun v => .convoyMemberStart v.id)
    ++ (if s.saved.isEmpty && s.eligibles.isEmpty then [] else [.placementDecision])
    ++ s.grids.map (fun x => .gridRetirement x.ctx x.serial)
    ++ s.bins.map (fun b => .boardingIdleTimeout b.1)
    ++ (s.teams.flatMap fun t => (List.range t.groups.length).map fun i => .groupPromotion ⟨t.tid, i⟩)
/-- A state other than s. -/
def State.other (s t : State) : Option State := if t = s then none else some t
/-- What the landing die does by itself, in the order in which it is tried: held messages, migrations, waiting requests. -/
def State.landingTurn (s : State) : Option State :=
  s.other s.retryHeld <|> s.other s.settleMigs <|> s.other s.serveHost
/-- A group cannot go on by itself: it has ended, or it waits for what only its grid or the schedule brings, and its turn changes
nothing. -/
def State.stuck (s : State) (r : GRef) : Bool :=
  let s : State := { s with cur := some r }
  match s.group? r with
  | some g => g.ended || ([Wait.manifest, .barrier, .tag, .ring, .captures].contains g.wait && !Outcome.moves (s.groupTurn r) s)
  | none => true
/-- Nothing that could bring a grid another continuation is under way: no team of it is still to be placed, started or restored, it
has no ray in flight, and none of its groups and operations can go on. -/
def State.noMoreComing (s : State) (x : Grid) : Bool :=
  let mine (t : Team) : Bool := t.ctx == x.ctx && t.serial == x.serial
  !s.queued x && !s.saved.any mine && !s.rays.any (fun y => y.ctx == x.ctx && y.serial == x.serial)
    && !s.convoys.any (fun v => v.ctx == x.ctx && v.serial == x.serial && !(s.unstarted v).isEmpty)
    && (s.teams.filter mine).all fun t => (List.range t.groups.length).all (fun i => s.stuck ⟨t.tid, i⟩)
      && !s.matrix.any (fun m => m.members.any fun y => y.1.tid == t.tid)
      && s.ops.all fun o => o.tid != t.tid || (o.waits.isEmpty && o.events.all fun i => !Outcome.moves (exec i s) s)
/-- A recorded formation whose members are absent or others (R294, R367). DESIGN CHOICE (log entry 46): a formation has no issuing
group; the first group of the grid that runs takes the divergence, or, when none does, the first group of the context. -/
def State.formationDiverges (s : State) (bin : BinKey) : Option State :=
  match s.grid? bin.ctx bin.serial, s.context? bin.ctx with
  | some x, some c =>
    (s.formationRecord c x bin).bind fun (i, want) =>
      if (s.recordedMembers bin want).isSome || !s.noMoreComing x then none else
      let first (p : Team → Bool) : Option GRef := (s.teams.filter p).findSome? fun t =>
        (t.groups.findIdx? fun g => !g.ended && !g.priv).map fun k => ⟨t.tid, k⟩
      (first (fun t => t.ctx == x.ctx && t.serial == x.serial) <|> first (·.ctx == x.ctx)).bind fun r =>
        s.other (s.dueTrap r ⟨.replayDivergence, 0, .ofNat 64 i⟩)
  | _, _ => none
/-- The units' turn: a formation that diverges, what the landing die does, or the first of their events that changes anything. -/
def State.unitTurn (s : State) : Out :=
  match s.bins.findSome? (fun b => s.formationDiverges b.2) <|> s.landingTurn <|> s.unitEvents.findSome? fun i => (match exec i s with
      | .next t => s.other t
      | _ => none) with
  | some t => .next t
  | none => .next s

/-! ## Whose turn comes next -/

/-- Every group of every team. -/
def State.groupRefs (s : State) : List GRef :=
  s.teams.flatMap fun t => (List.range t.groups.length).map fun i => ⟨t.tid, i⟩
/-- A group's place in the order of turns: when it entered the active set, then its team and slot (R226). -/
def State.place? (s : State) (r : GRef) : Nat × GRef := (((s.group? r).map (·.entered)).getD 0, r)
/-- The order of turns. -/
def placeBefore (a b : Nat × GRef) : Bool :=
  a.1 < b.1 || (a.1 == b.1 && (a.2.tid < b.2.tid || (a.2.tid == b.2.tid && a.2.slot < b.2.slot)))
/-- The first group after a place, the first of all after the units; none: the units. -/
def State.nextRef (s : State) (k : Option (Nat × GRef)) : Option GRef :=
  (((s.groupRefs.map s.place?).filter fun x => match k with | some k => placeBefore k x | none => true).foldl
    (fun (acc : Option (Nat × GRef)) x => match acc with
      | none => some x
      | some y => if placeBefore x y then some x else some y) none).map (·.2)
/-- Passing the turn on from a place: to the next of a given interleaving, else in rotation (log entry 23). -/
def State.nextTurn (s : State) (k : Option (Nat × GRef)) : State :=
  match s.turns with
  | r :: rest => { s with cur := some r, turns := rest }
  | [] => { s with cur := s.nextRef k }

/-- The instructions that issue only when none of their group's is in a lane: these, and every one that carries S = 1 (R131, R223). -/
def Instr.serial : Instr → Bool
  | .ifP .. => true
  | .elseP .. => true
  | .endif .. => true
  | .loop .. => true
  | .endloop .. => true
  | .brk .. => true
  | .nextP .. => true
  | .bra .. => true
  | .brx .. => true
  | .call .. => true
  | .ret .. => true
  | .exit .. => true
  | .mode .. => true
  | .modet .. => true
  | .moder .. => true
  | .modeg .. => true
  | .modef .. => true
  | .shape .. => true
  | .rqmv .. => true
  | .redgAdd .. => true
  | .redgMin .. => true
  | .redgMax .. => true
  | .redgAnd .. => true
  | .redgOr .. => true
  | .redgXor .. => true
  | .redgArgmin .. => true
  | .redgArgmax .. => true
  | .scanAdd .. => true
  | .scanMin .. => true
  | .scanMax .. => true
  | .cpy .. => true
  | .cpyt .. => true
  | .cpyg .. => true
  | .cpys .. => true
  | .rput .. => true
  | .rtake .. => true
  | .bar .. => true
  | .barv .. => true
  | .gang .. => true
  | .mma .. => true
  | _ => false
/-- A word issues beside its group's earlier ones (R223). -/
def flows (w : Word) : Bool := !w.getLsbD 31 && (match decode w with | .ok i => !Instr.serial i | .error _ => false)
/-- The group that has had the turn is still the first ready one of those that have a free lane: it has not parked, and its next word
issues beside its earlier ones; the groups before it, which had their turns, wait for their lanes (R223, R226; log entry 23). -/
def State.flowsOn (s : State) (r : GRef) : Bool :=
  match s.group? r with
  | some g => s.turns.isEmpty && !g.ended && g.inSet && g.wait == .none && g.preempt.isNone && g.trapDue.isNone
      && (match s.fetch r g with | .ok w => flows w | .error _ => false)
  | none => false
/-- Passing the turn on from a group: it keeps the turn while it flows on. -/
def State.passTurn (s : State) (r : GRef) (k : Nat × GRef) : State :=
  if s.flowsOn r then { s with cur := some r } else s.nextTurn (some k)

/-- An event of the outside world is no instruction word: those issue only from groups (R223). -/
def Instr.isWord (i : Instr) : Bool := (encode i).isSome
/-- What reaches a module that has stopped: its reset alone (R407, R408). -/
def Instr.isReset : Instr → Bool
  | .resetAssert => true
  | .resetRelease _ => true
  | _ => false
/-- The next event of the outside world or of time. -/
def State.outside (s : State) (i : Instr) : Out :=
  if Instr.isWord i || !(s.powered || Instr.isReset i) then .next s else exec i s
/-- The turn of the group that has it, or of the units; then the next turn. -/
def State.turn (s : State) : Out :=
  if !s.powered then .next s
  else
    match s.cur with
    | some r => Outcome.andThen (s.groupTurn r) (·.passTurn r (s.place? r))
    | none => Outcome.andThen s.unitTurn (·.nextTurn none)
/-- The first group whose forwarded accesses have all been answered: its instruction, whose place is where its owners have
performed them, is not kept apart from the accesses that are performed here (R138, R237). -/
def State.urgent (s : State) : Option GRef :=
  if !s.powered then none else s.groupRefs.find? fun r => ((s.group? r).map Group.answered).getD false
/-- Its turn, which takes none from the group that has it. -/
def State.urgentTurn (s : State) (r : GRef) : Out :=
  Outcome.andThen ({ s with cur := some r }.groupTurn r) fun t => { t with cur := if s.cur = some r then t.cur else s.cur }

/-! ## Placing a word where the next instruction is fetched -/

/-- Where the group whose turn it is fetches its next word, in the package; none when that does not resolve. -/
def State.fetchPlace (s : State) : Option (GRef × Loc) :=
  match s.cur with
  | none => none
  | some r =>
    match s.group? r with
    | none => none
    | some g =>
      let c := s.ctxOf (s.teamOf r)
      match s.translate c (c.codeAddr g) .fetch with
      | .error _ => none
      | .ok l =>
        if !canonical (c.codeAddr g) || s.frozen c.num (l.page (c.codeAddr g)) then none
        else match l.home (c.codeAddr g) with
          | .here x => if s.lineHere x then some (r, x) else none
          | _ => none
/-- No group is answered: each asks its owners again. -/
def State.calm (s : State) : State :=
  { s with teams := s.teams.map fun t => { t with groups := t.groups.map fun g => if g.answered then { g with fwd := [] } else g } }
/-- The team's next turn is an issue of the group `r`. -/
def State.readyToIssue (s : State) (r : GRef) : State :=
  s.calm.modTeam r.tid fun t => { t.modGroup r.slot fun g => { g with
      ended := false, left := false, wait := .none, fwdOpen := [], fwd := [], owed := 0, preempt := none, trapDue := none
      inSet := true }
    with phase := .running }
/-- A module whose bring-up is done, with a context whose first 32 MiB of virtual memory are device memory at 0x0200_0000, with one team of one vector group. -/
def State.loaded (s : State) : State :=
  let mem := ((s.mem.write 0x1000 (natLe 8 0x2001)).write 0x2000 (natLe 8 0x10001)).write 0x10000 (natLe 8 0x0200003F)
  let c : Context := { (default : Context) with num := 0, l0 := 0x1000, nextSerial := 2 }
  let x : Grid := { (default : Grid) with
    ctx := 0, serial := 1, eligible := true, gx := 1, gy := 1, gz := 1, tbase := 127, tags := 64, bud := 64, scr := 2048, acc := 32
    image := List.replicate 64 (.uni 0), placed := 1 }
  let s : State := { s with
    boot := if s.boot.step = 0 then ⟨8, 0, false, true⟩ else s.boot
    mem := mem, contexts := c :: s.contexts.filter (·.num != 0), teams := s.teams.filter (·.ctx != 0)
    grids := x :: s.grids.filter (·.ctx != 0), flips := s.flips.filter (·.ctx != 0), migs := s.migs.filter (·.ctx != 0) }
  let t := s.newTeam x ⟨0, [0], 0, 0, 0⟩ 0 none
  { s.addTeam t with cur := some ⟨t.tid, 0⟩ }
/-- Placing a word where the group whose turn it is fetches; when that does not resolve, a program is loaded first. -/
def State.placeWord (s : State) (w : Nat) : State :=
  let s : State := { s with inbox := [], turns := [], resetN := true, pwrgd := true, tripped := false }
  let put (s : State) (r : GRef) (l : Loc) : State :=
    ((s.putBytes l (natLe 4 w)).unpoison l (granules l.addr 4)).readyToIssue r
  match s.fetchPlace with
  | some (r, l) => put s r l
  | none =>
    let s := s.loaded
    match s.fetchPlace with
    | some (r, l) => put s r l
    | none => s

end Sys2Proof.Machine
end

