-- ==== Sys2Proof/Machine/Step.lean ====
section
/-! DEFINITION. One step: an instruction that its owners have answered, an event of the outside world or of time, or the next turn; and a word stored where it is fetched. -/
namespace Sys2Proof.Machine

/-- One step of the package: an instruction whose owners have all answered goes on at once, before anything else. -/
def step (s : State) : Host.Outcome State Fault Refusal :=
  match s.urgent, s.inbox with
  | some r, _ => s.urgentTurn r
  | none, i :: rest => State.outside { s with inbox := rest } i
  | none, [] => s.turn

/-- The state with an instruction stored where `step` fetches next; every instruction is one 32-bit word (log entry 19). -/
def State.withFetchWord (s : State) (_nbits w : Nat) : State := s.placeWord w

end Sys2Proof.Machine
end

