-- ==== Sys2Proof/Safety.lean ====
section
/-! DEFINITION. What a safe run keeps, and the terms in which the statements about instructions are made. -/
namespace Sys2Proof.Machine

/-! ## What a safe run keeps -/

/-- A register's contents of a legal form: a general register holds sixteen words (R12). -/
def VVal.sized (x : VVal) : Bool :=
  match x with
  | .gen ws => ws.length == 16
  | _ => true
/-- A group's registers have the numbers and widths of R11, a register has one tag in both views (R12, R61), and the reserved
bits of `md` are zero (R21). -/
def Group.sized (g : Group) : Bool :=
  g.v.length == 64 && g.vDue.length == 64 && g.v.all VVal.sized && g.vDue.all VVal.sized
    && g.v.map VVal.rank == g.vDue.map VVal.rank
    && g.h.length == 16 && g.hDue.length == 16 && g.p.length == 8 && g.b.length == 8
    && g.count.length == 16 && g.draw.length == 16 && g.md &&& ~~~mdMask == 0
/-- Every byte store of the package is in canonical form, every group's registers have their sizes, and so have the initial
images of the grids, whose targets' payloads are at most 64 bytes (R217). -/
def State.Inv (s : State) : Bool :=
  s.mem.wf && s.hostMem.wf && s.fwStage.wf && s.fwFlash.all (·.1.wf) && s.migRing.wf
    && (s.teams ++ s.saved).all (fun t => t.scr.wf && t.groups.all Group.sized)
    && s.grids.all (fun x => x.image.length == 64 && x.image.all VVal.sized && x.targets.all (·.payB ≤ 64) && x.const.wf)

/-! ## The group whose turn it is -/

/-- Group `r`, which is `g`, has the turn and its registers have their sizes. -/
structure Holds (s : State) (r : GRef) (g : Group) : Prop where
  cur : s.cur = some r
  found : s.group? r = some g
  sized : g.sized = true
/-- Group `r` has the turn and some fibre of it is active, so that an ordinary word is executed (R86). -/
structure Turn (s : State) (r : GRef) (g : Group) : Prop extends Holds s r g where
  active : g.actives ≠ []
/-- Every active fibre reads `x` from v register `a`: the operand is uniform (R14). -/
def Group.reads (g : Group) (a : VReg) (x : Word) : Prop := ∀ f ∈ g.actives, g.rd a f = x
/-- Every active fibre reads `x` from the pair at `a` (R14, R59). -/
def Group.reads2 (g : Group) (a : VReg) (x : DWord) : Prop :=
  g.reads a (x.extractLsb' 0 32) ∧ g.reads (nextReg a) (x.extractLsb' 32 32)

/-! ## How a word completes -/

/-- The group as an instruction's own effect meets it: its pc names the next word (R60). -/
def Group.begun (g : Group) : Group := { g with pc := g.pc + 1, wait := .none }
/-- The word `i` of marker `m` completes: the package is as before but for the group, which is `g'` retired (R61, R126). -/
def Completes (i : Instr) (m : Bool) (s : State) (r : GRef) (g g' : Group) : Prop :=
  exec i s = .next (s.setGroup r (g'.retire { s := m } g.priv))
/-- The word `i` of marker `m` completes with an effect beyond its group: the package is `t` but for the group (R61, R126). -/
def CompletesIn (i : Instr) (m : Bool) (s t : State) (r : GRef) (g g' : Group) : Prop :=
  exec i s = .next (t.setGroup r (g'.retire { s := m } g.priv))
/-- The word `i` raises a trap: the group takes it at its boundary and nothing else changes (R327). -/
def Traps (i : Instr) (s : State) (r : GRef) (g : Group) (c : Cause) (sub : Nat) (tval : DWord) : Prop :=
  exec i s = .next (s.setGroup r (g.trapped ⟨c, sub, tval⟩))
/-- The word `i` raises a trap that a translation may have raised: the group takes it at its boundary, and nothing else changes but
that the walk may have made its core a sharer of table lines (R327, R355). -/
def TrapsWalked (i : Instr) (s : State) (r : GRef) (g : Group) (c : Cause) (sub : Nat) (tval : DWord) : Prop :=
  ∃ dir, exec i s = .next (State.setGroup { s with tdir := dir } r (g.trapped ⟨c, sub, tval⟩))
/-- The word of an instruction, as `sys.tval` holds it (R325). -/
def wordVal (i : Instr) : DWord := ((encode i).getD 0).setWidth 64
/-- The word `i` waits at its boundary: the group's wait is named, copies of lines it has read are given up, and nothing else
changes (R225, R247). -/
def Waits (i : Instr) (s : State) (r : GRef) (w : Wait) : Prop := exec i s = .next (s.waitAt r w)

/-! ## What the words of one shape do to their group -/

/-- The value a fibre reads of a view of the v registers. -/
def viewAt (v : List VVal) (x : VReg) (f : Nat) : Word := (v.getD x.val (.uni 0)).at f
/-- A view with the results `val` in register `d`: a general register changes in the fibres `on`, a shared one as a whole when
there is such a fibre; every other register is as before (R13, R86, R88). -/
def viewWrote (g : Group) (on : Nat → Bool) (v v' : List VVal) (d : VReg) (val : Nat → Word) : Prop :=
  (∀ f, f < 16 → viewAt v' d f =
    if g.rank d = 2 then (if on f then val f else viewAt v d f)
    else if fibres.any on then val f else viewAt v d f) ∧
  (∀ x, x ≠ d → v'.getD x.val (.uni 0) = v.getD x.val (.uni 0)) ∧
  v'.map VVal.rank = v.map VVal.rank
/-- The flags raised by the executions of an instruction: the union over the fibres that execute (R27, R86). -/
def raisedBy (on : Nat → Bool) (fl : Nat → Word) : Word := ((fibres.filter on).map fl).foldl (· ||| ·) 0
/-- `g'` is `g` with the results `val` in v register `d` and flags raised; nothing else but the pc differs. -/
structure Wrote (g g' : Group) (on : Nat → Bool) (d : VReg) (val : Nat → Word) (fl : Word) : Prop where
  now : viewWrote g on g.v g'.v d val
  due : viewWrote g on g.vDue g'.vDue d val
  rest : { g' with v := g.v, vDue := g.vDue } = { g.begun with flags := g.flags ||| fl }
/-- The word `i` gives v register `d` the results `res` of the fibres `on`, of shape `sh`, when the destination's tag can hold
them (R86, R88). -/
def WritesFor (on : Nat → Bool) (i : Instr) (m : Bool) (s : State) (r : GRef) (g : Group) (d : VReg) (sh : Nat)
    (res : Nat → Word × Word) : Prop :=
  sh ≤ g.rank d → ∃ g', Completes i m s r g g' ∧ Wrote g g' on d (fun f => (res f).1) (raisedBy on fun f => (res f).2)
/-- The word `i` gives v register `d` the results `res` of the active, guard-passing fibres (R86). -/
abbrev Writes (i : Instr) (m : Bool) (s : State) (r : GRef) (g : Group) (d : VReg) (sh : Nat) (res : Nat → Word × Word) :
    Prop :=
  WritesFor g.on i m s r g d sh res
/-- `g'` is `g` with the bits `val` in p register `d` for the fibres in `on`; p0 keeps its value (R18). -/
structure WroteP (g g' : Group) (d : PReg) (on val : Nat → Bool) (fl : Word) : Prop where
  bits : ∀ x : PReg, ∀ f, f < 16 →
    (g'.preg x).getLsbD f = if x = d ∧ d ≠ 0 ∧ on f then val f else (g.preg x).getLsbD f
  rest : { g' with p := g.p } = { g.begun with flags := g.flags ||| fl }
/-- The word `i` gives p register `d` the bits `val` in the active, guard-passing fibres (R18, R86). -/
def WritesP (i : Instr) (m : Bool) (s : State) (r : GRef) (g : Group) (d : PReg) (res : Nat → Bool × Word) : Prop :=
  ∃ g', Completes i m s r g g' ∧ WroteP g g' d g.on (fun f => (res f).1) (raisedBy g.on fun f => (res f).2)
/-- The word `i` gives b register `d` the value `x` and changes nothing else but the pc (R108). -/
def WritesB (i : Instr) (m : Bool) (s : State) (r : GRef) (g : Group) (d : BReg) (x : DWord) : Prop :=
  ∃ g', Completes i m s r g g' ∧ g'.breg d = x ∧ (∀ e, e ≠ d → g'.breg e = g.breg e) ∧ { g' with b := g.b } = g.begun
/-- A view with results in each register of `ws`; every other register is as before (R13, R59, R86). -/
def viewWroteAll (g : Group) (on : Nat → Bool) (v v' : List VVal) (ws : List (VReg × (Nat → Word))) : Prop :=
  (∀ p ∈ ws, ∀ f, f < 16 → viewAt v' p.1 f =
    if g.rank p.1 = 2 then (if on f then p.2 f else viewAt v p.1 f)
    else if fibres.any on then p.2 f else viewAt v p.1 f) ∧
  (∀ x, (∀ p ∈ ws, x ≠ p.1) → v'.getD x.val (.uni 0) = v.getD x.val (.uni 0)) ∧
  v'.map VVal.rank = v.map VVal.rank
/-- `g'` is `g` with results in the registers of `ws` and flags raised; nothing else but the pc differs. -/
structure WroteAll (g g' : Group) (on : Nat → Bool) (ws : List (VReg × (Nat → Word))) (fl : Word) : Prop where
  now : viewWroteAll g on g.v g'.v ws
  due : viewWroteAll g on g.vDue g'.vDue ws
  rest : { g' with v := g.v, vDue := g.vDue } = { g.begun with flags := g.flags ||| fl }
/-- `g'` is `g` with results of a returning instruction on their way: they are due in the registers of `ws`, one more result
is pending, which is awaited unless its hold has ended (R63), flags are raised, and nothing else but the pc differs (R61, R62). -/
structure ReturnsAll (g g' : Group) (on : Nat → Bool) (ws : List (VReg × (Nat → Word))) (fl : Word) : Prop where
  now : g'.v = g.v
  due : viewWroteAll g on g.vDue g'.vDue ws
  rest : { g' with vDue := g.vDue } =
    { g.begun.pending with flags := g.flags ||| fl }
/-- `g'` is `g` with the nesting counts `c` in its live fibres; its pc is `here` when some live fibre has count 0 and `there`
otherwise, and nothing else differs (R90, R91). -/
structure Counted (g g' : Group) (c : Nat → Nat) (here there : Word) : Prop where
  counts : ∀ f, f < 16 → g'.countAt f = if g.live.getLsbD f then c f else g.countAt f
  pc : ((∃ f, f < 16 ∧ g.live.getLsbD f = true ∧ c f = 0) → g'.pc = here) ∧
    ((∀ f, f < 16 → g.live.getLsbD f = true → c f ≠ 0) → g'.pc = there)
  rest : { g' with count := g.count, pc := g.pc } = { g with wait := .none }
/-- No record of a schedule being replayed stops the fibres `gone`, or the whole group, from ending (R367). -/
def MayEnd (s : State) (r : GRef) (gone : List Nat) (whole : Bool) : Prop :=
  s.endsNamed (s.ctxOf (s.teamOf r)) (fun f => (s.teamOf r).party r.slot f false) gone whole = none

/-! ## Memory -/

/-- The group's plain accesses meet no recording: it is privileged, or its context does not record (R343, R370). -/
def Quiet (s : State) (r : GRef) (g : Group) : Prop := g.priv = true ∨ (s.ctxOf (s.teamOf r)).recMode ≠ 1
/-- The group's events are neither recorded nor held: it is privileged, or its context neither records nor replays (R343). -/
def Unlisted (s : State) (r : GRef) (g : Group) : Prop :=
  g.priv = true ∨ ((s.ctxOf (s.teamOf r)).recMode ≠ 1 ∧ (s.ctxOf (s.teamOf r)).recMode ≠ 2)
/-- No grid of a context has reduction descriptors that a store could arm (R379). -/
def Unstaged (s : State) (c : Context) : Prop := ∀ x ∈ s.grids, x.ctx = c.num → x.retired = false → x.stage = 0
/-- No grid of the group's context has. -/
def Unarmed (s : State) (r : GRef) : Prop := Unstaged s (s.ctxOf (s.teamOf r))
/-- No frame of a save area is in use, so that none is freed with a team (R336). -/
def Frameless (s : State) : Prop := ∀ c ∈ s.contexts, c.frames = []
/-- An access of kind `k` at `va` passes the checks of R411 and R346, and its bytes are at `loc`, held by the package and not
being moved. -/
structure Reaches (s : State) (r : GRef) (k : AccKind) (align : Nat) (va : DWord) (loc : Loc) : Prop where
  canon : canonical va = true
  aligned : va.toNat % align = 0
  leaf : ∃ l, s.translate (s.ctxOf (s.teamOf r)) va k = .ok l ∧ l.home va = .here loc ∧
    s.frozen (s.ctxOf (s.teamOf r)).num (l.page va) = false
  held : s.lineHere loc = true
/-- An access of `n` bytes at the scratchpad address `w` passes the checks of R133 and R411: its bytes are in the window of
team `tid`. -/
structure InRange (s : State) (r : GRef) (align n : Nat) (w : Word) (tid : Nat) : Prop where
  reserved : scrReserved w = false
  used : s.scrMisuse (s.teamOf r) w = false
  aligned : scrOff w % align = 0
  inside : scrOff w < (s.teamOf r).scrBytes ∧ scrOff w + n ≤ (s.teamOf r).scrBytes
  owner : s.scrTid (s.teamOf r) w = some tid
/-- Such an access that meets no poisoned granule (R393). -/
structure InWindow (s : State) (r : GRef) (swz align n : Nat) (w : Word) (tid : Nat) : Prop extends
    InRange s r align n w tid where
  clean : ((s.team? tid).getD default).scrPoisoned swz (scrOff w) n = false
/-- The packages are the same but for the logical times of cores and lines (R238, R239) and the sharers of table lines (R355),
which no program reads. -/
def SameButTimes (t s : State) : Prop := { t with clocks := s.clocks, lines := s.lines, tdir := s.tdir } = s
/-- Every byte of memory and of the held host lines, but the `n` bytes at `loc f` for `f` in `fs`, reads as before. -/
def UntouchedBut (s t : State) (fs : List Nat) (loc : Nat → Loc) (n : Nat) : Prop :=
  (∀ x, (∀ f ∈ fs, ∀ a, loc f = .dev a → x < a ∨ a + n ≤ x) → t.mem.get x = s.mem.get x) ∧
  ∀ x, (∀ f ∈ fs, ∀ a, loc f = .host a → x < a ∨ a + n ≤ x) → t.hostMem.get x = s.hostMem.get x
/-- A window with bytes stored by an instruction from a logical offset: a poison mark on their granules is cleared (R135,
R393). -/
def Team.stored (t : Team) (swz : Nat) (w : Writer) (off : Nat) (bs : List Byte) : Team :=
  { t.scrWrite swz w off bs with
    scrPoison := (t.scrWrite swz w off bs).scrPoison.filter fun p => !(scrGranules swz off bs.length).contains p }
/-- Bytes stored by an instruction in the window of a team; a block that an engine operation is half-way through keeps the mark of a
general block (R135, R243). -/
def State.storedAt (s : State) (tid swz : Nat) (w : Writer) (off : Nat) (bs : List Byte) : State :=
  (s.modTeam tid fun x => x.stored swz w off bs).interim none tid (blocksOf off bs.length)
/-- The indivisible read-modify-writes of the fibres `fs` in their order: the package after them, and the bytes each read
(R138, R141). -/
def atomicRun (n : Nat) (loc : Nat → Loc) (f : Nat → List Byte → List Byte) : List Nat → State → State × List (Nat × List Byte)
  | [], s => (s, [])
  | k :: ks, s =>
    let old := s.bytesAtLoc (loc k) n
    let rest := atomicRun n loc f ks (s.putBytes (loc k) (f k old))
    (rest.1, (k, old) :: rest.2)

/-! ## Engine operations -/

/-- The completion word `w` is valid, and the issue of an operation of kind `k` waits for nothing (R146, R155, R334). -/
structure Accepts (s : State) (r : GRef) (w : Word) (dirOk ringOk : Bool) (k : OpKind) : Prop where
  word : completionBad w dirOk ringOk = false
  tag : ∀ n, (completionOf w).tag = some n → n < (s.teamOf r).tagN ∧ (s.teamOf r).tg.getLsbD n = false
  ring : ∀ n, (completionOf w).ring = some n → n < (s.teamOf r).rings.length ∧
    ((completionOf w).out = false → ((s.teamOf r).rings.getD n default).emptyAtHead = true)
  room : k.capturable = true → (s.ops.filter fun o => o.tid == (s.teamOf r).tid && o.kind.capturable).length < 64
/-- `t` is `s` with an operation of kind `k` of group `r` started under the completion word `w`: its tag is pending with its
error state clear, the head slot of the ring of an inward one is being written, and no group or byte of memory differs
(R145, R146, R155). -/
structure Started (s t : State) (r : GRef) (w : Word) (k : OpKind) : Prop where
  op : ∃ o, t.ops = s.ops ++ [o] ∧ o.kind = k ∧ o.tid = r.tid ∧ o.slot = r.slot ∧ o.ctx = (s.teamOf r).ctx ∧
    o.tag = (completionOf w).tag ∧ o.ring = (completionOf w).ring ∧ o.reason = 0 ∧ o.waits = [] ∧ o.captured = false
  memory : t.mem = s.mem ∧ t.hostMem = s.hostMem
  groups : ∀ q, t.group? q = s.group? q
  tags : ∀ n, n < 64 →
    ((t.teamOf r).tg.getLsbD n = ((s.teamOf r).tg.getLsbD n || (completionOf w).tag == some n)) ∧
    ((t.teamOf r).tagErr.getLsbD n = ((s.teamOf r).tagErr.getLsbD n && (completionOf w).tag != some n))
  ring : ∀ n, (completionOf w).ring = some n → (completionOf w).out = false →
    let x := (s.teamOf r).rings.getD n default
    (t.teamOf r).rings.getD n default = { x.set x.hd (.writing x.hd) with hd := x.hd + 1 }
/-- `t` is `s` with the operation `o` ended for `reason` (0: none): it is gone, and the others stay unless a frame that is freed with
a team loses its context (R342); its tag is pending no longer, and a reason sets the tag's error bit (R147). -/
structure OpEnds (s t : State) (o : Op) (reason : Nat) : Prop where
  gone : ∀ x ∈ t.ops, x.id ≠ o.id
  others : Frameless s → t.ops = s.ops.filter (·.id != o.id)
  tags : ∀ x ∈ t.teams, x.tid = o.tid → ∃ y ∈ s.teams, y.tid = o.tid ∧ ∀ n, n < 64 →
    x.tg.getLsbD n = (y.tg.getLsbD n && o.tag != some n) ∧
    x.tagErr.getLsbD n = (y.tagErr.getLsbD n || (reason != 0 && o.tag == some n))
/-- Such an end that changes no window and, where no frame is freed with its team, no byte of memory. -/
structure EndedOp (s t : State) (o : Op) (reason : Nat) : Prop extends OpEnds s t o reason where
  memory : Frameless s → t.mem = s.mem ∧ t.hostMem = s.hostMem
  windows : ∀ x ∈ t.teams, x.tid = o.tid → ∃ y ∈ s.teams, y.tid = o.tid ∧ x.scr = y.scr
/-- An access of kind `k` of an engine operation to the 16-byte chunk at `va` has its bytes at `loc`, held by the package, clean
and not being moved, and no access outstanding uses them as table entries (R147, R346, R356). -/
structure ChunkAt (s : State) (c : Context) (k : AccKind) (va : DWord) (loc : Loc) : Prop where
  canon : canonical va = true
  aligned : va.toNat % 16 = 0
  leaf : ∃ l, s.translate c va k = .ok l ∧ l.home va = .here loc ∧ s.frozen c.num (l.page va) = false
  held : s.lineHere loc = true
  unused : k = .write → s.inUse loc 16 = false
  clean : s.poisonedAt loc 16 = false
/-- `t` is `s` with one more chunk of the operation `o` of `total` chunks done: its count has advanced, and the blocks it is half-way
through may be others, or it has ended (R147, R243, R334). -/
def ChunkDone (s t : State) (o : Op) (total : Nat) : Prop :=
  if o.done + 1 < total then
    (∃ busy, t.op? o.id = some { o with done := o.done + 1, got := [], busy := busy }) ∧
      t.teams.map (·.tg) = s.teams.map (·.tg)
  else OpEnds s t o o.reason

/-- `t` is `s` with one more of the `total` steps of the operation `o` done: it goes on with what it has `seen` and the first reason
it has met, or has ended for that reason (R147, R334). -/
def StepDone (s t : State) (o : Op) (total reason : Nat) (seen : List Piece) : Prop :=
  if o.done + 1 < total then ∃ q, t.op? o.id = some q ∧ q.kind = o.kind ∧ q.done = o.done + 1 ∧ q.seen = seen ∧
    q.reason = reason ∧ q.tag = o.tag ∧ q.ring = o.ring ∧ q.waits = [] ∧ q.captured = false
  else OpEnds s t o reason

/-- The reader `x` gives `a`, whatever has been read before (R238). -/
def Rd.Gives {α : Type} (x : Rd α) (a : α) : Prop := ∀ log, ∃ log', StateT.run x log = .ok (a, log')

/-! ## Accumulators and the matrix engine -/

/-- No matrix operation is in flight on the group's core (R183). -/
def EngineIdle (s : State) (r : GRef) : Prop := ∀ x ∈ s.matrix, x.core ≠ (s.teamOf r).core
/-- The accumulator address `a` names the tile `x` inside the team's own window (R25). -/
structure TileAt (s : State) (r : GRef) (a : Word) (x : Tile) : Prop where
  reserved : accReserved a = false
  own : a.getLsbD 28 = false
  place : x.row = accRow a ∧ x.col = accCol a
  inside : x.row + x.rows ≤ (s.teamOf r).accRows ∧ x.col + x.cols ≤ 256
/-- The shape word `w` is valid and names `x`'s rows and columns (R190); bit 31 is TL. -/
structure ShapeOf (w : Word) (x : Tile) : Prop where
  reserved : w.extractLsb' 26 5 = 0 ∧ w.extractLsb' 9 7 = 0
  rows : x.rows = shapeRows w ∧ 1 ≤ x.rows ∧ x.rows ≤ 512
  cols : x.cols = shapeCols w ∧ 1 ≤ x.cols ∧ x.cols ≤ 256
/-- `t` is `s` with the tile `x` of the team of `r` holding `val`; every other cell, every window, every group and all memory
are as before (R24). -/
structure CellsWrote (s t : State) (r : GRef) (x : Tile) (val : Nat → Nat → Word) : Prop where
  cells : ∀ i j, j < 256 → (t.teamOf r).cell i j =
    if x.row ≤ i ∧ i < x.row + x.rows ∧ x.col ≤ j ∧ j < x.col + x.cols then val (i - x.row) (j - x.col)
    else (s.teamOf r).cell i j
  rest : t.mem = s.mem ∧ t.hostMem = s.hostMem ∧ (t.teamOf r).scr = (s.teamOf r).scr ∧ t.ops = s.ops
  groups : ∀ q, t.group? q = s.group? q
/-- A matrix operand of the group: its format block at `fb`, valid (R178), its elements at `va` and its scales, all readable
(R175 to R177). -/
structure OperandAt (s : State) (r : GRef) (swz : Nat) (va fb : Word) (x : FmtBlock) (ta ts : Nat) : Prop where
  block : ∃ tf, InWindow s r swz 16 32 fb tf ∧ x = fmtBlockOf (s.scrBytesAt tf swz (scrOff fb) 32)
  type : operandType x.elem = true ∧ (isNarrowType x.elem = true → (nfmtOf x.fmt).valid = true)
  blk : x.blk ≠ 3 ∧ (x.blk ≠ 0 → isNarrowType x.elem = true)
  zero : x.fid &&& 0xFFFFFCF0 = 0 ∧ x.reserved = 0
  elems : InWindow s r swz 2048 x.operandBytes va ta
  scales : x.blk ≠ 0 → InWindow s r swz 1 x.scaleBytes x.scale ts

/-! ## Messages -/

/-- A request of the host arrives in its order, with nothing before it that keeps it waiting: `s1` is the package that has taken
it (R309, R373). -/
structure Taken (s s1 : State) (h : MsgHdr) (q : HostReq) : Prop where
  taken : s.takeHost h q.kind = (s1, true)
  free : s1.hostFree s1.port h q = true
/-- Such a request, about a resident context of its own world (R374, R400). -/
structure Heard (s s1 : State) (h : MsgHdr) (q : HostReq) (c : Context) : Prop extends Taken s s1 h q where
  resident : s1.context? h.ctx = some c
  world : c.secure = h.secure
/-- A peer message about a resident context of its world, which is its port's, arrives in its order (R373, R377, R400). -/
structure HeardPeer (s s1 : State) (h : PeerHdr) (c : Context) : Prop where
  taken : s.takePeer h = (s1, true)
  whole : headerBad h.ver h.len = false
  resident : s1.context? h.ctx = some c
  world : c.secure = s1.portWorld h.dev ∧ c.secure = h.secure
/-- The event `i` is answered by one reply, and leaves a package of which `P` holds. -/
def Replies (i : Instr) (s : State) (conn : ConnId) (kind ctx stat : Nat) (data : List Byte) (P : State → Prop) : Prop :=
  ∃ u, exec i s = .next u ∧ u.outbox = s.outbox ++ [⟨conn, kind, ctx, true, stat, 0, data, []⟩] ∧ P u

end Sys2Proof.Machine
end

