-- ==== Sys2Proof/Certificates/Slice0/Obligations.lean ====
section
/-! DEFINITION. The statements of this row, one def Obligations.<Name> : Prop each. -/
open Sys2Proof Sys2Proof.Machine

/-- R103 with R86 to R88 and R102, R105: what the integer register forms write; with the frame that R106 gives. -/
def Obligations.IntegerRegisterForms : Prop :=
  ∀ (m : Bool) (d a b : VReg) (s : State) (r : GRef) (g : Group), Turn s r g →
    let A := g.rank a
    let B := g.rank b
    let x (f : Nat) : Int := g.int a f
    let y (f : Nat) : Int := g.int b f
    let u (f : Nat) : Word := g.rd a f
    let w (f : Nat) : Word := g.rd b f
    let typed (v : Nat → Int) (f : Nat) : Word × Word := intResult g.type g.sat (v f)
    let plain (v : Nat → Word) (f : Nat) : Word × Word := (v f, 0)
    let aff (sh : Nat) : Nat := affineIf g.affineTyped sh
    (isIntType g.type = true →
      Writes (.add m d a b) m s r g d (aff (linearShape [A, B])) (typed fun f => x f + y f) ∧
      Writes (.sub m d a b) m s r g d (aff (linearShape [A, B])) (typed fun f => x f - y f) ∧
      Writes (.mul m d a b) m s r g d (aff (productShape A B)) (typed fun f => x f * y f) ∧
      Writes (.mulh m d a b) m s r g d (otherShape [A, B])
        (typed fun f => (x f * y f).fdiv ((2 ^ intWidth g.type : Nat) : Int)) ∧
      Writes (.mad m d a b) m s r g d (aff (linearShape [productShape A B, g.rank d]))
        (typed fun f => x f * y f + g.int d f) ∧
      Writes (.min m d a b) m s r g d (otherShape [A, B]) (typed fun f => Min.min (x f) (y f)) ∧
      Writes (.max m d a b) m s r g d (otherShape [A, B]) (typed fun f => Max.max (x f) (y f)) ∧
      Writes (.abs m d a) m s r g d (otherShape [A]) (typed fun f => ((x f).natAbs : Int)) ∧
      Writes (.neg m d a) m s r g d (aff A) (typed fun f => -(x f))) ∧
    Writes (.and m d a b) m s r g d (otherShape [A, B]) (plain fun f => u f &&& w f) ∧
    Writes (.or m d a b) m s r g d (otherShape [A, B]) (plain fun f => u f ||| w f) ∧
    Writes (.xor m d a b) m s r g d (otherShape [A, B]) (plain fun f => u f ^^^ w f) ∧
    Writes (.not m d a) m s r g d (otherShape [A]) (plain fun f => ~~~(u f)) ∧
    Writes (.shl m d a b) m s r g d (shiftShape A B)
      (plain fun f => if (w f).toNat < 32 then u f <<< (w f).toNat else 0) ∧
    Writes (.shr m d a b) m s r g d (otherShape [A, B])
      (plain fun f => if (w f).toNat < 32 then u f >>> (w f).toNat else 0) ∧
    Writes (.sar m d a b) m s r g d (otherShape [A, B])
      (plain fun f => if (w f).toNat < 32 then (u f).sshiftRight (w f).toNat
        else if (u f).getLsbD 31 then 0xFFFFFFFF else 0) ∧
    Writes (.rot m d a b) m s r g d (otherShape [A, B]) (plain fun f => (u f).rotateLeft ((w f).toNat % 32)) ∧
    Writes (.popc m d a) m s r g d (otherShape [A]) (plain fun f => .ofNat 32 (popcount (u f))) ∧
    Writes (.clz m d a) m s r g d (otherShape [A]) (plain fun f => .ofNat 32 (leadingZeros (u f))) ∧
    Writes (.brev m d a) m s r g d (otherShape [A]) (plain fun f => bitReverse (u f)) ∧
    Writes (.bfx m d a b) m s r g d (otherShape [A, B]) (plain fun f => fieldExtract (u f) (w f)) ∧
    Writes (.bfi m d a b) m s r g d (otherShape [A, B, g.rank d]) (plain fun f => fieldInsert (g.rd d f) (u f) (w f)) ∧
    WritesFor g.active (.sel m d a b) m s r g d (if g.gpred = 0 then (if g.ginv then B else A) else 2)
      (plain fun f => if g.passes f then u f else w f) ∧
    Writes (.mov m d a) m s r g d A (plain u)

/-- R103, R104, R105 with R88: the integer comparisons, whose p0 ignores writes (R18), and the integer immediate forms that
write a v register. -/
def Obligations.IntegerComparisonsAndImmediates : Prop :=
  (∀ (m : Bool) (d : PReg) (a b : VReg) (i : BitVec 9) (s : State) (r : GRef) (g : Group), Turn s r g →
    isIntType g.type = true →
    let x (f : Nat) : Int := g.int a f
    let y (f : Nat) : Int := g.int b f
    let k : Int := intOf g.type (i.signExtend 32)
    WritesP (.cmpEq m d a b) m s r g d (fun f => (decide (x f = y f), 0)) ∧
    WritesP (.cmpNe m d a b) m s r g d (fun f => (decide (x f ≠ y f), 0)) ∧
    WritesP (.cmpLt m d a b) m s r g d (fun f => (decide (x f < y f), 0)) ∧
    WritesP (.cmpLe m d a b) m s r g d (fun f => (decide (x f ≤ y f), 0)) ∧
    WritesP (.cmpGt m d a b) m s r g d (fun f => (decide (y f < x f), 0)) ∧
    WritesP (.cmpGe m d a b) m s r g d (fun f => (decide (y f ≤ x f), 0)) ∧
    WritesP (.cmpiEq m d a i) m s r g d (fun f => (decide (x f = k), 0)) ∧
    WritesP (.cmpiNe m d a i) m s r g d (fun f => (decide (x f ≠ k), 0)) ∧
    WritesP (.cmpiLt m d a i) m s r g d (fun f => (decide (x f < k), 0)) ∧
    WritesP (.cmpiLe m d a i) m s r g d (fun f => (decide (x f ≤ k), 0)) ∧
    WritesP (.cmpiGt m d a i) m s r g d (fun f => (decide (k < x f), 0)) ∧
    WritesP (.cmpiGe m d a i) m s r g d (fun f => (decide (k ≤ x f), 0))) ∧
  (∀ (m : Bool) (d a : VReg) (i : BitVec 12) (l : BitVec 18) (h : BitVec 14) (s : State) (r : GRef) (g : Group),
    Turn s r g →
    let A := g.rank a
    let u (f : Nat) : Word := g.rd a f
    (isIntType g.type = true →
      Writes (.addi m d a i) m s r g d (affineIf g.affineTyped A)
        (fun f => intResult g.type g.sat (g.int a f + i.toInt))) ∧
    Writes (.andi m d a i) m s r g d (otherShape [A]) (fun f => (u f &&& i.signExtend 32, 0)) ∧
    Writes (.ori m d a i) m s r g d (otherShape [A]) (fun f => (u f ||| i.signExtend 32, 0)) ∧
    Writes (.xori m d a i) m s r g d (otherShape [A]) (fun f => (u f ^^^ i.signExtend 32, 0)) ∧
    (i.toNat < 32 →
      Writes (.shli m d a i) m s r g d (shiftShape A 0) (fun f => (u f <<< i.toNat, 0)) ∧
      Writes (.shri m d a i) m s r g d (otherShape [A]) (fun f => (u f >>> i.toNat, 0))) ∧
    Writes (.li m d l) m s r g d 0 (fun _ => (l.signExtend 32, 0)) ∧
    Writes (.lhi m d h) m s r g d (if g.rank d = 0 then 0 else 2) (fun f => (h ++ (g.rd d f).setWidth 18, 0)))

/-- R88: a result too wide for its destination's tag raises `shape`, sub-code 0. -/
def Obligations.ResultTooWideTraps : Prop :=
  ∀ (m : Bool) (d a b : VReg) (s : State) (r : GRef) (g : Group), Turn s r g → g.priv = false →
    let A := g.rank a
    let B := g.rank b
    let T (i : Instr) (sh : Nat) : Prop := g.rank d < sh → Traps i s r g .shape 0 (.ofNat 64 d.val)
    (isIntType g.type = true →
      T (.add m d a b) (affineIf g.affineTyped (linearShape [A, B])) ∧
      T (.sub m d a b) (affineIf g.affineTyped (linearShape [A, B])) ∧
      T (.mul m d a b) (affineIf g.affineTyped (productShape A B)) ∧
      T (.neg m d a) (affineIf g.affineTyped A) ∧
      T (.min m d a b) (otherShape [A, B]) ∧ T (.max m d a b) (otherShape [A, B])) ∧
    T (.and m d a b) (otherShape [A, B]) ∧ T (.or m d a b) (otherShape [A, B]) ∧
    T (.xor m d a b) (otherShape [A, B]) ∧ T (.shl m d a b) (shiftShape A B) ∧ T (.mov m d a) A ∧
    T (.sel m d a b) (if g.gpred = 0 then (if g.ginv then B else A) else 2)

/-- R109, R111, R113: the float forms that round by `md.RND`. That fex2, flg2, fsin and fcos round once is log entry 11 (DEDUCED),
and the NV of fdot2 is log entry 37: both the model's. -/
def Obligations.FloatRegisterForms : Prop :=
  ∀ (m : Bool) (d a b : VReg) (s : State) (r : GRef) (g : Group), Turn s r g → g.role = .vector →
    isFloatType g.type = true → g.rnd ≤ 4 →
    let x (f : Nat) : Fp := g.fp a f
    let y (f : Nat) : Fp := g.fp b f
    let W (i : Instr) (rs : List VReg) (v : Nat → Word × Word) : Prop := Writes i m s r g d (otherShape (rs.map g.rank)) v
    W (.fadd m d a b) [a, b] (fun f => fpAdd g.type g.rnd g.ftz (x f) (y f)) ∧
    W (.fsub m d a b) [a, b] (fun f => fpSub g.type g.rnd g.ftz (x f) (y f)) ∧
    W (.fmul m d a b) [a, b] (fun f => fpMul g.type g.rnd g.ftz (x f) (y f)) ∧
    W (.fdiv m d a b) [a, b] (fun f => fpDiv g.type g.rnd g.ftz (x f) (y f)) ∧
    W (.ffma m d a b) [a, b, d] (fun f => fpFma g.type g.rnd g.ftz (x f) (y f) (g.fp d f)) ∧
    W (.frcp m d a) [a] (fun f => fpRcp g.type g.rnd g.ftz (x f)) ∧
    W (.frsq m d a) [a] (fun f => fpRsq g.type g.rnd g.ftz (x f)) ∧
    W (.fsqrt m d a) [a] (fun f => fpSqrt g.type g.rnd g.ftz (x f)) ∧
    W (.fex2 m d a) [a] (fun f => fpEx2 g.type g.rnd g.ftz (x f)) ∧
    W (.flg2 m d a) [a] (fun f => fpLg2 g.type g.rnd g.ftz (x f)) ∧
    W (.fsin m d a) [a] (fun f => fpSin g.type g.rnd g.ftz (x f)) ∧
    W (.fcos m d a) [a] (fun f => fpCos g.type g.rnd g.ftz (x f)) ∧
    W (.frnd m d a) [a] (fun f => fpRnd g.type g.rnd (x f)) ∧
    (g.type = 6 ∨ g.type = 7 →
      W (.fdot2 m d a b) [a, b, d] (fun f =>
        let e := fpOf g.type g.ftz
        fpDot2 g.rnd g.ftz (e (g.rd a f)) (e (g.rd a f >>> 16)) (e (g.rd b f)) (e (g.rd b f >>> 16))
          (fpOf 8 g.ftz (g.rd d f))))

/-- R109, R110, R112: the float forms that do not read `md.RND`. -/
def Obligations.FloatSelections : Prop :=
  (∀ (m : Bool) (d a b : VReg) (p : PReg) (s : State) (r : GRef) (g : Group), Turn s r g → g.role = .vector →
    isFloatType g.type = true →
    let x (f : Nat) : Fp := g.fp a f
    let y (f : Nat) : Fp := g.fp b f
    let mag (w : Word) : Word := w &&& elemMask g.type &&& ~~~(signWord g.type)
    let W (i : Instr) (rs : List VReg) (v : Nat → Word × Word) : Prop := Writes i m s r g d (otherShape (rs.map g.rank)) v
    W (.fmin m d a b) [a, b] (fun f => fpMinMax g.type 0 g.ftz false false (x f) (y f)) ∧
    W (.fmax m d a b) [a, b] (fun f => fpMinMax g.type 0 g.ftz true false (x f) (y f)) ∧
    W (.fminn m d a b) [a, b] (fun f => fpMinMax g.type 0 g.ftz false true (x f) (y f)) ∧
    W (.fmaxn m d a b) [a, b] (fun f => fpMinMax g.type 0 g.ftz true true (x f) (y f)) ∧
    W (.fabs m d a) [a] (fun f => (mag (g.rd a f), 0)) ∧
    W (.fneg m d a) [a] (fun f => ((g.rd a f &&& elemMask g.type) ^^^ signWord g.type, 0)) ∧
    W (.fcpys m d a b) [a, b] (fun f => (mag (g.rd a f) ||| (g.rd b f &&& signWord g.type), 0)) ∧
    W (.fcls m d a) [a] (fun f => (fpClass g.type (g.rd a f), 0)) ∧
    WritesP (.fcmpEq m p a b) m s r g p (fun f => fpCmp .eq (x f) (y f)) ∧
    WritesP (.fcmpNe m p a b) m s r g p (fun f => fpCmp .ne (x f) (y f)) ∧
    WritesP (.fcmpLt m p a b) m s r g p (fun f => fpCmp .lt (x f) (y f)) ∧
    WritesP (.fcmpLe m p a b) m s r g p (fun f => fpCmp .le (x f) (y f)) ∧
    WritesP (.fcmpGt m p a b) m s r g p (fun f => fpCmp .gt (x f) (y f)) ∧
    WritesP (.fcmpGe m p a b) m s r g p (fun f => fpCmp .ge (x f) (y f)) ∧
    WritesP (.fcmpUn m p a b) m s r g p (fun f => fpCmp .un (x f) (y f))) ∧
  (∀ x y : Fp, (x.isNan || y.isNan) = true →
    let quiet : Word := if x.isSnan || y.isSnan then flagNV else 0
    fpCmp .eq x y = (false, quiet) ∧ fpCmp .ne x y = (true, quiet) ∧ fpCmp .un x y = (true, quiet) ∧
    fpCmp .lt x y = (false, flagNV) ∧ fpCmp .le x y = (false, flagNV) ∧
    fpCmp .gt x y = (false, flagNV) ∧ fpCmp .ge x y = (false, flagNV))

/-- R107, R115 to R117: conversions between types and packed elements. -/
def Obligations.ConversionsAndPacking : Prop :=
  ∀ (m : Bool) (d a b : VReg) (j : BitVec 6) (s : State) (r : GRef) (g : Group), Turn s r g →
    let usable (t : Nat) : Prop := isReservedType t = false ∧ g.badFmt0 t = false ∧
      (isNarrowType t = true → 1 ≤ handleType (g.hreg 0) ∧ handleType (g.hreg 0) ≤ 4)
    let rounds : Prop := g.rnd ≤ 4
    let W (i : Instr) (rs : List VReg) (v : Nat → Word × Word) : Prop := Writes i m s r g d (otherShape (rs.map g.rank)) v
    let fmt := g.fmt0 g.type
    (usable g.stype → usable g.type → ((isIntType g.stype = true ∧ isIntType g.type = true) ∨ rounds) →
      W (.cvt m d a) [a] (fun f => convert g.stype g.type (g.fmt0 g.stype) fmt g.rnd g.sat g.ftz (g.rd a f))) ∧
    (g.role = .vector →
      (usable g.type → isPackType g.type = true →
        (isIntType g.type = true ∨ rounds →
          let src := if isIntType g.type then (if isSignedType g.type then 2 else 5) else 8
          let one (w : Word) : Word × Word := convert src g.type 0 fmt g.rnd g.sat g.ftz w
          let part (w : Word) : Nat := (one w).1.toNat % 2 ^ g.packWidth
          W (.pk m d a b) [a, b, d] (fun f =>
            (.ofNat 32 (match g.packWidth with
              | 16 => part (g.rd b f) * 2 ^ 16 + part (g.rd a f)
              | 8 => (g.rd d f).toNat / 2 ^ 16 + part (g.rd b f) * 2 ^ 24 + part (g.rd a f) * 2 ^ 16
              | _ => (g.rd d f).toNat / 2 ^ 8 + part (g.rd b f) * 2 ^ 28 + part (g.rd a f) * 2 ^ 24),
              (one (g.rd a f)).2 ||| (one (g.rd b f)).2))) ∧
        (j.toNat < 32 / g.packWidth →
          W (.upk m d a j) [a] (fun f =>
            (widen g.type fmt ((g.rd a f).toNat / 2 ^ (j.toNat * g.packWidth) % 2 ^ g.packWidth), 0)))) ∧
      (isFloatType g.stype = true → isNarrowType g.type = true → usable g.type → rounds →
        W (.qnt m d a b) [a, b] (fun f =>
          let x := match scaleExp (g.rd b f).toNat with
            | none => Fp.narrowNan
            | some k => (fpOf g.stype false (g.rd a f)).scale (-k)
          let e := (nfmtOf fmt).encode g.rnd g.sat x
          (.ofNat 32 e.1, e.2))) ∧
      (isNarrowType g.stype = true → isFloatType g.type = true → usable g.stype → rounds →
        W (.dqn m d a b) [a, b] (fun f =>
          let x := (nfmtOf (g.fmt0 g.stype)).decode (g.rd a f).toNat
          match scaleExp (g.rd b f).toNat with
          | none => (fpNan g.type, 0)
          | some k => if x.isNan then (fpNan g.type, 0) else fpPut g.type g.rnd g.ftz (x.scale k))) ∧
      (g.type = 0 ∨ g.type = 3 →
        W (.dp4 m d a b) [a, b, d] (fun f =>
          intResult 2 g.sat (((List.range 4).map fun k =>
            intOf g.type (.ofNat 32 ((g.rd a f).extractLsb' (8 * k) 8).toNat)
              * intOf g.type (.ofNat 32 ((g.rd b f).extractLsb' (8 * k) 8).toNat)).sum + intOf 2 (g.rd d f)))) ∧
      (isNarrowType g.type = true → usable g.type → rounds → 5 ≤ (nfmtOf fmt).width →
        W (.dp4 m d a b) [a, b, d] (fun f => dp4Narrow g fmt (g.rd a f) (g.rd b f) (g.rd d f))))

/-- R118: the predicate instructions. -/
def Obligations.PredicateInstructions : Prop :=
  ∀ (m : Bool) (d a b : PReg) (v : VReg) (s : State) (r : GRef) (g : Group), Turn s r g →
    let x (f : Nat) : Bool := (g.preg a).getLsbD f
    let y (f : Nat) : Bool := (g.preg b).getLsbD f
    let P (i : Instr) (val : Nat → Bool) : Prop := WritesP i m s r g d (fun f => (val f, 0))
    P (.pand m d a b) (fun f => x f && y f) ∧
    P (.por m d a b) (fun f => x f || y f) ∧
    P (.pxor m d a b) (fun f => x f != y f) ∧
    P (.pnot m d a) (fun f => !x f) ∧
    P (.pany m d a) (fun _ => g.actives.any x) ∧
    P (.pall m d a) (fun _ => g.actives.all x) ∧
    (∃ g', Completes (.pmov m d a) m s r g g' ∧ WroteP g g' d (fun _ => true) x 0) ∧
    Writes (.pcnt m v a) m s r g v 0 (fun _ => (.ofNat 32 (g.actives.filter x).length, 0)) ∧
    (∀ w : Word, (∀ f, f < 32 → w.getLsbD f = (decide (f < 16) && g.active f && x f)) →
      Writes (.ballot m v a) m s r g v 0 (fun _ => (w, 0)))

/-- R108: the base registers. -/
def Obligations.BaseRegisterInstructions : Prop :=
  (∀ (m : Bool) (d e : BReg) (a b v : VReg) (k : BitVec 6) (x y : Word) (s : State) (r : GRef) (g : Group), Turn s r g →
    (g.reads a x → g.reads b y → g.ons ≠ [] → WritesB (.bset m d a b) m s r g d (y ++ x)) ∧
    (g.reads b y → g.ons ≠ [] → WritesB (.badd m d e b) m s r g d (g.breg e + y.signExtend 64)) ∧
    (g.ons ≠ [] → WritesB (.bmov m d e) m s r g d (g.breg e)) ∧
    (g.reads a x → g.ons ≠ [] → WritesB (.bmovV m d a) m s r g d (x.signExtend 64)) ∧
    (k.toNat < 2 → Writes (.bget m v e k) m s r g v 0 (fun _ => ((g.breg e).extractLsb' (32 * k.toNat) 32, 0))) ∧
    (g.ons = [] → ∀ i ∈ [Instr.bset m d a b, .badd m d e b, .bmov m d e, .bmovV m d a, .bget m v e k],
      Completes i m s r g g.begun)) ∧
  (∀ (m : Bool) (d a k : Fin 64), 2 ≤ k.val →
    (d.val < 8 → a.val < 8 → decode (rrr m 0x1A 2 d.val a.val k.val) = .error (.illegal 5)) ∧
    (a.val < 8 → decode (rrr m 0x1A 3 d.val a.val k.val) = .error (.illegal 5)))

/-- R71, R100: the mode register. That `modet` with bit 8 = 0 ignores its STYPE bits is log entry 33's choice. -/
def Obligations.ModeInstructions : Prop :=
  (∀ (m t z i : Bool) (u y : BitVec 4) (n : BitVec 3) (q : BitVec 2) (p : PReg) (s : State) (r : GRef) (g : Group),
    Holds s r g →
    let M (ins : Instr) (lo n v : Nat) : Prop := ∃ md : Word,
      Completes ins m s r g { g.begun with md := md } ∧ (md.extractLsb' lo n).toNat = v ∧
        ∀ k, k < 32 → (k < lo ∨ lo + n ≤ k) → md.getLsbD k = g.md.getLsbD k
    M (.modet m false u y) 16 4 y.toNat ∧
    M (.modet m true u y) 16 8 (u.toNat * 16 + y.toNat) ∧
    M (.moder m n) 12 3 n.toNat ∧
    M (.modef m q t z) 8 4 (q.toNat * 4 + t.toNat * 2 + z.toNat) ∧
    (∃ md : Word, Completes (.modeg m i p) m s r g { g.begun with md := md } ∧
      (md.extractLsb' 0 3).toNat = p.val ∧ md.getLsbD 4 = i ∧
      ∀ k, k < 32 → 3 ≤ k → k ≠ 4 → md.getLsbD k = g.md.getLsbD k)) ∧
  (∀ (m : Bool) (d a : VReg) (k : BitVec 6) (x : Word) (s : State) (r : GRef) (g : Group), Turn s r g →
    (g.reads a x → Completes (.mode m a) m s r g { g.begun with md := x &&& 0x00FF7F17 }) ∧
    Writes (.gmode m d) m s r g d 0 (fun _ => (g.md, 0)) ∧
    (k.toNat = 4 → Writes (.gshape m d k) m s r g d 0 (fun _ => (.ofNat 32 (g.budget * 65536 + g.wordsInUse), 0))) ∧
    (k.toNat < 4 → ∀ w : Word, (∀ j, j < 16 →
        (w.extractLsb' (2 * j) 2).toNat = (g.v.getD (16 * k.toNat + j) (.uni 0)).rank) →
      Writes (.gshape m d k) m s r g d 0 (fun _ => (w, 0))))

/-- R101: `shape`. -/
def Obligations.ShapeInstruction : Prop :=
  ∀ (m : Bool) (d l : VReg) (t : BitVec 2) (s : State) (r : GRef) (g : Group), Holds s r g → t.toNat < 3 →
    let tag := t.toNat
    let new (x y : VVal) : Prop := y.rank = tag ∧
      (x.rank = tag → y = x) ∧
      (x.rank ≤ tag → ∀ f, f < 16 → y.at f = x.at f) ∧
      (tag ≤ x.rank → y.at 0 = x.at 0 ∧ (tag = 0 → ∀ f, f < 16 → y.at f = x.at 0) ∧
        (tag = 1 → ∀ f, f < 16 → y.at f = x.at 0 + .ofNat 32 f * (x.at 1 - x.at 0)))
    let ranged (v v' : List VVal) : Prop := v'.length = v.length ∧ ∀ k : VReg,
      if d.val ≤ k.val ∧ k.val ≤ l.val then new (v.getD k.val (.uni 0)) (v'.getD k.val (.uni 0))
      else v'.getD k.val (.uni 0) = v.getD k.val (.uni 0)
    ∃ v vDue, ranged g.v v ∧ ranged g.vDue vDue ∧
      ((v.map VVal.words).sum ≤ g.budget → Completes (.shape m d l t) m s r g { g.begun with v := v, vDue := vDue }) ∧
      (g.budget < (v.map VVal.words).sum → g.priv = false →
        Traps (.shape m d l t) s r g .shape 1 (.ofNat 64 d.val))

/-- R119: reading other fibres' registers. -/
def Obligations.CrossFibreReads : Prop :=
  ∀ (m : Bool) (d a b : VReg) (x : Word) (s : State) (r : GRef) (g : Group), Turn s r g → g.role = .vector →
    Writes (.shfl m d a b) m s r g d 2 (fun f => (g.rd a ((g.rd b f).extractLsb' 0 4).toNat, 0)) ∧
    Writes (.shfx m d a b) m s r g d 2 (fun f => (g.rd a (f ^^^ ((g.rd b f).extractLsb' 0 4).toNat), 0)) ∧
    (g.reads b x → Writes (.bcst m d a b) m s r g d 0 (fun _ => (g.rd a (x.extractLsb' 0 4).toNat, 0)))

/-- R120, R121, R123: reductions and scans of fold type. -/
def Obligations.Reductions : Prop :=
  ∀ (m : Bool) (d a : VReg) (s : State) (r : GRef) (g : Group), Turn s r g → g.role = .vector →
    (g.converged = true →
      let part := g.ons.map (g.rd a)
      let upTo (f : Nat) := (g.ons.filter (· ≤ f)).map (g.rd a)
      let bits (op : Word → Word → Word) : Nat → Word × Word := fun _ => (part.tail.foldl op (part.headD 0), 0)
      Writes (.redgAnd m d a) m s r g d 0 (bits (· &&& ·)) ∧
      Writes (.redgOr m d a) m s r g d 0 (bits (· ||| ·)) ∧
      Writes (.redgXor m d a) m s r g d 0 (bits (· ^^^ ·)) ∧
      (isIntType g.type = true ∨ isFloatType g.type = true →
        Writes (.redgMin m d a) m s r g d 0 (fun _ => Fold.min.run g part) ∧
        Writes (.redgMax m d a) m s r g d 0 (fun _ => Fold.max.run g part) ∧
        Writes (.scanMin m d a) m s r g d 2 (fun f => Fold.min.run g (upTo f)) ∧
        Writes (.scanMax m d a) m s r g d 2 (fun f => Fold.max.run g (upTo f)) ∧
        (isIntType g.type = true ∨ g.rnd ≤ 4 →
          Writes (.redgAdd m d a) m s r g d 0 (fun _ => Fold.add.run g part) ∧
          Writes (.scanAdd m d a) m s r g d 2 (fun f => Fold.add.run g (upTo f))))) ∧
    (g.priv = false → g.converged = false →
      ∀ i ∈ [Instr.redgAnd m d a, .redgOr m d a, .redgXor m d a, .redgMin m d a, .redgMax m d a, .redgAdd m d a,
        .redgArgmin m d a, .redgArgmax m d a, .scanMin m d a, .scanMax m d a, .scanAdd m d a],
        Traps i s r g .divergent 0 0)

/-- R122: `redg.argmin` and `redg.argmax`. -/
def Obligations.PairReductions : Prop :=
  ∀ (isMax m : Bool) (d a : VReg) (s : State) (r : GRef) (g : Group), Turn s r g → g.role = .vector →
    g.converged = true → g.ons ≠ [] → isIntType g.type = true ∨ isFloatType g.type = true →
    let pair (f : Nat) : Word × Word := (g.rd a f, g.rd (nextReg a) f)
    let snan := isFloatType g.type && g.ons.any fun f => (fpOf g.type false (g.rd a f)).isSnan
    ∃ g' f, f ∈ g.ons ∧ (∀ k ∈ g.ons, pair k ≠ pair f → pairWins g.type isMax (pair k) (pair f) = false) ∧
      Completes (if isMax then .redgArgmax m d a else .redgArgmin m d a) m s r g g' ∧
      WroteAll g g' g.on [(d, fun _ => (pair f).1), (nextReg d, fun _ => (pair f).2)] (if snan then flagNV else 0)

/-- R90, R91 with the targets of R72: structured control of an unprivileged group; that a privileged one only goes on, its
counts being held aside (R328), is the model's reading (log entry 22). -/
def Obligations.StructuredControl : Prop :=
  (∀ (m : Bool) (p : PReg) (i : BitVec 12) (s : State) (r : GRef) (g : Group), Holds s r g → g.priv = false →
    let n (f : Nat) : Nat := g.countAt f
    let x (f : Nat) : Bool := (g.preg p).getLsbD f
    let next := g.pc + 1
    let target := g.pc + i.signExtend 32
    let passes (k : Nat) : Prop := ∃ f, f < 16 ∧ g.live.getLsbD f = true ∧ 0 < n f ∧ 255 < n f + k
    let C (ins : Instr) (c : Nat → Nat) (here there : Word) : Prop :=
      ∃ g', Completes ins m s r g g' ∧ Counted g g' c here there
    (passes 1 → Traps (.ifP m p i) s r g .illegal 9 (wordVal (.ifP m p i))) ∧
    (¬ passes 1 → C (.ifP m p i) (fun f => if 0 < n f then n f + 1 else if x f then 0 else 1) next target) ∧
    C (.elseP m i) (fun f => if n f = 0 then 1 else if n f = 1 then 0 else n f) next target ∧
    C (.endif m) (fun f => n f - 1) next next ∧
    (passes 2 → Traps (.loop m i) s r g .illegal 9 (wordVal (.loop m i))) ∧
    (¬ passes 2 → C (.loop m i) (fun f => if 0 < n f then n f + 2 else 0) next target) ∧
    C (.brk m p i) (fun f => if n f = 0 ∧ x f = true then 2 else n f) next (target - 1) ∧
    C (.nextP m p i) (fun f => if n f = 0 ∧ x f = true then 1 else n f) next target ∧
    ((∃ f, f < 16 ∧ g.live.getLsbD f = true ∧ n f ≤ 1) →
      C (.endloop m i) (fun f => if n f = 1 then 0 else n f) target target) ∧
    ((∀ f, f < 16 → g.live.getLsbD f = true → 2 ≤ n f) → C (.endloop m i) (fun f => n f - 2) next next)) ∧
  (∀ (m : Bool) (p : PReg) (i : BitVec 12) (s : State) (r : GRef) (g : Group), Holds s r g → g.priv = true →
    (∀ ins ∈ [Instr.ifP m p i, .elseP m i, .endif m, .loop m i, .brk m p i, .nextP m p i], Completes ins m s r g g.begun) ∧
    Completes (.endloop m i) m s r g { g.begun with pc := g.pc + i.signExtend 32 })

/-- R93: jumps and calls. -/
def Obligations.JumpsFollowTheGuard : Prop :=
  ∀ (m : Bool) (o : BitVec 24) (a : VReg) (s : State) (r : GRef) (g : Group), Turn s r g →
    let far := g.pc + o.signExtend 32
    (g.actives.all g.passes = true →
      Completes (.bra m o) m s r g { g.begun with pc := far } ∧
      (∀ x, g.reads a x →
        Completes (.brx m a) m s r g { g.begun with pc := x } ∧ Completes (.ret m a) m s r g { g.begun with pc := x }) ∧
      ∃ g', Completes (.call m o) m s r g g' ∧ viewWrote g g.on g.v g'.v 63 (fun _ => g.pc + 1) ∧
        viewWrote g g.on g.vDue g'.vDue 63 (fun _ => g.pc + 1) ∧
        { g' with v := g.v, vDue := g.vDue } = { g.begun with pc := far }) ∧
    (g.actives.any g.passes = false →
      ∀ i ∈ [Instr.bra m o, .call m o, .brx m a, .ret m a], Completes i m s r g g.begun) ∧
    (g.actives.any g.passes = true → g.actives.all g.passes = false → g.priv = false →
      ∀ i ∈ [Instr.bra m o, .call m o, .brx m a, .ret m a], Traps i s r g .nonuniform 0 0)

/-- R94: `exit` and `nop`; a schedule being replayed may forbid an end (R367). -/
def Obligations.ExitEndsFibres : Prop :=
  ∀ (m : Bool) (s : State) (r : GRef) (g : Group), Turn s r g →
    Completes (.nop m) m s r g g.begun ∧
    (g.priv = false → ∀ live : Half, (∀ f, f < 16 → live.getLsbD f = (g.live.getLsbD f && !g.on f)) →
      MayEnd s r g.ons (live == 0) →
      (live ≠ 0 → Completes (.exit m) m s r g { g.begun with live := live }) ∧
      (live = 0 → ∃ t, exec (.exit m) s = .next t ∧ ∀ g', t.group? r = some g' → g'.ended = true ∧ g'.live = 0))

/-- R329 with R98: leaving privileged mode; `tret` is privileged. That `exit` under `preempt` of SUB 0 ends the group's part of a
save only while its team is preempting or saving is the model's reading (log entry 106). -/
def Obligations.LeavingPrivilegedMode : Prop :=
  ∀ (m : Bool) (s : State) (r : GRef) (g : Group), Holds s r g →
    (g.priv = true →
      (∃ t, exec (.tret m) s = .next t ∧ ∀ g', t.group? r = some g' →
        g'.pc = g.epc ∧ g'.priv = false ∧ g'.cause = g.cause &&& 0x7FFFFFFF ∧
        g'.count = g.count ∧ g'.live = g.live ∧ g'.helper = g.helper ∧ g'.retired = g.retired ∧ g'.md = g.md ∧
        g'.p = g.p ∧ g'.b = g.b ∧ g'.flags = g.flags ∧ g'.draw = g.draw) ∧
      (∃ t, exec (.exit m) s = .next t ∧
        (((s.teamOf r).phase = .preempting ∨ (s.teamOf r).phase = .saving) → g.cause.extractLsb' 0 16 = 12 →
          ∃ g', t.group? r = some g' ∧ g'.left = true ∧ g'.ended = g.ended ∧ g'.live = g.live) ∧
        (¬ (((s.teamOf r).phase = .preempting ∨ (s.teamOf r).phase = .saving) ∧ g.cause.extractLsb' 0 16 = 12) →
          ∀ g', t.group? r = some g' → g'.ended = true ∧ g'.live = 0))) ∧
    (g.priv = false → Traps (.tret m) s r g .protection 9 (wordVal (.tret m)))

/-- R97: `trap` and `esc`; R327: taking a trap, by each way in which a boundary meets one. That the walk
of a faulting address enters its core in the directory is log entry 42, the model's. -/
def Obligations.TakingATrap : Prop :=
  (∀ (m : Bool) (n : BitVec 12) (s : State) (r : GRef) (g : Group), Turn s r g →
    (g.ons ≠ [] → g.priv = false →
      Traps (.trap m n) s r g .software 0 (n.setWidth 64) ∧ Traps (.esc m n) s r g .breakpoint 0 (n.setWidth 64) ∧
      (g.trapped ⟨.software, 0, n.setWidth 64⟩).epc = g.pc) ∧
    (g.ons = [] → Completes (.trap m n) m s r g g.begun ∧ Completes (.esc m n) m s r g g.begun)) ∧
  (∀ (s : State) (r : GRef) (g : Group) (t : Trap) (sub : Nat) (w : Word), s.group? r = some g → g.priv = false →
    (g.trapDue = some t → g.ended = false →
      ∃ dir, exec (.trapEntry r) s = .next (State.setGroup { s with tdir := dir } r (g.trapped t)) ∧
        (t.walked = false → dir = s.tdir)) ∧
    (s.cur = some r → Traps (.illegalWord sub w) s r g .illegal sub (w.setWidth 64)) ∧
    (s.cur = some r → Traps (.extensionWord w) s r g .extension 0 (w.setWidth 64)) ∧
    (∃ g', (s.setGroup r (g.trapped t)).group? r = some g' ∧
      g'.epc = g.pc ∧ g'.cause.getLsbD 31 = true ∧ (g'.cause.extractLsb' 0 8).toNat = t.cause.code ∧
      (g'.cause.extractLsb' 8 8).toNat = t.sub % 256 ∧ g'.cause.extractLsb' 16 15 = 0 ∧ g'.tval = t.tval ∧
      g'.priv = true ∧ g'.pc = 0 ∧
      g'.v = g.vDue ∧ g'.vDue = g.vDue ∧ g'.h = g.hDue ∧ g'.p = g.p ∧ g'.b = g.b ∧ g'.md = g.md ∧ g'.gang = g.gang ∧
      g'.flags = g.flags ∧ g'.count = g.count ∧ g'.live = g.live ∧ g'.helper = g.helper ∧ g'.draw = g.draw ∧
      g'.retired = g.retired))

/-- R330 with R342: a trap raised in privileged mode loses the context. -/
def Obligations.PrivilegedTrapLosesTheContext : Prop :=
  ∀ (m : Bool) (n : BitVec 12) (o : BitVec 24) (d a b : VReg) (e : BReg) (sub : Nat) (w : Word) (s : State) (r : GRef)
    (g : Group), Turn s r g → g.priv = true →
    let lost (i : Instr) : Prop := ∃ t, exec i s = .next t ∧
      (∀ x ∈ t.teams ++ t.saved, x.ctx ≠ (s.teamOf r).ctx) ∧
      (∀ x ∈ t.grids, x.ctx = (s.teamOf r).ctx → x.retired = true) ∧
      (∀ x ∈ t.ops, x.ctx ≠ (s.teamOf r).ctx) ∧
      ((∀ c, s.context? (s.teamOf r).ctx = some c → c.frames = []) → t.mem = s.mem)
    lost (.illegalWord sub w) ∧ lost (.extensionWord w) ∧
    (g.ons ≠ [] → lost (.trap m n) ∧ lost (.esc m n)) ∧
    ((∀ x, ¬ g.reads a x) → g.ons ≠ [] → lost (.bset m e a b)) ∧
    (g.actives.any g.passes = true → g.actives.all g.passes = false → lost (.bra m o)) ∧
    (g.rank d < otherShape [g.rank a, g.rank b] → lost (.and m d a b))

/-- R61, R94, R227: the return of results, `yield`, and the promotion of a pending group. That a promoted group gets the next turn
is log entry 23, and that its promotion counts no clocks log entry 85: the model's. -/
def Obligations.YieldAndResults : Prop :=
  ∀ (m : Bool) (s : State) (r : GRef) (g : Group), s.group? r = some g →
    let becomes (g' : Group) : Prop := ∃ t, exec (.resultReturn r) s = .next t ∧ t.group? r = some g' ∧
      (∀ q, q ≠ r → t.group? q = s.group? q) ∧ { t with teams := s.teams } = s
    (g.awaited = 1 → g.wait = .marker →
      becomes { g with
        v := g.vDue, h := g.hDue, pend := 0, awaited := 0, wait := .none
        readySince := if g.inSet then g.readySince else s.nextId }) ∧
    (1 < g.awaited ∨ (g.awaited = 1 ∧ g.wait ≠ .marker) → becomes { g with awaited := g.awaited - 1 }) ∧
    (Turn s r g →
      (0 < g.awaited → Waits (.yieldG m) s r .marker) ∧
      (g.awaited = 0 → ∃ t g', exec (.yieldG m) s = .next t ∧ t.group? r = some g' ∧
        g'.v = g.vDue ∧ g'.vDue = g.vDue ∧ g'.h = g.hDue ∧ g'.pc = g.pc + 1 ∧ g'.wait = .none ∧ g'.p = g.p ∧ g'.b = g.b ∧
        g'.md = g.md ∧ g'.flags = g.flags ∧ t.mem = s.mem)) ∧
    (g.inSet = false → g.ended = false → g.wait = .none →
      ∃ t g', exec (.groupPromotion r) s = .next t ∧ t.group? r = some g' ∧ g'.inSet = true ∧ t.turns = r :: s.turns ∧
        { g' with inSet := g.inSet, entered := g.entered, readySince := g.readySince } = g)

/-- R124, R125: random draws and the clock. -/
def Obligations.RandomStream : Prop :=
  (∀ (seed id : DWord), lcgX seed id 0 = seed.toNat * 2 ^ 64 + id.toNat ∧
    (∀ k, k < 2 ^ 64 → lcgX seed id (k + 1) =
      (0xD3A26B1C47E09F5581C62B7AE39D4C2D * lcgX seed id k + 0x6C5F0E83B92A1D47) % 2 ^ 128) ∧
    ∀ x : Nat, lcgOut x = .ofNat 32 (x / 2 ^ 96 ^^^ x / 2 ^ 45)) ∧
  (∀ (m : Bool) (d a : VReg) (x : Word) (s : State) (r : GRef) (g : Group), Turn s r g →
    let seed := (s.gridOf (s.teamOf r)).seed
    let moves (f : Nat) : Bool := g.on f && !(!g.priv && g.helper.getLsbD f)
    let redrawn (i : Instr) (n : Nat → DWord) : Prop := ∃ draw, Completes i m s r g { g.begun with draw := draw } ∧
      ∀ f, f < 16 → draw.getD f 0 = if moves f then n f else g.drawAt f
    (g.rank d = 2 → ∃ g' draw, Completes (.rng m d) m s r g { g' with draw := draw } ∧
      Wrote g g' g.on d (fun f => lcgOut (lcgX seed (g.gfid.getD f 0) ((g.drawAt f).toNat + 1))) 0 ∧
      ∀ f, f < 16 → draw.getD f 0 = if moves f then g.drawAt f + 1 else g.drawAt f) ∧
    (g.reads a x → g.ons ≠ [] →
      redrawn (.rngj m a) (fun f => g.drawAt f + (if x.toNat < 64 then .ofNat 64 (2 ^ x.toNat) else 0))) ∧
    redrawn (.rngs m a) (fun f => g.rd (nextReg a) f ++ g.rd a f) ∧
    (∃ g', Completes (.clk m d) m s r g g' ∧
      WroteAll g g' g.on [(d, fun _ => g.retired.setWidth 32), (nextReg d, fun _ => g.retired.extractLsb' 32 32)] 0))

/-- R26, R127, R128: identifiers and system registers; `State.sysRead` is the table of R26. -/
def Obligations.IdentifiersAndSystemRegisters : Prop :=
  ∀ (m : Bool) (d a : VReg) (k : BitVec 6) (n : BitVec 12) (x : Word) (s : State) (r : GRef) (g : Group), Turn s r g →
    let t := s.teamOf r
    let id (f : Nat) : Nat := t.lin * 1024 + r.slot * 16 + f
    let u (v : Nat) : Word := if t.cont then 0xFFFFFFFF else .ofNat 32 v
    (k.toNat = 0 → Writes (.gid m d k) m s r g d 1 (fun f => (.ofNat 32 (r.slot * 16 + f), 0))) ∧
    (k.toNat = 1 → Writes (.gid m d k) m s r g d 0 (fun _ => (u t.lin, 0))) ∧
    (k.toNat = 2 → id 15 < 2 ^ 64 → Writes (.gid m d k) m s r g d 1 (fun f => (u (id f), 0))) ∧
    (k.toNat = 3 → id 15 < 2 ^ 64 → Writes (.gid m d k) m s r g d 0 (fun _ => (u (id 0 / 2 ^ 32), 0))) ∧
    (n.toNat = 0 → Writes (.rdsys m d n) m s r g d 1 (fun f => (.ofNat 32 f, 0))) ∧
    (n.toNat ≠ 0 → (g.priv = true ∨ sysPrivate n.toNat = false) →
      Writes (.rdsys m d n) m s r g d 0 (fun _ => (s.sysRead r g n.toNat, 0))) ∧
    (g.reads a x → g.ons ≠ [] → sysWritable g.priv n.toNat = true → (g.priv = true ∨ sysPrivate n.toNat = false) →
      (n.toNat ≠ 0x011 → Completes (.wrsys m a n) m s r g (g.begun.sysWrite n.toNat x)) ∧
      (n.toNat = 0x011 →
        CompletesIn (.wrsys m a n) m s (s.modContext t.ctx fun c => { c with lodLost := x }) r g g.begun)) ∧
    (g.priv = false → sysPrivate n.toNat = true →
      Traps (.rdsys m d n) s r g .protection 7 (wordVal (.rdsys m d n)) ∧
      (g.reads a x → Traps (.wrsys m a n) s r g .protection 7 (wordVal (.wrsys m a n)))) ∧
    (g.priv = false → g.reads a x → sysPrivate n.toNat = false → sysWritable false n.toNat = false →
      Traps (.wrsys m a n) s r g .protection 8 (wordVal (.wrsys m a n)))

/-- R96: `lwait`. -/
def Obligations.WaitingForAGrid : Prop :=
  ∀ (m : Bool) (d a : VReg) (tk : DWord) (s : State) (r : GRef) (g : Group), Turn s r g → g.ons ≠ [] →
    (0 < g.awaited → Waits (.lwait m d a) s r .marker) ∧
    (g.awaited = 0 → g.settle.reads2 a tk →
      let c := (s.teamOf r).ctx
      let gives (st : Word) : Prop := ∃ g', Completes (.lwait m d a) m s r g g' ∧ Wrote g.settle g' g.on d (fun _ => st) 0
      let grid := s.grid? c (tk.toNat % 2 ^ 32)
      (tk.toNat / 2 ^ 32 ≠ c ∨ grid = none → gives 2) ∧
      (∀ x, tk.toNat / 2 ^ 32 = c → grid = some x →
        (x.lost = true → gives 1) ∧
        (x.lost = false → x.retired = true → ∃ g', Wrote g.settle g' g.on d (fun _ => 0) 0 ∧
          CompletesIn (.lwait m d a) m s (s.catchUp c (s.teamOf r).core) r g g') ∧
        (x.lost = false → x.retired = false → Waits (.lwait m d a) s r .grid)))

/-- R136 with R19, R132, R61 and R241: the loads. That a load which no fibre performs adds no pending result is the model's choice
(log entry 34). -/
def Obligations.LoadsReturnTheirElements : Prop :=
  ∀ (m : Bool) (d a : VReg) (b : BReg) (n : BitVec 9) (k : BitVec 12) (s : State) (r : GRef) (g : Group), Turn s r g →
    g.role = .vector → g.pend < 16 → Quiet s r g → g.fwdOpen = [] → isReservedType g.type = false →
    isNarrowType g.type = false → (if g.rank a = 0 then 0 else 2) ≤ g.rank d →
    let size := memSize g.type
    let one (f : Nat) : Nat := if g.rank a = 0 then g.ons.headD 0 else f
    let returns (i : Instr) (bytes : Nat → List Byte) : Prop := ∃ t g', CompletesIn i m s t r g g' ∧ SameButTimes t s ∧
      ReturnsAll g g' g.on [(d, fun f => loadWord g.type (bytes (one f)))] 0
    let c := s.ctxOf (s.teamOf r)
    let x := (s.grid? (s.teamOf r).ctx (s.teamOf r).serial).getD default
    let off (f : Nat) : Word := g.rd a f + .ofInt 32 (k.toInt * size)
    (g.ons = [] → Completes (.ld m d a b n) m s r g g.begun ∧ Completes (.ldc m d a k) m s r g g.begun ∧
      (g.swz ≠ 3 → Completes (.ldx m d a k) m s r g g.begun)) ∧
    (g.ons ≠ [] →
      (∀ loc : Nat → Loc, (∀ f ∈ g.ons,
          Reaches s r .read size (g.breg b + (g.rd a f).signExtend 64 + .ofInt 64 (n.toInt * size)) (loc f) ∧
          s.poisonedAt (loc f) size = false) →
        returns (.ld m d a b n) fun f => s.bytesAtLoc (loc f) size) ∧
      (∀ tid : Nat → Nat, g.swz ≠ 3 → (∀ f ∈ g.ons, InWindow s r g.swz size size (off f) (tid f)) →
        returns (.ldx m d a k) fun f => s.scrBytesAt (tid f) g.swz (scrOff (off f)) size) ∧
      ((∀ f ∈ g.ons, (off f).toNat % size = 0 ∧ (off f).toNat + size ≤ c.constSz ∧
          (off f).toNat / 16 ∉ x.constBad.map (·.1)) →
        returns (.ldc m d a k) fun f => x.const.read (off f).toNat size))

/-- R137, R138 with R19 and R132: the stores. -/
def Obligations.StoresWriteTheirElements : Prop :=
  ∀ (m : Bool) (d a : VReg) (b : BReg) (n : BitVec 9) (k : BitVec 12) (s : State) (r : GRef) (g : Group), Turn s r g →
    g.role = .vector → Quiet s r g → g.fwdOpen = [] → isReservedType g.type = false → isNarrowType g.type = false →
    let size := memSize g.type
    let acting := g.ons.filter fun f => !g.isHelper f
    let fs := if g.rank a = 0 ∧ g.rank d = 0 then acting.take 1 else acting
    let bytes (f : Nat) : List Byte := storeBytes g.type (g.rd d f)
    let apart (lo : Nat → Option Nat) : Prop := ∀ e ∈ fs, ∀ f ∈ fs, e ≠ f → ∀ x y, lo e = some x → lo f = some y →
      x + size ≤ y ∨ y + size ≤ x
    (∀ loc : Nat → Loc, Unarmed s r → (∀ f ∈ fs,
        Reaches s r .write size (g.breg b + (g.rd a f).signExtend 64 + .ofInt 64 (n.toInt * size)) (loc f) ∧
        s.poisonedAt (loc f) size = false ∧ s.inUse (loc f) size = false) →
      ∃ t, CompletesIn (.st m d a b n) m s t r g g.begun ∧
        SameButTimes t (fs.foldl (fun s f => s.putBytes (loc f) (bytes f)) s) ∧ UntouchedBut s t fs loc size ∧
        (s.mem.wf = true → s.hostMem.wf = true →
          apart (fun f => match loc f with | .dev x => some x | .host _ => none) →
          apart (fun f => match loc f with | .dev _ => none | .host x => some x) →
          ∀ f ∈ fs, t.bytesAtLoc (loc f) size = bytes f)) ∧
    (∀ tid : Nat → Nat, g.swz ≠ 3 →
      (∀ f ∈ fs, InWindow s r g.swz size size (g.rd a f + .ofInt 32 (k.toInt * size)) (tid f)) →
      let off (f : Nat) : Nat := scrOff (g.rd a f + .ofInt 32 (k.toInt * size))
      ∃ t, CompletesIn (.stx m d a k) m s t r g g.begun ∧
        SameButTimes t (fs.foldl (fun s f => s.storedAt (tid f) g.swz (some (g.type, 0)) (off f) (bytes f)) s) ∧
        t.mem = s.mem ∧ t.hostMem = s.hostMem ∧
        (∀ e x, (∀ f ∈ fs, tid f = e → x < off f ∨ off f + size ≤ x) →
          t.scrBytesAt e g.swz x 1 = s.scrBytesAt e g.swz x 1))

/-- R326 rows 5 to 8 with R346 and R411: the checks of the addresses of `ld` and `st`. The walk of a faulting address enters its core
in the directory by log entry 42, the model's. -/
def Obligations.AccessesTrapBeforeTheyAct : Prop :=
  ∀ (m : Bool) (d a : VReg) (b : BReg) (n : BitVec 9) (s : State) (r : GRef) (g : Group), Turn s r g → g.role = .vector →
    g.priv = false → isReservedType g.type = false → isNarrowType g.type = false →
    let size := memSize g.type
    let va (f : Nat) : DWord := g.breg b + (g.rd a f).signExtend 64 + .ofInt 64 (n.toInt * size)
    let checks (i : Instr) (k : AccKind) (fs : List Nat) : Prop :=
      let tr (f : Nat) := s.translate (s.ctxOf (s.teamOf r)) (va f) k
      ∀ f ∈ fs,
        (canonical (va f) = false → (∀ e ∈ fs, e < f → canonical (va e) = true) → Traps i s r g .protection 23 (va f)) ∧
        ((∀ e ∈ fs, canonical (va e) = true) →
          ((va f).toNat % size ≠ 0 → (∀ e ∈ fs, e < f → (va e).toNat % size = 0) → Traps i s r g .protection 11 (va f)) ∧
          ((∀ e ∈ fs, (va e).toNat % size = 0) →
            (tr f = .error .page → (∀ e ∈ fs, e < f → tr e ≠ .error .page) → TrapsWalked i s r g .page k.sub (va f)) ∧
            ∀ sub, (∀ e ∈ fs, tr e ≠ .error .page) → tr f = .error (.protection sub) →
              (∀ e ∈ fs, e < f → ∃ l, tr e = .ok l) → TrapsWalked i s r g .protection sub (va f)))
    (g.pend < 16 → (if g.rank a = 0 then 0 else 2) ≤ g.rank d →
      checks (.ld m d a b n) .read (if g.rank a = 0 then g.ons.take 1 else g.ons)) ∧
    (g.pend < 16 → g.rank d < (if g.rank a = 0 then 0 else 2) →
      Traps (.ld m d a b n) s r g .shape 0 (.ofNat 64 d.val)) ∧
    (16 ≤ g.pend → Traps (.ld m d a b n) s r g .illegal 6 (wordVal (.ld m d a b n))) ∧
    checks (.st m d a b n) .write
      ((g.ons.filter fun f => !g.isHelper f).take (if g.rank a = 0 ∧ g.rank d = 0 then 1 else 16))

/-- R393 with R136 and R137: poison met by loads and stores. -/
def Obligations.PoisonStopsReadsAndPartialStores : Prop :=
  ∀ (m : Bool) (d a : VReg) (b : BReg) (n : BitVec 9) (f : Nat) (loc : Loc) (s : State) (r : GRef) (g : Group), Turn s r g →
    g.role = .vector → g.pend < 16 → g.fwdOpen = [] → isReservedType g.type = false → isNarrowType g.type = false →
    g.ons = [f] → g.isHelper f = false → g.priv = false →
    let size := memSize g.type
    let va : DWord := g.breg b + (g.rd a f).signExtend 64 + .ofInt 64 (n.toInt * size)
    s.poisonedAt loc size = true →
    (Reaches s r .read size va loc → (if g.rank a = 0 then 0 else 2) ≤ g.rank d →
      Traps (.ld m d a b n) s r g .poison 0 (.ofNat 64 (va.toNat / 64 * 64))) ∧
    (Reaches s r .write size va loc → Traps (.st m d a b n) s r g .poison 1 (.ofNat 64 (va.toNat / 64 * 64)))

/-- R63, R347, R348: a forwarded load; the bytes of a `PFWD` are log entry 12's, and that a load waits while another access of the
package that writes to the line has it in its hands is log entry 92's. -/
def Obligations.ForwardedAccessWaitsForItsOwner : Prop :=
  ∀ (m : Bool) (d a : VReg) (b : BReg) (n : BitVec 9) (f : Nat) (l : Leaf) (s : State) (r : GRef) (g : Group), Turn s r g →
    g.role = .vector → g.pend < 16 → Quiet s r g → g.fwdOpen = [] → isReservedType g.type = false →
    isNarrowType g.type = false → g.ons = [f] → g.rank d = 2 → g.rank a = 2 →
    let size := memSize g.type
    let va : DWord := g.breg b + (g.rd a f).signExtend 64 + .ofInt 64 (n.toInt * size)
    let c := s.ctxOf (s.teamOf r)
    canonical va = true → va.toNat % size = 0 → s.translate c va .read = .ok l → s.frozen c.num (l.page va) = false →
    let asks (conn : ConnId) (kind ctx : Nat) (data : List Byte) : Prop := ∃ t, exec (.ld m d a b n) s = .next t ∧
      t.outbox = s.outbox ++ [⟨conn, kind, ctx, false, 0, s.nextId, data, []⟩] ∧
      t.requests = s.requests ++ [⟨s.nextId, c.num, conn, .group r (readIdx 0), va, none⟩] ∧ t.mem = s.mem ∧
      t.hostMem = s.hostMem ∧ t.group? r = some { g with wait := .forwarded, fwdOpen := [readIdx 0], owed := 0 }
    let taken := s.taken (.group r (readIdx 0)) (l.line va) false
    let elsewhere : Prop := (∃ x, l.home va = .atHost x ∧ (s.conn .host).down = false) ∨
      ∃ dev, l.home va = .atPeer dev ∧ s.reachable c dev = true
    (g.fwd = [] → taken = true → elsewhere → ∃ t, exec (.ld m d a b n) s = .next t ∧
      t.group? r = some { g with wait := .forwarded, owed := 0 } ∧ { t with teams := s.teams } = s) ∧
    (g.fwd = [] → taken = false →
      (∀ x, l.home va = .atHost x → (s.conn .host).down = false → asks .host 3 0xFF (natLe 8 (x / 128 * 128))) ∧
      (∀ dev, l.home va = .atPeer dev → s.reachable c dev = true →
        asks (.peer dev) 35 c.num (natLe 8 va.toNat ++ [0, .ofNat 8 size, 0, 0, 0, 0, 0, 0]))) ∧
    (∀ bs, g.fwd = [⟨readIdx 0, 0, bs⟩] →
      let returns (x : List Byte) : Prop := ∃ t g', CompletesIn (.ld m d a b n) m s t r g g' ∧ SameButTimes t s ∧
        ReturnsAll g g' g.on [(d, fun _ => loadWord g.type x)] 0
      (∀ x, l.home va = .atHost x → bs.length = 128 → returns ((bs.drop (x % 128)).take size)) ∧
      (∀ dev, l.home va = .atPeer dev → bs.length = size → returns bs))

/-- R136, R139, R140 with R355: prefetch, fences and pinning. -/
def Obligations.PrefetchFencesAndPins : Prop :=
  ∀ (m : Bool) (d a : VReg) (b : BReg) (n : BitVec 9) (s : State) (r : GRef) (g : Group), Turn s r g →
    (g.role = .vector → Completes (.pref m a b n) m s r g g.begun) ∧
    (∀ i ∈ [Instr.fencePkg m, .fenceHost m, .fenceSys m], Completes i m s r g g.begun) ∧
    (g.role = .vector →
      let c := s.ctxOf (s.teamOf r)
      let va (f : Nat) : DWord := g.breg b + (g.rd a f).signExtend 64
      let pins (p : List Nat) : State := s.modContext c.num fun c => { c with pinned := p }
      (∀ l : Nat → Leaf, g.pend < 16 → g.rank d = 2 → g.ons ≠ [] → (∀ f ∈ g.ons, canonical (va f) = true ∧
          s.translate c (va f) .read = .ok (l f) ∧ s.frozen c.num ((l f).page (va f)) = false ∧
          ∀ x, (l f).home (va f) = .here x → s.poisonedAt x 1 = false) →
        ∃ (st : Nat → Word) (p : Nat → List Nat) (g' : Group),
          (∃ t, CompletesIn (.lck m d a b) m s t r g g' ∧ { t with tdir := s.tdir } = pins (p 16)) ∧
          ReturnsAll g g' g.on [(d, st)] 0 ∧ p 0 = c.pinned ∧
          ∀ f, f < 16 →
            (f ∉ g.ons → p (f + 1) = p f) ∧
            (f ∈ g.ons →
              ((∀ x, (l f).home (va f) ≠ .here (.dev x)) → st f = 3 ∧ p (f + 1) = p f) ∧
              ∀ x, (l f).home (va f) = .here (.dev x) →
                (x / 128 ∈ p f → st f = 1 ∧ p (f + 1) = p f) ∧
                (x / 128 ∉ p f → c.pinq ≤ (p f).length → st f = 2 ∧ p (f + 1) = p f) ∧
                (x / 128 ∉ p f → (p f).length < c.pinq → st f = 0 ∧ p (f + 1) = p f ++ [x / 128]))) ∧
      (∃ t, CompletesIn (.ulk m a b) m s t r g g.begun ∧
        { t with contexts := s.contexts, tdir := s.tdir } = s ∧
        ∀ x, s.context? c.num = some x → ∃ y, t.context? c.num = some y ∧ { y with pinned := x.pinned } = x ∧
          ∀ line, line ∈ y.pinned ↔ line ∈ x.pinned ∧ ¬ ∃ f ∈ g.ons, canonical (va f) = true ∧
            ∃ l p, s.translate c (va f) .read = .ok l ∧ l.home (va f) = .here (.dev p) ∧ p / 128 = line))

/-- R142 with R141 and R138: the atomics of major 0x37. That one which no fibre performs adds no pending result is the model's choice
(log entry 34). -/
def Obligations.WordAtomics : Prop :=
  ∀ (m : Bool) (n : BReg) (d a b : VReg) (loc : Nat → Loc) (s : State) (r : GRef) (g : Group), Turn s r g → g.role = .vector →
    g.pend < 16 → g.rank d = 2 →
    let fs := g.ons.filter fun f => !g.isHelper f
    let ok := Unlisted s r g ∧ Unarmed s r ∧ g.fwdOpen = [] ∧ ∀ f ∈ fs,
      Reaches s r .rmw 4 (g.breg n + (g.rd a f).signExtend 64) (loc f) ∧ s.poisonedAt (loc f) 4 = false ∧
      s.inUse (loc f) 4 = false
    let word (bs : List Byte) : Word := .ofNat 32 (leNat bs)
    let less (x y : Word) : Bool := if g.type = 2 then x.slt y else x.ult y
    let acts (i : Instr) (new : Nat → Word → Word) : Prop :=
      (fs = [] → Unlisted s r g → g.fwdOpen = [] → Completes i m s r g g.begun) ∧
      (ok → fs ≠ [] →
        let run := atomicRun 4 loc (fun f old => natLe 4 (new f (word old)).toNat) fs s
        ∃ t g', CompletesIn i m s t r g g' ∧ SameButTimes t run.1 ∧ UntouchedBut s t fs loc 4 ∧
          ReturnsAll g g' fs.contains [(d, fun f => word ((run.2.lookup f).getD []))] 0)
    (g.type = 2 ∨ g.type = 5 →
      acts (.aadd m n d a b) (fun f x => x + g.rd b f) ∧
      acts (.amin m n d a b) (fun f x => if less (g.rd b f) x then g.rd b f else x) ∧
      acts (.amax m n d a b) (fun f x => if less x (g.rd b f) then g.rd b f else x)) ∧
    (g.type = 2 ∨ g.type = 5 ∨ g.type = 8 ∨ g.type = 9 →
      acts (.aand m n d a b) (fun f x => x &&& g.rd b f) ∧ acts (.aor m n d a b) (fun f x => x ||| g.rd b f) ∧
      acts (.axor m n d a b) (fun f x => x ^^^ g.rd b f) ∧ acts (.axch m n d a b) (fun f _ => g.rd b f) ∧
      acts (.acas m n d a b) (fun f x => if x = g.rd d f then g.rd b f else x)) ∧
    (g.priv = false → isReservedType g.type = false →
      (g.type ≠ 2 → g.type ≠ 5 → ∀ i ∈ [Instr.aadd m n d a b, .amin m n d a b, .amax m n d a b],
        Traps i s r g .illegal 11 (wordVal i)) ∧
      (g.type ≠ 2 → g.type ≠ 5 → g.type ≠ 8 → g.type ≠ 9 →
        ∀ i ∈ [Instr.aand m n d a b, .aor m n d a b, .axor m n d a b, .axch m n d a b, .acas m n d a b],
          Traps i s r g .illegal 11 (wordVal i)))

/-- R143, R144 with R141: the atomics of major 0x38. The value that a half type's pair stores is the model's reading (log entry 63),
and that one which no fibre performs adds no pending result its choice (log entry 34). -/
def Obligations.FloatAndPairAtomics : Prop :=
  ∀ (m : Bool) (n : BReg) (d a b : VReg) (loc : Nat → Loc) (s : State) (r : GRef) (g : Group), Turn s r g → g.role = .vector →
    g.pend < 16 → g.rank d = 2 → Unlisted s r g → g.fwdOpen = [] →
    let fs := g.ons.filter fun f => !g.isHelper f
    let reach (size : Nat) := ∀ f ∈ fs,
      Reaches s r .rmw size (g.breg n + (g.rd a f).signExtend 64) (loc f) ∧ s.poisonedAt (loc f) size = false ∧
      s.inUse (loc f) size = false
    let acts (i : Instr) (size : Nat) (ds : List VReg) (new : Nat → List Byte → List Byte) (fl : Nat → List Byte → Word) : Prop :=
      (fs = [] → Completes i m s r g g.begun) ∧
      (reach size → Unarmed s r → fs ≠ [] →
        let run := atomicRun size loc new fs s
        ∃ t g', CompletesIn i m s t r g g' ∧ SameButTimes t run.1 ∧ UntouchedBut s t fs loc size ∧
          ReturnsAll g g' fs.contains
            (ds.zipIdx.map fun (x, j) => (x, fun f => .ofNat 32 (bytesAt ((run.2.lookup f).getD []) (4 * j) 4)))
            ((run.2.map fun (f, old) => fl f old).foldl (· ||| ·) 0))
    let float (i : Instr) (op : Fp → Fp → Word × Word) : Prop :=
      let x (f : Nat) (old : List Byte) := op (fpOf 8 g.ftz (.ofNat 32 (leNat old))) (fpOf 8 g.ftz (g.rd b f))
      acts i 4 [d] (fun f old => natLe 4 (x f old).1.toNat) (fun f old => (x f old).2)
    let pair (i : Instr) (isMax : Bool) : Prop :=
      let y (f : Nat) : Word × Word := (pairValue g.type (g.rd b f), g.rd (nextReg b) f)
      acts i 8 [d, nextReg d]
        (fun f old => if pairWins g.type isMax (y f) (.ofNat 32 (bytesAt old 0 4), .ofNat 32 (bytesAt old 4 4)) then
          natLe 4 (y f).1.toNat ++ natLe 4 (y f).2.toNat else old)
        (fun f _ => if isFloatType g.type = true ∧ (fpOf g.type false (y f).1).isSnan = true then flagNV else 0)
    (g.type = 8 →
      (g.rnd < 5 → float (.afadd m n d a b) (fpAdd 8 g.rnd g.ftz)) ∧
      float (.afmin m n d a b) (fpMinMax 8 0 g.ftz false false) ∧ float (.afmax m n d a b) (fpMinMax 8 0 g.ftz true false)) ∧
    (g.type ∈ [2, 5, 8, 6, 7] → g.rank (nextReg d) = 2 → pair (.aminx m n d a b) false ∧ pair (.amaxx m n d a b) true)

/-- R163 with R162 and R40: the handle instructions. That words 0 to 11, CTL included, keep their reserved bits is the model's choice
(log entry 32). -/
def Obligations.HandleRegisters : Prop :=
  ∀ (m : Bool) (h : HReg) (d a b : VReg) (c : BReg) (k w : Word) (s : State) (r : GRef) (g : Group), Turn s r g → g.ons ≠ [] →
    let word (x : BitVec 512) (j : Nat) : Word := x.extractLsb' (32 * j) 32
    let kept (j : Nat) (v : Word) : Word := if 12 ≤ j then v &&& 0x00FFF770 else v
    (g.reads a k → g.reads b w → k.toNat < 16 →
      ∃ x, Completes (.hset m h a b) m s r g { g.begun with h := g.h.set h.val x, hDue := g.hDue.set h.val x } ∧
        ∀ j, j < 16 → word x j = kept j (if j = k.toNat then w else word (g.hreg h) j)) ∧
    (g.reads b k → k.toNat < 16 → Writes (.hget m d h b) m s r g d 0 (fun _ => (word (g.hreg h) k.toNat, 0))) ∧
    (g.priv = false → 16 ≤ k.toNat →
      (g.reads a k → g.reads b w → Traps (.hset m h a b) s r g .protection 14 (wordVal (.hset m h a b))) ∧
      (g.reads b k → Traps (.hget m d h b) s r g .protection 14 (wordVal (.hget m d h b)))) ∧
    Writes (.hchk m d h) m s r g d 0 (fun _ => (.ofNat 32 (handleOf (g.hreg h)).check, 0)) ∧
    (∀ loc, g.pend < 16 → Quiet s r g → g.fwdOpen = [] → g.reads a w →
      Reaches s r .read 64 (g.breg c + w.signExtend 64) loc → s.poisonedAt loc 64 = false →
      ∃ t x, CompletesIn (.hld m h a c) m s t r g { g.begun.pending with hDue := g.hDue.set h.val x } ∧
        SameButTimes t s ∧ ∀ j, j < 16 → word x j = kept j (.ofNat 32 (bytesAt (s.bytesAtLoc loc 64) (4 * j) 4))) ∧
    (∀ loc, g.someActs = true → Quiet s r g → Unarmed s r → g.fwdOpen = [] → g.reads a w →
      Reaches s r .write 64 (g.breg c + w.signExtend 64) loc → s.inUse loc 64 = false →
      ∃ t, CompletesIn (.hst m h a c) m s t r g g.begun ∧
        SameButTimes t ((s.putBytes loc (natLe 64 (g.hreg h).toNat)).unpoison loc [loc.addr / 64]) ∧
        UntouchedBut s t [0] (fun _ => loc) 64)

/-- R164, R165: tensor access; `Handle.spot` is the place of an element (R161). -/
def Obligations.TensorElements : Prop :=
  ∀ (m : Bool) (d : VReg) (a : HReg) (b : VReg) (s : State) (r : GRef) (g : Group), Turn s r g → g.role = .vector →
    Quiet s r g → g.fwdOpen = [] → g.rank (nextReg d) = 2 →
    let x := handleOf (g.hreg a)
    x.check = 0 → b.val + x.rank ≤ 64 → (x.scr = true → g.swz ≠ 3) →
    let ix (f : Nat) : List Word := (List.range x.rank).map fun k => (g.v.getD (b.val + k) default).at f
    let low (f : Nat) : Nat := if (ix f).any (· == 0xFFFFFFFF) then 3
      else if (ix f).zipIdx.any (fun (w, k) => x.extent k ≤ w.toNat) then 1 else 0
    (∀ (spot : Nat → Spot) (loc : Nat → Loc) (tid : Nat → Nat) (k : AccKind) (fs : List Nat),
      (∀ f ∈ fs, low f = 0 → ∃ log, (x.spot (s.viewOf r g) ((ix f).map (·.toNat))).run = .ok (spot f, log)) →
      (∀ f ∈ fs, low f = 0 → ∀ bit, spot f = .at bit →
        if x.scr = true then (x.base + .ofNat 64 (bit / 8)).toNat < 2 ^ 19 ∧
          InWindow s r g.swz 1 x.bytes ((x.base + .ofNat 64 (bit / 8)).setWidth 32) (tid f)
        else Reaches s r k 1 (x.base + .ofNat 64 (bit / 8)) (loc f) ∧ s.poisonedAt (loc f) x.bytes = false ∧
          (k = .write → s.inUse (loc f) x.bytes = false)) →
      let st (f : Nat) : Word := if low f ≠ 0 then .ofNat 32 (low f) else match spot f with | .absent => 2 | _ => 0
      (k = .read → fs = g.ons → fs ≠ [] → g.pend < 16 → g.rank d = 2 →
        let val (f : Nat) : Word := if low f ≠ 0 then 0 else match spot f with
          | .at bit => x.elemWord bit (if x.scr = true then
              s.scrBytesAt (tid f) g.swz (scrOff ((x.base + .ofNat 64 (bit / 8)).setWidth 32)) x.bytes
            else s.bytesAtLoc (loc f) x.bytes)
          | _ => 0
        ∃ t g', CompletesIn (.tld m d a b) m s t r g g' ∧ SameButTimes t s ∧
          ReturnsAll g g' g.on [(d, val), (nextReg d, st)] 0) ∧
      (k = .write → fs = g.ons.filter (fun f => !g.isHelper f) → x.type ≠ 4 → Unarmed s r →
        ∃ t g', CompletesIn (.tst m d a b) m s t r g g' ∧
          viewWroteAll g fs.contains g.v g'.v [(nextReg d, st)] ∧ viewWroteAll g fs.contains g.vDue g'.vDue [(nextReg d, st)] ∧
          { g' with v := g.v, vDue := g.vDue } = g.begun ∧
          let bit (f : Nat) : Nat := match spot f with | .at bit => bit | _ => 0
          let named := fs.filter fun f => low f == 0 && (match spot f with | .at _ => true | _ => false)
          let o (f : Nat) : Nat := scrOff ((x.base + .ofNat 64 (bit f / 8)).setWidth 32)
          (x.scr = false →
            SameButTimes t (named.foldl (fun u f =>
              u.putBytes (loc f) (x.elemPut (bit f) (g.rd d f) (u.bytesAtLoc (loc f) x.bytes))) s) ∧
            UntouchedBut s t named loc x.bytes) ∧
          (x.scr = true → t.mem = s.mem ∧ t.hostMem = s.hostMem ∧
            SameButTimes t (named.foldl (fun u f => u.storedAt (tid f) g.swz (some (x.elem, x.fmt)) (o f)
              (x.elemPut (bit f) (g.rd d f) (u.scrBytesAt (tid f) g.swz (o f) x.bytes))) s) ∧
            ∀ e y, (∀ f ∈ named, tid f = e → y < o f ∨ o f + x.bytes ≤ y) →
              t.scrBytesAt e g.swz y 1 = s.scrBytesAt e g.swz y 1))) ∧
    (g.priv = false → x.type = 4 → Traps (.tst m d a b) s r g .protection 16 (wordVal (.tst m d a b)))

/-- R166: `nzs`. -/
def Obligations.NonZeroScan : Prop :=
  ∀ (m : Bool) (d a b : VReg) (src n dst : Word) (t1 t2 : Nat) (s : State) (r : GRef) (g : Group), Turn s r g →
    g.role = .vector → g.pend < 16 → Quiet s r g → g.someActs = true → isReservedType g.type = false →
    isNarrowType g.type = false → g.swz ≠ 3 → g.reads a src → g.reads (nextReg a) n → g.reads b dst →
    let len := n.toNat * memSize g.type
    InWindow s r g.swz 1 len src t1 → InWindow s r g.swz 4 0 dst t2 →
    (g.priv = false → n.toNat = 0 ∨ 65536 < n.toNat → Traps (.nzs m d a b) s r g .protection 14 (wordVal (.nzs m d a b))) ∧
    (1 ≤ n.toNat → n.toNat ≤ 65536 →
      let bs := s.scrBytesAt t1 g.swz (scrOff src) len
      let bits := 8 * memSize g.type
      let zero (i : Nat) : Bool :=
        let c := leNat ((bs.drop (i * memSize g.type)).take (memSize g.type))
        if isIntType g.type then c == 0 else 2 * (if g.type = 9 then c / 2 ^ 13 * 2 ^ 13 else c) % 2 ^ bits == 0
      let ks := (List.range n.toNat).filter fun i => !zero i
      let padded := Nat.max 16 ((ks.length + 15) / 16 * 16)
      let list : List Word := ks.map (.ofNat 32 ·) ++ List.replicate (padded - ks.length) 0xFFFFFFFF
      InWindow s r g.swz 4 (4 * padded) dst t2 →
      ∃ t g', CompletesIn (.nzs m d a b) m s t r g g' ∧
        SameButTimes t (s.storedAt t2 g.swz (some (5, 0)) (scrOff dst) (wordBytes list)) ∧
        t.mem = s.mem ∧ t.hostMem = s.hostMem ∧ ReturnsAll g g' g.on [(d, fun _ => .ofNat 32 ks.length)] 0)

/-- R145, R146, R155 with R150 to R152 and R169 to R171: issuing copies and transfers. -/
def Obligations.EngineOperationsStart : Prop :=
  ∀ (m : Bool) (d : BReg) (h : HReg) (a b : VReg) (x : Nat → Word) (w : Word) (s : State) (r : GRef) (g : Group),
    Turn s r g → g.reads b w →
    let ops (n : Nat) : Prop := ∀ k, k < n → g.reads (regAt a k) (x k)
    let t := s.teamOf r
    let starts (i : Instr) (w : Word) (dir ring : Bool) (k : OpKind) : Prop :=
      let c := completionOf w
      (Accepts s r w dir ring k → ∃ t, CompletesIn i m s t r g g.begun ∧ Started s t r w k) ∧
      (completionBad w dir ring = false → (∀ n, c.tag = some n → n < t.tagN) → (∀ n, c.ring = some n → n < t.rings.length) →
        (∀ n, c.tag = some n → t.tg.getLsbD n = true → Waits i s r .tag) ∧
        ((∀ n, c.tag = some n → t.tg.getLsbD n = false) → ∀ n, c.ring = some n → c.out = false →
          (t.rings.getD n default).emptyAtHead = false → Waits i s r .ring))
    let out := (completionOf w).out
    let v := handleOf (g.hreg h)
    (g.role = .copy → g.converged = true →
      (∀ tid, ops 4 → a.val % 4 = 0 → g.swz ≠ 3 →
        let glob := g.breg d + (x 0).signExtend 64
        let rows := ((x 3).extractLsb' 16 16).toNat
        canonical glob = true → glob.toNat % 16 = 0 → (x 2).toNat % 16 = 0 → 16 ≤ (x 2).toNat → 1 ≤ rows →
        rows * (x 2).toNat ≤ 524288 → InRange s r 16 ((x 2).toNat * rows) (x 1) tid →
        starts (.cpy m d a b) w true true
          (.cpy glob (x 1) (x 2).toNat rows ((x 3).extractLsb' 0 16).toNat g.swz out)) ∧
      (∀ tid c, ops 8 → a.val % 8 = 0 → v.check = 0 → v.scr = false → v.type ≠ 4 → (v.type = 1 ∨ c.getLsbD 21 = false) →
        let half (w : Word) (k : Nat) : Nat := (w.extractLsb' (16 * k) 16).toNat
        let ext := [half (x 5) 0, half (x 5) 1, half (x 6) 0, half (x 6) 1, half (x 7) 0]
        half (x 7) 1 = 0 → (∀ k, k < 5 → 1 ≤ ext.getD k 0 ∧ (v.rank ≤ k → ext.getD k 0 = 1 ∧ x k = 0)) →
        boxBytes v.bits ext ≤ 524288 → InRange s r 16 (boxBytes v.bits ext) w tid → g.reads (nextReg b) c →
        starts (.cpyt m h a b) c true true (.cpyt (g.hreg h) [x 0, x 1, x 2, x 3, x 4] ext w (completionOf c).out)) ∧
      (∀ t1 t2, ops 4 → Quiet s r g → a.val % 4 = 0 → g.swz ≠ 3 → v.check = 0 → v.type = 1 → v.rank = 2 → v.scr = false → (x 1).toNat ≤ 65536 →
        (x 3).toNat % 16 = 0 → v.paddedRow ≤ (x 3).toNat → InWindow s r g.swz 4 (4 * (x 1).toNat) (x 0) t1 →
        InRange s r 16 (if x 1 = 0 then 0 else ((x 1).toNat - 1) * (x 3).toNat + v.paddedRow) (x 2) t2 →
        let list := bytesWords (s.scrBytesAt t1 g.swz (scrOff (x 0)) (4 * (x 1).toNat)) (x 1).toNat
        starts (.cpyg m h a b) w false true (.rows (g.hreg h) list [] (x 2) (x 3).toNat g.swz false) ∧
        starts (.cpys m h a b) w false true (.rows (g.hreg h) list [] (x 2) (x 3).toNat g.swz true))) ∧
    (g.role = .vector → g.someActs = true → a.val % 4 = 0 → ops 4 → ∀ z host dev, g.reads (nextReg b) z →
      transferTarget z = some (host, dev) →
      let loc := g.breg d + (x 0).signExtend 64
      let rem := x 2 ++ x 1
      canonical loc = true → loc.toNat % 16 = 0 → (host = true ∨ canonical rem = true) → rem.toNat % 16 = 0 →
      ((x 3).toNat % 16 = 0 → 16 ≤ (x 3).toNat → (x 3).toNat ≤ 16777216 →
        starts (.nput m d a b) w false false (.xfer true loc rem (x 3).toNat host dev) ∧
        starts (.nget m d a b) w false false (.xfer false loc rem (x 3).toNat host dev)) ∧
      (1 ≤ (x 3).toNat → (x 3).toNat ≤ 1048576 → g.type = 8 ∨ g.type = 2 ∨ g.type = 5 →
        starts (.nredAdd m d a b) w false false (.nred 0 g.type loc rem (x 3).toNat host dev []) ∧
        starts (.nredMin m d a b) w false false (.nred 1 g.type loc rem (x 3).toNat host dev []) ∧
        starts (.nredMax m d a b) w false false (.nred 2 g.type loc rem (x 3).toNat host dev [])))

/-- R150 with R145, R147, R242, R243 and R334: one chunk of an inward copy without a ring; that chunks are performed one at a
time is log entry 13's choice, and their ascending order R334's. -/
def Obligations.CopyMovesItsRows : Prop :=
  ∀ (id : Nat) (o : Op) (glob : DWord) (w : Word) (len rows stride swz : Nat) (loc : Loc) (tm : Team) (s : State),
    s.op? id = some o →
    (o.captured = true ∨ o.waits ≠ [] → exec (.copyCompletion id) s = .next s) ∧
    (o.captured = false → o.waits = [] → o.kind = .cpy glob w len rows stride swz false → o.ring = none → o.reason = 0 →
      s.team? o.tid = some tm → scrXm w = false → tm.scr.wf = true → tm.scrPoison = [] → len % 16 = 0 → scrOff w % 16 = 0 →
      ((s.context? o.ctx).getD default).recMode ≠ 1 → Frameless s →
      let m := cpyImage w len rows
      let b := m.at o.done / 2048
      o.done < m.total → ChunkAt s ((s.context? o.ctx).getD default) .read (cpyPlace glob len stride o.done) loc →
      ∃ t, exec (.copyCompletion id) s = .next t ∧ ChunkDone s t o m.total ∧ t.mem = s.mem ∧ t.hostMem = s.hostMem ∧
        t.errRings = s.errRings ∧
        ∀ x, t.team? o.tid = some x →
          x.scrRead swz (m.at o.done) 16 = s.bytesAtLoc loc 16 ∧
          (∀ k, k < m.at o.done ∨ m.at o.done + 16 ≤ k → x.scrRead swz k 1 = tm.scrRead swz k 1) ∧
          (tm.wholeBlock b = true → x.mark b =
            if m.last o.done && s.ops.all (fun p => p.id == o.id || !p.busy.contains (o.tid, b)) then x.byteRule none b
            else Mark.general) ∧
          ∀ k, k ≠ b → x.mark k = tm.mark k)

/-- R170, R171 with R147, R367 and R378: the completion of transfers and reductions. The model's own: that a transfer takes a line
and an operation a chunk at a time in a free order (log entry 13), the split of a contribution into messages (16), that a reduction
to the host or one refused with another STAT ends with `remote` (30), the messages that poison a granule (12, 44), the wait for a
line in another's hands (92), a diverging target's answer (96), and that a contribution with a failed chunk is not sent (97). -/
def Obligations.TransfersCompleteOnTheirReplies : Prop :=
  ∀ (id : Nat) (o : Op) (put host : Bool) (loc rem : DWord) (n dev op type : Nat) (ws : List Word) (s : State),
    s.op? id = some o →
    let c := (s.context? o.ctx).getD default
    let xfer := o.kind = .xfer put loc rem n host dev
    let i := if put then Instr.nputCompletion id else .ngetCompletion id
    let ends (i : Instr) (reason : Nat) : Prop := ∃ t, exec i s = .next t ∧ EndedOp s t o reason
    let total := transferTotal rem n
    let line := transferLine rem n (nthChunk id total o.done)
    let far := rem + .ofNat 64 line.1
    let own := nthChunk id (n / 16) o.done
    let lines : Op := { o with got := o.got.filter fun y => pieceKey 0 ≤ y.idx }
    let reason := firstReason o.reason (lines.replies host)
    let o1 : Op := { o with reason := reason, got := o.got.filter fun y => y.idx < pieceKey 0 }
    let s1 := s.modOp id fun _ => o1
    let plain := s.poison = [] ∧ s.hostPoison = [] ∧ c.recMode ≠ 1 ∧ Frameless s ∧ Unstaged s c ∧ s.mem.wf = true
    let sends (i : Instr) (msgs : List XferMsg) (done reason : Nat) : Prop :=
      ∃ t, exec i s = .next t ∧ t.mem = s.mem ∧ t.outbox.map (·.data) = s.outbox.map (·.data) ++ msgs.map (·.2.2.1) ∧
        t.requests.length = s.requests.length + msgs.length ∧
        ∃ p, t.op? id = some p ∧ p.waits.length = msgs.length ∧ p.kind = o.kind ∧ p.done = done ∧ p.reason = reason
    (o.captured = true ∨ o.waits ≠ [] →
      ∀ i ∈ [Instr.nputCompletion id, .ngetCompletion id, .nredCompletion id, .nredRetry id], exec i s = .next s) ∧
    (o.captured = false → o.waits = [] → o.ring = none →
      (xfer → s.ownDevice host dev = true →
        (n / 16 ≤ o.done → ends i o.reason) ∧
        (plain → o.done < n / 16 → ∀ a b,
          ChunkAt s c .read ((if put then loc else rem) + .ofNat 64 (16 * own)) (.dev a) →
          ChunkAt s c .write ((if put then rem else loc) + .ofNat 64 (16 * own)) (.dev b) →
          ∃ t, exec i s = .next t ∧ t.mem.read b 16 = s.mem.read a 16 ∧ UntouchedBut s t [0] (fun _ => .dev b) 16 ∧
            ChunkDone s t o (n / 16))) ∧
      (xfer → s.ownDevice host dev = false →
        (put = true →
          (o.cut = true ∨ lines.failed host = true ∨ total ≤ o.done → ends i reason) ∧
          (o.cut = false → lines.failed host = false → o.done < total →
            (s.canSend c host dev = false → ends i (firstReason reason 5)) ∧
            (s.canSend c host dev = true → s1.taken (.op id 0) (farKey host dev far) true = true →
              sends i [] o.done reason) ∧
            (s.canSend c host dev = true → s1.taken (.op id 0) (farKey host dev far) true = false → c.recMode ≠ 1 →
              ∀ bs log, ((s1.opView o1).bytesRes (loc + .ofNat 64 line.1) line.2).run = .ok (bs, log) →
              sends i (if log.cut then [] else putMessages host far bs ++ spoilMessages host far bs) (o.done + 1)
                (firstReason reason (reasonOf bs))))) ∧
        (put = false →
          (total ≤ o.done → ends i o.reason) ∧
          (lines.got = [] → o.done < total →
            (o.cut = true ∨ s.canSend c host dev = false → ends i (firstReason o.reason 5)) ∧
            (o.cut = false → s.canSend c host dev = true →
              (s.taken (.op id 0) (farKey host dev far) false = true → exec i s = .next s) ∧
              (s.taken (.op id 0) (farKey host dev far) false = false →
                sends i ((getMessages host far line.2).map (·.2.2)) o.done o.reason))) ∧
          (o.done < total → lines.got ≠ [] → o.cut = false → (∀ y ∈ lines.got, y.stat = 0) →
            loc.toNat % 16 = 0 → rem.toNat % 16 = 0 → n % 16 = 0 → plain →
            ∀ (dst : Nat → Nat) (val : Nat → Byte),
            (∀ x ∈ (getMessages host far line.2).zipIdx, ∃ y, o.got.find? (·.idx == pieceKey x.2) = some y ∧
              (if host then (y.bytes.drop (far.toNat % 128)).take line.2 else y.bytes.take x.1.2.1) =
                (List.range x.1.2.1).map fun q => val (x.1.1 + q)) →
            (∀ j, j < line.2 / 16 → ChunkAt s c .write (loc + .ofNat 64 line.1 + .ofNat 64 (16 * j)) (.dev (dst j))) →
            (∀ i j, i < j → j < line.2 / 16 → dst i ≠ dst j) →
            ∃ t, exec (.ngetCompletion id) s = .next t ∧
              (∀ j, j < line.2 / 16 → t.mem.read (dst j) 16 = (List.range 16).map fun q => val (16 * j + q)) ∧
              UntouchedBut s t (List.range (line.2 / 16)) (fun j => .dev (dst j)) 16 ∧ ChunkDone s t o total))) ∧
      (o.kind = .nred op type loc rem n host dev ws →
        let chunk := nthChunk id (nredChunks n) o.done
        let k := Nat.min 4 (n - 4 * chunk)
        let part := o.done - nredChunks n
        let answer := o.got.find? (·.idx == pieceKey 0)
        (o.reason ≠ 0 → ends (.nredCompletion id) o.reason) ∧
        (o.reason = 0 → o.done < nredChunks n → ∀ bs log, c.recMode ≠ 1 →
          ((s.opView o).bytesRes (loc + .ofNat 64 (16 * chunk)) (4 * k)).run = .ok (bs, log) →
          ∃ t p, exec (.nredCompletion id) s = .next t ∧ t.mem = s.mem ∧ t.op? id = some p ∧ p.done = o.done + 1 ∧
            p.reason = reasonOf bs ∧ p.kind = .nred op type loc rem n host dev
              (putElems ws n (4 * chunk) (bytesWords (bs.map (·.val)) k))) ∧
        (o.reason = 0 → nredChunks n ≤ o.done →
          (∀ y, answer = some y →
            (y.stat = 0 → s.ownDevice host dev = true ∨ n ≤ 256 * (part + 1) → ends (.nredCompletion id) 0) ∧
            (y.stat = 0 → s.ownDevice host dev = false → 256 * (part + 1) < n → exec (.nredCompletion id) s =
              .next (s.modOp id fun o => { o with done := o.done + 1, got := [] })) ∧
            (y.stat = 1 → exec (.nredCompletion id) s = .next s) ∧
            (2 ≤ y.stat → ¬ (y.stat = 5 ∧ y.bytes.length = 8) →
              ends (.nredCompletion id) (if y.stat = 3 then 3 else 5)) ∧
            (y.stat = 5 → y.bytes.length = 8 → Frameless s →
              ∀ g, s.group? ⟨o.tid, o.slot⟩ = some g → g.ended = false → g.priv = false →
              ∃ t, exec (.nredCompletion id) s = .next t ∧ OpEnds s t o 5 ∧ t.group? ⟨o.tid, o.slot⟩ =
                some { g with trapDue := g.trapDue <|> some ⟨.replayDivergence, 0, .ofNat 64 (leNat y.bytes)⟩ })) ∧
          (answer = none → s.ownDevice host dev = true → ∃ t p, exec (.nredCompletion id) s = .next t ∧
            t.held = s.held ++ [⟨s.nextId, .peer s.job.index, o.ctx,
              .contribute s.job.index ⟨rem, 0, op, type, true, ws⟩ (some id), [], [], none, false⟩] ∧
            t.mem = s.mem ∧ t.op? id = some p ∧ { p with waits := [] } = o ∧ p.waits = [s.nextId]) ∧
          (answer = none → s.ownDevice host dev = false →
            (host = true ∨ s.canSend c false dev = false → ends (.nredCompletion id) 5) ∧
            (host = false → s.canSend c false dev = true →
              sends (.nredCompletion id) [(34, rem, predBytes (Op.part rem op type n ws part), [])] o.done 0))) ∧
        ((∃ y ∈ o.got, y.idx = pieceKey 0 ∧ y.stat = 1) → exec (.nredRetry id) s =
          .next (s.modOp id fun o => { o with done := nredChunks n, got := [] })) ∧
        ((∀ y ∈ o.got, y.idx = pieceKey 0 → y.stat ≠ 1) → exec (.nredRetry id) s = .next s)))

/-- R148: tag observation by a group that neither records nor replays. -/
def Obligations.TagsAreObserved : Prop :=
  ∀ (m : Bool) (d a : VReg) (j : BitVec 6) (k : DWord) (n : Word) (s : State) (r : GRef) (g : Group), Turn s r g → g.ons ≠ [] →
    Unlisted s r g →
    let t := s.teamOf r
    let lowest (v : Word) : Prop := (v = 0xFFFFFFFF ∧ ∀ i, i < 64 → k.getLsbD i = true → t.tg.getLsbD i = true) ∨
      (v.toNat < 64 ∧ k.getLsbD v.toNat = true ∧ t.tg.getLsbD v.toNat = false ∧
        ∀ i, i < v.toNat → k.getLsbD i = true → t.tg.getLsbD i = true)
    (0 < g.awaited → Waits (.waitany m d a) s r .marker ∧ Waits (.waitall m a) s r .marker) ∧
    (g.awaited = 0 → g.settle.reads2 a k → k.toNat < 2 ^ t.tagN →
      (k ≠ 0 → (∀ i, i < 64 → k.getLsbD i = true → t.tg.getLsbD i = true) → Waits (.waitany m d a) s r .tag) ∧
      (k = 0 ∨ (∃ i, i < 64 ∧ k.getLsbD i = true ∧ t.tg.getLsbD i = false) →
        ∃ g' v, lowest v ∧ Completes (.waitany m d a) m s r g g' ∧ Wrote g.settle g' g.on d (fun _ => v) 0) ∧
      (k &&& t.tg ≠ 0 → Waits (.waitall m a) s r .tag) ∧
      (k &&& t.tg = 0 → Completes (.waitall m a) m s r g g.settle.begun)) ∧
    (g.reads2 a k → k.toNat < 2 ^ t.tagN →
      (∃ v, lowest v ∧ Writes (.tagffr m d a) m s r g d 0 (fun _ => (v, 0))) ∧
      CompletesIn (.tagclr m a) m s (s.modTeam r.tid fun t =>
        { t with tagErr := t.tagErr &&& ~~~k, tagReason := t.tagReason.filter fun x => !k.getLsbD x.1 }) r g g.begun) ∧
    (g.reads2 a k → 2 ^ t.tagN ≤ k.toNat → g.priv = false →
      ∀ i ∈ [Instr.tagffr m d a, .tagclr m a], Traps i s r g .protection 4 (wordVal i)) ∧
    (g.awaited = 0 → g.settle.reads2 a k → 2 ^ t.tagN ≤ k.toNat → g.priv = false →
      ∀ i ∈ [Instr.waitany m d a, .waitall m a], Traps i s r g .protection 4 (wordVal i)) ∧
    (j.toNat = 0 → Writes (.taggt m d a j) m s r g d 0 (fun _ => (t.tg.extractLsb' 0 32, 0))) ∧
    (j.toNat = 1 → Writes (.taggt m d a j) m s r g d 0 (fun _ => (t.tg.extractLsb' 32 32, 0))) ∧
    (j.toNat = 2 → Writes (.taggt m d a j) m s r g d 0 (fun _ => (t.tagErr.extractLsb' 0 32, 0))) ∧
    (j.toNat = 3 → Writes (.taggt m d a j) m s r g d 0 (fun _ => (t.tagErr.extractLsb' 32 32, 0))) ∧
    (j.toNat = 4 → g.reads a n →
      (n.toNat < t.tagN → Writes (.taggt m d a j) m s r g d 0 (fun _ => (.ofNat 32 (assoc t.tagReason n.toNat 0), 0))) ∧
      (t.tagN ≤ n.toNat → g.priv = false → Traps (.taggt m d a j) s r g .protection 4 (wordVal (.taggt m d a j))))

/-- R153, R154: ring words of a group that neither records nor replays. -/
def Obligations.RingsPassSlots : Prop :=
  ∀ (m : Bool) (d a b : VReg) (n k : Word) (s : State) (r : GRef) (g : Group), Turn s r g → Unlisted s r g → g.reads a n →
    let t := s.teamOf r
    let x := t.rings.getD n.toNat default
    let gives (i : Instr) (t : State) (v : Word) : Prop := ∃ g', CompletesIn i m s t r g g' ∧ Wrote g g' g.active d (fun _ => v) 0
    let due (i : Instr) (t : State) (on : Nat → Bool) (v : Word) : Prop :=
      ∃ g', CompletesIn i m s t r g g' ∧ ReturnsAll g g' on [(d, fun _ => v)] 0
    (n.toNat < t.rings.length →
      (g.converged = true → g.reads b k →
        (k = 0 → x.at x.hd = .empty →
          gives (.rput m d a b) (s.modTeam r.tid fun t => t.modRing n.toNat fun x =>
            { x.set x.hd (.full x.hd) with hd := x.hd + 1 }) x.hd) ∧
        (k = 0 → x.at x.hd ≠ .empty → Waits (.rput m d a b) s r .ring) ∧
        (k = 1 → x.lowestTaken = none → gives (.rput m d a b) s 0xFFFFFFFF) ∧
        (∀ q, k = 1 → x.lowestTaken = some q →
          gives (.rput m d a b) (s.modTeam r.tid fun t => t.modRing n.toNat fun x => x.set q .empty) q)) ∧
      (g.converged = true → g.pend < 16 →
        (x.fullAtTail = true →
          due (.rtake m d a) (s.modTeam r.tid fun t => t.modRing n.toNat fun x =>
            { x.set x.tl (.taken x.tl) with tl := x.tl + 1 }) g.active (x.address x.tl)) ∧
        (x.fullAtTail = false → Waits (.rtake m d a) s r .ring)) ∧
      (g.pend < 16 → g.ons ≠ [] → g.reads b k →
        (k = 0 → x.at x.hd = .empty → due (.rpeek m d a b) s g.on (x.address x.hd)) ∧
        (k = 1 → x.fullAtTail = true → due (.rpeek m d a b) s g.on (x.address x.tl)) ∧
        (k = 0 → x.at x.hd ≠ .empty → Waits (.rpeek m d a b) s r .ring) ∧
        (k = 1 → x.fullAtTail = false → Waits (.rpeek m d a b) s r .ring) ∧
        (k = 2 → due (.rpeek m d a b) s g.on (.ofNat 32 ((x.slots.filter (· == .empty)).length * 65536 +
          (x.slots.filter fun y => match y with | .full _ => true | _ => false).length))))) ∧
    (t.rings.length ≤ n.toNat → g.priv = false → g.reads b k → g.ons ≠ [] → g.pend < 16 →
      (g.converged = true → Traps (.rput m d a b) s r g .protection 15 (wordVal (.rput m d a b)) ∧
        Traps (.rtake m d a) s r g .protection 15 (wordVal (.rtake m d a))) ∧
      Traps (.rpeek m d a b) s r g .protection 15 (wordVal (.rpeek m d a b)))

/-- R157, R158, R99: barriers of a group that neither records nor replays, and budget moves. -/
def Obligations.BarriersAndBudgetMoves : Prop :=
  (∀ (m : Bool) (d a b : VReg) (k c : Word) (s : State) (r : GRef) (g : Group), Turn s r g → Unlisted s r g →
    let t := s.teamOf r
    let x := t.bars.getD k.toNat default
    let n := k.toNat
    let bar0 := t.bars.getD 0 default
    let stands (convoy : Bool) (n : Nat) (y : Arrival) : Bool := y.convoy == convoy && y.bar == n && y.pc == g.pc
    let waits (i : Instr) (u : State) (y : Arrival) : Prop := exec i s = .next u ∧ ∃ g', u.group? r = some g' ∧
      g'.wait = .barrier ∧ y ∈ g'.arrived ∧ g'.arrived.length = g.arrived.length + 1 ∧ g'.pc = g.pc
    let passes (i : Instr) (convoy : Bool) (n : Nat) (u : State) : Prop := exec i s = .next u ∧ ∃ g', u.group? r = some g' ∧
      g'.wait = .none ∧ (g'.arrived.any (stands convoy n)) = false ∧ g'.pc = g.pc + 1
    (g.converged = true → g.awaited = 0 → g.settle.reads a k → g.settle.reads b c →
      (n < t.bars.length → n < 8 → n ≠ 0 → c ≠ 0 → c.toNat ≤ 64 → x.expect = none ∨ x.expect = some c.toNat →
        g.arrived.any (stands false n) = false →
        (x.arrivals + 1 < c.toNat → ∃ u, waits (.bar m a b) u ⟨false, n, x.gen, g.pc, none⟩ ∧
          ((u.teamOf r).bars.getD n default).gen = x.gen ∧ ((u.teamOf r).bars.getD n default).arrivals = x.arrivals + 1) ∧
        (c.toNat ≤ x.arrivals + 1 → ∃ u, passes (.bar m a b) false n u ∧
          (u.teamOf r).bars.getD n default = ⟨x.gen + 1, 0, none, []⟩)) ∧
      (n < t.bars.length → n < 8 → c = 0 → x.expect = none ∨ x.expect = some 0 → g.arrived.any (stands false n) = false →
        ((∃ q, q ∈ t.alive ∧ q ≠ r.slot ∧ q ∉ x.who) → ∃ u, waits (.bar m a b) u ⟨false, n, x.gen, g.pc, none⟩ ∧
          ((u.teamOf r).bars.getD n default).gen = x.gen ∧ ((u.teamOf r).bars.getD n default).arrivals = x.arrivals + 1) ∧
        ((∀ q ∈ t.alive, q = r.slot ∨ q ∈ x.who) → n ≠ 0 ∨ (t.phase = .running ∧ t.moves = []) →
          ∃ u, passes (.bar m a b) false n u ∧ (u.teamOf r).bars.getD n default = ⟨x.gen + 1, 0, none, []⟩)) ∧
      (∀ y, g.arrived.find? (stands false n) = some y →
        (y.gen < x.gen → y.status = none → Completes (.bar m a b) m s r g (g.settle.begun.leaveBar y)) ∧
        (x.gen ≤ y.gen → Waits (.bar m a b) s r .barrier)) ∧
      (∀ y, g.arrived.find? (stands false 0) = some y →
        (y.gen < bar0.gen → y.status = none → Completes (.rqmv m d a b) m s r g (g.settle.begun.leaveBar y)) ∧
        (∀ st, y.gen < bar0.gen → y.status = some st → ∃ g', Completes (.rqmv m d a b) m s r g g' ∧
          Wrote (g.settle.leaveBar y) g' g.active d (fun _ => st) 0) ∧
        (bar0.gen ≤ y.gen → Waits (.rqmv m d a b) s r .barrier)) ∧
      (g.arrived.any (stands false 0) = false → t.bars ≠ [] → bar0.expect = none ∨ bar0.expect = some 0 →
        ((∃ q, q ∈ t.alive ∧ q ≠ r.slot ∧ q ∉ bar0.who) → ∃ u, waits (.rqmv m d a b) u ⟨false, 0, bar0.gen, g.pc, none⟩ ∧
          (u.teamOf r).moves = t.moves ++ [⟨r.slot, g.pc, d, k, c⟩]) ∧
        ((∀ q ∈ t.alive, q = r.slot ∨ q ∈ bar0.who) → t.phase = .running → t.moves = [] →
          ∃ u, passes (.rqmv m d a b) false 0 u ∧ (u.teamOf r).bars.getD 0 default = ⟨bar0.gen + 1, 0, none, []⟩ ∧
            (u.teamOf r).moves = [] ∧
            let done := applyMove t.groups ⟨r.slot, g.pc, d, k, c⟩
            (∀ q, ((u.teamOf r).groups.getD q default).budget = (done.1.getD q default).budget) ∧
            ∀ g' f, u.group? r = some g' → g.active f = true → f < 16 → g'.rd d f = done.2)) ∧
      (∀ v id me, t.convoy = some (id, me) → s.convoyOf t = some v → n < 4 → n < v.bars.length →
        let x := v.bars.getD n default
        (∀ y, g.arrived.find? (stands true n) = some y →
          (y.gen < x.gen → y.status = none → Completes (.barv m a) m s r g (g.settle.begun.leaveBar y)) ∧
          (x.gen ≤ y.gen → Waits (.barv m a) s r .barrier)) ∧
        (g.arrived.any (stands true n) = false → x.expect = none ∨ x.expect = some 0 →
          ((∃ q ∈ s.convoyAlive v, q ≠ 64 * me + r.slot ∧ q ∉ x.who) → ∃ u, waits (.barv m a) u ⟨true, n, x.gen, g.pc, none⟩ ∧
            ∀ w, u.convoyOf (u.teamOf r) = some w → (w.bars.getD n default).gen = x.gen ∧
              (w.bars.getD n default).arrivals = x.arrivals + 1) ∧
          ((∀ q ∈ s.convoyAlive v, q = 64 * me + r.slot ∨ q ∈ x.who) → ∃ u, passes (.barv m a) true n u ∧
            ∀ w, u.convoyOf (u.teamOf r) = some w → w.bars.getD n default = ⟨x.gen + 1, 0, none, []⟩))) ∧
      (g.priv = false → g.arrived.any (stands false n) = false →
        8 ≤ n ∨ 64 < c.toNat ∨ (n = 0 ∧ c ≠ 0) ∨ (∃ e, x.expect = some e ∧ e ≠ c.toNat) →
        Traps (.bar m a b) s r g .protection 14 (wordVal (.bar m a b))) ∧
      (g.priv = false → (4 ≤ n → Traps (.barv m a) s r g .protection 14 (wordVal (.barv m a))) ∧
        (n < 4 → s.convoyOf t = none → Traps (.barv m a) s r g .protection 17 (wordVal (.barv m a))))) ∧
    (g.ons ≠ [] → g.ended = false → g.reads a k → g.reads b c →
      (n < t.bars.length → n < 8 → n ≠ 0 ∨ c = 0 → c.toNat ≤ 64 → x.expect = none ∨ x.expect = some c.toNat →
        n ≠ 0 ∨ (t.phase = .running ∧ t.moves = []) →
        let complete : Bool := if c = 0 then t.alive.all (fun q => q == r.slot || x.who.contains q) else c.toNat ≤ x.arrivals + 1
        ∃ u g', exec (.arrv m a b) s = .next u ∧ u.group? r = some g' ∧
          g'.wait = (if m && g.awaited ≠ 0 then .marker else .none) ∧
          g'.pc = g.pc + 1 ∧ g'.arrived.length = g.arrived.length ∧
          (complete = true → (u.teamOf r).bars.getD n default = ⟨x.gen + 1, 0, none, []⟩) ∧
          (complete = false → ((u.teamOf r).bars.getD n default).gen = x.gen ∧
            ((u.teamOf r).bars.getD n default).arrivals = x.arrivals + 1)) ∧
      (g.priv = false → 8 ≤ n ∨ 64 < c.toNat ∨ (n = 0 ∧ c ≠ 0) ∨ (∃ e, x.expect = some e ∧ e ≠ c.toNat) →
        Traps (.arrv m a b) s r g .protection 14 (wordVal (.arrv m a b))))) ∧
  (∀ (gs : List Group) (mv : Move), mv.va.extractLsb' 6 2 ≠ 0 ∨ mv.va.extractLsb' 14 18 ≠ 0 ∨ mv.vb.toNat % 16 ≠ 0 ∨
    gs.length ≤ (mv.va.extractLsb' 0 6).toNat ∨ gs.length ≤ (mv.va.extractLsb' 8 6).toNat → applyMove gs mv = (gs, 3)) ∧
  (∀ (gs : List Group) (src dst n : Nat) (mv : Move), src < gs.length → dst < gs.length → src < 64 → dst < 64 → src ≠ dst →
    mv.va = .ofNat 32 (src + 256 * dst) → mv.vb = .ofNat 32 n → n < 2 ^ 32 → n % 16 = 0 →
    let x := gs.getD src default
    let y := gs.getD dst default
    (64 + n ≤ x.budget → x.budget ≤ 1024 + n → y.budget + n ≤ 1024 → 64 ≤ y.budget + n → x.wordsInUse + n ≤ x.budget →
      ∃ hs, applyMove gs mv = (hs, 0) ∧ hs.length = gs.length ∧ (hs.getD src default).budget = x.budget - n ∧
        (hs.getD dst default).budget = y.budget + n ∧
        (∀ k, k ≠ src → k ≠ dst → hs.getD k default = gs.getD k default) ∧
        ∀ k, { hs.getD k default with budget := (gs.getD k default).budget } = gs.getD k default) ∧
    (x.budget < 64 + n ∨ 1024 < y.budget + n → applyMove gs mv = (gs, 2)) ∧
    (64 + n ≤ x.budget → x.budget ≤ 1024 + n → y.budget + n ≤ 1024 → 64 ≤ y.budget + n → x.budget < x.wordsInUse + n →
      applyMove gs mv = (gs, 1)))

/-- R190 to R192 with R25 and R183: the accumulator instructions; `astAccs` gives the places of R190 and R192. -/
def Obligations.AccumulatorCells : Prop :=
  ∀ (m : Bool) (d a b : VReg) (da va w : Word) (x y : Tile) (tid : Nat) (s : State) (r : GRef) (g : Group), Turn s r g →
    g.role = .matrix → g.someActs = true → g.reads d da → TileAt s r da x → ShapeOf w x → g.reads b w →
    let t := s.teamOf r
    let pitch (n : Nat) : Nat := (n + 15) / 16 * 16
    let writes (i : Instr) (fl : Word) (val : Nat → Nat → Word) : Prop :=
      ∃ u, CompletesIn i m s u r g { g.begun with flags := g.flags ||| fl } ∧ CellsWrote s u r x val
    (w.getLsbD 31 = false →
      (EngineIdle s r → writes (.aclr m d b) 0 fun _ _ => 0) ∧
      (¬ EngineIdle s r → Waits (.aclr m d b) s r .engine) ∧
      (g.reads a va → TileAt s r va y → y.rows = x.rows → y.cols = x.cols →
        (EngineIdle s r → writes (.amov m d a b) 0 fun i j => t.cell (y.row + i) (y.col + j)) ∧
        (¬ EngineIdle s r → Waits (.amov m d a b) s r .engine)) ∧
      (g.reads a va → EngineIdle s r → Quiet s r g → g.swz ≠ 3 →
        InRange s r 16 ((x.rows - 1) * pitch (4 * x.cols) + 4 * x.cols) va tid →
        (∀ i, i < x.rows → InWindow s r g.swz 16 (4 * x.cols) (va + .ofNat 32 (i * pitch (4 * x.cols))) tid) →
        writes (.ald m d a b) 0 fun i j => .ofNat 32 (bytesAt
          (s.scrBytesAt tid g.swz (scrOff (va + .ofNat 32 (i * pitch (4 * x.cols)))) (4 * x.cols)) (4 * j) 4)) ∧
      (g.reads a va → EngineIdle s r → Quiet s r g → g.swz ≠ 3 → InWindow s r g.swz 4 (4 * x.rows) va tid →
        let factor (i : Nat) : Word := .ofNat 32 (bytesAt (s.scrBytesAt tid g.swz (scrOff va) (4 * x.rows)) (4 * i) 4)
        let mul (i j : Nat) : Word × Word :=
          fpMul 8 0 false (fpOf 8 false (t.cell (x.row + i) (x.col + j))) (fpOf 8 false (factor i))
        ∃ fl, writes (.adexp m d a b) fl (fun i j => (mul i j).1) ∧
          ∀ k, fl.getLsbD k = true ↔ ∃ i j, i < x.rows ∧ j < x.cols ∧ (mul i j).2.getLsbD k = true)) ∧
    (let tl := w.getLsbD 31
      let bits := elemContainer g.type (g.fmt0 g.type)
      let conv (c : Word) : Word × Word := if g.type = 8 then (c, 0)
        else convert (if isIntType g.type then 2 else 8) g.type 0 (g.fmt0 g.type) g.rnd g.sat g.ftz c
      let rs := (t.tileWords x).map conv
      let xs := astAccs bits tl va x (rs.map fun y => storeCode g.type y.1)
      let bytes := if tl then 64 * classK bits * bits / 8
        else (x.rows - 1) * pitch ((x.cols * bits + 7) / 8) + (x.cols * bits + 7) / 8
      g.reads a va → EngineIdle s r → Quiet s r g → g.swz ≠ 3 → isReservedType g.type = false →
      (isIntType g.type = true ∨ g.type = 8 ∨ g.rnd < 5) → g.badFmt0 g.type = false → g.needH0 [g.type] = .ok () →
      (tl = true → operandType g.type = true ∧ x.rows = 64 ∧ x.cols = classK bits) →
      InRange s r (if tl then 2048 else 16) bytes va tid →
      (∀ z ∈ xs, InWindow s r g.swz 1 z.n (z.addr.setWidth 32) tid) →
      ∃ u fl, CompletesIn (.ast m d a b) m s u r g { g.begun with flags := g.flags ||| fl } ∧
        (∀ k, fl.getLsbD k = true ↔ ∃ z ∈ rs, z.2.getLsbD k = true) ∧
        SameButTimes u (xs.foldl (fun s z =>
          s.storedAt tid g.swz (some (g.type, if isNarrowType g.type then g.fmt0 g.type else 0)) (scrOff (z.addr.setWidth 32))
            ((z.upd []).getD [])) s))

/-- R176 to R183 with R22: format blocks, gangs, `mma` and its completion. -/
def Obligations.MatrixMultiply : Prop :=
  (∀ (m : Bool) (d a b : VReg) (acc aA aF bA bF : Word) (xa xb : FmtBlock) (t1 t2 t3 t4 : Nat) (s : State) (r : GRef)
      (g : Group), Turn s r g → g.role = .matrix → g.converged = true → Quiet s r g → g.swz ≠ 3 →
    g.reads d acc → g.reads a aA → g.reads (nextReg a) aF → g.reads b bA → g.reads (nextReg b) bF →
    let x : Tile := ⟨accRow acc, accCol acc, 64, 64⟩
    TileAt s r acc x → OperandAt s r g.swz aA aF xa t1 t2 → OperandAt s r g.swz bA bF xb t3 t4 → xa.bits = xb.bits →
    (xa.bits = 8 → isIntType xa.elem = isIntType xb.elem) →
    let t := s.teamOf r
    let operand (x : FmtBlock) (va : Word) (ta ts : Nat) : Operand :=
      operandOf x (s.scrBytesAt ta g.swz (scrOff va) x.operandBytes)
        (if x.blk = 0 then [] else s.scrBytesAt ts g.swz (scrOff x.scale) x.scaleBytes)
    let p := product g.sat (t.tileWords x) (operand xa aA t1 t2) (operand xb bA t3 t4)
    (gangN g.gang < 2 →
      (EngineIdle s r → ∃ u, CompletesIn (.mma m d a b) m s u r g g.begun ∧
        u.matrix = s.matrix ++ [⟨t.core, [(r, p.2, x.cells.zip p.1)]⟩] ∧ SameButTimes { u with matrix := s.matrix } s) ∧
      (¬ EngineIdle s r → Waits (.mma m d a b) s r .engine)) ∧
    (2 ≤ gangN g.gang → g.latch = none →
      (∀ k ∈ gangMembers g.gang, ∃ q, t.groups[k]? = some q ∧ q.ended = false) →
      (∃ k ∈ gangMembers g.gang, k ≠ r.slot ∧ ∃ q, t.groups[k]? = some q ∧ q.latch = none) →
      exec (.mma m d a b) s =
        .next ((s.modGroup r fun x => { x with latch := some ⟨acc, aA, aF, bA, bF, g.swz, m, false⟩ }).waitAt r .latch))) ∧
  (∀ (m : Bool) (a : VReg) (x : DWord) (s : State) (r : GRef) (g : Group), Turn s r g → g.role = .matrix → g.converged = true →
    g.reads2 a x →
    let ok (ks : List Nat) : Prop := 2 ≤ ks.length ∧ ks.length ≤ 6 ∧ ks.Nodup ∧ r.slot ∈ ks ∧
      ∀ k ∈ ks, k < 64 ∧ ∃ q, (s.teamOf r).groups[k]? = some q ∧ q.role = .matrix
    let word (ks : List Nat) (rest : Nat) : DWord :=
      .ofNat 64 (ks.length + 4096 * ks.foldr (fun k n => k + 64 * n) rest)
    let lists (ks : List Nat) : Prop := ok ks ∧ ∃ rest, rest < 2 ^ (36 - 6 * ks.length) ∧ x = word ks rest
    (x = 0 → Completes (.gang m a) m s r g { g.begun with gang := 0 }) ∧
    (∀ ks, lists ks → Completes (.gang m a) m s r g { g.begun with gang := word ks 0 }) ∧
    (g.priv = false → x ≠ 0 → (∀ ks, ¬ lists ks) → Traps (.gang m a) s r g .protection 18 (wordVal (.gang m a)))) ∧
  (∀ (core : Nat) (r : GRef) (fl : Word) (cells : List (Nat × Word)) (s : State),
    (s.matrix.find? (·.core == core) = none → exec (.mmaCompletion core) s = .next s) ∧
    (s.matrix.find? (·.core == core) = some ⟨core, [(r, fl, cells)]⟩ → (cells.map (·.1)).Nodup →
      Frameless s →
      ∃ u, exec (.mmaCompletion core) s = .next u ∧ u.matrix = s.matrix.filter (·.core != core) ∧ u.mem = s.mem ∧
        ∀ x y, s.team? r.tid = some x → u.team? r.tid = some y → y.scr = x.scr ∧
          (∀ i, (y.acc.lookup i).getD 0 = (cells.lookup i).getD ((x.acc.lookup i).getD 0)) ∧
          ∀ g, s.group? r = some g → u.group? r = some { g with flags := g.flags ||| fl })) ∧
  (∀ (m : Bool) (d a : VReg) (va : Word) (tid : Nat) (s : State) (r : GRef) (g : Group), Turn s r g → g.role ≠ .copy →
    g.someActs = true → g.swz ≠ 3 → g.reads a va → Quiet s r g →
    let gives (c : Word) : Prop := ∃ u g', CompletesIn (.fmtb m d a) m s u r g g' ∧ SameButTimes u s ∧
      Wrote g g' g.on d (fun _ => c) 0
    (scrReserved va = true ∨ s.scrMisuse (s.teamOf r) va = true ∨ (s.teamOf r).scrBytes < scrOff va + 32 → gives 5) ∧
    (InWindow s r g.swz 1 32 va tid →
      let x := fmtBlockOf (s.scrBytesAt tid g.swz (scrOff va) 32)
      let narrow := isNarrowType x.elem
      let two := x.blk = 3 ∨ (x.blk ≠ 0 ∧ (narrow = false ∨ s.scrBad (s.teamOf r) x.scale x.scaleBytes = true))
      (operandType x.elem = false → gives 1) ∧
      (operandType x.elem = true →
        (two → gives 2) ∧
        (¬ two → narrow = true → (nfmtOf x.fmt).valid = false → gives 3) ∧
        (¬ two → (narrow = true → (nfmtOf x.fmt).valid = true) →
          (x.fid &&& 0xFFFFFCF0 ≠ 0 ∨ x.reserved ≠ 0 → gives 4) ∧
          (x.fid &&& 0xFFFFFCF0 = 0 → x.reserved = 0 → scrOff va % 16 ≠ 0 → gives 5) ∧
          (x.fid &&& 0xFFFFFCF0 = 0 → x.reserved = 0 → scrOff va % 16 = 0 → gives 0)))))

/-- R193, R194: drains in a context that neither records nor replays. -/
def Obligations.DrainsAddCells : Prop :=
  (∀ (m : Bool) (d a b : VReg) (da sa w cw : Word) (x y : Tile) (s : State) (r : GRef) (g : Group), Turn s r g →
    g.role = .matrix → g.someActs = true → g.reads d da → g.reads a sa → g.reads b w → g.reads (nextReg b) cw →
    g.type = 8 ∨ g.type = 2 → TileAt s r sa y → ShapeOf w x → ShapeOf w y → w.getLsbD 31 = false →
    EngineIdle s r →
    let t := s.teamOf r
    let gen := match s.convoyOf t with | some v => (v.bars.getD 0 default).gen | none => 0
    let me := match t.convoy with | some (_, i) => i | none => 0
    let k : OpKind := .adrn da x.rows x.cols (t.tileWords y) (g.type == 2) g.sat gen me
    Accepts s r cw false false k →
      (TileAt s r da x → ∃ u, CompletesIn (.adrn m d a b) m s u r g g.begun ∧ Started s u r cw k) ∧
      (∀ v, s.convoyOf t = some v → accReserved da = false → da.getLsbD 28 = true →
        accRow da + x.rows ≤ t.accRows ∧ accCol da + x.cols ≤ 256 → (da.extractLsb' 29 3).toNat < v.members →
        (da.extractLsb' 29 3).toNat ∉ v.ended → (da.extractLsb' 29 3).toNat ∉ v.started →
        Waits (.adrn m d a b) s r .member)) ∧
  (∀ (id : Nat) (o : Op) (dst : Word) (rows cols gen me : Nat) (cells : List Word) (int sat : Bool) (s : State),
    s.op? id = some o → o.kind = .adrn dst rows cols cells int sat gen me → dst.getLsbD 28 = false →
    let r : GRef := ⟨o.tid, o.slot⟩
    let t := s.teamOf r
    let x : Tile := ⟨accRow dst, accCol dst, rows, cols⟩
    t.tid = o.tid → ((s.context? o.ctx).getD default).recMode = 0 →
    let ready := o.captured = false ∧ (∀ z ∈ s.matrix, z.core ≠ t.core) ∧ s.drainBefore o = false ∧ s.lowerArrived o = true
    (¬ ready → exec (.adrnDrainApply id) s = .next s) ∧
    (ready → Frameless s → x.col + x.cols ≤ 256 → 0 < x.cols → cells.length = x.rows * x.cols →
      ∃ u, exec (.adrnDrainApply id) s = .next u ∧ u.ops = s.ops.filter (·.id != id) ∧ u.mem = s.mem ∧
        ∀ z, u.team? o.tid = some z → z.scr = t.scr ∧ ∀ i j, j < 256 → z.cell i j =
          if x.row ≤ i ∧ i < x.row + x.rows ∧ x.col ≤ j ∧ j < x.col + x.cols then
            let old := t.cell i j
            let add := cells.getD ((i - x.row) * x.cols + (j - x.col)) 0
            if int = false then (fpAdd 8 0 false (fpOf 8 false old) (fpOf 8 false add)).1
            else if sat = false then old + add else (intResult 2 true (old.toInt + add.toInt)).1
          else t.cell i j))

/-- R188, R189 with R185 and R186: reading marks and filling tiles. -/
def Obligations.TileDirectory : Prop :=
  ∀ (m : Bool) (d b c : VReg) (h : HReg) (n count pat : Word) (s : State) (r : GRef) (g : Group), Turn s r g →
    g.role ≠ .copy → g.someActs = true →
    let x := handleOf (g.hreg h)
    let t := s.teamOf r
    let gives (lo hi : Word) : Prop := ∃ u g', CompletesIn (.tdq m d h b) m s u r g g' ∧ SameButTimes u s ∧
      WroteAll g g' g.on [(d, fun _ => lo), (nextReg d, fun _ => hi)] 0
    x.check = 0 →
    (g.reads b n → x.scr = true → x.dir = false → x.base.toNat % 2048 = 0 → x.base.toNat + 2048 * n.toNat < t.scrBytes →
      let k := t.mark (x.base.toNat / 2048 + n.toNat)
      gives (.ofNat 32 (k.state + 4 * k.nonfin.toNat + 16 * k.type + 256 * k.swz + 0x8000)) k.const) ∧
    (∀ l : Leaf, g.reads b n → x.scr = false → x.dir = true → 2048 * n.toNat < x.span →
      let va := x.base + .ofNat 64 (2048 * n.toNat)
      canonical va = true → s.translate (s.ctxOf t) va .read = .ok l → s.frozen (s.ctxOf t).num (l.page va) = false →
      (l.dira = false → gives 0 0) ∧
      (∀ a, l.dira = true → l.home va = .here (.dev a) →
        let j := s.dirEntry l.dtype a
        if l.dtype = x.elem ∧ isNarrowType l.dtype = false then
          gives (.ofNat 32 (j.state + 4 * j.nonfin.toNat + 16 * l.dtype + 256 * 3 + 0x8000)) (.ofNat 32 j.const)
        else gives (.ofNat 32 (4 * j.nonfin.toNat + 16 * l.dtype + 256 * 3 + 0x8000)) 0)) ∧
    (g.reads b n → g.reads (nextReg b) count → g.reads c pat →
      (g.priv = false → (x.scr = true → x.dir = false ∧ x.base.toNat % 2048 = 0) → (x.scr = false → x.dir = true) →
        count.toNat = 0 ∨ 256 < count.toNat → Traps (.tdset m h b c) s r g .protection 14 (wordVal (.tdset m h b c))) ∧
      (1 ≤ count.toNat → count.toNat ≤ 256 → Quiet s r g →
        let bs := tileBytes x pat
        (x.scr = true → x.dir = false → x.base.toNat % 2048 = 0 → t.scr.wf = true → t.scrPoison = [] →
          x.base.toNat + 2048 * (n.toNat + count.toNat) ≤ t.scrBytes → t.scrBytes ≤ 2 ^ 19 →
          ∃ u, CompletesIn (.tdset m h b c) m s u r g g.begun ∧ u.mem = s.mem ∧ u.hostMem = s.hostMem ∧
            (∀ k, k < count.toNat → (u.teamOf r).scr.read (x.base.toNat + 2048 * (n.toNat + k)) 2048 = bs ∧
              ∀ block, block = x.base.toNat / 2048 + n.toNat + k → (u.teamOf r).mark block =
                  if s.ops.any (·.busy.contains (r.tid, block)) then Mark.general else filledMark x bs) ∧
            ∀ y, (y < x.base.toNat + 2048 * n.toNat ∨ x.base.toNat + 2048 * (n.toNat + count.toNat) ≤ y) →
              (u.teamOf r).scr.get y = t.scr.get y) ∧
        (∀ loc : Nat → Loc, x.scr = false → x.dir = true → 2048 * (n.toNat + count.toNat - 1) < x.span → Unarmed s r →
          g.fwdOpen = [] → (∀ k, k < 16 * count.toNat →
            Reaches s r .write 1 (x.base + .ofNat 64 (2048 * n.toNat + 128 * k)) (loc k) ∧ s.poisonedAt (loc k) 128 = false ∧
            s.inUse (loc k) 128 = false) →
          ∃ u, CompletesIn (.tdset m h b c) m s u r g g.begun ∧
            SameButTimes u ((List.range (16 * count.toNat)).foldl
              (fun s k => s.putBytes (loc k) ((bs.drop (k % 16 * 128)).take 128)) s) ∧
            UntouchedBut s u (List.range (16 * count.toNat)) loc 128)))

/-- R167, R168, R200: reads of level-of-detail resources by a group that neither records nor replays. -/
def Obligations.LevelReads : Prop :=
  ∀ (m : Bool) (d a : VReg) (b : BReg) (s : State) (r : GRef) (g : Group), Turn s r g → g.role = .vector → g.pend < 16 →
    Unlisted s r g → g.fwdOpen = [] → a.val % 4 = 0 → g.ons ≠ [] →
    let v := s.viewOf r g
    let xyz (f : Nat) : List Nat := (List.range 3).map fun k => (g.rd (regAt a k) f).toNat
    let fourth (f : Nat) : Word := g.rd (regAt a 3) f
    -- the level search of one item from level k: the level found and its status
    let finds (x : Resource) (k : Nat) (vox : List Nat) (fd : Nat → Found) : Prop :=
      ∀ j, k ≤ j → j ≤ x.coarsest → (v.find x j (x.item j (coarser vox j))).Gives (fd j)
    let found (x : Resource) (k : Nat) (fd : Nat → Found) (j st : Nat) : Prop :=
      k ≤ j ∧ j ≤ x.coarsest + 1 ∧ (∀ i, k ≤ i → i < j → fd i ≠ .ok) ∧ (j ≤ x.coarsest → fd j = .ok) ∧
      (x.coarsest < j → st = 3) ∧ (j ≤ x.coarsest → j = k → st = 0) ∧
      (j ≤ x.coarsest → j ≠ k → (∃ i, k ≤ i ∧ i < j ∧ fd i = .poisoned) → st = 2) ∧
      (j ≤ x.coarsest → j ≠ k → (∀ i, k ≤ i → i < j → fd i ≠ .poisoned) → st = 1)
    (∀ (x : Resource) (fd : Nat → Nat → Found) (val : Nat → Nat → Word), g.rank d = 2 → g.rank (nextReg d) = 2 →
      (v.resource (g.breg b)).Gives (some x) →
      let out (f : Nat) : Prop := x.coarsest < (fourth f).toNat ∨ ∃ k, k < 3 ∧ x.ext.getD k 0 ≤ (xyz f).getD k 0
      x.ext.length = 3 →
      (∀ f ∈ g.ons, ¬ out f → finds x (fourth f).toNat (xyz f) (fd f) ∧
        ∀ j, j ≤ x.coarsest → fd f j = .ok → (v.voxelWord x j (xyz f)).Gives (val f j)) →
      ∃ (lv st : Nat → Nat) (s1 s2 : State) (g1 g2 : Group), SameButTimes s1 s ∧ SameButTimes s2 s ∧
        (∀ f ∈ g.ons, ¬ out f → found x (fourth f).toNat (fd f) (lv f) (st f)) ∧
        (
          let status (f : Nat) : Nat := if x.coarsest < (fourth f).toNat ∨ (x.ext.getD 0 0 ≤ (xyz f).getD 0 0 ∨
              x.ext.getD 1 0 ≤ (xyz f).getD 1 0 ∨ x.ext.getD 2 0 ≤ (xyz f).getD 2 0) then 4 else st f + 256 * lv f
          CompletesIn (.lodq m d a b) m s s1 r g g1 ∧
          ReturnsAll g g1 g.on [(d, fun _ => 0), (nextReg d, fun f => .ofNat 32 (status f))] 0 ∧
          CompletesIn (.lodld m d a b) m s (s2.postWants (s.ctxOf (s.teamOf r)).num (g.ons.flatMap fun f =>
            let k := (fourth f).toNat
            if lv f = k ∨ status f = 4 then []
            else [⟨x.va, (x.item k (coarser (xyz f) k)).page, k, fd f k == .poisoned⟩])) r g g2 ∧
          ReturnsAll g g2 g.on
            [(d, fun f => if status f % 256 = 3 ∨ status f = 4 then 0 else val f (lv f)), (nextReg d, fun f => .ofNat 32 (status f))] 0)) ∧
    ((v.resource (g.breg b)).Gives none → g.priv = false → g.rank d = 2 → g.rank (nextReg d) = 2 →
      Traps (.lodld m d a b) s r g .protection 14 (wordVal (.lodld m d a b)) ∧
      Traps (.lodq m d a b) s r g .protection 14 (wordVal (.lodq m d a b))) ∧
    ((g.breg b).toNat % 64 ≠ 0 → g.priv = false → g.rank d = 2 → g.rank (nextReg d) = 2 →
      Traps (.lodld m d a b) s r g .protection 14 (g.breg b) ∧ Traps (.lodq m d a b) s r g .protection 14 (g.breg b)) ∧
    (∀ (e : Nat → DWord) (x : Nat → Resource) (q : Nat → Option (List Dyad)) (fd : Nat → Nat → Found)
        (bytes : Nat → Nat → List Byte), d.val % 8 = 0 → (∀ k, k < 6 → g.rank (regAt d k) = 2) →
      (∀ f ∈ g.ons, fourth f &&& 0xFFFFF8E0 = 0 ∧
        (v.read (g.breg b + .ofNat 64 (8 * ((fourth f).extractLsb' 8 3).toNat)) 8).Gives (natLe 8 (e f).toNat) ∧
        (e f ≠ 0 → (v.resource (e f)).Gives (some (x f)) ∧ (x f).pyramid = true ∧
          (x f).position ((xyz f).map (.ofNat 32 ·)) = q f ∧
          ∀ p, q f = some p → ((fourth f).extractLsb' 0 5).toNat ≤ (x f).coarsest →
            finds (x f) ((fourth f).extractLsb' 0 5).toNat (voxelOf p) (fd f) ∧
            ∀ j, fd f j = .ok → (v.read ((x f).item j (coarser (voxelOf p) j)).va 2048).Gives (bytes f j))) →
      let k (f : Nat) : Nat := ((fourth f).extractLsb' 0 5).toNat
      ∃ (res : Nat → List Word) (lv st : Nat → Nat) (t : State) (g' : Group), SameButTimes t s ∧
        CompletesIn (.bsmp m d a b) m s (t.postWants (s.ctxOf (s.teamOf r)).num (g.ons.flatMap fun f => match q f with
          | none => []
          | some p => if e f = 0 ∨ (x f).coarsest < k f ∨ lv f = k f then []
            else [⟨(x f).va, ((x f).item (k f) (coarser (voxelOf p) (k f))).page, k f, fd f (k f) == .poisoned⟩])) r g g' ∧
        ReturnsAll g g' g.on ((List.range 6).map fun k => (regAt d k, fun f => (res f).getD k 0)) 0 ∧
        ∀ f ∈ g.ons,
          (e f = 0 → res f = [0, 0, 0, 0, 3, 0]) ∧
          (e f ≠ 0 → (q f = none ∨ (x f).coarsest < k f) → res f = [0, 0, 0, 0, 4, 0]) ∧
          ∀ p, e f ≠ 0 → q f = some p → k f ≤ (x f).coarsest → found (x f) (k f) (fd f) (lv f) (st f) ∧
            res f = (if (x f).coarsest < lv f then [0, 0, 0, 0] else trilinear (bytes f (lv f)) (lv f) p) ++
              [.ofNat 32 (st f + 256 * lv f), if (x f).coarsest < lv f then 0 else ((x f).level (lv f)).err])

/-- R195 to R197 with R146 and R251: issuing field operations; R199: `mres`. A march with helper fibres alone starts nothing by log
entry 98's choice. -/
def Obligations.FieldOperationsStart : Prop :=
  ∀ (m : Bool) (d a b : VReg) (c : BReg) (x : Nat → Word) (w lip : Word) (tid : Nat) (s : State) (r : GRef) (g : Group),
    Turn s r g → g.role = .vector → Quiet s r g →
    let t := s.teamOf r
    let starts (i : Instr) (k : OpKind) : Prop :=
      Accepts s r w false false k → ∃ u, CompletesIn i m s u r g g.begun ∧ Started s u r w k
    let ops : Prop := (∀ k, k < 4 → g.reads (regAt a k) (x k)) ∧ g.reads b w ∧ a.val % 4 = 0
    (∀ z, g.someActs = true → ops → g.fwdOpen = [] → ((s.viewOf r g).resource (g.breg c)).Gives (some z) → z.pyramid = true →
      (∀ k, k < 3 → 1 ≤ ((x 3).extractLsb' (8 * (k + 1)) 8).toNat ∧ ((x 3).extractLsb' (8 * (k + 1)) 8).toNat ≤ 8) →
      starts (.bcl m c a b) (.bcl (g.breg c) [x 0, x 1, x 2] (x 3))) ∧
    (g.someActs = true → g.priv = false → ops → (g.breg c).toNat % 64 ≠ 0 →
      Traps (.bcl m c a b) s r g .protection 14 (g.breg c)) ∧
    (g.swz ≠ 3 → ops → InRange s r 4 16 (x 0) t.tid → scrXm (x 0) = false →
      let n := imageLen (t.scrRead g.swz (scrOff (x 0)) 16)
      let img := t.scrRead g.swz (scrOff (x 0)) n
      (g.someActs = true → g.priv = false → scrOff (x 0) + n ≤ t.scrBytes → progOf img = none →
        Traps (.prn m a b) s r g .protection 21 (wordVal (.prn m a b))) ∧
      (InWindow s r g.swz 4 n (x 0) t.tid → img.length = n → (progOf img).isSome = true →
        (∀ t1 t2, g.someActs = true → InRange s r 4 24 (x 1) t1 → InRange s r 4 (Nat.max 4 (x 3).toNat) (x 2) t2 →
          starts (.prn m a b) (.prn img (x 1) (x 2) (x 3) g.swz)) ∧
        (
          let fs := g.ons.filter fun f => !g.isHelper f
          d.val % 8 = 0 → fs ≠ [] → g.reads (nextReg b) lip →
          InRange s r 16 (16 * (fs.foldl Nat.max 0 + 1)) (x 1) tid → positiveFinite (x 2) = true →
          x 3 &&& 0xFFFFFF8C = 0 → (x 3).extractLsb' 0 2 ≠ 3 → s.raySlots t.core + fs.length ≤ 512 →
          starts (.mrch m d a b) (.mrch img (x 1) (x 2) lip ((x 3).extractLsb' 0 2).toNat
            (g.breg (Fin.ofNat 8 ((x 3).extractLsb' 4 3).toNat)) g.swz
            (fs.map fun f => .new (Fin.ofNat 16 f) ((List.range 8).map fun k => g.rd (regAt d k) f)))))) ∧
    (∀ base, g.swz ≠ 3 → g.pend < 16 → g.ons ≠ [] → g.rank d = 2 → g.rank (nextReg d) = 2 → Quiet s r g → g.reads a base →
      (∀ f ∈ g.ons, InWindow s r g.swz 16 8 (base + .ofNat 32 (16 * f)) tid) →
      let word (k f : Nat) : Word :=
        .ofNat 32 (bytesAt (s.scrBytesAt tid g.swz (scrOff (base + .ofNat 32 (16 * f))) 8) (4 * k) 4)
      ∃ u g', CompletesIn (.mres m d a) m s u r g g' ∧ SameButTimes u s ∧
        ReturnsAll g g' g.on [(d, word 0), (nextReg d, word 1)] 0)

/-- R195, R196, R198, R262, R271: the completions of field operations in a context that neither records nor replays. The order in
which the steps come and that a ray takes one round a step are log entry 13's choices; entries 18 and 88 to 91 are the readings met
in their values. -/
def Obligations.FieldOperationsEnd : Prop :=
  ∀ (id : Nat) (o : Op) (f : Fibre) (s : State), s.op? id = some o →
    let c := (s.context? o.ctx).getD default
    ((o.captured = true ∨ o.waits ≠ []) →
      ∀ i ∈ [Instr.bclCompletion id, .prnCompletion id, .rayMarchEnd id f], exec i s = .next s) ∧
    (o.captured = false → o.waits = [] → o.ring = none → c.recMode = 0 → Frameless s →
      (∀ desc pos spec, o.kind = .bcl desc pos spec → (∀ a, a < 3 → 1 ≤ (bclFields spec).2.getD a 0) →
        let bricks := boxBricks (pos.map (·.toNat)) (bclFields spec).2
        let k := (bclFields spec).1
        (∀ bss, o.done = 0 → ((s.opView o).resourceBytes desc).Gives bss →
          ∃ u, exec (.bclCompletion id) s = .next u ∧ u.mem = s.mem ∧ u.bricks = s.bricks ∧
            StepDone s u o (1 + bricks.length) (firstReason o.reason (if (resourceOf desc bss).isSome then 0 else 2))
              (bss.zipIdx.map fun (bs, i) => ⟨i, bs, 0⟩)) ∧
        ∀ x b (fd : Nat → Found) (j : Nat), 1 ≤ o.done → resourceOf desc (o.seen.map (·.bytes)) = some x →
          bricks[nthChunk o.id bricks.length (o.done - 1)]? = some b →
          let vox := b.map fun n => n * 8 * 2 ^ k
          let item (i : Nat) : Item := x.item i (coarser vox i)
          let outside : Prop := x.coarsest < k ∨ ∃ a, a < 3 ∧ x.bricksAt k a ≤ b.getD a 0
          (outside → ∃ u, exec (.bclCompletion id) s = .next u ∧ u.mem = s.mem ∧ u.bricks = s.bricks ∧
            StepDone s u o (1 + bricks.length) o.reason o.seen) ∧
          (¬ outside → k ≤ j → j ≤ x.coarsest + 1 →
            (∀ i, k ≤ i → i ≤ j → i ≤ x.coarsest → ((s.opView o).find x i (item i)).Gives (fd i)) →
            (∀ i, k ≤ i → i < j → fd i ≠ .ok) → (j ≤ x.coarsest → fd j = .ok) →
            let r := if j ≤ x.coarsest then 0 else if (List.range (x.coarsest + 1)).any (fun i => k ≤ i && fd i == .poisoned) then 4 else 2
            ∃ s1 u, SameButTimes s1 s ∧ exec (.bclCompletion id) s = .next u ∧
              StepDone s u o (1 + bricks.length) (firstReason o.reason r) o.seen ∧
              let p := s1.postWants o.ctx (if j = k then [] else [⟨x.va, (item k).page, k, fd k == .poisoned⟩])
              u.mem = p.mem ∧ u.bricks = (if j ≤ x.coarsest
                then (p.cacheBrick ((p.context? o.ctx).getD default) (s.coreOf o.tid) x j (item j)).bricks else s.bricks))) ∧
      (∀ tm img box out cap swz p, o.kind = .prn img box out cap swz → s.team? o.tid = some tm → scrXm box = false →
        scrXm out = false → tm.scr.wf = true → progOf img = some p →
        let ins := chunks (scrOff box) 24
        (∀ a n, o.done < ins.length → ins[nthChunk o.id ins.length o.done]? = some (a, n) →
          let r := if tm.scrPoisoned swz a n then 4 else 0
          ∃ u, exec (.prnCompletion id) s = .next u ∧ u.mem = s.mem ∧
            StepDone s u o (ins.length + 1) (firstReason o.reason r)
              (⟨nthChunk o.id ins.length o.done, tm.scrRead swz a n, r⟩ :: o.seen) ∧
            ∀ z, u.team? o.tid = some z → z.scr = tm.scr) ∧
        (ins.length ≤ o.done → tm.scrPoison = [] →
          let whole := (List.range ins.length).mapM fun i => (o.seen.find? fun x => x.at_ == i && x.reason == 0).map (·.bytes)
          (∀ parts a n, whole = some parts →
            let bs := pruneOutput img p (boxOf parts.flatten) cap.toNat
            let outs := chunks (scrOff out) bs.length
            o.done < ins.length + outs.length →
            outs[nthChunk (o.id + 1) outs.length (o.done - ins.length)]? = some (a, n) →
            ∃ u, exec (.prnCompletion id) s = .next u ∧ u.mem = s.mem ∧ StepDone s u o (ins.length + outs.length) o.reason o.seen ∧
              ∀ z, u.team? o.tid = some z → z.scrRead swz a n = (bs.drop (a - scrOff out)).take n ∧
                ∀ k, k < a ∨ a + n ≤ k → z.scrRead swz k 1 = tm.scrRead swz k 1) ∧
          (whole = none → o.done = ins.length →
            ∃ u, exec (.prnCompletion id) s = .next u ∧ u.mem = s.mem ∧ OpEnds s u o o.reason ∧
              ∀ z, u.team? o.tid = some z → z.scr = tm.scr ∧ z.scrPoisoned swz (scrOff out) 4 = true))) ∧
      (∀ tm img recs tol lip mode table swz rays x p, o.kind = .mrch img recs tol lip mode table swz rays →
        s.team? o.tid = some tm → rays.find? (·.f == f) = some x → progOf img = some p → scrXm recs = false →
        scrOff recs % 16 = 0 → tm.scr.wf = true → o.reason = 0 →
        let env : FEnv := ⟨o.ctx, tm.party o.slot f true, tm.core, table⟩
        let ends (bs : List Byte) (mem : Memory) : Prop := ∃ u, exec (.rayMarchEnd id f) s = .next u ∧ u.mem = mem ∧
          (rays.filter (·.f != f) = [] → u.op? id = none) ∧
          (rays.filter (·.f != f) ≠ [] → ∃ q, u.op? id = some q ∧
            q.kind = .mrch img recs tol lip mode table swz (rays.filter (·.f != f)) ∧ q.reason = 0) ∧
          ∀ z, u.team? o.tid = some z → z.scrRead swz (scrOff recs + 16 * f.val) 16 = bs ∧
            ∀ k, k < scrOff recs + 16 * f.val ∨ scrOff recs + 16 * f.val + 16 ≤ k →
              z.scrRead swz k 1 = tm.scrRead swz k 1
        (badRay x.words = true → x = .new f x.words →
          ends (wordBytes [0x7F800000, 4, 0x7F800000, 0]) s.mem) ∧
        (∀ res b, (marchGo env p mode tol lip x).run (FieldSt.start s x o.got) = .ok (.ended res) b →
          b.st.teams = s.teams → b.st.ops = s.ops → b.st.contexts = s.contexts → ends (marchRecord res b) b.st.mem) ∧
        ∀ y b, (marchGo env p mode tol lip x).run (FieldSt.start s x o.got) = .ok (.more y) b →
          exec (.rayMarchEnd id f) s = .next (b.st.modOp id fun o => o.modRay f fun _ =>
            { y with evals := b.evals, nv := b.nv, fb := b.fb, lvl := b.lvl, memo := [] })))

/-- R202, R204, R288, R294, R231, R232, R206, R207: rays, continuations, and the teams formed of them, of a context that
neither records nor replays. That arrival records lie unswizzled is log entry 75's choice, and that spawn reads the fields HIT and PAY
of its control word alone entry 99's. -/
def Obligations.RaysAndContinuations : Prop :=
  (∀ (m : Bool) (d a b : VReg) (c : BReg) (live : Half) (s : State) (r : GRef) (g : Group), Turn s r g → g.role = .vector →
    g.priv = false → g.ons ≠ [] → MayEnd s r g.ons (live == 0) →
    (∀ f, f < 16 → live.getLsbD f = (g.live.getLsbD f && !g.on f)) →
    let t := s.teamOf r
    let x := (s.grid? t.ctx t.serial).getD default
    let goers := g.ons.filter fun f => !g.isHelper f
    let ctl (f : Nat) : Word := g.rd a f
    0 < x.pgrp →
    let ends (i : Instr) (P : State → Prop) : Prop :=
      (live ≠ 0 → ∃ u, CompletesIn i m s u r g { g.begun with live := live } ∧ u.mem = s.mem ∧ u.teams = s.teams ∧ P u) ∧
      (live = 0 → ∃ u, exec i s = .next u ∧ ∀ g', u.group? r = some g' → g'.ended = true)
    let named : Prop := ∀ f ∈ goers, ∀ n ∈ [(ctl f).toNat % 16, (ctl f).toNat / 16 % 16, (ctl f).toNat / 256 % 16],
      targetOk x.targets (ctl f) n = true
    (d.val % 8 = 0 → named → goers ≠ [] → canonical (g.breg c) = false →
      Traps (.trace m d a c) s r g .protection 23 (g.breg c)) ∧
    (d.val % 8 = 0 → named → goers ≠ [] → canonical (g.breg c) = true → (g.breg c).toNat % 128 ≠ 0 →
      Traps (.trace m d a c) s r g .protection 11 (g.breg c)) ∧
    (d.val % 8 = 0 → s.raySlots t.core + goers.length ≤ 512 → named →
      (goers ≠ [] → canonical (g.breg c) = true ∧ (g.breg c).toNat % 128 = 0) →
      ends (.trace m d a c) fun u => u.conts = s.conts ∧ ∃ new : List Ray, u.rays = s.rays ++ new ∧ new.length = goers.length ∧
        ∀ (i f : Nat), goers[i]? = some f → ∃ y : Ray, new[i]? = some y ∧ y.ctx = t.ctx ∧ y.serial = t.serial ∧ y.core = t.core ∧
          y.words = (List.range 8).map (fun k => g.rd (regAt d k) f) ∧ y.ctl = ctl f ∧ y.payload = g.payload (ctl f) f ∧
          y.root = g.breg c ∧ y.waits = []) ∧
    ((∀ f ∈ goers, targetOk x.targets (ctl f) ((ctl f).toNat % 16) = true) → (s.boarded t.core).length + goers.length ≤ 512 →
      ends (.spawn m a b) fun u => u.rays = s.rays ∧ ∃ new : List Continuation, u.conts = s.conts ++ new ∧ new.length = goers.length ∧
        ∀ (i f : Nat), goers[i]? = some f → ∃ y : Continuation, new[i]? = some y ∧ y.core = t.core ∧
          y.bin = ⟨t.ctx, t.serial, (ctl f).toNat % 16⟩ ∧ y.hash = g.rd b f ∧ y.helper = false ∧ y.raster = none ∧
          y.payload = (g.payload (ctl f) f).take ((x.targets.getD ((ctl f).toNat % 16) default).payB / 4) ∧
          y.arrival = arrivalOf 0 7 0 0 0 0 0 (g.rd b f) 0 [] [])) ∧
  (∀ (m : Bool) (d : VReg) (k : BitVec 6) (tid : Nat → Nat) (s : State) (r : GRef) (g : Group), Turn s r g →
    g.role = .vector → g.pend < 16 → g.ons ≠ [] → g.rank d = 2 → Quiet s r g →
    let x := (s.grid? (s.teamOf r).ctx (s.teamOf r).serial).getD default
    let at_ (j f : Nat) : Word := .ofNat 32 (x.arriv + 80 * f + 4 * j)
    let reads (i : Instr) (j : Nat) : Prop := (∀ f ∈ g.ons, InWindow s r 0 4 4 (at_ j f) (tid f)) →
      ∃ u g', CompletesIn i m s u r g g' ∧ SameButTimes u s ∧
        ReturnsAll g g' g.on [(d, fun f => .ofNat 32 (leNat (s.scrBytesAt (tid f) 0 (scrOff (at_ j f)) 4)))] 0
    (k.toNat < 9 → reads (.hitq m d k) k.toNat) ∧ (k.toNat < 11 → reads (.payl m d k) (9 + k.toNat)) ∧
    (g.priv = false → 9 ≤ k.toNat → Traps (.hitq m d k) s r g .illegal 5 (wordVal (.hitq m d k))) ∧
    (g.priv = false → 11 ≤ k.toNat → Traps (.payl m d k) s r g .illegal 5 (wordVal (.payl m d k)))) ∧
  (∀ (id : Nat) (y : Ray) (x : Grid) (w : WalkEnd) (b : FieldSt) (s : State), s.rays.find? (·.id == id) = some y →
    y.waits = [] → (s.boarded y.core).length < 512 → s.grid? y.ctx y.serial = some x →
    (walkRay ⟨y.ctx, y.party, y.core, 0⟩ ⟨x.targets, y.ctl, y.words⟩ y.root).run
      (FieldSt.start s { MRay.new 0 y.words with memo := y.memo } y.got) = .ok w b →
    (badRay y.words = true → w = .err 4 ∧ b.st = s) ∧
    ∃ u c, exec (.traversalEnd id) s = .next u ∧ u.rays = b.st.rays.filter (·.id != id) ∧ u.conts = b.st.conts ++ [c] ∧
      u.idle = b.st.idle.filter (· != y.core) ∧ c.core = y.core ∧ c.hash = rayHash y.words ∧ c.gfid = y.gfid ∧
      c.bin = ⟨y.ctx, y.serial, (w.arrival y.ctl y.words).1⟩ ∧ c.arrival = (w.arrival y.ctl y.words).2 ∧
      c.payload = y.payload.take ((x.targets.getD c.bin.target default).payB / 4)) ∧
  (∀ (core : Nat) (s : State), s.boarded core ≠ [] → s.idle.contains core = false →
    exec (.boardingIdleTimeout core) s = .next { s with idle := core :: s.idle }) ∧
  (∀ (core : Nat) (bin : BinKey) (x : Grid) (c : Context) (room : Room) (s : State),
    s.grid? bin.ctx bin.serial = some x → s.context? bin.ctx = some c → c.recMode = 0 → s.contTeams x < x.pgrp →
    s.rasterGroup core bin = [] → s.groupDue core bin = true → s.coreFor c core = true →
    s.placeClaimed = none → (∃ before after, s.firstClass = before ++ .bin core bin :: after ∧ ∀ y ∈ before, s.takeFirst y = none) →
    s.place c [core] x.contNeed = some room →
    let ms := (s.binOf core bin).take 16
    let n := (x.targets.getD bin.target default).payB / 4
    ∃ u tm g, exec (.boardingGroupFormation core bin) s = .next u ∧ u.teams = s.teams ++ [tm] ∧ tm.groups = [g] ∧
      tm.cont = true ∧ tm.core = core ∧ tm.ctx = x.ctx ∧ tm.serial = x.serial ∧ g.role = .vector ∧
      g.pc = (x.targets.getD bin.target default).entry ∧ u.mem = s.mem ∧
      (∀ k, k ∈ u.conts ↔ k ∈ s.conts ∧ ∀ y ∈ ms, y.order ≠ k.order) ∧
      (∀ f, f < 16 → (g.live.getLsbD f = true ↔ f < ms.length)) ∧
      (∀ (f : Nat) (y : Continuation), ms[f]? = some y → g.gfid.getD f 0 = y.gfid ∧ g.helper.getLsbD f = y.helper ∧
        ∀ k, k < n → n ≤ 64 → g.rd (Fin.ofNat 64 k) f = y.payload.getD k 0) ∧
      ((∀ y ∈ ms, y.arrival.length = 20) → ∀ (f : Nat) (y : Continuation), ms[f]? = some y →
        tm.scrRead 0 (x.arriv + 80 * f) 80 = wordBytes y.arrival))

/-- R205, R208, R291, R292: the depth test and screen tiles of a context that neither records nor replays. Pixel coordinates modulo
65,536 are log entry 74's choice, and the order of the steps of `rast` entry 13's. -/
def Obligations.ScreenTiles : Prop :=
  (∀ (m : Bool) (d a b : VReg) (tid : Nat → Nat) (s : State) (r : GRef) (g : Group), Turn s r g → g.role = .vector →
    g.swz ≠ 3 → g.rank d = 2 → g.rank (nextReg d) = 2 → Unlisted s r g →
    let fs := g.ons.filter fun f => !g.isHelper f
    let off (f : Nat) : Nat := scrOff (g.rd a f)
    (∀ f ∈ fs, InWindow s r g.swz 8 8 (g.rd a f) (tid f)) →
    let turn (x : State × List (Nat × DepthPair)) (f : Nat) : State × List (Nat × DepthPair) :=
      let old := depthOf (x.1.scrBytesAt (tid f) g.swz (off f) 8)
      (x.1.storedAt (tid f) g.swz none (off f) (depthBytes (depthKept (g.rd b f, g.rd (nextReg b) f) old)), x.2 ++ [(f, old)])
    let run := fs.foldl turn (s, [])
    ∃ u g', CompletesIn (.dpt m d a b) m s u r g g' ∧ SameButTimes u run.1 ∧ u.mem = s.mem ∧ u.hostMem = s.hostMem ∧
      WroteAll g g' fs.contains
        [(d, fun f => ((run.2.lookup f).getD (0, 0)).1), (nextReg d, fun f => ((run.2.lookup f).getD (0, 0)).2)] 0 ∧
      (∀ e x, (∀ f ∈ fs, tid f = e → x < off f ∨ off f + 8 ≤ x) →
        u.scrBytesAt e g.swz x 1 = s.scrBytesAt e g.swz x 1)) ∧
  (∀ (m : Bool) (a b : VReg) (at_ w : Word) (tid : Nat) (s : State) (r : GRef) (g : Group), Turn s r g → g.role = .vector →
    g.someActs = true → Quiet s r g → g.swz ≠ 3 → g.fwdOpen = [] → g.reads a at_ → g.reads b w →
    InWindow s r g.swz 16 64 at_ tid →
    let t := s.teamOf r
    let bs := s.scrBytesAt tid g.swz (scrOff at_) 64
    let x := tileDesc bs
    let n := ((s.grid? t.ctx t.serial).map (·.targets.length)).getD 0
    (x.bad bs t.scrBytes n = true → g.priv = false → Traps (.rast m a b) s r g .protection 14 (wordVal (.rast m a b))) ∧
    (∀ home list, x.bad bs t.scrBytes n = false → s.scrMisuse t x.depth = false → s.scrTid t x.depth = some home →
      ((s.viewOf r g).read x.tri (40 * x.count)).Gives list → Accepts s r w false false (.rast bs g.swz) →
      ∃ u, CompletesIn (.rast m a b) m s u r g g.begun ∧ Started s u r w (.rast bs g.swz))) ∧
  (∀ (id : Nat) (o : Op) (bs : List Byte) (swz : Nat) (s : State), s.op? id = some o → o.kind = .rast bs swz →
    (o.captured = true ∨ o.waits ≠ [] → exec (.rastCompletion id) s = .next s) ∧
    (
      let x := tileDesc bs
      let list := x.listChunks
      let store := x.storeChunks
      let total := list.length + store.length
      o.captured = false → o.waits = [] → o.ring = none → ((s.context? o.ctx).getD default).recMode = 0 → Frameless s →
      (∀ a n got reason, o.done < list.length → list[nthChunk o.id list.length o.done]? = some (a, n) → 0 < store.length →
        ((s.opView o).chunk (.ofNat 64 a) n).Gives (got, reason) →
        ∃ u, exec (.rastCompletion id) s = .next u ∧ u.mem = s.mem ∧ u.conts = s.conts ∧
          (u.teams.map (·.scr)) = s.teams.map (·.scr) ∧
          StepDone s u o total (firstReason o.reason reason)
            (⟨nthChunk o.id list.length o.done, got.getD [], reason⟩ :: o.seen)) ∧
      ∀ tm off n, s.team? o.tid = some tm → tm.scr.wf = true → scrXm x.depth = false → scrOff x.depth % 8 = 0 →
        list.length ≤ o.done → store[nthChunk (o.id + 1) store.length (o.done - list.length)]? = some (off, n) →
        let bad := tm.scrPoisoned swz off n
        let old := tm.scrRead swz off n
        let new := (List.range (n / 8)).flatMap fun k =>
          let i := (off - scrOff x.depth) / 8 + k
          depthBytes (offerAll (x.triangles o.seen) x.idb (x.x0 + i % x.width) (x.y0 + i / x.width) (depthOf ((old.drop (8 * k)).take 8)))
        let seen : List Piece :=
          ⟨list.length + nthChunk (o.id + 1) store.length (o.done - list.length), if bad then [] else new, if bad then 4 else 0⟩ :: o.seen
        let pairs := x.pairs seen
        let frags := if o.done + 1 < total then [] else x.fragments pairs
        ∃ (u : State) (cs : List Continuation), exec (.rastCompletion id) s = .next u ∧ u.mem = s.mem ∧
          StepDone s u o total (firstReason o.reason (if bad then 4 else 0)) seen ∧
          (∀ z, u.team? o.tid = some z → z.scrRead swz off n = (if bad then old else new) ∧
            ∀ j, j < off ∨ off + n ≤ j → z.scrRead swz j 1 = tm.scrRead swz j 1) ∧
          u.conts = s.conts ++ cs ∧ cs.length = 4 * frags.length ∧
          ∀ (j : Nat) (p : Word × Nat), frags[j]? = some p → ∀ (i : Nat) (xy : Nat × Nat), (x.quad p.2)[i]? = some xy →
            ∃ y : Continuation, cs[4 * j + i]? = some y ∧
            y.core = tm.core ∧ y.bin = ⟨o.ctx, tm.serial, x.target⟩ ∧ y.raster.isSome = true ∧
            y.helper = ((pairs.getD (xy.2 * x.width + xy.1) (0, 0)).2 != p.1) ∧
            y.arrival.getD 1 0 = 6 ∧ y.arrival.getD 3 0 = p.1 ∧
            y.arrival.getD 8 0 = .ofNat 32 ((x.x0 + xy.1) % 65536 + (x.y0 + xy.2) % 65536 * 65536)))

/-- R95, R309, R311, R219, R221, R230, R315 to R321, R375: launches, placement, ageing and retirement in contexts that neither
record nor replay. That depth is reported before leader is log entry 36's choice, that a misaligned record is refused unread entry
94's, and STAT 0 with the status pair in a refused LAUNCH's reply entry 50's. -/
def Obligations.LaunchAndPlacement : Prop :=
  let enters (u : State) (c : Context) (lr : Record) (side : Side) (by_ : Option Grid) : Prop := ∃ y ∈ u.grids,
    y.ctx = c.num ∧ y.serial = c.nextSerial ∧ y.fromHost = by_.isNone ∧ y.parent = by_.map (·.serial) ∧
    y.depth = (match by_ with | some x => x.depth + 1 | none => 0) ∧ y.queue = lr.queue ∧
    y.basePrio = Nat.min lr.pri (c.ceiling lr.queue) ∧ y.effPrio = y.basePrio ∧ y.deps = lr.deps ∧
    y.gx = lr.gx ∧ y.gy = lr.gy ∧ y.gz = lr.gz ∧ y.conv = lr.conv ∧ y.args = lr.args ∧
    y.entry = side.entry ∧ y.image = side.image ∧ y.targets = side.targets ∧ y.const = side.const ∧ y.placed = 0 ∧ y.retired = false ∧
    (u.context? c.num).map (·.nextSerial) = some (c.nextSerial + 1)
  (∀ (m : Bool) (d b : VReg) (a : BReg) (o : Word) (loc : Loc) (c : Context) (s : State) (r : GRef) (g : Group), Turn s r g →
    g.ons ≠ [] → g.reads b o → s.context? (s.teamOf r).ctx = some c →
    let x := s.gridOf (s.teamOf r)
    let va := g.breg a + o.signExtend 64
    let i : Instr := .launch m d a b
    let gives (u : State) (pair : DWord) : Prop := ∃ g', CompletesIn i m s u r g g' ∧
      WroteAll g g' g.on [(d, fun _ => pair.extractLsb' 0 32), (nextReg d, fun _ => pair.extractLsb' 32 32)] 0
    let status (st : Nat) : DWord := .ofNat 64 (0xFFFFFFFF * 2 ^ 32 + st)
    let first : Prop := r.slot = 0 ∧ g.on 0 = true ∧ g.isHelper 0 = false
    (10 ≤ x.depth → gives s (status 1)) ∧
    (x.depth < 10 → ¬ first → gives s (status 2)) ∧
    (x.depth < 10 → first → va.toNat % 64 ≠ 0 → gives s (status 3)) ∧
    (x.depth < 10 → first → va.toNat % 64 = 0 → Unlisted s r g → g.fwdOpen = [] →
      Reaches s r .read 64 va loc → s.poisonedAt loc 64 = false →
      let lr := recordOf (s.bytesAtLoc loc 64)
      (c.refuses lr = true → ∃ u, SameButTimes u s ∧ gives u (status 3)) ∧
      ∀ side, c.refuses lr = false →
        Rd.Gives (do withConst s c lr (some x.serial) (← readSide lr (s.viewOf r g)) (s.viewOf r g)) side →
        (s.judge c lr (some x.serial) side ≠ 0 →
          ∃ u, SameButTimes u s ∧ gives u (status (s.judge c lr (some x.serial) side))) ∧
        ∀ sd, side = some sd → s.judge c lr (some x.serial) side = 0 →
          ∃ u, gives u (token c.num c.nextSerial) ∧ enters u c lr sd (some x) ∧ u.mem = s.mem ∧ u.teams = s.teams)) ∧
  (∀ (h : MsgHdr) (record : List Byte) (s1 : State) (c : Context) (s : State), Heard s s1 h (.launchMessage record) c →
    c.recMode = 0 → s1.held = [] → record.length = 64 →
    let lr := recordOf record
    ∀ side, (if c.refuses lr then side = none
        else Rd.Gives (do withConst s1 c lr none (← readSide lr ⟨s1, c, []⟩) ⟨s1, c, []⟩) side) →
      ∃ u, exec (.launchMessage h record) s = .next u ∧ u.held = [] ∧ u.mem = s.mem ∧ u.teams = s.teams ∧
        u.outbox = s.outbox ++ [⟨.host, 1, h.ctx, true, 0, 0, natLe 8 (launchPair c (s1.judge c lr none side)).toNat, []⟩] ∧
        ∀ sd, side = some sd → s1.judge c lr none side = 0 → enters u c lr sd none) ∧
  (∀ (x : Grid) (c : Context) (s : State),
    let s1 := s.markEligible
    s1.placeClaimed = none → s1.firstPlaced = none → s1.chosen = some x → s1.grid? x.ctx x.serial = some x →
    s1.context? x.ctx = some c →
    (∀ room, x.conv = 0 → s1.place c (s1.coresFor c) x.need (x.ctx, x.serial) = some room →
      ∃ u tm, exec .placementDecision s = .next u ∧ u.teams = s.teams ++ [tm] ∧ u.mem = s.mem ∧
        (u.grid? x.ctx x.serial).map (·.placed) = some (x.placed + 1) ∧
        tm.ctx = x.ctx ∧ tm.serial = x.serial ∧ tm.lin = x.placed ∧ tm.core = room.core ∧ tm.phase = .running ∧
        tm.tg = 0 ∧ tm.scr = Memory.empty ∧ tm.acc = [] ∧ tm.groups.length = x.grp + 1 ∧
        ∀ k g, tm.groups[k]? = some g → g.v = x.image ∧ g.vDue = x.image ∧ g.pc = x.entry ∧ g.role = x.role k ∧
          g.breg 0 = x.args ∧ g.md = 0x00880000 ∧ g.live = 0xFFFF ∧ g.helper = 0 ∧ g.priv = false ∧ g.flags = 0 ∧
          g.cause = 0 ∧ g.retired = 0 ∧ g.budget = x.budget ∧ (∀ p, p ≠ 0 → g.preg p = 0) ∧
          ∀ f, f < 16 → g.countAt f = 0) ∧
    (∀ die, x.conv ≠ 0 → s1.dieFor c x.conv x.need (x.ctx, x.serial) = some die →
      ∃ u v, exec .placementDecision s = .next u ∧ u.teams = s.teams ∧ u.convoys = s.convoys ++ [v] ∧ v.die = die ∧
        v.ctx = x.ctx ∧ v.serial = x.serial ∧ v.first = x.placed ∧ v.members = x.conv ∧ v.started = [] ∧ v.ended = [] ∧ v.cores = [] ∧
        (u.grid? x.ctx x.serial).map (·.placed) = some (x.placed + x.conv))) ∧
  (∀ (id i : Nat) (v : Convoy) (x : Grid) (c : Context) (room : Room) (s : State), s.convoys.find? (·.id == id) = some v →
    i < v.members → i ∉ v.started → i ∉ v.ended → (∀ j, j < i → j ∈ v.started ∨ j ∈ v.ended) →
    s.grid? v.ctx v.serial = some x → s.context? v.ctx = some c → (∀ t ∈ s.saved, t.convoy ≠ some (id, i)) →
    let free : State := { s with
      convoys := s.convoys.map fun y => if y.id == id then { y with started := i :: y.started } else y }
    free.place c ((s.dieCores c v.die).filter (!v.cores.contains ·)) x.need = some room →
    ∃ u tm, exec (.convoyMemberStart id) s = .next u ∧ u.teams = s.teams ++ [tm] ∧ u.mem = s.mem ∧
      tm.convoy = some (id, i) ∧ tm.lin = v.first + i ∧ tm.core = room.core ∧ dieOf room.core = v.die ∧
      tm.core ∉ v.cores ∧ ∃ w, u.convoys.find? (·.id == id) = some w ∧ w.started = v.started ++ [i] ∧
        w.cores = room.core :: v.cores) ∧
  (∀ (ctx serial : Nat) (x : Grid) (c : Context) (s : State), s.grid? ctx serial = some x → s.context? ctx = some c →
    (x.eligible = true → s.queued x = true → x.effPrio < c.ceiling x.queue →
      ∃ u, exec (.priorityAgeing ctx serial) s = .next u ∧ u.grid? ctx serial = some { x with effPrio := x.effPrio + 1 } ∧
        { u with grids := s.grids } = s) ∧
    (s.doneGrid x = false → exec (.gridRetirement ctx serial) s = .next s) ∧
    (s.doneGrid x = true → ∃ u y, exec (.gridRetirement ctx serial) s = .next u ∧ u.grid? ctx serial = some y ∧
      y.retired = true ∧ u.teams = s.teams ∧ u.mem = s.mem ∧
      u.outbox = s.outbox ++ (if x.fromHost then [⟨.host, 2, ctx, false, 0, 0, natLe 8 (token ctx serial).toNat ++ natLe 4 0, []⟩]
        else [])))

/-- R332, R334, R335, R337 to R340, R98, R324: a team's state saved and restored. That an item 17 which is not the saved one always
loses the context is log entry 3's choice (unsafe for just this claim), the role word of item 10 entry 14's, and that a request of a
restoring team is held until it has left its routine entry 107's. -/
def Obligations.PreemptionAndRestoring : Prop :=
  (∀ (r : GRef) (sub : Nat) (tm : Team) (g : Group) (s : State), s.team? r.tid = some tm → s.group? r = some g →
    g.preempt = some sub → g.ended = false →
    (g.priv = true ∨ g.fwdOpen ≠ [] ∨ g.doneAway = true ∨ tm.phase = .restoring → exec (.preemptTake r) s = .next s) ∧
    (g.priv = false → g.fwdOpen = [] → g.doneAway = false → tm.phase ≠ .restoring →
    let g1 : Group := { g.trapped ⟨.preempt, sub, 0⟩ with preempt := none, trapDue := g.trapDue, left := false }
    ((∃ k x, k ≠ r.slot ∧ tm.groups[k]? = some x ∧ x.ended = false ∧ x.preempt.isSome = true) →
      exec (.preemptTake r) s = .next (s.setGroup r g1)) ∧
    (∀ c va, tm.phase = .preempting →
      (∀ k x, k ≠ r.slot → tm.groups[k]? = some x → x.ended = true ∨ x.preempt = none) → s.frameAt tm = some (c, va) →
      let u1 := s.setGroup r g1
      let waits := u1.frameWaits (tm.modGroup r.slot fun _ => g1)
      (waits = true → exec (.preemptTake r) s = .next u1) ∧
      (waits = false →
      let t1 : Team := { tm.modGroup r.slot (fun _ => g1) with
        ltime := s.clockOf tm.ctx tm.core, phase := .saving, saveKey := s.nextId }
      let s1 : State := { u1 with
        nextId := s.nextId + 1
        teams := u1.teams.map fun x => if x.tid == r.tid then t1 else x
        ops := s.ops.map fun o => if o.tid == r.tid && o.kind.capturable then s.capture o else o }
      (∀ u, s1.ownWrite c va (t1.header 1) = .ok u →
        exec (.preemptTake r) s = .next u ∧ u.team? r.tid = some t1 ∧ u.group? r = some g1 ∧
          ∀ o ∈ u.ops, o.tid = r.tid → o.kind.capturable = true → o.captured = true) ∧
      (∀ e, s1.ownWrite c va (t1.header 1) = .error e →
        exec (.preemptTake r) s = .next (s1.loseContext tm.ctx e.1 e.2)))))) ∧
  (∀ (g x : Group) (k : Nat), g.sized = true → 1 ≤ k → k ≤ 9 → (x.loadItem k (g.item k)).item k =
    Group.item { g with md := g.md &&& mdMask, flags := g.flags &&& flagsMask, cause := g.cause &&& 0x8000FFFF,
                        gang := gangValue g.gang, h := g.h.map hStored } k) ∧
  (∀ (m : Bool) (k : BitVec 6) (loc : Nat → Loc) (t : Team) (c : Context) (va : DWord) (s : State) (r : GRef) (g : Group),
    Holds s r g → (g.priv = false → Traps (.xsave m k) s r g .protection 9 (wordVal (.xsave m k)) ∧
      Traps (.xrst m k) s r g .protection 9 (wordVal (.xrst m k))) ∧
    (s.team? r.tid = some t → s.frameAt t = some (c, va) → g.priv = true → g.fwdOpen = [] → (k.toNat < 16 ∨ r.slot = 0) →
      (k.toNat < 32 ∨ 16 * (k.toNat - 32) + 16 ≤ t.accRows) →
      let cut (off n : Nat) : List (Nat × Nat) := pieces 128 (n / 128 + 2) (va + .ofNat 64 off).toNat n
      let at_ (off : Nat) : Nat := (va + .ofNat 64 off).toNat
      let open_ (kind : AccKind) (off n : Nat) : Prop := ∀ p ∈ cut off n,
        Reaches s r kind 1 (.ofNat 64 p.1) (loc p.1) ∧ s.poisonedAt (loc p.1) p.2 = false ∧
        (kind = .write → s.inUse (loc p.1) p.2 = false)
      let got (off n : Nat) (bs : List Byte) : Prop := open_ .read off n ∧
        bs = (cut off n).flatMap fun p => s.bytesAtLoc (loc p.1) p.2
      let header (x : Team) : Prop := ∃ bs, got 0 32 bs ∧ bs.take 12 = (x.header 0).take 12 ∧
        bs.drop 24 = ((x.header 0).drop 24).take 8
      let item := saveItem s r g.begun t k.toNat
      let group := t.groupFrame r.slot
      -- the reads of a load take their places and change nothing else
      let loads (f : State → State) (g' : Group) : Prop := ∃ u, SameButTimes u s ∧ CompletesIn (.xrst m k) m s (f u) r g g'
      (Unarmed s r → (k.toNat < 16 ∨ (t.phase ≠ .preempting ∧ s.draining t = false)) →
        (∀ x ∈ item, open_ .write x.1 x.2.length) →
        ∃ u, CompletesIn (.xsave m k) m s u r g g.begun ∧
          SameButTimes u ((item.flatMap fun x => (cut x.1 x.2.length).map fun p =>
            (loc p.1, (x.2.drop (p.1 - at_ x.1)).take p.2)).foldl (fun s y => s.putBytes y.1 y.2) s)) ∧
      (∀ head rest, k = 0 → got (group + 0x518) 16 head →
        let ts := tagsOf head
        let words := (ts.map tagCost).sum
        (∀ x ∈ ts, x ≠ 3) → words ≤ g.budget → got (group + 0x528) (4 * words) rest →
        let v := vvalsOf ts (bytesWords rest words)
        loads id { g.begun with v := v, vDue := v }) ∧
      (∀ bs, 1 ≤ k.toNat → k.toNat ≤ 9 → got (group + (itemPlace k.toNat).1) (itemPlace k.toNat).2 bs →
        loads id (g.begun.loadItem k.toNat bs)) ∧
      (∀ bs bud, k = 10 → got group 8 bs → got (0x40 + 2 * r.slot) 2 bud → bytesAt bs 0 4 = leNat bud →
        bytesAt bs 4 4 = g.role.code → loads id g.begun) ∧
      (∀ bs, k = 16 → got 0x100 16 bs → loads (·.modTeam t.tid fun t => { t with
        tg := .ofNat 64 (bytesAt bs 0 8 % 2 ^ t.tagN), tagErr := .ofNat 64 (bytesAt bs 8 8 % 2 ^ t.tagN), got16 := true }) g.begun) ∧
      (∀ x bs, k = 17 → s.snapshot t.tid = some x → got 0x200 2048 bs → open_ .read 0 32 → bs ≠ item17 x.saveKey →
        loads (·.loseContext t.ctx 12 1) g.begun) ∧
      (∀ x, k = 17 → s.snapshot t.tid = some x → got 0x200 2048 (item17 x.saveKey) → header x →
        let load (u : State) : State := (u.setGroup r g.begun).modTeam t.tid fun t => t.load17 x
        loads load (((load s).group? r).getD g.begun)) ∧
      (∀ x, k = 18 → s.snapshot t.tid = some x →
        (∀ p ∈ s.capturedParts t.tid, got p.1 p.2 (opaqueItem x.saveKey p.1 p.2)) → header x →
        ∃ u, CompletesIn (.xrst m k) m s u r g g.begun ∧ (∀ o ∈ u.ops, o.tid = t.tid → o.captured = false) ∧
          (u.team? t.tid).map (·.got18) = some true) ∧
      (∀ bs, 32 ≤ k.toNat → got (0x3B000 + 16384 * (k.toNat - 32)) 16384 bs →
        ∃ u, CompletesIn (.xrst m k) m s u r g g.begun ∧ u.mem = s.mem ∧ ∀ y, u.team? t.tid = some y →
          ∀ i j, j < 256 → y.cell i j = if 16 * (k.toNat - 32) ≤ i ∧ i < 16 * (k.toNat - 32) + 16 then
            .ofNat 32 (bytesAt bs (4 * (256 * (i - 16 * (k.toNat - 32)) + j)) 4) else t.cell i j))) ∧
  (∀ (tid : Nat) (t : Team) (c : Context) (va : DWord) (s : State), s.team? tid = some t → t.phase = .saving →
    ((∃ g ∈ t.groups, g.ended = false ∧ g.left = false) → exec (.saveEnd tid) s = .next s) ∧
    ((∀ g ∈ t.groups, g.ended = true ∨ g.left = true) → s.draining t = false → s.frameAt t = some (c, va) → s.frameWaits t = false →
      let written := (s.writeWindow c va t).bind fun s => s.writeState c va t 2
      (∀ e, written = .error e → exec (.saveEnd tid) s = .next (s.loseContext t.ctx e.1 e.2)) ∧
      (∀ u, written = .ok u →
        ∃ z, exec (.saveEnd tid) s = .next z ∧ z.mem = u.mem ∧ z.teams = s.teams.filter (·.tid != tid) ∧
          ∃ x, z.saved = s.saved ++ [x] ∧ x.phase = .saved ∧ x.tid = t.tid ∧ x.frame = t.frame))) ∧
  (∀ (t tm : Team) (x : Grid) (c : Context) (va : DWord) (buds : List Nat) (ended : Nat) (room : Room) (s : State),
    let s1 := s.markEligible
    s1.placeClaimed = none → (∃ rest, s1.firstClass = .saved t :: rest) → t.convoy = none → s1.grid? t.ctx t.serial = some x →
    s1.frameAt t = some (c, va) →
    s1.place c (s1.coresFor c) (t.need x) = some room → s1.headerOf c va t = .ok (buds, ended) →
    exec .placementDecision s = .next (s1.restoreTeam t room) ∧
    ((s1.restoreTeam t room).teams = s.teams ++ [tm] →
      tm.core = room.core ∧ tm.phase = .restoring ∧ tm.lin = t.lin ∧ ∀ k g, tm.groups[k]? = some g →
        (ended / 2 ^ k % 2 = 1 → g.ended = true) ∧
        (ended / 2 ^ k % 2 = 0 → g.priv = true ∧ g.pc = 0 ∧ g.cause = 0x8000010C ∧ g.budget = buds.getD k 0)))

/-- R248, R347, R348, R352, R355, R357, R365, R366, R376, R239: events of the memory system and the manifest. That logical
times are unbounded and kept by context and core is log entry 9's choice, that a stall passes a group over whose owners have performed
accesses until its next boundary entry 61's, what a replay match does entry 62's, and the bytes of FLIPREQ and that accesses wait from
the request on entry 69's. -/
def Obligations.FlipsMigrationsAndReplies : Prop :=
  (∀ (h : MsgHdr) (page : DWord) (toHost : Bool) (s s1 : State) (c : Context) (l : Leaf), Heard s s1 h (.flip page toHost) c →
    s1.pageLeaf c page = some l →
    let p := l.page page
    let busy := s1.flips.any (fun f => f.ctx == c.num && f.page == p) || s1.migs.any (fun m => m.ctx == c.num && m.page == p)
    (l.own ≠ 1 → exec (.flip h page toHost) s = .next (s1.answerHost h 9 2 [])) ∧
    (l.own = 1 → busy = true → exec (.flip h page toHost) s = .next (s1.answerHost h 9 1 [])) ∧
    (l.own = 1 → busy = false →
      exec (.flip h page toHost) s = .next { s1 with flips := s1.flips ++ [⟨c.num, p, toHost, false, false⟩] })) ∧
  (∀ (ctx : Nat) (page : DWord) (f : Flip) (c : Context) (l : Leaf) (s : State),
    s.flips.find? (fun f => f.ctx == ctx && f.page == page) = some f → s.context? ctx = some c → s.pageLeaf c page = some l →
    (f.begun = false → s.pageBusy ctx l page = true → exec (.flipCompletion ctx page) s = .next s) ∧
    (f.begun = false → s.pageBusy ctx l page = false → s.mem.wf = true →
      ∃ u, exec (.flipCompletion ctx page) s = .next u ∧ u.outbox = s.outbox ∧ u.hostMem = s.hostMem ∧
      u.flips = s.flips.map (fun x => if x.ctx = ctx ∧ x.page = page then { x with begun := true } else x) ∧
      u.entryAt l.entry = (if f.toHost then s.entryAt l.entry ||| biasBit else s.entryAt l.entry &&& ~~~biasBit) ∧
      ∀ a, a < l.entry ∨ l.entry + 8 ≤ a → u.mem.get a = s.mem.get a) ∧
    (f.begun = true → f.toHost = true → (s.conn .host).down = false → (∃ n ∈ s.hostDirty, l.hostLine n = true) →
      ∃ u, exec (.flipCompletion ctx page) s = .next u ∧ u.flips = s.flips ∧ u.mem = s.mem ∧ u.hostMem = s.hostMem ∧
        u.hostDirty = s.hostDirty.filter (fun n => !l.hostLine n) ∧
        u.requests.length = s.requests.length + (s.hostDirty.filter l.hostLine).length) ∧
    (f.begun = true → f.own = false → s.held = [] → (f.toHost = false ∨ ∀ n ∈ s.hostDirty, l.hostLine n = false) →
      (∀ q ∈ s.requests, q.who ≠ .flip ctx page) →
      Replies (.flipCompletion ctx page) s .host 9 ctx 0 [] fun u =>
        u.flips = s.flips.filter (fun f => !(f.ctx == ctx && f.page == page)) ∧ u.mem = s.mem ∧
        (f.toHost = true → ∀ n ∈ u.hostLines, l.hostLine n = false))) ∧
  (∀ (ctx frame : Nat) (page : DWord) (bad : Option Nat) (c : Context) (l : Leaf) (s : State), s.context? ctx = some c →
    s.pageLeaf c page = some l → l.own = 1 → frame % l.bytes = 0 → frame + l.bytes ≤ s.memBytes →
    s.frozen ctx (l.page page) = false → s.migs = [] →
    (l.hostBias = true → (s.conn .host).down = false → ∃ u, exec (.pageMigration ctx page frame bad) s = .next u ∧
      u.migs = [⟨ctx, l.page page, frame, bad, .asked⟩] ∧ u.mem = s.mem ∧
      u.outbox = s.outbox ++ [⟨.host, 10, 0xFF, false, 0, 0, natLe 8 l.frame ++ [0], []⟩]) ∧
    (l.hostBias = false → bad = none → s.held = [] → (∀ n, l.hostLine n = true → n ∈ s.hostLines) →
      (∀ k ∈ s.hostPoison, l.hostLine (k / 2) = false) → s.mem.wf = true → s.pageBusy ctx l (l.page page) = false →
      l.entry + 8 ≤ frame ∨ frame + l.bytes ≤ l.entry → s.pageLeaf c (l.page page) = some l →
      ∃ u, exec (.pageMigration ctx page frame bad) s = .next u ∧ u.migs = [] ∧
        u.outbox = s.outbox ++ [⟨.host, 13, ctx, false, 0, 0, natLe 8 (l.page page).toNat ++ natLe 8 frame, []⟩] ∧
        (∀ k, k < l.bytes → u.mem.get (frame + k) = s.hostMem.get (l.frame + k)) ∧
        efld (u.entryAt l.entry) 62 2 = 0 ∧ efld (u.entryAt l.entry) 61 1 = 0 ∧
        (∀ a, a < frame ∨ frame + l.bytes ≤ a → a < l.entry ∨ l.entry + 8 ≤ a → u.mem.get a = s.mem.get a) ∧
        ∀ n ∈ u.hostLines, l.hostLine n = false)) ∧
  (∀ (h : MsgHdr) (ctx : Nat) (page : DWord) (m : Migration) (s s1 : State), s.takeReply h = (s1, true) →
    m ∈ s1.migs → m.ctx = ctx → m.page = page → m.stage = .asked →
    ∃ u, exec (.flipreqReply h ⟨ctx, page⟩) s = .next u ∧ u.flips = s1.flips ++ [⟨ctx, page, false, false, true⟩] ∧
      u.mem = s.mem ∧ ∀ k ∈ u.migs, k.ctx = ctx → k.page = page → k.stage = .flipping) ∧
  (∀ (core ctx : Nat) (va : DWord) (c : Context) (s : State), s.context? ctx = some c →
    let root := (c.l0 + 8 * tableIndex va 0) / 128
    let mine (t : State) := t.walkers.find? fun w => w.core == core && w.ctx == ctx && w.va == va
    let i : Instr := .walkerFill core ⟨ctx, va⟩
    (∃ u, exec i s = .next u ∧ { u with tdir := s.tdir, walkers := s.walkers } = s) ∧
    ((∀ w, mine s = some w → s.marked core w.line = false) →
      ∃ u, exec i s = .next u ∧ u.marked core root = true ∧ mine u = some ⟨core, ctx, va, 0, root, []⟩) ∧
    (∀ w, mine s = some w → s.marked core w.line = true → w.bytes = [] →
      ∃ u, exec i s = .next u ∧ u.tdir = s.tdir ∧ mine u = some { w with bytes := s.mem.read (128 * w.line) 128 }) ∧
    (∀ w, mine s = some w → s.marked core w.line = true → w.bytes ≠ [] →
      (s.nextLine w = none → ∃ u, exec i s = .next u ∧ mine u = none ∧ u.marked core w.line = false ∧
        u.tdir.any (fun t => t.line == w.line && t.sharers.contains core) = true) ∧
      ∀ n, s.nextLine w = some n → ∃ u, exec i s = .next u ∧ u.marked core n = true ∧
        mine u = some ⟨core, ctx, va, w.level + 1, n, []⟩ ∧
        ((s.tdir.any (·.line == n)) = true →
          u.tdir.any (fun t => t.line == w.line && t.sharers.contains core) = true))) ∧
  (∀ (h : MsgHdr) (req stat : Nat) (data : List Byte) (q : Request) (s s1 : State), s.takeReply h = (s1, true) →
    s1.held = [] → s1.migs = [] → s1.requests.find? (fun q => q.id == req && q.conn == .host) = some q →
    ∃ u, exec (.hostLineReply h req ⟨stat, data⟩) s = .next u ∧ u.requests = s1.requests.filter (·.id != req) ∧ u.mem = s.mem ∧
      (∀ r idx g, q.who = .group r idx → s1.group? r = some g → idx ∈ g.fwdOpen →
        u.group? r = some { g with fwd := g.fwd ++ [⟨idx, stat, data⟩], fwdOpen := g.fwdOpen.filter (· != idx) }) ∧
      (∀ line, q.fetch = some line → stat = 0 → data.length = 128 → s1.hostLines.contains line = false →
        s1.hostMem.wf = true → line ∈ u.hostLines ∧ u.hostMem.read (128 * line) 128 = data)) ∧
  (∀ (core : Nat) (s : State), (s.contexts.map (·.num)).Nodup → core < 4096 →
    ∃ u, exec (.logicalClockAdvance core) s = .next u ∧ { u with clocks := s.clocks } = s ∧
    ∀ c k, k < 4096 → u.clockOf c k =
      if k = core ∧ (s.contexts.any (·.num == c)) = true then s.clockOf c k + 1 else s.clockOf c k) ∧
  (∀ (ctx hd : Nat) (c : Context) (s : State), s.context? ctx = some c → c.recMode ≠ 0 → c.maniStall ≠ 0 →
    s.maniCount c 0x10 = some hd → (s.teams.map (·.tid)).Nodup →
    let waits (r : GRef) (g : Group) : Prop := ∃ t, s.team? r.tid = some t ∧ t.ctx = ctx ∧ s.group? r = some g ∧
      g.wait = .manifest ∧ g.priv = false
    let trap : Trap := ⟨.manifestStall, 0, .ofNat 64 hd⟩
    ((∃ r g, waits r g) → ∃ u, exec (.manifestStall ctx) s = .next u ∧ u.mem = s.mem ∧
      ∀ r g, s.group? r = some g → (waits r g → g.doneAway = false → u.group? r = some (g.trapped trap)) ∧
        (waits r g → g.doneAway = true → g.ended = false →
          u.group? r = some { g with trapDue := g.trapDue <|> some trap }) ∧ (¬ waits r g → u.group? r = some g)) ∧
    ((∀ r g, ¬ waits r g) →
      (∀ t ∈ s.teams, t.ctx = ctx → ∀ g, t.groups[0]? = some g → g.priv = false) →
      ∃ u, exec (.manifestStall ctx) s = .next u ∧ u.mem = s.mem ∧
      ∀ t g, s.team? t.tid = some t → t.ctx = ctx → (s.heldRay t = true ∨ ∃ o ∈ s.ops, o.tid = t.tid ∧ s.heldOp ctx o = true) →
        t.groups[0]? = some g → g.ended = false → g.trapDue = none →
        u.group? ⟨t.tid, 0⟩ = some { g with trapDue := some trap })) ∧
  (∀ (r : GRef) (s : State), s.waitOf r = .manifest →
    exec (.replayMatch (.group r)) s = .next { s with turns := r :: s.turns })

/-- R372 to R375, R377 to R379, R349, R358: host and peer messages, each performed as it is taken because nothing is held
before it; the accesses of a recording context meet no race. The atomics that a PFWD may carry are log entry 12's choice, 0xFFFF for
a peer's broken header entry 30's, that DRAIN and SUPPLY answer 3 before anything else entry 51's, and how a PRED is matched with its
descriptor and held entry 16's. -/
def Obligations.HostAndPeerMessages : Prop :=
  -- a recording context's lines have been used by nobody since the last record
  let raceless (s1 : State) (c : Context) : Prop := c.recMode = 1 → ∀ m ∈ s1.lines, m.touches = []
  -- bytes written at an address whose lines are all held by the package, unpoisoned, and the package that holds them
  let open_ (s1 : State) (c : Context) (loc : DWord → Loc) (va : DWord) (n : Nat) : Prop := ∀ p ∈ linePieces va n,
    (View.dest ⟨s1, c, []⟩ p.1 p.2).Gives (.here (loc p.1)) ∧ s1.poisonedAt (loc p.1) p.2 = false
  let put (loc : DWord → Loc) (s : State) (va : DWord) (bs : List Byte) : State := (linePieces va bs.length).foldl
    (fun (s : State) p => s.putBytes (loc p.1) ((bs.drop (p.1.toNat - va.toNat)).take p.2)) s
  -- a read of n bytes and a write of bytes by a message of a kind, taken into `s1` for the context `c`
  let servesRead (i : Instr) (s s1 : State) (c : Context) (conn : ConnId) (kind ctx : Nat) (va : DWord) (n : Nat) : Prop :=
    ∀ bs, s1.held = [] → raceless s1 c → s1.ownedElsewhere c kind va n .read = false →
      (View.read ⟨s1, c, []⟩ va n).Gives bs →
      Replies i s conn kind ctx 0 bs fun u => u.mem = s.mem ∧ u.hostMem = s.hostMem ∧ u.held = []
  let servesWrite (i : Instr) (s s1 : State) (c : Context) (conn : ConnId) (kind ctx : Nat) (va : DWord) (bs : List Byte) : Prop :=
    ∀ loc : DWord → Loc, s1.held = [] → raceless s1 c → s1.ownedElsewhere c kind va bs.length .write = false →
      open_ s1 c loc va bs.length → Unstaged s1 c →
      Replies i s conn kind ctx 0 [] fun u =>
        u.mem = (put loc s va bs).mem ∧ u.hostMem = (put loc s va bs).hostMem ∧ u.held = []
  (∀ (h : MsgHdr) (win off len units max kind : Nat) (base : DWord) (data : List Byte) (recs : List (List Byte))
      (s s1 : State) (c : Context),
    (Heard s s1 h (.wopen win base units) c →
      (15 < win ∨ base.toNat % 65536 ≠ 0 ∨ canonical base = false →
        exec (.wopen h win base units) s = .next (s1.answerHost h 6 1 [])) ∧
      (win ≤ 15 → base.toNat % 65536 = 0 → canonical base = true → Replies (.wopen h win base units) s .host 6 h.ctx 0 []
        fun u => u.mem = s.mem ∧ ∃ x, u.context? h.ctx = some x ∧ { x with windows := c.windows } = c ∧
          ∀ k, x.windows.find? (·.win == k) = if k = win then (if units = 0 then none else some ⟨win, base, 65536 * units⟩)
            else c.windows.find? (·.win == k))) ∧
    (Heard s s1 h (.wread win off len) c →
      (∀ st, c.windowAt win off len = .error st → exec (.wread h win off len) s = .next (s1.answerHost h 7 st [])) ∧
      ∀ va, c.windowAt win off len = .ok va → servesRead (.wread h win off len) s s1 c .host 7 h.ctx va len) ∧
    (Heard s s1 h (.wwrite win off data) c →
      (∀ st, c.windowAt win off data.length = .error st →
        exec (.wwrite h win off data) s = .next (s1.answerHost h 8 st [])) ∧
      ∀ va, c.windowAt win off data.length = .ok va →
        servesWrite (.wwrite h win off data) s s1 c .host 8 h.ctx va data) ∧
    (∀ ring, Heard s s1 h (.drain ring max) c → s1.held = [] →
      let drains (cap : Nat) (block base : DWord) (log size : Nat) : Prop :=
        ∀ (hd t : Nat) (parts : List (List Byte)) (loc : DWord → Loc), raceless s1 c → Unstaged s1 c →
          (drainCounts ⟨s1, c, []⟩ block).Gives (some (hd, t)) → parts.length = Nat.min (Nat.min max cap) (hd - t) →
          (∀ i, i < parts.length →
            (View.read ⟨s1, c, []⟩ (base + .ofNat 64 (size * ((t + i) % 2 ^ log))) size).Gives (parts.getD i [])) →
          open_ s1 c loc (block + 0x18) 8 →
          Replies (.drain h ring max) s .host 11 h.ctx 0 parts.flatten fun u =>
            u.mem = (put loc s (block + 0x18) (natLe 8 (t + parts.length))).mem ∧ u.held = []
      (1 < ring → Replies (.drain h ring max) s .host 11 h.ctx 0xFFFF [] fun u => u.mem = s.mem) ∧
      (ring = 0 → c.recMode ≠ 1 → Replies (.drain h ring max) s .host 11 h.ctx 3 [] fun u => u.mem = s.mem) ∧
      (ring = 0 → c.recMode = 1 → drains 32 c.mani c.maniBase c.maniLog 32) ∧
      (∀ x, ring = 1 → (wantRing ⟨s1, c, []⟩).Gives (some x) → drains 64 c.wpr x.base x.log 16)) ∧
    (Heard s s1 h (.supply recs) c →
      (32 < recs.length → exec (.supply h recs) s = .next (s1.answerHost h 12 0xFFFF [])) ∧
      (recs.length ≤ 32 → (∀ x ∈ recs, x.length = 32) → s1.held = [] →
        (c.recMode ≠ 2 → Replies (.supply h recs) s .host 12 h.ctx 3 [] fun u => u.mem = s.mem) ∧
        ∀ hd t, c.recMode = 2 → (drainCounts ⟨s1, c, []⟩ c.mani).Gives (some (hd, t)) →
          (2 ^ c.maniLog < t - hd + recs.length →
            Replies (.supply h recs) s .host 12 h.ctx 1 [] fun u => u.mem = s.mem) ∧
          let writes := recs.zipIdx.map (fun (r, i) => (c.recordAddr (t + i), r)) ++
            [(c.mani + 0x18, natLe 8 (t + recs.length))]
          ∀ loc : DWord → Loc, t - hd + recs.length ≤ 2 ^ c.maniLog → Unstaged s1 c →
            (∀ w ∈ writes, open_ s1 c loc w.1 w.2.length) →
            Replies (.supply h recs) s .host 12 h.ctx 0 [] fun u =>
              u.mem = (writes.foldl (fun s w => put loc s w.1 w.2) s).mem ∧ u.held = [])) ∧
    (Taken s s1 h (.unknownMessage kind) →
      exec (.unknownMessage h kind) s = .next (s1.answerHost h kind 0xFFFF []))) ∧
  (∀ (h : PeerHdr) (va : DWord) (n kind major op type mode : Nat) (high : Bool) (x : Contribution) (data : List Byte)
      (s s1 : State) (c : Context), HeardPeer s s1 h c →
    let conn : ConnId := .peer h.dev
    let inLine (n : Nat) : Prop := 1 ≤ n ∧ va.toNat % 128 + n ≤ 128
    (transferLength data.length = true → servesWrite (.pput h va data) s s1 c conn 32 h.ctx va data) ∧
    (transferLength data.length = false → exec (.pput h va data) s = .next (s1.answerPeer h 32 0xFFFF [])) ∧
    (transferLength n = true → servesRead (.pget h va n) s s1 c conn 33 h.ctx va n) ∧
    (transferLength n = false → exec (.pget h va n) s = .next (s1.answerPeer h 33 0xFFFF [])) ∧
    (inLine n → servesRead (.pfwd h va (.read n) data) s s1 c conn 35 h.ctx va n) ∧
    (inLine data.length → servesWrite (.pfwd h va .write data) s s1 c conn 35 h.ctx va data) ∧
    (∀ l, s1.held = [] → raceless s1 c → Unstaged s1 c → s1.ownedElsewhere c 35 va 1 .write = false →
      s1.locOf c va .write = .ok l → s1.inUse l 1 = false →
      (s1.poisonedAt l 1 = false → data.length = 1 →
        let old := bytesAt (s.bytesAtLoc l 1) 0 1
        let new := if high then old % 16 + 16 * (bytesAt data 0 1 % 16) else old / 16 * 16 + bytesAt data 0 1 % 16
        let t := s.putBytes l [.ofNat 8 new]
        Replies (.pfwd h va (.nibble high) data) s conn 35 h.ctx 0 [] fun u => u.mem = t.mem ∧ u.hostMem = t.hostMem) ∧
      Replies (.pfwd h va .spoil data) s conn 35 h.ctx 0 [] fun u =>
        u.mem = s.mem ∧ u.hostMem = s.hostMem ∧ u.poisonedAt l 1 = true) ∧
    (∀ size k l, atomicBytes major op type = some (size, k) → data.length = k → va.toNat % size = 0 → s1.held = [] →
      s1.ownedElsewhere c 35 va size .rmw = false → s1.locOf c va .rmw = .ok l → s1.poisonedAt l size = false →
      s1.inUse l size = false → Unstaged s1 c →
      let old := s.bytesAtLoc l size
      let t := s.putBytes l (remoteAtomic major op type mode data old)
      Replies (.pfwd h va (.atomic major op type mode) data) s conn 35 h.ctx 0 old fun u =>
        u.mem = t.mem ∧ u.hostMem = t.hostMem) ∧
    (x.elems.length < 1 ∨ 256 < x.elems.length → exec (.pred h x) s = .next (s1.answerPeer h 34 0xFFFF [])) ∧
    (1 ≤ x.elems.length → x.elems.length ≤ 256 → s1.held = [] → c.recMode = 0 →
      ∀ (j : MsgJob) (loc : DWord → Loc), (contributeJob ⟨s1, c, []⟩ h.dev x).Gives j →
        (∀ w ∈ j.writes, open_ s1 c loc w.1 w.2.length) →
        let t := (j.writes.foldl (fun s w => put loc s w.1 w.2) s1).armWrites c (j.writes.map fun w => (w.1, w.2.length))
        Replies (.pred h x) s conn 34 h.ctx j.stat [] fun u =>
          u.mem = t.mem ∧ u.hostMem = t.hostMem ∧ u.inbound = (j.after s1).inbound) ∧
    (kind = 36 ∨ kind = 37 → exec (.peerReservedKind h kind) s = .next s1) ∧
    (kind ≠ 36 → kind ≠ 37 → exec (.peerReservedKind h kind) s = .next (s1.answerPeer h kind 0xFFFF []))) ∧
  (∀ (h : MsgHdr) (k : PeerHdr) (w : DiscardReason) (a b : Nat) (va : DWord) (data : List Byte) (x : Contribution)
      (f : FwdKind) (s s1 : State),
    (∀ i kind, (i, kind) ∈ [(Instr.wopen h a va b, 6), (.wread h a b b, 7), (.wwrite h a b data, 8), (.drain h a b, 11),
        (.supply h [data], 12), (.unknownMessage h a, a), (.flip h va true, 9), (.launchMessage h data, 1)] →
      s.takeHost h kind = (s1, false) → exec i s = .next s1) ∧
    (s.takePeer k = (s1, false) → ∀ i ∈ [Instr.pput k va data, .pget k va a, .pred k x, .pfwd k va f data,
      .peerReservedKind k a, .peerReply k a ⟨b, data⟩], exec i s = .next s1) ∧
    (s.takePeer k = (s1, true) → headerBad k.ver k.len = true →
      ∀ i kind, (i, kind) ∈ [(Instr.pput k va data, 32), (.pget k va a, 33), (.pred k x, 34), (.pfwd k va f data, 35)] →
        exec i s = .next (s1.answerPeer k kind 0xFFFF [])) ∧
    exec (.frameDiscard w) s = .next s) ∧
  (∀ (h : PeerHdr) (req stat : Nat) (data : List Byte) (q : Request) (s s1 : State), s.takePeer h = (s1, true) →
    headerBad h.ver h.len = false → s1.held = [] → s1.migs = [] →
    s1.requests.find? (fun q => q.id == req && q.conn == .peer h.dev) = some q →
    ∃ u, exec (.peerReply h req ⟨stat, data⟩) s = .next u ∧ u.requests = s1.requests.filter (·.id != req) ∧ u.mem = s.mem ∧
      ∀ r idx g, q.who = .group r idx → s1.group? r = some g → idx ∈ g.fwdOpen →
        u.group? r = some { g with fwd := g.fwd ++ [⟨idx, stat, data⟩], fwdOpen := g.fwdOpen.filter (· != idx) }) ∧
  (∀ (id : ConnId) (s : State), (s.conn id).queue ≠ [] → (s.conn id).down = false →
    ((s.conn id).retries < 16 → ∃ u, exec (.retransmitTimeout id) s = .next u ∧
      { u with conns := s.conns, wire := s.wire } = s ∧
      u.wire = s.wire ++ (s.conn id).queue.map (fun f => { f with ack := (s.conn id).expect }) ∧
      ∀ k, u.conn k = if k = id then { s.conn k with retries := (s.conn k).retries + 1 } else s.conn k) ∧
    (16 ≤ (s.conn id).retries → s.held = [] → s.migs = [] → s.events.length < Config.evRing →
      ∃ u e, exec (.connectionDown id) s = .next u ∧ (u.conn id).down = true ∧ (∀ q ∈ u.requests, q.conn ≠ id) ∧
        u.mem = s.mem ∧ u.events = s.events ++ [e] ∧ e.ctx = 0xFF ∧ e.kind = (match id with | .host => 2 | .peer _ => 3)))

/-- R307, R308, R377, R394, R395, R397, R398, R400, R402 to R405: management. That CREATE answers 3 whatever its descriptor holds is
log entry 52's choice, that FWCOMMIT without an image answers 1 entry 58's, what makes a core busy entry 55's, and the key, the bytes of
the certificate and the salt are entries 5 and 20. -/
def Obligations.ManagementOperations : Prop :=
  ∀ (h : MsgHdr) (s s1 : State), Taken s s1 h .fwcommit →
    let answers (i : Instr) (st : Nat) (data : List Byte) : Prop := exec i s = .next (s1.mgmtReply h st data)
    let acts (i : Instr) (data : List Byte) (P : State → Prop) : Prop := Replies i s .host 14 0xFF 0 data P
    (∀ (a b n : Nat) (w : Word) (pad : BitVec 48) (root : DWord) (bs : List Byte),
      let marked : List Instr := [.create h a b pad root bs, .destroy h a, .jobset h a b root, .migset h w, .errdrain h a b,
        .evdrain h a, .worldb h a b n, .worldr h a b n, .repair h a b, .pwrlim h a]
      (s1.boot.recov = false → h.secure = false → (∀ i ∈ marked, answers i 2 []) ∧
        answers (.fwload h a bs) 2 [] ∧ answers (.fwcommit h) 2 []) ∧
      (s1.boot.recov = true → (∀ i ∈ marked, answers i 2 []) ∧ answers (.cert h a b) 2 [] ∧ answers (.quote h bs) 2 [] ∧
        answers (.mgmtUnknownOp h a) 2 [])) ∧
    (s1.boot.recov = false → ∀ n, answers (.mgmtUnknownOp h n) 1 []) ∧
    (∀ n k die,
      (1 ≤ k → k ≤ 256 → answers (.disc h n k) 0 (wordBytes ((List.range k).map fun i => s1.discWord (n + i)))) ∧
      (die ≤ 8 → answers (.health h die) 0 ((s1.healthOf die).bytes die))) ∧
    (s1.boot.recov = false → ∀ n k nonce,
      (1 ≤ k → k ≤ 1016 → answers (.cert h n k) 0 ((List.range k).map fun i => Config.certByte identityPub (n + i))) ∧
      (nonce.length = 64 → ∃ salt : List Byte, salt.length = 64 ∧
        let bs := ({ s1 with quotes := s1.quotes + 1 } : State).quoteBytes nonce
        acts (.quote h nonce) (bs ++ pssSign Config.identityModulus Config.identityExponent bs salt) fun u =>
          u.quotes = s.quotes + 1 ∧ u.mem = s.mem)) ∧
    (h.secure = true →
      (∀ off data, data.length ≤ 1012 →
        (off + data.length ≤ Config.fwBytes → acts (.fwload h off data) [] fun u => u.fwStage = s.fwStage.write off data) ∧
        (Config.fwBytes < off + data.length → answers (.fwload h off data) 1 [])) ∧
      (s.fwStage.signedImage = false → answers (.fwcommit h) 1 []) ∧
      (s.fwStage.signedImage = true → s.fwStage.word 8 < s.svn → answers (.fwcommit h) 4 []) ∧
      (s.fwStage.signedImage = true → s.svn ≤ s.fwStage.word 8 →
        acts (.fwcommit h) [] fun u => u.fwFlash = some (s.fwStage, s.fwStage.word 8) ∧ u.svn = s.svn)) ∧
    (s1.boot.recov = false → h.secure = true →
      (∀ ctx world pad root desc,
        ((s1.context? ctx).isSome = true → desc.length = 128 → answers (.create h ctx world pad root desc) 3 []) ∧
        (s1.context? ctx = none → desc.length = 128 → ctx < Config.contexts → world ≤ 1 → pad = 0 →
          (s1.described ctx (world == 1) root desc = none → answers (.create h ctx world pad root desc) 1 []) ∧
          ∀ c, s1.described ctx (world == 1) root desc = some c →
            acts (.create h ctx world pad root desc) [] fun u =>
              u.contexts = s.contexts ++ [c] ∧ u.mem = s.mem ∧ c.num = ctx ∧ c.secure = (world == 1) ∧
              c.l0 = root.toNat ∧ c.nextSerial = 1 ∧ c.recMode = bytesAt desc 0 4 ∧ c.code = .ofNat 64 (bytesAt desc 8 8) ∧
              c.const = .ofNat 64 (bytesAt desc 0x10 8) ∧ c.save = .ofNat 64 (bytesAt desc 0x20 8) ∧
              u.meas = s.meas.modify 3 fun m =>
                extend m (natLe 1 ctx ++ natLe 1 world ++ natLe 6 0 ++ natLe 8 root.toNat ++ desc))) ∧
      (∀ ctx, (s1.context? ctx = none → answers (.destroy h ctx) 1 []) ∧
        ((s1.context? ctx).isSome = true → s1.held = [] → ∃ u told, exec (.destroy h ctx) s = .next u ∧
          u.outbox = s.outbox ++ told ++ [⟨.host, 14, 0xFF, true, 0, 0, [], []⟩] ∧ u.context? ctx = none ∧
          (∀ c, s1.context? ctx = some c → c.frames = [] → u.mem = s.mem) ∧
          (∀ t ∈ u.teams ++ u.saved, t.ctx ≠ ctx) ∧ (∀ x ∈ u.grids, x.ctx ≠ ctx) ∧ (∀ o ∈ u.ops, o.ctx ≠ ctx) ∧
          (∀ x ∈ u.rays, x.ctx ≠ ctx) ∧ (∀ x ∈ u.conts, x.bin.ctx ≠ ctx) ∧ ∀ x ∈ u.convoys, x.ctx ≠ ctx)) ∧
      (∀ index ndev pre, (1 ≤ ndev → ndev ≤ 786432 → index < ndev →
          acts (.jobset h index ndev pre) [] fun u => u.job = ⟨index, ndev, pre⟩ ∧ u.mem = s.mem) ∧
        (ndev = 0 ∨ 786432 < ndev ∨ ndev ≤ index → answers (.jobset h index ndev pre) 1 [])) ∧
      (∀ w, acts (.migset h w) [] fun u => u.migctl = w &&& 0x1F ∧ u.mem = s.mem) ∧
      (∀ die k, die ≤ 8 → 1 ≤ k → k ≤ 32 →
        acts (.errdrain h die k) (((s.errsOf die).take k).flatMap ErrRec.bytes) fun u =>
          u.errsOf die = (s.errsOf die).drop k ∧ (∀ d, d ≠ die → u.errsOf d = s.errsOf d) ∧ die ∉ u.errWarned) ∧
      (∀ k, 1 ≤ k → k ≤ 32 →
        acts (.evdrain h k) ((s.events.take k).flatMap EvRec.bytes) fun u => u.events = s.events.drop k) ∧
      (∀ idx world, idx < Config.cores → s.coreEnabled idx = true → world ≤ 1 →
        (s.coreBusy idx = true → answers (.worldb h 0 idx world) 3 []) ∧
        (s.coreBusy idx = false → acts (.worldb h 0 idx world) [] fun u => (idx ∈ u.secCores ↔ world = 1) ∧
          (∀ k, k ≠ idx → (k ∈ u.secCores ↔ k ∈ s.secCores)) ∧ (∀ b ∈ u.bricks, b.core ≠ idx) ∧ u.mem = s.mem)) ∧
      (∀ idx world, idx < 16 → idx ∉ s.disabled.ports → world ≤ 1 → s1.portBusy idx = false →
        acts (.worldb h 1 idx world) [] fun u => (idx ∈ u.secPorts ↔ world = 1) ∧
          ∀ k, k ≠ idx → (k ∈ u.secPorts ↔ k ∈ s.secPorts)) ∧
      (∀ first count world, 1 ≤ count → count ≤ 65536 → world ≤ 1 → 2097152 * (first + count) ≤ s.memBytes → s1.held = [] →
        s1.inUse (.dev (2097152 * first)) (2097152 * count) = false →
        acts (.worldr h first count world) [] fun u =>
          (∀ a, u.mem.get a = if 2097152 * first ≤ a ∧ a < 2097152 * (first + count) then 0 else s.mem.get a) ∧
          ∀ k, k ∈ u.secRegions ↔ if first ≤ k ∧ k < first + count then world = 1 else k ∈ s.secRegions) ∧
      (∀ kind idx, (kind = 0 ∧ idx < Config.cores) ∨ (kind = 1 ∧ idx < Config.dies) ∨ (kind = 2 ∧ idx < Config.channels) ∨
          (kind = 3 ∧ idx < 16) →
        acts (.repair h kind idx) [] fun u => u.disabled = s.disabled ∧ ∀ k n, n ∈ u.softFused.lists.getD k [] ↔
          n ∈ s.softFused.lists.getD k [] ∨ (k = kind ∧ n = idx)) ∧
      (∀ watts, (1000 ≤ watts → watts ≤ 4800 → acts (.pwrlim h watts) [] fun u => u.pwrLimit = watts) ∧
        (watts < 1000 ∨ 4800 < watts → answers (.pwrlim h watts) 1 [])))

/-- R391, R392, R394, R398, R399, R407 to R409: what nature and the board do. What a reset and a trip keep is log entry 59's reading,
and STEP, RECOV and READY of a failed bring-up entry 60's. -/
def Obligations.ErrorsWearAndPower : Prop :=
  (∀ (die src loc a : Nat) (syn : Word) (s : State), exec (.scrub (.clean a)) s = .next s ∧
    ((s.errsOf die).length < Config.errRing →
      let record (u : State) (sev : Nat) : Prop := ∃ e, u.errRings = s.errRings ++ [(die, e)] ∧ e.sev = sev ∧ e.src = src ∧
        e.loc = loc ∧ e.addr = .ofNat 64 (a / 64 * 64) ∧ e.det = syn ∧ e.count = 1
      ((∀ e ∈ s.errsOf die, e.sev = 0 → e.src = src → e.loc = loc → e.addr ≠ .ofNat 64 (a / 64 * 64)) →
        ∃ u, exec (.scrub (.corrected die src loc a syn)) s = .next u ∧ record u 0 ∧ u.mem = s.mem ∧ u.poison = s.poison) ∧
      (∃ u, exec (.scrub (.uncorrectable die src loc (.granule a) syn)) s = .next u ∧ record u 1 ∧ u.mem = s.mem ∧
        u.teams = s.teams ∧ ∀ g, g ∈ u.poison ↔ g ∈ s.poison ∨ g = a / 64) ∧
      ∃ u, exec (.scrub (.uncorrectable die src loc (.hostGranule a) syn)) s = .next u ∧ record u 1 ∧
        u.hostMem = s.hostMem ∧ u.teams = s.teams ∧ ∀ g, g ∈ u.hostPoison ↔ g ∈ s.hostPoison ∨ g = a / 64)) ∧
  (∀ (die : Nat) (m : Measured) (x : Health) (s : State), s.health[die]? = some x →
    ∃ u y, exec (.wearUpdate die m) s = .next u ∧ u.health[die]? = some y ∧ y.temp = m.temp ∧ y.vcore = m.vcore ∧
      y.pwr = m.pwr ∧ y.poh = x.poh + 1 ∧ y.hist.head? = some (m.rod, m.vmm, m.emc) ∧ y.eol = eolOf y.poh (y.readings die) ∧
      (∀ k, k ≠ die → u.health[k]? = s.health[k]?) ∧ u.mem = s.mem ∧ u.teams = s.teams) ∧
  (∀ s : State, s.powered = true → s.events.length < Config.evRing →
    (s.throttled = false → ∃ u e, exec .throttleBegin s = .next u ∧ u.throttled = true ∧ u.events = s.events ++ [e] ∧
      e.kind = 4 ∧ u.mem = s.mem ∧ u.teams = s.teams) ∧
    (s.throttled = true → ∃ u e, exec .throttleEnd s = .next u ∧ u.throttled = false ∧ u.events = s.events ++ [e] ∧
      e.kind = 5 ∧ u.mem = s.mem ∧ u.teams = s.teams)) ∧
  (∀ s : State,
    let lost (u : State) : Prop := u.mem = Memory.empty ∧ u.teams = [] ∧ u.saved = [] ∧ u.contexts = [] ∧ u.grids = [] ∧
      u.ops = [] ∧ u.rays = [] ∧ u.events = [] ∧ u.errRings = [] ∧ u.conns = [] ∧ u.meas = List.replicate 4 0 ∧
      u.fused = s.fused ∧ u.softFused = s.softFused ∧ u.svn = s.svn ∧ u.health = s.health ∧ u.fwFlash = s.fwFlash
    (∃ u, exec .thermalTrip s = .next u ∧ lost u ∧ u.tripped = true ∧ u.powered = false) ∧
    (∃ u, exec .resetAssert s = .next u ∧ lost u ∧ u.resetN = false ∧ u.powered = false) ∧
    exec .powerFault s = .next { s with pwrgd := false }) ∧
  (∀ (b : BringUp) (s : State), s.resetN = false ∨ (s.boot.step = 0 ∧ s.powered = true) →
    ∃ u, exec (.resetRelease b) s = .next u ∧ u.mem = Memory.empty ∧ u.teams = [] ∧ u.contexts = [] ∧ u.powered = true ∧
      u.strap = b.bootsel ++ b.modaddr ∧
      (∀ k n, n ∈ u.disabled.lists.getD k [] ↔ n ∈ s.fused.lists.getD k [] ∨ n ∈ s.softFused.lists.getD k []) ∧
      (b.fail = none ∨ b.fail = some 0 → u.boot = ⟨8, 0, b.bootsel != 0, true⟩ ∧ u.meas.length = 4) ∧
      (∀ f, b.fail = some f → f ≠ 0 → u.boot = ⟨stepBefore f.val, f.val, f.val == 1 || f.val == 2, f.val == 1 || f.val == 2⟩))

/-- R93, R346, R225, R226: a step of a group; the rotation of turns is the model's own (log entry 23), and so is that an
instruction whose owners have all answered goes on before anything else (log entry 13). -/
def Obligations.StepRunsTheDecodedInstruction : Prop :=
  let issues (w : Word) (i : Instr) (loc : Loc) (s : State) (r : GRef) (g : Group) : Prop := s.powered = true ∧
    s.group? r = some g ∧ g.ended = false ∧ (g.left = false ∨ savingTeam (s.teamOf r) = false) ∧
    (g.priv = true ∨ g.doneAway = true ∨ (g.preempt = none ∧ g.trapDue = none)) ∧ g.wait ≠ .marker ∧ g.fwdOpen = [] ∧
    Reaches s r .fetch 4 ((s.ctxOf (s.teamOf r)).codeAddr g) loc ∧ s.poisonedAt loc 4 = false ∧
    s.bytesAtLoc loc 4 = natLe 4 w.toNat ∧ decode w = .ok i
  (∀ (w : Word) (i : Instr) (loc : Loc) (s : State) (r : GRef) (g : Group), s.urgent = none → s.inbox = [] → s.cur = some r →
    issues w i loc s r g → g.inSet = true →
    (∀ t, exec i (s.fetched r g) = .next t → step s = .next ((t.parked r).passTurn r (s.place? r))) ∧
    (∀ e, exec i (s.fetched r g) = .fault e → step s = .fault e) ∧
    (∀ e, exec i (s.fetched r g) = .refused e → step s = .refused e)) ∧
  (∀ (w : Word) (i : Instr) (loc : Loc) (s : State) (r : GRef) (g : Group), s.urgent = some r → issues w i loc s r g →
    let s' : State := { s with cur := some r }
    (∀ t, exec i (s'.fetched r g) = .next t →
      step s = .next { t.parked r with cur := if s.cur = some r then (t.parked r).cur else s.cur }) ∧
    (∀ e, exec i (s'.fetched r g) = .fault e → step s = .fault e) ∧
    (∀ e, exec i (s'.fetched r g) = .refused e → step s = .refused e)) ∧
  (∀ (s : State) (r : GRef) (g : Group), s.group? r = some g → SameButTimes (s.fetched r g) s) ∧
  (∀ (i : Instr) (rest : List Instr) (s : State), s.urgent = none → s.inbox = i :: rest → encode i = none → s.powered = true →
    step s = exec i { s with inbox := rest })

/-- R58, R66 to R71, R73, R74: words written out from the tables. -/
def Obligations.SampleWordsDecode : Prop :=
  decode 0x00140000 = .ok (.exit false) ∧ decode 0x80140000 = .ok (.exit true) ∧
  decode 0x03001002 = .ok (.ifP false 1 2) ∧ decode 0x06000FF9 = .ok (.endloop false 0xFF9) ∧
  decode 0x0B000002 = .ok (.modet false false 0 2) ∧ decode 0x10941081 = .ok (.cmpGe false 1 2 1) ∧
  decode 0x11082001 = .ok (.addi false 2 2 1) ∧ decode 0x17041408 = .ok (.cmpiLt false 1 1 8) ∧
  decode 0x25FC0020 = .ok (.rdsys false 63 0x20) ∧ decode 0x300C8410 = .ok (.ld false 3 8 2 16) ∧
  decode 0x36200000 = .ok (.fencePkg false) ∧ decode 0x00280000 = .ok (.tret false) ∧
  decode 0x002C0000 = .ok (.xsave false 0) ∧ decode 0x00100FC0 = .ok (.brx false 63) ∧
  decode 0x7F000000 = .error (.illegal 0) ∧ decode 0x70000000 = .error .extension

/-- The invariant at reset (R404, R407, R409). That memory reads zero before step 5 of bring-up clears it is log entry 1's choice. -/
def Obligations.ResetSatisfiesTheInvariant : Prop :=
  State.reset.Inv = true ∧ State.reset.teams = [] ∧ State.reset.contexts = [] ∧ State.reset.grids = [] ∧
  State.reset.ops = [] ∧ (∀ a, State.reset.mem.get a = 0) ∧ State.reset.meas = [0, 0, 0, 0] ∧
  State.reset.boot.ready = false

/-- R58, R66 to R71, R73: the round trip, both ways. -/
def Obligations.DecodingInvertsEncoding : Prop :=
  (∀ (i : Instr) (w : Word), wellFormed i = true → encode i = some w → decode w = .ok i) ∧
  (∀ (i : Instr) (w : Word), decode w = .ok i → wellFormed i = true ∧ encode i = some w)

/-- R11, R12, R18, R20, R21, R61: what every step keeps. -/
def Obligations.StepKeepsTheInvariant : Prop :=
  ∀ s t : State, s.Inv = true → step s = .next t → t.Inv = true
end

