-- ==== Sys2Proof/Laws/Encoding.lean ====
section
/-! SUPPORT. The fields of an encoded word: what fld reads of each of the three formats of R58. -/
namespace Sys2Proof

variable {s : Bool} {major func d a b imm off : Nat}

/-- The value of a word of format RRR whose fields are in range. -/
theorem rrr_toNat (hm : major < 128) (hf : func < 64) (hd : d < 64) (ha : a < 64) (hb : b < 64) :
    (rrr s major func d a b).toNat =
      s.toNat * 2 ^ 31 + major * 2 ^ 24 + func * 2 ^ 18 + d * 2 ^ 12 + a * 2 ^ 6 + b := by
  have := Bool.toNat_le s
  simp only [rrr, BitVec.toNat_ofNat]
  omega

/-- The value of a word of format RRI whose fields are in range. -/
theorem rri_toNat (hm : major < 128) (hd : d < 64) (ha : a < 64) (hi : imm < 4096) :
    (rri s major d a imm).toNat = s.toNat * 2 ^ 31 + major * 2 ^ 24 + d * 2 ^ 18 + a * 2 ^ 12 + imm := by
  have := Bool.toNat_le s
  simp only [rri, BitVec.toNat_ofNat]
  omega

/-- The value of a word of format J whose fields are in range. -/
theorem jfm_toNat (hm : major < 128) (ho : off < 2 ^ 24) :
    (jfm s major off).toNat = s.toNat * 2 ^ 31 + major * 2 ^ 24 + off := by
  have := Bool.toNat_le s
  simp only [jfm, BitVec.toNat_ofNat]
  omega

/-- What each field of a word of format RRR reads. -/
theorem rrr_fields (hm : major < 128) (hf : func < 64) (hd : d < 64) (ha : a < 64) (hb : b < 64) :
    sb (rrr s major func d a b) = s ∧ fld (rrr s major func d a b) 24 7 = major ∧
    fld (rrr s major func d a b) 18 6 = func ∧ fld (rrr s major func d a b) 12 6 = d ∧
    fld (rrr s major func d a b) 6 6 = a ∧ fld (rrr s major func d a b) 0 6 = b := by
  have h := rrr_toNat (s := s) hm hf hd ha hb
  refine ⟨?_, ?_, ?_, ?_, ?_, ?_⟩
  · cases s
    · simp only [sb, fld, h, beq_eq_false_iff_ne, Bool.toNat_false]; omega
    · simp only [sb, fld, h, beq_iff_eq, Bool.toNat_true]; omega
  all_goals
    have := Bool.toNat_le s
    simp only [fld, h]
    omega

/-- What each field of a word of format RRI reads. -/
theorem rri_fields (hm : major < 128) (hd : d < 64) (ha : a < 64) (hi : imm < 4096) :
    sb (rri s major d a imm) = s ∧ fld (rri s major d a imm) 24 7 = major ∧
    fld (rri s major d a imm) 18 6 = d ∧ fld (rri s major d a imm) 12 6 = a ∧
    fld (rri s major d a imm) 0 12 = imm := by
  have h := rri_toNat (s := s) hm hd ha hi
  refine ⟨?_, ?_, ?_, ?_, ?_⟩
  · cases s
    · simp only [sb, fld, h, beq_eq_false_iff_ne, Bool.toNat_false]; omega
    · simp only [sb, fld, h, beq_iff_eq, Bool.toNat_true]; omega
  all_goals
    have := Bool.toNat_le s
    simp only [fld, h]
    omega

/-- What each field of a word of format J reads. -/
theorem jfm_fields (hm : major < 128) (ho : off < 2 ^ 24) :
    sb (jfm s major off) = s ∧ fld (jfm s major off) 24 7 = major ∧ fld (jfm s major off) 0 24 = off := by
  have h := jfm_toNat (s := s) hm ho
  refine ⟨?_, ?_, ?_⟩
  · cases s
    · simp only [sb, fld, h, beq_eq_false_iff_ne, Bool.toNat_false]; omega
    · simp only [sb, fld, h, beq_iff_eq, Bool.toNat_true]; omega
  all_goals
    have := Bool.toNat_le s
    simp only [fld, h]
    omega

/-- A register's number gives the register back. -/
@[simp] theorem vr_val (r : VReg) : vr r.val = r :=
  Fin.ext (Nat.mod_eq_of_lt r.isLt)
@[simp] theorem pr_val (r : PReg) : pr r.val = r :=
  Fin.ext (Nat.mod_eq_of_lt r.isLt)
@[simp] theorem br_val (r : BReg) : br r.val = r :=
  Fin.ext (Nat.mod_eq_of_lt r.isLt)
@[simp] theorem hr_val (r : HReg) : hr r.val = r :=
  Fin.ext (Nat.mod_eq_of_lt r.isLt)

/-- A check of R73 that nothing fails. -/
@[simp] theorem chk_none (i : Instr) : chk false false false false i = .ok i := rfl

end Sys2Proof
end

