-- ==== Sys2Proof/Laws/Readers.lean ====
section
/-! SUPPORT. What a reader gives does not depend on what has been read before: a reader run after a log does what it does from
the empty log, and notes it after what the log holds. -/
namespace Sys2Proof.Machine

/-- What has been read, then what is read. -/
def RdLog.after (a b : RdLog) : RdLog := ⟨a.reads ++ b.reads, a.bad <|> b.bad, a.cut || b.cut⟩
theorem RdLog.after_assoc (a b c : RdLog) : (a.after b).after c = a.after (b.after c) := by
  cases a with | mk r x k => cases x <;> simp [RdLog.after, Bool.or_assoc]
theorem RdLog.after_none (a : RdLog) : a.after ⟨[], none, false⟩ = a := by
  cases a with | mk r x k => cases x <;> simp [RdLog.after]

/-- The reader does the same after any log. -/
def Rd.Steady {α : Type} (x : Rd α) : Prop :=
  ∀ log, StateT.run x log = (StateT.run x ⟨[], none, false⟩).map fun p => (p.1, log.after p.2)

variable {α β : Type}

theorem steady_pure (a : α) : Rd.Steady (pure a : Rd α) := fun log => by
  simp [Except.map, RdLog.after_none, pure, Except.pure, StateT.run, StateT.pure]
theorem steady_throw (e : RdFail) : Rd.Steady (throw e : Rd α) := fun _ => rfl
theorem steady_noted (xs : List (DWord × Nat)) (a : α) :
    Rd.Steady (do modify fun log : RdLog => { log with reads := log.reads ++ xs }; return a : Rd α) := fun log => by
  cases log with | mk r x k => cases x <;> cases k <;> rfl
theorem steady_bind {x : Rd α} {f : α → Rd β} (hx : Rd.Steady x) (hf : ∀ a, Rd.Steady (f a)) : Rd.Steady (x >>= f) := fun log => by
  rw [StateT.run_bind, StateT.run_bind, hx log]
  cases StateT.run x ⟨[], none, false⟩ with
  | error e => rfl
  | ok p =>
    show StateT.run (f p.1) (log.after p.2) = (StateT.run (f p.1) p.2).map _
    rw [hf p.1 (log.after p.2), hf p.1 p.2]
    cases StateT.run (f p.1) ⟨[], none, false⟩ with
    | error e => rfl
    | ok q => simp [Except.map, RdLog.after_assoc]
theorem steady_try {x : Rd α} (hx : Rd.Steady x) : Rd.Steady x.try := fun log => by
  have h (l : RdLog) : StateT.run x.try l = match StateT.run x l with
      | .ok (a, log) => .ok (.ok a, log)
      | .error e => .ok (.error e, l) := rfl
  rw [h, h, hx log]
  cases StateT.run x ⟨[], none, false⟩ with
  | error e => simp [Except.map, RdLog.after_none]
  | ok p => rfl
theorem steady_mapM {f : α → Rd β} (hf : ∀ a, Rd.Steady (f a)) : ∀ l : List α, Rd.Steady (l.mapM f)
  | [] => by rw [List.mapM_nil]; exact steady_pure _
  | a :: l => by
    rw [List.mapM_cons]
    exact steady_bind (hf a) fun _ => steady_bind (steady_mapM hf l) fun _ => steady_pure _

theorem steady_mapM_mem {f : α → Rd β} : ∀ l : List α, (∀ a ∈ l, Rd.Steady (f a)) → Rd.Steady (l.mapM f)
  | [], _ => by rw [List.mapM_nil]; exact steady_pure _
  | a :: l, h => by
    rw [List.mapM_cons]
    exact steady_bind (h a (by simp)) fun _ => steady_bind (steady_mapM_mem l fun x hx => h x (by simp [hx])) fun _ => steady_pure _

/-! ## The readers of the model -/

theorem settled_steady {x : Rd α} (hx : Rd.Steady x) : Rd.Steady (settled x) :=
  steady_bind (steady_try hx) fun y => by
    split
    · exact steady_throw _
    · exact steady_throw _
    · exact steady_pure _
theorem all_steady {xs : List (Rd α)} (h : ∀ x ∈ xs, Rd.Steady x) : Rd.Steady (Rd.all xs) :=
  steady_bind (steady_mapM_mem xs fun x hx => settled_steady (h x hx)) fun ys => by
    split
    · exact steady_throw _
    · exact steady_pure _

theorem readIn_steady (v : View) (va : DWord) (n : Nat) (k : AccKind) : Rd.Steady (v.readIn va n k) := by
  unfold View.readIn
  dsimp only
  repeat' split
  all_goals first | exact steady_throw _ | exact steady_noted _ _
theorem read_steady (v : View) (va : DWord) (n : Nat) : Rd.Steady (v.read va n) :=
  steady_bind (all_steady fun x hx => by
    obtain ⟨p, -, rfl⟩ := List.mem_map.mp hx
    exact readIn_steady _ _ _ _) fun _ => steady_pure _
theorem resourceBytes_steady (v : View) (va : DWord) : Rd.Steady (v.resourceBytes va) := by
  unfold View.resourceBytes
  dsimp only
  split
  · exact steady_bind (steady_throw _) fun _ => steady_bind (read_steady _ _ _) fun bs => by
      split
      · exact steady_pure _
      · exact steady_bind (all_steady fun x hx => by
          obtain ⟨p, -, rfl⟩ := List.mem_map.mp hx
          exact read_steady _ _ _) fun _ => steady_pure _
  · refine steady_bind (read_steady _ _ _) fun bs => ?_
    split
    · exact steady_pure _
    · exact steady_bind (all_steady fun x hx => by
        obtain ⟨p, -, rfl⟩ := List.mem_map.mp hx
        exact read_steady _ _ _) fun _ => steady_pure _
theorem resource_steady (v : View) (va : DWord) : Rd.Steady (v.resource va) :=
  steady_bind (resourceBytes_steady _ _) fun _ => steady_pure _
theorem find_steady (v : View) (x : Resource) (j : Nat) (i : Item) : Rd.Steady (v.find x j i) := by
  unfold View.find
  refine steady_bind ?_ fun here => ?_
  · split
    · exact steady_pure _
    · exact steady_bind (read_steady _ _ _) fun _ => steady_pure _
  · split
    · exact steady_pure _
    refine steady_bind (steady_try (read_steady _ _ _)) fun y => ?_
    split
    · exact steady_pure _
    · exact steady_pure _
    · exact steady_throw _
theorem dest_steady (v : View) (va : DWord) (n : Nat) : Rd.Steady (v.dest va n) := by
  unfold View.dest
  repeat' split
  all_goals first | exact steady_pure _ | exact steady_throw _
theorem drainCounts_steady (v : View) (block : DWord) : Rd.Steady (drainCounts v block) := by
  unfold drainCounts
  refine steady_bind (settled_steady (read_steady _ _ _)) fun h => ?_
  split
  · exact steady_pure _
  · refine steady_bind (settled_steady (read_steady _ _ _)) fun t => ?_
    split <;> exact steady_pure _
theorem wantRing_steady (v : View) : Rd.Steady (wantRing v) := by
  unfold wantRing
  refine steady_bind (settled_steady (read_steady _ _ _)) fun y => ?_
  split <;> exact steady_pure _
theorem readSide_steady (x : Record) (v : View) : Rd.Steady (readSide x v) := by
  unfold readSide
  refine steady_bind (read_steady _ _ _) fun head => ?_
  dsimp only
  split
  · exact steady_pure _
  · exact steady_bind (read_steady _ _ _) fun _ => steady_pure _

theorem voxelWord_steady (v : View) (x : Resource) (j : Nat) (xyz : List Nat) : Rd.Steady (v.voxelWord x j xyz) := by
  unfold View.voxelWord
  dsimp only
  split <;> exact steady_bind (read_steady _ _ _) fun _ => steady_pure _

/-! ## What they give -/

/-- What a reader gives from the empty log. -/
def Rd.val [Inhabited α] (x : Rd α) : α := match x.run with
  | .ok p => p.1
  | .error _ => default
theorem gives_of {x : Rd α} {a : α} {l : RdLog} (hx : Rd.Steady x) (h : x.run = .ok (a, l)) : x.Gives a := fun log =>
  ⟨log.after l, by rw [hx log]; show (x.run).map _ = _; rw [h]; rfl⟩
theorem gives_val [Inhabited α] {x : Rd α} (hx : Rd.Steady x) (h : x.run.isOk = true) : x.Gives x.val := by
  unfold Rd.val
  split
  · next p e => exact gives_of (l := p.2) hx e
  · next e => rw [e] at h; cases h

end Sys2Proof.Machine
end

