-- ==== Sys2Proof/Laws/Engines.lean ====
section
/-! SUPPORT. The chunks of an operation: reading one is a steady reader, and their free order names each of them once. -/
namespace Sys2Proof.Machine

theorem noted_steady (e : RdFail) : Rd.Steady e.noted := fun log => by
  cases log with | mk r x k => cases e <;> cases x <;> cases k <;> simp [RdFail.noted, RdLog.after, Except.map, StateT.run,
    modify, modifyGet, MonadStateOf.modifyGet, StateT.modifyGet, bind, StateT.bind, pure, StateT.pure, Except.bind, Except.pure]
theorem chunk_steady (v : View) (va : DWord) (n : Nat) : Rd.Steady (v.chunk va n) :=
  steady_bind (settled_steady (read_steady _ _ _)) fun y => by
    split
    · exact steady_pure _
    · exact steady_bind (noted_steady _) fun _ => steady_pure _

theorem insertBy_perm {α : Type} (le : α → α → Bool) (x : α) : ∀ l : List α, (insertBy le x l).Perm (x :: l)
  | [] => .refl _
  | y :: l => by
    unfold insertBy
    split
    · exact .refl _
    · exact ((insertBy_perm le x l).cons y).trans (.swap ..)
theorem sortBy_perm {α : Type} (le : α → α → Bool) : ∀ l : List α, (sortBy le l).Perm l
  | [] => .refl _
  | x :: l => (insertBy_perm le x (sortBy le l)).trans ((sortBy_perm le l).cons x)

/-- The order of an operation's chunks holds each of them once. -/
theorem chunkOrder_perm (id n : Nat) : (chunkOrder id n).Perm (List.range n) := sortBy_perm _ _
/-- A chunk still to come is one of the operation's. -/
theorem nthChunk_lt {id n c : Nat} (h : c < n) : nthChunk id n c < n := by
  have l : c < (chunkOrder id n).length := by rw [(chunkOrder_perm id n).length_eq, List.length_range]; exact h
  rw [nthChunk, List.getD_eq_getElem?_getD, List.getElem?_eq_getElem l, Option.getD_some]
  exact List.mem_range.1 ((chunkOrder_perm id n).mem_iff.1 (List.getElem_mem l))
/-- Two different steps perform different chunks. -/
theorem nthChunk_inj {id n c d : Nat} (hc : c < n) (hd : d < n) (h : nthChunk id n c = nthChunk id n d) : c = d := by
  have hl : (chunkOrder id n).length = n := by rw [(chunkOrder_perm id n).length_eq, List.length_range]
  have hn : (chunkOrder id n).Nodup := (chunkOrder_perm id n).nodup_iff.2 List.nodup_range
  have e (k : Nat) (hk : k < (chunkOrder id n).length) : nthChunk id n k = (chunkOrder id n)[k] := by
    rw [nthChunk, List.getD_eq_getElem?_getD, List.getElem?_eq_getElem hk, Option.getD_some]
  rw [e c (by omega), e d (by omega)] at h
  exact (List.getElem_inj hn).1 h

end Sys2Proof.Machine
end

