-- ==== Sys2Proof/Laws/Memory.lean ====
section
/-! SUPPORT. Byte stores: every operation keeps the canonical form, what is read after a write, and little-endian bytes. -/
namespace Sys2Proof.Machine

/-! ## The canonical form is kept -/

theorem cellsWf_weaken {l : List Host.Cell} {a b : Nat} (h : a ≤ b) (w : cellsWf b l = true) : cellsWf a l = true := by
  cases l with
  | nil => rfl
  | cons c r =>
    simp only [cellsWf, Bool.and_eq_true, decide_eq_true_eq] at w ⊢
    exact ⟨⟨by omega, w.1.2⟩, w.2⟩

theorem putCell_wf {l : List Host.Cell} {lo a : Nat} (b : Byte) (ha : lo ≤ a) (w : cellsWf lo l = true) :
    cellsWf lo (putCell l a b) = true := by
  induction l generalizing lo with
  | nil =>
    by_cases hb : b = 0#8
    · simp [putCell, cellsWf, hb]
    · simp [putCell, cellsWf, hb, ha]
  | cons c r ih =>
    obtain ⟨k, x⟩ := c
    simp only [cellsWf, Bool.and_eq_true, decide_eq_true_eq] at w
    unfold putCell
    by_cases h1 : a < k
    · by_cases hb : b = 0
      · simp only [h1, hb, if_true, cellsWf, Bool.and_eq_true, decide_eq_true_eq]
        exact w
      · simp only [h1, hb, if_true, if_false, cellsWf, Bool.and_eq_true, decide_eq_true_eq]
        exact ⟨⟨ha, by simpa using hb⟩, ⟨by omega, w.1.2⟩, w.2⟩
    · by_cases h2 : a = k
      · by_cases hb : b = 0
        · simp only [h2, hb, if_true, if_false, Nat.lt_irrefl]
          exact cellsWf_weaken (by omega) w.2
        · simp only [h2, hb, if_true, if_false, Nat.lt_irrefl, cellsWf, Bool.and_eq_true, decide_eq_true_eq]
          exact ⟨⟨by omega, by simpa using hb⟩, w.2⟩
      · simp only [h1, h2, if_false, cellsWf, Bool.and_eq_true, decide_eq_true_eq]
        exact ⟨⟨w.1.1, w.1.2⟩, ih (by omega) w.2⟩

theorem put_wf {m : Memory} (a : Nat) (b : Byte) (w : m.wf = true) : (m.put a b).wf = true :=
  putCell_wf b (Nat.zero_le a) w

theorem write_wf {m : Memory} (a : Nat) (bs : List Byte) (w : m.wf = true) : (m.write a bs).wf = true := by
  induction bs generalizing m a with
  | nil => exact w
  | cons b bs ih => exact ih (a + 1) (put_wf a b w)

theorem cellsWf_filter (p : Host.Cell → Bool) {l : List Host.Cell} {lo : Nat} (w : cellsWf lo l = true) :
    cellsWf lo (l.filter p) = true := by
  induction l generalizing lo with
  | nil => rfl
  | cons c r ih =>
    obtain ⟨k, x⟩ := c
    simp only [cellsWf, Bool.and_eq_true, decide_eq_true_eq] at w
    by_cases hp : p (k, x) = true
    · simp only [List.filter_cons, hp, if_true, cellsWf, Bool.and_eq_true, decide_eq_true_eq]
      exact ⟨w.1, ih w.2⟩
    · simp only [List.filter_cons, hp]
      exact cellsWf_weaken (by omega) (ih w.2)

theorem clear_wf {m : Memory} (a n : Nat) (w : m.wf = true) : (m.clear a n).wf = true := cellsWf_filter _ w

@[simp] theorem empty_wf : Memory.empty.wf = true := rfl

theorem reset_mem_wf : State.reset.mem.wf = true := rfl

/-! ## Read after write -/

theorem lookup_lt {l : List Host.Cell} {lo x : Nat} (w : cellsWf lo l = true) (h : x < lo) : l.lookup x = none := by
  induction l generalizing lo with
  | nil => rfl
  | cons c r ih =>
    obtain ⟨k, y⟩ := c
    simp only [cellsWf, Bool.and_eq_true, decide_eq_true_eq] at w
    have hk : (x == k) = false := by simp; omega
    simp only [List.lookup_cons, hk]
    exact ih w.2 (by omega)

theorem putCell_lookup {l : List Host.Cell} {lo a : Nat} (b : Byte) (w : cellsWf lo l = true) (x : Nat) :
    ((putCell l a b).lookup x).getD 0 = if x = a then b else (l.lookup x).getD 0 := by
  induction l generalizing lo with
  | nil =>
    have hx' (h : ¬ x = a) : (x == a) = false := by simp [h]
    by_cases hb : b = 0#8 <;> by_cases hx : x = a
    · simp [putCell, hb, hx]
    · simp [putCell, hb, hx]
    · simp [putCell, hb, hx]
    · simp [putCell, hb, hx, hx' hx, List.lookup_cons]
  | cons c r ih =>
    obtain ⟨k, y⟩ := c
    have w0 := w
    simp only [cellsWf, Bool.and_eq_true, decide_eq_true_eq] at w
    unfold putCell
    by_cases h1 : a < k
    · have hn : ((k, y) :: r).lookup a = none :=
        lookup_lt (lo := k) (by simp only [cellsWf, Bool.and_eq_true, decide_eq_true_eq]; exact ⟨⟨Nat.le_refl k, w.1.2⟩, w.2⟩) h1
      by_cases hb : b = 0
      · simp only [h1, hb, if_true]
        by_cases hx : x = a
        · subst hx; simp [hn]
        · simp [hx]
      · simp only [h1, hb, if_true, if_false]
        by_cases hx : x = a
        · subst hx; simp
        · have hx' : (x == a) = false := by simp [hx]
          simp [List.lookup_cons, hx, hx']
    · by_cases h2 : a = k
      · subst h2
        simp only [Nat.lt_irrefl, if_true, if_false]
        have hr : r.lookup a = none := lookup_lt w.2 (Nat.lt_succ_self a)
        have hx' (h : ¬ x = a) : (x == a) = false := by simp [h]
        by_cases hb : b = 0#8 <;> by_cases hx : x = a
        · subst hx; simp [hb, hr]
        · simp [hb, hx, hx' hx, List.lookup_cons]
        · subst hx; simp [hb]
        · simp [hb, hx, hx' hx, List.lookup_cons]
      · simp only [h1, h2, if_false]
        by_cases hk : x = k
        · have : ¬ x = a := by omega
          subst hk; simp [this]
        · have hk' : (x == k) = false := by simp [hk]
          simp only [List.lookup_cons, hk']
          exact ih w.2

theorem get_put {m : Memory} (a : Nat) (b : Byte) (w : m.wf = true) (x : Nat) :
    (m.put a b).get x = if x = a then b else m.get x := putCell_lookup b w x

theorem get_write {m : Memory} (a : Nat) (bs : List Byte) (w : m.wf = true) (x : Nat) :
    (m.write a bs).get x = if a ≤ x ∧ x < a + bs.length then bs.getD (x - a) 0 else m.get x := by
  induction bs generalizing m a with
  | nil =>
    have h : ¬ (a ≤ x ∧ x < a + 0) := by omega
    simp only [Memory.write, List.length_nil]
    rw [if_neg h]
  | cons b bs ih =>
    rw [Memory.write, ih (a + 1) (put_wf a b w), get_put a b w]
    by_cases h1 : x = a
    · subst h1
      have h3 : ¬ (x + 1 ≤ x ∧ x < x + 1 + bs.length) := by omega
      rw [if_neg h3, if_pos rfl, if_pos ⟨Nat.le_refl x, by simp⟩]
      simp
    · by_cases h2 : a ≤ x ∧ x < a + (b :: bs).length
      · simp only [List.length_cons] at h2
        have h3 : a + 1 ≤ x ∧ x < a + 1 + bs.length := by omega
        have h4 : x - a = (x - (a + 1)) + 1 := by omega
        simp only [h3, and_self, if_true, List.length_cons, h4, List.getD_cons_succ]
        rw [if_pos (by omega)]
      · simp only [List.length_cons] at h2
        have h3 : ¬ (a + 1 ≤ x ∧ x < a + 1 + bs.length) := by omega
        simp only [h3, h1, if_false, List.length_cons]
        rw [if_neg h2]

@[simp] theorem read_length (m : Memory) (a n : Nat) : (m.read a n).length = n := by simp [Memory.read]

theorem lookup_filter {l : List Host.Cell} (p : Nat → Bool) {x : Nat} (hx : p x = true) :
    (l.filter fun c => p c.1).lookup x = l.lookup x := by
  induction l with
  | nil => rfl
  | cons c r ih =>
    obtain ⟨k, y⟩ := c
    by_cases hk : x = k
    · subst hk
      simp [hx]
    · have hk' : (x == k) = false := by simp [hk]
      by_cases hp : p k = true
      · simp only [List.filter_cons, hp, if_true, List.lookup_cons, hk', ih]
      · have hp' : p k = false := by simpa using hp
        simp only [List.filter_cons, hp', List.lookup_cons, hk', Bool.false_eq_true, if_false, ih]

/-- A read is the bytes read one by one. -/
theorem read_eq (m : Memory) (a n : Nat) : m.read a n = (List.range n).map fun i => m.get (a + i) := by
  unfold Memory.read Memory.get
  apply List.map_congr_left
  intro i hi
  have hi' : i < n := List.mem_range.mp hi
  rw [lookup_filter (fun k => decide (a ≤ k) && decide (k < a + n)) (by simp; omega)]

/-- Reading what was just written. -/
theorem read_write {m : Memory} (a : Nat) (bs : List Byte) (w : m.wf = true) : (m.write a bs).read a bs.length = bs := by
  rw [read_eq]
  apply List.ext_getElem
  · simp
  · intro i h1 h2
    simp only [List.getElem_map, List.getElem_range]
    rw [get_write a bs w, if_pos ⟨by omega, by omega⟩]
    have : a + i - a = i := by omega
    simp [this, List.getD_eq_getElem?_getD, h2]

/-- Reading a part of what was just written. -/
theorem read_write_within {m : Memory} (a i n : Nat) (bs : List Byte) (w : m.wf = true) (h : i + n ≤ bs.length) :
    (m.write a bs).read (a + i) n = (bs.drop i).take n := by
  rw [read_eq]
  apply List.ext_getElem
  · simp; omega
  · intro k h1 h2
    have hk : k < n := by simpa using h1
    rw [List.getElem_map, List.getElem_range, get_write a bs w, if_pos ⟨by omega, by omega⟩]
    have hl : i + k < bs.length := by omega
    simp [show a + i + k - a = i + k by omega, List.getD_eq_getElem?_getD, hl]

/-- A write leaves every read apart from it alone. -/
theorem read_write_apart {m : Memory} (a : Nat) (bs : List Byte) (w : m.wf = true) (x n : Nat)
    (h : x + n ≤ a ∨ a + bs.length ≤ x) : (m.write a bs).read x n = m.read x n := by
  rw [read_eq, read_eq]
  apply List.map_congr_left
  intro i hi
  have hi' : i < n := List.mem_range.mp hi
  rw [get_write a bs w, if_neg (by omega)]

theorem lookup_filter_out {l : List Host.Cell} (p : Nat → Bool) {x : Nat} (hx : p x = false) :
    (l.filter fun c => p c.1).lookup x = none := by
  induction l with
  | nil => rfl
  | cons c r ih =>
    obtain ⟨k, y⟩ := c
    by_cases hp : p k = true
    · have hk' : (x == k) = false := by
        simp only [beq_eq_false_iff_ne, ne_eq]
        intro e; subst e; simp [hx] at hp
      simp only [List.filter_cons, hp, if_true, List.lookup_cons, hk', ih]
    · simp only [List.filter_cons, hp]
      exact ih

theorem get_clear (m : Memory) (a n x : Nat) :
    (m.clear a n).get x = if a ≤ x ∧ x < a + n then 0 else m.get x := by
  unfold Memory.clear Memory.get
  by_cases h : a ≤ x ∧ x < a + n
  · simp only [h, and_self, if_true]
    rw [lookup_filter_out (fun k => decide (k < a) || decide (a + n ≤ k)) (by simp; omega)]
    rfl
  · rw [if_neg h, lookup_filter (fun k => decide (k < a) || decide (a + n ≤ k)) (by simp; omega)]

/-! ## Locations -/

/-- A write of the package's bytes keeps both memories canonical. -/
theorem putBytes_wf {s : State} (l : Loc) (bs : List Byte) (h : s.mem.wf = true ∧ s.hostMem.wf = true) :
    (s.putBytes l bs).mem.wf = true ∧ (s.putBytes l bs).hostMem.wf = true := by
  cases l
  · exact ⟨write_wf _ _ h.1, h.2⟩
  · exact ⟨h.1, write_wf _ _ h.2⟩

/-- What was written at a location is what is read there. -/
theorem bytesAt_putBytes {s : State} (l : Loc) (bs : List Byte) (h : s.mem.wf = true ∧ s.hostMem.wf = true) :
    (s.putBytes l bs).bytesAtLoc l bs.length = bs := by
  cases l
  · exact read_write _ _ h.1
  · exact read_write _ _ h.2

/-! ## Little-endian bytes -/

@[simp] theorem natLe_length (n v : Nat) : (natLe n v).length = n := by
  induction n generalizing v with
  | zero => rfl
  | succ n ih => simp [natLe, ih]

/-- The value of a number's bytes. -/
theorem leNat_natLe (n v : Nat) : leNat (natLe n v) = v % 256 ^ n := by
  induction n generalizing v with
  | zero => simp [natLe, leNat, Nat.mod_one]
  | succ n ih =>
    simp only [natLe, leNat, ih, BitVec.toNat_ofNat]
    have h : 256 ^ (n + 1) = 256 * 256 ^ n := by rw [Nat.pow_succ, Nat.mul_comm]
    rw [h, Nat.mod_mul]

/-- The bytes of a value of that many bytes. -/
theorem natLe_leNat (bs : List Byte) : natLe bs.length (leNat bs) = bs := by
  induction bs with
  | nil => rfl
  | cons b r ih =>
    simp only [List.length_cons, natLe, leNat]
    have h1 : (b.toNat + 256 * leNat r) / 256 = leNat r := by have := b.isLt; omega
    have h2 : BitVec.ofNat 8 (b.toNat + 256 * leNat r) = b := by
      apply BitVec.eq_of_toNat_eq
      have := b.isLt
      simp only [BitVec.toNat_ofNat]
      omega
    rw [h1, h2, ih]

theorem leNat_lt (bs : List Byte) : leNat bs < 256 ^ bs.length := by
  induction bs with
  | nil => simp [leNat]
  | cons b r ih =>
    simp only [leNat, List.length_cons, Nat.pow_succ]
    have := b.isLt
    omega

end Sys2Proof.Machine
end

