-- ==== Sys2Proof/Laws/Words.lean ====
section
/-! SUPPORT. What a word does that completes, waits or traps: cited instead of unfolding runWord and issueWord. -/
namespace Sys2Proof.Machine

variable {s : State} {r : GRef} {g : Group} {i : Instr} {q : Issue} {eff : Effect}

/-- The checks before a word's own effect pass (R326 rows 1 to 3, R62, R89, R120). -/
structure Issue.Passes (q : Issue) (g : Group) : Prop where
  returning : q.returning = true → g.pend < 16
  roles : q.roles g.role = true
  collective : q.collective = true → g.converged = true

theorem issueWord_acts (hp : q.Passes g) (ha : g.actives ≠ []) (ho : q.once g = true)
    (hs : q.syncs = true → g.awaited = 0) :
    issueWord q eff s r g = eff s r (if q.syncs then g.begun.settle else g.begun) := by
  obtain ⟨h1, h2, h3⟩ := hp
  have e1 : (!(q.returning && decide (Config.maxPending ≤ g.pend))) = true := by
    cases hq : q.returning
    · rfl
    · simp [Config.maxPending, Nat.not_le.mpr (h1 hq)]
  have e3 : (!q.collective || g.converged) = true := by
    cases hq : q.collective
    · rfl
    · simp [h3 hq]
  have e4 : g.actives.isEmpty = false := by
    cases h : g.actives
    · exact absurd h ha
    · rfl
  unfold issueWord
  rw [e1, h2, e3, e4, ho]
  cases hq : q.syncs
  · simp [check, Group.begun, bind, Except.bind]
  · simp [check, Group.begun, bind, Except.bind, hs hq]

theorem issueWord_idle (hp : q.Passes g) (ho : q.once g = false) :
    issueWord q eff s r g = .ok (s, g.begun) := by
  obtain ⟨h1, h2, h3⟩ := hp
  have e1 : (!(q.returning && decide (Config.maxPending ≤ g.pend))) = true := by
    cases hq : q.returning
    · rfl
    · simp [Config.maxPending, Nat.not_le.mpr (h1 hq)]
  have e3 : (!q.collective || g.converged) = true := by
    cases hq : q.collective
    · rfl
    · simp [h3 hq]
  unfold issueWord
  rw [e1, h2, e3, ho]
  simp [check, Group.begun, bind, Except.bind, pure, Except.pure]

theorem runWord_eq (hc : s.cur = some r) (hg : s.group? r = some g) :
    runWord i q eff s = match issueWord q eff s r g with
      | .ok (s', g') => .next (s'.setGroup r (g'.retire q g.priv))
      | .error (.wait w s') => .next (s'.waitAt r w)
      | .error (.trap c sub tv) =>
        .next (s.takeTrap r ⟨c, sub, tv.getD (.setWidth 64 ((encode i).getD 0))⟩) := by
  unfold runWord
  simp only [hc, hg] <;> rfl

theorem takeTrap_eq (hg : s.group? r = some g) (hp : g.priv = false) (t : Trap) (hw : t.walked = false) :
    s.takeTrap r t = s.setGroup r (g.trapped t) := by
  unfold State.takeTrap
  have ht : ∃ tm, s.team? r.tid = some tm := by
    unfold State.group? at hg
    cases h : s.team? r.tid
    · simp [h] at hg
    · exact ⟨_, rfl⟩
  obtain ⟨tm, ht⟩ := ht
  simp [ht, hg, hp, State.faultWalk, hw]
/-- All that the walk of a trap changes. -/
theorem faultWalk_tdir (s : State) (tm : Team) (t : Trap) : ∃ dir, s.faultWalk tm t = { s with tdir := dir } := by
  unfold State.faultWalk State.shareWalk
  split
  · split
    · exact ⟨s.tdir, rfl⟩
    · exact ⟨_, rfl⟩
  · exact ⟨s.tdir, rfl⟩
/-- A trap that a translation raises: the walk has made the core a sharer of table lines (R355). -/
theorem takeTrap_walked (hg : s.group? r = some g) (hp : g.priv = false) (t : Trap) :
    ∃ dir, s.takeTrap r t = State.setGroup { s with tdir := dir } r (g.trapped t) := by
  unfold State.takeTrap
  cases ht : s.team? r.tid with
  | none => simp [State.group?, ht] at hg
  | some tm =>
    obtain ⟨dir, hd⟩ := faultWalk_tdir s tm t
    exact ⟨dir, by simp [hg, hp, hd]⟩

/-- A word whose own effect answers completes. -/
theorem runWord_ok {s' : State} {g' : Group} (h : Turn s r g) (hp : q.Passes g) (ho : q.once g = true)
    (hs : q.syncs = true → g.awaited = 0)
    (he : eff s r (if q.syncs then g.begun.settle else g.begun) = .ok (s', g')) :
    runWord i q eff s = .next (s'.setGroup r (g'.retire q g.priv)) := by
  rw [runWord_eq h.cur h.found, issueWord_acts hp h.active ho hs, he]
/-- A word whose own effect traps takes that trap. -/
theorem runWord_trap {c : Cause} {sub : Nat} {tv : Option DWord} (h : Turn s r g) (hp : q.Passes g)
    (ho : q.once g = true) (hs : q.syncs = true → g.awaited = 0) (hu : g.priv = false)
    (hw : ∀ v, (⟨c, sub, v⟩ : Trap).walked = false)
    (he : eff s r (if q.syncs then g.begun.settle else g.begun) = .error (.trap c sub tv)) :
    runWord i q eff s = .next (s.setGroup r (g.trapped ⟨c, sub, tv.getD (.setWidth 64 ((encode i).getD 0))⟩)) := by
  rw [runWord_eq h.cur h.found, issueWord_acts hp h.active ho hs, he]
  simp only []
  rw [takeTrap_eq h.found hu _ (hw _)]

theorem retire_s (g : Group) (q : Issue) (p : Bool) : g.retire q p = g.retire { s := q.s } p := rfl

/-- A word that touches nothing but its group, whose effect answers, completes. -/
theorem runGroup_completes {f : Group → Except Stop Group} {g' : Group} {m : Bool} (h : Turn s r g) (hp : q.Passes g)
    (ho : q.once g = true) (hs : q.syncs = false) (hm : q.s = m) (hi : exec i s = runGroup i q f s)
    (he : f g.begun = .ok g') : Completes i m s r g g' := by
  unfold Completes
  rw [hi, runGroup, runWord_ok h hp ho (by simp [hs]) (s' := s) (g' := g'), retire_s, hm]
  simp [hs, groupEffect, he, bind, Except.bind, pure, Except.pure]

@[simp] theorem begun_v : g.begun.v = g.v := rfl
@[simp] theorem begun_rd (a : VReg) (f : Nat) : g.begun.rd a f = g.rd a f := rfl
@[simp] theorem begun_on : g.begun.on = g.on := rfl
@[simp] theorem begun_ons : g.begun.ons = g.ons := rfl
@[simp] theorem begun_actives : g.begun.actives = g.actives := rfl
@[simp] theorem begun_type : g.begun.type = g.type := rfl
@[simp] theorem begun_reg (a : VReg) : g.begun.reg a = g.reg a := rfl
@[simp] theorem begun_rank (a : VReg) : g.begun.rank a = g.rank a := rfl
@[simp] theorem begun_int (a : VReg) (f : Nat) : g.begun.int a f = g.int a f := rfl
@[simp] theorem begun_fp (a : VReg) (f : Nat) : g.begun.fp a f = g.fp a f := rfl
@[simp] theorem begun_sat : g.begun.sat = g.sat := rfl
@[simp] theorem begun_ftz : g.begun.ftz = g.ftz := rfl
@[simp] theorem begun_rnd : g.begun.rnd = g.rnd := rfl
@[simp] theorem begun_preg (p : PReg) : g.begun.preg p = g.preg p := rfl
@[simp] theorem begun_breg (b : BReg) : g.begun.breg b = g.breg b := rfl
@[simp] theorem begun_hreg (b : HReg) : g.begun.hreg b = g.hreg b := rfl
@[simp] theorem begun_md : g.begun.md = g.md := rfl
@[simp] theorem begun_priv : g.begun.priv = g.priv := rfl

/-- A uniform operand reads the value its active fibres agree on (R14). -/
theorem Group.uniform_of_reads {a : VReg} {x : Word} (ha : g.actives ≠ []) (h : g.reads a x) : g.uniform a = .ok x := by
  unfold Group.reads Group.rd at h
  unfold Group.uniform
  cases hr : g.reg a with
  | uni w =>
    obtain ⟨f, hf⟩ := List.exists_mem_of_ne_nil _ ha
    have := h f hf
    rw [hr] at this
    simpa [VVal.at] using this
  | aff b st =>
    rw [hr] at h
    cases hl : g.actives with
    | nil => exact absurd hl ha
    | cons f fs =>
      rw [hl] at h
      have h1 := h f (by simp)
      have hall : ∀ k ∈ fs, (VVal.aff b st).at k = x := fun k hk => h k (by simp [hk])
      by_cases hz : st = 0
      · have h0 : (VVal.aff b st).at 0 = x := by
          rw [← h1, hz]
          simp [VVal.at]
        simp [hz, ← h0]
      · simp only [h1, beq_iff_eq, hz, if_false, List.all_eq_true, if_pos hall]

  | gen ws =>
    rw [hr] at h
    cases hl : g.actives with
    | nil => exact absurd hl ha
    | cons f fs =>
      rw [hl] at h
      have h1 := h f (by simp)
      have hall : ∀ k ∈ fs, (VVal.gen ws).at k = x := fun k hk => h k (by simp [hk])
      simp [h1]
      exact hall

end Sys2Proof.Machine
end

