-- ==== Sys2Proof/Laws/Regs.lean ====
section
/-! SUPPORT. What writing a register does (R12, R13, R18, R86 to R88). -/
namespace Sys2Proof.Machine

theorem fibres_mem {f : Nat} : f ∈ fibres ↔ f < 16 := by simp [fibres]

theorem mem_ons {g : Group} {f : Nat} : f ∈ g.ons ↔ f < 16 ∧ g.on f = true := by
  simp [Group.ons, fibres_mem]

theorem any_on (g : Group) : fibres.any g.on = !g.ons.isEmpty := by
  rw [Bool.eq_iff_iff]
  simp [List.any_eq_true, Group.ons, List.filter_eq_nil_iff]

theorem fibres_getD (val : Nat → Word) (d : Word) {f : Nat} (hf : f < 16) : (fibres.map val).getD f d = val f := by
  simp [fibres, List.getD_eq_getElem?_getD, hf]

/-- A register's value after a write, by its tag (R13). -/
theorem store_at (x : VVal) (sh : Nat) (m : Nat → Bool) (val : Nat → Word) {f : Nat} (hf : f < 16)
    (hx : x.sized = true) (h : sh ≤ x.rank)
    (hv : x.rank < 2 → ∀ k, k < 16 → val k = val 0 + .ofNat 32 k * (if sh = 0 then 0 else val 1 - val 0)) :
    (x.store sh m val).at f = if x.rank = 2 then (if m f then val f else x.at f) else val f := by
  cases x with
  | uni w =>
    have h0 : sh = 0 := by simpa [VVal.rank] using h
    have := hv (by simp [VVal.rank]) f hf
    subst h0
    simp only [VVal.store, VVal.at, VVal.rank]
    rw [this]; simp
  | aff b st =>
    have := hv (by simp [VVal.rank]) f hf
    simp only [VVal.store, VVal.at, VVal.rank]
    rw [this]; simp
  | gen ws =>
    simp only [VVal.store, VVal.at, VVal.rank, if_true]
    rw [fibres_getD _ _ hf]

theorem store_rank (x : VVal) (sh : Nat) (m : Nat → Bool) (val : Nat → Word) : (x.store sh m val).rank = x.rank := by
  cases x <;> rfl

theorem modify_rank (v : List VVal) (d sh : Nat) (m : Nat → Bool) (val : Nat → Word) :
    (v.modify d fun x => x.store sh m val).map VVal.rank = v.map VVal.rank := by
  apply List.ext_getElem?
  intro k
  simp only [List.getElem?_map, List.getElem?_modify]
  cases h : v[k]? with
  | none => simp
  | some x => by_cases hk : d = k <;> simp [hk, store_rank]

theorem getD_modify_ne {v : List VVal} {d k : Nat} (f : VVal → VVal) (x : VVal) (h : k ≠ d) :
    (v.modify d f).getD k x = v.getD k x := by
  simp [List.getD_eq_getElem?_getD, Ne.symm h]

theorem getD_modify_eq {v : List VVal} {d : Nat} (f : VVal → VVal) (x : VVal) (h : d < v.length) :
    (v.modify d f).getD d x = f (v.getD d x) := by
  simp [List.getD_eq_getElem?_getD, h]

/-- A write of a view of the registers, in the terms of viewWrote. -/
theorem viewWrote_modify {g : Group} {on : Nat → Bool} {v : List VVal} {d : VReg} {sh : Nat} {val : Nat → Word}
    (hl : v.length = 64) (hsz : v.all VVal.sized = true) (hr : (v.getD d.val (.uni 0)).rank = g.rank d)
    (h : sh ≤ g.rank d) (hon : g.rank d < 2 → fibres.any on = true)
    (hv : g.rank d < 2 → ∀ k, k < 16 → val k = val 0 + .ofNat 32 k * (if sh = 0 then 0 else val 1 - val 0)) :
    viewWrote g on v (v.modify d.val fun x => x.store sh on val) d val := by
  have hd : d.val < v.length := by have := d.isLt; omega
  have hs : (v.getD d.val (.uni 0)).sized = true := by
    rw [List.all_eq_true] at hsz
    rw [List.getD_eq_getElem?_getD, List.getElem?_eq_getElem hd]
    exact hsz _ (List.getElem_mem hd)
  refine ⟨fun f hf => ?_, fun x hx => ?_, modify_rank ..⟩
  · unfold viewAt
    rw [getD_modify_eq _ _ hd, store_at _ _ _ _ hf hs (by rw [hr]; exact h) (by rw [hr]; exact hv), hr]
    by_cases h2 : g.rank d = 2
    · simp [h2]
    · have : g.rank d < 2 := by
        have : g.rank d ≤ 2 := by unfold Group.rank; cases g.reg d <;> simp [VVal.rank]
        omega
      simp [h2, hon this]
  · exact getD_modify_ne _ _ (fun hk => hx (Fin.ext hk))

/-- The parts of a group's size. -/
theorem sized_parts {g : Group} (h : g.sized = true) :
    g.v.length = 64 ∧ g.vDue.length = 64 ∧ g.v.all VVal.sized = true ∧ g.vDue.all VVal.sized = true
      ∧ g.v.map VVal.rank = g.vDue.map VVal.rank ∧ g.p.length = 8 ∧ g.b.length = 8 ∧ g.count.length = 16
      ∧ g.draw.length = 16 := by
  simp only [Group.sized, Bool.and_eq_true, beq_iff_eq] at h
  obtain ⟨⟨⟨⟨⟨⟨⟨⟨⟨⟨⟨h1, h2⟩, h3⟩, h4⟩, h5⟩, -⟩, -⟩, h6⟩, h7⟩, h8⟩, h9⟩, -⟩ := h
  exact ⟨h1, h2, h3, h4, h5, h6, h7, h8, h9⟩

theorem due_rank {g : Group} (h : g.sized = true) (d : VReg) : (g.vDue.getD d.val (.uni 0)).rank = g.rank d := by
  obtain ⟨h1, h2, -, -, h5, -⟩ := sized_parts h
  unfold Group.rank Group.reg
  have e := congrArg (·[d.val]?) h5
  have l1 : d.val < g.v.length := by rw [h1]; exact d.isLt
  have l2 : d.val < g.vDue.length := by rw [h2]; exact d.isLt
  simpa [List.getElem?_eq_getElem l1, List.getElem?_eq_getElem l2, List.getD_eq_getElem?_getD] using e.symm

/-- The union of flags over the fibres that execute. -/
theorem flags_union (m : Nat → Bool) (res : Nat → Word × Word) (l : List Nat) (a : Word) :
    (l.map fun f => if m f then res f else (0, 0)).foldl (fun a x => a ||| x.2) a
      = ((l.filter m).map fun f => (res f).2).foldl (· ||| ·) a := by
  induction l generalizing a with
  | nil => rfl
  | cons f l ih =>
    cases h : m f
    · simpa [h] using ih a
    · simpa [h] using ih (a ||| (res f).2)

theorem flags_const {l : List Nat} (fl : Nat → Word) (w a : Word) (hw : ∀ f ∈ l, fl f = w) (hl : l ≠ []) :
    (l.map fl).foldl (· ||| ·) a = a ||| w := by
  induction l generalizing a with
  | nil => exact absurd rfl hl
  | cons f l ih =>
    have hf := hw f (by simp)
    cases l with
    | nil => simp [hf]
    | cons k l =>
      rw [List.map_cons, List.foldl_cons, ih _ (fun x hx => hw x (by simp [hx])) (by simp), hf, BitVec.or_assoc,
        BitVec.or_self]

/-- An instruction that writes a v register writes what each fibre's execution gives, in both views (R12, R13, R86). -/
theorem result_wrote {g : Group} {on : Nat → Bool} {d : VReg} {sh : Nat} {res : Nat → Word × Word} (hz : g.sized = true)
    (h : sh ≤ g.rank d)
    (hv : g.rank d < 2 → ∀ k, k < 16 →
      (res k).1 = (res 0).1 + .ofNat 32 k * (if sh = 0 then 0 else (res 1).1 - (res 0).1) ∧ (res k).2 = (res 0).2) :
    ∃ g', g.begun.result d sh on res = .ok g' ∧
      Wrote g g' on d (fun f => (res f).1) (raisedBy on fun f => (res f).2) := by
  obtain ⟨h1, h2, h3, h4, -⟩ := sized_parts hz
  have hf : g.begun.fits d sh = .ok () := by
    have : sh ≤ (g.reg d).rank := h
    simp [Group.fits, check, this]
  by_cases h2' : g.rank d < 2
  · have hrk : (g.reg d).rank < 2 := h2'
    by_cases ho : fibres.any on = false
    · refine ⟨g.begun, ?_, ⟨⟨?_, ?_, rfl⟩, ⟨?_, ?_, rfl⟩, ?_⟩⟩
      · unfold Group.result
        rw [hf]
        have ha := ho
        simp only [bind, Except.bind, begun_reg, hrk, ha, pure, Except.pure, if_true]
        try rfl
      · intro f _; simp only [ho, Group.begun]; simp; omega
      · intro x _; rfl
      · intro f _; simp only [ho, Group.begun]; simp; omega
      · intro x _; rfl
      · have : fibres.filter on = [] := by
          rw [List.filter_eq_nil_iff]
          simpa using ho
        simp [raisedBy, this, Group.begun]
    · refine ⟨(g.begun.store d sh on fun f => (res f).1).raise (res 0).2, ?_, ⟨?_, ?_, ?_⟩⟩
      · unfold Group.result
        rw [hf]
        have ha : fibres.any on = true := by simpa using ho
        simp only [bind, Except.bind, begun_reg, hrk, ha, pure, Except.pure, if_true]
        try rfl
      · exact viewWrote_modify h1 h3 rfl h (fun _ => by simpa using ho) (fun hh k hk => (hv hh k hk).1)
      · exact viewWrote_modify h2 h4 (due_rank hz d) h (fun _ => by simpa using ho) (fun hh k hk => (hv hh k hk).1)
      · have : raisedBy on (fun f => (res f).2) = (res 0).2 := by
          unfold raisedBy
          rw [flags_const _ (res 0).2 0 (fun f hf => (hv h2' f
            (fibres_mem.mp (List.mem_filter.mp hf).1)).2) (by
              intro h; rw [List.filter_eq_nil_iff] at h
              exact ho (by simpa using h))]
          simp
        rw [this]
        rfl
  · have hrk : ¬ (g.reg d).rank < 2 := h2'
    let rs := fibres.map fun f => if on f then res f else (0, 0)
    refine ⟨(g.begun.store d sh on fun f => (rs.getD f (0, 0)).1).raise (rs.foldl (fun a x => a ||| x.2) 0), ?_,
      ⟨?_, ?_, ?_⟩⟩
    · unfold Group.result
      rw [hf]
      simp only [bind, Except.bind, begun_reg, hrk, pure, Except.pure, rs, if_false]
    · have := viewWrote_modify (on := on) (val := fun f => (rs.getD f (0, 0)).1) h1 h3 (d := d) (g := g) rfl h
        (fun hh => absurd hh h2') (fun hh => absurd hh h2')
      refine ⟨fun f hf => ?_, this.2⟩
      have e := this.1 f hf
      have hr : g.rank d = 2 := by
        have : g.rank d ≤ 2 := by unfold Group.rank; cases g.reg d <;> simp [VVal.rank]
        omega
      simp only [hr, if_true] at e ⊢
      refine e.trans ?_
      by_cases hon : on f = true
      · simp [hon, rs, fibres, List.getD_eq_getElem?_getD, hf]
      · simp [hon]
    · have := viewWrote_modify (on := on) (val := fun f => (rs.getD f (0, 0)).1) h2 h4 (d := d) (g := g) (due_rank hz d) h
        (fun hh => absurd hh h2') (fun hh => absurd hh h2')
      refine ⟨fun f hf => ?_, this.2⟩
      have e := this.1 f hf
      have hr : g.rank d = 2 := by
        have : g.rank d ≤ 2 := by unfold Group.rank; cases g.reg d <;> simp [VVal.rank]
        omega
      simp only [hr, if_true] at e ⊢
      refine e.trans ?_
      by_cases hon : on f = true
      · simp [hon, rs, fibres, List.getD_eq_getElem?_getD, hf]
      · simp [hon]
    · have : raisedBy on (fun f => (res f).2) = rs.foldl (fun a x => a ||| x.2) 0 := by
        unfold raisedBy
        exact (flags_union on res fibres 0).symm
      rw [this]
      rfl

/-- An instruction whose effect is a result completes with it. -/
theorem writesFor_of {s : State} {r : GRef} {g : Group} {i : Instr} {m : Bool} {q : Issue} {on : Nat → Bool}
    {f : Group → Except Stop Group} {d : VReg} {sh : Nat} {res : Nat → Word × Word}
    (h : Turn s r g) (hp : q.Passes g) (ho : q.once g = true) (hs : q.syncs = false) (hm : q.s = m)
    (hi : exec i s = runGroup i q f s) (hf : sh ≤ g.rank d → f g.begun = g.begun.result d sh on res)
    (hv : g.rank d < 2 → ∀ k, k < 16 →
      (res k).1 = (res 0).1 + .ofNat 32 k * (if sh = 0 then 0 else (res 1).1 - (res 0).1) ∧ (res k).2 = (res 0).2) :
    WritesFor on i m s r g d sh res := by
  intro hsh
  obtain ⟨g', e, w⟩ := result_wrote (on := on) h.sized hsh hv
  exact ⟨g', runGroup_completes h hp ho hs hm hi (by rw [hf hsh, e]), w⟩

end Sys2Proof.Machine
end

