-- ==== Sys2Proof/Laws/Staging.lean ====
section
/-! SUPPORT. Accepting a launch and a contribution read steadily: what they find does not depend on what has been read before. -/
namespace Sys2Proof.Machine

variable {α β : Type}

theorem steady_foldlM {f : β → α → Rd β} (hf : ∀ b a, Rd.Steady (f b a)) : ∀ (l : List α) (b : β), Rd.Steady (l.foldlM f b)
  | [], _ => by rw [List.foldlM_nil]; exact steady_pure _
  | a :: l, b => by rw [List.foldlM_cons]; exact steady_bind (hf b a) fun _ => steady_foldlM hf l _
theorem silent_steady {x : Rd α} (hx : Rd.Steady x) : Rd.Steady x.silent := fun log => by
  have h (l : RdLog) : StateT.run x.silent l = match StateT.run x l with
      | .ok (a, _) => .ok (a, l)
      | .error e => .error e := rfl
  rw [h, h, hx log]
  cases StateT.run x ⟨[], none, false⟩ with
  | error e => rfl
  | ok p => simp [Except.map, RdLog.after_none]

/-! ## Constant bytes -/

theorem constRead_steady (v : View) : Rd.Steady (constRead v) :=
  steady_foldlM (fun acc i => steady_bind (settled_steady (read_steady _ _ _)) fun y => by
    split <;> exact steady_pure _) _ _
theorem withConst_steady (s : State) (c : Context) (x : Record) (issuer : Option Nat) (side : Option Side) (v : View) :
    Rd.Steady (withConst s c x issuer side v) := by
  unfold withConst
  split
  · split
    · exact steady_bind (silent_steady (constRead_steady v)) fun _ => steady_pure _
    · exact steady_pure _
  · exact steady_pure _
/-- The reads of a launch that is accepted. -/
theorem accept_steady (s : State) (c : Context) (x : Record) (issuer : Option Nat) (v : View) :
    Rd.Steady (do withConst s c x issuer (← readSide x v) v) :=
  steady_bind (readSide_steady x v) fun _ => withConst_steady s c x issuer _ v

/-! ## Staging memory -/

theorem own_steady (v : View) (va : DWord) (n : Nat) : Rd.Steady (v.own va n) :=
  steady_bind (settled_steady (read_steady _ _ _)) fun _ => steady_pure _
theorem nbuf_steady (v : View) (x : Grid) : Rd.Steady (v.nbuf x) :=
  steady_bind (own_steady _ _ _) fun y => by split <;> exact steady_pure _
theorem rdesc_steady (v : View) (x : Grid) (i : Nat) : Rd.Steady (v.rdesc x i) :=
  steady_bind (own_steady _ _ _) fun _ => steady_pure _
theorem rdescs_steady (v : View) : Rd.Steady v.rdescs :=
  steady_bind (steady_mapM (fun x => steady_bind (nbuf_steady v x) fun _ =>
    steady_bind (steady_mapM (rdesc_steady v x) _) fun _ => steady_pure _) _) fun _ => steady_pure _
theorem folds_steady (v : View) (d : RDesc) : Rd.Steady (v.folds d) := steady_bind (own_steady _ _ _) fun _ => steady_pure _
theorem slots_steady (v : View) (d : RDesc) : Rd.Steady (v.slots d) :=
  steady_mapM (fun _ => steady_bind (own_steady _ _ _) fun y => by split <;> exact steady_pure _) _
theorem foldSlots_steady (v : View) (d : RDesc) (slots : List (Nat × Option Nat)) :
    ∀ fuel k fs gone, Rd.Steady (v.foldSlots d slots fuel k fs gone)
  | 0, _, _, _ => steady_pure _
  | fuel + 1, k, fs, gone => by
    unfold View.foldSlots
    split
    · exact steady_pure _
    · exact steady_bind (own_steady _ _ _) fun _ => foldSlots_steady v d slots fuel _ _ _
theorem stage_steady (v : View) (d : RDesc) (dev : Nat) (ws : List Word) : Rd.Steady (v.stage d dev ws) :=
  steady_bind (folds_steady v d) fun y => by
    split
    · exact steady_pure _
    · refine steady_bind (slots_steady v d) fun _ => ?_
      split
      · exact steady_bind (foldSlots_steady v d _ _ _ _ _) fun _ => steady_pure _
      · exact steady_pure _
theorem contributeJob_steady (v : View) (dev : Nat) (x : Contribution) : Rd.Steady (contributeJob v dev x) := by
  unfold contributeJob
  refine steady_bind (rdescs_steady v) fun ds => ?_
  split
  · exact steady_pure _
  · dsimp only
    repeat' split
    all_goals try dsimp only
    repeat' split
    all_goals first | exact steady_pure _ | refine steady_bind (stage_steady v _ dev _) fun y => ?_
    all_goals split <;> exact steady_pure _

end Sys2Proof.Machine
end

