-- ==== Sys2Proof/Laws/State.lean ====
section
/-! SUPPORT. What each update of the state leaves: one lemma per field per update, so that no later proof unfolds a record
update. -/
namespace Sys2Proof.Machine

variable (s : State) (g : Group) (t : Team)


/-! ## State.modTeam -/

@[simp] theorem modTeam_cur (tid : Nat) (f : Team → Team) : (s.modTeam tid f).cur = s.cur := rfl
@[simp] theorem modTeam_turns (tid : Nat) (f : Team → Team) : (s.modTeam tid f).turns = s.turns := rfl
@[simp] theorem modTeam_inbox (tid : Nat) (f : Team → Team) : (s.modTeam tid f).inbox = s.inbox := rfl
@[simp] theorem modTeam_nextId (tid : Nat) (f : Team → Team) : (s.modTeam tid f).nextId = s.nextId := rfl
@[simp] theorem modTeam_free (tid : Nat) (f : Team → Team) : (s.modTeam tid f).free = s.free := rfl
@[simp] theorem modTeam_mem (tid : Nat) (f : Team → Team) : (s.modTeam tid f).mem = s.mem := rfl
@[simp] theorem modTeam_poison (tid : Nat) (f : Team → Team) : (s.modTeam tid f).poison = s.poison := rfl
@[simp] theorem modTeam_dirBad (tid : Nat) (f : Team → Team) : (s.modTeam tid f).dirBad = s.dirBad := rfl
@[simp] theorem modTeam_hostMem (tid : Nat) (f : Team → Team) : (s.modTeam tid f).hostMem = s.hostMem := rfl
@[simp] theorem modTeam_hostPoison (tid : Nat) (f : Team → Team) : (s.modTeam tid f).hostPoison = s.hostPoison := rfl
@[simp] theorem modTeam_hostLines (tid : Nat) (f : Team → Team) : (s.modTeam tid f).hostLines = s.hostLines := rfl
@[simp] theorem modTeam_hostDirty (tid : Nat) (f : Team → Team) : (s.modTeam tid f).hostDirty = s.hostDirty := rfl
@[simp] theorem modTeam_contexts (tid : Nat) (f : Team → Team) : (s.modTeam tid f).contexts = s.contexts := rfl
@[simp] theorem modTeam_grids (tid : Nat) (f : Team → Team) : (s.modTeam tid f).grids = s.grids := rfl
@[simp] theorem modTeam_saved (tid : Nat) (f : Team → Team) : (s.modTeam tid f).saved = s.saved := rfl
@[simp] theorem modTeam_convoys (tid : Nat) (f : Team → Team) : (s.modTeam tid f).convoys = s.convoys := rfl
@[simp] theorem modTeam_claims (tid : Nat) (f : Team → Team) : (s.modTeam tid f).claims = s.claims := rfl
@[simp] theorem modTeam_ops (tid : Nat) (f : Team → Team) : (s.modTeam tid f).ops = s.ops := rfl
@[simp] theorem modTeam_matrix (tid : Nat) (f : Team → Team) : (s.modTeam tid f).matrix = s.matrix := rfl
@[simp] theorem modTeam_rays (tid : Nat) (f : Team → Team) : (s.modTeam tid f).rays = s.rays := rfl
@[simp] theorem modTeam_conts (tid : Nat) (f : Team → Team) : (s.modTeam tid f).conts = s.conts := rfl
@[simp] theorem modTeam_idle (tid : Nat) (f : Team → Team) : (s.modTeam tid f).idle = s.idle := rfl
@[simp] theorem modTeam_bricks (tid : Nat) (f : Team → Team) : (s.modTeam tid f).bricks = s.bricks := rfl
@[simp] theorem modTeam_clocks (tid : Nat) (f : Team → Team) : (s.modTeam tid f).clocks = s.clocks := rfl
@[simp] theorem modTeam_lines (tid : Nat) (f : Team → Team) : (s.modTeam tid f).lines = s.lines := rfl
@[simp] theorem modTeam_tdir (tid : Nat) (f : Team → Team) : (s.modTeam tid f).tdir = s.tdir := rfl
@[simp] theorem modTeam_walkers (tid : Nat) (f : Team → Team) : (s.modTeam tid f).walkers = s.walkers := rfl
@[simp] theorem modTeam_flips (tid : Nat) (f : Team → Team) : (s.modTeam tid f).flips = s.flips := rfl
@[simp] theorem modTeam_migs (tid : Nat) (f : Team → Team) : (s.modTeam tid f).migs = s.migs := rfl
@[simp] theorem modTeam_migctl (tid : Nat) (f : Team → Team) : (s.modTeam tid f).migctl = s.migctl := rfl
@[simp] theorem modTeam_migRing (tid : Nat) (f : Team → Team) : (s.modTeam tid f).migRing = s.migRing := rfl
@[simp] theorem modTeam_migHead (tid : Nat) (f : Team → Team) : (s.modTeam tid f).migHead = s.migHead := rfl
@[simp] theorem modTeam_migTail (tid : Nat) (f : Team → Team) : (s.modTeam tid f).migTail = s.migTail := rfl
@[simp] theorem modTeam_served (tid : Nat) (f : Team → Team) : (s.modTeam tid f).served = s.served := rfl
@[simp] theorem modTeam_held (tid : Nat) (f : Team → Team) : (s.modTeam tid f).held = s.held := rfl
@[simp] theorem modTeam_port (tid : Nat) (f : Team → Team) : (s.modTeam tid f).port = s.port := rfl
@[simp] theorem modTeam_conns (tid : Nat) (f : Team → Team) : (s.modTeam tid f).conns = s.conns := rfl
@[simp] theorem modTeam_requests (tid : Nat) (f : Team → Team) : (s.modTeam tid f).requests = s.requests := rfl
@[simp] theorem modTeam_away (tid : Nat) (f : Team → Team) : (s.modTeam tid f).away = s.away := rfl
@[simp] theorem modTeam_job (tid : Nat) (f : Team → Team) : (s.modTeam tid f).job = s.job := rfl
@[simp] theorem modTeam_outbox (tid : Nat) (f : Team → Team) : (s.modTeam tid f).outbox = s.outbox := rfl
@[simp] theorem modTeam_wire (tid : Nat) (f : Team → Team) : (s.modTeam tid f).wire = s.wire := rfl
@[simp] theorem modTeam_inbound (tid : Nat) (f : Team → Team) : (s.modTeam tid f).inbound = s.inbound := rfl
@[simp] theorem modTeam_errRings (tid : Nat) (f : Team → Team) : (s.modTeam tid f).errRings = s.errRings := rfl
@[simp] theorem modTeam_errLost (tid : Nat) (f : Team → Team) : (s.modTeam tid f).errLost = s.errLost := rfl
@[simp] theorem modTeam_errWarned (tid : Nat) (f : Team → Team) : (s.modTeam tid f).errWarned = s.errWarned := rfl
@[simp] theorem modTeam_events (tid : Nat) (f : Team → Team) : (s.modTeam tid f).events = s.events := rfl
@[simp] theorem modTeam_evLost (tid : Nat) (f : Team → Team) : (s.modTeam tid f).evLost = s.evLost := rfl
@[simp] theorem modTeam_fused (tid : Nat) (f : Team → Team) : (s.modTeam tid f).fused = s.fused := rfl
@[simp] theorem modTeam_softFused (tid : Nat) (f : Team → Team) : (s.modTeam tid f).softFused = s.softFused := rfl
@[simp] theorem modTeam_disabled (tid : Nat) (f : Team → Team) : (s.modTeam tid f).disabled = s.disabled := rfl
@[simp] theorem modTeam_boot (tid : Nat) (f : Team → Team) : (s.modTeam tid f).boot = s.boot := rfl
@[simp] theorem modTeam_strap (tid : Nat) (f : Team → Team) : (s.modTeam tid f).strap = s.strap := rfl
@[simp] theorem modTeam_svn (tid : Nat) (f : Team → Team) : (s.modTeam tid f).svn = s.svn := rfl
@[simp] theorem modTeam_health (tid : Nat) (f : Team → Team) : (s.modTeam tid f).health = s.health := rfl
@[simp] theorem modTeam_eolWarned (tid : Nat) (f : Team → Team) : (s.modTeam tid f).eolWarned = s.eolWarned := rfl
@[simp] theorem modTeam_secCores (tid : Nat) (f : Team → Team) : (s.modTeam tid f).secCores = s.secCores := rfl
@[simp] theorem modTeam_secPorts (tid : Nat) (f : Team → Team) : (s.modTeam tid f).secPorts = s.secPorts := rfl
@[simp] theorem modTeam_secRegions (tid : Nat) (f : Team → Team) : (s.modTeam tid f).secRegions = s.secRegions := rfl
@[simp] theorem modTeam_meas (tid : Nat) (f : Team → Team) : (s.modTeam tid f).meas = s.meas := rfl
@[simp] theorem modTeam_quotes (tid : Nat) (f : Team → Team) : (s.modTeam tid f).quotes = s.quotes := rfl
@[simp] theorem modTeam_fwStage (tid : Nat) (f : Team → Team) : (s.modTeam tid f).fwStage = s.fwStage := rfl
@[simp] theorem modTeam_fwFlash (tid : Nat) (f : Team → Team) : (s.modTeam tid f).fwFlash = s.fwFlash := rfl
@[simp] theorem modTeam_resetN (tid : Nat) (f : Team → Team) : (s.modTeam tid f).resetN = s.resetN := rfl
@[simp] theorem modTeam_pwrgd (tid : Nat) (f : Team → Team) : (s.modTeam tid f).pwrgd = s.pwrgd := rfl
@[simp] theorem modTeam_throttled (tid : Nat) (f : Team → Team) : (s.modTeam tid f).throttled = s.throttled := rfl
@[simp] theorem modTeam_tripped (tid : Nat) (f : Team → Team) : (s.modTeam tid f).tripped = s.tripped := rfl
@[simp] theorem modTeam_pwrLimit (tid : Nat) (f : Team → Team) : (s.modTeam tid f).pwrLimit = s.pwrLimit := rfl

/-! ## State.modGroup -/

@[simp] theorem modGroup_cur (r : GRef) (f : Group → Group) : (s.modGroup r f).cur = s.cur := rfl
@[simp] theorem modGroup_turns (r : GRef) (f : Group → Group) : (s.modGroup r f).turns = s.turns := rfl
@[simp] theorem modGroup_inbox (r : GRef) (f : Group → Group) : (s.modGroup r f).inbox = s.inbox := rfl
@[simp] theorem modGroup_nextId (r : GRef) (f : Group → Group) : (s.modGroup r f).nextId = s.nextId := rfl
@[simp] theorem modGroup_free (r : GRef) (f : Group → Group) : (s.modGroup r f).free = s.free := rfl
@[simp] theorem modGroup_mem (r : GRef) (f : Group → Group) : (s.modGroup r f).mem = s.mem := rfl
@[simp] theorem modGroup_poison (r : GRef) (f : Group → Group) : (s.modGroup r f).poison = s.poison := rfl
@[simp] theorem modGroup_dirBad (r : GRef) (f : Group → Group) : (s.modGroup r f).dirBad = s.dirBad := rfl
@[simp] theorem modGroup_hostMem (r : GRef) (f : Group → Group) : (s.modGroup r f).hostMem = s.hostMem := rfl
@[simp] theorem modGroup_hostPoison (r : GRef) (f : Group → Group) : (s.modGroup r f).hostPoison = s.hostPoison := rfl
@[simp] theorem modGroup_hostLines (r : GRef) (f : Group → Group) : (s.modGroup r f).hostLines = s.hostLines := rfl
@[simp] theorem modGroup_hostDirty (r : GRef) (f : Group → Group) : (s.modGroup r f).hostDirty = s.hostDirty := rfl
@[simp] theorem modGroup_contexts (r : GRef) (f : Group → Group) : (s.modGroup r f).contexts = s.contexts := rfl
@[simp] theorem modGroup_grids (r : GRef) (f : Group → Group) : (s.modGroup r f).grids = s.grids := rfl
@[simp] theorem modGroup_saved (r : GRef) (f : Group → Group) : (s.modGroup r f).saved = s.saved := rfl
@[simp] theorem modGroup_convoys (r : GRef) (f : Group → Group) : (s.modGroup r f).convoys = s.convoys := rfl
@[simp] theorem modGroup_claims (r : GRef) (f : Group → Group) : (s.modGroup r f).claims = s.claims := rfl
@[simp] theorem modGroup_ops (r : GRef) (f : Group → Group) : (s.modGroup r f).ops = s.ops := rfl
@[simp] theorem modGroup_matrix (r : GRef) (f : Group → Group) : (s.modGroup r f).matrix = s.matrix := rfl
@[simp] theorem modGroup_rays (r : GRef) (f : Group → Group) : (s.modGroup r f).rays = s.rays := rfl
@[simp] theorem modGroup_conts (r : GRef) (f : Group → Group) : (s.modGroup r f).conts = s.conts := rfl
@[simp] theorem modGroup_idle (r : GRef) (f : Group → Group) : (s.modGroup r f).idle = s.idle := rfl
@[simp] theorem modGroup_bricks (r : GRef) (f : Group → Group) : (s.modGroup r f).bricks = s.bricks := rfl
@[simp] theorem modGroup_clocks (r : GRef) (f : Group → Group) : (s.modGroup r f).clocks = s.clocks := rfl
@[simp] theorem modGroup_lines (r : GRef) (f : Group → Group) : (s.modGroup r f).lines = s.lines := rfl
@[simp] theorem modGroup_tdir (r : GRef) (f : Group → Group) : (s.modGroup r f).tdir = s.tdir := rfl
@[simp] theorem modGroup_walkers (r : GRef) (f : Group → Group) : (s.modGroup r f).walkers = s.walkers := rfl
@[simp] theorem modGroup_flips (r : GRef) (f : Group → Group) : (s.modGroup r f).flips = s.flips := rfl
@[simp] theorem modGroup_migs (r : GRef) (f : Group → Group) : (s.modGroup r f).migs = s.migs := rfl
@[simp] theorem modGroup_migctl (r : GRef) (f : Group → Group) : (s.modGroup r f).migctl = s.migctl := rfl
@[simp] theorem modGroup_migRing (r : GRef) (f : Group → Group) : (s.modGroup r f).migRing = s.migRing := rfl
@[simp] theorem modGroup_migHead (r : GRef) (f : Group → Group) : (s.modGroup r f).migHead = s.migHead := rfl
@[simp] theorem modGroup_migTail (r : GRef) (f : Group → Group) : (s.modGroup r f).migTail = s.migTail := rfl
@[simp] theorem modGroup_served (r : GRef) (f : Group → Group) : (s.modGroup r f).served = s.served := rfl
@[simp] theorem modGroup_held (r : GRef) (f : Group → Group) : (s.modGroup r f).held = s.held := rfl
@[simp] theorem modGroup_port (r : GRef) (f : Group → Group) : (s.modGroup r f).port = s.port := rfl
@[simp] theorem modGroup_conns (r : GRef) (f : Group → Group) : (s.modGroup r f).conns = s.conns := rfl
@[simp] theorem modGroup_requests (r : GRef) (f : Group → Group) : (s.modGroup r f).requests = s.requests := rfl
@[simp] theorem modGroup_away (r : GRef) (f : Group → Group) : (s.modGroup r f).away = s.away := rfl
@[simp] theorem modGroup_job (r : GRef) (f : Group → Group) : (s.modGroup r f).job = s.job := rfl
@[simp] theorem modGroup_outbox (r : GRef) (f : Group → Group) : (s.modGroup r f).outbox = s.outbox := rfl
@[simp] theorem modGroup_wire (r : GRef) (f : Group → Group) : (s.modGroup r f).wire = s.wire := rfl
@[simp] theorem modGroup_inbound (r : GRef) (f : Group → Group) : (s.modGroup r f).inbound = s.inbound := rfl
@[simp] theorem modGroup_errRings (r : GRef) (f : Group → Group) : (s.modGroup r f).errRings = s.errRings := rfl
@[simp] theorem modGroup_errLost (r : GRef) (f : Group → Group) : (s.modGroup r f).errLost = s.errLost := rfl
@[simp] theorem modGroup_errWarned (r : GRef) (f : Group → Group) : (s.modGroup r f).errWarned = s.errWarned := rfl
@[simp] theorem modGroup_events (r : GRef) (f : Group → Group) : (s.modGroup r f).events = s.events := rfl
@[simp] theorem modGroup_evLost (r : GRef) (f : Group → Group) : (s.modGroup r f).evLost = s.evLost := rfl
@[simp] theorem modGroup_fused (r : GRef) (f : Group → Group) : (s.modGroup r f).fused = s.fused := rfl
@[simp] theorem modGroup_softFused (r : GRef) (f : Group → Group) : (s.modGroup r f).softFused = s.softFused := rfl
@[simp] theorem modGroup_disabled (r : GRef) (f : Group → Group) : (s.modGroup r f).disabled = s.disabled := rfl
@[simp] theorem modGroup_boot (r : GRef) (f : Group → Group) : (s.modGroup r f).boot = s.boot := rfl
@[simp] theorem modGroup_strap (r : GRef) (f : Group → Group) : (s.modGroup r f).strap = s.strap := rfl
@[simp] theorem modGroup_svn (r : GRef) (f : Group → Group) : (s.modGroup r f).svn = s.svn := rfl
@[simp] theorem modGroup_health (r : GRef) (f : Group → Group) : (s.modGroup r f).health = s.health := rfl
@[simp] theorem modGroup_eolWarned (r : GRef) (f : Group → Group) : (s.modGroup r f).eolWarned = s.eolWarned := rfl
@[simp] theorem modGroup_secCores (r : GRef) (f : Group → Group) : (s.modGroup r f).secCores = s.secCores := rfl
@[simp] theorem modGroup_secPorts (r : GRef) (f : Group → Group) : (s.modGroup r f).secPorts = s.secPorts := rfl
@[simp] theorem modGroup_secRegions (r : GRef) (f : Group → Group) : (s.modGroup r f).secRegions = s.secRegions := rfl
@[simp] theorem modGroup_meas (r : GRef) (f : Group → Group) : (s.modGroup r f).meas = s.meas := rfl
@[simp] theorem modGroup_quotes (r : GRef) (f : Group → Group) : (s.modGroup r f).quotes = s.quotes := rfl
@[simp] theorem modGroup_fwStage (r : GRef) (f : Group → Group) : (s.modGroup r f).fwStage = s.fwStage := rfl
@[simp] theorem modGroup_fwFlash (r : GRef) (f : Group → Group) : (s.modGroup r f).fwFlash = s.fwFlash := rfl
@[simp] theorem modGroup_resetN (r : GRef) (f : Group → Group) : (s.modGroup r f).resetN = s.resetN := rfl
@[simp] theorem modGroup_pwrgd (r : GRef) (f : Group → Group) : (s.modGroup r f).pwrgd = s.pwrgd := rfl
@[simp] theorem modGroup_throttled (r : GRef) (f : Group → Group) : (s.modGroup r f).throttled = s.throttled := rfl
@[simp] theorem modGroup_tripped (r : GRef) (f : Group → Group) : (s.modGroup r f).tripped = s.tripped := rfl
@[simp] theorem modGroup_pwrLimit (r : GRef) (f : Group → Group) : (s.modGroup r f).pwrLimit = s.pwrLimit := rfl

/-! ## State.setGroup -/

@[simp] theorem setGroup_cur (r : GRef) (g : Group) : (s.setGroup r g).cur = s.cur := rfl
@[simp] theorem setGroup_turns (r : GRef) (g : Group) : (s.setGroup r g).turns = s.turns := rfl
@[simp] theorem setGroup_inbox (r : GRef) (g : Group) : (s.setGroup r g).inbox = s.inbox := rfl
@[simp] theorem setGroup_nextId (r : GRef) (g : Group) : (s.setGroup r g).nextId = s.nextId := rfl
@[simp] theorem setGroup_free (r : GRef) (g : Group) : (s.setGroup r g).free = s.free := rfl
@[simp] theorem setGroup_mem (r : GRef) (g : Group) : (s.setGroup r g).mem = s.mem := rfl
@[simp] theorem setGroup_poison (r : GRef) (g : Group) : (s.setGroup r g).poison = s.poison := rfl
@[simp] theorem setGroup_dirBad (r : GRef) (g : Group) : (s.setGroup r g).dirBad = s.dirBad := rfl
@[simp] theorem setGroup_hostMem (r : GRef) (g : Group) : (s.setGroup r g).hostMem = s.hostMem := rfl
@[simp] theorem setGroup_hostPoison (r : GRef) (g : Group) : (s.setGroup r g).hostPoison = s.hostPoison := rfl
@[simp] theorem setGroup_hostLines (r : GRef) (g : Group) : (s.setGroup r g).hostLines = s.hostLines := rfl
@[simp] theorem setGroup_hostDirty (r : GRef) (g : Group) : (s.setGroup r g).hostDirty = s.hostDirty := rfl
@[simp] theorem setGroup_contexts (r : GRef) (g : Group) : (s.setGroup r g).contexts = s.contexts := rfl
@[simp] theorem setGroup_grids (r : GRef) (g : Group) : (s.setGroup r g).grids = s.grids := rfl
@[simp] theorem setGroup_saved (r : GRef) (g : Group) : (s.setGroup r g).saved = s.saved := rfl
@[simp] theorem setGroup_convoys (r : GRef) (g : Group) : (s.setGroup r g).convoys = s.convoys := rfl
@[simp] theorem setGroup_claims (r : GRef) (g : Group) : (s.setGroup r g).claims = s.claims := rfl
@[simp] theorem setGroup_ops (r : GRef) (g : Group) : (s.setGroup r g).ops = s.ops := rfl
@[simp] theorem setGroup_matrix (r : GRef) (g : Group) : (s.setGroup r g).matrix = s.matrix := rfl
@[simp] theorem setGroup_rays (r : GRef) (g : Group) : (s.setGroup r g).rays = s.rays := rfl
@[simp] theorem setGroup_conts (r : GRef) (g : Group) : (s.setGroup r g).conts = s.conts := rfl
@[simp] theorem setGroup_idle (r : GRef) (g : Group) : (s.setGroup r g).idle = s.idle := rfl
@[simp] theorem setGroup_bricks (r : GRef) (g : Group) : (s.setGroup r g).bricks = s.bricks := rfl
@[simp] theorem setGroup_clocks (r : GRef) (g : Group) : (s.setGroup r g).clocks = s.clocks := rfl
@[simp] theorem setGroup_lines (r : GRef) (g : Group) : (s.setGroup r g).lines = s.lines := rfl
@[simp] theorem setGroup_tdir (r : GRef) (g : Group) : (s.setGroup r g).tdir = s.tdir := rfl
@[simp] theorem setGroup_walkers (r : GRef) (g : Group) : (s.setGroup r g).walkers = s.walkers := rfl
@[simp] theorem setGroup_flips (r : GRef) (g : Group) : (s.setGroup r g).flips = s.flips := rfl
@[simp] theorem setGroup_migs (r : GRef) (g : Group) : (s.setGroup r g).migs = s.migs := rfl
@[simp] theorem setGroup_migctl (r : GRef) (g : Group) : (s.setGroup r g).migctl = s.migctl := rfl
@[simp] theorem setGroup_migRing (r : GRef) (g : Group) : (s.setGroup r g).migRing = s.migRing := rfl
@[simp] theorem setGroup_migHead (r : GRef) (g : Group) : (s.setGroup r g).migHead = s.migHead := rfl
@[simp] theorem setGroup_migTail (r : GRef) (g : Group) : (s.setGroup r g).migTail = s.migTail := rfl
@[simp] theorem setGroup_served (r : GRef) (g : Group) : (s.setGroup r g).served = s.served := rfl
@[simp] theorem setGroup_held (r : GRef) (g : Group) : (s.setGroup r g).held = s.held := rfl
@[simp] theorem setGroup_port (r : GRef) (g : Group) : (s.setGroup r g).port = s.port := rfl
@[simp] theorem setGroup_conns (r : GRef) (g : Group) : (s.setGroup r g).conns = s.conns := rfl
@[simp] theorem setGroup_requests (r : GRef) (g : Group) : (s.setGroup r g).requests = s.requests := rfl
@[simp] theorem setGroup_away (r : GRef) (g : Group) : (s.setGroup r g).away = s.away := rfl
@[simp] theorem setGroup_job (r : GRef) (g : Group) : (s.setGroup r g).job = s.job := rfl
@[simp] theorem setGroup_outbox (r : GRef) (g : Group) : (s.setGroup r g).outbox = s.outbox := rfl
@[simp] theorem setGroup_wire (r : GRef) (g : Group) : (s.setGroup r g).wire = s.wire := rfl
@[simp] theorem setGroup_inbound (r : GRef) (g : Group) : (s.setGroup r g).inbound = s.inbound := rfl
@[simp] theorem setGroup_errRings (r : GRef) (g : Group) : (s.setGroup r g).errRings = s.errRings := rfl
@[simp] theorem setGroup_errLost (r : GRef) (g : Group) : (s.setGroup r g).errLost = s.errLost := rfl
@[simp] theorem setGroup_errWarned (r : GRef) (g : Group) : (s.setGroup r g).errWarned = s.errWarned := rfl
@[simp] theorem setGroup_events (r : GRef) (g : Group) : (s.setGroup r g).events = s.events := rfl
@[simp] theorem setGroup_evLost (r : GRef) (g : Group) : (s.setGroup r g).evLost = s.evLost := rfl
@[simp] theorem setGroup_fused (r : GRef) (g : Group) : (s.setGroup r g).fused = s.fused := rfl
@[simp] theorem setGroup_softFused (r : GRef) (g : Group) : (s.setGroup r g).softFused = s.softFused := rfl
@[simp] theorem setGroup_disabled (r : GRef) (g : Group) : (s.setGroup r g).disabled = s.disabled := rfl
@[simp] theorem setGroup_boot (r : GRef) (g : Group) : (s.setGroup r g).boot = s.boot := rfl
@[simp] theorem setGroup_strap (r : GRef) (g : Group) : (s.setGroup r g).strap = s.strap := rfl
@[simp] theorem setGroup_svn (r : GRef) (g : Group) : (s.setGroup r g).svn = s.svn := rfl
@[simp] theorem setGroup_health (r : GRef) (g : Group) : (s.setGroup r g).health = s.health := rfl
@[simp] theorem setGroup_eolWarned (r : GRef) (g : Group) : (s.setGroup r g).eolWarned = s.eolWarned := rfl
@[simp] theorem setGroup_secCores (r : GRef) (g : Group) : (s.setGroup r g).secCores = s.secCores := rfl
@[simp] theorem setGroup_secPorts (r : GRef) (g : Group) : (s.setGroup r g).secPorts = s.secPorts := rfl
@[simp] theorem setGroup_secRegions (r : GRef) (g : Group) : (s.setGroup r g).secRegions = s.secRegions := rfl
@[simp] theorem setGroup_meas (r : GRef) (g : Group) : (s.setGroup r g).meas = s.meas := rfl
@[simp] theorem setGroup_quotes (r : GRef) (g : Group) : (s.setGroup r g).quotes = s.quotes := rfl
@[simp] theorem setGroup_fwStage (r : GRef) (g : Group) : (s.setGroup r g).fwStage = s.fwStage := rfl
@[simp] theorem setGroup_fwFlash (r : GRef) (g : Group) : (s.setGroup r g).fwFlash = s.fwFlash := rfl
@[simp] theorem setGroup_resetN (r : GRef) (g : Group) : (s.setGroup r g).resetN = s.resetN := rfl
@[simp] theorem setGroup_pwrgd (r : GRef) (g : Group) : (s.setGroup r g).pwrgd = s.pwrgd := rfl
@[simp] theorem setGroup_throttled (r : GRef) (g : Group) : (s.setGroup r g).throttled = s.throttled := rfl
@[simp] theorem setGroup_tripped (r : GRef) (g : Group) : (s.setGroup r g).tripped = s.tripped := rfl
@[simp] theorem setGroup_pwrLimit (r : GRef) (g : Group) : (s.setGroup r g).pwrLimit = s.pwrLimit := rfl

/-! ## State.waitAt -/

@[simp] theorem waitAt_cur (r : GRef) (w : Wait) : (s.waitAt r w).cur = s.cur := rfl
@[simp] theorem waitAt_turns (r : GRef) (w : Wait) : (s.waitAt r w).turns = s.turns := rfl
@[simp] theorem waitAt_inbox (r : GRef) (w : Wait) : (s.waitAt r w).inbox = s.inbox := rfl
@[simp] theorem waitAt_nextId (r : GRef) (w : Wait) : (s.waitAt r w).nextId = s.nextId := rfl
@[simp] theorem waitAt_free (r : GRef) (w : Wait) : (s.waitAt r w).free = s.free := rfl
@[simp] theorem waitAt_mem (r : GRef) (w : Wait) : (s.waitAt r w).mem = s.mem := rfl
@[simp] theorem waitAt_poison (r : GRef) (w : Wait) : (s.waitAt r w).poison = s.poison := rfl
@[simp] theorem waitAt_dirBad (r : GRef) (w : Wait) : (s.waitAt r w).dirBad = s.dirBad := rfl
@[simp] theorem waitAt_hostMem (r : GRef) (w : Wait) : (s.waitAt r w).hostMem = s.hostMem := rfl
@[simp] theorem waitAt_hostPoison (r : GRef) (w : Wait) : (s.waitAt r w).hostPoison = s.hostPoison := rfl
@[simp] theorem waitAt_hostLines (r : GRef) (w : Wait) : (s.waitAt r w).hostLines = s.hostLines := rfl
@[simp] theorem waitAt_hostDirty (r : GRef) (w : Wait) : (s.waitAt r w).hostDirty = s.hostDirty := rfl
@[simp] theorem waitAt_contexts (r : GRef) (w : Wait) : (s.waitAt r w).contexts = s.contexts := rfl
@[simp] theorem waitAt_grids (r : GRef) (w : Wait) : (s.waitAt r w).grids = s.grids := rfl
@[simp] theorem waitAt_saved (r : GRef) (w : Wait) : (s.waitAt r w).saved = s.saved := rfl
@[simp] theorem waitAt_convoys (r : GRef) (w : Wait) : (s.waitAt r w).convoys = s.convoys := rfl
@[simp] theorem waitAt_claims (r : GRef) (w : Wait) : (s.waitAt r w).claims = s.claims := rfl
@[simp] theorem waitAt_ops (r : GRef) (w : Wait) : (s.waitAt r w).ops = s.ops := rfl
@[simp] theorem waitAt_matrix (r : GRef) (w : Wait) : (s.waitAt r w).matrix = s.matrix := rfl
@[simp] theorem waitAt_rays (r : GRef) (w : Wait) : (s.waitAt r w).rays = s.rays := rfl
@[simp] theorem waitAt_conts (r : GRef) (w : Wait) : (s.waitAt r w).conts = s.conts := rfl
@[simp] theorem waitAt_idle (r : GRef) (w : Wait) : (s.waitAt r w).idle = s.idle := rfl
@[simp] theorem waitAt_bricks (r : GRef) (w : Wait) : (s.waitAt r w).bricks = s.bricks := rfl
@[simp] theorem waitAt_clocks (r : GRef) (w : Wait) : (s.waitAt r w).clocks = s.clocks := rfl
@[simp] theorem waitAt_lines (r : GRef) (w : Wait) : (s.waitAt r w).lines = s.lines := rfl
@[simp] theorem waitAt_tdir (r : GRef) (w : Wait) : (s.waitAt r w).tdir = s.tdir := rfl
@[simp] theorem waitAt_walkers (r : GRef) (w : Wait) : (s.waitAt r w).walkers = s.walkers := rfl
@[simp] theorem waitAt_flips (r : GRef) (w : Wait) : (s.waitAt r w).flips = s.flips := rfl
@[simp] theorem waitAt_migs (r : GRef) (w : Wait) : (s.waitAt r w).migs = s.migs := rfl
@[simp] theorem waitAt_migctl (r : GRef) (w : Wait) : (s.waitAt r w).migctl = s.migctl := rfl
@[simp] theorem waitAt_migRing (r : GRef) (w : Wait) : (s.waitAt r w).migRing = s.migRing := rfl
@[simp] theorem waitAt_migHead (r : GRef) (w : Wait) : (s.waitAt r w).migHead = s.migHead := rfl
@[simp] theorem waitAt_migTail (r : GRef) (w : Wait) : (s.waitAt r w).migTail = s.migTail := rfl
@[simp] theorem waitAt_served (r : GRef) (w : Wait) : (s.waitAt r w).served = s.served := rfl
@[simp] theorem waitAt_held (r : GRef) (w : Wait) : (s.waitAt r w).held = s.held := rfl
@[simp] theorem waitAt_port (r : GRef) (w : Wait) : (s.waitAt r w).port = s.port := rfl
@[simp] theorem waitAt_conns (r : GRef) (w : Wait) : (s.waitAt r w).conns = s.conns := rfl
@[simp] theorem waitAt_requests (r : GRef) (w : Wait) : (s.waitAt r w).requests = s.requests := rfl
@[simp] theorem waitAt_away (r : GRef) (w : Wait) : (s.waitAt r w).away = s.away := rfl
@[simp] theorem waitAt_job (r : GRef) (w : Wait) : (s.waitAt r w).job = s.job := rfl
@[simp] theorem waitAt_outbox (r : GRef) (w : Wait) : (s.waitAt r w).outbox = s.outbox := rfl
@[simp] theorem waitAt_wire (r : GRef) (w : Wait) : (s.waitAt r w).wire = s.wire := rfl
@[simp] theorem waitAt_inbound (r : GRef) (w : Wait) : (s.waitAt r w).inbound = s.inbound := rfl
@[simp] theorem waitAt_errRings (r : GRef) (w : Wait) : (s.waitAt r w).errRings = s.errRings := rfl
@[simp] theorem waitAt_errLost (r : GRef) (w : Wait) : (s.waitAt r w).errLost = s.errLost := rfl
@[simp] theorem waitAt_errWarned (r : GRef) (w : Wait) : (s.waitAt r w).errWarned = s.errWarned := rfl
@[simp] theorem waitAt_events (r : GRef) (w : Wait) : (s.waitAt r w).events = s.events := rfl
@[simp] theorem waitAt_evLost (r : GRef) (w : Wait) : (s.waitAt r w).evLost = s.evLost := rfl
@[simp] theorem waitAt_fused (r : GRef) (w : Wait) : (s.waitAt r w).fused = s.fused := rfl
@[simp] theorem waitAt_softFused (r : GRef) (w : Wait) : (s.waitAt r w).softFused = s.softFused := rfl
@[simp] theorem waitAt_disabled (r : GRef) (w : Wait) : (s.waitAt r w).disabled = s.disabled := rfl
@[simp] theorem waitAt_boot (r : GRef) (w : Wait) : (s.waitAt r w).boot = s.boot := rfl
@[simp] theorem waitAt_strap (r : GRef) (w : Wait) : (s.waitAt r w).strap = s.strap := rfl
@[simp] theorem waitAt_svn (r : GRef) (w : Wait) : (s.waitAt r w).svn = s.svn := rfl
@[simp] theorem waitAt_health (r : GRef) (w : Wait) : (s.waitAt r w).health = s.health := rfl
@[simp] theorem waitAt_eolWarned (r : GRef) (w : Wait) : (s.waitAt r w).eolWarned = s.eolWarned := rfl
@[simp] theorem waitAt_secCores (r : GRef) (w : Wait) : (s.waitAt r w).secCores = s.secCores := rfl
@[simp] theorem waitAt_secPorts (r : GRef) (w : Wait) : (s.waitAt r w).secPorts = s.secPorts := rfl
@[simp] theorem waitAt_secRegions (r : GRef) (w : Wait) : (s.waitAt r w).secRegions = s.secRegions := rfl
@[simp] theorem waitAt_meas (r : GRef) (w : Wait) : (s.waitAt r w).meas = s.meas := rfl
@[simp] theorem waitAt_quotes (r : GRef) (w : Wait) : (s.waitAt r w).quotes = s.quotes := rfl
@[simp] theorem waitAt_fwStage (r : GRef) (w : Wait) : (s.waitAt r w).fwStage = s.fwStage := rfl
@[simp] theorem waitAt_fwFlash (r : GRef) (w : Wait) : (s.waitAt r w).fwFlash = s.fwFlash := rfl
@[simp] theorem waitAt_resetN (r : GRef) (w : Wait) : (s.waitAt r w).resetN = s.resetN := rfl
@[simp] theorem waitAt_pwrgd (r : GRef) (w : Wait) : (s.waitAt r w).pwrgd = s.pwrgd := rfl
@[simp] theorem waitAt_throttled (r : GRef) (w : Wait) : (s.waitAt r w).throttled = s.throttled := rfl
@[simp] theorem waitAt_tripped (r : GRef) (w : Wait) : (s.waitAt r w).tripped = s.tripped := rfl
@[simp] theorem waitAt_pwrLimit (r : GRef) (w : Wait) : (s.waitAt r w).pwrLimit = s.pwrLimit := rfl

/-! ## State.modContext -/

@[simp] theorem modContext_cur (n : Nat) (f : Context → Context) : (s.modContext n f).cur = s.cur := rfl
@[simp] theorem modContext_turns (n : Nat) (f : Context → Context) : (s.modContext n f).turns = s.turns := rfl
@[simp] theorem modContext_inbox (n : Nat) (f : Context → Context) : (s.modContext n f).inbox = s.inbox := rfl
@[simp] theorem modContext_nextId (n : Nat) (f : Context → Context) : (s.modContext n f).nextId = s.nextId := rfl
@[simp] theorem modContext_free (n : Nat) (f : Context → Context) : (s.modContext n f).free = s.free := rfl
@[simp] theorem modContext_mem (n : Nat) (f : Context → Context) : (s.modContext n f).mem = s.mem := rfl
@[simp] theorem modContext_poison (n : Nat) (f : Context → Context) : (s.modContext n f).poison = s.poison := rfl
@[simp] theorem modContext_dirBad (n : Nat) (f : Context → Context) : (s.modContext n f).dirBad = s.dirBad := rfl
@[simp] theorem modContext_hostMem (n : Nat) (f : Context → Context) : (s.modContext n f).hostMem = s.hostMem := rfl
@[simp] theorem modContext_hostPoison (n : Nat) (f : Context → Context) : (s.modContext n f).hostPoison = s.hostPoison := rfl
@[simp] theorem modContext_hostLines (n : Nat) (f : Context → Context) : (s.modContext n f).hostLines = s.hostLines := rfl
@[simp] theorem modContext_hostDirty (n : Nat) (f : Context → Context) : (s.modContext n f).hostDirty = s.hostDirty := rfl
@[simp] theorem modContext_grids (n : Nat) (f : Context → Context) : (s.modContext n f).grids = s.grids := rfl
@[simp] theorem modContext_teams (n : Nat) (f : Context → Context) : (s.modContext n f).teams = s.teams := rfl
@[simp] theorem modContext_saved (n : Nat) (f : Context → Context) : (s.modContext n f).saved = s.saved := rfl
@[simp] theorem modContext_convoys (n : Nat) (f : Context → Context) : (s.modContext n f).convoys = s.convoys := rfl
@[simp] theorem modContext_claims (n : Nat) (f : Context → Context) : (s.modContext n f).claims = s.claims := rfl
@[simp] theorem modContext_ops (n : Nat) (f : Context → Context) : (s.modContext n f).ops = s.ops := rfl
@[simp] theorem modContext_matrix (n : Nat) (f : Context → Context) : (s.modContext n f).matrix = s.matrix := rfl
@[simp] theorem modContext_rays (n : Nat) (f : Context → Context) : (s.modContext n f).rays = s.rays := rfl
@[simp] theorem modContext_conts (n : Nat) (f : Context → Context) : (s.modContext n f).conts = s.conts := rfl
@[simp] theorem modContext_idle (n : Nat) (f : Context → Context) : (s.modContext n f).idle = s.idle := rfl
@[simp] theorem modContext_bricks (n : Nat) (f : Context → Context) : (s.modContext n f).bricks = s.bricks := rfl
@[simp] theorem modContext_clocks (n : Nat) (f : Context → Context) : (s.modContext n f).clocks = s.clocks := rfl
@[simp] theorem modContext_lines (n : Nat) (f : Context → Context) : (s.modContext n f).lines = s.lines := rfl
@[simp] theorem modContext_tdir (n : Nat) (f : Context → Context) : (s.modContext n f).tdir = s.tdir := rfl
@[simp] theorem modContext_walkers (n : Nat) (f : Context → Context) : (s.modContext n f).walkers = s.walkers := rfl
@[simp] theorem modContext_flips (n : Nat) (f : Context → Context) : (s.modContext n f).flips = s.flips := rfl
@[simp] theorem modContext_migs (n : Nat) (f : Context → Context) : (s.modContext n f).migs = s.migs := rfl
@[simp] theorem modContext_migctl (n : Nat) (f : Context → Context) : (s.modContext n f).migctl = s.migctl := rfl
@[simp] theorem modContext_migRing (n : Nat) (f : Context → Context) : (s.modContext n f).migRing = s.migRing := rfl
@[simp] theorem modContext_migHead (n : Nat) (f : Context → Context) : (s.modContext n f).migHead = s.migHead := rfl
@[simp] theorem modContext_migTail (n : Nat) (f : Context → Context) : (s.modContext n f).migTail = s.migTail := rfl
@[simp] theorem modContext_served (n : Nat) (f : Context → Context) : (s.modContext n f).served = s.served := rfl
@[simp] theorem modContext_held (n : Nat) (f : Context → Context) : (s.modContext n f).held = s.held := rfl
@[simp] theorem modContext_port (n : Nat) (f : Context → Context) : (s.modContext n f).port = s.port := rfl
@[simp] theorem modContext_conns (n : Nat) (f : Context → Context) : (s.modContext n f).conns = s.conns := rfl
@[simp] theorem modContext_requests (n : Nat) (f : Context → Context) : (s.modContext n f).requests = s.requests := rfl
@[simp] theorem modContext_away (n : Nat) (f : Context → Context) : (s.modContext n f).away = s.away := rfl
@[simp] theorem modContext_job (n : Nat) (f : Context → Context) : (s.modContext n f).job = s.job := rfl
@[simp] theorem modContext_outbox (n : Nat) (f : Context → Context) : (s.modContext n f).outbox = s.outbox := rfl
@[simp] theorem modContext_wire (n : Nat) (f : Context → Context) : (s.modContext n f).wire = s.wire := rfl
@[simp] theorem modContext_inbound (n : Nat) (f : Context → Context) : (s.modContext n f).inbound = s.inbound := rfl
@[simp] theorem modContext_errRings (n : Nat) (f : Context → Context) : (s.modContext n f).errRings = s.errRings := rfl
@[simp] theorem modContext_errLost (n : Nat) (f : Context → Context) : (s.modContext n f).errLost = s.errLost := rfl
@[simp] theorem modContext_errWarned (n : Nat) (f : Context → Context) : (s.modContext n f).errWarned = s.errWarned := rfl
@[simp] theorem modContext_events (n : Nat) (f : Context → Context) : (s.modContext n f).events = s.events := rfl
@[simp] theorem modContext_evLost (n : Nat) (f : Context → Context) : (s.modContext n f).evLost = s.evLost := rfl
@[simp] theorem modContext_fused (n : Nat) (f : Context → Context) : (s.modContext n f).fused = s.fused := rfl
@[simp] theorem modContext_softFused (n : Nat) (f : Context → Context) : (s.modContext n f).softFused = s.softFused := rfl
@[simp] theorem modContext_disabled (n : Nat) (f : Context → Context) : (s.modContext n f).disabled = s.disabled := rfl
@[simp] theorem modContext_boot (n : Nat) (f : Context → Context) : (s.modContext n f).boot = s.boot := rfl
@[simp] theorem modContext_strap (n : Nat) (f : Context → Context) : (s.modContext n f).strap = s.strap := rfl
@[simp] theorem modContext_svn (n : Nat) (f : Context → Context) : (s.modContext n f).svn = s.svn := rfl
@[simp] theorem modContext_health (n : Nat) (f : Context → Context) : (s.modContext n f).health = s.health := rfl
@[simp] theorem modContext_eolWarned (n : Nat) (f : Context → Context) : (s.modContext n f).eolWarned = s.eolWarned := rfl
@[simp] theorem modContext_secCores (n : Nat) (f : Context → Context) : (s.modContext n f).secCores = s.secCores := rfl
@[simp] theorem modContext_secPorts (n : Nat) (f : Context → Context) : (s.modContext n f).secPorts = s.secPorts := rfl
@[simp] theorem modContext_secRegions (n : Nat) (f : Context → Context) : (s.modContext n f).secRegions = s.secRegions := rfl
@[simp] theorem modContext_meas (n : Nat) (f : Context → Context) : (s.modContext n f).meas = s.meas := rfl
@[simp] theorem modContext_quotes (n : Nat) (f : Context → Context) : (s.modContext n f).quotes = s.quotes := rfl
@[simp] theorem modContext_fwStage (n : Nat) (f : Context → Context) : (s.modContext n f).fwStage = s.fwStage := rfl
@[simp] theorem modContext_fwFlash (n : Nat) (f : Context → Context) : (s.modContext n f).fwFlash = s.fwFlash := rfl
@[simp] theorem modContext_resetN (n : Nat) (f : Context → Context) : (s.modContext n f).resetN = s.resetN := rfl
@[simp] theorem modContext_pwrgd (n : Nat) (f : Context → Context) : (s.modContext n f).pwrgd = s.pwrgd := rfl
@[simp] theorem modContext_throttled (n : Nat) (f : Context → Context) : (s.modContext n f).throttled = s.throttled := rfl
@[simp] theorem modContext_tripped (n : Nat) (f : Context → Context) : (s.modContext n f).tripped = s.tripped := rfl
@[simp] theorem modContext_pwrLimit (n : Nat) (f : Context → Context) : (s.modContext n f).pwrLimit = s.pwrLimit := rfl

/-! ## State.modGrid -/

@[simp] theorem modGrid_cur (c n : Nat) (f : Grid → Grid) : (s.modGrid c n f).cur = s.cur := rfl
@[simp] theorem modGrid_turns (c n : Nat) (f : Grid → Grid) : (s.modGrid c n f).turns = s.turns := rfl
@[simp] theorem modGrid_inbox (c n : Nat) (f : Grid → Grid) : (s.modGrid c n f).inbox = s.inbox := rfl
@[simp] theorem modGrid_nextId (c n : Nat) (f : Grid → Grid) : (s.modGrid c n f).nextId = s.nextId := rfl
@[simp] theorem modGrid_free (c n : Nat) (f : Grid → Grid) : (s.modGrid c n f).free = s.free := rfl
@[simp] theorem modGrid_mem (c n : Nat) (f : Grid → Grid) : (s.modGrid c n f).mem = s.mem := rfl
@[simp] theorem modGrid_poison (c n : Nat) (f : Grid → Grid) : (s.modGrid c n f).poison = s.poison := rfl
@[simp] theorem modGrid_dirBad (c n : Nat) (f : Grid → Grid) : (s.modGrid c n f).dirBad = s.dirBad := rfl
@[simp] theorem modGrid_hostMem (c n : Nat) (f : Grid → Grid) : (s.modGrid c n f).hostMem = s.hostMem := rfl
@[simp] theorem modGrid_hostPoison (c n : Nat) (f : Grid → Grid) : (s.modGrid c n f).hostPoison = s.hostPoison := rfl
@[simp] theorem modGrid_hostLines (c n : Nat) (f : Grid → Grid) : (s.modGrid c n f).hostLines = s.hostLines := rfl
@[simp] theorem modGrid_hostDirty (c n : Nat) (f : Grid → Grid) : (s.modGrid c n f).hostDirty = s.hostDirty := rfl
@[simp] theorem modGrid_contexts (c n : Nat) (f : Grid → Grid) : (s.modGrid c n f).contexts = s.contexts := rfl
@[simp] theorem modGrid_teams (c n : Nat) (f : Grid → Grid) : (s.modGrid c n f).teams = s.teams := rfl
@[simp] theorem modGrid_saved (c n : Nat) (f : Grid → Grid) : (s.modGrid c n f).saved = s.saved := rfl
@[simp] theorem modGrid_convoys (c n : Nat) (f : Grid → Grid) : (s.modGrid c n f).convoys = s.convoys := rfl
@[simp] theorem modGrid_claims (c n : Nat) (f : Grid → Grid) : (s.modGrid c n f).claims = s.claims := rfl
@[simp] theorem modGrid_ops (c n : Nat) (f : Grid → Grid) : (s.modGrid c n f).ops = s.ops := rfl
@[simp] theorem modGrid_matrix (c n : Nat) (f : Grid → Grid) : (s.modGrid c n f).matrix = s.matrix := rfl
@[simp] theorem modGrid_rays (c n : Nat) (f : Grid → Grid) : (s.modGrid c n f).rays = s.rays := rfl
@[simp] theorem modGrid_conts (c n : Nat) (f : Grid → Grid) : (s.modGrid c n f).conts = s.conts := rfl
@[simp] theorem modGrid_idle (c n : Nat) (f : Grid → Grid) : (s.modGrid c n f).idle = s.idle := rfl
@[simp] theorem modGrid_bricks (c n : Nat) (f : Grid → Grid) : (s.modGrid c n f).bricks = s.bricks := rfl
@[simp] theorem modGrid_clocks (c n : Nat) (f : Grid → Grid) : (s.modGrid c n f).clocks = s.clocks := rfl
@[simp] theorem modGrid_lines (c n : Nat) (f : Grid → Grid) : (s.modGrid c n f).lines = s.lines := rfl
@[simp] theorem modGrid_tdir (c n : Nat) (f : Grid → Grid) : (s.modGrid c n f).tdir = s.tdir := rfl
@[simp] theorem modGrid_walkers (c n : Nat) (f : Grid → Grid) : (s.modGrid c n f).walkers = s.walkers := rfl
@[simp] theorem modGrid_flips (c n : Nat) (f : Grid → Grid) : (s.modGrid c n f).flips = s.flips := rfl
@[simp] theorem modGrid_migs (c n : Nat) (f : Grid → Grid) : (s.modGrid c n f).migs = s.migs := rfl
@[simp] theorem modGrid_migctl (c n : Nat) (f : Grid → Grid) : (s.modGrid c n f).migctl = s.migctl := rfl
@[simp] theorem modGrid_migRing (c n : Nat) (f : Grid → Grid) : (s.modGrid c n f).migRing = s.migRing := rfl
@[simp] theorem modGrid_migHead (c n : Nat) (f : Grid → Grid) : (s.modGrid c n f).migHead = s.migHead := rfl
@[simp] theorem modGrid_migTail (c n : Nat) (f : Grid → Grid) : (s.modGrid c n f).migTail = s.migTail := rfl
@[simp] theorem modGrid_served (c n : Nat) (f : Grid → Grid) : (s.modGrid c n f).served = s.served := rfl
@[simp] theorem modGrid_held (c n : Nat) (f : Grid → Grid) : (s.modGrid c n f).held = s.held := rfl
@[simp] theorem modGrid_port (c n : Nat) (f : Grid → Grid) : (s.modGrid c n f).port = s.port := rfl
@[simp] theorem modGrid_conns (c n : Nat) (f : Grid → Grid) : (s.modGrid c n f).conns = s.conns := rfl
@[simp] theorem modGrid_requests (c n : Nat) (f : Grid → Grid) : (s.modGrid c n f).requests = s.requests := rfl
@[simp] theorem modGrid_away (c n : Nat) (f : Grid → Grid) : (s.modGrid c n f).away = s.away := rfl
@[simp] theorem modGrid_job (c n : Nat) (f : Grid → Grid) : (s.modGrid c n f).job = s.job := rfl
@[simp] theorem modGrid_outbox (c n : Nat) (f : Grid → Grid) : (s.modGrid c n f).outbox = s.outbox := rfl
@[simp] theorem modGrid_wire (c n : Nat) (f : Grid → Grid) : (s.modGrid c n f).wire = s.wire := rfl
@[simp] theorem modGrid_inbound (c n : Nat) (f : Grid → Grid) : (s.modGrid c n f).inbound = s.inbound := rfl
@[simp] theorem modGrid_errRings (c n : Nat) (f : Grid → Grid) : (s.modGrid c n f).errRings = s.errRings := rfl
@[simp] theorem modGrid_errLost (c n : Nat) (f : Grid → Grid) : (s.modGrid c n f).errLost = s.errLost := rfl
@[simp] theorem modGrid_errWarned (c n : Nat) (f : Grid → Grid) : (s.modGrid c n f).errWarned = s.errWarned := rfl
@[simp] theorem modGrid_events (c n : Nat) (f : Grid → Grid) : (s.modGrid c n f).events = s.events := rfl
@[simp] theorem modGrid_evLost (c n : Nat) (f : Grid → Grid) : (s.modGrid c n f).evLost = s.evLost := rfl
@[simp] theorem modGrid_fused (c n : Nat) (f : Grid → Grid) : (s.modGrid c n f).fused = s.fused := rfl
@[simp] theorem modGrid_softFused (c n : Nat) (f : Grid → Grid) : (s.modGrid c n f).softFused = s.softFused := rfl
@[simp] theorem modGrid_disabled (c n : Nat) (f : Grid → Grid) : (s.modGrid c n f).disabled = s.disabled := rfl
@[simp] theorem modGrid_boot (c n : Nat) (f : Grid → Grid) : (s.modGrid c n f).boot = s.boot := rfl
@[simp] theorem modGrid_strap (c n : Nat) (f : Grid → Grid) : (s.modGrid c n f).strap = s.strap := rfl
@[simp] theorem modGrid_svn (c n : Nat) (f : Grid → Grid) : (s.modGrid c n f).svn = s.svn := rfl
@[simp] theorem modGrid_health (c n : Nat) (f : Grid → Grid) : (s.modGrid c n f).health = s.health := rfl
@[simp] theorem modGrid_eolWarned (c n : Nat) (f : Grid → Grid) : (s.modGrid c n f).eolWarned = s.eolWarned := rfl
@[simp] theorem modGrid_secCores (c n : Nat) (f : Grid → Grid) : (s.modGrid c n f).secCores = s.secCores := rfl
@[simp] theorem modGrid_secPorts (c n : Nat) (f : Grid → Grid) : (s.modGrid c n f).secPorts = s.secPorts := rfl
@[simp] theorem modGrid_secRegions (c n : Nat) (f : Grid → Grid) : (s.modGrid c n f).secRegions = s.secRegions := rfl
@[simp] theorem modGrid_meas (c n : Nat) (f : Grid → Grid) : (s.modGrid c n f).meas = s.meas := rfl
@[simp] theorem modGrid_quotes (c n : Nat) (f : Grid → Grid) : (s.modGrid c n f).quotes = s.quotes := rfl
@[simp] theorem modGrid_fwStage (c n : Nat) (f : Grid → Grid) : (s.modGrid c n f).fwStage = s.fwStage := rfl
@[simp] theorem modGrid_fwFlash (c n : Nat) (f : Grid → Grid) : (s.modGrid c n f).fwFlash = s.fwFlash := rfl
@[simp] theorem modGrid_resetN (c n : Nat) (f : Grid → Grid) : (s.modGrid c n f).resetN = s.resetN := rfl
@[simp] theorem modGrid_pwrgd (c n : Nat) (f : Grid → Grid) : (s.modGrid c n f).pwrgd = s.pwrgd := rfl
@[simp] theorem modGrid_throttled (c n : Nat) (f : Grid → Grid) : (s.modGrid c n f).throttled = s.throttled := rfl
@[simp] theorem modGrid_tripped (c n : Nat) (f : Grid → Grid) : (s.modGrid c n f).tripped = s.tripped := rfl
@[simp] theorem modGrid_pwrLimit (c n : Nat) (f : Grid → Grid) : (s.modGrid c n f).pwrLimit = s.pwrLimit := rfl

/-! ## State.modOp -/

@[simp] theorem modOp_cur (id : Nat) (f : Op → Op) : (s.modOp id f).cur = s.cur := rfl
@[simp] theorem modOp_turns (id : Nat) (f : Op → Op) : (s.modOp id f).turns = s.turns := rfl
@[simp] theorem modOp_inbox (id : Nat) (f : Op → Op) : (s.modOp id f).inbox = s.inbox := rfl
@[simp] theorem modOp_nextId (id : Nat) (f : Op → Op) : (s.modOp id f).nextId = s.nextId := rfl
@[simp] theorem modOp_free (id : Nat) (f : Op → Op) : (s.modOp id f).free = s.free := rfl
@[simp] theorem modOp_mem (id : Nat) (f : Op → Op) : (s.modOp id f).mem = s.mem := rfl
@[simp] theorem modOp_poison (id : Nat) (f : Op → Op) : (s.modOp id f).poison = s.poison := rfl
@[simp] theorem modOp_dirBad (id : Nat) (f : Op → Op) : (s.modOp id f).dirBad = s.dirBad := rfl
@[simp] theorem modOp_hostMem (id : Nat) (f : Op → Op) : (s.modOp id f).hostMem = s.hostMem := rfl
@[simp] theorem modOp_hostPoison (id : Nat) (f : Op → Op) : (s.modOp id f).hostPoison = s.hostPoison := rfl
@[simp] theorem modOp_hostLines (id : Nat) (f : Op → Op) : (s.modOp id f).hostLines = s.hostLines := rfl
@[simp] theorem modOp_hostDirty (id : Nat) (f : Op → Op) : (s.modOp id f).hostDirty = s.hostDirty := rfl
@[simp] theorem modOp_contexts (id : Nat) (f : Op → Op) : (s.modOp id f).contexts = s.contexts := rfl
@[simp] theorem modOp_grids (id : Nat) (f : Op → Op) : (s.modOp id f).grids = s.grids := rfl
@[simp] theorem modOp_teams (id : Nat) (f : Op → Op) : (s.modOp id f).teams = s.teams := rfl
@[simp] theorem modOp_saved (id : Nat) (f : Op → Op) : (s.modOp id f).saved = s.saved := rfl
@[simp] theorem modOp_convoys (id : Nat) (f : Op → Op) : (s.modOp id f).convoys = s.convoys := rfl
@[simp] theorem modOp_claims (id : Nat) (f : Op → Op) : (s.modOp id f).claims = s.claims := rfl
@[simp] theorem modOp_matrix (id : Nat) (f : Op → Op) : (s.modOp id f).matrix = s.matrix := rfl
@[simp] theorem modOp_rays (id : Nat) (f : Op → Op) : (s.modOp id f).rays = s.rays := rfl
@[simp] theorem modOp_conts (id : Nat) (f : Op → Op) : (s.modOp id f).conts = s.conts := rfl
@[simp] theorem modOp_idle (id : Nat) (f : Op → Op) : (s.modOp id f).idle = s.idle := rfl
@[simp] theorem modOp_bricks (id : Nat) (f : Op → Op) : (s.modOp id f).bricks = s.bricks := rfl
@[simp] theorem modOp_clocks (id : Nat) (f : Op → Op) : (s.modOp id f).clocks = s.clocks := rfl
@[simp] theorem modOp_lines (id : Nat) (f : Op → Op) : (s.modOp id f).lines = s.lines := rfl
@[simp] theorem modOp_tdir (id : Nat) (f : Op → Op) : (s.modOp id f).tdir = s.tdir := rfl
@[simp] theorem modOp_walkers (id : Nat) (f : Op → Op) : (s.modOp id f).walkers = s.walkers := rfl
@[simp] theorem modOp_flips (id : Nat) (f : Op → Op) : (s.modOp id f).flips = s.flips := rfl
@[simp] theorem modOp_migs (id : Nat) (f : Op → Op) : (s.modOp id f).migs = s.migs := rfl
@[simp] theorem modOp_migctl (id : Nat) (f : Op → Op) : (s.modOp id f).migctl = s.migctl := rfl
@[simp] theorem modOp_migRing (id : Nat) (f : Op → Op) : (s.modOp id f).migRing = s.migRing := rfl
@[simp] theorem modOp_migHead (id : Nat) (f : Op → Op) : (s.modOp id f).migHead = s.migHead := rfl
@[simp] theorem modOp_migTail (id : Nat) (f : Op → Op) : (s.modOp id f).migTail = s.migTail := rfl
@[simp] theorem modOp_served (id : Nat) (f : Op → Op) : (s.modOp id f).served = s.served := rfl
@[simp] theorem modOp_held (id : Nat) (f : Op → Op) : (s.modOp id f).held = s.held := rfl
@[simp] theorem modOp_port (id : Nat) (f : Op → Op) : (s.modOp id f).port = s.port := rfl
@[simp] theorem modOp_conns (id : Nat) (f : Op → Op) : (s.modOp id f).conns = s.conns := rfl
@[simp] theorem modOp_requests (id : Nat) (f : Op → Op) : (s.modOp id f).requests = s.requests := rfl
@[simp] theorem modOp_away (id : Nat) (f : Op → Op) : (s.modOp id f).away = s.away := rfl
@[simp] theorem modOp_job (id : Nat) (f : Op → Op) : (s.modOp id f).job = s.job := rfl
@[simp] theorem modOp_outbox (id : Nat) (f : Op → Op) : (s.modOp id f).outbox = s.outbox := rfl
@[simp] theorem modOp_wire (id : Nat) (f : Op → Op) : (s.modOp id f).wire = s.wire := rfl
@[simp] theorem modOp_inbound (id : Nat) (f : Op → Op) : (s.modOp id f).inbound = s.inbound := rfl
@[simp] theorem modOp_errRings (id : Nat) (f : Op → Op) : (s.modOp id f).errRings = s.errRings := rfl
@[simp] theorem modOp_errLost (id : Nat) (f : Op → Op) : (s.modOp id f).errLost = s.errLost := rfl
@[simp] theorem modOp_errWarned (id : Nat) (f : Op → Op) : (s.modOp id f).errWarned = s.errWarned := rfl
@[simp] theorem modOp_events (id : Nat) (f : Op → Op) : (s.modOp id f).events = s.events := rfl
@[simp] theorem modOp_evLost (id : Nat) (f : Op → Op) : (s.modOp id f).evLost = s.evLost := rfl
@[simp] theorem modOp_fused (id : Nat) (f : Op → Op) : (s.modOp id f).fused = s.fused := rfl
@[simp] theorem modOp_softFused (id : Nat) (f : Op → Op) : (s.modOp id f).softFused = s.softFused := rfl
@[simp] theorem modOp_disabled (id : Nat) (f : Op → Op) : (s.modOp id f).disabled = s.disabled := rfl
@[simp] theorem modOp_boot (id : Nat) (f : Op → Op) : (s.modOp id f).boot = s.boot := rfl
@[simp] theorem modOp_strap (id : Nat) (f : Op → Op) : (s.modOp id f).strap = s.strap := rfl
@[simp] theorem modOp_svn (id : Nat) (f : Op → Op) : (s.modOp id f).svn = s.svn := rfl
@[simp] theorem modOp_health (id : Nat) (f : Op → Op) : (s.modOp id f).health = s.health := rfl
@[simp] theorem modOp_eolWarned (id : Nat) (f : Op → Op) : (s.modOp id f).eolWarned = s.eolWarned := rfl
@[simp] theorem modOp_secCores (id : Nat) (f : Op → Op) : (s.modOp id f).secCores = s.secCores := rfl
@[simp] theorem modOp_secPorts (id : Nat) (f : Op → Op) : (s.modOp id f).secPorts = s.secPorts := rfl
@[simp] theorem modOp_secRegions (id : Nat) (f : Op → Op) : (s.modOp id f).secRegions = s.secRegions := rfl
@[simp] theorem modOp_meas (id : Nat) (f : Op → Op) : (s.modOp id f).meas = s.meas := rfl
@[simp] theorem modOp_quotes (id : Nat) (f : Op → Op) : (s.modOp id f).quotes = s.quotes := rfl
@[simp] theorem modOp_fwStage (id : Nat) (f : Op → Op) : (s.modOp id f).fwStage = s.fwStage := rfl
@[simp] theorem modOp_fwFlash (id : Nat) (f : Op → Op) : (s.modOp id f).fwFlash = s.fwFlash := rfl
@[simp] theorem modOp_resetN (id : Nat) (f : Op → Op) : (s.modOp id f).resetN = s.resetN := rfl
@[simp] theorem modOp_pwrgd (id : Nat) (f : Op → Op) : (s.modOp id f).pwrgd = s.pwrgd := rfl
@[simp] theorem modOp_throttled (id : Nat) (f : Op → Op) : (s.modOp id f).throttled = s.throttled := rfl
@[simp] theorem modOp_tripped (id : Nat) (f : Op → Op) : (s.modOp id f).tripped = s.tripped := rfl
@[simp] theorem modOp_pwrLimit (id : Nat) (f : Op → Op) : (s.modOp id f).pwrLimit = s.pwrLimit := rfl

/-! ## State.setConn -/

@[simp] theorem setConn_cur (c : Conn) : (s.setConn c).cur = s.cur := rfl
@[simp] theorem setConn_turns (c : Conn) : (s.setConn c).turns = s.turns := rfl
@[simp] theorem setConn_inbox (c : Conn) : (s.setConn c).inbox = s.inbox := rfl
@[simp] theorem setConn_nextId (c : Conn) : (s.setConn c).nextId = s.nextId := rfl
@[simp] theorem setConn_free (c : Conn) : (s.setConn c).free = s.free := rfl
@[simp] theorem setConn_mem (c : Conn) : (s.setConn c).mem = s.mem := rfl
@[simp] theorem setConn_poison (c : Conn) : (s.setConn c).poison = s.poison := rfl
@[simp] theorem setConn_dirBad (c : Conn) : (s.setConn c).dirBad = s.dirBad := rfl
@[simp] theorem setConn_hostMem (c : Conn) : (s.setConn c).hostMem = s.hostMem := rfl
@[simp] theorem setConn_hostPoison (c : Conn) : (s.setConn c).hostPoison = s.hostPoison := rfl
@[simp] theorem setConn_hostLines (c : Conn) : (s.setConn c).hostLines = s.hostLines := rfl
@[simp] theorem setConn_hostDirty (c : Conn) : (s.setConn c).hostDirty = s.hostDirty := rfl
@[simp] theorem setConn_contexts (c : Conn) : (s.setConn c).contexts = s.contexts := rfl
@[simp] theorem setConn_grids (c : Conn) : (s.setConn c).grids = s.grids := rfl
@[simp] theorem setConn_teams (c : Conn) : (s.setConn c).teams = s.teams := rfl
@[simp] theorem setConn_saved (c : Conn) : (s.setConn c).saved = s.saved := rfl
@[simp] theorem setConn_convoys (c : Conn) : (s.setConn c).convoys = s.convoys := rfl
@[simp] theorem setConn_claims (c : Conn) : (s.setConn c).claims = s.claims := rfl
@[simp] theorem setConn_ops (c : Conn) : (s.setConn c).ops = s.ops := rfl
@[simp] theorem setConn_matrix (c : Conn) : (s.setConn c).matrix = s.matrix := rfl
@[simp] theorem setConn_rays (c : Conn) : (s.setConn c).rays = s.rays := rfl
@[simp] theorem setConn_conts (c : Conn) : (s.setConn c).conts = s.conts := rfl
@[simp] theorem setConn_idle (c : Conn) : (s.setConn c).idle = s.idle := rfl
@[simp] theorem setConn_bricks (c : Conn) : (s.setConn c).bricks = s.bricks := rfl
@[simp] theorem setConn_clocks (c : Conn) : (s.setConn c).clocks = s.clocks := rfl
@[simp] theorem setConn_lines (c : Conn) : (s.setConn c).lines = s.lines := rfl
@[simp] theorem setConn_tdir (c : Conn) : (s.setConn c).tdir = s.tdir := rfl
@[simp] theorem setConn_walkers (c : Conn) : (s.setConn c).walkers = s.walkers := rfl
@[simp] theorem setConn_flips (c : Conn) : (s.setConn c).flips = s.flips := rfl
@[simp] theorem setConn_migs (c : Conn) : (s.setConn c).migs = s.migs := rfl
@[simp] theorem setConn_migctl (c : Conn) : (s.setConn c).migctl = s.migctl := rfl
@[simp] theorem setConn_migRing (c : Conn) : (s.setConn c).migRing = s.migRing := rfl
@[simp] theorem setConn_migHead (c : Conn) : (s.setConn c).migHead = s.migHead := rfl
@[simp] theorem setConn_migTail (c : Conn) : (s.setConn c).migTail = s.migTail := rfl
@[simp] theorem setConn_served (c : Conn) : (s.setConn c).served = s.served := rfl
@[simp] theorem setConn_held (c : Conn) : (s.setConn c).held = s.held := rfl
@[simp] theorem setConn_port (c : Conn) : (s.setConn c).port = s.port := rfl
@[simp] theorem setConn_requests (c : Conn) : (s.setConn c).requests = s.requests := rfl
@[simp] theorem setConn_away (c : Conn) : (s.setConn c).away = s.away := rfl
@[simp] theorem setConn_job (c : Conn) : (s.setConn c).job = s.job := rfl
@[simp] theorem setConn_outbox (c : Conn) : (s.setConn c).outbox = s.outbox := rfl
@[simp] theorem setConn_wire (c : Conn) : (s.setConn c).wire = s.wire := rfl
@[simp] theorem setConn_inbound (c : Conn) : (s.setConn c).inbound = s.inbound := rfl
@[simp] theorem setConn_errRings (c : Conn) : (s.setConn c).errRings = s.errRings := rfl
@[simp] theorem setConn_errLost (c : Conn) : (s.setConn c).errLost = s.errLost := rfl
@[simp] theorem setConn_errWarned (c : Conn) : (s.setConn c).errWarned = s.errWarned := rfl
@[simp] theorem setConn_events (c : Conn) : (s.setConn c).events = s.events := rfl
@[simp] theorem setConn_evLost (c : Conn) : (s.setConn c).evLost = s.evLost := rfl
@[simp] theorem setConn_fused (c : Conn) : (s.setConn c).fused = s.fused := rfl
@[simp] theorem setConn_softFused (c : Conn) : (s.setConn c).softFused = s.softFused := rfl
@[simp] theorem setConn_disabled (c : Conn) : (s.setConn c).disabled = s.disabled := rfl
@[simp] theorem setConn_boot (c : Conn) : (s.setConn c).boot = s.boot := rfl
@[simp] theorem setConn_strap (c : Conn) : (s.setConn c).strap = s.strap := rfl
@[simp] theorem setConn_svn (c : Conn) : (s.setConn c).svn = s.svn := rfl
@[simp] theorem setConn_health (c : Conn) : (s.setConn c).health = s.health := rfl
@[simp] theorem setConn_eolWarned (c : Conn) : (s.setConn c).eolWarned = s.eolWarned := rfl
@[simp] theorem setConn_secCores (c : Conn) : (s.setConn c).secCores = s.secCores := rfl
@[simp] theorem setConn_secPorts (c : Conn) : (s.setConn c).secPorts = s.secPorts := rfl
@[simp] theorem setConn_secRegions (c : Conn) : (s.setConn c).secRegions = s.secRegions := rfl
@[simp] theorem setConn_meas (c : Conn) : (s.setConn c).meas = s.meas := rfl
@[simp] theorem setConn_quotes (c : Conn) : (s.setConn c).quotes = s.quotes := rfl
@[simp] theorem setConn_fwStage (c : Conn) : (s.setConn c).fwStage = s.fwStage := rfl
@[simp] theorem setConn_fwFlash (c : Conn) : (s.setConn c).fwFlash = s.fwFlash := rfl
@[simp] theorem setConn_resetN (c : Conn) : (s.setConn c).resetN = s.resetN := rfl
@[simp] theorem setConn_pwrgd (c : Conn) : (s.setConn c).pwrgd = s.pwrgd := rfl
@[simp] theorem setConn_throttled (c : Conn) : (s.setConn c).throttled = s.throttled := rfl
@[simp] theorem setConn_tripped (c : Conn) : (s.setConn c).tripped = s.tripped := rfl
@[simp] theorem setConn_pwrLimit (c : Conn) : (s.setConn c).pwrLimit = s.pwrLimit := rfl

/-! ## State.post -/

@[simp] theorem post_cur (m : OutMsg) (secure : Bool) : (s.post m secure).cur = s.cur := rfl
@[simp] theorem post_turns (m : OutMsg) (secure : Bool) : (s.post m secure).turns = s.turns := rfl
@[simp] theorem post_inbox (m : OutMsg) (secure : Bool) : (s.post m secure).inbox = s.inbox := rfl
@[simp] theorem post_nextId (m : OutMsg) (secure : Bool) : (s.post m secure).nextId = s.nextId := rfl
@[simp] theorem post_free (m : OutMsg) (secure : Bool) : (s.post m secure).free = s.free := rfl
@[simp] theorem post_mem (m : OutMsg) (secure : Bool) : (s.post m secure).mem = s.mem := rfl
@[simp] theorem post_poison (m : OutMsg) (secure : Bool) : (s.post m secure).poison = s.poison := rfl
@[simp] theorem post_dirBad (m : OutMsg) (secure : Bool) : (s.post m secure).dirBad = s.dirBad := rfl
@[simp] theorem post_hostMem (m : OutMsg) (secure : Bool) : (s.post m secure).hostMem = s.hostMem := rfl
@[simp] theorem post_hostPoison (m : OutMsg) (secure : Bool) : (s.post m secure).hostPoison = s.hostPoison := rfl
@[simp] theorem post_hostLines (m : OutMsg) (secure : Bool) : (s.post m secure).hostLines = s.hostLines := rfl
@[simp] theorem post_hostDirty (m : OutMsg) (secure : Bool) : (s.post m secure).hostDirty = s.hostDirty := rfl
@[simp] theorem post_contexts (m : OutMsg) (secure : Bool) : (s.post m secure).contexts = s.contexts := rfl
@[simp] theorem post_grids (m : OutMsg) (secure : Bool) : (s.post m secure).grids = s.grids := rfl
@[simp] theorem post_teams (m : OutMsg) (secure : Bool) : (s.post m secure).teams = s.teams := rfl
@[simp] theorem post_saved (m : OutMsg) (secure : Bool) : (s.post m secure).saved = s.saved := rfl
@[simp] theorem post_convoys (m : OutMsg) (secure : Bool) : (s.post m secure).convoys = s.convoys := rfl
@[simp] theorem post_claims (m : OutMsg) (secure : Bool) : (s.post m secure).claims = s.claims := rfl
@[simp] theorem post_ops (m : OutMsg) (secure : Bool) : (s.post m secure).ops = s.ops := rfl
@[simp] theorem post_matrix (m : OutMsg) (secure : Bool) : (s.post m secure).matrix = s.matrix := rfl
@[simp] theorem post_rays (m : OutMsg) (secure : Bool) : (s.post m secure).rays = s.rays := rfl
@[simp] theorem post_conts (m : OutMsg) (secure : Bool) : (s.post m secure).conts = s.conts := rfl
@[simp] theorem post_idle (m : OutMsg) (secure : Bool) : (s.post m secure).idle = s.idle := rfl
@[simp] theorem post_bricks (m : OutMsg) (secure : Bool) : (s.post m secure).bricks = s.bricks := rfl
@[simp] theorem post_clocks (m : OutMsg) (secure : Bool) : (s.post m secure).clocks = s.clocks := rfl
@[simp] theorem post_lines (m : OutMsg) (secure : Bool) : (s.post m secure).lines = s.lines := rfl
@[simp] theorem post_tdir (m : OutMsg) (secure : Bool) : (s.post m secure).tdir = s.tdir := rfl
@[simp] theorem post_walkers (m : OutMsg) (secure : Bool) : (s.post m secure).walkers = s.walkers := rfl
@[simp] theorem post_flips (m : OutMsg) (secure : Bool) : (s.post m secure).flips = s.flips := rfl
@[simp] theorem post_migs (m : OutMsg) (secure : Bool) : (s.post m secure).migs = s.migs := rfl
@[simp] theorem post_migctl (m : OutMsg) (secure : Bool) : (s.post m secure).migctl = s.migctl := rfl
@[simp] theorem post_migRing (m : OutMsg) (secure : Bool) : (s.post m secure).migRing = s.migRing := rfl
@[simp] theorem post_migHead (m : OutMsg) (secure : Bool) : (s.post m secure).migHead = s.migHead := rfl
@[simp] theorem post_migTail (m : OutMsg) (secure : Bool) : (s.post m secure).migTail = s.migTail := rfl
@[simp] theorem post_served (m : OutMsg) (secure : Bool) : (s.post m secure).served = s.served := rfl
@[simp] theorem post_held (m : OutMsg) (secure : Bool) : (s.post m secure).held = s.held := rfl
@[simp] theorem post_port (m : OutMsg) (secure : Bool) : (s.post m secure).port = s.port := rfl
@[simp] theorem post_requests (m : OutMsg) (secure : Bool) : (s.post m secure).requests = s.requests := rfl
@[simp] theorem post_away (m : OutMsg) (secure : Bool) : (s.post m secure).away = s.away := rfl
@[simp] theorem post_job (m : OutMsg) (secure : Bool) : (s.post m secure).job = s.job := rfl
@[simp] theorem post_inbound (m : OutMsg) (secure : Bool) : (s.post m secure).inbound = s.inbound := rfl
@[simp] theorem post_errRings (m : OutMsg) (secure : Bool) : (s.post m secure).errRings = s.errRings := rfl
@[simp] theorem post_errLost (m : OutMsg) (secure : Bool) : (s.post m secure).errLost = s.errLost := rfl
@[simp] theorem post_errWarned (m : OutMsg) (secure : Bool) : (s.post m secure).errWarned = s.errWarned := rfl
@[simp] theorem post_events (m : OutMsg) (secure : Bool) : (s.post m secure).events = s.events := rfl
@[simp] theorem post_evLost (m : OutMsg) (secure : Bool) : (s.post m secure).evLost = s.evLost := rfl
@[simp] theorem post_fused (m : OutMsg) (secure : Bool) : (s.post m secure).fused = s.fused := rfl
@[simp] theorem post_softFused (m : OutMsg) (secure : Bool) : (s.post m secure).softFused = s.softFused := rfl
@[simp] theorem post_disabled (m : OutMsg) (secure : Bool) : (s.post m secure).disabled = s.disabled := rfl
@[simp] theorem post_boot (m : OutMsg) (secure : Bool) : (s.post m secure).boot = s.boot := rfl
@[simp] theorem post_strap (m : OutMsg) (secure : Bool) : (s.post m secure).strap = s.strap := rfl
@[simp] theorem post_svn (m : OutMsg) (secure : Bool) : (s.post m secure).svn = s.svn := rfl
@[simp] theorem post_health (m : OutMsg) (secure : Bool) : (s.post m secure).health = s.health := rfl
@[simp] theorem post_eolWarned (m : OutMsg) (secure : Bool) : (s.post m secure).eolWarned = s.eolWarned := rfl
@[simp] theorem post_secCores (m : OutMsg) (secure : Bool) : (s.post m secure).secCores = s.secCores := rfl
@[simp] theorem post_secPorts (m : OutMsg) (secure : Bool) : (s.post m secure).secPorts = s.secPorts := rfl
@[simp] theorem post_secRegions (m : OutMsg) (secure : Bool) : (s.post m secure).secRegions = s.secRegions := rfl
@[simp] theorem post_meas (m : OutMsg) (secure : Bool) : (s.post m secure).meas = s.meas := rfl
@[simp] theorem post_quotes (m : OutMsg) (secure : Bool) : (s.post m secure).quotes = s.quotes := rfl
@[simp] theorem post_fwStage (m : OutMsg) (secure : Bool) : (s.post m secure).fwStage = s.fwStage := rfl
@[simp] theorem post_fwFlash (m : OutMsg) (secure : Bool) : (s.post m secure).fwFlash = s.fwFlash := rfl
@[simp] theorem post_resetN (m : OutMsg) (secure : Bool) : (s.post m secure).resetN = s.resetN := rfl
@[simp] theorem post_pwrgd (m : OutMsg) (secure : Bool) : (s.post m secure).pwrgd = s.pwrgd := rfl
@[simp] theorem post_throttled (m : OutMsg) (secure : Bool) : (s.post m secure).throttled = s.throttled := rfl
@[simp] theorem post_tripped (m : OutMsg) (secure : Bool) : (s.post m secure).tripped = s.tripped := rfl
@[simp] theorem post_pwrLimit (m : OutMsg) (secure : Bool) : (s.post m secure).pwrLimit = s.pwrLimit := rfl
@[simp] theorem post_outbox (m : OutMsg) (secure : Bool) : (s.post m secure).outbox = s.outbox ++ [m] := rfl
@[simp] theorem post_wire (m : OutMsg) (secure : Bool) : (s.post m secure).wire = s.wire ++ [s.frameOf m secure] := rfl

/-! ## State.reply -/

@[simp] theorem reply_cur (conn : ConnId) (kind ctx stat : Nat) (data : List Byte) (secure : Bool) : (s.reply conn kind ctx stat data secure).cur = s.cur := rfl
@[simp] theorem reply_turns (conn : ConnId) (kind ctx stat : Nat) (data : List Byte) (secure : Bool) : (s.reply conn kind ctx stat data secure).turns = s.turns := rfl
@[simp] theorem reply_inbox (conn : ConnId) (kind ctx stat : Nat) (data : List Byte) (secure : Bool) : (s.reply conn kind ctx stat data secure).inbox = s.inbox := rfl
@[simp] theorem reply_nextId (conn : ConnId) (kind ctx stat : Nat) (data : List Byte) (secure : Bool) : (s.reply conn kind ctx stat data secure).nextId = s.nextId := rfl
@[simp] theorem reply_free (conn : ConnId) (kind ctx stat : Nat) (data : List Byte) (secure : Bool) : (s.reply conn kind ctx stat data secure).free = s.free := rfl
@[simp] theorem reply_mem (conn : ConnId) (kind ctx stat : Nat) (data : List Byte) (secure : Bool) : (s.reply conn kind ctx stat data secure).mem = s.mem := rfl
@[simp] theorem reply_poison (conn : ConnId) (kind ctx stat : Nat) (data : List Byte) (secure : Bool) : (s.reply conn kind ctx stat data secure).poison = s.poison := rfl
@[simp] theorem reply_dirBad (conn : ConnId) (kind ctx stat : Nat) (data : List Byte) (secure : Bool) : (s.reply conn kind ctx stat data secure).dirBad = s.dirBad := rfl
@[simp] theorem reply_hostMem (conn : ConnId) (kind ctx stat : Nat) (data : List Byte) (secure : Bool) : (s.reply conn kind ctx stat data secure).hostMem = s.hostMem := rfl
@[simp] theorem reply_hostPoison (conn : ConnId) (kind ctx stat : Nat) (data : List Byte) (secure : Bool) : (s.reply conn kind ctx stat data secure).hostPoison = s.hostPoison := rfl
@[simp] theorem reply_hostLines (conn : ConnId) (kind ctx stat : Nat) (data : List Byte) (secure : Bool) : (s.reply conn kind ctx stat data secure).hostLines = s.hostLines := rfl
@[simp] theorem reply_hostDirty (conn : ConnId) (kind ctx stat : Nat) (data : List Byte) (secure : Bool) : (s.reply conn kind ctx stat data secure).hostDirty = s.hostDirty := rfl
@[simp] theorem reply_contexts (conn : ConnId) (kind ctx stat : Nat) (data : List Byte) (secure : Bool) : (s.reply conn kind ctx stat data secure).contexts = s.contexts := rfl
@[simp] theorem reply_grids (conn : ConnId) (kind ctx stat : Nat) (data : List Byte) (secure : Bool) : (s.reply conn kind ctx stat data secure).grids = s.grids := rfl
@[simp] theorem reply_teams (conn : ConnId) (kind ctx stat : Nat) (data : List Byte) (secure : Bool) : (s.reply conn kind ctx stat data secure).teams = s.teams := rfl
@[simp] theorem reply_saved (conn : ConnId) (kind ctx stat : Nat) (data : List Byte) (secure : Bool) : (s.reply conn kind ctx stat data secure).saved = s.saved := rfl
@[simp] theorem reply_convoys (conn : ConnId) (kind ctx stat : Nat) (data : List Byte) (secure : Bool) : (s.reply conn kind ctx stat data secure).convoys = s.convoys := rfl
@[simp] theorem reply_claims (conn : ConnId) (kind ctx stat : Nat) (data : List Byte) (secure : Bool) : (s.reply conn kind ctx stat data secure).claims = s.claims := rfl
@[simp] theorem reply_ops (conn : ConnId) (kind ctx stat : Nat) (data : List Byte) (secure : Bool) : (s.reply conn kind ctx stat data secure).ops = s.ops := rfl
@[simp] theorem reply_matrix (conn : ConnId) (kind ctx stat : Nat) (data : List Byte) (secure : Bool) : (s.reply conn kind ctx stat data secure).matrix = s.matrix := rfl
@[simp] theorem reply_rays (conn : ConnId) (kind ctx stat : Nat) (data : List Byte) (secure : Bool) : (s.reply conn kind ctx stat data secure).rays = s.rays := rfl
@[simp] theorem reply_conts (conn : ConnId) (kind ctx stat : Nat) (data : List Byte) (secure : Bool) : (s.reply conn kind ctx stat data secure).conts = s.conts := rfl
@[simp] theorem reply_idle (conn : ConnId) (kind ctx stat : Nat) (data : List Byte) (secure : Bool) : (s.reply conn kind ctx stat data secure).idle = s.idle := rfl
@[simp] theorem reply_bricks (conn : ConnId) (kind ctx stat : Nat) (data : List Byte) (secure : Bool) : (s.reply conn kind ctx stat data secure).bricks = s.bricks := rfl
@[simp] theorem reply_clocks (conn : ConnId) (kind ctx stat : Nat) (data : List Byte) (secure : Bool) : (s.reply conn kind ctx stat data secure).clocks = s.clocks := rfl
@[simp] theorem reply_lines (conn : ConnId) (kind ctx stat : Nat) (data : List Byte) (secure : Bool) : (s.reply conn kind ctx stat data secure).lines = s.lines := rfl
@[simp] theorem reply_tdir (conn : ConnId) (kind ctx stat : Nat) (data : List Byte) (secure : Bool) : (s.reply conn kind ctx stat data secure).tdir = s.tdir := rfl
@[simp] theorem reply_walkers (conn : ConnId) (kind ctx stat : Nat) (data : List Byte) (secure : Bool) : (s.reply conn kind ctx stat data secure).walkers = s.walkers := rfl
@[simp] theorem reply_flips (conn : ConnId) (kind ctx stat : Nat) (data : List Byte) (secure : Bool) : (s.reply conn kind ctx stat data secure).flips = s.flips := rfl
@[simp] theorem reply_migs (conn : ConnId) (kind ctx stat : Nat) (data : List Byte) (secure : Bool) : (s.reply conn kind ctx stat data secure).migs = s.migs := rfl
@[simp] theorem reply_migctl (conn : ConnId) (kind ctx stat : Nat) (data : List Byte) (secure : Bool) : (s.reply conn kind ctx stat data secure).migctl = s.migctl := rfl
@[simp] theorem reply_migRing (conn : ConnId) (kind ctx stat : Nat) (data : List Byte) (secure : Bool) : (s.reply conn kind ctx stat data secure).migRing = s.migRing := rfl
@[simp] theorem reply_migHead (conn : ConnId) (kind ctx stat : Nat) (data : List Byte) (secure : Bool) : (s.reply conn kind ctx stat data secure).migHead = s.migHead := rfl
@[simp] theorem reply_migTail (conn : ConnId) (kind ctx stat : Nat) (data : List Byte) (secure : Bool) : (s.reply conn kind ctx stat data secure).migTail = s.migTail := rfl
@[simp] theorem reply_served (conn : ConnId) (kind ctx stat : Nat) (data : List Byte) (secure : Bool) : (s.reply conn kind ctx stat data secure).served = s.served := rfl
@[simp] theorem reply_held (conn : ConnId) (kind ctx stat : Nat) (data : List Byte) (secure : Bool) : (s.reply conn kind ctx stat data secure).held = s.held := rfl
@[simp] theorem reply_port (conn : ConnId) (kind ctx stat : Nat) (data : List Byte) (secure : Bool) : (s.reply conn kind ctx stat data secure).port = s.port := rfl
@[simp] theorem reply_requests (conn : ConnId) (kind ctx stat : Nat) (data : List Byte) (secure : Bool) : (s.reply conn kind ctx stat data secure).requests = s.requests := rfl
@[simp] theorem reply_away (conn : ConnId) (kind ctx stat : Nat) (data : List Byte) (secure : Bool) : (s.reply conn kind ctx stat data secure).away = s.away := rfl
@[simp] theorem reply_job (conn : ConnId) (kind ctx stat : Nat) (data : List Byte) (secure : Bool) : (s.reply conn kind ctx stat data secure).job = s.job := rfl
@[simp] theorem reply_inbound (conn : ConnId) (kind ctx stat : Nat) (data : List Byte) (secure : Bool) : (s.reply conn kind ctx stat data secure).inbound = s.inbound := rfl
@[simp] theorem reply_errRings (conn : ConnId) (kind ctx stat : Nat) (data : List Byte) (secure : Bool) : (s.reply conn kind ctx stat data secure).errRings = s.errRings := rfl
@[simp] theorem reply_errLost (conn : ConnId) (kind ctx stat : Nat) (data : List Byte) (secure : Bool) : (s.reply conn kind ctx stat data secure).errLost = s.errLost := rfl
@[simp] theorem reply_errWarned (conn : ConnId) (kind ctx stat : Nat) (data : List Byte) (secure : Bool) : (s.reply conn kind ctx stat data secure).errWarned = s.errWarned := rfl
@[simp] theorem reply_events (conn : ConnId) (kind ctx stat : Nat) (data : List Byte) (secure : Bool) : (s.reply conn kind ctx stat data secure).events = s.events := rfl
@[simp] theorem reply_evLost (conn : ConnId) (kind ctx stat : Nat) (data : List Byte) (secure : Bool) : (s.reply conn kind ctx stat data secure).evLost = s.evLost := rfl
@[simp] theorem reply_fused (conn : ConnId) (kind ctx stat : Nat) (data : List Byte) (secure : Bool) : (s.reply conn kind ctx stat data secure).fused = s.fused := rfl
@[simp] theorem reply_softFused (conn : ConnId) (kind ctx stat : Nat) (data : List Byte) (secure : Bool) : (s.reply conn kind ctx stat data secure).softFused = s.softFused := rfl
@[simp] theorem reply_disabled (conn : ConnId) (kind ctx stat : Nat) (data : List Byte) (secure : Bool) : (s.reply conn kind ctx stat data secure).disabled = s.disabled := rfl
@[simp] theorem reply_boot (conn : ConnId) (kind ctx stat : Nat) (data : List Byte) (secure : Bool) : (s.reply conn kind ctx stat data secure).boot = s.boot := rfl
@[simp] theorem reply_strap (conn : ConnId) (kind ctx stat : Nat) (data : List Byte) (secure : Bool) : (s.reply conn kind ctx stat data secure).strap = s.strap := rfl
@[simp] theorem reply_svn (conn : ConnId) (kind ctx stat : Nat) (data : List Byte) (secure : Bool) : (s.reply conn kind ctx stat data secure).svn = s.svn := rfl
@[simp] theorem reply_health (conn : ConnId) (kind ctx stat : Nat) (data : List Byte) (secure : Bool) : (s.reply conn kind ctx stat data secure).health = s.health := rfl
@[simp] theorem reply_eolWarned (conn : ConnId) (kind ctx stat : Nat) (data : List Byte) (secure : Bool) : (s.reply conn kind ctx stat data secure).eolWarned = s.eolWarned := rfl
@[simp] theorem reply_secCores (conn : ConnId) (kind ctx stat : Nat) (data : List Byte) (secure : Bool) : (s.reply conn kind ctx stat data secure).secCores = s.secCores := rfl
@[simp] theorem reply_secPorts (conn : ConnId) (kind ctx stat : Nat) (data : List Byte) (secure : Bool) : (s.reply conn kind ctx stat data secure).secPorts = s.secPorts := rfl
@[simp] theorem reply_secRegions (conn : ConnId) (kind ctx stat : Nat) (data : List Byte) (secure : Bool) : (s.reply conn kind ctx stat data secure).secRegions = s.secRegions := rfl
@[simp] theorem reply_meas (conn : ConnId) (kind ctx stat : Nat) (data : List Byte) (secure : Bool) : (s.reply conn kind ctx stat data secure).meas = s.meas := rfl
@[simp] theorem reply_quotes (conn : ConnId) (kind ctx stat : Nat) (data : List Byte) (secure : Bool) : (s.reply conn kind ctx stat data secure).quotes = s.quotes := rfl
@[simp] theorem reply_fwStage (conn : ConnId) (kind ctx stat : Nat) (data : List Byte) (secure : Bool) : (s.reply conn kind ctx stat data secure).fwStage = s.fwStage := rfl
@[simp] theorem reply_fwFlash (conn : ConnId) (kind ctx stat : Nat) (data : List Byte) (secure : Bool) : (s.reply conn kind ctx stat data secure).fwFlash = s.fwFlash := rfl
@[simp] theorem reply_resetN (conn : ConnId) (kind ctx stat : Nat) (data : List Byte) (secure : Bool) : (s.reply conn kind ctx stat data secure).resetN = s.resetN := rfl
@[simp] theorem reply_pwrgd (conn : ConnId) (kind ctx stat : Nat) (data : List Byte) (secure : Bool) : (s.reply conn kind ctx stat data secure).pwrgd = s.pwrgd := rfl
@[simp] theorem reply_throttled (conn : ConnId) (kind ctx stat : Nat) (data : List Byte) (secure : Bool) : (s.reply conn kind ctx stat data secure).throttled = s.throttled := rfl
@[simp] theorem reply_tripped (conn : ConnId) (kind ctx stat : Nat) (data : List Byte) (secure : Bool) : (s.reply conn kind ctx stat data secure).tripped = s.tripped := rfl
@[simp] theorem reply_pwrLimit (conn : ConnId) (kind ctx stat : Nat) (data : List Byte) (secure : Bool) : (s.reply conn kind ctx stat data secure).pwrLimit = s.pwrLimit := rfl
@[simp] theorem reply_outbox (conn : ConnId) (kind ctx stat : Nat) (data : List Byte) (secure : Bool) :
    (s.reply conn kind ctx stat data secure).outbox = s.outbox ++ [⟨conn, kind, ctx, true, stat, 0, data, []⟩] := rfl

/-! ## State.sendMsg -/

@[simp] theorem sendMsg_cur (conn : ConnId) (kind ctx req : Nat) (data : List Byte) (secure : Bool) (bad : List Nat) : (s.sendMsg conn kind ctx req data secure bad).cur = s.cur := rfl
@[simp] theorem sendMsg_turns (conn : ConnId) (kind ctx req : Nat) (data : List Byte) (secure : Bool) (bad : List Nat) : (s.sendMsg conn kind ctx req data secure bad).turns = s.turns := rfl
@[simp] theorem sendMsg_inbox (conn : ConnId) (kind ctx req : Nat) (data : List Byte) (secure : Bool) (bad : List Nat) : (s.sendMsg conn kind ctx req data secure bad).inbox = s.inbox := rfl
@[simp] theorem sendMsg_nextId (conn : ConnId) (kind ctx req : Nat) (data : List Byte) (secure : Bool) (bad : List Nat) : (s.sendMsg conn kind ctx req data secure bad).nextId = s.nextId := rfl
@[simp] theorem sendMsg_free (conn : ConnId) (kind ctx req : Nat) (data : List Byte) (secure : Bool) (bad : List Nat) : (s.sendMsg conn kind ctx req data secure bad).free = s.free := rfl
@[simp] theorem sendMsg_mem (conn : ConnId) (kind ctx req : Nat) (data : List Byte) (secure : Bool) (bad : List Nat) : (s.sendMsg conn kind ctx req data secure bad).mem = s.mem := rfl
@[simp] theorem sendMsg_poison (conn : ConnId) (kind ctx req : Nat) (data : List Byte) (secure : Bool) (bad : List Nat) : (s.sendMsg conn kind ctx req data secure bad).poison = s.poison := rfl
@[simp] theorem sendMsg_dirBad (conn : ConnId) (kind ctx req : Nat) (data : List Byte) (secure : Bool) (bad : List Nat) : (s.sendMsg conn kind ctx req data secure bad).dirBad = s.dirBad := rfl
@[simp] theorem sendMsg_hostMem (conn : ConnId) (kind ctx req : Nat) (data : List Byte) (secure : Bool) (bad : List Nat) : (s.sendMsg conn kind ctx req data secure bad).hostMem = s.hostMem := rfl
@[simp] theorem sendMsg_hostPoison (conn : ConnId) (kind ctx req : Nat) (data : List Byte) (secure : Bool) (bad : List Nat) : (s.sendMsg conn kind ctx req data secure bad).hostPoison = s.hostPoison := rfl
@[simp] theorem sendMsg_hostLines (conn : ConnId) (kind ctx req : Nat) (data : List Byte) (secure : Bool) (bad : List Nat) : (s.sendMsg conn kind ctx req data secure bad).hostLines = s.hostLines := rfl
@[simp] theorem sendMsg_hostDirty (conn : ConnId) (kind ctx req : Nat) (data : List Byte) (secure : Bool) (bad : List Nat) : (s.sendMsg conn kind ctx req data secure bad).hostDirty = s.hostDirty := rfl
@[simp] theorem sendMsg_contexts (conn : ConnId) (kind ctx req : Nat) (data : List Byte) (secure : Bool) (bad : List Nat) : (s.sendMsg conn kind ctx req data secure bad).contexts = s.contexts := rfl
@[simp] theorem sendMsg_grids (conn : ConnId) (kind ctx req : Nat) (data : List Byte) (secure : Bool) (bad : List Nat) : (s.sendMsg conn kind ctx req data secure bad).grids = s.grids := rfl
@[simp] theorem sendMsg_teams (conn : ConnId) (kind ctx req : Nat) (data : List Byte) (secure : Bool) (bad : List Nat) : (s.sendMsg conn kind ctx req data secure bad).teams = s.teams := rfl
@[simp] theorem sendMsg_saved (conn : ConnId) (kind ctx req : Nat) (data : List Byte) (secure : Bool) (bad : List Nat) : (s.sendMsg conn kind ctx req data secure bad).saved = s.saved := rfl
@[simp] theorem sendMsg_convoys (conn : ConnId) (kind ctx req : Nat) (data : List Byte) (secure : Bool) (bad : List Nat) : (s.sendMsg conn kind ctx req data secure bad).convoys = s.convoys := rfl
@[simp] theorem sendMsg_claims (conn : ConnId) (kind ctx req : Nat) (data : List Byte) (secure : Bool) (bad : List Nat) : (s.sendMsg conn kind ctx req data secure bad).claims = s.claims := rfl
@[simp] theorem sendMsg_ops (conn : ConnId) (kind ctx req : Nat) (data : List Byte) (secure : Bool) (bad : List Nat) : (s.sendMsg conn kind ctx req data secure bad).ops = s.ops := rfl
@[simp] theorem sendMsg_matrix (conn : ConnId) (kind ctx req : Nat) (data : List Byte) (secure : Bool) (bad : List Nat) : (s.sendMsg conn kind ctx req data secure bad).matrix = s.matrix := rfl
@[simp] theorem sendMsg_rays (conn : ConnId) (kind ctx req : Nat) (data : List Byte) (secure : Bool) (bad : List Nat) : (s.sendMsg conn kind ctx req data secure bad).rays = s.rays := rfl
@[simp] theorem sendMsg_conts (conn : ConnId) (kind ctx req : Nat) (data : List Byte) (secure : Bool) (bad : List Nat) : (s.sendMsg conn kind ctx req data secure bad).conts = s.conts := rfl
@[simp] theorem sendMsg_idle (conn : ConnId) (kind ctx req : Nat) (data : List Byte) (secure : Bool) (bad : List Nat) : (s.sendMsg conn kind ctx req data secure bad).idle = s.idle := rfl
@[simp] theorem sendMsg_bricks (conn : ConnId) (kind ctx req : Nat) (data : List Byte) (secure : Bool) (bad : List Nat) : (s.sendMsg conn kind ctx req data secure bad).bricks = s.bricks := rfl
@[simp] theorem sendMsg_clocks (conn : ConnId) (kind ctx req : Nat) (data : List Byte) (secure : Bool) (bad : List Nat) : (s.sendMsg conn kind ctx req data secure bad).clocks = s.clocks := rfl
@[simp] theorem sendMsg_lines (conn : ConnId) (kind ctx req : Nat) (data : List Byte) (secure : Bool) (bad : List Nat) : (s.sendMsg conn kind ctx req data secure bad).lines = s.lines := rfl
@[simp] theorem sendMsg_tdir (conn : ConnId) (kind ctx req : Nat) (data : List Byte) (secure : Bool) (bad : List Nat) : (s.sendMsg conn kind ctx req data secure bad).tdir = s.tdir := rfl
@[simp] theorem sendMsg_walkers (conn : ConnId) (kind ctx req : Nat) (data : List Byte) (secure : Bool) (bad : List Nat) : (s.sendMsg conn kind ctx req data secure bad).walkers = s.walkers := rfl
@[simp] theorem sendMsg_flips (conn : ConnId) (kind ctx req : Nat) (data : List Byte) (secure : Bool) (bad : List Nat) : (s.sendMsg conn kind ctx req data secure bad).flips = s.flips := rfl
@[simp] theorem sendMsg_migs (conn : ConnId) (kind ctx req : Nat) (data : List Byte) (secure : Bool) (bad : List Nat) : (s.sendMsg conn kind ctx req data secure bad).migs = s.migs := rfl
@[simp] theorem sendMsg_migctl (conn : ConnId) (kind ctx req : Nat) (data : List Byte) (secure : Bool) (bad : List Nat) : (s.sendMsg conn kind ctx req data secure bad).migctl = s.migctl := rfl
@[simp] theorem sendMsg_migRing (conn : ConnId) (kind ctx req : Nat) (data : List Byte) (secure : Bool) (bad : List Nat) : (s.sendMsg conn kind ctx req data secure bad).migRing = s.migRing := rfl
@[simp] theorem sendMsg_migHead (conn : ConnId) (kind ctx req : Nat) (data : List Byte) (secure : Bool) (bad : List Nat) : (s.sendMsg conn kind ctx req data secure bad).migHead = s.migHead := rfl
@[simp] theorem sendMsg_migTail (conn : ConnId) (kind ctx req : Nat) (data : List Byte) (secure : Bool) (bad : List Nat) : (s.sendMsg conn kind ctx req data secure bad).migTail = s.migTail := rfl
@[simp] theorem sendMsg_served (conn : ConnId) (kind ctx req : Nat) (data : List Byte) (secure : Bool) (bad : List Nat) : (s.sendMsg conn kind ctx req data secure bad).served = s.served := rfl
@[simp] theorem sendMsg_held (conn : ConnId) (kind ctx req : Nat) (data : List Byte) (secure : Bool) (bad : List Nat) : (s.sendMsg conn kind ctx req data secure bad).held = s.held := rfl
@[simp] theorem sendMsg_port (conn : ConnId) (kind ctx req : Nat) (data : List Byte) (secure : Bool) (bad : List Nat) : (s.sendMsg conn kind ctx req data secure bad).port = s.port := rfl
@[simp] theorem sendMsg_requests (conn : ConnId) (kind ctx req : Nat) (data : List Byte) (secure : Bool) (bad : List Nat) : (s.sendMsg conn kind ctx req data secure bad).requests = s.requests := rfl
@[simp] theorem sendMsg_away (conn : ConnId) (kind ctx req : Nat) (data : List Byte) (secure : Bool) (bad : List Nat) : (s.sendMsg conn kind ctx req data secure bad).away = s.away := rfl
@[simp] theorem sendMsg_job (conn : ConnId) (kind ctx req : Nat) (data : List Byte) (secure : Bool) (bad : List Nat) : (s.sendMsg conn kind ctx req data secure bad).job = s.job := rfl
@[simp] theorem sendMsg_inbound (conn : ConnId) (kind ctx req : Nat) (data : List Byte) (secure : Bool) (bad : List Nat) : (s.sendMsg conn kind ctx req data secure bad).inbound = s.inbound := rfl
@[simp] theorem sendMsg_errRings (conn : ConnId) (kind ctx req : Nat) (data : List Byte) (secure : Bool) (bad : List Nat) : (s.sendMsg conn kind ctx req data secure bad).errRings = s.errRings := rfl
@[simp] theorem sendMsg_errLost (conn : ConnId) (kind ctx req : Nat) (data : List Byte) (secure : Bool) (bad : List Nat) : (s.sendMsg conn kind ctx req data secure bad).errLost = s.errLost := rfl
@[simp] theorem sendMsg_errWarned (conn : ConnId) (kind ctx req : Nat) (data : List Byte) (secure : Bool) (bad : List Nat) : (s.sendMsg conn kind ctx req data secure bad).errWarned = s.errWarned := rfl
@[simp] theorem sendMsg_events (conn : ConnId) (kind ctx req : Nat) (data : List Byte) (secure : Bool) (bad : List Nat) : (s.sendMsg conn kind ctx req data secure bad).events = s.events := rfl
@[simp] theorem sendMsg_evLost (conn : ConnId) (kind ctx req : Nat) (data : List Byte) (secure : Bool) (bad : List Nat) : (s.sendMsg conn kind ctx req data secure bad).evLost = s.evLost := rfl
@[simp] theorem sendMsg_fused (conn : ConnId) (kind ctx req : Nat) (data : List Byte) (secure : Bool) (bad : List Nat) : (s.sendMsg conn kind ctx req data secure bad).fused = s.fused := rfl
@[simp] theorem sendMsg_softFused (conn : ConnId) (kind ctx req : Nat) (data : List Byte) (secure : Bool) (bad : List Nat) : (s.sendMsg conn kind ctx req data secure bad).softFused = s.softFused := rfl
@[simp] theorem sendMsg_disabled (conn : ConnId) (kind ctx req : Nat) (data : List Byte) (secure : Bool) (bad : List Nat) : (s.sendMsg conn kind ctx req data secure bad).disabled = s.disabled := rfl
@[simp] theorem sendMsg_boot (conn : ConnId) (kind ctx req : Nat) (data : List Byte) (secure : Bool) (bad : List Nat) : (s.sendMsg conn kind ctx req data secure bad).boot = s.boot := rfl
@[simp] theorem sendMsg_strap (conn : ConnId) (kind ctx req : Nat) (data : List Byte) (secure : Bool) (bad : List Nat) : (s.sendMsg conn kind ctx req data secure bad).strap = s.strap := rfl
@[simp] theorem sendMsg_svn (conn : ConnId) (kind ctx req : Nat) (data : List Byte) (secure : Bool) (bad : List Nat) : (s.sendMsg conn kind ctx req data secure bad).svn = s.svn := rfl
@[simp] theorem sendMsg_health (conn : ConnId) (kind ctx req : Nat) (data : List Byte) (secure : Bool) (bad : List Nat) : (s.sendMsg conn kind ctx req data secure bad).health = s.health := rfl
@[simp] theorem sendMsg_eolWarned (conn : ConnId) (kind ctx req : Nat) (data : List Byte) (secure : Bool) (bad : List Nat) : (s.sendMsg conn kind ctx req data secure bad).eolWarned = s.eolWarned := rfl
@[simp] theorem sendMsg_secCores (conn : ConnId) (kind ctx req : Nat) (data : List Byte) (secure : Bool) (bad : List Nat) : (s.sendMsg conn kind ctx req data secure bad).secCores = s.secCores := rfl
@[simp] theorem sendMsg_secPorts (conn : ConnId) (kind ctx req : Nat) (data : List Byte) (secure : Bool) (bad : List Nat) : (s.sendMsg conn kind ctx req data secure bad).secPorts = s.secPorts := rfl
@[simp] theorem sendMsg_secRegions (conn : ConnId) (kind ctx req : Nat) (data : List Byte) (secure : Bool) (bad : List Nat) : (s.sendMsg conn kind ctx req data secure bad).secRegions = s.secRegions := rfl
@[simp] theorem sendMsg_meas (conn : ConnId) (kind ctx req : Nat) (data : List Byte) (secure : Bool) (bad : List Nat) : (s.sendMsg conn kind ctx req data secure bad).meas = s.meas := rfl
@[simp] theorem sendMsg_quotes (conn : ConnId) (kind ctx req : Nat) (data : List Byte) (secure : Bool) (bad : List Nat) : (s.sendMsg conn kind ctx req data secure bad).quotes = s.quotes := rfl
@[simp] theorem sendMsg_fwStage (conn : ConnId) (kind ctx req : Nat) (data : List Byte) (secure : Bool) (bad : List Nat) : (s.sendMsg conn kind ctx req data secure bad).fwStage = s.fwStage := rfl
@[simp] theorem sendMsg_fwFlash (conn : ConnId) (kind ctx req : Nat) (data : List Byte) (secure : Bool) (bad : List Nat) : (s.sendMsg conn kind ctx req data secure bad).fwFlash = s.fwFlash := rfl
@[simp] theorem sendMsg_resetN (conn : ConnId) (kind ctx req : Nat) (data : List Byte) (secure : Bool) (bad : List Nat) : (s.sendMsg conn kind ctx req data secure bad).resetN = s.resetN := rfl
@[simp] theorem sendMsg_pwrgd (conn : ConnId) (kind ctx req : Nat) (data : List Byte) (secure : Bool) (bad : List Nat) : (s.sendMsg conn kind ctx req data secure bad).pwrgd = s.pwrgd := rfl
@[simp] theorem sendMsg_throttled (conn : ConnId) (kind ctx req : Nat) (data : List Byte) (secure : Bool) (bad : List Nat) : (s.sendMsg conn kind ctx req data secure bad).throttled = s.throttled := rfl
@[simp] theorem sendMsg_tripped (conn : ConnId) (kind ctx req : Nat) (data : List Byte) (secure : Bool) (bad : List Nat) : (s.sendMsg conn kind ctx req data secure bad).tripped = s.tripped := rfl
@[simp] theorem sendMsg_pwrLimit (conn : ConnId) (kind ctx req : Nat) (data : List Byte) (secure : Bool) (bad : List Nat) : (s.sendMsg conn kind ctx req data secure bad).pwrLimit = s.pwrLimit := rfl
@[simp] theorem sendMsg_outbox (conn : ConnId) (kind ctx req : Nat) (data : List Byte) (secure : Bool) (bad : List Nat) :
    (s.sendMsg conn kind ctx req data secure bad).outbox = s.outbox ++ [⟨conn, kind, ctx, false, 0, req, data, bad⟩] := rfl

/-! ## Group.raise -/

@[simp] theorem raise_v (fl : Word) : (g.raise fl).v = g.v := rfl
@[simp] theorem raise_vDue (fl : Word) : (g.raise fl).vDue = g.vDue := rfl
@[simp] theorem raise_h (fl : Word) : (g.raise fl).h = g.h := rfl
@[simp] theorem raise_hDue (fl : Word) : (g.raise fl).hDue = g.hDue := rfl
@[simp] theorem raise_pend (fl : Word) : (g.raise fl).pend = g.pend := rfl
@[simp] theorem raise_awaited (fl : Word) : (g.raise fl).awaited = g.awaited := rfl
@[simp] theorem raise_p (fl : Word) : (g.raise fl).p = g.p := rfl
@[simp] theorem raise_b (fl : Word) : (g.raise fl).b = g.b := rfl
@[simp] theorem raise_md (fl : Word) : (g.raise fl).md = g.md := rfl
@[simp] theorem raise_gang (fl : Word) : (g.raise fl).gang = g.gang := rfl
@[simp] theorem raise_count (fl : Word) : (g.raise fl).count = g.count := rfl
@[simp] theorem raise_live (fl : Word) : (g.raise fl).live = g.live := rfl
@[simp] theorem raise_helper (fl : Word) : (g.raise fl).helper = g.helper := rfl
@[simp] theorem raise_draw (fl : Word) : (g.raise fl).draw = g.draw := rfl
@[simp] theorem raise_gfid (fl : Word) : (g.raise fl).gfid = g.gfid := rfl
@[simp] theorem raise_retired (fl : Word) : (g.raise fl).retired = g.retired := rfl
@[simp] theorem raise_pc (fl : Word) : (g.raise fl).pc = g.pc := rfl
@[simp] theorem raise_cause (fl : Word) : (g.raise fl).cause = g.cause := rfl
@[simp] theorem raise_epc (fl : Word) : (g.raise fl).epc = g.epc := rfl
@[simp] theorem raise_tval (fl : Word) : (g.raise fl).tval = g.tval := rfl
@[simp] theorem raise_priv (fl : Word) : (g.raise fl).priv = g.priv := rfl
@[simp] theorem raise_budget (fl : Word) : (g.raise fl).budget = g.budget := rfl
@[simp] theorem raise_role (fl : Word) : (g.raise fl).role = g.role := rfl
@[simp] theorem raise_ended (fl : Word) : (g.raise fl).ended = g.ended := rfl
@[simp] theorem raise_left (fl : Word) : (g.raise fl).left = g.left := rfl
@[simp] theorem raise_wait (fl : Word) : (g.raise fl).wait = g.wait := rfl
@[simp] theorem raise_arrived (fl : Word) : (g.raise fl).arrived = g.arrived := rfl
@[simp] theorem raise_latch (fl : Word) : (g.raise fl).latch = g.latch := rfl
@[simp] theorem raise_fwdOpen (fl : Word) : (g.raise fl).fwdOpen = g.fwdOpen := rfl
@[simp] theorem raise_fwd (fl : Word) : (g.raise fl).fwd = g.fwd := rfl
@[simp] theorem raise_owed (fl : Word) : (g.raise fl).owed = g.owed := rfl
@[simp] theorem raise_preempt (fl : Word) : (g.raise fl).preempt = g.preempt := rfl
@[simp] theorem raise_trapDue (fl : Word) : (g.raise fl).trapDue = g.trapDue := rfl
@[simp] theorem raise_port (fl : Word) : (g.raise fl).port = g.port := rfl
@[simp] theorem raise_inSet (fl : Word) : (g.raise fl).inSet = g.inSet := rfl
@[simp] theorem raise_entered (fl : Word) : (g.raise fl).entered = g.entered := rfl
@[simp] theorem raise_readySince (fl : Word) : (g.raise fl).readySince = g.readySince := rfl
@[simp] theorem raise_flags (fl : Word) : (g.raise fl).flags = g.flags ||| fl := rfl

/-! ## Group.settle -/

@[simp] theorem settle_vDue : (g.settle).vDue = g.vDue := rfl
@[simp] theorem settle_hDue : (g.settle).hDue = g.hDue := rfl
@[simp] theorem settle_p : (g.settle).p = g.p := rfl
@[simp] theorem settle_b : (g.settle).b = g.b := rfl
@[simp] theorem settle_md : (g.settle).md = g.md := rfl
@[simp] theorem settle_gang : (g.settle).gang = g.gang := rfl
@[simp] theorem settle_count : (g.settle).count = g.count := rfl
@[simp] theorem settle_live : (g.settle).live = g.live := rfl
@[simp] theorem settle_helper : (g.settle).helper = g.helper := rfl
@[simp] theorem settle_draw : (g.settle).draw = g.draw := rfl
@[simp] theorem settle_gfid : (g.settle).gfid = g.gfid := rfl
@[simp] theorem settle_retired : (g.settle).retired = g.retired := rfl
@[simp] theorem settle_pc : (g.settle).pc = g.pc := rfl
@[simp] theorem settle_flags : (g.settle).flags = g.flags := rfl
@[simp] theorem settle_cause : (g.settle).cause = g.cause := rfl
@[simp] theorem settle_epc : (g.settle).epc = g.epc := rfl
@[simp] theorem settle_tval : (g.settle).tval = g.tval := rfl
@[simp] theorem settle_priv : (g.settle).priv = g.priv := rfl
@[simp] theorem settle_budget : (g.settle).budget = g.budget := rfl
@[simp] theorem settle_role : (g.settle).role = g.role := rfl
@[simp] theorem settle_ended : (g.settle).ended = g.ended := rfl
@[simp] theorem settle_left : (g.settle).left = g.left := rfl
@[simp] theorem settle_wait : (g.settle).wait = g.wait := rfl
@[simp] theorem settle_arrived : (g.settle).arrived = g.arrived := rfl
@[simp] theorem settle_latch : (g.settle).latch = g.latch := rfl
@[simp] theorem settle_fwdOpen : (g.settle).fwdOpen = g.fwdOpen := rfl
@[simp] theorem settle_fwd : (g.settle).fwd = g.fwd := rfl
@[simp] theorem settle_owed : (g.settle).owed = g.owed := rfl
@[simp] theorem settle_preempt : (g.settle).preempt = g.preempt := rfl
@[simp] theorem settle_trapDue : (g.settle).trapDue = g.trapDue := rfl
@[simp] theorem settle_port : (g.settle).port = g.port := rfl
@[simp] theorem settle_inSet : (g.settle).inSet = g.inSet := rfl
@[simp] theorem settle_entered : (g.settle).entered = g.entered := rfl
@[simp] theorem settle_readySince : (g.settle).readySince = g.readySince := rfl
@[simp] theorem settle_v : g.settle.v = g.vDue := rfl
@[simp] theorem settle_h : g.settle.h = g.hDue := rfl
@[simp] theorem settle_pend : g.settle.pend = 0 := rfl
@[simp] theorem settle_awaited : g.settle.awaited = 0 := rfl

/-! ## Group.pending -/

@[simp] theorem pending_v : (g.pending).v = g.v := rfl
@[simp] theorem pending_vDue : (g.pending).vDue = g.vDue := rfl
@[simp] theorem pending_h : (g.pending).h = g.h := rfl
@[simp] theorem pending_hDue : (g.pending).hDue = g.hDue := rfl
@[simp] theorem pending_p : (g.pending).p = g.p := rfl
@[simp] theorem pending_b : (g.pending).b = g.b := rfl
@[simp] theorem pending_md : (g.pending).md = g.md := rfl
@[simp] theorem pending_gang : (g.pending).gang = g.gang := rfl
@[simp] theorem pending_count : (g.pending).count = g.count := rfl
@[simp] theorem pending_live : (g.pending).live = g.live := rfl
@[simp] theorem pending_helper : (g.pending).helper = g.helper := rfl
@[simp] theorem pending_draw : (g.pending).draw = g.draw := rfl
@[simp] theorem pending_gfid : (g.pending).gfid = g.gfid := rfl
@[simp] theorem pending_retired : (g.pending).retired = g.retired := rfl
@[simp] theorem pending_pc : (g.pending).pc = g.pc := rfl
@[simp] theorem pending_flags : (g.pending).flags = g.flags := rfl
@[simp] theorem pending_cause : (g.pending).cause = g.cause := rfl
@[simp] theorem pending_epc : (g.pending).epc = g.epc := rfl
@[simp] theorem pending_tval : (g.pending).tval = g.tval := rfl
@[simp] theorem pending_priv : (g.pending).priv = g.priv := rfl
@[simp] theorem pending_budget : (g.pending).budget = g.budget := rfl
@[simp] theorem pending_role : (g.pending).role = g.role := rfl
@[simp] theorem pending_ended : (g.pending).ended = g.ended := rfl
@[simp] theorem pending_left : (g.pending).left = g.left := rfl
@[simp] theorem pending_wait : (g.pending).wait = g.wait := rfl
@[simp] theorem pending_arrived : (g.pending).arrived = g.arrived := rfl
@[simp] theorem pending_latch : (g.pending).latch = g.latch := rfl
@[simp] theorem pending_fwdOpen : (g.pending).fwdOpen = g.fwdOpen := rfl
@[simp] theorem pending_fwd : (g.pending).fwd = g.fwd := rfl
@[simp] theorem pending_owed : (g.pending).owed = g.owed := rfl
@[simp] theorem pending_preempt : (g.pending).preempt = g.preempt := rfl
@[simp] theorem pending_trapDue : (g.pending).trapDue = g.trapDue := rfl
@[simp] theorem pending_port : (g.pending).port = g.port := rfl
@[simp] theorem pending_inSet : (g.pending).inSet = g.inSet := rfl
@[simp] theorem pending_entered : (g.pending).entered = g.entered := rfl
@[simp] theorem pending_readySince : (g.pending).readySince = g.readySince := rfl
@[simp] theorem pending_pend : g.pending.pend = g.pend + 1 := rfl
@[simp] theorem pending_awaited :
    g.pending.awaited = if g.fwd.isEmpty then g.awaited + 1 else g.awaited := rfl

/-! ## Group.putB -/

@[simp] theorem putB_v (b : BReg) (x : DWord) : (g.putB b x).v = g.v := rfl
@[simp] theorem putB_vDue (b : BReg) (x : DWord) : (g.putB b x).vDue = g.vDue := rfl
@[simp] theorem putB_h (b : BReg) (x : DWord) : (g.putB b x).h = g.h := rfl
@[simp] theorem putB_hDue (b : BReg) (x : DWord) : (g.putB b x).hDue = g.hDue := rfl
@[simp] theorem putB_pend (b : BReg) (x : DWord) : (g.putB b x).pend = g.pend := rfl
@[simp] theorem putB_awaited (b : BReg) (x : DWord) : (g.putB b x).awaited = g.awaited := rfl
@[simp] theorem putB_p (b : BReg) (x : DWord) : (g.putB b x).p = g.p := rfl
@[simp] theorem putB_md (b : BReg) (x : DWord) : (g.putB b x).md = g.md := rfl
@[simp] theorem putB_gang (b : BReg) (x : DWord) : (g.putB b x).gang = g.gang := rfl
@[simp] theorem putB_count (b : BReg) (x : DWord) : (g.putB b x).count = g.count := rfl
@[simp] theorem putB_live (b : BReg) (x : DWord) : (g.putB b x).live = g.live := rfl
@[simp] theorem putB_helper (b : BReg) (x : DWord) : (g.putB b x).helper = g.helper := rfl
@[simp] theorem putB_draw (b : BReg) (x : DWord) : (g.putB b x).draw = g.draw := rfl
@[simp] theorem putB_gfid (b : BReg) (x : DWord) : (g.putB b x).gfid = g.gfid := rfl
@[simp] theorem putB_retired (b : BReg) (x : DWord) : (g.putB b x).retired = g.retired := rfl
@[simp] theorem putB_pc (b : BReg) (x : DWord) : (g.putB b x).pc = g.pc := rfl
@[simp] theorem putB_flags (b : BReg) (x : DWord) : (g.putB b x).flags = g.flags := rfl
@[simp] theorem putB_cause (b : BReg) (x : DWord) : (g.putB b x).cause = g.cause := rfl
@[simp] theorem putB_epc (b : BReg) (x : DWord) : (g.putB b x).epc = g.epc := rfl
@[simp] theorem putB_tval (b : BReg) (x : DWord) : (g.putB b x).tval = g.tval := rfl
@[simp] theorem putB_priv (b : BReg) (x : DWord) : (g.putB b x).priv = g.priv := rfl
@[simp] theorem putB_budget (b : BReg) (x : DWord) : (g.putB b x).budget = g.budget := rfl
@[simp] theorem putB_role (b : BReg) (x : DWord) : (g.putB b x).role = g.role := rfl
@[simp] theorem putB_ended (b : BReg) (x : DWord) : (g.putB b x).ended = g.ended := rfl
@[simp] theorem putB_left (b : BReg) (x : DWord) : (g.putB b x).left = g.left := rfl
@[simp] theorem putB_wait (b : BReg) (x : DWord) : (g.putB b x).wait = g.wait := rfl
@[simp] theorem putB_arrived (b : BReg) (x : DWord) : (g.putB b x).arrived = g.arrived := rfl
@[simp] theorem putB_latch (b : BReg) (x : DWord) : (g.putB b x).latch = g.latch := rfl
@[simp] theorem putB_fwdOpen (b : BReg) (x : DWord) : (g.putB b x).fwdOpen = g.fwdOpen := rfl
@[simp] theorem putB_fwd (b : BReg) (x : DWord) : (g.putB b x).fwd = g.fwd := rfl
@[simp] theorem putB_owed (b : BReg) (x : DWord) : (g.putB b x).owed = g.owed := rfl
@[simp] theorem putB_preempt (b : BReg) (x : DWord) : (g.putB b x).preempt = g.preempt := rfl
@[simp] theorem putB_trapDue (b : BReg) (x : DWord) : (g.putB b x).trapDue = g.trapDue := rfl
@[simp] theorem putB_port (b : BReg) (x : DWord) : (g.putB b x).port = g.port := rfl
@[simp] theorem putB_inSet (b : BReg) (x : DWord) : (g.putB b x).inSet = g.inSet := rfl
@[simp] theorem putB_entered (b : BReg) (x : DWord) : (g.putB b x).entered = g.entered := rfl
@[simp] theorem putB_readySince (b : BReg) (x : DWord) : (g.putB b x).readySince = g.readySince := rfl
@[simp] theorem putB_b (b : BReg) (x : DWord) : (g.putB b x).b = g.b.set b.val x := rfl

/-! ## Group.putH -/

@[simp] theorem putH_v (d : HReg) (x : BitVec 512) : (g.putH d x).v = g.v := rfl
@[simp] theorem putH_vDue (d : HReg) (x : BitVec 512) : (g.putH d x).vDue = g.vDue := rfl
@[simp] theorem putH_pend (d : HReg) (x : BitVec 512) : (g.putH d x).pend = g.pend := rfl
@[simp] theorem putH_awaited (d : HReg) (x : BitVec 512) : (g.putH d x).awaited = g.awaited := rfl
@[simp] theorem putH_p (d : HReg) (x : BitVec 512) : (g.putH d x).p = g.p := rfl
@[simp] theorem putH_b (d : HReg) (x : BitVec 512) : (g.putH d x).b = g.b := rfl
@[simp] theorem putH_md (d : HReg) (x : BitVec 512) : (g.putH d x).md = g.md := rfl
@[simp] theorem putH_gang (d : HReg) (x : BitVec 512) : (g.putH d x).gang = g.gang := rfl
@[simp] theorem putH_count (d : HReg) (x : BitVec 512) : (g.putH d x).count = g.count := rfl
@[simp] theorem putH_live (d : HReg) (x : BitVec 512) : (g.putH d x).live = g.live := rfl
@[simp] theorem putH_helper (d : HReg) (x : BitVec 512) : (g.putH d x).helper = g.helper := rfl
@[simp] theorem putH_draw (d : HReg) (x : BitVec 512) : (g.putH d x).draw = g.draw := rfl
@[simp] theorem putH_gfid (d : HReg) (x : BitVec 512) : (g.putH d x).gfid = g.gfid := rfl
@[simp] theorem putH_retired (d : HReg) (x : BitVec 512) : (g.putH d x).retired = g.retired := rfl
@[simp] theorem putH_pc (d : HReg) (x : BitVec 512) : (g.putH d x).pc = g.pc := rfl
@[simp] theorem putH_flags (d : HReg) (x : BitVec 512) : (g.putH d x).flags = g.flags := rfl
@[simp] theorem putH_cause (d : HReg) (x : BitVec 512) : (g.putH d x).cause = g.cause := rfl
@[simp] theorem putH_epc (d : HReg) (x : BitVec 512) : (g.putH d x).epc = g.epc := rfl
@[simp] theorem putH_tval (d : HReg) (x : BitVec 512) : (g.putH d x).tval = g.tval := rfl
@[simp] theorem putH_priv (d : HReg) (x : BitVec 512) : (g.putH d x).priv = g.priv := rfl
@[simp] theorem putH_budget (d : HReg) (x : BitVec 512) : (g.putH d x).budget = g.budget := rfl
@[simp] theorem putH_role (d : HReg) (x : BitVec 512) : (g.putH d x).role = g.role := rfl
@[simp] theorem putH_ended (d : HReg) (x : BitVec 512) : (g.putH d x).ended = g.ended := rfl
@[simp] theorem putH_left (d : HReg) (x : BitVec 512) : (g.putH d x).left = g.left := rfl
@[simp] theorem putH_wait (d : HReg) (x : BitVec 512) : (g.putH d x).wait = g.wait := rfl
@[simp] theorem putH_arrived (d : HReg) (x : BitVec 512) : (g.putH d x).arrived = g.arrived := rfl
@[simp] theorem putH_latch (d : HReg) (x : BitVec 512) : (g.putH d x).latch = g.latch := rfl
@[simp] theorem putH_fwdOpen (d : HReg) (x : BitVec 512) : (g.putH d x).fwdOpen = g.fwdOpen := rfl
@[simp] theorem putH_fwd (d : HReg) (x : BitVec 512) : (g.putH d x).fwd = g.fwd := rfl
@[simp] theorem putH_owed (d : HReg) (x : BitVec 512) : (g.putH d x).owed = g.owed := rfl
@[simp] theorem putH_preempt (d : HReg) (x : BitVec 512) : (g.putH d x).preempt = g.preempt := rfl
@[simp] theorem putH_trapDue (d : HReg) (x : BitVec 512) : (g.putH d x).trapDue = g.trapDue := rfl
@[simp] theorem putH_port (d : HReg) (x : BitVec 512) : (g.putH d x).port = g.port := rfl
@[simp] theorem putH_inSet (d : HReg) (x : BitVec 512) : (g.putH d x).inSet = g.inSet := rfl
@[simp] theorem putH_entered (d : HReg) (x : BitVec 512) : (g.putH d x).entered = g.entered := rfl
@[simp] theorem putH_readySince (d : HReg) (x : BitVec 512) : (g.putH d x).readySince = g.readySince := rfl
@[simp] theorem putH_h (d : HReg) (x : BitVec 512) : (g.putH d x).h = g.h.set d.val (hStored x) := rfl
@[simp] theorem putH_hDue (d : HReg) (x : BitVec 512) : (g.putH d x).hDue = g.hDue.set d.val (hStored x) := rfl

/-! ## Group.store -/

@[simp] theorem store_h (d : VReg) (sh : Nat) (m : Nat → Bool) (val : Nat → Word) : (g.store d sh m val).h = g.h := rfl
@[simp] theorem store_hDue (d : VReg) (sh : Nat) (m : Nat → Bool) (val : Nat → Word) : (g.store d sh m val).hDue = g.hDue := rfl
@[simp] theorem store_pend (d : VReg) (sh : Nat) (m : Nat → Bool) (val : Nat → Word) : (g.store d sh m val).pend = g.pend := rfl
@[simp] theorem store_awaited (d : VReg) (sh : Nat) (m : Nat → Bool) (val : Nat → Word) : (g.store d sh m val).awaited = g.awaited := rfl
@[simp] theorem store_p (d : VReg) (sh : Nat) (m : Nat → Bool) (val : Nat → Word) : (g.store d sh m val).p = g.p := rfl
@[simp] theorem store_b (d : VReg) (sh : Nat) (m : Nat → Bool) (val : Nat → Word) : (g.store d sh m val).b = g.b := rfl
@[simp] theorem store_md (d : VReg) (sh : Nat) (m : Nat → Bool) (val : Nat → Word) : (g.store d sh m val).md = g.md := rfl
@[simp] theorem store_gang (d : VReg) (sh : Nat) (m : Nat → Bool) (val : Nat → Word) : (g.store d sh m val).gang = g.gang := rfl
@[simp] theorem store_count (d : VReg) (sh : Nat) (m : Nat → Bool) (val : Nat → Word) : (g.store d sh m val).count = g.count := rfl
@[simp] theorem store_live (d : VReg) (sh : Nat) (m : Nat → Bool) (val : Nat → Word) : (g.store d sh m val).live = g.live := rfl
@[simp] theorem store_helper (d : VReg) (sh : Nat) (m : Nat → Bool) (val : Nat → Word) : (g.store d sh m val).helper = g.helper := rfl
@[simp] theorem store_draw (d : VReg) (sh : Nat) (m : Nat → Bool) (val : Nat → Word) : (g.store d sh m val).draw = g.draw := rfl
@[simp] theorem store_gfid (d : VReg) (sh : Nat) (m : Nat → Bool) (val : Nat → Word) : (g.store d sh m val).gfid = g.gfid := rfl
@[simp] theorem store_retired (d : VReg) (sh : Nat) (m : Nat → Bool) (val : Nat → Word) : (g.store d sh m val).retired = g.retired := rfl
@[simp] theorem store_pc (d : VReg) (sh : Nat) (m : Nat → Bool) (val : Nat → Word) : (g.store d sh m val).pc = g.pc := rfl
@[simp] theorem store_flags (d : VReg) (sh : Nat) (m : Nat → Bool) (val : Nat → Word) : (g.store d sh m val).flags = g.flags := rfl
@[simp] theorem store_cause (d : VReg) (sh : Nat) (m : Nat → Bool) (val : Nat → Word) : (g.store d sh m val).cause = g.cause := rfl
@[simp] theorem store_epc (d : VReg) (sh : Nat) (m : Nat → Bool) (val : Nat → Word) : (g.store d sh m val).epc = g.epc := rfl
@[simp] theorem store_tval (d : VReg) (sh : Nat) (m : Nat → Bool) (val : Nat → Word) : (g.store d sh m val).tval = g.tval := rfl
@[simp] theorem store_priv (d : VReg) (sh : Nat) (m : Nat → Bool) (val : Nat → Word) : (g.store d sh m val).priv = g.priv := rfl
@[simp] theorem store_budget (d : VReg) (sh : Nat) (m : Nat → Bool) (val : Nat → Word) : (g.store d sh m val).budget = g.budget := rfl
@[simp] theorem store_role (d : VReg) (sh : Nat) (m : Nat → Bool) (val : Nat → Word) : (g.store d sh m val).role = g.role := rfl
@[simp] theorem store_ended (d : VReg) (sh : Nat) (m : Nat → Bool) (val : Nat → Word) : (g.store d sh m val).ended = g.ended := rfl
@[simp] theorem store_left (d : VReg) (sh : Nat) (m : Nat → Bool) (val : Nat → Word) : (g.store d sh m val).left = g.left := rfl
@[simp] theorem store_wait (d : VReg) (sh : Nat) (m : Nat → Bool) (val : Nat → Word) : (g.store d sh m val).wait = g.wait := rfl
@[simp] theorem store_arrived (d : VReg) (sh : Nat) (m : Nat → Bool) (val : Nat → Word) : (g.store d sh m val).arrived = g.arrived := rfl
@[simp] theorem store_latch (d : VReg) (sh : Nat) (m : Nat → Bool) (val : Nat → Word) : (g.store d sh m val).latch = g.latch := rfl
@[simp] theorem store_fwdOpen (d : VReg) (sh : Nat) (m : Nat → Bool) (val : Nat → Word) : (g.store d sh m val).fwdOpen = g.fwdOpen := rfl
@[simp] theorem store_fwd (d : VReg) (sh : Nat) (m : Nat → Bool) (val : Nat → Word) : (g.store d sh m val).fwd = g.fwd := rfl
@[simp] theorem store_owed (d : VReg) (sh : Nat) (m : Nat → Bool) (val : Nat → Word) : (g.store d sh m val).owed = g.owed := rfl
@[simp] theorem store_preempt (d : VReg) (sh : Nat) (m : Nat → Bool) (val : Nat → Word) : (g.store d sh m val).preempt = g.preempt := rfl
@[simp] theorem store_trapDue (d : VReg) (sh : Nat) (m : Nat → Bool) (val : Nat → Word) : (g.store d sh m val).trapDue = g.trapDue := rfl
@[simp] theorem store_port (d : VReg) (sh : Nat) (m : Nat → Bool) (val : Nat → Word) : (g.store d sh m val).port = g.port := rfl
@[simp] theorem store_inSet (d : VReg) (sh : Nat) (m : Nat → Bool) (val : Nat → Word) : (g.store d sh m val).inSet = g.inSet := rfl
@[simp] theorem store_entered (d : VReg) (sh : Nat) (m : Nat → Bool) (val : Nat → Word) : (g.store d sh m val).entered = g.entered := rfl
@[simp] theorem store_readySince (d : VReg) (sh : Nat) (m : Nat → Bool) (val : Nat → Word) : (g.store d sh m val).readySince = g.readySince := rfl
@[simp] theorem store_v (d : VReg) (sh : Nat) (m : Nat → Bool) (val : Nat → Word) :
    (g.store d sh m val).v = g.v.modify d.val fun x => x.store sh m val := rfl
@[simp] theorem store_vDue (d : VReg) (sh : Nat) (m : Nat → Bool) (val : Nat → Word) :
    (g.store d sh m val).vDue = g.vDue.modify d.val fun x => x.store sh m val := rfl

/-! ## Group.storeDue -/

@[simp] theorem storeDue_v (d : VReg) (sh : Nat) (m : Nat → Bool) (val : Nat → Word) : (g.storeDue d sh m val).v = g.v := rfl
@[simp] theorem storeDue_h (d : VReg) (sh : Nat) (m : Nat → Bool) (val : Nat → Word) : (g.storeDue d sh m val).h = g.h := rfl
@[simp] theorem storeDue_hDue (d : VReg) (sh : Nat) (m : Nat → Bool) (val : Nat → Word) : (g.storeDue d sh m val).hDue = g.hDue := rfl
@[simp] theorem storeDue_pend (d : VReg) (sh : Nat) (m : Nat → Bool) (val : Nat → Word) : (g.storeDue d sh m val).pend = g.pend := rfl
@[simp] theorem storeDue_awaited (d : VReg) (sh : Nat) (m : Nat → Bool) (val : Nat → Word) : (g.storeDue d sh m val).awaited = g.awaited := rfl
@[simp] theorem storeDue_p (d : VReg) (sh : Nat) (m : Nat → Bool) (val : Nat → Word) : (g.storeDue d sh m val).p = g.p := rfl
@[simp] theorem storeDue_b (d : VReg) (sh : Nat) (m : Nat → Bool) (val : Nat → Word) : (g.storeDue d sh m val).b = g.b := rfl
@[simp] theorem storeDue_md (d : VReg) (sh : Nat) (m : Nat → Bool) (val : Nat → Word) : (g.storeDue d sh m val).md = g.md := rfl
@[simp] theorem storeDue_gang (d : VReg) (sh : Nat) (m : Nat → Bool) (val : Nat → Word) : (g.storeDue d sh m val).gang = g.gang := rfl
@[simp] theorem storeDue_count (d : VReg) (sh : Nat) (m : Nat → Bool) (val : Nat → Word) : (g.storeDue d sh m val).count = g.count := rfl
@[simp] theorem storeDue_live (d : VReg) (sh : Nat) (m : Nat → Bool) (val : Nat → Word) : (g.storeDue d sh m val).live = g.live := rfl
@[simp] theorem storeDue_helper (d : VReg) (sh : Nat) (m : Nat → Bool) (val : Nat → Word) : (g.storeDue d sh m val).helper = g.helper := rfl
@[simp] theorem storeDue_draw (d : VReg) (sh : Nat) (m : Nat → Bool) (val : Nat → Word) : (g.storeDue d sh m val).draw = g.draw := rfl
@[simp] theorem storeDue_gfid (d : VReg) (sh : Nat) (m : Nat → Bool) (val : Nat → Word) : (g.storeDue d sh m val).gfid = g.gfid := rfl
@[simp] theorem storeDue_retired (d : VReg) (sh : Nat) (m : Nat → Bool) (val : Nat → Word) : (g.storeDue d sh m val).retired = g.retired := rfl
@[simp] theorem storeDue_pc (d : VReg) (sh : Nat) (m : Nat → Bool) (val : Nat → Word) : (g.storeDue d sh m val).pc = g.pc := rfl
@[simp] theorem storeDue_flags (d : VReg) (sh : Nat) (m : Nat → Bool) (val : Nat → Word) : (g.storeDue d sh m val).flags = g.flags := rfl
@[simp] theorem storeDue_cause (d : VReg) (sh : Nat) (m : Nat → Bool) (val : Nat → Word) : (g.storeDue d sh m val).cause = g.cause := rfl
@[simp] theorem storeDue_epc (d : VReg) (sh : Nat) (m : Nat → Bool) (val : Nat → Word) : (g.storeDue d sh m val).epc = g.epc := rfl
@[simp] theorem storeDue_tval (d : VReg) (sh : Nat) (m : Nat → Bool) (val : Nat → Word) : (g.storeDue d sh m val).tval = g.tval := rfl
@[simp] theorem storeDue_priv (d : VReg) (sh : Nat) (m : Nat → Bool) (val : Nat → Word) : (g.storeDue d sh m val).priv = g.priv := rfl
@[simp] theorem storeDue_budget (d : VReg) (sh : Nat) (m : Nat → Bool) (val : Nat → Word) : (g.storeDue d sh m val).budget = g.budget := rfl
@[simp] theorem storeDue_role (d : VReg) (sh : Nat) (m : Nat → Bool) (val : Nat → Word) : (g.storeDue d sh m val).role = g.role := rfl
@[simp] theorem storeDue_ended (d : VReg) (sh : Nat) (m : Nat → Bool) (val : Nat → Word) : (g.storeDue d sh m val).ended = g.ended := rfl
@[simp] theorem storeDue_left (d : VReg) (sh : Nat) (m : Nat → Bool) (val : Nat → Word) : (g.storeDue d sh m val).left = g.left := rfl
@[simp] theorem storeDue_wait (d : VReg) (sh : Nat) (m : Nat → Bool) (val : Nat → Word) : (g.storeDue d sh m val).wait = g.wait := rfl
@[simp] theorem storeDue_arrived (d : VReg) (sh : Nat) (m : Nat → Bool) (val : Nat → Word) : (g.storeDue d sh m val).arrived = g.arrived := rfl
@[simp] theorem storeDue_latch (d : VReg) (sh : Nat) (m : Nat → Bool) (val : Nat → Word) : (g.storeDue d sh m val).latch = g.latch := rfl
@[simp] theorem storeDue_fwdOpen (d : VReg) (sh : Nat) (m : Nat → Bool) (val : Nat → Word) : (g.storeDue d sh m val).fwdOpen = g.fwdOpen := rfl
@[simp] theorem storeDue_fwd (d : VReg) (sh : Nat) (m : Nat → Bool) (val : Nat → Word) : (g.storeDue d sh m val).fwd = g.fwd := rfl
@[simp] theorem storeDue_owed (d : VReg) (sh : Nat) (m : Nat → Bool) (val : Nat → Word) : (g.storeDue d sh m val).owed = g.owed := rfl
@[simp] theorem storeDue_preempt (d : VReg) (sh : Nat) (m : Nat → Bool) (val : Nat → Word) : (g.storeDue d sh m val).preempt = g.preempt := rfl
@[simp] theorem storeDue_trapDue (d : VReg) (sh : Nat) (m : Nat → Bool) (val : Nat → Word) : (g.storeDue d sh m val).trapDue = g.trapDue := rfl
@[simp] theorem storeDue_port (d : VReg) (sh : Nat) (m : Nat → Bool) (val : Nat → Word) : (g.storeDue d sh m val).port = g.port := rfl
@[simp] theorem storeDue_inSet (d : VReg) (sh : Nat) (m : Nat → Bool) (val : Nat → Word) : (g.storeDue d sh m val).inSet = g.inSet := rfl
@[simp] theorem storeDue_entered (d : VReg) (sh : Nat) (m : Nat → Bool) (val : Nat → Word) : (g.storeDue d sh m val).entered = g.entered := rfl
@[simp] theorem storeDue_readySince (d : VReg) (sh : Nat) (m : Nat → Bool) (val : Nat → Word) : (g.storeDue d sh m val).readySince = g.readySince := rfl
@[simp] theorem storeDue_vDue (d : VReg) (sh : Nat) (m : Nat → Bool) (val : Nat → Word) :
    (g.storeDue d sh m val).vDue = g.vDue.modify d.val fun x => x.store sh m val := rfl

/-! ## Group.trapped -/

@[simp] theorem trapped_vDue (x : Trap) : (g.trapped x).vDue = g.vDue := rfl
@[simp] theorem trapped_hDue (x : Trap) : (g.trapped x).hDue = g.hDue := rfl
@[simp] theorem trapped_p (x : Trap) : (g.trapped x).p = g.p := rfl
@[simp] theorem trapped_b (x : Trap) : (g.trapped x).b = g.b := rfl
@[simp] theorem trapped_md (x : Trap) : (g.trapped x).md = g.md := rfl
@[simp] theorem trapped_gang (x : Trap) : (g.trapped x).gang = g.gang := rfl
@[simp] theorem trapped_count (x : Trap) : (g.trapped x).count = g.count := rfl
@[simp] theorem trapped_live (x : Trap) : (g.trapped x).live = g.live := rfl
@[simp] theorem trapped_helper (x : Trap) : (g.trapped x).helper = g.helper := rfl
@[simp] theorem trapped_draw (x : Trap) : (g.trapped x).draw = g.draw := rfl
@[simp] theorem trapped_gfid (x : Trap) : (g.trapped x).gfid = g.gfid := rfl
@[simp] theorem trapped_retired (x : Trap) : (g.trapped x).retired = g.retired := rfl
@[simp] theorem trapped_flags (x : Trap) : (g.trapped x).flags = g.flags := rfl
@[simp] theorem trapped_budget (x : Trap) : (g.trapped x).budget = g.budget := rfl
@[simp] theorem trapped_role (x : Trap) : (g.trapped x).role = g.role := rfl
@[simp] theorem trapped_ended (x : Trap) : (g.trapped x).ended = g.ended := rfl
@[simp] theorem trapped_left (x : Trap) : (g.trapped x).left = g.left := rfl
@[simp] theorem trapped_arrived (x : Trap) : (g.trapped x).arrived = g.arrived := rfl
@[simp] theorem trapped_preempt (x : Trap) : (g.trapped x).preempt = g.preempt := rfl
@[simp] theorem trapped_port (x : Trap) : (g.trapped x).port = g.port := rfl
@[simp] theorem trapped_inSet (x : Trap) : (g.trapped x).inSet = g.inSet := rfl
@[simp] theorem trapped_entered (x : Trap) : (g.trapped x).entered = g.entered := rfl
@[simp] theorem trapped_readySince (x : Trap) : (g.trapped x).readySince = g.readySince := rfl
@[simp] theorem trapped_v (x : Trap) : (g.trapped x).v = g.vDue := rfl
@[simp] theorem trapped_h (x : Trap) : (g.trapped x).h = g.hDue := rfl
@[simp] theorem trapped_pend (x : Trap) : (g.trapped x).pend = 0 := rfl
@[simp] theorem trapped_awaited (x : Trap) : (g.trapped x).awaited = 0 := rfl
@[simp] theorem trapped_epc (x : Trap) : (g.trapped x).epc = g.pc := rfl
@[simp] theorem trapped_cause (x : Trap) : (g.trapped x).cause = causeWord x.cause x.sub := rfl
@[simp] theorem trapped_tval (x : Trap) : (g.trapped x).tval = x.tval := rfl
@[simp] theorem trapped_priv (x : Trap) : (g.trapped x).priv = true := rfl
@[simp] theorem trapped_pc (x : Trap) : (g.trapped x).pc = 0 := rfl

/-! ## Group.returned -/

@[simp] theorem returned_v : (g.returned).v = g.v := rfl
@[simp] theorem returned_vDue : (g.returned).vDue = g.vDue := rfl
@[simp] theorem returned_h : (g.returned).h = g.h := rfl
@[simp] theorem returned_hDue : (g.returned).hDue = g.hDue := rfl
@[simp] theorem returned_pend : (g.returned).pend = g.pend := rfl
@[simp] theorem returned_awaited : (g.returned).awaited = g.awaited := rfl
@[simp] theorem returned_p : (g.returned).p = g.p := rfl
@[simp] theorem returned_b : (g.returned).b = g.b := rfl
@[simp] theorem returned_md : (g.returned).md = g.md := rfl
@[simp] theorem returned_gang : (g.returned).gang = g.gang := rfl
@[simp] theorem returned_count : (g.returned).count = g.count := rfl
@[simp] theorem returned_live : (g.returned).live = g.live := rfl
@[simp] theorem returned_helper : (g.returned).helper = g.helper := rfl
@[simp] theorem returned_draw : (g.returned).draw = g.draw := rfl
@[simp] theorem returned_gfid : (g.returned).gfid = g.gfid := rfl
@[simp] theorem returned_retired : (g.returned).retired = g.retired := rfl
@[simp] theorem returned_flags : (g.returned).flags = g.flags := rfl
@[simp] theorem returned_epc : (g.returned).epc = g.epc := rfl
@[simp] theorem returned_tval : (g.returned).tval = g.tval := rfl
@[simp] theorem returned_budget : (g.returned).budget = g.budget := rfl
@[simp] theorem returned_role : (g.returned).role = g.role := rfl
@[simp] theorem returned_ended : (g.returned).ended = g.ended := rfl
@[simp] theorem returned_left : (g.returned).left = g.left := rfl
@[simp] theorem returned_wait : (g.returned).wait = g.wait := rfl
@[simp] theorem returned_arrived : (g.returned).arrived = g.arrived := rfl
@[simp] theorem returned_latch : (g.returned).latch = g.latch := rfl
@[simp] theorem returned_fwdOpen : (g.returned).fwdOpen = g.fwdOpen := rfl
@[simp] theorem returned_fwd : (g.returned).fwd = g.fwd := rfl
@[simp] theorem returned_owed : (g.returned).owed = g.owed := rfl
@[simp] theorem returned_preempt : (g.returned).preempt = g.preempt := rfl
@[simp] theorem returned_trapDue : (g.returned).trapDue = g.trapDue := rfl
@[simp] theorem returned_port : (g.returned).port = g.port := rfl
@[simp] theorem returned_inSet : (g.returned).inSet = g.inSet := rfl
@[simp] theorem returned_entered : (g.returned).entered = g.entered := rfl
@[simp] theorem returned_readySince : (g.returned).readySince = g.readySince := rfl
@[simp] theorem returned_pc : g.returned.pc = g.epc := rfl
@[simp] theorem returned_cause : g.returned.cause = g.cause &&& 0x7FFFFFFF := rfl
@[simp] theorem returned_priv : g.returned.priv = false := rfl

/-! ## Team.modGroup -/

@[simp] theorem teamModGroup_tid (k : Nat) (f : Group → Group) : (t.modGroup k f).tid = t.tid := rfl
@[simp] theorem teamModGroup_ctx (k : Nat) (f : Group → Group) : (t.modGroup k f).ctx = t.ctx := rfl
@[simp] theorem teamModGroup_serial (k : Nat) (f : Group → Group) : (t.modGroup k f).serial = t.serial := rfl
@[simp] theorem teamModGroup_lin (k : Nat) (f : Group → Group) : (t.modGroup k f).lin = t.lin := rfl
@[simp] theorem teamModGroup_cont (k : Nat) (f : Group → Group) : (t.modGroup k f).cont = t.cont := rfl
@[simp] theorem teamModGroup_core (k : Nat) (f : Group → Group) : (t.modGroup k f).core = t.core := rfl
@[simp] theorem teamModGroup_scr (k : Nat) (f : Group → Group) : (t.modGroup k f).scr = t.scr := rfl
@[simp] theorem teamModGroup_scrBytes (k : Nat) (f : Group → Group) : (t.modGroup k f).scrBytes = t.scrBytes := rfl
@[simp] theorem teamModGroup_scrBase (k : Nat) (f : Group → Group) : (t.modGroup k f).scrBase = t.scrBase := rfl
@[simp] theorem teamModGroup_scrPoison (k : Nat) (f : Group → Group) : (t.modGroup k f).scrPoison = t.scrPoison := rfl
@[simp] theorem teamModGroup_marks (k : Nat) (f : Group → Group) : (t.modGroup k f).marks = t.marks := rfl
@[simp] theorem teamModGroup_acc (k : Nat) (f : Group → Group) : (t.modGroup k f).acc = t.acc := rfl
@[simp] theorem teamModGroup_accRows (k : Nat) (f : Group → Group) : (t.modGroup k f).accRows = t.accRows := rfl
@[simp] theorem teamModGroup_accBase (k : Nat) (f : Group → Group) : (t.modGroup k f).accBase = t.accBase := rfl
@[simp] theorem teamModGroup_tagN (k : Nat) (f : Group → Group) : (t.modGroup k f).tagN = t.tagN := rfl
@[simp] theorem teamModGroup_tagBase (k : Nat) (f : Group → Group) : (t.modGroup k f).tagBase = t.tagBase := rfl
@[simp] theorem teamModGroup_tg (k : Nat) (f : Group → Group) : (t.modGroup k f).tg = t.tg := rfl
@[simp] theorem teamModGroup_bound (k : Nat) (f : Group → Group) : (t.modGroup k f).bound = t.bound := rfl
@[simp] theorem teamModGroup_tagErr (k : Nat) (f : Group → Group) : (t.modGroup k f).tagErr = t.tagErr := rfl
@[simp] theorem teamModGroup_tagReason (k : Nat) (f : Group → Group) : (t.modGroup k f).tagReason = t.tagReason := rfl
@[simp] theorem teamModGroup_rings (k : Nat) (f : Group → Group) : (t.modGroup k f).rings = t.rings := rfl
@[simp] theorem teamModGroup_bars (k : Nat) (f : Group → Group) : (t.modGroup k f).bars = t.bars := rfl
@[simp] theorem teamModGroup_moves (k : Nat) (f : Group → Group) : (t.modGroup k f).moves = t.moves := rfl
@[simp] theorem teamModGroup_convoy (k : Nat) (f : Group → Group) : (t.modGroup k f).convoy = t.convoy := rfl
@[simp] theorem teamModGroup_prio (k : Nat) (f : Group → Group) : (t.modGroup k f).prio = t.prio := rfl
@[simp] theorem teamModGroup_stamp (k : Nat) (f : Group → Group) : (t.modGroup k f).stamp = t.stamp := rfl
@[simp] theorem teamModGroup_phase (k : Nat) (f : Group → Group) : (t.modGroup k f).phase = t.phase := rfl
@[simp] theorem teamModGroup_frame (k : Nat) (f : Group → Group) : (t.modGroup k f).frame = t.frame := rfl
@[simp] theorem teamModGroup_ltime (k : Nat) (f : Group → Group) : (t.modGroup k f).ltime = t.ltime := rfl
@[simp] theorem teamModGroup_saveKey (k : Nat) (f : Group → Group) : (t.modGroup k f).saveKey = t.saveKey := rfl
@[simp] theorem teamModGroup_got16 (k : Nat) (f : Group → Group) : (t.modGroup k f).got16 = t.got16 := rfl
@[simp] theorem teamModGroup_got17 (k : Nat) (f : Group → Group) : (t.modGroup k f).got17 = t.got17 := rfl
@[simp] theorem teamModGroup_got18 (k : Nat) (f : Group → Group) : (t.modGroup k f).got18 = t.got18 := rfl
@[simp] theorem teamModGroup_groups (k : Nat) (f : Group → Group) : (t.modGroup k f).groups = t.groups.modify k f := rfl

end Sys2Proof.Machine
end

