-- ==== Sys2Proof/Tests/States.lean ====
section
/-! SUPPORT. Small packages for the tests, and how each premise of a statement is shown of one by evaluation. -/
namespace Sys2Proof.Tests
open Sys2Proof Sys2Proof.Machine

/-! ## Packages -/

/-- A package in which one group of one team holds the turn. -/
def w0 : State := State.reset.withFetchWord 32 0
/-- That group. -/
def r0 : GRef := ⟨0, 0⟩
/-- The group as placed: sixteen live fibres, every register uniform, type f32. -/
def g0 : Group := (w0.group? r0).getD default
/-- A general value. -/
def gen (n : Nat → Nat) : VVal := .gen ((List.range 16).map fun f => .ofNat 32 (n f))
/-- The group with a v register of both views set. -/
def put (a : VReg) (x : VVal) (g : Group) : Group := { g with v := g.v.set a.val x, vDue := g.vDue.set a.val x }
/-- The group with a uniform word in a v register. -/
def uni (a : VReg) (x : Nat) (g : Group) : Group := put a (.uni (.ofNat 32 x)) g
/-- The group with a b register set. -/
def setb (a : BReg) (x : Nat) (g : Group) : Group := { g with b := g.b.set a.val (.ofNat 64 x) }
/-- The group with an h register set. -/
def seth (a : HReg) (x : Nat) (g : Group) : Group :=
  { g with h := g.h.set a.val (.ofNat 512 x), hDue := g.hDue.set a.val (.ofNat 512 x) }
/-- A group of a type, with v0 to v7 general, v8 affine and v9 to v63 uniform. -/
def gp (type : Nat) : Group :=
  let v := (List.range 64).map fun k =>
    if k < 8 then gen fun f => 16 * k + f else if k = 8 then .aff 5 2 else .uni (.ofNat 32 k)
  { g0 with v := v, vDue := v, md := .ofNat 32 (0x00800000 + 0x10000 * type), p := (List.range 8).map fun k => .ofNat 16 (0xFFFF >>> k) }
/-- A group of which one fibre is live. -/
def one (f : Nat) (g : Group) : Group := { g with live := .ofNat 16 (2 ^ f) }
/-- The package with the group. -/
def at_ (g : Group) : State := w0.modGroup r0 fun _ => g
/-- A change of the group's team. -/
def team (f : Team → Team) (s : State) : State := s.modTeam 0 f
/-- A change of the group's context. -/
def ctx (f : Context → Context) (s : State) : State := { s with contexts := s.contexts.map f }
/-- Bytes of device memory. -/
def poke (a : Nat) (bs : List Byte) (s : State) : State := { s with mem := s.mem.write a bs }
/-- Words of device memory of eight bytes each. -/
def poke8 (a : Nat) (xs : List Nat) (s : State) : State := poke a (xs.flatMap (natLe 8)) s
/-- Bytes of the scratchpad window. -/
def scr (a : Nat) (bs : List Byte) (s : State) : State := team (fun t => { t with scr := t.scr.write a bs }) s
/-- Pages after the first: a host page with device bias, one with host bias, one of package 5, a directory page of f32, and a
64 KiB host page at 7 · 2^25. -/
def paged (s : State) : State :=
  poke8 0x30000 [0x500003F + 2 ^ 62] (poke8 0x10008 [0x400003F + 2 ^ 62, 0x600003F + 2 ^ 62 + 2 ^ 61, 0x5003F + 2 ^ 63,
    0x400003F + 2 ^ 59 + 8 * 2 ^ 55, 0x6000027, 0x800002B, 0x30001]
    { s with job := ⟨1, 8, 0⟩, hostLines := [0x80000, 0x80001], hostMem := Memory.empty.write 0x4000000 [1, 2, 3, 4] })

/-- A handle: base, type, rank, element type, SPACE, DIR, bounds, strides and a word of format. -/
def mkH (base type rank elem : Nat) (scr dir : Bool) (bounds strides : List Nat) (fmt : Nat) : Nat :=
  base + (type + rank * 16 + scr.toNat * 128 + elem * 2 ^ 16 + dir.toNat * 2 ^ 31) * 2 ^ 64
    + (bounds.zipIdx.map fun (b, k) => b * 2 ^ (32 * (3 + k))).sum
    + (strides.zipIdx.map fun (b, k) => b * 2 ^ (32 * (8 + k))).sum + fmt * 2 ^ 384
/-- The leaf of an address. -/
def leafOf (s : State) (va : DWord) (k : AccKind) : Leaf :=
  match s.translate (s.ctxOf (s.teamOf r0)) va k with
  | .ok l => l
  | .error _ => default

/-- The package up and of a job of eight. -/
def up (s : State) : State := { s with boot := ⟨8, 0, false, true⟩, job := ⟨1, 8, 0⟩ }
/-- Words as bytes. -/
def w32 (xs : List Nat) : List Byte := xs.flatMap (natLe 4)
/-- The cells of the bytes from an address that are not 0. -/
def listed (a : Nat) (bs : List Byte) : List Host.Cell :=
  (bs.zipIdx.filter fun x => x.1 != 0).map fun x => (a + x.2, x.1)
/-- A dense resource at 0x40000 of 16 × 12 × 8 voxels and a pyramid at 0x40080 of 24 × 16 × 16, of two levels above the finest,
with every brick present but the finest of the pyramid; and a brick table at 0x40500. -/
def lods (s : State) : State :=
  let desc (kind : Nat) (e : List Nat) (lt : Nat) : List Byte :=
    w32 ([kind + 2 * 256, 0x3F800000] ++ e ++ [0, lt] ++ List.replicate 9 0)
  let lev (d m : Nat) : List Byte := w32 [d, 0, m, 0, 0x3E000000, 0, 0, 0]
  let bs := [(0, desc 1 [16, 12, 8] 0x40100), (0x80, desc 2 [24, 16, 16] 0x40180)]
    ++ (List.range 3).map (fun j => (0x100 + 32 * j, lev (0x50000 + 0x10000 * j) (0x40400 + 16 * j)))
    ++ (List.range 3).map (fun j => (0x180 + 32 * j, lev (0x80000 + 0x10000 * j) (0x40480 + 16 * j)))
    ++ (List.range 3).map (fun j => (0x400 + 16 * j, [255])) ++ [(0x490, [255]), (0x4A0, [255]), (0x500, natLe 8 0x40080)]
  { s with mem := ⟨s.mem.cells ++ bs.flatMap fun (a, b) => listed (0x2040000 + a) b⟩ }
/-- A launch record of two teams: its first word and its side block's address. -/
def record (w side : Nat) : List Byte :=
  w32 [w, 1, 0, 127 * 2 ^ 24 + 8 * 2 ^ 16 + 8 * 2 ^ 8, 4096 + 64, 0, side, 0, 99, 0, 0x1234, 0, 0, 0, 0, 0]
/-- Records at 0x40100: for queue 0, for a full queue, and one with a reserved bit set; their side block at 0x40200. -/
def launching (s : State) : State :=
  let bs := [(0x100, record 0 0x40200), (0x140, record (2 ^ 24) 0x40200), (0x180, record (2 ^ 14) 0x40200),
    (0x200, w32 ([5, 272, 0, 0, 0, 0, 0, 0, 0, 0] ++ List.range 64))]
  { s with
    mem := ⟨s.mem.cells ++ bs.flatMap fun (a, b) => listed (0x2040000 + a) b⟩
    contexts := s.contexts.map fun c => { c with qcfg := (List.range 16).map fun j => if j = 1 then 0 else .ofNat 32 (2 + 65536 * 3) } }
/-- A grid whose teams have room on a core. -/
def small : Grid := { (default : Grid) with
  serial := 2, eligible := true, gx := 4, gy := 1, gz := 1, tbase := 127, tags := 8, bud := 8, scr := 64, acc := 1, grp := 1,
  image := List.replicate 64 (.uni 5), entry := 77, args := 99 }
/-- The package whose team has a frame at the start of the area at 1 MiB, in a phase. -/
def framed (p : Phase) (s : State) : State :=
  ctx (fun c => { c with save := 0x100000, saveSz := 0x200000, frames := [(0, 0x100000, 0)] })
    (team (fun t => { t with phase := p, frame := some 0 }) s)
/-- A field program: a sphere. -/
def image : List Byte :=
  natLe 2 1 ++ natLe 2 3 ++ natLe 1 4 ++ List.replicate 11 0 ++ w32 [0x3F000000, 0x3F000000, 0x3F000000, 0x40000000] ++
    [0x0400, 0x2900, 0x1903].flatMap (natLe 2)
/-- The program of the image. -/
def imageProg : Prog := (progOf image).getD ⟨[], []⟩
/-- The package whose grids take continuations. -/
def gridded (s : State) : State :=
  { s with grids := s.grids.map fun x => { x with pgrp := 2, targets := [⟨0x10, 16⟩, ⟨0x20, 64⟩, ⟨0x30, 0⟩], arriv := 0x3000 } }
/-- The package whose team and grids leave room on the core. -/
def roomy (s : State) : State :=
  { team (fun t => { t with scrBytes := 65536, tagN := 16, accRows := 16 }) s with
    grids := s.grids.map fun x => { x with scr := 64, tags := 8, acc := 1, bud := 8 } }

/-- An operation in flight of the group, numbered 7, of a kind. -/
def opOf (k : OpKind) (tag : Option Nat := some 3) : Op :=
  { id := 7, ctx := 0, tid := 0, slot := 0, kind := k, tag := tag, ring := none, seq := 0, reason := 0, done := 0, cut := false,
    spans := [], busy := [], seen := [], bad := none, sent := false, waits := [], got := [], captured := false }

/-! ## Showing premises -/

theorem holds_of {s r g} (h : s.cur = some r ∧ s.group? r = some g ∧ g.sized = true) : Holds s r g :=
  ⟨h.1, h.2.1, h.2.2⟩
theorem turn_of {s r g} (h : (s.cur = some r ∧ s.group? r = some g ∧ g.sized = true) ∧ g.actives ≠ []) : Turn s r g :=
  ⟨holds_of h.1, h.2⟩
theorem reads_of {g : Group} {a x} (h : ∀ f ∈ g.actives, g.rd a f = x) : g.reads a x := h
theorem reads2_of {g : Group} {a x}
    (h : (∀ f ∈ g.actives, g.rd a f = x.extractLsb' 0 32) ∧ ∀ f ∈ g.actives, g.rd (nextReg a) f = x.extractLsb' 32 32) :
    g.reads2 a x := h
theorem not_reads_of {g : Group} {a} (e f : Nat) (h : e ∈ g.actives ∧ f ∈ g.actives ∧ g.rd a e ≠ g.rd a f) : ∀ x, ¬ g.reads a x :=
  fun _ k => h.2.2 ((k e h.1).trans (k f h.2.1).symm)
theorem quiet_of {s r} {g : Group} (h : g.priv = true ∨ (s.ctxOf (s.teamOf r)).recMode ≠ 1) : Quiet s r g := h
theorem unlisted_of {s r} {g : Group}
    (h : g.priv = true ∨ ((s.ctxOf (s.teamOf r)).recMode ≠ 1 ∧ (s.ctxOf (s.teamOf r)).recMode ≠ 2)) : Unlisted s r g := h
theorem unstaged_of {s : State} {c : Context} (h : ∀ x ∈ s.grids, x.ctx = c.num → x.retired = false → x.stage = 0) : Unstaged s c := h
theorem unarmed_of {s : State} {r} (h : ∀ x ∈ s.grids, x.ctx = (s.ctxOf (s.teamOf r)).num → x.retired = false → x.stage = 0) :
    Unarmed s r := h
theorem mayEnd_of {s : State} {r gone whole}
    (h : s.endsNamed (s.ctxOf (s.teamOf r)) (fun f => (s.teamOf r).party r.slot f false) gone whole = none) :
    MayEnd s r gone whole := h
theorem engineIdle_of {s : State} {r} (h : ∀ x ∈ s.matrix, x.core ≠ (s.teamOf r).core) : EngineIdle s r := h
/-- The checks of `Reaches`. -/
def reachesB (s : State) (r : GRef) (k : AccKind) (align : Nat) (va : DWord) (loc : Loc) : Bool :=
  canonical va && va.toNat % align == 0 && s.lineHere loc && match s.translate (s.ctxOf (s.teamOf r)) va k with
    | .ok l => l.home va == .here loc && !s.frozen (s.ctxOf (s.teamOf r)).num (l.page va)
    | .error _ => false
theorem reaches_of {s r k al va loc} (h : reachesB s r k al va loc = true) : Reaches s r k al va loc := by
  unfold reachesB at h
  split at h
  · next l e => simp at h; exact ⟨h.1.1.1, h.1.1.2, ⟨l, e, h.2.1, h.2.2⟩, h.1.2⟩
  · simp at h
theorem inRange_of {s r al n w tid} (h : scrReserved w = false ∧ s.scrMisuse (s.teamOf r) w = false ∧ scrOff w % al = 0 ∧
    (scrOff w < (s.teamOf r).scrBytes ∧ scrOff w + n ≤ (s.teamOf r).scrBytes) ∧ s.scrTid (s.teamOf r) w = some tid) :
    InRange s r al n w tid :=
  ⟨h.1, h.2.1, h.2.2.1, h.2.2.2.1, h.2.2.2.2⟩
/-- The checks of `InWindow`. -/
def inWindowB (s : State) (r : GRef) (z al n : Nat) (w : Word) (tid : Nat) : Bool :=
  decide ((scrReserved w = false ∧ s.scrMisuse (s.teamOf r) w = false ∧ scrOff w % al = 0 ∧
    (scrOff w < (s.teamOf r).scrBytes ∧ scrOff w + n ≤ (s.teamOf r).scrBytes) ∧ s.scrTid (s.teamOf r) w = some tid) ∧
    ((s.team? tid).getD default).scrPoisoned z (scrOff w) n = false)
theorem inWindow_of {s r z al n w tid} (h : inWindowB s r z al n w tid = true) : InWindow s r z al n w tid :=
  ⟨inRange_of (of_decide_eq_true h).1, (of_decide_eq_true h).2⟩
theorem all_of {α : Type} {l : List α} {P : α → Prop} (B : α → Bool) (h : ∀ x, B x = true → P x) (hb : l.all B = true) :
    ∀ x ∈ l, P x := fun x hx => h x (List.all_eq_true.1 hb x hx)
theorem windows_of {l : List Nat} {s r z al n} {w : Nat → Word} {tid : Nat → Nat}
    (h : l.all (fun f => inWindowB s r z al n (w f) (tid f)) = true) : ∀ f ∈ l, InWindow s r z al n (w f) (tid f) :=
  fun f hf => inWindow_of (List.all_eq_true.1 h f hf)
theorem reachable_of {α : Type} {l : List α} {s r k al} {va : α → DWord} {loc : α → Loc}
    (h : l.all (fun f => reachesB s r k al (va f) (loc f)) = true) : ∀ f ∈ l, Reaches s r k al (va f) (loc f) :=
  fun f hf => reaches_of (List.all_eq_true.1 h f hf)
/-- The checks that a run of bytes of a frame can be reached, piece by piece. -/
def openB (s : State) (k : AccKind) (loc : Nat → Loc) (a n : Nat) : Bool :=
  (pieces 128 (n / 128 + 2) a n).all fun p => reachesB s r0 k 1 (.ofNat 64 p.1) (loc p.1) &&
    decide (s.poisonedAt (loc p.1) p.2 = false ∧ (k = .write → s.inUse (loc p.1) p.2 = false))
theorem open_of {s k loc a n} (h : openB s k loc a n = true) : ∀ p ∈ pieces 128 (n / 128 + 2) a n,
    Reaches s r0 k 1 (.ofNat 64 p.1) (loc p.1) ∧ s.poisonedAt (loc p.1) p.2 = false ∧
      (k = .write → s.inUse (loc p.1) p.2 = false) := by
  intro p hp
  have := List.all_eq_true.1 h p hp
  rw [Bool.and_eq_true] at this
  exact ⟨reaches_of this.1, of_decide_eq_true this.2⟩
theorem alone_of {α : Type} {l : List α} {P : Nat → α → Prop} (h : l.length = 1) : ∀ k x, k ≠ 0 → l[k]? = some x → P k x := by
  intro k x hk e
  rw [List.getElem?_eq_none (by omega)] at e
  cases e
/-- Pieces read in rising order are the run they cut. -/
theorem pieces_read {m : Memory} {ps : List (Nat × Nat)} {d a n : Nat}
    (h : (ps.flatMap fun p => (List.range p.2).map fun i => p.1 - d + i) = (List.range n).map fun i => a + i) :
    (ps.flatMap fun p => m.read (p.1 - d) p.2) = m.read a n := by
  have e : (ps.flatMap fun p => m.read (p.1 - d) p.2)
      = (ps.flatMap fun p => (List.range p.2).map fun i => p.1 - d + i).map m.get := by
    rw [List.map_flatMap]
    congr 1
    funext p
    rw [read_eq, List.map_map]
    rfl
  rw [e, h, read_eq, List.map_map]
  rfl
theorem read_back {m : Memory} {a n : Nat} {bs : List Byte} (w : m.wf = true) (h : bs.length = n) :
    (m.write a bs).read a n = bs := by rw [← h]; exact read_write a bs w
theorem some_getD {α : Type} [Inhabited α] {x : Option α} (h : x.isSome = true) : x = some (x.getD default) := by
  cases x with
  | some y => rfl
  | none => cases h
/-- A result is the good one `y`. -/
def okB {ε α : Type} [DecidableEq α] (x : Except ε α) (y : α) : Bool := match x with | .ok z => decide (z = y) | .error _ => false
theorem ok_of {ε α : Type} [DecidableEq α] {x : Except ε α} {y : α} (h : okB x y = true) : x = .ok y := by
  unfold okB at h
  split at h
  · next z => rw [of_decide_eq_true h]
  · cases h
theorem error_of {ε α : Type} [DecidableEq ε] {x : Except ε α} {y : ε}
    (h : (match x with | .error z => decide (z = y) | .ok _ => false) = true) : x = .error y := by
  split at h
  · next z => rw [of_decide_eq_true h]
  · cases h
theorem get_of {ε α : Type} {x : Except ε α} (d : α) (h : x.isOk = true) : x = .ok (x.toOption.getD d) := by
  cases x with
  | ok y => rfl
  | error e => cases h
/-- A result is a good one that is there. -/
def someB {ε α : Type} (x : Except ε (Option α)) : Bool := match x with | .ok (some _) => true | _ => false
theorem some_of {ε α : Type} [Inhabited α] {x : Except ε (Option α)} (h : someB x = true) :
    x = .ok (some ((x.toOption.getD none).getD default)) := by
  unfold someB at h
  split at h
  · rfl
  · cases h
theorem ok_none {ε α : Type} {x : Except ε (Option α)}
    (h : (match x with | .ok none => true | _ => false) = true) : x = .ok none := by
  split at h
  · rfl
  · cases h
theorem pair_of {α : Type} {x : Rd (α × Nat)} {k : Nat} (hx : Rd.Steady x)
    (h : (match x.run with | .ok ((_, n), _) => n == k | _ => false) = true) : ∃ y, x.Gives (y, k) := by
  split at h
  · next y n l e => exact ⟨y, by rw [← eq_of_beq h]; exact gives_of hx e⟩
  · cases h
theorem gives_none {α : Type} {x : Rd (Option α)} (hx : Rd.Steady x)
    (h : (match x.run with | .ok (none, _) => true | _ => false) = true) : x.Gives none := by
  split at h
  · next l e => exact gives_of hx e
  · cases h
theorem read_of {α : Type} {x : Rd α} {P : α → Prop} [DecidablePred P] (hx : Rd.Steady x)
    (h : (match x.run with | .ok (y, _) => decide (P y) | _ => false) = true) : ∃ y, x.Gives y ∧ P y := by
  split at h
  · next y l e => exact ⟨y, gives_of hx e, of_decide_eq_true h⟩
  · cases h
theorem reads_some {α : Type} {x : Rd (Option α)} {P : α → Prop} [DecidablePred P] (hx : Rd.Steady x)
    (h : (match x.run with | .ok (some y, _) => decide (P y) | _ => false) = true) : ∃ y, x.Gives (some y) ∧ P y := by
  split at h
  · next y l e => exact ⟨y, gives_of hx e, of_decide_eq_true h⟩
  · cases h
theorem run_of {ε σ α : Type} {r : EStateM.Result ε σ α} (h : (match r with | .ok _ _ => true | .error _ _ => false) = true) :
    ∃ x y, r = .ok x y := by
  split at h
  · next x y => exact ⟨x, y, rfl⟩
  · cases h
/-- A step of a ray has ended it, and changed no team, operation or context. -/
def endedB (s : State) (r : EStateM.Result Halt FieldSt March) : Bool := match r with
  | .ok (.ended _) b => decide (b.st.teams = s.teams ∧ b.st.ops = s.ops ∧ b.st.contexts = s.contexts)
  | _ => false
theorem ended_of {s : State} {r : EStateM.Result Halt FieldSt March} (h : endedB s r = true) :
    ∃ x b, r = .ok (.ended x) b ∧ b.st.teams = s.teams ∧ b.st.ops = s.ops ∧ b.st.contexts = s.contexts := by
  unfold endedB at h
  split at h
  · next x b => exact ⟨x, b, rfl, of_decide_eq_true h⟩
  · cases h
theorem more_of {r : EStateM.Result Halt FieldSt March} (h : (match r with | .ok (.more _) _ => true | _ => false) = true) :
    ∃ x b, r = .ok (.more x) b := by
  split at h
  · next x b => exact ⟨x, b, rfl⟩
  · cases h
theorem next_of {x : Host.Outcome State Fault Refusal} (h : (match x with | .next _ => true | _ => false) = true) : ∃ t, x = .next t := by
  split at h
  · next t => exact ⟨t, rfl⟩
  · cases h
theorem isOk_of {ε α : Type} {x : Except ε α} (h : x.isOk = true) : ∃ y, x = .ok y := by
  cases x with
  | ok y => exact ⟨y, rfl⟩
  | error e => cases h
theorem notPage_of {x : Except XError Leaf} (h : (match x with | .error .page => false | _ => true) = true) :
    x ≠ .error .page := by
  intro e; rw [e] at h; cases h
theorem spot_of {x : Rd Spot} {n : Nat} (h : (match x.run with | .ok (.at b, _) => b == n | _ => false) = true) :
    ∃ log, x.run = .ok (.at n, log) := by
  split at h
  · next b log e => exact ⟨log, by rw [e, eq_of_beq h]⟩
  · cases h
theorem runs_of {α β : Type} {ε : Type} {x : Except ε (α × β)} (h : x.isOk = true) : ∃ a b, x = .ok (a, b) := by
  cases x with
  | ok y => exact ⟨y.1, y.2, rfl⟩
  | error e => cases h
theorem all_some {α β : Type} {l : List α} {f : α → Option β} (P : α → β → Bool)
    (h : l.all (fun x => match f x with | some y => P x y | none => false) = true) :
    ∀ x ∈ l, ∃ y, f x = some y ∧ P x y = true := by
  intro x hx
  have := List.all_eq_true.1 h x hx
  split at this
  · next y e => exact ⟨y, e, this⟩
  · cases this
/-- The checks of `ChunkAt`. -/
def chunkB (s : State) (c : Context) (k : AccKind) (va : DWord) (loc : Loc) : Bool :=
  canonical va && va.toNat % 16 == 0 && s.lineHere loc && decide (k = .write → s.inUse loc 16 = false) && !s.poisonedAt loc 16
    && match s.translate c va k with
    | .ok l => l.home va == .here loc && !s.frozen c.num (l.page va)
    | .error _ => false
theorem chunkAt_of {s c k va loc} (h : chunkB s c k va loc = true) : ChunkAt s c k va loc := by
  unfold chunkB at h
  split at h
  · next l e =>
    simp only [Bool.and_eq_true, beq_iff_eq, Bool.not_eq_true', decide_eq_true_eq] at h
    obtain ⟨⟨⟨⟨⟨a, b⟩, c⟩, d⟩, f⟩, g, k⟩ := h
    exact ⟨a, b, ⟨l, e, g, k⟩, c, d, f⟩
  · simp at h
/-- The checks that a message's write of a piece finds its bytes here. -/
def destB (v : View) (a : DWord) (n : Nat) (l : Loc) : Bool :=
  (match (v.dest a n).run with | .ok (.here x, _) => decide (x = l) | _ => false) && !v.st.poisonedAt l n
theorem dest_of {v : View} {a n l} (h : destB v a n l = true) :
    (v.dest a n).Gives (.here l) ∧ v.st.poisonedAt l n = false := by
  simp only [destB, Bool.and_eq_true, Bool.not_eq_true'] at h
  refine ⟨?_, h.2⟩
  have := h.1
  split at this
  · next x log e => rw [← of_decide_eq_true this]; exact gives_of (dest_steady _ _ _) e
  · cases this
/-- A reader gives `y`. -/
def givesB {α : Type} [DecidableEq α] (x : Rd α) (y : α) : Bool := match x.run with | .ok p => decide (p.1 = y) | .error _ => false
theorem gives_eq {α : Type} [DecidableEq α] {x : Rd α} {y : α} (hx : Rd.Steady x) (h : givesB x y = true) : x.Gives y := by
  unfold givesB at h
  split at h
  · next p e => rw [← of_decide_eq_true h]; exact gives_of hx (l := p.2) e
  · cases h
/-- A reader gives something that is there. -/
def givesSomeB {α : Type} (x : Rd (Option α)) : Bool := match x.run with | .ok (some _, _) => true | _ => false
theorem gives_some {α : Type} [Inhabited α] {x : Rd (Option α)} (hx : Rd.Steady x) (h : givesSomeB x = true) :
    x.Gives (some (x.val.getD default)) := by
  unfold givesSomeB at h
  split at h
  · next y l e =>
    have v : x.val = some y := by unfold Rd.val; rw [e]
    rw [v]
    exact gives_of hx e
  · cases h
/-- A step of an operation still to come has a piece, whatever the order. -/
theorem nth_of {α : Type} {xs : List α} {id c : Nat} (h : c < xs.length) : ∃ y, xs[nthChunk id xs.length c]? = some y :=
  ⟨xs[nthChunk id xs.length c]'(nthChunk_lt h), List.getElem?_eq_getElem (nthChunk_lt h)⟩
/-- A step that reads has a piece and reads it, whatever the order. -/
theorem step_of {v : View} {xs : List (Nat × Nat)} {id c : Nat} (h : c < xs.length ∧
    xs.all (fun y => (v.chunk (.ofNat 64 y.1) y.2).run.isOk) = true) : ∃ a n got reason,
    xs[nthChunk id xs.length c]? = some (a, n) ∧ (v.chunk (.ofNat 64 a) n).Gives (got, reason) := by
  obtain ⟨y, e⟩ := nth_of (id := id) h.1
  exact ⟨y.1, y.2, _, _, e, gives_val (chunk_steady _ _ _) (List.all_eq_true.1 h.2 y (List.mem_of_getElem? e))⟩
/-- The reads of a launch (R309, R241). -/
def launchRd (s : State) (c : Context) (x : Record) (issuer : Option Nat) (v : View) : Rd (Option Side) := do
  withConst s c x issuer (← readSide x v) v
theorem launchRd_steady (s : State) (c : Context) (x : Record) (issuer : Option Nat) (v : View) :
    Rd.Steady (launchRd s c x issuer v) := accept_steady s c x issuer v
/-- A job that a reader gives answers 0, and its writes find their places. -/
theorem job_of {x : Rd MsgJob} {P : DWord × List Byte → Prop} (B : DWord × List Byte → Bool) (hx : Rd.Steady x)
    (hB : ∀ w, B w = true → P w)
    (h : (match x.run with | .ok (y, _) => y.stat == 0 && y.writes.all B | _ => false) = true) :
    ∃ y, x.Gives y ∧ y.stat = 0 ∧ ∀ w ∈ y.writes, P w := by
  split at h
  · next y l e =>
    rw [Bool.and_eq_true] at h
    exact ⟨y, gives_of hx e, eq_of_beq h.1, all_of B hB h.2⟩
  · cases h
/-- The package with windows 1 and 3 open at 0x20000 and at the host page, a manifest of 32 records at 0x38000 and a want ring
at 0x34000. -/
def served (mode : Nat) (s : State) : State :=
  let ring (base log h t : Nat) : List Byte := w32 [base, 0, log, 0, h, 0, t, 0]
  poke 0x2030000 (ring 0x34000 10 12 10) (poke 0x2031000 (ring 0x38000 5 101 100)
    (ctx (fun c => { c with recMode := mode, wpr := 0x30000, mani := 0x31000, maniBase := 0x38000, maniLog := 5,
                            windows := [⟨1, 0x20000, 65536⟩, ⟨3, 0x4000000, 65536⟩] }) s))
/-- The checks of `lck`'s address. -/
def heldB (s : State) (va : DWord) (l : Leaf) : Bool :=
  let c := s.ctxOf (s.teamOf r0)
  canonical va && okB (s.translate c va .read) l
    && !s.frozen c.num (l.page va) && match l.home va with | .here x => !s.poisonedAt x 1 | _ => true
theorem held_of {s : State} {va : DWord} {l : Leaf} (h : heldB s va l = true) :
    canonical va = true ∧ s.translate (s.ctxOf (s.teamOf r0)) va .read = .ok l ∧
      s.frozen (s.ctxOf (s.teamOf r0)).num (l.page va) = false ∧ ∀ x, l.home va = .here x → s.poisonedAt x 1 = false := by
  simp only [heldB, Bool.and_eq_true, Bool.not_eq_true'] at h
  refine ⟨h.1.1.1, ok_of h.1.1.2, h.1.2, fun x e => ?_⟩
  have := h.2; rw [e] at this; simpa using this
/-- The checks of `Accepts`. -/
def acceptsB (s : State) (r : GRef) (w : Word) (d g : Bool) (k : OpKind) : Bool :=
  !completionBad w d g && (match (completionOf w).tag with
    | some n => decide (n < (s.teamOf r).tagN) && !(s.teamOf r).tg.getLsbD n
    | none => true)
  && (match (completionOf w).ring with
    | some n => decide (n < (s.teamOf r).rings.length) &&
      ((completionOf w).out || ((s.teamOf r).rings.getD n default).emptyAtHead)
    | none => true)
  && decide (k.capturable = true → (s.ops.filter fun o => o.tid == (s.teamOf r).tid && o.kind.capturable).length < 64)
theorem accepts_of {s r w d g k} (h : acceptsB s r w d g k = true) : Accepts s r w d g k := by
  unfold acceptsB at h
  simp only [Bool.and_eq_true, Bool.not_eq_true'] at h
  obtain ⟨⟨⟨h1, h2⟩, h3⟩, h4⟩ := h
  refine ⟨h1, fun n e => ?_, fun n e => ?_, of_decide_eq_true h4⟩
  · rw [e] at h2; simpa using h2
  · rw [e] at h3
    simp only [Bool.and_eq_true, decide_eq_true_eq, Bool.or_eq_true] at h3
    exact ⟨h3.1, fun o => by simpa [o] using h3.2⟩
theorem tileAt_of {s r a x} (h : accReserved a = false ∧ a.getLsbD 28 = false ∧ (x.row = accRow a ∧ x.col = accCol a) ∧
    x.row + x.rows ≤ (s.teamOf r).accRows ∧ x.col + x.cols ≤ 256) : TileAt s r a x :=
  ⟨h.1, h.2.1, h.2.2.1, h.2.2.2⟩
theorem shapeOf_of {w x} (h : (w.extractLsb' 26 5 = 0 ∧ w.extractLsb' 9 7 = 0) ∧ (x.rows = shapeRows w ∧ 1 ≤ x.rows ∧
    x.rows ≤ 512) ∧ x.cols = shapeCols w ∧ 1 ≤ x.cols ∧ x.cols ≤ 256) : ShapeOf w x :=
  ⟨h.1, h.2.1, h.2.2⟩
theorem operandAt_of {s r z va fb x ta ts} (tf : Nat)
    (h : inWindowB s r z 16 32 fb tf && inWindowB s r z 2048 x.operandBytes va ta &&
      (x.blk == 0 || inWindowB s r z 1 x.scaleBytes x.scale ts) = true)
    (b : x = fmtBlockOf (s.scrBytesAt tf z (scrOff fb) 32))
    (k : (operandType x.elem = true ∧ (isNarrowType x.elem = true → (nfmtOf x.fmt).valid = true)) ∧
      (x.blk ≠ 3 ∧ (x.blk ≠ 0 → isNarrowType x.elem = true)) ∧ x.fid &&& 0xFFFFFCF0 = 0 ∧ x.reserved = 0) :
    OperandAt s r z va fb x ta ts := by
  simp only [Bool.and_eq_true, Bool.or_eq_true, beq_iff_eq] at h
  exact ⟨⟨tf, inWindow_of h.1.1, b⟩, k.1, k.2.1, k.2.2, inWindow_of h.1.2, fun e => inWindow_of ((of_decide_eq_true h.2).resolve_left e)⟩
theorem taken_of {s s1 h} {q : HostReq} (e : s.takeHost h q.kind = (s1, true) ∧ s1.hostFree s1.port h q = true) :
    Taken s s1 h q := ⟨e.1, e.2⟩
theorem heard_of {s s1 h} {q : HostReq} {c : Context} (e : (s.takeHost h q.kind = (s1, true) ∧ s1.hostFree s1.port h q = true) ∧
    s1.context? h.ctx = some c ∧ c.secure = h.secure) : Heard s s1 h q c := ⟨taken_of e.1, e.2.1, e.2.2⟩
theorem heardPeer_of {s s1} {h : PeerHdr} {c : Context} (e : s.takePeer h = (s1, true) ∧ headerBad h.ver h.len = false ∧
    s1.context? h.ctx = some c ∧ c.secure = s1.portWorld h.dev ∧ c.secure = h.secure) :
    HeardPeer s s1 h c := ⟨e.1, e.2.1, e.2.2.1, e.2.2.2⟩

end Sys2Proof.Tests
end

