-- ==== Sys2Proof/Tests/Slice0.lean ====
section
/-! SUPPORT. Words written out from the encodings of the manual and its listings, terms and words that are refused, and one
instruction or operation of each of the manual's worked examples. -/
namespace Sys2Proof.Tests
open Sys2Proof Sys2Proof.Machine
-- one proof after another: each waits for the kernel
set_option Elab.async false

/-! ## Decoding -/

/-- The listing of the kernel `evens` (R100). -/
theorem test_decode_evens : ∀ p ∈ ([
    (0x0B000002, .modet false false 0 2), (0x05000008, .loop false 8), (0x10941081, .cmpGe false 1 2 1),
    (0x07001007, .brk false 1 7), (0x11082001, .addi false 2 2 1), (0x12102001, .andi false 4 2 1),
    (0x17084001, .cmpiEq false 2 4 1), (0x08002002, .nextP false 2 2), (0x100030C2, .add false 3 3 2),
    (0x06000FF9, .endloop false 0xFF9), (0x00140000, .exit false)] : List (Nat × Instr)), decodeTableWord 32 p.1 = some p.2 := by decide +kernel
/-- The listing of the kernel `split` and the words of `nop` (R74, R82). -/
theorem test_decode_split : ∀ p ∈ ([
    (0x17041408, .cmpiLt false 1 1 8), (0x97041408, .cmpiLt true 1 1 8), (0x03001002, .ifP false 1 2),
    (0x04000002, .elseP false 2), (0x11082FFF, .addi false 2 2 0xFFF), (0x00080000, .endif false),
    (0x00040000, .nop false), (0x80040000, .nop true)] : List (Nat × Instr)), decodeTableWord 32 p.1 = some p.2 := by decide +kernel
/-- The words given in the examples of loads, copies, exchanges and rings (R138, R144, R150, R156). -/
theorem test_decode_memory_examples : ∀ p ∈ ([
    (0x300C8410, .ld false 3 8 2 16), (0x3900120C, .cpy false 1 8 12), (0x38304286, .amaxx false 1 4 10 6),
    (0x3B054040, .rtake false 20 1)] : List (Nat × Instr)), decodeTableWord 32 p.1 = some p.2 := by decide +kernel

/-- The control words, major 0x00 to 0x0C (R66, R67, R74): words written from their fields. -/
theorem test_decode_control_1 : ∀ p ∈ ([
    (0x00040000, .nop false), (0x80080000, .endif true), (0x000C0940, .ret false 37), (0x80100E80, .brx true 58),
    (0x00140000, .exit false), (0x80180000, .yieldG true), (0x001E40D5, .launch false 36 3 21),
    (0x8023A480, .lwait true 58 18), (0x00240A53, .trap false 0xa53), (0x80280000, .tret true),
    (0x002C0012, .xsave false 18), (0x80300021, .xrst true 33), (0x00340A53, .esc false 0xa53),
    (0x803BA4ED, .rqmv true 58 19 45), (0x01ABCDE5, .bra false 0xabcde5), (0x82ABCDE5, .call true 0xabcde5),
    (0x03005A53, .ifP false 5 0xa53), (0x84000A53, .elseP true 0xa53), (0x05000A53, .loop false 0xa53),
    (0x86000A53, .endloop true 0xa53)] : List (Nat × Instr)), decodeTableWord 32 p.1 = some p.2 := by
  decide +kernel

/-- The control words, major 0x00 to 0x0C (R66, R67, R74): words written from their fields. -/
theorem test_decode_control_2 : ∀ p ∈ ([
    (0x07005A53, .brk false 5 0xa53), (0x88005A53, .nextP true 5 0xa53), (0x09000940, .mode false 37),
    (0x8907A000, .gmode true 58), (0x090A5003, .gshape false 37 3), (0x8A2404C2, .shape true 9 19 2),
    (0x0B0001B6, .modet false true 11 6), (0x8C000004, .moder true 4)] : List (Nat × Instr)), decodeTableWord 32 p.1 = some p.2 := by
  decide +kernel

/-- The integer words, majors 0x10 to 0x1A (R67, R71): words written from their fields. -/
theorem test_decode_integer_1 : ∀ p ∈ ([
    (0x0D000013, .modeg false true 3), (0x8E000B00, .modef true 2 true true), (0x10025A95, .add false 37 42 21),
    (0x9007A4ED, .sub true 58 19 45), (0x100A5A95, .mul false 37 42 21), (0x900FA4ED, .mulh true 58 19 45),
    (0x10125A95, .mad false 37 42 21), (0x9017A4ED, .min true 58 19 45), (0x101A5A95, .max false 37 42 21),
    (0x901FA4C0, .abs true 58 19), (0x10225A80, .neg false 37 42), (0x9027A4ED, .and true 58 19 45),
    (0x102A5A95, .or false 37 42 21), (0x902FA4ED, .xor true 58 19 45), (0x10325A80, .not false 37 42),
    (0x9037A4ED, .shl true 58 19 45), (0x103A5A95, .shr false 37 42 21), (0x903FA4ED, .sar true 58 19 45),
    (0x10425A95, .rot false 37 42 21), (0x9047A4C0, .popc true 58 19)] : List (Nat × Instr)), decodeTableWord 32 p.1 = some p.2 := by
  decide +kernel

/-- The integer words, majors 0x10 to 0x1A (R67, R71): words written from their fields. -/
theorem test_decode_integer_2 : ∀ p ∈ ([
    (0x104A5A80, .clz false 37 42), (0x904FA4C0, .brev true 58 19), (0x10525A95, .bfx false 37 42 21),
    (0x9057A4ED, .bfi true 58 19 45), (0x105A5A95, .sel false 37 42 21), (0x905FA4C0, .mov true 58 19),
    (0x10625A80, .cvt false 37 42), (0x908054ED, .cmpEq true 5 19 45), (0x10845A95, .cmpNe false 5 42 21),
    (0x908854ED, .cmpLt true 5 19 45), (0x108C5A95, .cmpLe false 5 42 21), (0x909054ED, .cmpGt true 5 19 45),
    (0x10945A95, .cmpGe false 5 42 21), (0x91E939A7, .addi true 58 19 0x9a7), (0x1296A9A7, .andi false 37 42 0x9a7),
    (0x93E939A7, .ori true 58 19 0x9a7), (0x1496A9A7, .xori false 37 42 0x9a7), (0x95E9301D, .shli true 58 19 29),
    (0x1696A01D, .shri false 37 42 29), (0x971531A5, .cmpiEq true 5 19 0x1a5)] : List (Nat × Instr)), decodeTableWord 32 p.1 = some p.2 := by
  decide +kernel

/-- The integer words, majors 0x10 to 0x1A (R67, R71): words written from their fields. -/
theorem test_decode_integer_3 : ∀ p ∈ ([
    (0x1716A3A5, .cmpiNe false 5 42 0x1a5), (0x971535A5, .cmpiLt true 5 19 0x1a5),
    (0x1716A7A5, .cmpiLe false 5 42 0x1a5), (0x971539A5, .cmpiGt true 5 19 0x1a5),
    (0x1716ABA5, .cmpiGe false 5 42 0x1a5), (0x98EAB6C9, .li true 58 0x2b6c9), (0x19942CB5, .lhi false 37 0x2cb5),
    (0x9A0054ED, .bset true 5 19 45), (0x1A0450D5, .badd false 5 3 21), (0x9A0850C0, .bmov true 5 3),
    (0x1A085A81, .bmovV false 5 42), (0x9A0FA0C1, .bget true 58 3 1)] : List (Nat × Instr)), decodeTableWord 32 p.1 = some p.2 := by
  decide +kernel

/-- The float, narrow, predicate, cross-fibre and random words, majors 0x1B to 0x25 (R67, R68): words written from their fields. -/
theorem test_decode_float_1 : ∀ p ∈ ([
    (0x20025A95, .fadd false 37 42 21), (0xA007A4ED, .fsub true 58 19 45), (0x200A5A95, .fmul false 37 42 21),
    (0xA00FA4ED, .ffma true 58 19 45), (0x20125A95, .fmin false 37 42 21), (0xA017A4ED, .fmax true 58 19 45),
    (0x201A5A95, .fminn false 37 42 21), (0xA01FA4ED, .fmaxn true 58 19 45), (0x20225A80, .fabs false 37 42),
    (0xA027A4C0, .fneg true 58 19), (0x202A5A95, .fcpys false 37 42 21), (0xA02FA4C0, .frcp true 58 19),
    (0x20325A80, .frsq false 37 42), (0xA037A4C0, .fsqrt true 58 19), (0x203A5A80, .fex2 false 37 42),
    (0xA03FA4C0, .flg2 true 58 19), (0x20425A80, .fsin false 37 42), (0xA047A4C0, .fcos true 58 19),
    (0x204A5A95, .fdiv false 37 42 21), (0xA04FA4C0, .fcls true 58 19)] : List (Nat × Instr)), decodeTableWord 32 p.1 = some p.2 := by
  decide +kernel

/-- The float, narrow, predicate, cross-fibre and random words, majors 0x1B to 0x25 (R67, R68): words written from their fields. -/
theorem test_decode_float_2 : ∀ p ∈ ([
    (0x20525A80, .frnd false 37 42), (0xA057A4ED, .fdot2 true 58 19 45), (0x20805A95, .fcmpEq false 5 42 21),
    (0xA08454ED, .fcmpNe true 5 19 45), (0x20885A95, .fcmpLt false 5 42 21), (0xA08C54ED, .fcmpLe true 5 19 45),
    (0x20905A95, .fcmpGt false 5 42 21), (0xA09454ED, .fcmpGe true 5 19 45), (0x20985A95, .fcmpUn false 5 42 21),
    (0xA103A4ED, .pk true 58 19 45), (0x21065A87, .upk false 37 42 7), (0xA10BA4ED, .qnt true 58 19 45),
    (0x210E5A95, .dqn false 37 42 21), (0xA113A4ED, .dp4 true 58 19 45), (0x220050C6, .pand false 5 3 6),
    (0xA20450C6, .por true 5 3 6), (0x220850C6, .pxor false 5 3 6), (0xA20C50C0, .pnot true 5 3),
    (0x221050C0, .pmov false 5 3), (0xA21450C0, .pany true 5 3)] : List (Nat × Instr)), decodeTableWord 32 p.1 = some p.2 := by
  decide +kernel

/-- The float, narrow, predicate, cross-fibre and random words, majors 0x1B to 0x25 (R67, R68): words written from their fields. -/
theorem test_decode_float_3 : ∀ p ∈ ([
    (0x221850C0, .pall false 5 3), (0xA21FA0C0, .pcnt true 58 3), (0x222250C0, .ballot false 37 3),
    (0xA303A4ED, .shfl true 58 19 45), (0x23065A95, .shfx false 37 42 21), (0xA30BA4ED, .bcst true 58 19 45),
    (0x23225A80, .redgAdd false 37 42), (0xA327A4C0, .redgMin true 58 19), (0x232A5A80, .redgMax false 37 42),
    (0xA32FA4C0, .redgAnd true 58 19), (0x23325A80, .redgOr false 37 42), (0xA337A4C0, .redgXor true 58 19),
    (0x233A4A80, .redgArgmin false 36 42), (0xA33FA480, .redgArgmax true 58 18), (0x23425A80, .scanAdd false 37 42),
    (0xA347A4C0, .scanMin true 58 19), (0x234A5A80, .scanMax false 37 42), (0xA403A000, .rng true 58),
    (0x24040940, .rngj false 37), (0xA4080E80, .rngs true 58)] : List (Nat × Instr)), decodeTableWord 32 p.1 = some p.2 := by
  decide +kernel

/-- The float, narrow, predicate, cross-fibre and random words, majors 0x1B to 0x25 (R67, R68): words written from their fields. -/
theorem test_decode_float_4 : ∀ p ∈ ([
    (0x240E4000, .clk false 36), (0xA413A002, .gid true 58 2), (0x25940022, .rdsys false 37 34),
    (0xA603A040, .wrsys true 58 64)] : List (Nat × Instr)), decodeTableWord 32 p.1 = some p.2 := by
  decide +kernel

/-- The loads, stores, fences and atomics, majors 0x30 to 0x38 (R68, R69): words written from their fields. -/
theorem test_decode_memory_1 : ∀ p ∈ ([
    (0x3096ADA5, .ld false 37 42 6 0x1a5), (0xB1E93DA5, .st true 58 19 6 0x1a5),
    (0x3296AA53, .ldx false 37 42 0xa53), (0xB3E93A53, .stx true 58 19 0xa53), (0x3496AA53, .ldc false 37 42 0xa53),
    (0xB503A7A5, .pref true 58 3 0x1a5), (0x36025A86, .lck false 37 42 6), (0xB6040E83, .ulk true 58 3),
    (0x36200000, .fencePkg false), (0xB6240000, .fenceHost true), (0x36280000, .fenceSys false),
    (0xB7A13B7A, .aadd true 5 19 45 58), (0x37A6A565, .amin false 5 42 21 37), (0xB7A93B7A, .amax true 5 19 45 58),
    (0x37AEA565, .aand false 5 42 21 37), (0xB7B13B7A, .aor true 5 19 45 58), (0x37B6A565, .axor false 5 42 21 37),
    (0xB7B93B7A, .axch true 5 19 45 58), (0x37BEA565, .acas false 5 42 21 37), (0xB8A13B7A, .afadd true 5 19 45 58)] : List (Nat × Instr)), decodeTableWord 32 p.1 = some p.2 := by
  decide +kernel

/-- The loads, stores, fences and atomics, majors 0x30 to 0x38 (R68, R69): words written from their fields. -/
theorem test_decode_memory_2 : ∀ p ∈ ([
    (0x38A6A565, .afmin false 5 42 21 37), (0xB8A93B7A, .afmax true 5 19 45 58),
    (0x38AEA564, .aminx false 5 42 21 36), (0xB8B12B7A, .amaxx true 5 18 45 58)] : List (Nat × Instr)), decodeTableWord 32 p.1 = some p.2 := by
  decide +kernel

/-- The copies, tags, rings, barriers, handles, tensor and level words, majors 0x39 to 0x40 (R70): words written from their fields. -/
theorem test_decode_engine_1 : ∀ p ∈ ([
    (0x39005A95, .cpy false 5 42 21), (0xB904D4EC, .cpyt true 13 19 44), (0x3908DA95, .cpyg false 13 42 21),
    (0xB90CD4ED, .cpys true 13 19 45), (0x3A025A80, .waitany false 37 42), (0xBA040E80, .waitall true 58),
    (0x3A0A5A80, .tagffr false 37 42), (0xBA0C0E80, .tagclr true 58), (0x3A125A84, .taggt false 37 42 4),
    (0xBB03A4ED, .rput true 58 19 45), (0x3B065A80, .rtake false 37 42), (0xBB0BA4ED, .rpeek true 58 19 45),
    (0x3C00096A, .bar false 37 42), (0xBC040E80, .barv true 58), (0x3C08096A, .arrv false 37 42),
    (0xBD00D4C6, .hld true 13 19 6), (0x3D04DA86, .hst false 13 42 6), (0xBD08D4ED, .hset true 13 19 45),
    (0x3D0E5295, .hget false 37 10 21), (0xBD13A280, .hchk true 58 10)] : List (Nat × Instr)), decodeTableWord 32 p.1 = some p.2 := by
  decide +kernel

/-- The copies, tags, rings, barriers, handles, tensor and level words, majors 0x39 to 0x40 (R70): words written from their fields. -/
theorem test_decode_engine_2 : ∀ p ∈ ([
    (0x3E024295, .tld false 36 10 21), (0xBE07A2AD, .tst true 58 10 45), (0x3E0A5A95, .nzs false 37 42 21),
    (0xBF03A4C6, .lodld true 58 19 6), (0x3F064A86, .lodq false 36 42 6), (0xC00054EC, .nput true 5 19 44),
    (0x40045A94, .nget false 5 42 20), (0xC02054EC, .nredAdd true 5 19 44), (0x40245A94, .nredMin false 5 42 20),
    (0xC02854EC, .nredMax true 5 19 44)] : List (Nat × Instr)), decodeTableWord 32 p.1 = some p.2 := by
  decide +kernel

/-- The matrix, marcher and ray words, majors 0x48 to 0x4A (R70): words written from their fields. -/
theorem test_decode_unit_1 : ∀ p ∈ ([
    (0x48000900, .gang false 36), (0xC807A4C0, .fmtb true 58 19), (0x480A5A94, .mma false 37 42 20),
    (0xC80FA013, .aclr true 58 19), (0x48125A95, .ald false 37 42 21), (0xC817A4ED, .ast true 58 19 45),
    (0x481A5A95, .amov false 37 42 21), (0xC81FA4EC, .adrn true 58 19 44), (0x48225A95, .adexp false 37 42 21),
    (0xC827A2AD, .tdq true 58 10 45), (0x4828DA95, .tdset false 13 42 21), (0xC90054ED, .bcl true 5 19 45),
    (0x4904096A, .prn false 37 42), (0xC90BA4EC, .mrch true 58 19 44), (0x490E4A80, .mres false 36 42),
    (0xC913A4C6, .bsmp true 58 19 6), (0x4A025A86, .trace false 37 42 6), (0xCA040E93, .rast true 58 19),
    (0x4A0A5008, .hitq false 37 8), (0xCA0C0E93, .spawn true 58 19)] : List (Nat × Instr)), decodeTableWord 32 p.1 = some p.2 := by
  decide +kernel

/-- The matrix, marcher and ray words, majors 0x48 to 0x4A (R70): words written from their fields. -/
theorem test_decode_unit_2 : ∀ p ∈ ([
    (0x4A12500A, .payl false 37 10), (0xCA17A4EC, .dpt true 58 19 44)] : List (Nat × Instr)), decodeTableWord 32 p.1 = some p.2 := by
  decide +kernel

/-- Words that are refused, each with its sub-code (R65, R74). -/
theorem test_decode_refused : ∀ p ∈ ([
    (0x00000000, .illegal 0), (0xFFFFFFFF, .illegal 0), (0x70000000, .extension), (0x905FA4C1, .illegal 1),
    (0x10808000, .illegal 2), (0x090A5005, .illegal 5)] : List (Word × DecodeError)),
    (match decode p.1 with | .error e => decide (e = p.2) | .ok _ => false) = true := by decide +kernel
/-- A term for each check of `wellFormed`, which it refuses (R59, R71, R73). -/
theorem test_ill_formed : ∀ i ∈ ([
    .launch false 1 0 0, .lwait false 0 1, .xsave false 11, .xrst false 11, .gshape false 0 5, .shape false 0 0 3,
    .shape false 2 1 0, .shli false 0 0 32, .shri false 0 0 32, .bget false 0 0 2, .upk false 0 0 8,
    .redgArgmin false 1 0, .redgArgmin false 0 1, .redgArgmax false 1 0, .redgArgmax false 0 1, .rngs false 1,
    .clk false 1, .gid false 0 4, .rdsys false 0 0x00E, .wrsys false 0 0x00E, .aminx false 0 1 0 0,
    .aminx false 0 0 0 1, .amaxx false 0 1 0 0, .amaxx false 0 0 0 1, .cpyt false 0 0 1, .waitany false 0 1,
    .waitall false 1, .tagffr false 0 1, .tagclr false 1, .taggt false 0 0 5, .taggt false 0 1 0, .tld false 1 0 0,
    .tst false 1 0 0, .nzs false 0 1 0, .lodld false 1 0 0, .lodq false 1 0 0, .nput false 0 0 1, .nget false 0 0 1,
    .nredAdd false 0 0 1, .nredMin false 0 0 1, .nredMax false 0 0 1, .gang false 1, .mma false 0 1 0,
    .mma false 0 0 1, .adrn false 0 0 1, .tdq false 1 0 0, .tdset false 0 1 0, .mrch false 0 0 1, .mres false 1 0,
    .hitq false 0 9, .payl false 0 11, .dpt false 1 0 0, .dpt false 0 0 1] : List Instr), wellFormed i = false := by decide +kernel

/-! ## The manual's worked examples -/

/-- The group after an instruction. -/
def after (i : Instr) (g : Group) : Group := match exec i (at_ g) with
  | .next t => (t.group? r0).getD default
  | _ => default
/-- The group of the example of R101: v1 affine from 0x100 by 4, v5 uniform 3, v6 and v7 affine. -/
def gShape : Group := put 1 (.aff 0x100 4) (put 5 (.uni 3) (put 6 (.aff 0 0) (put 7 (.aff 0 0) (gp 2))))
/-- An affine word times a uniform one (R101). -/
theorem test_affine_mul : ((after (.mul false 6 1 5) gShape).v.getD 6 default) = .aff 0x300 12 := by decide +kernel
/-- An affine word shifted (R101). -/
theorem test_affine_shli : ((after (.shli false 6 6 2) (put 6 (.aff 0x300 12) gShape)).v.getD 6 default) = .aff 0xC00 48 := by
  decide +kernel
/-- A general result in a register tagged affine raises `shape` (R101). -/
theorem test_square_shape : (after (.mul false 7 1 1) gShape).cause = causeWord .shape 0 ∧
    (after (.mul false 7 1 1) gShape).v.getD 7 default = .aff 0 0 := by decide +kernel
/-- 130 words in use (R15). -/
theorem test_words_in_use :
    let v := (List.range 64).map fun k => if k < 4 then gen id else (if k < 10 then VVal.aff 0 0 else .uni 0)
    ({ gp 2 with v := v } : Group).wordsInUse = 130 := by decide +kernel
/-- −0.2 and 7.0 in E2M1 (R44). -/
theorem test_encode_e2m1 : (nfmtOf 0x11210).encode 0 false (fpOf 8 false 0xBE4CCCCD) = (8, flagUF ||| flagNX) ∧
    (nfmtOf 0x11210).encode 0 false (fpOf 8 false 0x40E00000) = (7, flagOF ||| flagNX ||| flagSA) := by decide +kernel
/-- −0.003 and 300.0 in a format with one NaN code and no negative zero (R44). -/
theorem test_encode_own_format : (nfmtOf 0x4B340).encode 0 false (fpOf 8 false 0xBB449BA6) = (0, flagUF ||| flagNX) ∧
    (nfmtOf 0x4B340).encode 0 false (fpOf 8 false 0x43960000) = (0x80, flagOF ||| flagNX ||| flagNV) ∧
    (nfmtOf 0x4B340).encode 0 true (fpOf 8 false 0x43960000) = (0x7F, flagOF ||| flagNX ||| flagSA) := by decide +kernel
/-- The chunk 2^24 + 1 + 1 − 2^24 added to 1.0 (R48). -/
theorem test_chunk_sum : chunkF32 0x3F800000 ([0x4B800000, 0x3F800000, 0x3F800000, 0xCB800000].map fun w =>
    (fpOf 8 false w, fpOf 8 false 0x3F800000)) = (0x40400000, 0) := by decide +kernel
/-- Four contributions of each row of the table of R57. -/
theorem test_reduction : ∀ p ∈ ([([0x3F800000, 0x7F800001, 0x7FC01234, 0xFF800000], 0x7FC00001, flagNV),
    ([0x7F800000, 0x3F800000, 0xFF800000, 0x40000000], 0x7FC00000, flagNV),
    ([0x4B800000, 0x3F800000, 0x3F800000, 0x80000000], 0x4B800000, flagNX),
    ([0x80000000, 0x80000000, 0x80000000, 0x80000000], 0x80000000, 0)] : List (List Word × Word × Word)),
    (p.1.foldl (fun (x : Partial) w => x.fold 0 8 w) ⟨0, 0, false, false, false, 0⟩).result 0 8 = p.2 := by decide +kernel
/-- The pairs of the example of R122, in the first six fibres. -/
def gPairs (live : Nat) : Group := { put 0 (gen ([0x3C00, 0x8000, 0, 0x3C00, 0x7E01, 0x7D00].getD · 0))
  (put 1 (gen ([40, 3, 9, 12, 30, 21].getD · 0)) (gp 6)) with live := .ofNat 16 live }
/-- `redg.argmax` over all six pairs and over four, and `redg.argmin` (R122). -/
theorem test_argmax : let r (i : Instr) (live : Nat) := let g := after i (gPairs live); (g.v.getD 30 default, g.v.getD 31 default, g.flags)
    r (.redgArgmax false 30 0) 63 = (.uni 0x7D00, .uni 21, flagNV) ∧ r (.redgArgmax false 30 0) 15 = (.uni 0x3C00, .uni 12, 0) ∧
    r (.redgArgmin false 30 0) 15 = (.uni 0x8000, .uni 3, 0) := by decide +kernel
/-- Logical 0x090 and 0x080 under xor-128, and both under xor-256 (R134). -/
theorem test_swizzle : swizzle 1 0x90 = 0x80 ∧ swizzle 1 0x80 = 0x90 ∧ swizzle 2 0x90 = 0x90 ∧ swizzle 2 0x80 = 0x80 := by decide
/-- `amaxx` of three fibres on one pair: the pair that stays (R144). -/
theorem test_amaxx : let g : Group := { setb 1 0x20000 (uni 10 0 (put 6 (gen ([0x3C00, 0x3C00, 0x8000].getD · 0))
      (put 7 (gen ([7, 2, 1].getD · 0)) (gp 6)))) with live := 7 }
    (match exec (.amaxx false 1 4 10 6) (poke 0x2020000 (w32 [0xFC00, 0xFFFFFFFF]) (at_ g)) with
      | .next t => t.mem.read 0x2020000 8
      | _ => []) = w32 [0x3C00, 2] := by decide +kernel
/-- The walk of the example of R346, to a host-biased page of the host. -/
theorem test_walk : let s := ctx (fun c => { c with l0 := 0x100000 }) (poke8 0x100000 [0x101001] (poke8 0x101FE0 [0x110001]
      (poke8 0x1148D0 [0x120001] (poke8 0x1202B0 [0x600000427770002F] w0))))
    (leafOf s 0x7F123456789A .read).home 0x7F123456789A = .atHost 0x427770789A ∧
    (match s.translate (s.ctxOf (s.teamOf r0)) 0x7F123456789A .write with | .ok _ => true | .error _ => false) = true := by
  decide +kernel
/-- A load from the poisoned granule of a line (R393). -/
theorem test_poisoned_load : let g := uni 30 0x44 (setb 1 0x20000 (gp 5))
    (match exec (.ld false 3 30 1 0) { at_ g with poison := [0x2020040 / 64] } with
      | .next t => (t.group? r0).map fun g => (g.cause, g.tval)
      | _ => none) = some (causeWord .poison 0, 0x20040) := by decide +kernel
/-- The end of life of die 3 (R399). -/
theorem test_end_of_life : eolOf 21000 ((412, 46, 630000) :: List.replicate 999 (410, 46, 620000) ++ [(402, 47, 600000)]) = 12333 := by
  decide +kernel

end Sys2Proof.Tests
end

