-- ==== Sys2Proof/Tests/WitnessMemory.lean ====
section
/-! SUPPORT. For each statement about memory, atomics, handles, engines, tags, rings and barriers: concrete packages and operands that meet its premises together. -/
namespace Sys2Proof.Tests
open Sys2Proof Sys2Proof.Machine
-- one proof after another: each waits for the kernel
set_option Elab.async false

/-- A group of the witness of RandomStream. -/
def g21 : Group := uni 40 63 (uni 41 64 (gp 2))
/-- The last draw, and shift amounts on both sides of 64. -/
theorem witness_RandomStream :
    2 ^ 64 - 1 < 2 ^ 64 ∧
    Turn (at_ g21) r0 g21 ∧
    g21.rank 0 = 2 ∧
    g21.reads 40 63 ∧
    g21.reads 41 64 ∧
    g21.ons ≠ [] :=
  ⟨by decide +kernel,
    turn_of (by decide +kernel),
    by decide +kernel,
    reads_of (by decide +kernel),
    reads_of (by decide +kernel),
    by decide +kernel⟩

/-- A group of the witness of IdentifiersAndSystemRegisters. -/
def p22 : Group := { gp 2 with priv := true }
/-- System registers that are private and not, writable and not, in both modes. -/
theorem witness_IdentifiersAndSystemRegisters :
    Turn (at_ (gp 2)) r0 (gp 2) ∧
    ((at_ (gp 2)).teamOf r0).lin * 1024 + r0.slot * 16 + 15 < 2 ^ 64 ∧
    (gp 2).reads 9 9 ∧
    ((gp 2).ons ≠ [] ∧
      (gp 2).priv = false ∧
      sysPrivate (0x028 : BitVec 12).toNat = true ∧
      sysPrivate (0x029 : BitVec 12).toNat = false ∧
      sysWritable false (0x010 : BitVec 12).toNat = true ∧
      sysWritable false (0x011 : BitVec 12).toNat = false ∧
      sysPrivate (0x011 : BitVec 12).toNat = false) ∧
    Turn (at_ p22) r0 p22 ∧
    p22.priv = true ∧
    p22.reads 9 9 ∧
    (p22.ons ≠ [] ∧
      sysWritable p22.priv (0x011 : BitVec 12).toNat = true ∧
      sysWritable p22.priv (0x023 : BitVec 12).toNat = true ∧
      1 ≤ (gp 2).rank 0) :=
  ⟨turn_of (by decide +kernel),
    by decide +kernel,
    reads_of (by decide +kernel),
    by decide +kernel,
    turn_of (by decide +kernel),
    by decide +kernel,
    reads_of (by decide +kernel),
    by decide +kernel⟩

/-- A group of the witness of WaitingForAGrid. -/
def g23 : Group := uni 40 1 (uni 41 0 (gp 2))
/-- A package of the witness of WaitingForAGrid. -/
def w23 : State := at_ { g23 with awaited := 1 }
/-- A token of a grid that runs, one that was lost, one that has retired, one of no grid, and a result outstanding. -/
theorem witness_WaitingForAGrid :
    Turn w23 r0 { g23 with awaited := 1 } ∧
    ({ g23 with awaited := 1 }.ons ≠ [] ∧
      0 < { g23 with awaited := 1 }.awaited) ∧
    Turn (at_ g23) r0 g23 ∧
    (g23.ons ≠ [] ∧
      g23.awaited = 0) ∧
    g23.settle.reads2 40 1 ∧
    ((1 : DWord).toNat / 2 ^ 32 = ((at_ g23).teamOf r0).ctx ∧
      ((((at_ g23)).grid? 0 1).map fun x => (x.lost, x.retired)) = some (false, false) ∧
      ((({ at_ g23 with grids := (at_ g23).grids.map fun (x : Grid) => { x with lost := true, retired := false } } :
        State).grid? 0 1).map fun x => (x.lost, x.retired)) = some (true, false) ∧
      ((({ at_ g23 with grids := (at_ g23).grids.map fun (x : Grid) => { x with lost := false, retired := true } } :
        State).grid? 0 1).map fun x => (x.lost, x.retired)) = some (false, true)) ∧
    Turn (at_ (gp 2)) r0 (gp 2) ∧
    (gp 2).settle.reads2 9 (10 * 2 ^ 32 + 9) ∧
    (10 * 2 ^ 32 + 9 : DWord).toNat / 2 ^ 32 ≠ ((at_ (gp 2)).teamOf r0).ctx :=
  ⟨turn_of (by decide +kernel),
    by decide +kernel,
    turn_of (by decide +kernel),
    by decide +kernel,
    reads2_of (by decide +kernel),
    by decide +kernel,
    turn_of (by decide +kernel),
    reads2_of (by decide +kernel),
    by decide +kernel⟩

/-- A group of the witness of LoadsReturnTheirElements. -/
def g24 : Group := setb 2 0x20000 (put 1 (gen fun f => 4 * f) (gp 8))
/-- A group of the witness of LoadsReturnTheirElements. -/
def z24 : Group := { gp 2 with md := 0x00820007, p := 0xFFFF :: List.replicate 7 0 }
/-- A package of the witness of LoadsReturnTheirElements. -/
def s24 : State := ctx (fun c => { c with const := 0x20000, constSz := 64 }) (at_ g24)
/-- Sixteen words below b2, in the window and in the constant window, whose last word is its last; and no fibre on. -/
theorem witness_LoadsReturnTheirElements :
    Turn s24 r0 g24 ∧
    (g24.role = .vector ∧
      isReservedType g24.type = false ∧
      isNarrowType g24.type = false ∧
      g24.pend < 16) ∧
    Quiet s24 r0 g24 ∧
    (g24.fwdOpen = [] ∧
      (if g24.rank 1 = 0 then 0 else 2) ≤ g24.rank 0 ∧
      g24.ons ≠ [] ∧
      g24.swz ≠ 3) ∧
    (∀ f ∈ g24.ons, Reaches s24 r0 .read 4 (g24.breg 2 + (g24.rd 1 f).signExtend 64 + .ofInt 64 ((0x100 : BitVec
      9).toInt * 4)) (.dev (0x201FC00 + 4 * f))) ∧
    (∀ f ∈ g24.ons, s24.poisonedAt (.dev (0x201FC00 + 4 * f)) 4 = false) ∧
    (∀ f ∈ g24.ons, InWindow s24 r0 g24.swz 4 4 (g24.rd 1 f + .ofInt 32 ((0 : BitVec 12).toInt * 4)) 0) ∧
    (∀ f ∈ g24.ons, (g24.rd 1 f).toNat % 4 = 0 ∧ (g24.rd 1 f).toNat + 4 ≤ (s24.ctxOf (s24.teamOf r0)).constSz ∧
      (g24.rd 1 f).toNat / 16 ∉ ((s24.grid? (s24.teamOf r0).ctx (s24.teamOf r0).serial).getD
      default).constBad.map (·.1)) ∧
    Turn (at_ z24) r0 z24 ∧
    z24.ons = [] :=
  ⟨turn_of (by decide +kernel),
    by decide +kernel,
    quiet_of (by decide +kernel),
    by decide +kernel,
    reachable_of (by decide +kernel),
    by decide +kernel,
    windows_of (by decide +kernel),
    by decide +kernel,
    turn_of (by decide +kernel),
    by decide +kernel⟩

/-- A group of the witness of StoresWriteTheirElements. -/
def g25 : Group := setb 2 0x20000 (put 1 (gen fun f => 4 * f) (gp 8))
/-- Sixteen words apart, in memory and in the window. -/
theorem witness_StoresWriteTheirElements :
    Turn (at_ g25) r0 g25 ∧
    (g25.role = .vector ∧
      isReservedType g25.type = false ∧
      isNarrowType g25.type = false) ∧
    Quiet (at_ g25) r0 g25 ∧
    Unarmed (at_ g25) r0 ∧
    (g25.fwdOpen = [] ∧
      g25.swz ≠ 3) ∧
    (∀ f ∈ (g25.ons.filter fun f => !g25.isHelper f), Reaches (at_ g25) r0 .write 4 (g25.breg 2 + (g25.rd 1
      f).signExtend 64 + .ofInt 64 ((0x100 : BitVec 9).toInt * 4)) (.dev (0x201FC00 + 4 * f))) ∧
    ((∀ f ∈ (g25.ons.filter fun f => !g25.isHelper f), (at_ g25).poisonedAt (.dev (0x201FC00 + 4 * f)) 4 = false ∧
        (at_ g25).inUse (.dev (0x201FC00 + 4 * f)) 4 = false) ∧
      ((at_ g25).mem.wf = true ∧ (at_ g25).hostMem.wf = true) ∧
      (∀ e ∈ g25.ons, ∀ f ∈ g25.ons, e ≠ f → 0x201FC00 + 4 * e + 4 ≤ 0x201FC00 + 4 * f ∨ 0x201FC00 + 4 * f + 4 ≤
        0x201FC00 + 4 * e)) ∧
    (∀ f ∈ (g25.ons.filter fun f => !g25.isHelper f), InWindow (at_ g25) r0 g25.swz 4 4 (g25.rd 1 f + .ofInt 32 ((0 :
      BitVec 12).toInt * 4)) 0) :=
  ⟨turn_of (by decide +kernel),
    by decide +kernel,
    quiet_of (by decide +kernel),
    unarmed_of (by decide +kernel),
    by decide +kernel,
    reachable_of (by decide +kernel),
    by decide +kernel,
    windows_of (by decide +kernel)⟩

/-- A group of the witness of AccessesTrapBeforeTheyAct. -/
def g26 : Group :=
  setb 3 0x10000000 (setb 4 0xC000000 (setb 5 0xA000000 (setb 2 0x80000000000000 (uni 9 0 (uni 10 2 (gp 8))))))
/-- A group of the witness of AccessesTrapBeforeTheyAct. -/
def q26 : Group := { gp 8 with pend := 16 }
/-- A package of the witness of AccessesTrapBeforeTheyAct. -/
def s26 : State := paged (at_ g26)
/-- b2 is not canonical, v10 is misaligned, b3 names no page, b4 a page not readable and b5 one not writable; a destination too narrow; sixteen results pending. -/
theorem witness_AccessesTrapBeforeTheyAct :
    Turn s26 r0 g26 ∧
    (g26.role = .vector ∧
      isReservedType g26.type = false ∧
      isNarrowType g26.type = false ∧
      g26.priv = false ∧
      g26.pend < 16 ∧
      (if g26.rank 9 = 0 then 0 else 2) ≤ g26.rank 0 ∧
      g26.ons.take 1 = [0] ∧
      canonical (g26.breg 2 + (g26.rd 9 0).signExtend 64 + .ofInt 64 ((0 : BitVec 9).toInt * 4)) = false ∧
      canonical (g26.breg 3 + (g26.rd 10 0).signExtend 64 + .ofInt 64 ((0 : BitVec 9).toInt * 4)) = true ∧
      (g26.breg 3 + (g26.rd 10 0).signExtend 64 + .ofInt 64 ((0 : BitVec 9).toInt * 4)).toNat % 4 ≠ 0 ∧
      canonical (g26.breg 3 + (g26.rd 9 0).signExtend 64 + .ofInt 64 ((0 : BitVec 9).toInt * 4)) = true ∧
      (g26.breg 3 + (g26.rd 9 0).signExtend 64 + .ofInt 64 ((0 : BitVec 9).toInt * 4)).toNat % 4 = 0) ∧
    s26.translate (s26.ctxOf (s26.teamOf r0)) (g26.breg 3 + (g26.rd 9 0).signExtend 64 + .ofInt 64 ((0 : BitVec
      9).toInt * 4)) .read = .error .page ∧
    s26.translate (s26.ctxOf (s26.teamOf r0)) (g26.breg 3 + (g26.rd 9 0).signExtend 64 + .ofInt 64 ((0 : BitVec
      9).toInt * 4)) .write = .error .page ∧
    s26.translate (s26.ctxOf (s26.teamOf r0)) (g26.breg 4 + (g26.rd 9 0).signExtend 64 + .ofInt 64 ((0 : BitVec
      9).toInt * 4)) .read ≠ .error .page ∧
    s26.translate (s26.ctxOf (s26.teamOf r0)) (g26.breg 4 + (g26.rd 9 0).signExtend 64 + .ofInt 64 ((0 : BitVec
      9).toInt * 4)) .read = .error (.protection 24) ∧
    s26.translate (s26.ctxOf (s26.teamOf r0)) (g26.breg 5 + (g26.rd 9 0).signExtend 64 + .ofInt 64 ((0 : BitVec
      9).toInt * 4)) .write ≠ .error .page ∧
    s26.translate (s26.ctxOf (s26.teamOf r0)) (g26.breg 5 + (g26.rd 9 0).signExtend 64 + .ofInt 64 ((0 : BitVec
      9).toInt * 4)) .write = .error (.protection 24) ∧
    g26.rank 9 < (if g26.rank 1 = 0 then 0 else 2) ∧
    Turn (at_ q26) r0 q26 ∧
    16 ≤ q26.pend :=
  ⟨turn_of (by decide +kernel),
    by decide +kernel,
    error_of (by decide +kernel),
    error_of (by decide +kernel),
    notPage_of (by decide +kernel),
    error_of (by decide +kernel),
    notPage_of (by decide +kernel),
    error_of (by decide +kernel),
    by decide +kernel,
    turn_of (by decide +kernel),
    by decide +kernel⟩

/-- A group of the witness of PoisonStopsReadsAndPartialStores. -/
def g27 : Group := setb 2 0x20000 (uni 9 0 (one 3 (gp 8)))
/-- A package of the witness of PoisonStopsReadsAndPartialStores. -/
def s27 : State := { at_ g27 with poison := [0x2020000 / 64] }
/-- A fibre whose word is poisoned. -/
theorem witness_PoisonStopsReadsAndPartialStores :
    Turn s27 r0 g27 ∧
    (g27.role = .vector ∧
      isReservedType g27.type = false ∧
      isNarrowType g27.type = false ∧
      g27.pend < 16 ∧
      g27.fwdOpen = [] ∧
      g27.ons = [3] ∧
      g27.isHelper 3 = false ∧
      g27.priv = false ∧
      (if g27.rank 9 = 0 then 0 else 2) ≤ g27.rank 0 ∧
      s27.poisonedAt (.dev 0x2020000) 4 = true) ∧
    Reaches s27 r0 .read 4 (g27.breg 2 + (g27.rd 9 3).signExtend 64 + .ofInt 64 ((0 : BitVec 9).toInt * 4)) (.dev
      0x2020000) ∧
    Reaches s27 r0 .write 4 (g27.breg 2 + (g27.rd 9 3).signExtend 64 + .ofInt 64 ((0 : BitVec 9).toInt * 4)) (.dev
      0x2020000) :=
  ⟨turn_of (by decide +kernel),
    by decide +kernel,
    reaches_of (by decide +kernel),
    reaches_of (by decide +kernel)⟩

/-- A group of the witness of ForwardedAccessWaitsForItsOwner. -/
def gh28 : Group := setb 2 0x4000000 (put 1 (gen fun _ => 4) (one 3 (gp 8)))
/-- A group of the witness of ForwardedAccessWaitsForItsOwner. -/
def gp28 : Group := setb 2 0x6000000 (put 1 (gen fun _ => 4) (one 3 (gp 8)))
/-- A package of the witness of ForwardedAccessWaitsForItsOwner. -/
def th28 : State :=
  { paged (at_ (setb 2 0x4000000 (put 1 (gen fun _ => 4) (one 3 (gp 8))))) with requests := [⟨1, 0, .host, .op 7 0, 0x4000000, none⟩], away := [⟨.op 7 0, 0, 0x4000000, (leafOf (paged (at_ (setb 2 0x4000000 (put 1 (gen fun _ => 4) (one 3 (gp 8)))))) 0x4000004 .read).line 0x4000004, true⟩] }
/-- A package of the witness of ForwardedAccessWaitsForItsOwner. -/
def sh28 : State := paged (at_ (setb 2 0x4000000 (put 1 (gen fun _ => 4) (one 3 (gp 8)))))
/-- A package of the witness of ForwardedAccessWaitsForItsOwner. -/
def sp28 : State := paged (at_ (setb 2 0x6000000 (put 1 (gen fun _ => 4) (one 3 (gp 8)))))
/-- A page with host bias and one of another package, before the reply and after it; and with its line in the hands of an operation that writes. -/
theorem witness_ForwardedAccessWaitsForItsOwner :
    Turn sh28 r0 gh28 ∧
    (canonical (0x4000004 : DWord) = true ∧
      (0x4000004 : DWord).toNat % 4 = 0) ∧
    sh28.translate (sh28.ctxOf (sh28.teamOf r0)) 0x4000004 .read = .ok (leafOf sh28 0x4000004 .read) ∧
    (sh28.frozen 0 ((leafOf sh28 0x4000004 .read).page 0x4000004) = false ∧
      gh28.role = .vector ∧
      gh28.pend < 16) ∧
    Quiet sh28 r0 gh28 ∧
    (gh28.fwdOpen = [] ∧
      isReservedType gh28.type = false ∧
      isNarrowType gh28.type = false ∧
      gh28.ons = [3] ∧
      gh28.rank 0 = 2 ∧
      gh28.rank 1 = 2 ∧
      gh28.breg 2 + (gh28.rd 1 3).signExtend 64 + .ofInt 64 ((0 : BitVec 9).toInt * 4) = 0x4000004 ∧
      gh28.fwd = [] ∧
      sh28.taken (.group r0 (readIdx 0)) ((leafOf sh28 0x4000004 .read).line 0x4000004) false = false ∧
      th28.taken (.group r0 (readIdx 0)) ((leafOf th28 0x4000004 .read).line 0x4000004) false = true) ∧
    Turn th28 r0 gh28 ∧
    th28.translate (th28.ctxOf (th28.teamOf r0)) 0x4000004 .read = .ok (leafOf th28 0x4000004 .read) ∧
    ((leafOf th28 0x4000004 .read).home 0x4000004 = .atHost 0x6000004 ∧
      (th28.conn .host).down = false ∧
      (leafOf sh28 0x4000004 .read).home 0x4000004 = .atHost 0x6000004 ∧
      (sh28.conn .host).down = false) ∧
    Turn sp28 r0 gp28 ∧
    (canonical (0x6000004 : DWord) = true ∧
      (0x6000004 : DWord).toNat % 4 = 0) ∧
    sp28.translate (sp28.ctxOf (sp28.teamOf r0)) 0x6000004 .read = .ok (leafOf sp28 0x6000004 .read) ∧
    (sp28.frozen 0 ((leafOf sp28 0x6000004 .read).page 0x6000004) = false ∧
      gp28.ons = [3] ∧
      gp28.fwd = [] ∧
      sp28.taken (.group r0 (readIdx 0)) ((leafOf sp28 0x6000004 .read).line 0x6000004) false = false ∧
      (leafOf sp28 0x6000004 .read).home 0x6000004 = .atPeer 5 ∧
      sp28.reachable (sp28.ctxOf (sp28.teamOf r0)) 5 = true ∧
      gp28.breg 2 + (gp28.rd 1 3).signExtend 64 + .ofInt 64 ((0 : BitVec 9).toInt * 4) = 0x6000004) ∧
    Turn (paged (at_ { gh28 with fwd := [⟨0, 0, List.replicate 128 7⟩] })) r0
      { gh28 with fwd := [⟨0, 0, List.replicate 128 7⟩] } ∧
    (List.replicate 128 (7 : Byte)).length = 128 ∧
    Turn (paged (at_ { gp28 with fwd := [⟨0, 0, List.replicate 4 7⟩] })) r0
      { gp28 with fwd := [⟨0, 0, List.replicate 4 7⟩] } ∧
    (List.replicate 4 (7 : Byte)).length = memSize gp28.type :=
  ⟨turn_of (by decide +kernel),
    by decide +kernel,
    ok_of (by decide +kernel),
    by decide +kernel,
    quiet_of (by decide +kernel),
    by decide +kernel,
    turn_of (by decide +kernel),
    ok_of (by decide +kernel),
    by decide +kernel,
    turn_of (by decide +kernel),
    by decide +kernel,
    ok_of (by decide +kernel),
    by decide +kernel,
    turn_of (by decide +kernel),
    by decide +kernel,
    turn_of (by decide +kernel),
    by decide +kernel⟩

/-- A group of the witness of PrefetchFencesAndPins. -/
def g29 : Group := setb 2 0x20000 (put 1 (gen fun f => if f = 0 then 0 else 0x1FE0000) { gp 2 with live := 3 })
/-- A package of the witness of PrefetchFencesAndPins. -/
def s29 : State := paged (at_ g29)
/-- Two fibres whose lines are in device memory and on a host page. -/
theorem witness_PrefetchFencesAndPins :
    Turn s29 r0 g29 ∧
    (g29.role = .vector ∧
      g29.pend < 16 ∧
      g29.rank 0 = 2 ∧
      g29.ons ≠ []) ∧
    (∀ f ∈ g29.ons, canonical (g29.breg 2 + (g29.rd 1 f).signExtend 64) = true ∧ s29.translate (s29.ctxOf (s29.teamOf
      r0)) (g29.breg 2 + (g29.rd 1 f).signExtend 64) .read = .ok (leafOf s29 (g29.breg 2 + (g29.rd 1
      f).signExtend 64) .read) ∧ s29.frozen (s29.ctxOf (s29.teamOf r0)).num ((leafOf s29 (g29.breg 2 + (g29.rd
      1 f).signExtend 64) .read).page (g29.breg 2 + (g29.rd 1 f).signExtend 64)) = false ∧ ∀ x, (leafOf s29
      (g29.breg 2 + (g29.rd 1 f).signExtend 64) .read).home (g29.breg 2 + (g29.rd 1 f).signExtend 64) = .here
      x → s29.poisonedAt x 1 = false) :=
  ⟨turn_of (by decide +kernel),
    by decide +kernel,
    all_of (fun f => heldB s29 (g29.breg 2 + (g29.rd 1 f).signExtend 64) (leafOf s29 (g29.breg 2 + (g29.rd 1
      f).signExtend 64) .read)) (fun f h => held_of h) (by decide +kernel)⟩

/-- A group of the witness of WordAtomics. -/
def g30 : Group := setb 2 0x20000 (put 1 (gen fun f => 4 * f) (gp 2))
/-- A group of the witness of WordAtomics. -/
def z30 : Group := { gp 2 with md := 0x00820007, p := 0xFFFF :: List.replicate 7 0 }
/-- Sixteen words of each kind of type; no fibre on; a type of neither list. -/
theorem witness_WordAtomics :
    Turn (at_ g30) r0 g30 ∧
    (g30.role = .vector ∧
      g30.pend < 16 ∧
      g30.rank 0 = 2) ∧
    Unlisted (at_ g30) r0 g30 ∧
    Unarmed (at_ g30) r0 ∧
    (g30.fwdOpen = [] ∧
      (g30.ons.filter fun f => !g30.isHelper f) ≠ []) ∧
    (∀ f ∈ (g30.ons.filter fun f => !g30.isHelper f), Reaches (at_ g30) r0 .rmw 4 (g30.breg 2 + (g30.rd 1
      f).signExtend 64) (.dev (0x2020000 + 4 * f))) ∧
    ((∀ f ∈ (g30.ons.filter fun f => !g30.isHelper f), (at_ g30).poisonedAt (.dev (0x2020000 + 4 * f)) 4 = false ∧
        (at_ g30).inUse (.dev (0x2020000 + 4 * f)) 4 = false) ∧
      (g30.type = 2 ∨ g30.type = 5) ∧
      (g30.type = 2 ∨ g30.type = 5 ∨ g30.type = 8 ∨ g30.type = 9)) ∧
    Turn (at_ z30) r0 z30 ∧
    (z30.ons.filter fun f => !z30.isHelper f) = [] ∧
    Turn (at_ (gp 6)) r0 (gp 6) ∧
    ((gp 6).priv = false ∧
      isReservedType (gp 6).type = false ∧
      ((gp 6).type ≠ 2 ∧ (gp 6).type ≠ 5 ∧ (gp 6).type ≠ 8 ∧ (gp 6).type ≠ 9)) :=
  ⟨turn_of (by decide +kernel),
    by decide +kernel,
    unlisted_of (by decide +kernel),
    unarmed_of (by decide +kernel),
    by decide +kernel,
    reachable_of (by decide +kernel),
    by decide +kernel,
    turn_of (by decide +kernel),
    by decide +kernel,
    turn_of (by decide +kernel),
    by decide +kernel⟩

/-- A group of the witness of FloatAndPairAtomics. -/
def g31 : Group := setb 2 0x20000 (put 1 (gen fun f => 8 * f) (gp 8))
/-- A group of the witness of FloatAndPairAtomics. -/
def q31 : Group := setb 2 0x20000 (put 1 (gen fun f => 4 * f) (gp 8))
/-- A group of the witness of FloatAndPairAtomics. -/
def z31 : Group := { gp 2 with md := 0x00820007, p := 0xFFFF :: List.replicate 7 0 }
/-- Sixteen words of f32 and sixteen pairs; no fibre on. -/
theorem witness_FloatAndPairAtomics :
    Turn (at_ g31) r0 g31 ∧
    (g31.role = .vector ∧
      g31.pend < 16 ∧
      g31.rank 0 = 2 ∧
      g31.rank (nextReg 0) = 2) ∧
    Unlisted (at_ g31) r0 g31 ∧
    Unarmed (at_ g31) r0 ∧
    (g31.fwdOpen = [] ∧
      (g31.ons.filter fun f => !g31.isHelper f) ≠ []) ∧
    (∀ f ∈ (g31.ons.filter fun f => !g31.isHelper f), Reaches (at_ g31) r0 .rmw 8 (g31.breg 2 + (g31.rd 1
      f).signExtend 64) (.dev (0x2020000 + 8 * f))) ∧
    ((∀ f ∈ (g31.ons.filter fun f => !g31.isHelper f), (at_ g31).poisonedAt (.dev (0x2020000 + 8 * f)) 8 = false ∧
        (at_ g31).inUse (.dev (0x2020000 + 8 * f)) 8 = false) ∧
      g31.type = 8 ∧
      g31.rnd < 5 ∧
      g31.type ∈ [2, 5, 8, 6, 7]) ∧
    Turn (at_ q31) r0 q31 ∧
    Unarmed (at_ q31) r0 ∧
    (∀ f ∈ (q31.ons.filter fun f => !q31.isHelper f), Reaches (at_ q31) r0 .rmw 4 (q31.breg 2 + (q31.rd 1
      f).signExtend 64) (.dev (0x2020000 + 4 * f))) ∧
    (∀ f ∈ (q31.ons.filter fun f => !q31.isHelper f), (at_ q31).poisonedAt (.dev (0x2020000 + 4 * f)) 4 = false ∧
      (at_ q31).inUse (.dev (0x2020000 + 4 * f)) 4 = false) ∧
    Turn (at_ z31) r0 z31 ∧
    (z31.ons.filter fun f => !z31.isHelper f) = [] :=
  ⟨turn_of (by decide +kernel),
    by decide +kernel,
    unlisted_of (by decide +kernel),
    unarmed_of (by decide +kernel),
    by decide +kernel,
    reachable_of (by decide +kernel),
    by decide +kernel,
    turn_of (by decide +kernel),
    unarmed_of (by decide +kernel),
    reachable_of (by decide +kernel),
    by decide +kernel,
    turn_of (by decide +kernel),
    by decide +kernel⟩

/-- A group of the witness of HandleRegisters. -/
def g32 : Group := setb 2 0x20000 (uni 40 15 (uni 41 16 (uni 42 64 (gp 2))))
/-- The last word of a handle, the number after it, and an image at b2 + 64. -/
theorem witness_HandleRegisters :
    Turn (at_ g32) r0 g32 ∧
    g32.ons ≠ [] ∧
    g32.reads 40 15 ∧
    g32.reads 41 16 ∧
    g32.reads 42 64 ∧
    ((15 : Word).toNat < 16 ∧
      16 ≤ (16 : Word).toNat ∧
      g32.priv = false ∧
      g32.pend < 16 ∧
      g32.someActs = true) ∧
    Quiet (at_ g32) r0 g32 ∧
    Unarmed (at_ g32) r0 ∧
    g32.fwdOpen = [] ∧
    Reaches (at_ g32) r0 .read 64 (g32.breg 2 + (64 : Word).signExtend 64) (.dev 0x2020040) ∧
    Reaches (at_ g32) r0 .write 64 (g32.breg 2 + (64 : Word).signExtend 64) (.dev 0x2020040) ∧
    ((at_ g32).poisonedAt (.dev 0x2020040) 64 = false ∧
      (at_ g32).inUse (.dev 0x2020040) 64 = false) :=
  ⟨turn_of (by decide +kernel),
    by decide +kernel,
    reads_of (by decide +kernel),
    reads_of (by decide +kernel),
    reads_of (by decide +kernel),
    by decide +kernel,
    quiet_of (by decide +kernel),
    unarmed_of (by decide +kernel),
    by decide +kernel,
    reaches_of (by decide +kernel),
    reaches_of (by decide +kernel),
    by decide +kernel⟩

/-- A group of the witness of TensorElements. -/
def g33 : Group :=
  seth 1 (mkH 0x20000 1 2 8 false false [16, 16, 1, 1, 1] [4] 0) (seth 2 (mkH 0x100 1 2 8 true false [16, 16, 1, 1, 1] [4] 0) (seth 3 (mkH 0x100 4 2 8 true false [4, 4, 4, 1, 1] [0x11110202, 0x101, 0x20002, 64] 0) ({ gp 8 with live := 3 })))
/-- Element (10, 11) of an array of f32 with rows of 64 bytes, in memory and in the window, named by two fibres; a compressed tensor. -/
theorem witness_TensorElements :
    Turn (at_ g33) r0 g33 ∧
    g33.role = .vector ∧
    Quiet (at_ g33) r0 g33 ∧
    Unarmed (at_ g33) r0 ∧
    (g33.fwdOpen = [] ∧
      g33.pend < 16 ∧
      g33.rank 0 = 2 ∧
      g33.rank (nextReg 0) = 2 ∧
      (g33.ons = [0, 1] ∧ (g33.ons.filter fun f => !g33.isHelper f) = [0, 1]) ∧
      g33.priv = false ∧
      g33.swz ≠ 3 ∧
      ((List.range 2).map (fun k => (g33.v.getD (10 + k) default).at 0) = [10, 11] ∧ (List.range 2).map (fun k =>
        (g33.v.getD (10 + k) default).at 1) = [10, 11]) ∧
      (handleOf (g33.hreg 1)).check = 0 ∧
      10 + (handleOf (g33.hreg 1)).rank ≤ 64) ∧
    (∃ log, ((handleOf (g33.hreg 1)).spot ((at_ g33).viewOf r0 g33) [10, 11]).run = .ok (.at 5952, log)) ∧
    ((handleOf (g33.hreg 2)).check = 0 ∧
      10 + (handleOf (g33.hreg 2)).rank ≤ 64) ∧
    (∃ log, ((handleOf (g33.hreg 2)).spot ((at_ g33).viewOf r0 g33) [10, 11]).run = .ok (.at 5952, log)) ∧
    Reaches (at_ g33) r0 .read 1 0x202e8 (.dev 0x20202e8)  ∧
    Reaches (at_ g33) r0 .write 1 0x202e8 (.dev 0x20202e8)  ∧
    ((at_ g33).poisonedAt (.dev 0x20202e8) 4 = false ∧
      (at_ g33).inUse (.dev 0x20202e8) 4 = false) ∧
    InWindow (at_ g33) r0 g33.swz 1 4 0x3e8 0 ∧
    (((handleOf (g33.hreg 2)).base + .ofNat 64 (744)).toNat < 2 ^ 19 ∧
      (handleOf (g33.hreg 1)).type ≠ 4 ∧
      ((at_ g33).mem.wf = true ∧ (at_ g33).hostMem.wf = true ∧ (((at_ g33).team? 0).getD default).scr.wf = true) ∧
      (handleOf (g33.hreg 3)).check = 0 ∧
      (handleOf (g33.hreg 3)).type = 4) :=
  ⟨turn_of (by decide +kernel),
    by decide +kernel,
    quiet_of (by decide +kernel),
    unarmed_of (by decide +kernel),
    by decide +kernel,
    spot_of (by decide +kernel),
    by decide +kernel,
    spot_of (by decide +kernel),
    reaches_of (by decide +kernel),
    reaches_of (by decide +kernel),
    by decide +kernel,
    inWindow_of (by decide +kernel),
    by decide +kernel⟩

/-- A group of the witness of NonZeroScan. -/
def g34 : Group := uni 40 0x100 (uni 41 1 (uni 42 65537 (uni 43 0x2000 (uni 44 0 (gp 2)))))
/-- One element and none; the list is written at 0x2000. -/
theorem witness_NonZeroScan :
    Turn (at_ g34) r0 g34 ∧
    (g34.role = .vector ∧
      isReservedType g34.type = false ∧
      isNarrowType g34.type = false ∧
      g34.pend < 16) ∧
    Quiet (at_ g34) r0 g34 ∧
    (g34.someActs = true ∧
      g34.swz ≠ 3) ∧
    g34.reads 40 0x100 ∧
    g34.reads (nextReg 40) 1 ∧
    g34.reads 43 0x2000 ∧
    InWindow (at_ g34) r0 g34.swz 1 (1 * memSize g34.type) 0x100 0 ∧
    InWindow (at_ g34) r0 g34.swz 4 0 0x2000 0 ∧
    InWindow (at_ g34) r0 g34.swz 4 (4 * 16) 0x2000 0 ∧
    g34.priv = false ∧
    g34.reads 43 0x2000 ∧
    g34.reads (nextReg 43) 0 ∧
    ((0 : Word).toNat = 0 ∨ 65536 < (0 : Word).toNat) ∧
    InWindow (at_ g34) r0 g34.swz 1 (0 * memSize g34.type) 0x2000 0 :=
  ⟨turn_of (by decide +kernel),
    by decide +kernel,
    quiet_of (by decide +kernel),
    by decide +kernel,
    reads_of (by decide +kernel),
    reads_of (by decide +kernel),
    reads_of (by decide +kernel),
    inWindow_of (by decide +kernel),
    inWindow_of (by decide +kernel),
    inWindow_of (by decide +kernel),
    by decide +kernel,
    reads_of (by decide +kernel),
    reads_of (by decide +kernel),
    by decide +kernel,
    inWindow_of (by decide +kernel)⟩

/-- A group of the witness of EngineOperationsStart. -/
def u35 : Group :=
  uni 60 0x100080 (setb 2 0x20000 (uni 44 16 (uni 45 256 (uni 46 16 (uni 47 98304 (uni 60 0x80 (uni 61 0 ({ gp 8 with role := .copy }))))))))
/-- A group of the witness of EngineOperationsStart. -/
def v35 : Group :=
  uni 61 0x100080 (seth 1 (mkH 0x20000 1 2 8 false false [16, 16, 1, 1, 1] [4] 0) (uni 40 0 (uni 41 0 (uni 42 0 (uni 43 0 (uni 44 0 (uni 45 1048592 (uni 46 65537 (uni 47 1 (uni 60 0x100 (uni 61 0x80 ({ gp 8 with role := .copy }))))))))))))
/-- A group of the witness of EngineOperationsStart. -/
def w35 : Group :=
  uni 60 0x100080 (seth 1 (mkH 0x20000 1 2 8 false false [16, 16, 1, 1, 1] [4] 0) (uni 44 0 (uni 45 1 (uni 46 256 (uni 47 64 (uni 60 0x80 (uni 61 0 ({ gp 8 with role := .copy }))))))))
/-- A group of the witness of EngineOperationsStart. -/
def c35 : Group :=
  setb 2 0x20000 (uni 44 16 (uni 45 256 (uni 46 16 (uni 47 98304 (uni 60 0x80 (uni 61 0 ({ gp 8 with role := .copy })))))))
/-- A group of the witness of EngineOperationsStart. -/
def t35 : Group :=
  seth 1 (mkH 0x20000 1 2 8 false false [16, 16, 1, 1, 1] [4] 0) (uni 40 0 (uni 41 0 (uni 42 0 (uni 43 0 (uni 44 0 (uni 45 1048592 (uni 46 65537 (uni 47 1 (uni 60 0x100 (uni 61 0x80 ({ gp 8 with role := .copy })))))))))))
/-- A group of the witness of EngineOperationsStart. -/
def r35 : Group :=
  seth 1 (mkH 0x20000 1 2 8 false false [16, 16, 1, 1, 1] [4] 0) (uni 44 0 (uni 45 1 (uni 46 256 (uni 47 64 (uni 60 0x80 (uni 61 0 ({ gp 8 with role := .copy })))))))
/-- A group of the witness of EngineOperationsStart. -/
def x35 : Group :=
  setb 2 0x20000 (uni 44 16 (uni 45 16 (uni 46 0 (uni 47 16 (uni 60 0x80 (uni 61 0x2000005 (gp 8)))))))
/-- A copy of one row, a box of a whole array, one row gathered and scattered, and transfers to package 5, each under tag 0; and the tag pending, and a ring with no empty slot. -/
theorem witness_EngineOperationsStart :
    Turn (at_ c35) r0 c35 ∧
    c35.reads 60 0x80 ∧
    c35.reads (regAt 44 0) 16 ∧
    c35.reads (regAt 44 1) 256 ∧
    c35.reads (regAt 44 2) 16 ∧
    c35.reads (regAt 44 3) 98304 ∧
    (c35.role = .copy ∧
      c35.converged = true ∧
      (44 : VReg).val % 4 = 0 ∧
      c35.swz ≠ 3 ∧
      canonical (c35.breg 2 + (16 : Word).signExtend 64) = true ∧
      (c35.breg 2 + (16 : Word).signExtend 64).toNat % 16 = 0) ∧
    InRange (at_ c35) r0 16 16 0x100 0 ∧
    Accepts (at_ c35) r0 0x80 true true (.cpy (c35.breg 2 + 16) 0x100 16 1 0x8000 c35.swz (completionOf 0x80).out) ∧
    Turn (at_ t35) r0 t35 ∧
    t35.reads 60 0x100 ∧
    t35.reads (nextReg 60) 0x80 ∧
    t35.reads (regAt 40 0) 0 ∧
    t35.reads (regAt 40 1) 0 ∧
    t35.reads (regAt 40 2) 0 ∧
    t35.reads (regAt 40 3) 0 ∧
    t35.reads (regAt 40 4) 0 ∧
    t35.reads (regAt 40 5) 1048592 ∧
    t35.reads (regAt 40 6) 65537 ∧
    t35.reads (regAt 40 7) 1 ∧
    (t35.role = .copy ∧
      t35.converged = true ∧
      ((handleOf (t35.hreg 1)).check = 0 ∧ (handleOf (t35.hreg 1)).scr = false ∧ (handleOf (t35.hreg 1)).type = 1) ∧
      (40 : VReg).val % 8 = 0 ∧
      boxBytes (handleOf (t35.hreg 1)).bits [16, 16, 1, 1, 1] ≤ 524288) ∧
    InRange (at_ t35) r0 16 (boxBytes (handleOf (t35.hreg 1)).bits [16, 16, 1, 1, 1]) 0x100 0 ∧
    Accepts (at_ t35) r0 0x80 true true (.cpyt (t35.hreg 1) [0, 0, 0, 0, 0] [16, 16, 1, 1, 1] 0x100 (completionOf
      0x80).out) ∧
    Turn (at_ r35) r0 r35 ∧
    Quiet (at_ r35) r0 r35 ∧
    r35.reads 60 0x80 ∧
    r35.reads (regAt 44 0) 0 ∧
    r35.reads (regAt 44 1) 1 ∧
    r35.reads (regAt 44 2) 256 ∧
    r35.reads (regAt 44 3) 64 ∧
    (r35.role = .copy ∧
      r35.converged = true ∧
      r35.swz ≠ 3 ∧
      ((handleOf (r35.hreg 1)).check = 0 ∧ (handleOf (r35.hreg 1)).type = 1 ∧ (handleOf (r35.hreg 1)).rank = 2 ∧
        (handleOf (r35.hreg 1)).scr = false ∧ (handleOf (r35.hreg 1)).paddedRow ≤ 64)) ∧
    InWindow (at_ r35) r0 r35.swz 4 4 0 0 ∧
    InRange (at_ r35) r0 16 (0 * 64 + (handleOf (r35.hreg 1)).paddedRow) 0x100 0 ∧
    Accepts (at_ r35) r0 0x80 false true (.rows (r35.hreg 1) [0] [] 0x100 64 r35.swz false) ∧
    Turn (at_ x35) r0 x35 ∧
    x35.reads 60 0x80 ∧
    x35.reads (nextReg 60) 0x2000005 ∧
    x35.reads (regAt 44 0) 16 ∧
    x35.reads (regAt 44 1) 16 ∧
    x35.reads (regAt 44 2) 0 ∧
    x35.reads (regAt 44 3) 16 ∧
    (x35.role = .vector ∧
      x35.someActs = true ∧
      transferTarget 0x2000005 = some (false, 5) ∧
      (canonical (x35.breg 2 + (16 : Word).signExtend 64) = true ∧ (x35.breg 2 + (16 : Word).signExtend 64).toNat % 16
        = 0) ∧
      (canonical ((0 : Word) ++ (16 : Word)) = true ∧ ((0 : Word) ++ (16 : Word)).toNat % 16 = 0) ∧
      (x35.type = 8 ∨ x35.type = 2 ∨ x35.type = 5)) ∧
    Accepts (at_ x35) r0 0x80 false false (.xfer true (x35.breg 2 + 16) 16 16 false 5) ∧
    Accepts (at_ x35) r0 0x80 false false (.nred 0 x35.type (x35.breg 2 + 16) 16 16 false 5 []) ∧
    Turn (team (fun t => { t with tg := 1 }) (at_ c35)) r0 c35 ∧
    Turn (team (fun t => { t with tg := 1 }) (at_ t35)) r0 t35 ∧
    Turn (team (fun t => { t with tg := 1 }) (at_ r35)) r0 r35 ∧
    Turn (team (fun t => { t with tg := 1 }) (at_ x35)) r0 x35 ∧
    (completionBad 0x80 true true = false ∧
      completionBad 0x80 false true = false ∧
      completionBad 0x80 false false = false ∧
      ((completionOf 0x80).ring = none ∧ (completionOf 0x80).tag = some 0) ∧
      (((team (fun t => { t with tg := 1 }) (at_ c35)).teamOf r0).tg.getLsbD 0 = true ∧ 0 < ((team (fun t =>
        { t with tg := 1 }) (at_ c35)).teamOf r0).tagN) ∧
      (((team (fun t => { t with tg := 1 }) (at_ t35)).teamOf r0).tg.getLsbD 0 = true ∧ 0 < ((team (fun t =>
        { t with tg := 1 }) (at_ t35)).teamOf r0).tagN) ∧
      (((team (fun t => { t with tg := 1 }) (at_ r35)).teamOf r0).tg.getLsbD 0 = true ∧ 0 < ((team (fun t =>
        { t with tg := 1 }) (at_ r35)).teamOf r0).tagN) ∧
      (((team (fun t => { t with tg := 1 }) (at_ x35)).teamOf r0).tg.getLsbD 0 = true ∧ 0 < ((team (fun t =>
        { t with tg := 1 }) (at_ x35)).teamOf r0).tagN)) ∧
    Turn (team (fun t => { t with rings := [⟨0x1000, 64, 2, 0, [.full 0, .full 1]⟩] }) (at_ u35)) r0 u35 ∧
    (((team (fun t => { t with rings := [⟨0x1000, 64, 2, 0, [.full 0, .full 1]⟩] }) (at_ u35)).teamOf r0).tg.getLsbD
      0 = false ∧ 0 < ((team (fun t => { t with rings := [⟨0x1000, 64, 2, 0, [.full 0, .full 1]⟩] }) (at_
      u35)).teamOf r0).tagN ∧ 0 < ((team (fun t =>
      { t with rings := [⟨0x1000, 64, 2, 0, [.full 0, .full 1]⟩] }) (at_ u35)).teamOf r0).rings.length ∧
      (((team (fun t => { t with rings := [⟨0x1000, 64, 2, 0, [.full 0, .full 1]⟩] }) (at_ u35)).teamOf
      r0).rings.getD 0 default).emptyAtHead = false) ∧
    Turn (team (fun t => { t with rings := [⟨0x1000, 64, 2, 0, [.full 0, .full 1]⟩] }) (at_ v35)) r0 v35 ∧
    (((team (fun t => { t with rings := [⟨0x1000, 64, 2, 0, [.full 0, .full 1]⟩] }) (at_ v35)).teamOf r0).tg.getLsbD
      0 = false ∧ 0 < ((team (fun t => { t with rings := [⟨0x1000, 64, 2, 0, [.full 0, .full 1]⟩] }) (at_
      v35)).teamOf r0).tagN ∧ 0 < ((team (fun t =>
      { t with rings := [⟨0x1000, 64, 2, 0, [.full 0, .full 1]⟩] }) (at_ v35)).teamOf r0).rings.length ∧
      (((team (fun t => { t with rings := [⟨0x1000, 64, 2, 0, [.full 0, .full 1]⟩] }) (at_ v35)).teamOf
      r0).rings.getD 0 default).emptyAtHead = false) ∧
    Turn (team (fun t => { t with rings := [⟨0x1000, 64, 2, 0, [.full 0, .full 1]⟩] }) (at_ w35)) r0 w35 ∧
    (((team (fun t => { t with rings := [⟨0x1000, 64, 2, 0, [.full 0, .full 1]⟩] }) (at_ w35)).teamOf r0).tg.getLsbD
      0 = false ∧ 0 < ((team (fun t => { t with rings := [⟨0x1000, 64, 2, 0, [.full 0, .full 1]⟩] }) (at_
      w35)).teamOf r0).tagN ∧ 0 < ((team (fun t =>
      { t with rings := [⟨0x1000, 64, 2, 0, [.full 0, .full 1]⟩] }) (at_ w35)).teamOf r0).rings.length ∧
      (((team (fun t => { t with rings := [⟨0x1000, 64, 2, 0, [.full 0, .full 1]⟩] }) (at_ w35)).teamOf
      r0).rings.getD 0 default).emptyAtHead = false) ∧
    u35.reads 60 0x100080 ∧
    v35.reads (nextReg 60) 0x100080 ∧
    w35.reads 60 0x100080 ∧
    ((completionBad 0x100080 true true = false ∧ completionBad 0x100080 false true = false) ∧
      ((completionOf 0x100080).ring = some 0 ∧ (completionOf 0x100080).tag = some 0 ∧ (completionOf 0x100080).out =
        false)) ∧
    u35.reads (regAt 44 0) 16 ∧
    u35.reads (regAt 44 1) 256 ∧
    u35.reads (regAt 44 2) 16 ∧
    u35.reads (regAt 44 3) 98304 ∧
    v35.reads (regAt 40 0) 0 ∧
    v35.reads (regAt 40 1) 0 ∧
    v35.reads (regAt 40 2) 0 ∧
    v35.reads (regAt 40 3) 0 ∧
    v35.reads (regAt 40 4) 0 ∧
    v35.reads (regAt 40 5) 1048592 ∧
    v35.reads (regAt 40 6) 65537 ∧
    v35.reads (regAt 40 7) 1 ∧
    w35.reads (regAt 44 0) 0 ∧
    w35.reads (regAt 44 1) 1 ∧
    w35.reads (regAt 44 2) 256 ∧
    w35.reads (regAt 44 3) 64 :=
  ⟨turn_of (by decide +kernel),
    reads_of (by decide +kernel),
    reads_of (by decide +kernel),
    reads_of (by decide +kernel),
    reads_of (by decide +kernel),
    reads_of (by decide +kernel),
    by decide +kernel,
    inRange_of (by decide +kernel),
    accepts_of (by decide +kernel),
    turn_of (by decide +kernel),
    reads_of (by decide +kernel),
    reads_of (by decide +kernel),
    reads_of (by decide +kernel),
    reads_of (by decide +kernel),
    reads_of (by decide +kernel),
    reads_of (by decide +kernel),
    reads_of (by decide +kernel),
    reads_of (by decide +kernel),
    reads_of (by decide +kernel),
    reads_of (by decide +kernel),
    by decide +kernel,
    inRange_of (by decide +kernel),
    accepts_of (by decide +kernel),
    turn_of (by decide +kernel),
    quiet_of (by decide +kernel),
    reads_of (by decide +kernel),
    reads_of (by decide +kernel),
    reads_of (by decide +kernel),
    reads_of (by decide +kernel),
    reads_of (by decide +kernel),
    by decide +kernel,
    inWindow_of (by decide +kernel),
    inRange_of (by decide +kernel),
    accepts_of (by decide +kernel),
    turn_of (by decide +kernel),
    reads_of (by decide +kernel),
    reads_of (by decide +kernel),
    reads_of (by decide +kernel),
    reads_of (by decide +kernel),
    reads_of (by decide +kernel),
    reads_of (by decide +kernel),
    by decide +kernel,
    accepts_of (by decide +kernel),
    accepts_of (by decide +kernel),
    turn_of (by decide +kernel),
    turn_of (by decide +kernel),
    turn_of (by decide +kernel),
    turn_of (by decide +kernel),
    by decide +kernel,
    turn_of (by decide +kernel),
    by decide +kernel,
    turn_of (by decide +kernel),
    by decide +kernel,
    turn_of (by decide +kernel),
    by decide +kernel,
    reads_of (by decide +kernel),
    reads_of (by decide +kernel),
    reads_of (by decide +kernel),
    by decide +kernel,
    reads_of (by decide +kernel),
    reads_of (by decide +kernel),
    reads_of (by decide +kernel),
    reads_of (by decide +kernel),
    reads_of (by decide +kernel),
    reads_of (by decide +kernel),
    reads_of (by decide +kernel),
    reads_of (by decide +kernel),
    reads_of (by decide +kernel),
    reads_of (by decide +kernel),
    reads_of (by decide +kernel),
    reads_of (by decide +kernel),
    reads_of (by decide +kernel),
    reads_of (by decide +kernel),
    reads_of (by decide +kernel),
    reads_of (by decide +kernel)⟩

/-- A operation of the witness of CopyMovesItsRows. -/
def o36 : Op := opOf (.cpy 0x20000 0x100 16 2 1 0 false)
/-- A package of the witness of CopyMovesItsRows. -/
def s36 : State := { at_ (gp 8) with ops := [o36] }
/-- A copy of two rows of sixteen bytes at its first chunk, and one that waits. -/
theorem witness_CopyMovesItsRows :
    (s36.op? 7 = some o36 ∧
      o36.captured = false ∧
      o36.waits = [] ∧
      o36.kind = .cpy 0x20000 0x100 16 2 1 0 false ∧
      o36.ring = none ∧
      o36.reason = 0 ∧
      s36.team? o36.tid = some (s36.teamOf r0) ∧
      scrXm 0x100 = false ∧
      (s36.teamOf r0).scr.wf = true ∧
      (s36.teamOf r0).scrPoison = [] ∧
      scrOff 0x100 % 16 = 0 ∧
      ((s36.context? o36.ctx).getD default).recMode ≠ 1 ∧
      (∀ c ∈ s36.contexts, c.frames = []) ∧
      o36.done < (cpyImage 0x100 16 2).total) ∧
    ChunkAt s36 ((s36.context? o36.ctx).getD default) .read (cpyPlace 0x20000 16 1 o36.done) (.dev 0x2020000) ∧
    ({ s36 with ops := [{ o36 with waits := [5] }] } : State).op? 7 = some { o36 with waits := [5] } :=
  ⟨by decide +kernel,
    chunkAt_of (by decide +kernel),
    by decide +kernel⟩

/-- A operation of the witness of TransfersCompleteOnTheirReplies. -/
def o37 : Op := opOf (.xfer true 0x20000 0x20100 16 false 1)
/-- A operation of the witness of TransfersCompleteOnTheirReplies. -/
def p37 : Op := opOf (.xfer true 0x20000 0x4000010 16 false 5)
/-- A operation of the witness of TransfersCompleteOnTheirReplies. -/
def q37 : Op := { opOf (.xfer true 0x20000 0x4000010 16 false 5) with done := 1 }
/-- A package of the witness of TransfersCompleteOnTheirReplies. -/
def s37 : State := { paged (at_ (gp 8)) with ops := [o37] }
/-- A package of the witness of TransfersCompleteOnTheirReplies. -/
def t37 : State := { paged (at_ (gp 8)) with ops := [p37] }
/-- A package of the witness of TransfersCompleteOnTheirReplies. -/
def u37 : State := { paged (at_ (gp 8)) with ops := [q37] }
/-- A transfer inside the package, and at its end; an outward one at its first line with the peer reachable and not, its line in the hands of another, cut, and at its end; a captured one. -/
theorem witness_TransfersCompleteOnTheirReplies :
    (s37.op? 7 = some o37 ∧
      (o37.captured = false ∧ o37.waits = [] ∧ o37.ring = none) ∧
      o37.kind = .xfer true 0x20000 0x20100 16 false 1 ∧
      s37.ownDevice false 1 = true ∧
      (s37.poison = [] ∧ s37.hostPoison = []) ∧
      ((s37.context? o37.ctx).getD default).recMode ≠ 1 ∧
      (∀ c ∈ s37.contexts, c.frames = [])) ∧
    Unstaged s37 ((s37.context? o37.ctx).getD default) ∧
    (s37.mem.wf = true ∧
      o37.done < 16 / 16 ∧
      nthChunk 7 (16 / 16) o37.done = 0) ∧
    ChunkAt s37 ((s37.context? o37.ctx).getD default) .read 0x20000 (.dev 0x2020000) ∧
    ChunkAt s37 ((s37.context? o37.ctx).getD default) .write 0x20100 (.dev 0x2020100) ∧
    (16 / 16 ≤ ({ o37 with done := 1 } : Op).done ∧
      t37.op? 7 = some p37 ∧
      (p37.captured = false ∧ p37.waits = [] ∧ p37.ring = none) ∧
      p37.kind = .xfer true 0x20000 0x4000010 16 false 5 ∧
      t37.ownDevice false 5 = false ∧
      (p37.cut = false ∧ p37.done < transferTotal 0x4000010 16 ∧ transferLine 0x4000010 16 (nthChunk 7 (transferTotal
        0x4000010 16) p37.done) = (0, 16)) ∧
      ({ p37 with got := p37.got.filter fun y => pieceKey 0 ≤ y.idx } : Op).failed false = false ∧
      t37.canSend ((t37.context? p37.ctx).getD default) false 5 = true ∧
      ((t37.context? p37.ctx).getD default).recMode ≠ 1 ∧
      (t37.modOp 7 fun _ => { p37 with reason := 0, got := [] }).taken (.op 7 0) (farKey false 5 0x4000010) true =
        false) ∧
    (∃ bs log, (((t37.modOp 7 fun _ => { p37 with reason := 0, got := [] }).opView
      { p37 with reason := 0, got := [] }).bytesRes 0x20000 16).run = .ok (bs, log)) ∧
    (({ t37 with requests := [⟨1, 0, .peer 5, .op 9 0, 0x4000010, none⟩], away := [⟨.op 9 0, 0, 0x4000010, farKey false 5 0x4000010, true⟩] }
        : State).op? 7 = some p37 ∧
      (({ t37 with requests := [⟨1, 0, .peer 5, .op 9 0, 0x4000010, none⟩], away := [⟨.op 9 0, 0, 0x4000010, farKey false 5 0x4000010, true⟩] }
        : State).modOp 7 fun _ => { p37 with reason := 0, got := [] }).taken (.op 7 0) (farKey false 5
        0x4000010) true = true ∧
      ({ t37 with requests := [⟨1, 0, .peer 5, .op 9 0, 0x4000010, none⟩], away := [⟨.op 9 0, 0, 0x4000010, farKey false 5 0x4000010, true⟩] }
        : State).canSend
        ((({ t37 with requests := [⟨1, 0, .peer 5, .op 9 0, 0x4000010, none⟩], away := [⟨.op 9 0, 0, 0x4000010, farKey false 5 0x4000010, true⟩] }
        : State).context? p37.ctx).getD default) false 5 = true ∧
      ({ p37 with cut := true } : Op).cut = true ∧
      ({ p37 with got := [⟨pieceKey 0, 5, []⟩] } : Op).failed false = true ∧
      u37.op? 7 = some q37 ∧
      (q37.captured = false ∧ q37.waits = [] ∧ q37.ring = none) ∧
      transferTotal 0x4000010 16 ≤ q37.done ∧
      ({ t37 with conns := [⟨.peer 5, 0, 0, [], 0, true⟩] } : State).canSend ((t37.context? p37.ctx).getD default)
        false 5 = false ∧
      ({ t37 with ops := [{ p37 with captured := true }] } : State).op? 7 = some { p37 with captured := true }) :=
  ⟨by decide +kernel,
    unstaged_of (by decide +kernel),
    by decide +kernel,
    chunkAt_of (by decide +kernel),
    chunkAt_of (by decide +kernel),
    by decide +kernel,
    runs_of (by decide +kernel),
    by decide +kernel⟩

/-- A operation of the witness of TransfersCompleteOnTheirReplies. -/
def o37_inward : Op := opOf (.xfer false 0x20000 0x4000010 16 false 5)
/-- A operation of the witness of TransfersCompleteOnTheirReplies. -/
def q37_inward : Op := { opOf (.xfer false 0x20000 0x4000010 16 false 5) with done := 1 }
/-- A operation of the witness of TransfersCompleteOnTheirReplies. -/
def c37_inward : Op := { opOf (.xfer false 0x20000 0x4000010 16 false 5) with cut := true }
/-- A operation of the witness of TransfersCompleteOnTheirReplies. -/
def p37_inward : Op :=
  { opOf (.xfer false 0x20000 0x4000010 16 false 5) with got := [⟨pieceKey 0, 0, List.replicate 16 7⟩] }
/-- A package of the witness of TransfersCompleteOnTheirReplies. -/
def s37_inward : State := { paged (at_ (gp 8)) with ops := [o37_inward] }
/-- A package of the witness of TransfersCompleteOnTheirReplies. -/
def u37_inward : State := { paged (at_ (gp 8)) with ops := [q37_inward] }
/-- A package of the witness of TransfersCompleteOnTheirReplies. -/
def v37_inward : State := { paged (at_ (gp 8)) with ops := [c37_inward] }
/-- A package of the witness of TransfersCompleteOnTheirReplies. -/
def t37_inward : State := { paged (at_ (gp 8)) with ops := [p37_inward] }
/-- An inward transfer that has asked for nothing, with its line free and in the hands of another; one whose line has come, one that is cut and one at its end. -/
theorem witness_TransfersCompleteOnTheirReplies_inward :
    (s37_inward.op? 7 = some o37_inward ∧
      (o37_inward.captured = false ∧ o37_inward.waits = [] ∧ o37_inward.ring = none) ∧
      o37_inward.kind = .xfer false 0x20000 0x4000010 16 false 5 ∧
      s37_inward.ownDevice false 5 = false ∧
      (o37_inward.got = [] ∧ o37_inward.done < transferTotal 0x4000010 16) ∧
      o37_inward.cut = false ∧
      s37_inward.canSend ((s37_inward.context? o37_inward.ctx).getD default) false 5 = true ∧
      s37_inward.taken (.op 7 0) (farKey false 5 0x4000010) false = false ∧
      ({ s37_inward with requests := [⟨1, 0, .peer 5, .op 9 0, 0x4000010, none⟩], away := [⟨.op 9 0, 0, 0x4000010, farKey false 5 0x4000010, true⟩] }
        : State).op? 7 = some o37_inward ∧
      ({ s37_inward with requests := [⟨1, 0, .peer 5, .op 9 0, 0x4000010, none⟩], away := [⟨.op 9 0, 0, 0x4000010, farKey false 5 0x4000010, true⟩] }
        : State).taken (.op 7 0) (farKey false 5 0x4000010) false = true ∧
      ({ s37_inward with requests := [⟨1, 0, .peer 5, .op 9 0, 0x4000010, none⟩], away := [⟨.op 9 0, 0, 0x4000010, farKey false 5 0x4000010, true⟩] }
        : State).canSend
        ((({ s37_inward with requests := [⟨1, 0, .peer 5, .op 9 0, 0x4000010, none⟩], away := [⟨.op 9 0, 0, 0x4000010, farKey false 5 0x4000010, true⟩] }
        : State).context? o37_inward.ctx).getD default) false 5 = true ∧
      u37_inward.op? 7 = some q37_inward ∧
      (q37_inward.captured = false ∧ q37_inward.waits = [] ∧ q37_inward.ring = none) ∧
      transferTotal 0x4000010 16 ≤ q37_inward.done ∧
      v37_inward.op? 7 = some c37_inward ∧
      (c37_inward.captured = false ∧ c37_inward.waits = [] ∧ c37_inward.ring = none) ∧
      (c37_inward.got = [] ∧ c37_inward.cut = true ∧ c37_inward.done < transferTotal 0x4000010 16) ∧
      t37_inward.op? 7 = some p37_inward ∧
      (p37_inward.captured = false ∧ p37_inward.waits = [] ∧ p37_inward.ring = none) ∧
      p37_inward.kind = .xfer false 0x20000 0x4000010 16 false 5 ∧
      t37_inward.ownDevice false 5 = false ∧
      (p37_inward.done < transferTotal 0x4000010 16 ∧ p37_inward.cut = false) ∧
      ((p37_inward.got.filter fun y => pieceKey 0 ≤ y.idx) ≠ [] ∧ ∀ y ∈ p37_inward.got.filter fun y => pieceKey 0 ≤
        y.idx, y.stat = 0) ∧
      (t37_inward.poison = [] ∧ t37_inward.hostPoison = []) ∧
      ((t37_inward.context? p37_inward.ctx).getD default).recMode ≠ 1 ∧
      (∀ c ∈ t37_inward.contexts, c.frames = [])) ∧
    Unstaged t37_inward ((t37_inward.context? p37_inward.ctx).getD default) ∧
    (t37_inward.mem.wf = true ∧
      transferLine 0x4000010 16 (nthChunk 7 (transferTotal 0x4000010 16) p37_inward.done) = (0, 16)) ∧
    (∀ x ∈ (getMessages false 0x4000010 16).zipIdx, ∃ y, p37_inward.got.find? (·.idx == pieceKey x.2) = some y ∧
      decide (y.bytes.take x.1.2.1 = (List.range x.1.2.1).map fun _ => (7 : Byte)) = true) ∧
    ChunkAt t37_inward ((t37_inward.context? p37_inward.ctx).getD default) .write 0x20000 (.dev 0x2020000) :=
  ⟨by decide +kernel,
    unstaged_of (by decide +kernel),
    by decide +kernel,
    all_some (fun (x : (Nat × Nat × XferMsg) × Nat) (y : FwdReply) => decide (y.bytes.take x.1.2.1 = (List.range
      x.1.2.1).map fun _ => (7 : Byte))) (by decide +kernel),
    chunkAt_of (by decide +kernel)⟩

/-- A operation of the witness of TransfersCompleteOnTheirReplies. -/
def o37_reductions : Op := opOf (.nred 0 8 0x20000 0x4000010 1 false 5 [])
/-- A operation of the witness of TransfersCompleteOnTheirReplies. -/
def p37_reductions : Op := { opOf (.nred 0 8 0x20000 0x4000010 1 false 5 []) with done := 1 }
/-- A operation of the witness of TransfersCompleteOnTheirReplies. -/
def r37_reductions : Op := { opOf (.nred 0 8 0x20000 0x4000010 1 false 5 []) with reason := 2 }
/-- A operation of the witness of TransfersCompleteOnTheirReplies. -/
def m37_reductions : Op := { opOf (.nred 0 8 0x20000 0x4000010 1 false 1 []) with done := 1 }
/-- A package of the witness of TransfersCompleteOnTheirReplies. -/
def s37_reductions : State := { paged (at_ (gp 8)) with ops := [o37_reductions] }
/-- A package of the witness of TransfersCompleteOnTheirReplies. -/
def t37_reductions : State := { paged (at_ (gp 8)) with ops := [p37_reductions] }
/-- A package of the witness of TransfersCompleteOnTheirReplies. -/
def v37_reductions : State := { paged (at_ (gp 8)) with ops := [r37_reductions] }
/-- A package of the witness of TransfersCompleteOnTheirReplies. -/
def w37_reductions : State := { paged (at_ (gp 8)) with ops := [m37_reductions] }
/-- A reduction that still reads, one that has read all and sent nothing, to another package and to its own, and one at each answer: taken as the last part and not, to be sent again, refused, and refused by a replay with the value it was due. -/
theorem witness_TransfersCompleteOnTheirReplies_reductions :
    (s37_reductions.op? 7 = some o37_reductions ∧
      (o37_reductions.captured = false ∧ o37_reductions.waits = [] ∧ o37_reductions.ring = none) ∧
      (o37_reductions.reason = 0 ∧ o37_reductions.done < nredChunks 1 ∧ nthChunk 7 (nredChunks 1) o37_reductions.done =
        0) ∧
      ((s37_reductions.context? o37_reductions.ctx).getD default).recMode ≠ 1) ∧
    (∃ bs log, ((s37_reductions.opView o37_reductions).bytesRes 0x20000 (4 * Nat.min 4 (1 - 4 * 0))).run = .ok (bs,
      log)) ∧
    (t37_reductions.op? 7 = some p37_reductions ∧
      (p37_reductions.captured = false ∧ p37_reductions.waits = [] ∧ p37_reductions.ring = none) ∧
      (p37_reductions.reason = 0 ∧ nredChunks 1 ≤ p37_reductions.done) ∧
      p37_reductions.got.find? (·.idx == pieceKey 0) = none ∧
      t37_reductions.ownDevice false 5 = false ∧
      t37_reductions.canSend ((t37_reductions.context? p37_reductions.ctx).getD default) false 5 = true ∧
      ({ t37_reductions with conns := [⟨.peer 5, 0, 0, [], 0, true⟩] } : State).canSend ((t37_reductions.context?
        p37_reductions.ctx).getD default) false 5 = false ∧
      ({ p37_reductions with got := [⟨pieceKey 0, 0, []⟩] } : Op).got.find? (·.idx == pieceKey 0) = some ⟨pieceKey 0,
        0, []⟩ ∧
      ({ p37_reductions with got := [⟨pieceKey 0, 1, []⟩] } : Op).got.find? (·.idx == pieceKey 0) = some ⟨pieceKey 0,
        1, []⟩ ∧
      ({ p37_reductions with got := [⟨pieceKey 0, 2, []⟩] } : Op).got.find? (·.idx == pieceKey 0) = some ⟨pieceKey 0,
        2, []⟩ ∧
      ({ p37_reductions with got := [⟨pieceKey 0, 5, List.replicate 8 1⟩] } : Op).got.find? (·.idx == pieceKey 0) =
        some ⟨pieceKey 0, 5, List.replicate 8 1⟩ ∧
      (List.replicate 8 (1 : Byte)).length = 8 ∧
      (∀ c ∈ t37_reductions.contexts, c.frames = []) ∧
      t37_reductions.group? ⟨p37_reductions.tid, p37_reductions.slot⟩ = some (gp 8) ∧
      ((gp 8).ended = false ∧ (gp 8).priv = false) ∧
      w37_reductions.op? 7 = some m37_reductions ∧
      (m37_reductions.captured = false ∧ m37_reductions.waits = [] ∧ m37_reductions.ring = none) ∧
      m37_reductions.kind = .nred 0 8 0x20000 0x4000010 1 false 1 [] ∧
      (m37_reductions.reason = 0 ∧ nredChunks 1 ≤ m37_reductions.done) ∧
      m37_reductions.got.find? (·.idx == pieceKey 0) = none ∧
      w37_reductions.ownDevice false 1 = true ∧
      1 ≤ 256 * (p37_reductions.done - nredChunks 1 + 1) ∧
      256 * (nredChunks 257 - nredChunks 257 + 1) < 257 ∧
      v37_reductions.op? 7 = some r37_reductions ∧
      (r37_reductions.captured = false ∧ r37_reductions.waits = [] ∧ r37_reductions.ring = none) ∧
      r37_reductions.reason ≠ 0) :=
  ⟨by decide +kernel,
    runs_of (by decide +kernel),
    by decide +kernel⟩

/-- A group of the witness of TagsAreObserved. -/
def g38 : Group := uni 40 5 (uni 41 0 (uni 42 0 (uni 43 1 (uni 44 0 (uni 45 0 (uni 46 15 (uni 47 16 (gp 2))))))))
/-- Tags 0 and 2 of a team with sixteen, pending and not; no tag; a tag out of range; a result outstanding. -/
theorem witness_TagsAreObserved :
    Turn (team (fun t => { t with tagN := 16, tg := 5 }) (at_ g38)) r0 g38 ∧
    g38.ons ≠ [] ∧
    Unlisted (team (fun t => { t with tagN := 16, tg := 5 }) (at_ g38)) r0 g38 ∧
    g38.awaited = 0 ∧
    g38.settle.reads2 40 5 ∧
    g38.reads2 40 5 ∧
    ((5 : DWord).toNat < 2 ^ ((team (fun t => { t with tagN := 16, tg := 5 }) (at_ g38)).teamOf r0).tagN ∧
      ((5 : DWord) ≠ 0 ∧ ∀ i, i < 64 → (5 : DWord).getLsbD i = true → ((team (fun t => { t with tagN := 16, tg := 5 })
        (at_ g38)).teamOf r0).tg.getLsbD i = true) ∧
      (5 : DWord) &&& ((team (fun t => { t with tagN := 16, tg := 5 }) (at_ g38)).teamOf r0).tg ≠ 0) ∧
    Turn (team (fun t => { t with tagN := 16, tg := 1 }) (at_ g38)) r0 g38 ∧
    ((∃ i, i < 64 ∧ (5 : DWord).getLsbD i = true ∧ ((team (fun t => { t with tagN := 16, tg := 1 }) (at_ g38)).teamOf
        r0).tg.getLsbD i = false) ∧
      (5 : DWord) &&& ((team (fun t => { t with tagN := 16, tg := 8 }) (at_ g38)).teamOf r0).tg = 0) ∧
    g38.settle.reads2 44 0 ∧
    g38.reads2 42 (2 ^ 32) ∧
    g38.settle.reads2 42 (2 ^ 32) ∧
    (2 ^ ((team (fun t => { t with tagN := 16, tg := 5 }) (at_ g38)).teamOf r0).tagN ≤ (2 ^ 32 : DWord).toNat ∧
      g38.priv = false) ∧
    g38.reads 46 15 ∧
    (15 : Word).toNat < ((team (fun t => { t with tagN := 16, tg := 5 }) (at_ g38)).teamOf r0).tagN ∧
    g38.reads 47 16 ∧
    ((team (fun t => { t with tagN := 16, tg := 5 }) (at_ g38)).teamOf r0).tagN ≤ (16 : Word).toNat ∧
    Turn (at_ { g38 with awaited := 1 }) r0 { g38 with awaited := 1 } ∧
    0 < { g38 with awaited := 1 }.awaited :=
  ⟨turn_of (by decide +kernel),
    by decide +kernel,
    unlisted_of (by decide +kernel),
    by decide +kernel,
    reads2_of (by decide +kernel),
    reads2_of (by decide +kernel),
    by decide +kernel,
    turn_of (by decide +kernel),
    by decide +kernel,
    reads2_of (by decide +kernel),
    reads2_of (by decide +kernel),
    reads2_of (by decide +kernel),
    by decide +kernel,
    reads_of (by decide +kernel),
    by decide +kernel,
    reads_of (by decide +kernel),
    by decide +kernel,
    turn_of (by decide +kernel),
    by decide +kernel⟩

/-- A group of the witness of RingsPassSlots. -/
def g39 : Group := uni 40 0 (uni 41 1 (uni 42 2 (gp 2)))
/-- A package of the witness of RingsPassSlots. -/
def s39 : State :=
  team (fun t => { t with rings := [⟨0x1000, 64, 0, 0, [.empty, .empty]⟩, ⟨0x2000, 64, 5, 3, [.taken 3, .full 4, .full 5]⟩, ⟨0x3000, 64, 4, 3, [.empty, .full 3]⟩] }) (at_ g39)
/-- A ring whose head slot is empty, one whose head slot is full with a slot taken, one with a full slot at its tail; and a ring that is not there. -/
theorem witness_RingsPassSlots :
    Turn s39 r0 g39 ∧
    Unlisted s39 r0 g39 ∧
    g39.reads 40 0 ∧
    g39.reads 41 1 ∧
    g39.reads 42 2 ∧
    (g39.converged = true ∧
      g39.pend < 16 ∧
      g39.ons ≠ [] ∧
      2 < (s39.teamOf r0).rings.length ∧
      (s39.teamOf r0).rings.length ≤ 3 ∧
      ((s39.teamOf r0).rings.getD 0 default).at ((s39.teamOf r0).rings.getD 0 default).hd = .empty ∧
      ((s39.teamOf r0).rings.getD 1 default).at ((s39.teamOf r0).rings.getD 1 default).hd ≠ .empty ∧
      ((s39.teamOf r0).rings.getD 0 default).lowestTaken = none ∧
      ((s39.teamOf r0).rings.getD 1 default).lowestTaken = some 3 ∧
      ((s39.teamOf r0).rings.getD 2 default).fullAtTail = true ∧
      ((s39.teamOf r0).rings.getD 0 default).fullAtTail = false ∧
      g39.priv = false) :=
  ⟨turn_of (by decide +kernel),
    unlisted_of (by decide +kernel),
    reads_of (by decide +kernel),
    reads_of (by decide +kernel),
    reads_of (by decide +kernel),
    by decide +kernel⟩

/-- A group of the witness of BarriersAndBudgetMoves. -/
def g40 : Group := uni 40 7 (uni 41 2 (uni 42 1 (uni 43 64 (uni 44 8 (uni 45 65 (uni 46 0 (gp 2)))))))
/-- A package of the witness of BarriersAndBudgetMoves. -/
def s40 : State :=
  team (fun t => { t with bars := (List.range 8).map fun k => ⟨3, if k = 2 then 1 else 0, if k = 2 then some 2 else none, if k = 2 then [5] else []⟩ }) (at_ g40)
/-- A first arrival of 64 at barrier 7, a last one at barrier 2, bad operands; a group whose generation has passed or not, at its own barrier and at barrier 0, with a move done and not. -/
theorem witness_BarriersAndBudgetMoves :
    Turn s40 r0 g40 ∧
    Unlisted s40 r0 g40 ∧
    (g40.converged = true ∧
      g40.awaited = 0) ∧
    g40.settle.reads 40 7 ∧
    g40.settle.reads 43 64 ∧
    g40.settle.reads 41 2 ∧
    ((s40.teamOf r0).bars.length = 8 ∧
      g40.arrived = [] ∧
      (((s40.teamOf r0).bars.getD 7 default).expect = none ∧ ((s40.teamOf r0).bars.getD 7 default).arrivals + 1 < 64) ∧
      (((s40.teamOf r0).bars.getD 2 default).expect = some 2 ∧ 2 ≤ ((s40.teamOf r0).bars.getD 2 default).arrivals + 1) ∧
      g40.priv = false) ∧
    g40.settle.reads 44 8 ∧
    g40.settle.reads 45 65 ∧
    g40.settle.reads 46 0 ∧
    ((∃ e ∈ ((s40.teamOf r0).bars.getD 2 default).expect.toList, e ≠ 64) ∧
      g40.ons ≠ [] ∧
      g40.ended = false) ∧
    g40.reads 40 7 ∧
    g40.reads 41 2 ∧
    g40.reads 43 64 ∧
    g40.reads 44 8 ∧
    g40.reads 46 0 ∧
    (⟨0, 0, 0, 0, 8⟩ : Move).vb.toNat % 16 ≠ 0 ∧
    Turn (s40.modGroup r0 fun _ => ({ g40 with arrived := [⟨false, 7, 2, g40.pc, none⟩] })) r0
      ({ g40 with arrived := [⟨false, 7, 2, g40.pc, none⟩] }) ∧
    (({ g40 with arrived := [⟨false, 7, 2, g40.pc, none⟩] }).arrived.find? (fun (y : Arrival) => y.convoy == false &&
        y.bar == 7 && y.pc == ({ g40 with arrived := [⟨false, 7, 2, g40.pc, none⟩] }).pc) = some ⟨false, 7, 2,
        g40.pc, none⟩ ∧
      2 < ((s40.teamOf r0).bars.getD 7 default).gen) ∧
    Turn (s40.modGroup r0 fun _ => ({ g40 with arrived := [⟨false, 7, 3, g40.pc, none⟩] })) r0
      ({ g40 with arrived := [⟨false, 7, 3, g40.pc, none⟩] }) ∧
    (({ g40 with arrived := [⟨false, 7, 3, g40.pc, none⟩] }).arrived.find? (fun (y : Arrival) => y.convoy == false &&
        y.bar == 7 && y.pc == ({ g40 with arrived := [⟨false, 7, 3, g40.pc, none⟩] }).pc) = some ⟨false, 7, 3,
        g40.pc, none⟩ ∧
      ((s40.teamOf r0).bars.getD 7 default).gen ≤ 3) ∧
    Turn (s40.modGroup r0 fun _ => ({ g40 with arrived := [⟨false, 0, 2, g40.pc, none⟩] })) r0
      ({ g40 with arrived := [⟨false, 0, 2, g40.pc, none⟩] }) ∧
    ({ g40 with arrived := [⟨false, 0, 2, g40.pc, none⟩] }).arrived.find? (fun (y : Arrival) => y.convoy == false &&
      y.bar == 0 && y.pc == ({ g40 with arrived := [⟨false, 0, 2, g40.pc, none⟩] }).pc) = some ⟨false, 0, 2,
      g40.pc, none⟩ ∧
    Turn (s40.modGroup r0 fun _ => ({ g40 with arrived := [⟨false, 0, 2, g40.pc, some 1⟩] })) r0
      ({ g40 with arrived := [⟨false, 0, 2, g40.pc, some 1⟩] }) ∧
    (({ g40 with arrived := [⟨false, 0, 2, g40.pc, some 1⟩] }).arrived.find? (fun (y : Arrival) => y.convoy == false
        && y.bar == 0 && y.pc == ({ g40 with arrived := [⟨false, 0, 2, g40.pc, some 1⟩] }).pc) = some ⟨false, 0,
        2, g40.pc, some 1⟩ ∧
      2 < ((s40.teamOf r0).bars.getD 0 default).gen) ∧
    Turn (s40.modGroup r0 fun _ => ({ g40 with arrived := [⟨false, 0, 3, g40.pc, none⟩] })) r0
      ({ g40 with arrived := [⟨false, 0, 3, g40.pc, none⟩] }) ∧
    (({ g40 with arrived := [⟨false, 0, 3, g40.pc, none⟩] }).arrived.find? (fun (y : Arrival) => y.convoy == false &&
        y.bar == 0 && y.pc == ({ g40 with arrived := [⟨false, 0, 3, g40.pc, none⟩] }).pc) = some ⟨false, 0, 3,
        g40.pc, none⟩ ∧
      ((s40.teamOf r0).bars.getD 0 default).gen ≤ 3 ∧
      (s40.teamOf r0).bars ≠ [] ∧
      ((s40.teamOf r0).bars.getD 0 default).expect = none ∧
      (∀ q ∈ (s40.teamOf r0).alive, q = r0.slot) ∧
      (s40.teamOf r0).phase = .running ∧
      (s40.teamOf r0).moves = []) ∧
    Turn (team (fun t => { t with groups := t.groups ++ [{ g40 with inSet := false }] }) s40) r0 g40 ∧
    ((∃ q ∈ ((team (fun t => { t with groups := t.groups ++ [{ g40 with inSet := false }] }) s40).teamOf r0).alive, q
        ≠ r0.slot ∧ q ∉ (((team (fun t => { t with groups := t.groups ++ [{ g40 with inSet := false }] })
        s40).teamOf r0).bars.getD 0 default).who) ∧
      (∃ q ∈ ((team (fun t => { t with groups := t.groups ++ [{ g40 with inSet := false }] }) s40).teamOf r0).alive, q
        ≠ r0.slot ∧ q ∉ (((team (fun t => { t with groups := t.groups ++ [{ g40 with inSet := false }] })
        s40).teamOf r0).bars.getD 7 default).who)) :=
  ⟨turn_of (by decide +kernel),
    unlisted_of (by decide +kernel),
    by decide +kernel,
    reads_of (by decide +kernel),
    reads_of (by decide +kernel),
    reads_of (by decide +kernel),
    by decide +kernel,
    reads_of (by decide +kernel),
    reads_of (by decide +kernel),
    reads_of (by decide +kernel),
    by decide +kernel,
    reads_of (by decide +kernel),
    reads_of (by decide +kernel),
    reads_of (by decide +kernel),
    reads_of (by decide +kernel),
    reads_of (by decide +kernel),
    by decide +kernel,
    turn_of (by decide +kernel),
    by decide +kernel,
    turn_of (by decide +kernel),
    by decide +kernel,
    turn_of (by decide +kernel),
    by decide +kernel,
    turn_of (by decide +kernel),
    by decide +kernel,
    turn_of (by decide +kernel),
    by decide +kernel,
    turn_of (by decide +kernel),
    by decide +kernel⟩

/-- A group of the witness of BarriersAndBudgetMoves. -/
def g40_convoys : Group := uni 40 7 (uni 41 2 (uni 42 1 (uni 43 64 (uni 44 8 (uni 45 65 (uni 46 0 (gp 2)))))))
/-- A package of the witness of BarriersAndBudgetMoves. -/
def s40_convoys : State :=
  team (fun t => { t with bars := (List.range 8).map fun k => ⟨3, if k = 2 then 1 else 0, if k = 2 then some 2 else none, if k = 2 then [5] else []⟩ }) (at_ g40_convoys)
/-- A member of a convoy at barrier 1, alone and with another group; a team of no convoy; budgets that can move, and two that cannot. -/
theorem witness_BarriersAndBudgetMoves_convoys :
    Turn
      ({ s40_convoys with convoys := [⟨5, 0, 1, 0, 0, 1, [0], [], [0], [⟨1, 0, none, []⟩, ⟨2, 0, none, []⟩, ⟨1, 0, none, []⟩, ⟨0, 0, none, []⟩]⟩], teams := s40_convoys.teams.map fun t => { t with convoy := some (5, 0) } }
      : State) r0 g40_convoys ∧
    Unlisted
      ({ s40_convoys with convoys := [⟨5, 0, 1, 0, 0, 1, [0], [], [0], [⟨1, 0, none, []⟩, ⟨2, 0, none, []⟩, ⟨1, 0, none, []⟩, ⟨0, 0, none, []⟩]⟩], teams := s40_convoys.teams.map fun t => { t with convoy := some (5, 0) } }
      : State) r0 g40_convoys ∧
    (g40_convoys.converged = true ∧ g40_convoys.awaited = 0) ∧
    g40_convoys.settle.reads 42 1 ∧
    (({ s40_convoys with convoys := [⟨5, 0, 1, 0, 0, 1, [0], [], [0], [⟨1, 0, none, []⟩, ⟨2, 0, none, []⟩, ⟨1, 0, none, []⟩, ⟨0, 0, none, []⟩]⟩], teams := s40_convoys.teams.map fun t => { t with convoy := some (5, 0) } }
      : State).teamOf r0).convoy = some (5, 0) ∧
    (({ s40_convoys with convoys := [⟨5, 0, 1, 0, 0, 1, [0], [], [0], [⟨1, 0, none, []⟩, ⟨2, 0, none, []⟩, ⟨1, 0, none, []⟩, ⟨0, 0, none, []⟩]⟩], teams := s40_convoys.teams.map fun t => { t with convoy := some (5, 0) } }
      : State).convoyOf
      (({ s40_convoys with convoys := [⟨5, 0, 1, 0, 0, 1, [0], [], [0], [⟨1, 0, none, []⟩, ⟨2, 0, none, []⟩, ⟨1, 0, none, []⟩, ⟨0, 0, none, []⟩]⟩], teams := s40_convoys.teams.map fun t => { t with convoy := some (5, 0) } }
      : State).teamOf r0)) = some
      ((({ s40_convoys with convoys := [⟨5, 0, 1, 0, 0, 1, [0], [], [0], [⟨1, 0, none, []⟩, ⟨2, 0, none, []⟩, ⟨1, 0, none, []⟩, ⟨0, 0, none, []⟩]⟩], teams := s40_convoys.teams.map fun t => { t with convoy := some (5, 0) } }
      : State).convoyOf
      (({ s40_convoys with convoys := [⟨5, 0, 1, 0, 0, 1, [0], [], [0], [⟨1, 0, none, []⟩, ⟨2, 0, none, []⟩, ⟨1, 0, none, []⟩, ⟨0, 0, none, []⟩]⟩], teams := s40_convoys.teams.map fun t => { t with convoy := some (5, 0) } }
      : State).teamOf r0)).getD default) ∧
    (((({ s40_convoys with convoys := [⟨5, 0, 1, 0, 0, 1, [0], [], [0], [⟨1, 0, none, []⟩, ⟨2, 0, none, []⟩, ⟨1, 0, none, []⟩, ⟨0, 0, none, []⟩]⟩], teams := s40_convoys.teams.map fun t => { t with convoy := some (5, 0) } }
        : State).convoyOf
        (({ s40_convoys with convoys := [⟨5, 0, 1, 0, 0, 1, [0], [], [0], [⟨1, 0, none, []⟩, ⟨2, 0, none, []⟩, ⟨1, 0, none, []⟩, ⟨0, 0, none, []⟩]⟩], teams := s40_convoys.teams.map fun t => { t with convoy := some (5, 0) } }
        : State).teamOf r0)).getD default).bars.length = 4 ∧
      (((({ s40_convoys with convoys := [⟨5, 0, 1, 0, 0, 1, [0], [], [0], [⟨1, 0, none, []⟩, ⟨2, 0, none, []⟩, ⟨1, 0, none, []⟩, ⟨0, 0, none, []⟩]⟩], teams := s40_convoys.teams.map fun t => { t with convoy := some (5, 0) } }
        : State).convoyOf
        (({ s40_convoys with convoys := [⟨5, 0, 1, 0, 0, 1, [0], [], [0], [⟨1, 0, none, []⟩, ⟨2, 0, none, []⟩, ⟨1, 0, none, []⟩, ⟨0, 0, none, []⟩]⟩], teams := s40_convoys.teams.map fun t => { t with convoy := some (5, 0) } }
        : State).teamOf r0)).getD default).bars.getD 1 default).gen = 2 ∧
      ({ g40_convoys with arrived := [⟨true, 1, 1, g40_convoys.pc, none⟩] }).arrived.find? (fun (y : Arrival) =>
        y.convoy == true && y.bar == 1 && y.pc ==
        ({ g40_convoys with arrived := [⟨true, 1, 1, g40_convoys.pc, none⟩] }).pc) = some ⟨true, 1, 1,
        g40_convoys.pc, none⟩ ∧
      ({ g40_convoys with arrived := [⟨true, 1, 2, g40_convoys.pc, none⟩] }).arrived.find? (fun (y : Arrival) =>
        y.convoy == true && y.bar == 1 && y.pc ==
        ({ g40_convoys with arrived := [⟨true, 1, 2, g40_convoys.pc, none⟩] }).pc) = some ⟨true, 1, 2,
        g40_convoys.pc, none⟩ ∧
      g40_convoys.arrived = [] ∧
      (((({ s40_convoys with convoys := [⟨5, 0, 1, 0, 0, 1, [0], [], [0], [⟨1, 0, none, []⟩, ⟨2, 0, none, []⟩, ⟨1, 0, none, []⟩, ⟨0, 0, none, []⟩]⟩], teams := s40_convoys.teams.map fun t => { t with convoy := some (5, 0) } }
        : State).convoyOf
        (({ s40_convoys with convoys := [⟨5, 0, 1, 0, 0, 1, [0], [], [0], [⟨1, 0, none, []⟩, ⟨2, 0, none, []⟩, ⟨1, 0, none, []⟩, ⟨0, 0, none, []⟩]⟩], teams := s40_convoys.teams.map fun t => { t with convoy := some (5, 0) } }
        : State).teamOf r0)).getD default).bars.getD 1 default).expect = none ∧
      (∀ q ∈
        ({ s40_convoys with convoys := [⟨5, 0, 1, 0, 0, 1, [0], [], [0], [⟨1, 0, none, []⟩, ⟨2, 0, none, []⟩, ⟨1, 0, none, []⟩, ⟨0, 0, none, []⟩]⟩], teams := s40_convoys.teams.map fun t => { t with convoy := some (5, 0) } }
        : State).convoyAlive
        ((({ s40_convoys with convoys := [⟨5, 0, 1, 0, 0, 1, [0], [], [0], [⟨1, 0, none, []⟩, ⟨2, 0, none, []⟩, ⟨1, 0, none, []⟩, ⟨0, 0, none, []⟩]⟩], teams := s40_convoys.teams.map fun t => { t with convoy := some (5, 0) } }
        : State).convoyOf
        (({ s40_convoys with convoys := [⟨5, 0, 1, 0, 0, 1, [0], [], [0], [⟨1, 0, none, []⟩, ⟨2, 0, none, []⟩, ⟨1, 0, none, []⟩, ⟨0, 0, none, []⟩]⟩], teams := s40_convoys.teams.map fun t => { t with convoy := some (5, 0) } }
        : State).teamOf r0)).getD default), q = 64 * 0 + r0.slot ∨ q ∈
        (((({ s40_convoys with convoys := [⟨5, 0, 1, 0, 0, 1, [0], [], [0], [⟨1, 0, none, []⟩, ⟨2, 0, none, []⟩, ⟨1, 0, none, []⟩, ⟨0, 0, none, []⟩]⟩], teams := s40_convoys.teams.map fun t => { t with convoy := some (5, 0) } }
        : State).convoyOf
        (({ s40_convoys with convoys := [⟨5, 0, 1, 0, 0, 1, [0], [], [0], [⟨1, 0, none, []⟩, ⟨2, 0, none, []⟩, ⟨1, 0, none, []⟩, ⟨0, 0, none, []⟩]⟩], teams := s40_convoys.teams.map fun t => { t with convoy := some (5, 0) } }
        : State).teamOf r0)).getD default).bars.getD 1 default).who)) ∧
    Turn
      ({ (team (fun t => { t with groups := t.groups ++ [{ g40_convoys with inSet := false }] }) s40_convoys) with convoys := [⟨5, 0, 1, 0, 0, 1, [0], [], [0], [⟨1, 0, none, []⟩, ⟨2, 0, none, []⟩, ⟨1, 0, none, []⟩, ⟨0, 0, none, []⟩]⟩], teams := (team (fun t => { t with groups := t.groups ++ [{ g40_convoys with inSet := false }] }) s40_convoys).teams.map fun t => { t with convoy := some (5, 0) } }
      : State) r0 g40_convoys ∧
    (∃ q ∈
      ({ (team (fun t => { t with groups := t.groups ++ [{ g40_convoys with inSet := false }] }) s40_convoys) with convoys := [⟨5, 0, 1, 0, 0, 1, [0], [], [0], [⟨1, 0, none, []⟩, ⟨2, 0, none, []⟩, ⟨1, 0, none, []⟩, ⟨0, 0, none, []⟩]⟩], teams := (team (fun t => { t with groups := t.groups ++ [{ g40_convoys with inSet := false }] }) s40_convoys).teams.map fun t => { t with convoy := some (5, 0) } }
      : State).convoyAlive
      ((({ s40_convoys with convoys := [⟨5, 0, 1, 0, 0, 1, [0], [], [0], [⟨1, 0, none, []⟩, ⟨2, 0, none, []⟩, ⟨1, 0, none, []⟩, ⟨0, 0, none, []⟩]⟩], teams := s40_convoys.teams.map fun t => { t with convoy := some (5, 0) } }
      : State).convoyOf
      (({ s40_convoys with convoys := [⟨5, 0, 1, 0, 0, 1, [0], [], [0], [⟨1, 0, none, []⟩, ⟨2, 0, none, []⟩, ⟨1, 0, none, []⟩, ⟨0, 0, none, []⟩]⟩], teams := s40_convoys.teams.map fun t => { t with convoy := some (5, 0) } }
      : State).teamOf r0)).getD default), q ≠ 64 * 0 + r0.slot ∧ q ∉
      (((({ s40_convoys with convoys := [⟨5, 0, 1, 0, 0, 1, [0], [], [0], [⟨1, 0, none, []⟩, ⟨2, 0, none, []⟩, ⟨1, 0, none, []⟩, ⟨0, 0, none, []⟩]⟩], teams := s40_convoys.teams.map fun t => { t with convoy := some (5, 0) } }
      : State).convoyOf
      (({ s40_convoys with convoys := [⟨5, 0, 1, 0, 0, 1, [0], [], [0], [⟨1, 0, none, []⟩, ⟨2, 0, none, []⟩, ⟨1, 0, none, []⟩, ⟨0, 0, none, []⟩]⟩], teams := s40_convoys.teams.map fun t => { t with convoy := some (5, 0) } }
      : State).teamOf r0)).getD default).bars.getD 1 default).who) ∧
    Turn s40_convoys r0 g40_convoys ∧
    (g40_convoys.priv = false ∧
      s40_convoys.convoyOf (s40_convoys.teamOf r0) = none) ∧
    g40_convoys.settle.reads 44 8 ∧
    ((64 + 16 ≤ 512 ∧ 512 ≤ 1024 + 16 ∧ 64 + 16 ≤ 1024 ∧ ({ g40_convoys with budget := 512 } : Group).wordsInUse + 16
        ≤ 512) ∧
      ({ g40_convoys with budget := 64 } : Group).budget < 64 + 16 ∧
      (512 < ({ g40_convoys with budget := 512 } : Group).wordsInUse + 448 ∧ 64 + 448 ≤ 512)) :=
  ⟨turn_of (by decide +kernel),
    unlisted_of (by decide +kernel),
    by decide +kernel,
    reads_of (by decide +kernel),
    by decide +kernel,
    some_getD (by decide +kernel),
    by decide +kernel,
    turn_of (by decide +kernel),
    by decide +kernel,
    turn_of (by decide +kernel),
    by decide +kernel,
    reads_of (by decide +kernel),
    by decide +kernel⟩

end Sys2Proof.Tests
end

