-- ==== Sys2Proof/Tests/WitnessPackage.lean ====
section
/-! SUPPORT. For each statement about launches, saving, messages, management and steps: concrete packages and operands that meet its premises together. -/
namespace Sys2Proof.Tests
open Sys2Proof Sys2Proof.Machine
-- one proof after another: each waits for the kernel
set_option Elab.async false

/-- A group of the witness of LaunchAndPlacement. -/
def g50 : Group := uni 30 0x100 (uni 31 0x110 (uni 32 0x140 (uni 33 0x180 (setb 3 0x40000 (gp 8)))))
/-- A package of the witness of LaunchAndPlacement. -/
def s50 : State := launching (at_ g50)
/-- A package of the witness of LaunchAndPlacement. -/
def n50 : State := { s50 with grids := s50.grids.map fun x => { x with depth := 10 } }
/-- A record that is accepted, one for a full queue, one with a reserved bit, and a misaligned one; a group whose first fibre is not live, and a grid of depth 10. -/
theorem witness_LaunchAndPlacement :
    Turn s50 r0 g50 ∧
    g50.ons ≠ [] ∧
    g50.reads 30 0x100 ∧
    g50.reads 31 0x110 ∧
    g50.reads 32 0x140 ∧
    g50.reads 33 0x180 ∧
    (s50.context? (s50.teamOf r0).ctx = some (s50.contexts.headD default) ∧
      (s50.gridOf (s50.teamOf r0)).depth < 10 ∧
      (r0.slot = 0 ∧ g50.on 0 = true ∧ g50.isHelper 0 = false) ∧
      (g50.breg 3 + (0x110 : Word).signExtend 64).toNat % 64 ≠ 0 ∧
      (g50.breg 3 + (0x100 : Word).signExtend 64).toNat % 64 = 0) ∧
    Unlisted s50 r0 g50 ∧
    g50.fwdOpen = [] ∧
    Reaches s50 r0 .read 64 (g50.breg 3 + (0x100 : Word).signExtend 64) (.dev 0x2040100) ∧
    s50.poisonedAt (.dev 0x2040100) 64 = false ∧
    Reaches s50 r0 .read 64 (g50.breg 3 + (0x140 : Word).signExtend 64) (.dev 0x2040140) ∧
    s50.poisonedAt (.dev 0x2040140) 64 = false ∧
    Reaches s50 r0 .read 64 (g50.breg 3 + (0x180 : Word).signExtend 64) (.dev 0x2040180) ∧
    (s50.poisonedAt (.dev 0x2040180) 64 = false ∧
      (s50.contexts.headD default).refuses (recordOf (s50.bytesAtLoc (.dev 0x2040180) 64)) = true ∧
      (s50.contexts.headD default).refuses (recordOf (s50.bytesAtLoc (.dev 0x2040100) 64)) = false ∧
      (s50.contexts.headD default).refuses (recordOf (s50.bytesAtLoc (.dev 0x2040140) 64)) = false) ∧
    (∃ sd, (launchRd s50 (s50.contexts.headD default) (recordOf (s50.bytesAtLoc (.dev 0x2040140) 64)) (some 1)
      (s50.viewOf r0 g50)).Gives sd ∧ s50.judge (s50.contexts.headD default) (recordOf (s50.bytesAtLoc (.dev
      0x2040140) 64)) (some 1) sd ≠ 0) ∧
    (∃ sd, (launchRd s50 (s50.contexts.headD default) (recordOf (s50.bytesAtLoc (.dev 0x2040100) 64)) (some 1)
      (s50.viewOf r0 g50)).Gives (some sd) ∧ s50.judge (s50.contexts.headD default) (recordOf (s50.bytesAtLoc
      (.dev 0x2040100) 64)) (some 1) (some sd) = 0) ∧
    Turn (at_ (one 1 g50)) r0 (one 1 g50) ∧
    ((one 1 g50).ons ≠ [] ∧
      (one 1 g50).on 0 = false ∧
      (n50.gridOf (n50.teamOf r0)).depth = 10) ∧
    Turn n50 r0 g50 :=
  ⟨turn_of (by decide +kernel),
    by decide +kernel,
    reads_of (by decide +kernel),
    reads_of (by decide +kernel),
    reads_of (by decide +kernel),
    reads_of (by decide +kernel),
    by decide +kernel,
    unlisted_of (by decide +kernel),
    by decide +kernel,
    reaches_of (by decide +kernel),
    by decide +kernel,
    reaches_of (by decide +kernel),
    by decide +kernel,
    reaches_of (by decide +kernel),
    by decide +kernel,
    read_of (launchRd_steady _ _ _ _ _) (by decide +kernel),
    reads_some (launchRd_steady _ _ _ _ _) (by decide +kernel),
    turn_of (by decide +kernel),
    by decide +kernel,
    turn_of (by decide +kernel)⟩

/-- A package of the witness of LaunchAndPlacement. -/
def m50_message : State := launching (up w0)
/-- A package of the witness of LaunchAndPlacement. -/
def u50_message : State := (launching (up w0)).takeHost (⟨1, 16, 0, 0, 0, false⟩ : MsgHdr) 1 |>.1
/-- The same record by message. -/
theorem witness_LaunchAndPlacement_message :
    Heard m50_message u50_message (⟨1, 16, 0, 0, 0, false⟩ : MsgHdr) (.launchMessage (record 0 0x40200))
      (u50_message.contexts.headD default) ∧
    ((u50_message.contexts.headD default).recMode = 0 ∧
      u50_message.held = [] ∧
      (record 0 0x40200).length = 64 ∧
      (u50_message.contexts.headD default).refuses (recordOf (record 0 0x40200)) = false ∧
      ((u50_message.contexts.headD default).refuses (recordOf (record (2 ^ 14) 0x40200)) = true ∧ (record (2 ^ 14)
        0x40200).length = 64)) ∧
    (∃ sd, (launchRd u50_message (u50_message.contexts.headD default) (recordOf (record 0 0x40200)) none
      ⟨u50_message, (u50_message.contexts.headD default), []⟩).Gives (some sd) ∧ u50_message.judge
      (u50_message.contexts.headD default) (recordOf (record 0 0x40200)) none (some sd) = 0) :=
  ⟨heard_of (by decide +kernel),
    by decide +kernel,
    reads_some (launchRd_steady _ _ _ _ _) (by decide +kernel)⟩

/-- A package of the witness of LaunchAndPlacement. -/
def p50_placed : State :=
  { launching (roomy (at_ (gp 8))) with grids := (roomy w0).grids.map (fun x => { x with placed := 1 }) ++ [small], disabled := ⟨[], [1, 2, 3, 4, 5, 6, 7], [], []⟩ }
/-- A package of the witness of LaunchAndPlacement. -/
def q50_placed : State :=
  { launching (roomy (at_ (gp 8))) with grids := (roomy w0).grids.map (fun x => { x with placed := 1 }) ++ [{ small with conv := 2 }], disabled := ⟨[], [1, 2, 3, 4, 5, 6, 7], [], []⟩ }
/-- A team and a convoy that find room. -/
theorem witness_LaunchAndPlacement_placed :
    p50_placed.markEligible.placeClaimed = none ∧
      p50_placed.markEligible.firstPlaced = none ∧
      p50_placed.markEligible.chosen = some small ∧
      p50_placed.markEligible.grid? 0 2 = some small ∧
      p50_placed.markEligible.context? 0 = some (p50_placed.contexts.headD default) ∧
      small.conv = 0 ∧
      (p50_placed.markEligible.place (p50_placed.contexts.headD default) (p50_placed.markEligible.coresFor
        (p50_placed.contexts.headD default)) small.need (0, 2)).isSome = true ∧
      q50_placed.markEligible.placeClaimed = none ∧
      q50_placed.markEligible.firstPlaced = none ∧
      q50_placed.markEligible.chosen = some { small with conv := 2 } ∧
      q50_placed.markEligible.grid? 0 2 = some { small with conv := 2 } ∧
      q50_placed.markEligible.context? 0 = some (q50_placed.contexts.headD default) ∧
      ({ small with conv := 2 } : Grid).conv ≠ 0 ∧
      (q50_placed.markEligible.dieFor (q50_placed.contexts.headD default) 2 small.need (0, 2)).isSome = true :=
  by decide +kernel

/-- A package of the witness of LaunchAndPlacement. -/
def v50_convoy : State :=
  { team (fun t => { t with convoy := some (5, 0) }) (roomy (at_ (gp 8))) with grids := w0.grids ++ [small], convoys := [(⟨5, 0, 2, 0, 0, 4, [0], [1], [1, 0], List.replicate 4 default⟩ : Convoy)], disabled := ⟨(List.range Config.coresPerDie).drop 3, [], [], []⟩ }
/-- A package of the witness of LaunchAndPlacement. -/
def x50_convoy : State :=
  { v50_convoy with convoys := v50_convoy.convoys.map fun y => if y.id == 5 then { y with started := 2 :: y.started } else y }
/-- The third member of a convoy of four. -/
theorem witness_LaunchAndPlacement_convoy :
    v50_convoy.convoys.find? (·.id == 5) = some (v50_convoy.convoys.headD default) ∧
      (2 < (v50_convoy.convoys.headD default).members ∧ 2 ∉ (v50_convoy.convoys.headD default).started ∧ 2 ∉
        (v50_convoy.convoys.headD default).ended) ∧
      (∀ j, j < 2 → j ∈ (v50_convoy.convoys.headD default).started ∨ j ∈ (v50_convoy.convoys.headD default).ended) ∧
      v50_convoy.grid? 0 2 = some small ∧
      v50_convoy.context? 0 = some (v50_convoy.contexts.headD default) ∧
      (∀ t ∈ v50_convoy.saved, t.convoy ≠ some (5, 2)) ∧
      (x50_convoy.place (v50_convoy.contexts.headD default) ((v50_convoy.dieCores (v50_convoy.contexts.headD default)
        0).filter (!(v50_convoy.convoys.headD default).cores.contains ·)) small.need).isSome = true :=
  by decide +kernel

/-- A package of the witness of LaunchAndPlacement. -/
def a50_ages : State := { launching (at_ (gp 8)) with grids := w0.grids ++ [small] }
/-- A package of the witness of LaunchAndPlacement. -/
def z50_ages : State := { launching (at_ (gp 8)) with grids := w0.grids ++ [{ small with placed := 4 }] }
/-- A grid that ages and is not done, and one that is done. -/
theorem witness_LaunchAndPlacement_ages :
    a50_ages.context? 0 = some (a50_ages.contexts.headD default) ∧
      a50_ages.grid? 0 2 = some small ∧
      small.eligible = true ∧
      a50_ages.queued small = true ∧
      a50_ages.doneGrid small = false ∧
      small.effPrio < (a50_ages.contexts.headD default).ceiling small.queue ∧
      z50_ages.grid? 0 2 = some { small with placed := 4 } ∧
      z50_ages.context? 0 = some (z50_ages.contexts.headD default) ∧
      z50_ages.doneGrid { small with placed := 4 } = true :=
  by decide +kernel

/-- A group of the witness of PreemptionAndRestoring. -/
def g51 : Group := { gp 8 with preempt := some 1 }
/-- A group of the witness of PreemptionAndRestoring. -/
def k51 : Group := { gp 8 with preempt := some 1, priv := true }
/-- A group of the witness of PreemptionAndRestoring. -/
def h51 : Group := { g51.trapped ⟨.preempt, 1, 0⟩ with preempt := none, trapDue := g51.trapDue, left := false }
/-- A package of the witness of PreemptionAndRestoring. -/
def s51 : State := framed .preempting (at_ g51)
/-- A package of the witness of PreemptionAndRestoring. -/
def t51 : State := team (fun t => { t with groups := t.groups ++ [g51] }) s51
/-- A package of the witness of PreemptionAndRestoring. -/
def j51 : State :=
  { poke8 0x10040 [0x3F] (ctx (fun c => { c with save := 0x10000000 }) (framed .preempting (paged (at_ g51)))) with requests := [⟨3, 0, .host, .op 7 0, 0x4000004, none⟩] }
/-- A team of the witness of PreemptionAndRestoring. -/
def z51 : Team :=
  { (s51.teamOf r0).modGroup 0 (fun _ => h51) with ltime := s51.clockOf (s51.teamOf r0).ctx (s51.teamOf r0).core, phase := .saving, saveKey := s51.nextId }
/-- A package of the witness of PreemptionAndRestoring. -/
def w51 : State :=
  { s51.setGroup r0 h51 with
    nextId := s51.nextId + 1
    teams := (s51.setGroup r0 h51).teams.map fun x => if x.tid == 0 then z51 else x
    ops := s51.ops.map fun o => if o.tid == 0 && o.kind.capturable then s51.capture o else o }
/-- A group of a team alone that takes a request, one with another group that has yet to, and one in privileged mode. -/
theorem witness_PreemptionAndRestoring :
    (s51.team? 0 = some (s51.teamOf r0) ∧
      s51.group? r0 = some g51 ∧
      (g51.preempt = some 1 ∧ g51.ended = false ∧ g51.fwdOpen = [] ∧ g51.doneAway = false) ∧
      g51.priv = false ∧
      (s51.teamOf r0).phase = .preempting) ∧
    (∀ k x, k ≠ 0 → (s51.teamOf r0).groups[k]? = some x → x.ended = true ∨ x.preempt = none) ∧
    (s51.frameAt (s51.teamOf r0) = some ((s51.contexts.headD default), 0x100000) ∧
      (w51.ownWrite (s51.contexts.headD default) 0x100000 (z51.header 1)).isOk = true) ∧
    ({ w51 with poison := [0x2100000 / 64 + 3] } : State).ownWrite (s51.contexts.headD default) 0x100000
      ((z51.header 1).take 200) = .error (9, 1) ∧
    t51.group? r0 = some g51 ∧
    (∃ k x, k ≠ 0 ∧ (t51.teamOf r0).groups[k]? = some x ∧ x.ended = false ∧ x.preempt.isSome = true) ∧
    ((framed .preempting (at_ k51)).group? r0 = some k51 ∧
      (k51.preempt = some 1 ∧ k51.ended = false ∧ k51.priv = true) ∧
      (({ g51 with fwd := [⟨0, 0, []⟩] } : Group).doneAway = true ∧ ({ g51 with fwdOpen := [3] } : Group).fwdOpen ≠ []) ∧
      ((framed .restoring (at_ g51)).group? r0 = some g51 ∧ ((framed .restoring (at_ g51)).teamOf r0).phase =
        .restoring) ∧
      (s51.setGroup r0 h51).frameWaits ((s51.teamOf r0).modGroup 0 fun _ => h51) = false ∧
      j51.group? r0 = some g51 ∧
      (j51.teamOf r0).phase = .preempting ∧
      j51.frameAt (j51.teamOf r0) = some ((j51.contexts.headD default), 0x10000000) ∧
      (j51.setGroup r0 h51).frameWaits ((j51.teamOf r0).modGroup 0 fun _ => h51) = true) :=
  ⟨by decide +kernel,
    alone_of (by decide +kernel),
    by decide +kernel,
    error_of (by decide +kernel),
    by decide +kernel,
    ⟨1, g51, by decide, by decide +kernel, by decide +kernel, by decide +kernel⟩,
    by decide +kernel⟩

/-- A group whose registers have their sizes, at the first and the last item. -/
theorem witness_PreemptionAndRestoring_items :
    (gp 8).sized = true ∧
      (1 ≤ 9 ∧ 9 ≤ 9) ∧
      (gp 8).flags &&& ~~~flagsMask = 0 ∧
      (gp 8).cause &&& ~~~0x8000FFFF = 0 :=
  by decide +kernel

/-- A group of the witness of PreemptionAndRestoring. -/
def g51_words : Group := { gp 8 with priv := true }
/-- A group of the witness of PreemptionAndRestoring. -/
def k51_words : Group := { gp 8 with priv := false }
/-- A package of the witness of PreemptionAndRestoring. -/
def s51_words : State :=
  poke 0x2100040 (natLe 2 1024) (poke 0x223B800 (natLe 4 1024 ++ natLe 4 2) (poke 0x223BD18 [1] (framed .saving (at_ g51_words))))
/-- A package of the witness of PreemptionAndRestoring. -/
def u51_words : State := framed .saving (at_ k51_words)
/-- Items of a group, of a team and of the accumulator, stored and loaded by a privileged group of a saved team; and a group in user mode. -/
theorem witness_PreemptionAndRestoring_words :
    Holds s51_words r0 g51_words ∧
    (g51_words.priv = true ∧
      g51_words.fwdOpen = []) ∧
    Holds u51_words r0 k51_words ∧
    (k51_words.priv = false ∧
      s51_words.team? 0 = some (s51_words.teamOf r0) ∧
      s51_words.frameAt (s51_words.teamOf r0) = some ((s51_words.contexts.headD default), 0x100000) ∧
      r0.slot = 0 ∧
      0 < 64 ∧
      16 * (63 - 32) + 16 ≤ (s51_words.teamOf r0).accRows) ∧
    Unarmed s51_words r0 ∧
    ((s51_words.teamOf r0).phase = .saving ∧
      s51_words.draining (s51_words.teamOf r0) = false) ∧
    (∀ x ∈ saveItem s51_words r0 g51_words.begun (s51_words.teamOf r0) 0, ∀ p ∈ pieces 128 (x.2.length / 128 + 2)
      ((0x100000 : DWord) + .ofNat 64 x.1).toNat x.2.length, Reaches s51_words r0 .write 1 (.ofNat 64 p.1)
      (.dev (0x2000000 + p.1)) ∧ s51_words.poisonedAt (.dev (0x2000000 + p.1)) p.2 = false ∧ (AccKind.write =
      .write → s51_words.inUse (.dev (0x2000000 + p.1)) p.2 = false)) ∧
    (∀ x ∈ saveItem s51_words r0 g51_words.begun (s51_words.teamOf r0) 10, ∀ p ∈ pieces 128 (x.2.length / 128 + 2)
      ((0x100000 : DWord) + .ofNat 64 x.1).toNat x.2.length, Reaches s51_words r0 .write 1 (.ofNat 64 p.1)
      (.dev (0x2000000 + p.1)) ∧ s51_words.poisonedAt (.dev (0x2000000 + p.1)) p.2 = false ∧ (AccKind.write =
      .write → s51_words.inUse (.dev (0x2000000 + p.1)) p.2 = false)) ∧
    (∀ x ∈ saveItem s51_words r0 g51_words.begun (s51_words.teamOf r0) 16, ∀ p ∈ pieces 128 (x.2.length / 128 + 2)
      ((0x100000 : DWord) + .ofNat 64 x.1).toNat x.2.length, Reaches s51_words r0 .write 1 (.ofNat 64 p.1)
      (.dev (0x2000000 + p.1)) ∧ s51_words.poisonedAt (.dev (0x2000000 + p.1)) p.2 = false ∧ (AccKind.write =
      .write → s51_words.inUse (.dev (0x2000000 + p.1)) p.2 = false)) ∧
    (∀ x ∈ saveItem s51_words r0 g51_words.begun (s51_words.teamOf r0) 17, ∀ p ∈ pieces 128 (x.2.length / 128 + 2)
      ((0x100000 : DWord) + .ofNat 64 x.1).toNat x.2.length, Reaches s51_words r0 .write 1 (.ofNat 64 p.1)
      (.dev (0x2000000 + p.1)) ∧ s51_words.poisonedAt (.dev (0x2000000 + p.1)) p.2 = false ∧ (AccKind.write =
      .write → s51_words.inUse (.dev (0x2000000 + p.1)) p.2 = false)) ∧
    (∀ x ∈ saveItem s51_words r0 g51_words.begun (s51_words.teamOf r0) 18, ∀ p ∈ pieces 128 (x.2.length / 128 + 2)
      ((0x100000 : DWord) + .ofNat 64 x.1).toNat x.2.length, Reaches s51_words r0 .write 1 (.ofNat 64 p.1)
      (.dev (0x2000000 + p.1)) ∧ s51_words.poisonedAt (.dev (0x2000000 + p.1)) p.2 = false ∧ (AccKind.write =
      .write → s51_words.inUse (.dev (0x2000000 + p.1)) p.2 = false)) ∧
    (∀ x ∈ saveItem s51_words r0 g51_words.begun (s51_words.teamOf r0) 32, ∀ p ∈ pieces 128 (x.2.length / 128 + 2)
      ((0x100000 : DWord) + .ofNat 64 x.1).toNat x.2.length, Reaches s51_words r0 .write 1 (.ofNat 64 p.1)
      (.dev (0x2000000 + p.1)) ∧ s51_words.poisonedAt (.dev (0x2000000 + p.1)) p.2 = false ∧ (AccKind.write =
      .write → s51_words.inUse (.dev (0x2000000 + p.1)) p.2 = false)) ∧
    (s51_words.teamOf r0).groupFrame 0 = 0x13B800 ∧
    (∀ p ∈ pieces 128 (16 / 128 + 2) ((0x100000 : DWord) + .ofNat 64 (0x13B800 + 0x518)).toNat 16, Reaches s51_words
      r0 .read 1 (.ofNat 64 p.1) (.dev (0x2000000 + p.1)) ∧ s51_words.poisonedAt (.dev (0x2000000 + p.1)) p.2
      = false ∧ (AccKind.read = .write → s51_words.inUse (.dev (0x2000000 + p.1)) p.2 = false)) ∧
    ((∀ x ∈ tagsOf ((pieces 128 (16 / 128 + 2) ((0x100000 : DWord) + .ofNat 64 (0x13B800 + 0x518)).toNat 16).flatMap
        fun p => s51_words.bytesAtLoc (.dev (0x2000000 + p.1)) p.2), x ≠ 3) ∧
      ((tagsOf ((pieces 128 (16 / 128 + 2) ((0x100000 : DWord) + .ofNat 64 (0x13B800 + 0x518)).toNat 16).flatMap fun p
        => s51_words.bytesAtLoc (.dev (0x2000000 + p.1)) p.2)).map tagCost).sum = 65) ∧
    (∀ p ∈ pieces 128 ((4 * 65) / 128 + 2) ((0x100000 : DWord) + .ofNat 64 (0x13B800 + 0x528)).toNat (4 * 65),
      Reaches s51_words r0 .read 1 (.ofNat 64 p.1) (.dev (0x2000000 + p.1)) ∧ s51_words.poisonedAt (.dev
      (0x2000000 + p.1)) p.2 = false ∧ (AccKind.read = .write → s51_words.inUse (.dev (0x2000000 + p.1)) p.2 =
      false)) ∧
    65 ≤ g51_words.budget ∧
    (∀ p ∈ pieces 128 ((itemPlace 1).2 / 128 + 2) ((0x100000 : DWord) + .ofNat 64 (0x13B800 + (itemPlace 1).1)).toNat
      (itemPlace 1).2, Reaches s51_words r0 .read 1 (.ofNat 64 p.1) (.dev (0x2000000 + p.1)) ∧
      s51_words.poisonedAt (.dev (0x2000000 + p.1)) p.2 = false ∧ (AccKind.read = .write → s51_words.inUse
      (.dev (0x2000000 + p.1)) p.2 = false)) ∧
    (∀ p ∈ pieces 128 ((itemPlace 9).2 / 128 + 2) ((0x100000 : DWord) + .ofNat 64 (0x13B800 + (itemPlace 9).1)).toNat
      (itemPlace 9).2, Reaches s51_words r0 .read 1 (.ofNat 64 p.1) (.dev (0x2000000 + p.1)) ∧
      s51_words.poisonedAt (.dev (0x2000000 + p.1)) p.2 = false ∧ (AccKind.read = .write → s51_words.inUse
      (.dev (0x2000000 + p.1)) p.2 = false)) ∧
    (∀ p ∈ pieces 128 (8 / 128 + 2) ((0x100000 : DWord) + .ofNat 64 0x13B800).toNat 8, Reaches s51_words r0 .read 1
      (.ofNat 64 p.1) (.dev (0x2000000 + p.1)) ∧ s51_words.poisonedAt (.dev (0x2000000 + p.1)) p.2 = false ∧
      (AccKind.read = .write → s51_words.inUse (.dev (0x2000000 + p.1)) p.2 = false)) ∧
    (∀ p ∈ pieces 128 (2 / 128 + 2) ((0x100000 : DWord) + .ofNat 64 (0x40 + 2 * 0)).toNat 2, Reaches s51_words r0
      .read 1 (.ofNat 64 p.1) (.dev (0x2000000 + p.1)) ∧ s51_words.poisonedAt (.dev (0x2000000 + p.1)) p.2 =
      false ∧ (AccKind.read = .write → s51_words.inUse (.dev (0x2000000 + p.1)) p.2 = false)) ∧
    (bytesAt ((pieces 128 (8 / 128 + 2) ((0x100000 : DWord) + .ofNat 64 0x13B800).toNat 8).flatMap fun p =>
        s51_words.bytesAtLoc (.dev (0x2000000 + p.1)) p.2) 0 4 = leNat ((pieces 128 (2 / 128 + 2) ((0x100000 :
        DWord) + .ofNat 64 (0x40 + 2 * 0)).toNat 2).flatMap fun p => s51_words.bytesAtLoc (.dev (0x2000000 +
        p.1)) p.2) ∧
      bytesAt ((pieces 128 (8 / 128 + 2) ((0x100000 : DWord) + .ofNat 64 0x13B800).toNat 8).flatMap fun p =>
        s51_words.bytesAtLoc (.dev (0x2000000 + p.1)) p.2) 4 4 = g51_words.role.code) ∧
    (∀ p ∈ pieces 128 (16 / 128 + 2) ((0x100000 : DWord) + .ofNat 64 0x100).toNat 16, Reaches s51_words r0 .read 1
      (.ofNat 64 p.1) (.dev (0x2000000 + p.1)) ∧ s51_words.poisonedAt (.dev (0x2000000 + p.1)) p.2 = false ∧
      (AccKind.read = .write → s51_words.inUse (.dev (0x2000000 + p.1)) p.2 = false)) ∧
    (∀ p ∈ pieces 128 (16384 / 128 + 2) ((0x100000 : DWord) + .ofNat 64 (0x3B000 + 16384 * (63 - 32))).toNat 16384,
      Reaches s51_words r0 .read 1 (.ofNat 64 p.1) (.dev (0x2000000 + p.1)) ∧ s51_words.poisonedAt (.dev
      (0x2000000 + p.1)) p.2 = false ∧ (AccKind.read = .write → s51_words.inUse (.dev (0x2000000 + p.1)) p.2 =
      false)) :=
  ⟨holds_of (by decide +kernel),
    by decide +kernel,
    holds_of (by decide +kernel),
    by decide +kernel,
    unarmed_of (by decide +kernel),
    by decide +kernel,
    all_of (fun x : Nat × List Byte => openB s51_words .write (fun a => .dev (0x2000000 + a)) ((0x100000 : DWord) +
      .ofNat 64 x.1).toNat x.2.length) (fun x h => open_of h) (by decide +kernel),
    all_of (fun x : Nat × List Byte => openB s51_words .write (fun a => .dev (0x2000000 + a)) ((0x100000 : DWord) +
      .ofNat 64 x.1).toNat x.2.length) (fun x h => open_of h) (by decide +kernel),
    all_of (fun x : Nat × List Byte => openB s51_words .write (fun a => .dev (0x2000000 + a)) ((0x100000 : DWord) +
      .ofNat 64 x.1).toNat x.2.length) (fun x h => open_of h) (by decide +kernel),
    all_of (fun x : Nat × List Byte => openB s51_words .write (fun a => .dev (0x2000000 + a)) ((0x100000 : DWord) +
      .ofNat 64 x.1).toNat x.2.length) (fun x h => open_of h) (by decide +kernel),
    all_of (fun x : Nat × List Byte => openB s51_words .write (fun a => .dev (0x2000000 + a)) ((0x100000 : DWord) +
      .ofNat 64 x.1).toNat x.2.length) (fun x h => open_of h) (by decide +kernel),
    all_of (fun x : Nat × List Byte => openB s51_words .write (fun a => .dev (0x2000000 + a)) ((0x100000 : DWord) +
      .ofNat 64 x.1).toNat x.2.length) (fun x h => open_of h) (by decide +kernel),
    by decide +kernel,
    open_of (loc := fun a => .dev (0x2000000 + a)) (by decide +kernel),
    by decide +kernel,
    open_of (loc := fun a => .dev (0x2000000 + a)) (by decide +kernel),
    by decide +kernel,
    open_of (loc := fun a => .dev (0x2000000 + a)) (by decide +kernel),
    open_of (loc := fun a => .dev (0x2000000 + a)) (by decide +kernel),
    open_of (loc := fun a => .dev (0x2000000 + a)) (by decide +kernel),
    open_of (loc := fun a => .dev (0x2000000 + a)) (by decide +kernel),
    by decide +kernel,
    open_of (loc := fun a => .dev (0x2000000 + a)) (by decide +kernel),
    open_of (loc := fun a => .dev (0x2000000 + a)) (by decide +kernel)⟩

/-- A privileged group of a team being restored. -/
def gg51 : Group := { gp 8 with priv := true }
/-- The frame in held lines of host memory: its header, item 17, and the header of item 18, of save 0. -/
def mh51 : Memory := ((Memory.empty.write 0x5000000 (((w0.teamOf r0).header 1).take 32)).write 0x5000200 (item17 0)).write 0x5000A00
  (opaqueItem 0 0xA00 16)
/-- The team's frame in host memory, and the team as it was saved. -/
def hs51 : State :=
  let s := ctx (fun c => { c with save := 0xE000000, saveSz := 0x10000, frames := [(0, 0x10000, 0)] })
    (team (fun t => { t with phase := .restoring, frame := some 0 }) (paged (at_ gg51)))
  { s with hostLines := (List.range 32).map (0xA0000 + ·), hostMem := mh51, saved := [(w0.teamOf r0)] }
theorem mh51_one : (Memory.empty.write 0x5000000 (((w0.teamOf r0).header 1).take 32)).wf = true :=
  write_wf (m := Memory.empty) 0x5000000 _ empty_wf
theorem mh51_wf : ((Memory.empty.write 0x5000000 (((w0.teamOf r0).header 1).take 32)).write 0x5000200 (item17 0)).wf = true :=
  write_wf 0x5000200 (item17 0) mh51_one
theorem header51 : mh51.read 0x5000000 32 = ((w0.teamOf r0).header 1).take 32 := by
  have h : (((w0.teamOf r0).header 1).take 32).length = 32 := by decide +kernel
  rw [mh51, read_write_apart _ _ mh51_wf _ _ (.inl (by omega)), read_write_apart _ _ mh51_one _ _ (.inl (by omega)),
    read_back empty_wf h]
theorem item17_51 : mh51.read 0x5000200 2048 = item17 0 := by
  have h : (item17 0).length = 2048 := by simp [item17, opaqueItem, natLe]
  rw [mh51, read_write_apart _ _ mh51_wf _ _ (.inl (by omega)), read_back mh51_one h]
theorem item18_51 : mh51.read 0x5000A00 16 = opaqueItem 0 0xA00 16 := read_back mh51_wf (by simp [opaqueItem, natLe])
/-- Items 17 and 18 of a team with no captured operation, read back as they were saved, and its header. -/
theorem witness_PreemptionAndRestoring_opaque :
    Holds hs51 r0 gg51 ∧
    (gg51.priv = true ∧
      gg51.fwdOpen = [] ∧
      hs51.team? 0 = some (hs51.teamOf r0) ∧
      hs51.frameAt (hs51.teamOf r0) = some ((hs51.contexts.headD default), 0xE000000) ∧
      hs51.snapshot 0 = some (w0.teamOf r0) ∧
      (w0.teamOf r0).saveKey = 0) ∧
    (∀ p ∈ pieces 128 (2048 / 128 + 2) ((0xE000000 : DWord) + .ofNat 64 0x200).toNat 2048, Reaches hs51 r0 .read 1
      (.ofNat 64 p.1) (.host (p.1 - 0x9000000)) ∧ hs51.poisonedAt (.host (p.1 - 0x9000000)) p.2 = false ∧
      (AccKind.read = .write → hs51.inUse (.host (p.1 - 0x9000000)) p.2 = false)) ∧
    ((pieces 128 (2048 / 128 + 2) ((0xE000000 : DWord) + .ofNat 64 0x200).toNat 2048).flatMap fun p =>
      hs51.bytesAtLoc (.host (p.1 - 0x9000000)) p.2) = item17 0 ∧
    hs51.capturedParts 0 = [(0xA00, 16)] ∧
    (∀ p ∈ pieces 128 (16 / 128 + 2) ((0xE000000 : DWord) + .ofNat 64 0xA00).toNat 16, Reaches hs51 r0 .read 1
      (.ofNat 64 p.1) (.host (p.1 - 0x9000000)) ∧ hs51.poisonedAt (.host (p.1 - 0x9000000)) p.2 = false ∧
      (AccKind.read = .write → hs51.inUse (.host (p.1 - 0x9000000)) p.2 = false)) ∧
    ((pieces 128 (16 / 128 + 2) ((0xE000000 : DWord) + .ofNat 64 0xA00).toNat 16).flatMap fun p => hs51.bytesAtLoc
      (.host (p.1 - 0x9000000)) p.2) = opaqueItem 0 0xA00 16 ∧
    (∀ p ∈ pieces 128 (32 / 128 + 2) ((0xE000000 : DWord) + .ofNat 64 0).toNat 32, Reaches hs51 r0 .read 1 (.ofNat 64
      p.1) (.host (p.1 - 0x9000000)) ∧ hs51.poisonedAt (.host (p.1 - 0x9000000)) p.2 = false ∧ (AccKind.read =
      .write → hs51.inUse (.host (p.1 - 0x9000000)) p.2 = false)) ∧
    ((pieces 128 (32 / 128 + 2) ((0xE000000 : DWord) + .ofNat 64 0).toNat 32).flatMap fun p => hs51.bytesAtLoc
      (.host (p.1 - 0x9000000)) p.2) = ((w0.teamOf r0).header 1).take 32 ∧
    ((((w0.teamOf r0).header 1).take 32).take 12 = ((w0.teamOf r0).header 0).take 12 ∧ (((w0.teamOf r0).header
      1).take 32).drop 24 = (((w0.teamOf r0).header 0).drop 24).take 8) ∧
    item17 0 ≠ item17 1 :=
  ⟨holds_of (by decide +kernel),
    by decide +kernel,
    open_of (loc := fun a => .host (a - 0x9000000)) (by decide +kernel),
    (pieces_read (m := mh51) (a := 0x5000200) (n := 2048) (by decide +kernel)).trans item17_51,
    by decide +kernel,
    open_of (loc := fun a => .host (a - 0x9000000)) (by decide +kernel),
    (pieces_read (m := mh51) (a := 0x5000A00) (n := 16) (by decide +kernel)).trans item18_51,
    open_of (loc := fun a => .host (a - 0x9000000)) (by decide +kernel),
    (pieces_read (m := mh51) (a := 0x5000000) (n := 32) (by decide +kernel)).trans header51,
    by decide +kernel,
    fun h => absurd (congrArg List.head? h) (by simp [item17, opaqueItem, natLe])⟩

/-- A package of the witness of PreemptionAndRestoring. -/
def s51_leaving : State :=
  team (fun t => { t with scrBytes := 256, accRows := 0 }) (framed .saving (at_ { gp 8 with left := true }))
/-- A package of the witness of PreemptionAndRestoring. -/
def u51_leaving : State := framed .saving (at_ { gp 8 with left := false })
/-- A package of the witness of PreemptionAndRestoring. -/
def w51_leaving : State := { s51_leaving with poison := [0x2100000 / 64] }
/-- A team that has left with a window of 256 bytes, and one whose group has not. -/
theorem witness_PreemptionAndRestoring_leaving :
    (s51_leaving.team? 0 = some (s51_leaving.teamOf r0) ∧
      (s51_leaving.teamOf r0).phase = .saving ∧
      (∀ g ∈ (s51_leaving.teamOf r0).groups, g.ended = true ∨ g.left = true) ∧
      s51_leaving.draining (s51_leaving.teamOf r0) = false ∧
      s51_leaving.frameAt (s51_leaving.teamOf r0) = some ((s51_leaving.contexts.headD default), 0x100000) ∧
      s51_leaving.frameWaits (s51_leaving.teamOf r0) = false ∧
      ((s51_leaving.writeWindow (s51_leaving.contexts.headD default) 0x100000 (s51_leaving.teamOf r0)).bind fun s =>
        s.writeState (s51_leaving.contexts.headD default) 0x100000 (s51_leaving.teamOf r0) 2).isOk = true) ∧
    (w51_leaving.writeWindow (s51_leaving.contexts.headD default) 0x100000 (s51_leaving.teamOf r0)).bind (fun s =>
      s.writeState (s51_leaving.contexts.headD default) 0x100000 (s51_leaving.teamOf r0) 2) = .error (9, 1) ∧
    (u51_leaving.team? 0 = some (u51_leaving.teamOf r0) ∧
      (u51_leaving.teamOf r0).phase = .saving ∧
      (∃ g ∈ (u51_leaving.teamOf r0).groups, g.ended = false ∧ g.left = false)) :=
  ⟨by decide +kernel,
    error_of (by decide +kernel),
    by decide +kernel⟩

/-- A package of the witness of PreemptionAndRestoring. -/
def t51_restored : State :=
  team (fun t => { t with groups := [gp 8, { gp 5 with ended := true, budget := 512 }] }) (roomy (framed .saved w0))
/-- A package of the witness of PreemptionAndRestoring. -/
def s51_restored : State :=
  { poke 0x2100000 ((t51_restored.teamOf r0).header 2) t51_restored with teams := [], saved := [t51_restored.teamOf r0], disabled := ⟨[], [1, 2, 3, 4, 5, 6, 7], [], []⟩ }
/-- A saved team of two groups, one of which had ended, and room for it. -/
theorem witness_PreemptionAndRestoring_restored :
    (s51_restored.markEligible.placeClaimed = none ∧
      s51_restored.markEligible.firstClass.head? = some (.saved (s51_restored.saved.headD default)) ∧
      (s51_restored.saved.headD default).convoy = none ∧
      s51_restored.markEligible.grid? (s51_restored.saved.headD default).ctx (s51_restored.saved.headD default).serial
        = some (s51_restored.grids.headD default) ∧
      s51_restored.markEligible.frameAt (s51_restored.saved.headD default) = some ((s51_restored.contexts.headD
        default), 0x100000) ∧
      (s51_restored.markEligible.place (s51_restored.contexts.headD default) (s51_restored.markEligible.coresFor
        (s51_restored.contexts.headD default)) ((s51_restored.saved.headD default).need
        (s51_restored.grids.headD default))).isSome = true) ∧
    s51_restored.markEligible.headerOf (s51_restored.contexts.headD default) 0x100000 (s51_restored.saved.headD
      default) = .ok ([1024, 512], 2) :=
  ⟨by decide +kernel,
    ok_of (by decide +kernel)⟩

/-- A package of the witness of FlipsMigrationsAndReplies. -/
def s52 : State := up (paged w0)
/-- A package of the witness of FlipsMigrationsAndReplies. -/
def u52 : State := (s52.takeHost (⟨1, 16, 0, 0, 0, false⟩ : MsgHdr) 9).1
/-- A package of the witness of FlipsMigrationsAndReplies. -/
def b52 : State := { up (paged w0) with flips := [⟨0, 0xE000000, true, false, false⟩] }
/-- A package of the witness of FlipsMigrationsAndReplies. -/
def x52 : State := (b52.takeHost (⟨1, 16, 0, 0, 0, false⟩ : MsgHdr) 9).1
/-- A host page that no flip or migration holds, one that a flip holds, and a page of the device. -/
theorem witness_FlipsMigrationsAndReplies :
    Heard s52 u52 (⟨1, 16, 0, 0, 0, false⟩ : MsgHdr) (.flip 0xE000000 true) (u52.contexts.headD default) ∧
    u52.pageLeaf (u52.contexts.headD default) 0xE000000 = some ((u52.pageLeaf (u52.contexts.headD default)
      0xE000000).getD default) ∧
    (((u52.pageLeaf (u52.contexts.headD default) 0xE000000).getD default).own = 1 ∧
      (u52.flips.any (fun f => f.ctx == 0 && f.page == ((u52.pageLeaf (u52.contexts.headD default) 0xE000000).getD
        default).page 0xE000000) || u52.migs.any (fun m => m.ctx == 0 && m.page == ((u52.pageLeaf
        (u52.contexts.headD default) 0xE000000).getD default).page 0xE000000)) = false) ∧
    Heard s52 u52 (⟨1, 16, 0, 0, 0, false⟩ : MsgHdr) (.flip 0 true) (u52.contexts.headD default) ∧
    u52.pageLeaf (u52.contexts.headD default) 0 = some ((u52.pageLeaf (u52.contexts.headD default) 0).getD default) ∧
    ((u52.pageLeaf (u52.contexts.headD default) 0).getD default).own ≠ 1 ∧
    Heard b52 x52 (⟨1, 16, 0, 0, 0, false⟩ : MsgHdr) (.flip 0xE000000 true) (x52.contexts.headD default) ∧
    x52.pageLeaf (x52.contexts.headD default) 0xE000000 = some ((x52.pageLeaf (x52.contexts.headD default)
      0xE000000).getD default) ∧
    (((x52.pageLeaf (x52.contexts.headD default) 0xE000000).getD default).own = 1 ∧
      (x52.flips.any (fun f => f.ctx == 0 && f.page == ((x52.pageLeaf (x52.contexts.headD default) 0xE000000).getD
        default).page 0xE000000) || x52.migs.any (fun m => m.ctx == 0 && m.page == ((x52.pageLeaf
        (x52.contexts.headD default) 0xE000000).getD default).page 0xE000000)) = true) :=
  ⟨heard_of (by decide +kernel),
    some_getD (by decide +kernel),
    by decide +kernel,
    heard_of (by decide +kernel),
    some_getD (by decide +kernel),
    by decide +kernel,
    heard_of (by decide +kernel),
    some_getD (by decide +kernel),
    by decide +kernel⟩

/-- A package of the witness of FlipsMigrationsAndReplies. -/
def f52_completes : State := { paged w0 with flips := [⟨0, 0xE000000, true, false, false⟩] }
/-- A package of the witness of FlipsMigrationsAndReplies. -/
def w52_completes : State := { f52_completes with requests := [⟨3, 0, .host, .group r0 0, 0xE000000, none⟩] }
/-- A package of the witness of FlipsMigrationsAndReplies. -/
def d52_completes : State := { paged w0 with flips := [⟨0, 0xE000000, true, true, false⟩], hostDirty := [0xA0001] }
/-- A package of the witness of FlipsMigrationsAndReplies. -/
def e52_completes : State :=
  { paged w0 with flips := [⟨0, 0xE000000, true, true, false⟩], requests := [⟨3, 0, .host, .flip 0 0, 0, none⟩] }
/-- A package of the witness of FlipsMigrationsAndReplies. -/
def o52_completes : State := { paged w0 with flips := [⟨0, 0xE000000, false, true, false⟩] }
/-- A flip that waits for an outstanding access and one that begins; one that drains a dirty line, and one to the host and one from it that are done. -/
theorem witness_FlipsMigrationsAndReplies_completes :
    (w52_completes.flips.find? (fun f => f.ctx == 0 && f.page == 0xE000000) = some ⟨0, 0xE000000, true, false, false⟩ ∧
      w52_completes.context? 0 = some (w52_completes.contexts.headD default)) ∧
    w52_completes.pageLeaf (w52_completes.contexts.headD default) 0xE000000 = some ((w52_completes.pageLeaf
      (w52_completes.contexts.headD default) 0xE000000).getD default) ∧
    (w52_completes.pageBusy 0 ((w52_completes.pageLeaf (w52_completes.contexts.headD default) 0xE000000).getD
        default) 0xE000000 = true ∧
      f52_completes.flips.find? (fun f => f.ctx == 0 && f.page == 0xE000000) = some ⟨0, 0xE000000, true, false, false⟩ ∧
      f52_completes.context? 0 = some (f52_completes.contexts.headD default)) ∧
    f52_completes.pageLeaf (f52_completes.contexts.headD default) 0xE000000 = some ((f52_completes.pageLeaf
      (f52_completes.contexts.headD default) 0xE000000).getD default) ∧
    (f52_completes.pageBusy 0 ((f52_completes.pageLeaf (f52_completes.contexts.headD default) 0xE000000).getD
        default) 0xE000000 = false ∧
      f52_completes.mem.wf = true ∧
      d52_completes.flips.find? (fun f => f.ctx == 0 && f.page == 0xE000000) = some ⟨0, 0xE000000, true, true, false⟩ ∧
      d52_completes.context? 0 = some (d52_completes.contexts.headD default)) ∧
    d52_completes.pageLeaf (d52_completes.contexts.headD default) 0xE000000 = some ((d52_completes.pageLeaf
      (d52_completes.contexts.headD default) 0xE000000).getD default) ∧
    ((d52_completes.conn .host).down = false ∧
      (∃ n ∈ d52_completes.hostDirty, ((d52_completes.pageLeaf (d52_completes.contexts.headD default) 0xE000000).getD
        default).hostLine n = true) ∧
      e52_completes.flips.find? (fun f => f.ctx == 0 && f.page == 0xE000000) = some ⟨0, 0xE000000, true, true, false⟩ ∧
      e52_completes.context? 0 = some (e52_completes.contexts.headD default)) ∧
    e52_completes.pageLeaf (e52_completes.contexts.headD default) 0xE000000 = some ((e52_completes.pageLeaf
      (e52_completes.contexts.headD default) 0xE000000).getD default) ∧
    (e52_completes.held = [] ∧
      (∀ n ∈ e52_completes.hostDirty, ((e52_completes.pageLeaf (e52_completes.contexts.headD default) 0xE000000).getD
        default).hostLine n = false) ∧
      (∀ q ∈ e52_completes.requests, q.who ≠ .flip 0 0xE000000) ∧
      o52_completes.flips.find? (fun f => f.ctx == 0 && f.page == 0xE000000) = some ⟨0, 0xE000000, false, true, false⟩ ∧
      o52_completes.context? 0 = some (o52_completes.contexts.headD default)) ∧
    o52_completes.pageLeaf (o52_completes.contexts.headD default) 0xE000000 = some ((o52_completes.pageLeaf
      (o52_completes.contexts.headD default) 0xE000000).getD default) ∧
    (o52_completes.held = [] ∧
      (∀ n ∈ o52_completes.hostDirty, ((o52_completes.pageLeaf (o52_completes.contexts.headD default) 0xE000000).getD
        default).hostLine n = false) ∧
      (∀ q ∈ o52_completes.requests, q.who ≠ .flip 0 0xE000000)) :=
  ⟨by decide +kernel,
    some_getD (by decide +kernel),
    by decide +kernel,
    some_getD (by decide +kernel),
    by decide +kernel,
    some_getD (by decide +kernel),
    by decide +kernel,
    some_getD (by decide +kernel),
    by decide +kernel,
    some_getD (by decide +kernel),
    by decide +kernel⟩

/-- A package of the witness of FlipsMigrationsAndReplies. -/
def s52_moved : State := paged w0
/-- A package of the witness of FlipsMigrationsAndReplies. -/
def m52_moved : State := { paged w0 with hostLines := (List.range 512).map (0xA0000 + ·) }
/-- A package of the witness of FlipsMigrationsAndReplies. -/
def r52_moved : State := { paged w0 with migs := [⟨0, 0xE000000, 0x3010000, none, .asked⟩] }
/-- A package of the witness of FlipsMigrationsAndReplies. -/
def u52_moved : State := (r52_moved.takeReply (⟨1, 16, 0, 0, 0, false⟩ : MsgHdr)).1
/-- A page of the host that is asked for, and one whose lines are all held; the reply to the request. -/
theorem witness_FlipsMigrationsAndReplies_moved :
    s52_moved.context? 0 = some (s52_moved.contexts.headD default) ∧
    s52_moved.pageLeaf (s52_moved.contexts.headD default) 0x4000000 = some ((s52_moved.pageLeaf
      (s52_moved.contexts.headD default) 0x4000000).getD default) ∧
    (((s52_moved.pageLeaf (s52_moved.contexts.headD default) 0x4000000).getD default).own = 1 ∧
      0x2000000 % ((s52_moved.pageLeaf (s52_moved.contexts.headD default) 0x4000000).getD default).bytes = 0 ∧
      0x2000000 + ((s52_moved.pageLeaf (s52_moved.contexts.headD default) 0x4000000).getD default).bytes ≤
        s52_moved.memBytes ∧
      s52_moved.frozen 0 (((s52_moved.pageLeaf (s52_moved.contexts.headD default) 0x4000000).getD default).page
        0x4000000) = false ∧
      s52_moved.migs = [] ∧
      ((s52_moved.pageLeaf (s52_moved.contexts.headD default) 0x4000000).getD default).hostBias = true ∧
      (s52_moved.conn .host).down = false ∧
      m52_moved.context? 0 = some (m52_moved.contexts.headD default)) ∧
    m52_moved.pageLeaf (m52_moved.contexts.headD default) 0xE000000 = some ((m52_moved.pageLeaf
      (m52_moved.contexts.headD default) 0xE000000).getD default) ∧
    (((m52_moved.pageLeaf (m52_moved.contexts.headD default) 0xE000000).getD default).own = 1 ∧
      0x3010000 % ((m52_moved.pageLeaf (m52_moved.contexts.headD default) 0xE000000).getD default).bytes = 0 ∧
      0x3010000 + ((m52_moved.pageLeaf (m52_moved.contexts.headD default) 0xE000000).getD default).bytes ≤
        m52_moved.memBytes ∧
      m52_moved.frozen 0 (((m52_moved.pageLeaf (m52_moved.contexts.headD default) 0xE000000).getD default).page
        0xE000000) = false ∧
      m52_moved.migs = [] ∧
      ((m52_moved.pageLeaf (m52_moved.contexts.headD default) 0xE000000).getD default).hostBias = false ∧
      m52_moved.held = []) ∧
    (∀ n, ((m52_moved.pageLeaf (m52_moved.contexts.headD default) 0xE000000).getD default).hostLine n = true → n ∈
      m52_moved.hostLines) ∧
    ((∀ k ∈ m52_moved.hostPoison, ((m52_moved.pageLeaf (m52_moved.contexts.headD default) 0xE000000).getD
        default).hostLine (k / 2) = false) ∧
      m52_moved.mem.wf = true ∧
      m52_moved.pageBusy 0 ((m52_moved.pageLeaf (m52_moved.contexts.headD default) 0xE000000).getD default)
        (((m52_moved.pageLeaf (m52_moved.contexts.headD default) 0xE000000).getD default).page 0xE000000) =
        false ∧
      ((m52_moved.pageLeaf (m52_moved.contexts.headD default) 0xE000000).getD default).entry + 8 ≤ 0x3010000) ∧
    m52_moved.pageLeaf (m52_moved.contexts.headD default) (((m52_moved.pageLeaf (m52_moved.contexts.headD default)
      0xE000000).getD default).page 0xE000000) = some ((m52_moved.pageLeaf (m52_moved.contexts.headD default)
      0xE000000).getD default) ∧
    (r52_moved.takeReply (⟨1, 16, 0, 0, 0, false⟩ : MsgHdr) = (u52_moved, true) ∧
      (⟨0, 0xE000000, 0x3010000, none, .asked⟩ : Migration) ∈ u52_moved.migs) :=
  ⟨by decide +kernel,
    some_getD (by decide +kernel),
    by decide +kernel,
    some_getD (by decide +kernel),
    by decide +kernel,
    fun n h => by
      have e : ((m52_moved.pageLeaf (m52_moved.contexts.headD default) 0xE000000).getD default).frame = 0x5000000 ∧ ((m52_moved.pageLeaf (m52_moved.contexts.headD default) 0xE000000).getD default).bytes = 65536 := by decide +kernel
      simp only [Leaf.hostLine, e.1, e.2, Bool.and_eq_true, decide_eq_true_eq] at h
      rw [show m52_moved.hostLines = (List.range 512).map (0xA0000 + ·) from by decide +kernel]
      exact List.mem_map.2 ⟨n - 0xA0000, List.mem_range.2 (by omega), by omega⟩,
    by decide +kernel,
    (show m52_moved.pageLeaf (m52_moved.contexts.headD default) (((m52_moved.pageLeaf (m52_moved.contexts.headD
      default) 0xE000000).getD default).page 0xE000000) = m52_moved.pageLeaf (m52_moved.contexts.headD
      default) 0xE000000 from by decide +kernel).trans (some_getD (by decide +kernel)),
    by decide +kernel⟩

/-- A package of the witness of FlipsMigrationsAndReplies. -/
def n52_walks : State := paged w0
/-- A package of the witness of FlipsMigrationsAndReplies. -/
def l52_walks : State :=
  { paged w0 with walkers := [(⟨2, 0, 0xE000000, 0, 32, ((paged w0).mem.read (128 * 32) 128)⟩ : Walker)], tdir := [] }
/-- A package of the witness of FlipsMigrationsAndReplies. -/
def a52_walks : State :=
  { paged w0 with walkers := [(⟨2, 0, 0xE000000, 0, 32, []⟩ : Walker)], tdir := [⟨32, [7], [2]⟩] }
/-- A package of the witness of FlipsMigrationsAndReplies. -/
def d52_walks : State :=
  { paged w0 with walkers := [(⟨2, 0, 0xE000000, 2, 512, ((paged w0).mem.read (128 * 512) 128)⟩ : Walker)], tdir := [⟨512, [7], [2]⟩, ⟨1536, [4], []⟩] }
/-- A package of the witness of FlipsMigrationsAndReplies. -/
def e52_walks : State :=
  { paged w0 with walkers := [(⟨2, 0, 0xE000000, 3, 1536, ((paged w0).mem.read (128 * 1536) 128)⟩ : Walker)], tdir := [⟨1536, [7], [2]⟩] }
/-- A core that walks for nothing yet, one whose line was written since, one that has yet to read its line, one that goes down a level to a line that is recorded, and one at the leaf. -/
theorem witness_FlipsMigrationsAndReplies_walks :
    n52_walks.context? 0 = some (n52_walks.contexts.headD default) ∧
      n52_walks.walkers.find? (fun w => w.core == 2 && w.ctx == 0 && w.va == 0xE000000) = none ∧
      l52_walks.context? 0 = some (l52_walks.contexts.headD default) ∧
      l52_walks.walkers.find? (fun w => w.core == 2 && w.ctx == 0 && w.va == 0xE000000) = some (⟨2, 0, 0xE000000, 0,
        32, ((paged w0).mem.read (128 * 32) 128)⟩ : Walker) ∧
      l52_walks.marked 2 32 = false ∧
      a52_walks.context? 0 = some (a52_walks.contexts.headD default) ∧
      a52_walks.walkers.find? (fun w => w.core == 2 && w.ctx == 0 && w.va == 0xE000000) = some (⟨2, 0, 0xE000000, 0,
        32, []⟩ : Walker) ∧
      a52_walks.marked 2 32 = true ∧
      d52_walks.context? 0 = some (d52_walks.contexts.headD default) ∧
      d52_walks.walkers.find? (fun w => w.core == 2 && w.ctx == 0 && w.va == 0xE000000) = some (⟨2, 0, 0xE000000, 2,
        512, ((paged w0).mem.read (128 * 512) 128)⟩ : Walker) ∧
      d52_walks.marked 2 512 = true ∧
      (⟨2, 0, 0xE000000, 2, 512, ((paged w0).mem.read (128 * 512) 128)⟩ : Walker).bytes ≠ [] ∧
      d52_walks.nextLine (⟨2, 0, 0xE000000, 2, 512, ((paged w0).mem.read (128 * 512) 128)⟩ : Walker) = some 1536 ∧
      d52_walks.tdir.any (·.line == 1536) = true ∧
      e52_walks.context? 0 = some (e52_walks.contexts.headD default) ∧
      e52_walks.walkers.find? (fun w => w.core == 2 && w.ctx == 0 && w.va == 0xE000000) = some (⟨2, 0, 0xE000000, 3,
        1536, ((paged w0).mem.read (128 * 1536) 128)⟩ : Walker) ∧
      e52_walks.marked 2 1536 = true ∧
      (⟨2, 0, 0xE000000, 3, 1536, ((paged w0).mem.read (128 * 1536) 128)⟩ : Walker).bytes ≠ [] ∧
      e52_walks.nextLine (⟨2, 0, 0xE000000, 3, 1536, ((paged w0).mem.read (128 * 1536) 128)⟩ : Walker) = none :=
  by decide +kernel

/-- A group of the witness of FlipsMigrationsAndReplies. -/
def g52_replies : Group := { gp 8 with fwdOpen := [2, 3], wait := .forwarded }
/-- A package of the witness of FlipsMigrationsAndReplies. -/
def s52_replies : State := { paged (at_ g52_replies) with requests := [⟨3, 0, .host, .group r0 2, 0, some 0x80005⟩] }
/-- A package of the witness of FlipsMigrationsAndReplies. -/
def u52_replies : State := (s52_replies.takeReply (⟨1, 16, 0, 0, 0, false⟩ : MsgHdr)).1
/-- The reply to a forwarded access of a group that fetches a line; a core whose clock advances. -/
theorem witness_FlipsMigrationsAndReplies_replies :
    s52_replies.takeReply (⟨1, 16, 0, 0, 0, false⟩ : MsgHdr) = (u52_replies, true) ∧
      u52_replies.held = [] ∧
      u52_replies.migs = [] ∧
      u52_replies.requests.find? (fun q => q.id == 3 && q.conn == .host) = some ⟨3, 0, .host, .group r0 2, 0, some
        0x80005⟩ ∧
      u52_replies.group? r0 = some g52_replies ∧
      2 ∈ g52_replies.fwdOpen ∧
      (List.replicate 128 (0 : Byte)).length = 128 ∧
      u52_replies.hostLines.contains 0x80005 = false ∧
      u52_replies.hostMem.wf = true ∧
      (s52_replies.contexts.map (·.num)).Nodup ∧
      s52_replies.contexts.any (·.num == 0) = true :=
  by decide +kernel

/-- A group of the witness of FlipsMigrationsAndReplies. -/
def g52_stalls : Group := { gp 8 with wait := .manifest }
/-- A package of the witness of FlipsMigrationsAndReplies. -/
def s52_stalls : State := ctx (fun c => { c with maniStall := 4 }) (served 1 (at_ g52_stalls))
/-- A package of the witness of FlipsMigrationsAndReplies. -/
def o52_stalls : State :=
  { poke 0x2031018 [69] (ctx (fun c => { c with maniStall := 4 }) (served 1 w0)) with ops := [opOf (.cpy 0x20000 0x100 16 1 0 0 false)], lines := [⟨none, 263168, 0, 0, [⟨⟨1, false, false, false, 0, 1, 0⟩, 101, true, 2 ^ 256 - 1⟩]⟩] }
/-- A group that waits on the manifest, whose owners have and have not performed accesses, and none but a copy whose race waits for a full manifest; a group whose turn a match gives. -/
theorem witness_FlipsMigrationsAndReplies_stalls :
    (s52_stalls.context? 0 = some (s52_stalls.contexts.headD default) ∧
      ((s52_stalls.contexts.headD default).recMode ≠ 0 ∧ (s52_stalls.contexts.headD default).maniStall ≠ 0) ∧
      s52_stalls.maniCount (s52_stalls.contexts.headD default) 0x10 = some 101 ∧
      (s52_stalls.teams.map (·.tid)).Nodup) ∧
    (∃ t, s52_stalls.team? r0.tid = some t ∧ t.ctx = 0 ∧ s52_stalls.group? r0 = some g52_stalls ∧ g52_stalls.wait =
      .manifest ∧ g52_stalls.priv = false) ∧
    (g52_stalls.doneAway = false ∧
      (({ g52_stalls with fwd := [⟨0, 0, []⟩] } : Group).doneAway = true ∧ ({ g52_stalls with fwd := [⟨0, 0, []⟩] } :
        Group).ended = false ∧ ({ g52_stalls with fwd := [⟨0, 0, []⟩] } : Group).wait = .manifest) ∧
      s52_stalls.waitOf r0 = .manifest ∧
      o52_stalls.context? 0 = some (o52_stalls.contexts.headD default) ∧
      ((o52_stalls.contexts.headD default).recMode ≠ 0 ∧ (o52_stalls.contexts.headD default).maniStall ≠ 0) ∧
      o52_stalls.maniCount (o52_stalls.contexts.headD default) 0x10 = some 101 ∧
      (o52_stalls.teams.map (·.tid)).Nodup ∧
      (∀ t ∈ o52_stalls.teams, ∀ g ∈ t.groups, g.wait ≠ .manifest) ∧
      (∀ t ∈ o52_stalls.teams, ∀ g ∈ t.groups, g.priv = false) ∧
      (∃ o ∈ o52_stalls.ops, o.tid = 0 ∧ o52_stalls.heldOp 0 o = true) ∧
      ((o52_stalls.teamOf r0).groups[0]? = some g0 ∧ g0.ended = false ∧ g0.trapDue = none)) :=
  ⟨by decide +kernel,
    ⟨s52_stalls.teamOf r0, by decide +kernel⟩,
    by decide +kernel⟩

/-- A package of the witness of HostAndPeerMessages. -/
def s53 : State := up (served 0 w0)
/-- A package of the witness of HostAndPeerMessages. -/
def u53 : State := (s53.takeHost (⟨1, 16, 0, 0, 0, false⟩ : MsgHdr) 6).1
/-- Windows that may and may not be opened; reads and writes of a whole line, at the end of a window and beyond it; a kind that is not known. -/
theorem witness_HostAndPeerMessages :
    Heard s53 u53 (⟨1, 16, 0, 0, 0, false⟩ : MsgHdr) (.wopen 15 0x20000 2) (u53.contexts.headD default) ∧
    Heard s53 u53 (⟨1, 16, 0, 0, 0, false⟩ : MsgHdr) (.wopen 16 0x20000 2) (u53.contexts.headD default) ∧
    Heard s53 u53 (⟨1, 16, 0, 0, 0, false⟩ : MsgHdr) (.wopen 1 0x20001 2) (u53.contexts.headD default) ∧
    Heard s53 u53 (⟨1, 16, 0, 0, 0, false⟩ : MsgHdr) (.wopen 1 0x8000000000000000 2) (u53.contexts.headD default) ∧
    (((0x20000 : DWord).toNat % 65536 = 0 ∧ canonical 0x20000 = true) ∧
      (0x20001 : DWord).toNat % 65536 ≠ 0 ∧
      canonical 0x8000000000000000 = false) ∧
    Heard s53 u53 (⟨1, 16, 0, 0, 0, false⟩ : MsgHdr) (.wread 2 0 1) (u53.contexts.headD default) ∧
    Heard s53 u53 (⟨1, 16, 0, 0, 0, false⟩ : MsgHdr) (.wwrite 2 0 (List.replicate 1 (0 : Byte))) (u53.contexts.headD
      default) ∧
    Heard s53 u53 (⟨1, 16, 0, 0, 0, false⟩ : MsgHdr) (.wread 1 65536 1) (u53.contexts.headD default) ∧
    Heard s53 u53 (⟨1, 16, 0, 0, 0, false⟩ : MsgHdr) (.wwrite 1 65536 (List.replicate 1 (0 : Byte)))
      (u53.contexts.headD default) ∧
    Heard s53 u53 (⟨1, 16, 0, 0, 0, false⟩ : MsgHdr) (.wread 1 1 128) (u53.contexts.headD default) ∧
    Heard s53 u53 (⟨1, 16, 0, 0, 0, false⟩ : MsgHdr) (.wwrite 1 1 (List.replicate 128 (0 : Byte)))
      (u53.contexts.headD default) ∧
    Heard s53 u53 (⟨1, 16, 0, 0, 0, false⟩ : MsgHdr) (.wread 1 0 128) (u53.contexts.headD default) ∧
    Heard s53 u53 (⟨1, 16, 0, 0, 0, false⟩ : MsgHdr) (.wwrite 1 0 (List.replicate 128 (0 : Byte)))
      (u53.contexts.headD default) ∧
    Heard s53 u53 (⟨1, 16, 0, 0, 0, false⟩ : MsgHdr) (.wread 1 65535 1) (u53.contexts.headD default) ∧
    Heard s53 u53 (⟨1, 16, 0, 0, 0, false⟩ : MsgHdr) (.wwrite 1 65535 (List.replicate 1 (0 : Byte)))
      (u53.contexts.headD default) ∧
    (u53.contexts.headD default).windowAt 2 0 1 = .error 4 ∧
    (u53.contexts.headD default).windowAt 1 65536 1 = .error 2 ∧
    (u53.contexts.headD default).windowAt 1 1 128 = .error 0xFFFF ∧
    (u53.contexts.headD default).windowAt 1 0 128 = .ok 0x20000 ∧
    (u53.contexts.headD default).windowAt 1 65535 1 = .ok 0x2FFFF ∧
    (u53.held = [] ∧
      (((u53.contexts.headD default).recMode = 1 → ∀ m ∈ u53.lines, m.touches = [])) ∧
      (∀ x ∈ u53.grids, x.ctx = (u53.contexts.headD default).num → x.retired = false → x.stage = 0) ∧
      u53.ownedElsewhere (u53.contexts.headD default) 7 0x20000 128 .read = false) ∧
    (∃ bs, (View.read ⟨u53, (u53.contexts.headD default), []⟩ 0x20000 128).Gives bs ∧ bs.length = 128) ∧
    u53.ownedElsewhere (u53.contexts.headD default) 8 0x20000 128 .write = false ∧
    (∀ p ∈ linePieces 0x20000 128, (View.dest ⟨u53, (u53.contexts.headD default), []⟩ p.1 p.2).Gives (.here (.dev
      (0x2000000 + p.1.toNat))) ∧ u53.poisonedAt (.dev (0x2000000 + p.1.toNat)) p.2 = false) ∧
    u53.ownedElsewhere (u53.contexts.headD default) 7 0x2FFFF 1 .read = false ∧
    (∃ bs, (View.read ⟨u53, (u53.contexts.headD default), []⟩ 0x2FFFF 1).Gives bs ∧ bs.length = 1) ∧
    u53.ownedElsewhere (u53.contexts.headD default) 8 0x2FFFF 1 .write = false ∧
    (∀ p ∈ linePieces 0x2FFFF 1, (View.dest ⟨u53, (u53.contexts.headD default), []⟩ p.1 p.2).Gives (.here (.dev
      (0x2000000 + p.1.toNat))) ∧ u53.poisonedAt (.dev (0x2000000 + p.1.toNat)) p.2 = false) ∧
    Taken s53 u53 (⟨1, 16, 0, 0, 0, false⟩ : MsgHdr) (.unknownMessage 99) :=
  ⟨heard_of (by decide +kernel),
    heard_of (by decide +kernel),
    heard_of (by decide +kernel),
    heard_of (by decide +kernel),
    by decide +kernel,
    heard_of (by decide +kernel),
    heard_of (by decide +kernel),
    heard_of (by decide +kernel),
    heard_of (by decide +kernel),
    heard_of (by decide +kernel),
    heard_of (by decide +kernel),
    heard_of (by decide +kernel),
    heard_of (by decide +kernel),
    heard_of (by decide +kernel),
    heard_of (by decide +kernel),
    error_of (by decide +kernel),
    error_of (by decide +kernel),
    error_of (by decide +kernel),
    ok_of (by decide +kernel),
    ok_of (by decide +kernel),
    by decide +kernel,
    read_of (read_steady _ _ _) (by decide +kernel),
    by decide +kernel,
    all_of (fun p : DWord × Nat => destB ⟨u53, (u53.contexts.headD default), []⟩ p.1 p.2 (.dev (0x2000000 +
      p.1.toNat))) (fun p h => dest_of h) (by decide +kernel),
    by decide +kernel,
    read_of (read_steady _ _ _) (by decide +kernel),
    by decide +kernel,
    all_of (fun p : DWord × Nat => destB ⟨u53, (u53.contexts.headD default), []⟩ p.1 p.2 (.dev (0x2000000 +
      p.1.toNat))) (fun p h => dest_of h) (by decide +kernel),
    taken_of (by decide +kernel)⟩

/-- A package of the witness of HostAndPeerMessages. -/
def s53_drains : State := up (served 1 w0)
/-- A package of the witness of HostAndPeerMessages. -/
def u53_drains : State := (s53_drains.takeHost (⟨1, 16, 0, 0, 0, false⟩ : MsgHdr) 11).1
/-- A package of the witness of HostAndPeerMessages. -/
def q53_drains : State := up (served 0 w0)
/-- A package of the witness of HostAndPeerMessages. -/
def x53_drains : State := (q53_drains.takeHost (⟨1, 16, 0, 0, 0, false⟩ : MsgHdr) 11).1
/-- A manifest of one record and a want ring of two, drained; a ring that is neither, and a context that does not record. -/
theorem witness_HostAndPeerMessages_drains :
    Heard s53_drains u53_drains (⟨1, 16, 0, 0, 0, false⟩ : MsgHdr) (.drain 0 5) (u53_drains.contexts.headD default) ∧
    Heard s53_drains u53_drains (⟨1, 16, 0, 0, 0, false⟩ : MsgHdr) (.drain 1 5) (u53_drains.contexts.headD default) ∧
    Heard s53_drains u53_drains (⟨1, 16, 0, 0, 0, false⟩ : MsgHdr) (.drain 2 5) (u53_drains.contexts.headD default) ∧
    (u53_drains.held = [] ∧
      (((u53_drains.contexts.headD default).recMode = 1 → ∀ m ∈ u53_drains.lines, m.touches = [])) ∧
      (∀ x ∈ u53_drains.grids, x.ctx = (u53_drains.contexts.headD default).num → x.retired = false → x.stage = 0) ∧
      (u53_drains.contexts.headD default).recMode = 1 ∧
      ((u53_drains.contexts.headD default).mani, (u53_drains.contexts.headD default).maniBase,
        (u53_drains.contexts.headD default).maniLog, (u53_drains.contexts.headD default).wpr) = (0x31000,
        0x38000, 5, 0x30000)) ∧
    (drainCounts ⟨u53_drains, (u53_drains.contexts.headD default), []⟩ 0x31000).Gives (some (101, 100)) ∧
    (∀ i, i < 1 → (View.read ⟨u53_drains, (u53_drains.contexts.headD default), []⟩ (0x38000 + .ofNat 64 (32 * ((100 +
      i) % 2 ^ 5))) 32).Gives ((List.replicate 1 (List.replicate 32 0)).getD i [])) ∧
    (∀ p ∈ linePieces (0x31000 + 0x18) 8, (View.dest ⟨u53_drains, (u53_drains.contexts.headD default), []⟩ p.1
      p.2).Gives (.here (.dev (0x2000000 + p.1.toNat))) ∧ u53_drains.poisonedAt (.dev (0x2000000 + p.1.toNat))
      p.2 = false) ∧
    (wantRing ⟨u53_drains, (u53_drains.contexts.headD default), []⟩).Gives (some ⟨0x34000, 10, 12, 10⟩) ∧
    (drainCounts ⟨u53_drains, (u53_drains.contexts.headD default), []⟩ 0x30000).Gives (some (12, 10)) ∧
    (∀ i, i < 2 → (View.read ⟨u53_drains, (u53_drains.contexts.headD default), []⟩ (0x34000 + .ofNat 64 (16 * ((10 +
      i) % 2 ^ 10))) 16).Gives ((List.replicate 2 (List.replicate 16 0)).getD i [])) ∧
    (∀ p ∈ linePieces (0x30000 + 0x18) 8, (View.dest ⟨u53_drains, (u53_drains.contexts.headD default), []⟩ p.1
      p.2).Gives (.here (.dev (0x2000000 + p.1.toNat))) ∧ u53_drains.poisonedAt (.dev (0x2000000 + p.1.toNat))
      p.2 = false) ∧
    Heard q53_drains x53_drains (⟨1, 16, 0, 0, 0, false⟩ : MsgHdr) (.drain 0 5) (x53_drains.contexts.headD default) ∧
    (x53_drains.held = [] ∧
      (x53_drains.contexts.headD default).recMode ≠ 1) :=
  ⟨heard_of (by decide +kernel),
    heard_of (by decide +kernel),
    heard_of (by decide +kernel),
    by decide +kernel,
    gives_eq (drainCounts_steady _ _) (by decide +kernel),
    by
      intro i hi
      obtain rfl : i = 0 := by omega
      exact gives_eq (read_steady _ _ _) (by decide +kernel),
    all_of (fun p : DWord × Nat => destB ⟨u53_drains, (u53_drains.contexts.headD default), []⟩ p.1 p.2 (.dev
      (0x2000000 + p.1.toNat))) (fun p h => dest_of h) (by decide +kernel),
    gives_eq (wantRing_steady _) (by decide +kernel),
    gives_eq (drainCounts_steady _ _) (by decide +kernel),
    by
      intro i hi
      obtain rfl | rfl : i = 0 ∨ i = 1 := by omega
      all_goals exact gives_eq (read_steady _ _ _) (by decide +kernel),
    all_of (fun p : DWord × Nat => destB ⟨u53_drains, (u53_drains.contexts.headD default), []⟩ p.1 p.2 (.dev
      (0x2000000 + p.1.toNat))) (fun p h => dest_of h) (by decide +kernel),
    heard_of (by decide +kernel),
    by decide +kernel⟩

/-- A package of the witness of HostAndPeerMessages. -/
def s53_supplies : State := poke 0x2031010 [100, 0, 0, 0, 0, 0, 0, 0, 100] (up (served 2 w0))
/-- A package of the witness of HostAndPeerMessages. -/
def u53_supplies : State := (s53_supplies.takeHost (⟨1, 16, 0, 0, 0, false⟩ : MsgHdr) 12).1
/-- A package of the witness of HostAndPeerMessages. -/
def q53_supplies : State := poke 0x2031010 [100, 0, 0, 0, 0, 0, 0, 0, 101] (up (served 2 w0))
/-- A package of the witness of HostAndPeerMessages. -/
def x53_supplies : State := (q53_supplies.takeHost (⟨1, 16, 0, 0, 0, false⟩ : MsgHdr) 12).1
/-- A package of the witness of HostAndPeerMessages. -/
def n53_supplies : State := up (served 1 w0)
/-- A package of the witness of HostAndPeerMessages. -/
def y53_supplies : State := (n53_supplies.takeHost (⟨1, 16, 0, 0, 0, false⟩ : MsgHdr) 12).1
/-- Thirty-two records for a manifest with room for them, for one with none, and for a context that does not replay; thirty-three records. -/
theorem witness_HostAndPeerMessages_supplies :
    Heard s53_supplies u53_supplies (⟨1, 16, 0, 0, 0, false⟩ : MsgHdr) (.supply (List.replicate 32 (List.replicate
      32 (0 : Byte)))) (u53_supplies.contexts.headD default) ∧
    Heard s53_supplies u53_supplies (⟨1, 16, 0, 0, 0, false⟩ : MsgHdr) (.supply (List.replicate 33 (List.replicate
      32 (0 : Byte)))) (u53_supplies.contexts.headD default) ∧
    (u53_supplies.held = [] ∧
      (∀ x ∈ u53_supplies.grids, x.ctx = (u53_supplies.contexts.headD default).num → x.retired = false → x.stage = 0) ∧
      (List.replicate 32 (List.replicate 32 (0 : Byte))).length ≤ 32 ∧
      32 < (List.replicate 33 (List.replicate 32 (0 : Byte))).length ∧
      (∀ x ∈ (List.replicate 32 (List.replicate 32 (0 : Byte))), x.length = 32) ∧
      (u53_supplies.contexts.headD default).recMode = 2) ∧
    (drainCounts ⟨u53_supplies, (u53_supplies.contexts.headD default), []⟩ (u53_supplies.contexts.headD
      default).mani).Gives (some (100, 100)) ∧
    100 - 100 + (List.replicate 32 (List.replicate 32 (0 : Byte))).length ≤ 2 ^ (u53_supplies.contexts.headD
      default).maniLog ∧
    (∀ w ∈ ((List.replicate 32 (List.replicate 32 (0 : Byte))).zipIdx.map (fun (r, i) =>
      ((u53_supplies.contexts.headD default).recordAddr (100 + i), r)) ++ [((u53_supplies.contexts.headD
      default).mani + 0x18, natLe 8 132)]), ∀ p ∈ linePieces w.1 w.2.length, (View.dest ⟨u53_supplies,
      (u53_supplies.contexts.headD default), []⟩ p.1 p.2).Gives (.here (.dev (0x2000000 + p.1.toNat))) ∧
      u53_supplies.poisonedAt (.dev (0x2000000 + p.1.toNat)) p.2 = false) ∧
    Heard q53_supplies x53_supplies (⟨1, 16, 0, 0, 0, false⟩ : MsgHdr) (.supply (List.replicate 32 (List.replicate
      32 (0 : Byte)))) (x53_supplies.contexts.headD default) ∧
    (x53_supplies.held = [] ∧
      (x53_supplies.contexts.headD default).recMode = 2) ∧
    (drainCounts ⟨x53_supplies, (x53_supplies.contexts.headD default), []⟩ (x53_supplies.contexts.headD
      default).mani).Gives (some (100, 101)) ∧
    2 ^ (x53_supplies.contexts.headD default).maniLog < 101 - 100 + (List.replicate 32 (List.replicate 32 (0 :
      Byte))).length ∧
    Heard n53_supplies y53_supplies (⟨1, 16, 0, 0, 0, false⟩ : MsgHdr) (.supply (List.replicate 32 (List.replicate
      32 (0 : Byte)))) (y53_supplies.contexts.headD default) ∧
    (y53_supplies.held = [] ∧
      (y53_supplies.contexts.headD default).recMode ≠ 2) :=
  ⟨heard_of (by decide +kernel),
    heard_of (by decide +kernel),
    by decide +kernel,
    gives_eq (drainCounts_steady _ _) (by decide +kernel),
    by decide +kernel,
    all_of (fun w : DWord × List Byte => (linePieces w.1 w.2.length).all fun p => destB ⟨u53_supplies,
      (u53_supplies.contexts.headD default), []⟩ p.1 p.2 (.dev (0x2000000 + p.1.toNat))) (fun w h => all_of _
      (fun p h => dest_of h) h) (by decide +kernel),
    heard_of (by decide +kernel),
    by decide +kernel,
    gives_eq (drainCounts_steady _ _) (by decide +kernel),
    by decide +kernel,
    heard_of (by decide +kernel),
    by decide +kernel⟩

/-- A package of the witness of HostAndPeerMessages. -/
def s53_transfers : State := up (served 0 w0)
/-- A package of the witness of HostAndPeerMessages. -/
def u53_transfers : State := (s53_transfers.takePeer (⟨1, 16, 0, 0, 2, 0, false⟩ : PeerHdr)).1
/-- Transfers of each length at the ends of its range and beyond it, and forwarded reads and writes inside a line. -/
theorem witness_HostAndPeerMessages_transfers :
    HeardPeer s53_transfers u53_transfers (⟨1, 16, 0, 0, 2, 0, false⟩ : PeerHdr) (u53_transfers.contexts.headD
      default) ∧
    (transferLength 64 = true ∧
      transferLength 256 = true ∧
      transferLength 0 = false ∧
      transferLength 257 = false ∧
      u53_transfers.held = [] ∧
      (((u53_transfers.contexts.headD default).recMode = 1 → ∀ m ∈ u53_transfers.lines, m.touches = [])) ∧
      (∀ x ∈ u53_transfers.grids, x.ctx = (u53_transfers.contexts.headD default).num → x.retired = false → x.stage = 0) ∧
      u53_transfers.ownedElsewhere (u53_transfers.contexts.headD default) 33 0x20000 256 .read = false) ∧
    (∃ bs, (View.read ⟨u53_transfers, (u53_transfers.contexts.headD default), []⟩ 0x20000 256).Gives bs ∧ bs.length =
      256) ∧
    u53_transfers.ownedElsewhere (u53_transfers.contexts.headD default) 32 0x20000 256 .write = false ∧
    (∀ p ∈ linePieces 0x20000 256, (View.dest ⟨u53_transfers, (u53_transfers.contexts.headD default), []⟩ p.1
      p.2).Gives (.here (.dev (0x2000000 + p.1.toNat))) ∧ u53_transfers.poisonedAt (.dev (0x2000000 +
      p.1.toNat)) p.2 = false) ∧
    ((1 ≤ 128 ∧ (0x20000 : DWord).toNat % 128 + 128 ≤ 128) ∧
      (1 ≤ 1 ∧ (0x2007F : DWord).toNat % 128 + 1 ≤ 128) ∧
      u53_transfers.ownedElsewhere (u53_transfers.contexts.headD default) 35 0x20000 128 .read = false) ∧
    (∃ bs, (View.read ⟨u53_transfers, (u53_transfers.contexts.headD default), []⟩ 0x20000 128).Gives bs ∧ bs.length =
      128) ∧
    u53_transfers.ownedElsewhere (u53_transfers.contexts.headD default) 35 0x2007F 1 .read = false ∧
    (∃ bs, (View.read ⟨u53_transfers, (u53_transfers.contexts.headD default), []⟩ 0x2007F 1).Gives bs ∧ bs.length = 1) ∧
    u53_transfers.ownedElsewhere (u53_transfers.contexts.headD default) 35 0x20000 128 .write = false ∧
    (∀ p ∈ linePieces 0x20000 128, (View.dest ⟨u53_transfers, (u53_transfers.contexts.headD default), []⟩ p.1
      p.2).Gives (.here (.dev (0x2000000 + p.1.toNat))) ∧ u53_transfers.poisonedAt (.dev (0x2000000 +
      p.1.toNat)) p.2 = false) ∧
    u53_transfers.ownedElsewhere (u53_transfers.contexts.headD default) 35 0x2007F 1 .write = false ∧
    (∀ p ∈ linePieces 0x2007F 1, (View.dest ⟨u53_transfers, (u53_transfers.contexts.headD default), []⟩ p.1
      p.2).Gives (.here (.dev (0x2000000 + p.1.toNat))) ∧ u53_transfers.poisonedAt (.dev (0x2000000 +
      p.1.toNat)) p.2 = false) :=
  ⟨heardPeer_of (by decide +kernel),
    by decide +kernel,
    read_of (read_steady _ _ _) (by decide +kernel),
    by decide +kernel,
    all_of (fun p : DWord × Nat => destB ⟨u53_transfers, (u53_transfers.contexts.headD default), []⟩ p.1 p.2 (.dev
      (0x2000000 + p.1.toNat))) (fun p h => dest_of h) (by decide +kernel),
    by decide +kernel,
    read_of (read_steady _ _ _) (by decide +kernel),
    by decide +kernel,
    read_of (read_steady _ _ _) (by decide +kernel),
    by decide +kernel,
    all_of (fun p : DWord × Nat => destB ⟨u53_transfers, (u53_transfers.contexts.headD default), []⟩ p.1 p.2 (.dev
      (0x2000000 + p.1.toNat))) (fun p h => dest_of h) (by decide +kernel),
    by decide +kernel,
    all_of (fun p : DWord × Nat => destB ⟨u53_transfers, (u53_transfers.contexts.headD default), []⟩ p.1 p.2 (.dev
      (0x2000000 + p.1.toNat))) (fun p h => dest_of h) (by decide +kernel)⟩

/-- A package of the witness of HostAndPeerMessages. -/
def s53_atomics : State := up (served 0 w0)
/-- A package of the witness of HostAndPeerMessages. -/
def u53_atomics : State := (s53_atomics.takePeer (⟨1, 16, 0, 0, 2, 0, false⟩ : PeerHdr)).1
/-- A package of the witness of HostAndPeerMessages. -/
def a53_atomics : State :=
  { poke 0x2030000 (natLe 64 1) (poke 0x2030040 (natLe 8 0x20000 ++ natLe 4 8 ++ [0, 8, 1, 0] ++ natLe 4 2 ++ natLe 4 1 ++ natLe 4 (2 ^ 31) ++ natLe 4 0 ++ natLe 8 0x100 ++ natLe 8 0x200) (up (served 0 w0))) with grids := w0.grids.map fun x => { x with stage := 0x30000, stageB := 0x1000 } }
/-- A package of the witness of HostAndPeerMessages. -/
def b53_atomics : State := (a53_atomics.takePeer (⟨1, 16, 0, 0, 2, 0, false⟩ : PeerHdr)).1
/-- A forwarded half of a byte and a spoilt byte, word and pair atomics, contributions of 0, 1, 256 and 257 elements and one of eight that an armed descriptor takes, and kinds that are reserved and that are not. -/
theorem witness_HostAndPeerMessages_atomics :
    HeardPeer s53_atomics u53_atomics (⟨1, 16, 0, 0, 2, 0, false⟩ : PeerHdr) (u53_atomics.contexts.headD default) ∧
    (u53_atomics.held = [] ∧
      (((u53_atomics.contexts.headD default).recMode = 1 → ∀ m ∈ u53_atomics.lines, m.touches = [])) ∧
      (∀ x ∈ u53_atomics.grids, x.ctx = (u53_atomics.contexts.headD default).num → x.retired = false → x.stage = 0) ∧
      u53_atomics.ownedElsewhere (u53_atomics.contexts.headD default) 35 0x20000 1 .write = false) ∧
    u53_atomics.locOf (u53_atomics.contexts.headD default) 0x20000 .write = .ok (.dev 0x2020000) ∧
    (u53_atomics.poisonedAt (.dev 0x2020000) 1 = false ∧
      u53_atomics.inUse (.dev 0x2020000) 1 = false ∧
      ([5] : List Byte).length = 1 ∧
      atomicBytes 0x37 7 2 = some (4, 8) ∧
      atomicBytes 0x38 4 8 = some (8, 8) ∧
      ([1, 0, 0, 0, 2, 0, 0, 0] : List Byte).length = 8 ∧
      (0x20000 : DWord).toNat % 8 = 0 ∧
      u53_atomics.ownedElsewhere (u53_atomics.contexts.headD default) 35 0x20000 4 .rmw = false ∧
      u53_atomics.poisonedAt (.dev 0x2020000) 4 = false ∧
      u53_atomics.inUse (.dev 0x2020000) 4 = false ∧
      u53_atomics.ownedElsewhere (u53_atomics.contexts.headD default) 35 0x20000 8 .rmw = false ∧
      u53_atomics.poisonedAt (.dev 0x2020000) 8 = false ∧
      u53_atomics.inUse (.dev 0x2020000) 8 = false) ∧
    u53_atomics.locOf (u53_atomics.contexts.headD default) 0x20000 .rmw = .ok (.dev 0x2020000) ∧
    ((⟨0x20000, 0, 0, 8, true, List.replicate 0 0⟩ : Contribution).elems.length = 0 ∧
      (⟨0x20000, 0, 0, 8, true, List.replicate 1 0⟩ : Contribution).elems.length = 1 ∧
      (⟨0x20000, 0, 0, 8, true, List.replicate 256 0⟩ : Contribution).elems.length = 256 ∧
      (⟨0x20000, 0, 0, 8, true, List.replicate 257 0⟩ : Contribution).elems.length = 257) ∧
    HeardPeer a53_atomics b53_atomics (⟨1, 16, 0, 0, 2, 0, false⟩ : PeerHdr) (b53_atomics.contexts.headD default) ∧
    (b53_atomics.held = [] ∧ (b53_atomics.contexts.headD default).recMode = 0) ∧
    (∃ j, (contributeJob ⟨b53_atomics, (b53_atomics.contexts.headD default), []⟩ (⟨1, 16, 0, 0, 2, 0, false⟩ :
      PeerHdr).dev (⟨0x20000, 0, 0, 8, true, List.replicate 8 0⟩ : Contribution)).Gives j ∧ j.stat = 0 ∧ ∀ w ∈
      j.writes, ∀ p ∈ linePieces w.1 w.2.length, (View.dest ⟨b53_atomics, (b53_atomics.contexts.headD
      default), []⟩ p.1 p.2).Gives (.here (.dev (0x2000000 + p.1.toNat))) ∧ b53_atomics.poisonedAt (.dev
      (0x2000000 + p.1.toNat)) p.2 = false) ∧
    ((36 = 36 ∨ 36 = 37) ∧
      (99 ≠ 36 ∧ 99 ≠ 37)) :=
  ⟨heardPeer_of (by decide +kernel),
    by decide +kernel,
    ok_of (by decide +kernel),
    by decide +kernel,
    ok_of (by decide +kernel),
    by decide +kernel,
    heardPeer_of (by decide +kernel),
    by decide +kernel,
    job_of (fun w => (linePieces w.1 w.2.length).all fun p => destB ⟨b53_atomics, (b53_atomics.contexts.headD
      default), []⟩ p.1 p.2 (.dev (0x2000000 + p.1.toNat))) (contributeJob_steady _ _ _) (fun w h => all_of _
      (fun p h => dest_of h) h) (by decide +kernel),
    by decide +kernel⟩

/-- A group of the witness of HostAndPeerMessages. -/
def g53_connections : Group := { gp 8 with fwdOpen := [2, 3], wait := .forwarded }
/-- A package of the witness of HostAndPeerMessages. -/
def s53_connections : State :=
  { up (served 0 (at_ g53_connections)) with requests := [⟨3, 0, .peer 2, .group r0 2, 0, none⟩] }
/-- A package of the witness of HostAndPeerMessages. -/
def u53_connections : State := (s53_connections.takePeer (⟨1, 16, 0, 0, 2, 0, false⟩ : PeerHdr)).1
/-- A package of the witness of HostAndPeerMessages. -/
def c53_connections : State :=
  { w0 with conns := [(⟨.host, 5, 6, [(⟨⟨.host, 7, 0, false, 0, 9, [], []⟩, 4, 0, false, none, 0, 0⟩ : Frame)], 15, false⟩ : Conn), (⟨.peer 2, 5, 6, [(⟨⟨.peer 2, 7, 0, false, 0, 9, [], []⟩, 4, 0, false, none, 0, 0⟩ : Frame)], 15, false⟩ : Conn)] }
/-- A package of the witness of HostAndPeerMessages. -/
def d53_connections : State :=
  { w0 with conns := [(⟨.host, 5, 6, [(⟨⟨.host, 7, 0, false, 0, 9, [], []⟩, 4, 0, false, none, 0, 0⟩ : Frame)], 16, false⟩ : Conn), (⟨.peer 2, 5, 6, [(⟨⟨.peer 2, 7, 0, false, 0, 9, [], []⟩, 4, 0, false, none, 0, 0⟩ : Frame)], 16, false⟩ : Conn)] }
/-- Messages out of order and with a broken header; the reply of a package to a group; connections that send again and that go down, of the host and of a package. -/
theorem witness_HostAndPeerMessages_connections :
    s53_connections.takeHost (⟨1, 16, 1, 0, 0, false⟩ : MsgHdr) 6 = ((s53_connections.takeHost (⟨1, 16, 1, 0, 0,
        false⟩ : MsgHdr) 6).1, false) ∧
      s53_connections.takePeer (⟨1, 16, 1, 0, 2, 0, false⟩ : PeerHdr) = ((s53_connections.takePeer (⟨1, 16, 1, 0, 2,
        0, false⟩ : PeerHdr)).1, false) ∧
      s53_connections.takePeer (⟨2, 16, 0, 0, 2, 0, false⟩ : PeerHdr) = (u53_connections, true) ∧
      headerBad (⟨2, 16, 0, 0, 2, 0, false⟩ : PeerHdr).ver (⟨2, 16, 0, 0, 2, 0, false⟩ : PeerHdr).len = true ∧
      s53_connections.takePeer (⟨1, 16, 0, 0, 2, 0, false⟩ : PeerHdr) = (u53_connections, true) ∧
      headerBad (⟨1, 16, 0, 0, 2, 0, false⟩ : PeerHdr).ver (⟨1, 16, 0, 0, 2, 0, false⟩ : PeerHdr).len = false ∧
      u53_connections.requests.find? (fun q => q.id == 3 && q.conn == .peer 2) = some ⟨3, 0, .peer 2, .group r0 2, 0,
        none⟩ ∧
      u53_connections.held = [] ∧
      u53_connections.migs = [] ∧
      u53_connections.group? r0 = some g53_connections ∧
      2 ∈ g53_connections.fwdOpen ∧
      ((c53_connections.conn .host).queue ≠ [] ∧ (c53_connections.conn .host).down = false ∧ (c53_connections.conn
        .host).retries < 16) ∧
      ((c53_connections.conn (.peer 2)).queue ≠ [] ∧ (c53_connections.conn (.peer 2)).down = false ∧
        (c53_connections.conn (.peer 2)).retries < 16) ∧
      ((d53_connections.conn .host).queue ≠ [] ∧ (d53_connections.conn .host).down = false ∧ 16 ≤ (d53_connections.conn
        .host).retries) ∧
      ((d53_connections.conn (.peer 2)).queue ≠ [] ∧ (d53_connections.conn (.peer 2)).down = false ∧ 16 ≤
        (d53_connections.conn (.peer 2)).retries) ∧
      d53_connections.held = [] ∧
      d53_connections.migs = [] ∧
      d53_connections.events.length < Config.evRing :=
  by decide +kernel

/-- A package of the witness of ManagementOperations. -/
def s54_refused : State := up w0
/-- A package of the witness of ManagementOperations. -/
def n54_refused : State := (s54_refused.takeHost (⟨1, 16, 0, 0, 0xFF, false⟩ : MsgHdr) 14).1
/-- A package of the witness of ManagementOperations. -/
def r54_refused : State := { up w0 with boot := ⟨8, 0, true, true⟩ }
/-- A package of the witness of ManagementOperations. -/
def x54_refused : State := (r54_refused.takeHost (⟨1, 16, 0, 0, 0xFF, true⟩ : MsgHdr) 14).1
/-- A message of the other world, and one to a package in recovery. -/
theorem witness_ManagementOperations_refused :
    Taken s54_refused n54_refused (⟨1, 16, 0, 0, 0xFF, false⟩ : MsgHdr) .fwcommit ∧
    (n54_refused.boot.recov = false ∧
      (⟨1, 16, 0, 0, 0xFF, false⟩ : MsgHdr).secure = false) ∧
    Taken r54_refused x54_refused (⟨1, 16, 0, 0, 0xFF, true⟩ : MsgHdr) .fwcommit ∧
    x54_refused.boot.recov = true :=
  ⟨taken_of (by decide +kernel),
    by decide +kernel,
    taken_of (by decide +kernel),
    by decide +kernel⟩

/-- A package of the witness of ManagementOperations. -/
def s54 : State :=
  { up w0 with secCores := [3, 4], secPorts := [1], secRegions := [2], disabled := ⟨[7], [], [], [2]⟩ }
/-- A package of the witness of ManagementOperations. -/
def u54 : State := (s54.takeHost (⟨1, 16, 0, 0, 0xFF, true⟩ : MsgHdr) 14).1
/-- A package with a context, cores and ports of both worlds, a core at work, and descriptors of contexts that may and may not be. -/
theorem witness_ManagementOperations :
    Taken s54 u54 (⟨1, 16, 0, 0, 0xFF, true⟩ : MsgHdr) .fwcommit ∧
    (u54.boot.recov = false ∧
      (⟨1, 16, 0, 0, 0xFF, true⟩ : MsgHdr).secure = true ∧
      s54.fwStage.signedImage = false ∧
      (u54.context? 0).isSome = true ∧
      u54.context? 2 = none ∧
      2 < Config.contexts ∧
      (natLe 4 0 ++ natLe 4 0 ++ natLe 8 0x20000 ++ natLe 8 0x22000 ++ List.replicate 104 (0 : Byte)).length = 128 ∧
      u54.described 2 false 0x10000 (natLe 4 3 ++ natLe 4 0 ++ natLe 8 0x20000 ++ natLe 8 0x22000 ++ List.replicate
        104 (0 : Byte)) = none) ∧
    (∃ c, u54.described 2 false 0x10000 (natLe 4 0 ++ natLe 4 0 ++ natLe 8 0x20000 ++ natLe 8 0x22000 ++
      List.replicate 104 (0 : Byte)) = some c) ∧
    (u54.held = [] ∧
      (1 ≤ 786432 ∧ 786431 < 786432) ∧
      0 < Config.cores ∧
      s54.coreEnabled 0 = true ∧
      s54.coreBusy 0 = true ∧
      5 < Config.cores ∧
      s54.coreEnabled 5 = true ∧
      s54.coreBusy 5 = false ∧
      15 ∉ s54.disabled.ports ∧
      u54.portBusy 15 = false ∧
      2097152 * (16 + 2) ≤ s54.memBytes ∧
      u54.inUse (.dev (2097152 * 16)) (2097152 * 2) = false ∧
      ((0 ≤ 8 ∧ 1 ≤ 32) ∧ 8 ≤ 8) ∧
      (7 < Config.cores ∧ 0 < Config.dies ∧ 0 < Config.channels ∧ 15 < 16) ∧
      ((1000 ≤ 4800 ∧ 999 < 1000) ∧ 4800 < 4801) ∧
      (List.replicate 64 (0 : Byte)).length = 64) :=
  ⟨taken_of (by decide +kernel),
    by decide +kernel,
    ⟨(u54.described 2 false 0x10000 (natLe 4 0 ++ natLe 4 0 ++ natLe 8 0x20000 ++ natLe 8 0x22000 ++ List.replicate
      104 (0 : Byte))).getD default, some_getD (by decide +kernel)⟩,
    by decide +kernel⟩

/-- The public key of a test: a modulus of 4,096 bits. -/
def fwKey : List Byte := natBe 512 (2 ^ 4095 + 579)
/-- Its signature over the header of `fwImage`, computed outside Lean from RFC 8017. -/
def fwSig : List Byte :=
  [0x1973D3261266C6F7FBAB457779C070A22BAB8480BE57BA2BDED449F065CD3360820568448A0B1B9CECCAFFA4F6A99AD73FAAAE3F07AB213BB9964133AE7590E5,
   0x42385F55A3EC0D14FF12DE689E9CF5B4532646931F8EAB6BD487078636076179FEC6DA3F123D3031AEBFA1D8A58EAB0A661753C4E700C3C9BC61831691ACE6AC,
   0xD2D9E03E5CAF4CA18DA6536DAA455B85543FDBB03B38C25FCA197916BCC99676EDF6A78A9D2B6ACCE7DF8DA088A19627336297DF8058BB321A354327BFD9D65E,
   0x87CFAD3717D19F232A3AC866920A527718FFE631C3F164BF01251A56C4172250DFFFC7A8F9ED82DA485188A531F57A08EB6A5B177657972D57041536525A1253,
   0x8FD24C69B500CB9E4FC26EC6014434DD1C10CABF324B4893B017C8DE3F0E1C423F489ACBECA04A86CD9289058120F0821D22168FBB81D33B3154D401CFC88227,
   0x6F274E09B09C98BEEDCDEB825F91F49D748D1CB12E5EF1E520AC132D46899E6245D23897084699038887CF2B5F8CDA835A10FA1AD20245A35981E1F7ACA6BA72,
   0x8760D11B9B7D046274A4D83372DE298407DB4B0627B4B8A51784FFD9AD47030BD36CC2705FDD817FEE45982810471C058D5BC05EE448F845AE1A7A73AE09EE38,
   0x5562F97BE5B31749376B9892BF8A9BCF991969A12D7CE44629B3BE7BB1D057769C339C2120AA484C821793BB770159E8F6FD5C47D9FDE4E24E3CBB42CC119D81].flatMap (natBe 64)
/-- The bytes of a firmware image of security version 2 and no payload. -/
def fwBytes : List Byte := fwMagic ++ natLe 4 2 ++ natLe 4 0 ++ fwKey ++ sha512 [] ++ fwSig
/-- The image. -/
def fwImage : Memory := Memory.empty.write 0 fwBytes
theorem fw_read (i n : Nat) (h : i + n ≤ 0x450) : fwImage.read i n = (fwBytes.drop i).take n := by
  have := read_write_within 0 i n fwBytes empty_wf (by rw [show fwBytes.length = 0x450 by decide +kernel]; exact h)
  rwa [Nat.zero_add] at this
theorem fw_verifies : pssVerify fwKey (fwBytes.take 0x250) fwSig = true := by decide +kernel
/-- The image is good in a package whose root digest is that of the key: the digest is a free value (log entry 7). -/
theorem fw_signed (h : sha512 fwKey = measBytes Config.rootDigest) : fwImage.signedImage = true ∧ fwImage.word 8 = 2 := by
  have w : fwImage.word 8 = 2 := by rw [Memory.word, fw_read _ _ (by omega)]; decide +kernel
  have l : fwImage.word 0x0C = 0 := by rw [Memory.word, fw_read _ _ (by omega)]; decide +kernel
  refine ⟨?_, w⟩
  simp only [Memory.signedImage, w, l, fw_read _ _ (show 0x10 + 512 ≤ 0x450 by omega), fw_read _ _ (show 0 + 8 ≤ 0x450 by omega),
    fw_read _ _ (show 0 + 0x250 ≤ 0x450 by omega), fw_read _ _ (show 0x250 + 512 ≤ 0x450 by omega),
    fw_read _ _ (show 0x210 + 64 ≤ 0x450 by omega), fw_read _ _ (show 0x450 + 0 ≤ 0x450 by omega)]
  rw [show (fwBytes.drop 0x10).take 512 = fwKey by decide +kernel, h, show (fwBytes.drop 0x250).take 512 = fwSig by decide +kernel,
    show fwBytes.drop 0 = fwBytes from rfl, fw_verifies]
  simp only [beq_self_eq_true]
  decide +kernel
/-- An image that the package takes, and one that is older than the package's version, where the root digest is that of the
image's key. -/
theorem witness_ManagementOperations_image (h : sha512 fwKey = measBytes Config.rootDigest) :
    let s : State := { up w0 with fwStage := fwImage, svn := 2 }
    let t : State := { up w0 with fwStage := fwImage, svn := 3 }
    (s.fwStage.signedImage = true ∧ s.svn ≤ s.fwStage.word 8) ∧ t.fwStage.signedImage = true ∧ t.fwStage.word 8 < t.svn := by
  have ⟨a, b⟩ := fw_signed h
  simp [a, b]

/-- A package of the witness of ErrorsWearAndPower. -/
def s55 : State := { up w0 with errRings := [(3, ⟨0, 1, 1, 2, 0, 0x2000040, 0, 1⟩)] }
/-- A package of the witness of ErrorsWearAndPower. -/
def t55 : State := { up w0 with throttled := true }
/-- A package of the witness of ErrorsWearAndPower. -/
def r55 : State := { up w0 with resetN := false }
/-- A package of the witness of ErrorsWearAndPower. -/
def z55 : State := { State.reset with resetN := true, pwrgd := true, tripped := false }
/-- An error ring with room, with and without a record to count; a die, and a package that is throttled and one that is not, held in reset, and before bring-up. -/
theorem witness_ErrorsWearAndPower :
    (s55.errsOf 3).length < Config.errRing ∧
      (∀ e ∈ s55.errsOf 3, e.sev = 0 → e.src = 1 → e.loc = 2 → e.addr ≠ .ofNat 64 (0x2000040 / 64 * 64)) ∧
      s55.health[8]? = some (s55.healthOf 8) ∧
      s55.powered = true ∧
      s55.events.length < Config.evRing ∧
      s55.throttled = false ∧
      (t55.powered = true ∧ t55.events.length < Config.evRing ∧ t55.throttled = true) ∧
      r55.resetN = false ∧
      (z55.boot.step = 0 ∧ z55.powered = true) :=
  by decide +kernel

/-- A group of the witness of StepRunsTheDecodedInstruction. -/
def k56 : Group := { gp 8 with fwd := [⟨0, 0, [1, 2, 3, 4]⟩], wait := .forwarded }
/-- A package of the witness of StepRunsTheDecodedInstruction. -/
def s56 : State := poke 0x2000000 (natLe 4 0x10941081) (up (at_ (gp 8)))
/-- A package of the witness of StepRunsTheDecodedInstruction. -/
def u56 : State := poke 0x2000000 (natLe 4 0x10941081) (up (at_ k56))
/-- A package of the witness of StepRunsTheDecodedInstruction. -/
def i56 : State := { up w0 with inbox := [.throttleBegin] }
/-- A comparison at the group whose turn it is and at one with its replies; an event of the inbox. -/
theorem witness_StepRunsTheDecodedInstruction :
    (s56.urgent = none ∧
      s56.inbox = [] ∧
      s56.cur = some r0 ∧
      s56.powered = true ∧
      s56.group? r0 = some (gp 8) ∧
      (gp 8).ended = false ∧
      ((gp 8).left = false ∨ savingTeam (s56.teamOf r0) = false) ∧
      ((gp 8).priv = true ∨ (gp 8).doneAway = true ∨ ((gp 8).preempt = none ∧ (gp 8).trapDue = none)) ∧
      (gp 8).wait ≠ .marker ∧
      (gp 8).fwdOpen = []) ∧
    Reaches s56 r0 .fetch 4 ((s56.ctxOf (s56.teamOf r0)).codeAddr (gp 8)) (.dev 0x2000000) ∧
    (s56.poisonedAt (.dev 0x2000000) 4 = false ∧
      s56.bytesAtLoc (.dev 0x2000000) 4 = natLe 4 (0x10941081 : Word).toNat) ∧
    decode 0x10941081 = .ok (.cmpGe false 1 2 1) ∧
    ((gp 8).inSet = true ∧
      u56.urgent = some r0 ∧
      u56.powered = true ∧
      u56.group? r0 = some k56 ∧
      k56.ended = false ∧
      (k56.left = false ∨ savingTeam (u56.teamOf r0) = false) ∧
      (k56.priv = true ∨ k56.doneAway = true ∨ (k56.preempt = none ∧ k56.trapDue = none)) ∧
      k56.wait ≠ .marker ∧
      k56.fwdOpen = []) ∧
    Reaches u56 r0 .fetch 4 ((u56.ctxOf (u56.teamOf r0)).codeAddr k56) (.dev 0x2000000) ∧
    (u56.poisonedAt (.dev 0x2000000) 4 = false ∧
      u56.bytesAtLoc (.dev 0x2000000) 4 = natLe 4 (0x10941081 : Word).toNat) ∧
    decode 0x10941081 = .ok (.cmpGe false 1 2 1) ∧
    (i56.urgent = none ∧
      i56.inbox = [.throttleBegin] ∧
      encode .throttleBegin = none ∧
      i56.powered = true) :=
  ⟨by decide +kernel,
    reaches_of (by decide +kernel),
    by decide +kernel,
    ok_of (by decide +kernel),
    by decide +kernel,
    reaches_of (by decide +kernel),
    by decide +kernel,
    ok_of (by decide +kernel),
    by decide +kernel⟩

/-- An instruction and its word. -/
theorem witness_DecodingInvertsEncoding :
    (wellFormed (.cmpGe false 1 2 1) = true ∧
      encode (.cmpGe false 1 2 1) = some 0x10941081) ∧
    decode 0x10941081 = .ok (.cmpGe false 1 2 1) :=
  ⟨by decide +kernel,
    ok_of (by decide +kernel)⟩

/-- A package of the witness of StepKeepsTheInvariant. -/
def s60 : State := poke 0x2000000 (natLe 4 0x10941081) (up (at_ (gp 8)))
/-- A package in which the invariant holds, and which steps. -/
theorem witness_StepKeepsTheInvariant :
    s60.Inv = true ∧
    (∃ t, step s60 = .next t) :=
  ⟨by decide +kernel,
    next_of (by decide +kernel)⟩

end Sys2Proof.Tests
end

