-- ==== Sys2Proof/Tests/WitnessUnits.lean ====
section
/-! SUPPORT. For each statement about the matrix engine, tiles, levels, rays and the marcher: concrete packages and operands that meet its premises together. -/
namespace Sys2Proof.Tests
open Sys2Proof Sys2Proof.Machine
-- one proof after another: each waits for the kernel
set_option Elab.async false

/-- A group of the witness of AccumulatorCells. -/
def g41 : Group :=
  uni 40 0 (uni 41 0x10000 (uni 42 0x10001 (uni 43 0x100 (uni 44 0x80400020 { gp 8 with role := .matrix }))))
/-- A group of the witness of AccumulatorCells. -/
def k41 : Group := uni 40 0 (uni 44 0x80400080 { gp 0 with role := .matrix })
/-- One cell, its neighbour, its place in the window; the engine idle and busy; a whole tile of i8. -/
theorem witness_AccumulatorCells :
    Turn (at_ g41) r0 g41 ∧
    (g41.role = .matrix ∧
      g41.someActs = true) ∧
    g41.reads 40 0 ∧
    g41.reads 41 0x10000 ∧
    g41.reads 42 0x10001 ∧
    g41.reads 43 0x100 ∧
    TileAt (at_ g41) r0 0 ⟨0, 0, 1, 1⟩ ∧
    ShapeOf 0x10001 ⟨0, 0, 1, 1⟩ ∧
    (0x10001 : Word).getLsbD 31 = false ∧
    EngineIdle (at_ g41) r0 ∧
    TileAt (at_ g41) r0 0x10000 ⟨1, 0, 1, 1⟩ ∧
    ¬ EngineIdle { (at_ g41) with matrix := [⟨0, []⟩] } r0 ∧
    Quiet (at_ g41) r0 g41 ∧
    g41.swz ≠ 3 ∧
    InRange (at_ g41) r0 16 ((1 - 1) * 16 + 4 * 1) 0x100 0 ∧
    (∀ i, i < 1 → InWindow (at_ g41) r0 g41.swz 16 (4 * 1) (0x100 + .ofNat 32 (i * 16)) 0) ∧
    InWindow (at_ g41) r0 g41.swz 4 (4 * 1) 0x100 0 ∧
    (isReservedType g41.type = false ∧
      g41.type = 8 ∧
      g41.badFmt0 g41.type = false) ∧
    g41.needH0 [g41.type] = .ok () ∧
    (∀ z ∈ astAccs (elemContainer g41.type (g41.fmt0 g41.type)) false 0x100 ⟨0, 0, 1, 1⟩ ((((at_ g41).teamOf
      r0).tileWords ⟨0, 0, 1, 1⟩).map (storeCode g41.type)), InWindow (at_ g41) r0 g41.swz 1 z.n
      (z.addr.setWidth 32) 0) ∧
    Turn (at_ k41) r0 k41 ∧
    (operandType k41.type = true ∧
      classK (elemContainer k41.type (k41.fmt0 k41.type)) = 128) ∧
    ShapeOf 0x80400080 ⟨0, 0, 64, 128⟩ ∧
    (0x80400080 : Word).getLsbD 31 = true ∧
    k41.reads 44 0x80400080 ∧
    TileAt (at_ k41) r0 0 ⟨0, 0, 64, 128⟩ ∧
    InRange (at_ k41) r0 2048 (64 * 128 * 8 / 8) 0x800 0 :=
  ⟨turn_of (by decide +kernel),
    by decide +kernel,
    reads_of (by decide +kernel),
    reads_of (by decide +kernel),
    reads_of (by decide +kernel),
    reads_of (by decide +kernel),
    tileAt_of (by decide +kernel),
    shapeOf_of (by decide +kernel),
    by decide +kernel,
    engineIdle_of (by decide +kernel),
    tileAt_of (by decide +kernel),
    fun h => absurd (h ⟨0, []⟩ (List.mem_singleton.2 rfl)) (by decide +kernel),
    quiet_of (by decide +kernel),
    by decide +kernel,
    inRange_of (by decide +kernel),
    fun i hi => by
      obtain rfl : i = 0 := by omega
      exact inWindow_of (by decide +kernel),
    inWindow_of (by decide +kernel),
    by decide +kernel,
    ok_of (by decide +kernel),
    all_of (fun z => inWindowB (at_ g41) r0 g41.swz 1 z.n (z.addr.setWidth 32) 0) (fun z h => inWindow_of h)
      (by decide +kernel),
    turn_of (by decide +kernel),
    by decide +kernel,
    shapeOf_of (by decide +kernel),
    by decide +kernel,
    reads_of (by decide +kernel),
    tileAt_of (by decide +kernel),
    inRange_of (by decide +kernel)⟩

/-- A group of the witness of MatrixMultiply. -/
def g42 : Group := uni 10 0 (uni 20 0x800 (uni 21 0x100 (uni 30 0x2800 (uni 31 0x140 { gp 5 with role := .matrix }))))
/-- A package of the witness of MatrixMultiply. -/
def t42 : State := team (fun t => { t with groups := t.groups ++ [g42] }) (at_ ({ g42 with gang := 2 + 2 ^ 18 }))
/-- A package of the witness of MatrixMultiply. -/
def f42 : State :=
  scr 0x1A8 (natLe 4 0 ++ natLe 4 0x200 ++ natLe 8 0 ++ natLe 4 0 ++ natLe 4 0 ++ natLe 8 0) (scr 0x180 (natLe 4 0 ++ natLe 4 0x200 ++ natLe 8 0 ++ natLe 4 0 ++ natLe 4 0 ++ natLe 8 0) (scr 0x160 (natLe 4 1024 ++ natLe 4 0x200 ++ natLe 8 0 ++ natLe 4 0 ++ natLe 4 0 ++ natLe 8 0) (scr 0x140 (natLe 4 10 ++ natLe 4 0x200 ++ natLe 8 0 ++ natLe 4 16711680 ++ natLe 4 16711680 ++ natLe 8 0) (scr 0x120 (natLe 4 768 ++ natLe 4 0x200 ++ natLe 8 0 ++ natLe 4 0 ++ natLe 4 0 ++ natLe 8 0) (scr 0x100 (natLe 4 2 ++ natLe 4 0x200 ++ natLe 8 0 ++ natLe 4 0 ++ natLe 4 0 ++ natLe 8 0) (at_ g42))))))
/-- Operands of i8 for a group of its own, with the engine idle, and for the first of a gang of two; an operation in flight and none; a format block of each status. -/
theorem witness_MatrixMultiply :
    Turn (at_ g42) r0 g42 ∧
    (g42.role = .matrix ∧
      g42.converged = true) ∧
    Quiet (at_ g42) r0 g42 ∧
    g42.swz ≠ 3 ∧
    g42.reads 10 0 ∧
    g42.reads 20 0x800 ∧
    g42.reads (nextReg 20) 0x100 ∧
    g42.reads 30 0x2800 ∧
    g42.reads (nextReg 30) 0x140 ∧
    TileAt (at_ g42) r0 0 ⟨0, 0, 64, 64⟩ ∧
    OperandAt (at_ g42) r0 g42.swz 0x800 0x100 (fmtBlockOf (List.replicate 32 0)) 0 0 ∧
    OperandAt (at_ g42) r0 g42.swz 0x2800 0x140 (fmtBlockOf (List.replicate 32 0)) 0 0 ∧
    (isIntType (fmtBlockOf (List.replicate 32 0)).elem = isIntType (fmtBlockOf (List.replicate 32 0)).elem ∧
      gangN g42.gang < 2) ∧
    EngineIdle (at_ g42) r0 ∧
    Turn t42 r0 ({ g42 with gang := 2 + 2 ^ 18 }) ∧
    (2 ≤ gangN ({ g42 with gang := 2 + 2 ^ 18 }).gang ∧
      ({ g42 with gang := 2 + 2 ^ 18 }).latch = none ∧
      (∀ k ∈ gangMembers ({ g42 with gang := 2 + 2 ^ 18 }).gang, ((t42.teamOf r0).groups[k]?).map (·.ended) = some
        false) ∧
      (1 ∈ gangMembers ({ g42 with gang := 2 + 2 ^ 18 }).gang ∧ 1 ≠ r0.slot ∧ (((t42.teamOf r0).groups[1]?).map
        (·.latch)) = some none) ∧
      (at_ g42).matrix.find? (·.core == 0) = none ∧
      ({ (at_ g42) with matrix := [⟨0, [(r0, 1, [(0, 5), (1, 6)])]⟩] } : State).matrix.find? (·.core == 0) = some ⟨0,
        [(r0, 1, [(0, 5), (1, 6)])]⟩ ∧
      ([(0, 5), (1, 6)] : List (Nat × Word)).map (·.1) = [0, 1]) ∧
    Turn f42 r0 g42 ∧
    g42.someActs = true ∧
    g42.reads 30 0x2800 ∧
    scrReserved 0x80000 = true ∧
    InWindow f42 r0 g42.swz 1 32 0x100 0 ∧
    InWindow f42 r0 g42.swz 1 32 0x120 0 ∧
    InWindow f42 r0 g42.swz 1 32 0x140 0 ∧
    InWindow f42 r0 g42.swz 1 32 0x160 0 ∧
    InWindow f42 r0 g42.swz 1 32 0x180 0 ∧
    (operandType (fmtBlockOf (f42.scrBytesAt 0 g42.swz (scrOff 256) 32)).elem = false ∧
      (operandType (fmtBlockOf (f42.scrBytesAt 0 g42.swz (scrOff 288) 32)).elem = true ∧ ((fmtBlockOf (f42.scrBytesAt 0
        g42.swz (scrOff 288) 32)).blk = 3 ∨ ((fmtBlockOf (f42.scrBytesAt 0 g42.swz (scrOff 288) 32)).blk ≠ 0 ∧
        (isNarrowType (fmtBlockOf (f42.scrBytesAt 0 g42.swz (scrOff 288) 32)).elem = false ∨ f42.scrBad
        (f42.teamOf r0) (fmtBlockOf (f42.scrBytesAt 0 g42.swz (scrOff 288) 32)).scale (fmtBlockOf
        (f42.scrBytesAt 0 g42.swz (scrOff 288) 32)).scaleBytes = true)))) ∧
      (operandType (fmtBlockOf (f42.scrBytesAt 0 g42.swz (scrOff 320) 32)).elem = true ∧ ¬ ((fmtBlockOf (f42.scrBytesAt
        0 g42.swz (scrOff 320) 32)).blk = 3 ∨ ((fmtBlockOf (f42.scrBytesAt 0 g42.swz (scrOff 320) 32)).blk ≠ 0 ∧
        (isNarrowType (fmtBlockOf (f42.scrBytesAt 0 g42.swz (scrOff 320) 32)).elem = false ∨ f42.scrBad
        (f42.teamOf r0) (fmtBlockOf (f42.scrBytesAt 0 g42.swz (scrOff 320) 32)).scale (fmtBlockOf
        (f42.scrBytesAt 0 g42.swz (scrOff 320) 32)).scaleBytes = true))) ∧ isNarrowType (fmtBlockOf
        (f42.scrBytesAt 0 g42.swz (scrOff 320) 32)).elem = true ∧ (nfmtOf (fmtBlockOf (f42.scrBytesAt 0 g42.swz
        (scrOff 320) 32)).fmt).valid = false) ∧
      (operandType (fmtBlockOf (f42.scrBytesAt 0 g42.swz (scrOff 352) 32)).elem = true ∧ ¬ ((fmtBlockOf (f42.scrBytesAt
        0 g42.swz (scrOff 352) 32)).blk = 3 ∨ ((fmtBlockOf (f42.scrBytesAt 0 g42.swz (scrOff 352) 32)).blk ≠ 0 ∧
        (isNarrowType (fmtBlockOf (f42.scrBytesAt 0 g42.swz (scrOff 352) 32)).elem = false ∨ f42.scrBad
        (f42.teamOf r0) (fmtBlockOf (f42.scrBytesAt 0 g42.swz (scrOff 352) 32)).scale (fmtBlockOf
        (f42.scrBytesAt 0 g42.swz (scrOff 352) 32)).scaleBytes = true))) ∧ (fmtBlockOf (f42.scrBytesAt 0 g42.swz
        (scrOff 352) 32)).fid &&& 0xFFFFFCF0 ≠ 0) ∧
      (operandType (fmtBlockOf (f42.scrBytesAt 0 g42.swz (scrOff 384) 32)).elem = true ∧ ¬ ((fmtBlockOf (f42.scrBytesAt
        0 g42.swz (scrOff 384) 32)).blk = 3 ∨ ((fmtBlockOf (f42.scrBytesAt 0 g42.swz (scrOff 384) 32)).blk ≠ 0 ∧
        (isNarrowType (fmtBlockOf (f42.scrBytesAt 0 g42.swz (scrOff 384) 32)).elem = false ∨ f42.scrBad
        (f42.teamOf r0) (fmtBlockOf (f42.scrBytesAt 0 g42.swz (scrOff 384) 32)).scale (fmtBlockOf
        (f42.scrBytesAt 0 g42.swz (scrOff 384) 32)).scaleBytes = true))) ∧ (fmtBlockOf (f42.scrBytesAt 0 g42.swz
        (scrOff 384) 32)).fid &&& 0xFFFFFCF0 = 0 ∧ (fmtBlockOf (f42.scrBytesAt 0 g42.swz (scrOff 384)
        32)).reserved = 0 ∧ scrOff 0x180 % 16 = 0)) ∧
    InWindow f42 r0 g42.swz 1 32 0x1A8 0 ∧
    (operandType (fmtBlockOf (f42.scrBytesAt 0 g42.swz (scrOff 424) 32)).elem = true ∧ ¬ ((fmtBlockOf (f42.scrBytesAt
      0 g42.swz (scrOff 424) 32)).blk = 3 ∨ ((fmtBlockOf (f42.scrBytesAt 0 g42.swz (scrOff 424) 32)).blk ≠ 0 ∧
      (isNarrowType (fmtBlockOf (f42.scrBytesAt 0 g42.swz (scrOff 424) 32)).elem = false ∨ f42.scrBad
      (f42.teamOf r0) (fmtBlockOf (f42.scrBytesAt 0 g42.swz (scrOff 424) 32)).scale (fmtBlockOf
      (f42.scrBytesAt 0 g42.swz (scrOff 424) 32)).scaleBytes = true))) ∧ (fmtBlockOf (f42.scrBytesAt 0 g42.swz
      (scrOff 424) 32)).fid &&& 0xFFFFFCF0 = 0 ∧ (fmtBlockOf (f42.scrBytesAt 0 g42.swz (scrOff 424)
      32)).reserved = 0 ∧ scrOff 0x1A8 % 16 ≠ 0) :=
  ⟨turn_of (by decide +kernel),
    by decide +kernel,
    quiet_of (by decide +kernel),
    by decide +kernel,
    reads_of (by decide +kernel),
    reads_of (by decide +kernel),
    reads_of (by decide +kernel),
    reads_of (by decide +kernel),
    reads_of (by decide +kernel),
    tileAt_of (by decide +kernel),
    operandAt_of 0 (by decide +kernel) (by decide +kernel) (by decide +kernel),
    operandAt_of 0 (by decide +kernel) (by decide +kernel) (by decide +kernel),
    by decide +kernel,
    engineIdle_of (by decide +kernel),
    turn_of (by decide +kernel),
    by decide +kernel,
    turn_of (by decide +kernel),
    by decide +kernel,
    reads_of (by decide +kernel),
    by decide +kernel,
    inWindow_of (by decide +kernel),
    inWindow_of (by decide +kernel),
    inWindow_of (by decide +kernel),
    inWindow_of (by decide +kernel),
    inWindow_of (by decide +kernel),
    by decide +kernel,
    inWindow_of (by decide +kernel),
    by decide +kernel⟩

/-- A group of the witness of MatrixMultiply. -/
def x42_gangs : Group := { uni 40 0 (uni 41 0 (gp 8)) with role := .matrix }
/-- A group of the witness of MatrixMultiply. -/
def y42_gangs : Group := { uni 40 262146 (uni 41 0 (gp 8)) with role := .matrix }
/-- A group of the witness of MatrixMultiply. -/
def z42_gangs : Group := { uni 40 1 (uni 41 0 (gp 8)) with role := .matrix }
/-- A group that leaves its gang, one that forms a gang of slots 0 and 1, and one whose word has N = 1. -/
theorem witness_MatrixMultiply_gangs :
    Turn (team (fun t => { t with groups := t.groups ++ [x42_gangs] }) (at_ x42_gangs)) r0 x42_gangs ∧
    Turn (team (fun t => { t with groups := t.groups ++ [y42_gangs] }) (at_ y42_gangs)) r0 y42_gangs ∧
    Turn (team (fun t => { t with groups := t.groups ++ [z42_gangs] }) (at_ z42_gangs)) r0 z42_gangs ∧
    ((x42_gangs.role = .matrix ∧ x42_gangs.converged = true) ∧
      (y42_gangs.role = .matrix ∧ y42_gangs.converged = true) ∧
      (z42_gangs.role = .matrix ∧ z42_gangs.converged = true ∧ z42_gangs.priv = false)) ∧
    x42_gangs.reads2 40 0 ∧
    y42_gangs.reads2 40 (.ofNat 64 (2 + 4096 * [0, 1].foldr (fun k n => k + 64 * n) 0) : DWord) ∧
    z42_gangs.reads2 40 1 ∧
    ((2 ≤ [0, 1].length ∧ [0, 1].length ≤ 6 ∧ [0, 1].Nodup ∧ r0.slot ∈ [0, 1]) ∧
      (∀ k ∈ [0, 1], k < 64 ∧ (((team (fun t => { t with groups := t.groups ++ [y42_gangs] }) (at_ y42_gangs)).teamOf
        r0).groups[k]?).map (·.role) = some .matrix) ∧
      (1 : DWord) ≠ 0) ∧
    (∀ (ks : List Nat) (rest : Nat), 2 ≤ ks.length → ks.length ≤ 6 → (1 : DWord) ≠ .ofNat 64 (ks.length + 4096 *
      ks.foldr (fun k n => k + 64 * n) rest)) :=
  ⟨turn_of (by decide +kernel),
    turn_of (by decide +kernel),
    turn_of (by decide +kernel),
    by decide +kernel,
    reads2_of (by decide +kernel),
    reads2_of (by decide +kernel),
    reads2_of (by decide +kernel),
    by decide +kernel,
    by
      intro ks rest a b h
      have := congrArg BitVec.toNat h
      have e : (1 : DWord).toNat = 1 := rfl
      rw [BitVec.toNat_ofNat, e] at this
      omega⟩

/-- A group of the witness of DrainsAddCells. -/
def g43 : Group := uni 10 0 (uni 20 0x10000 (uni 30 0x10001 (uni 31 0x80 { gp 8 with role := .matrix })))
/-- A group of the witness of DrainsAddCells. -/
def h43 : Group := uni 10 0x30000000 g43
/-- A operation of the witness of DrainsAddCells. -/
def o43 : Op := opOf (.adrn 0 1 1 [5] false false 0 0) (some 0)
/-- A package of the witness of DrainsAddCells. -/
def k43 : State :=
  { at_ h43 with convoys := [⟨5, 0, 1, 0, 0, 2, [0], [], [0], []⟩], teams := (at_ h43).teams.map fun t => { t with convoy := some (5, 0) } }
/-- A package of the witness of DrainsAddCells. -/
def d43 : State := { at_ g43 with ops := [o43] }
/-- One cell of f32 under tag 0, and the operation at its turn and before it. -/
theorem witness_DrainsAddCells :
    Turn (at_ g43) r0 g43 ∧
    (g43.role = .matrix ∧
      g43.someActs = true) ∧
    g43.reads 10 0 ∧
    g43.reads 20 0x10000 ∧
    g43.reads 30 0x10001 ∧
    g43.reads (nextReg 30) 0x80 ∧
    (g43.type = 8 ∨ g43.type = 2) ∧
    TileAt (at_ g43) r0 0 ⟨0, 0, 1, 1⟩ ∧
    TileAt (at_ g43) r0 0x10000 ⟨1, 0, 1, 1⟩ ∧
    ShapeOf 0x10001 ⟨0, 0, 1, 1⟩ ∧
    (0x10001 : Word).getLsbD 31 = false ∧
    EngineIdle (at_ g43) r0 ∧
    Accepts (at_ g43) r0 0x80 false false (.adrn 0 1 1 [0] false g43.sat 0 0) ∧
    (d43.op? 7 = some o43 ∧
      (∀ c ∈ d43.contexts, c.frames = []) ∧
      (0 : Word).getLsbD 28 = false ∧
      (d43.teamOf ⟨o43.tid, o43.slot⟩).tid = o43.tid ∧
      ((d43.context? o43.ctx).getD default).recMode = 0 ∧
      (o43.captured = false ∧ (∀ z ∈ d43.matrix, z.core ≠ (d43.teamOf r0).core) ∧ d43.drainBefore o43 = false ∧
        d43.lowerArrived o43 = true) ∧
      ({ d43 with matrix := [⟨0, []⟩] } : State).op? 7 = some o43 ∧
      ¬ ∀ z ∈ ({ d43 with matrix := [⟨0, []⟩] } : State).matrix, z.core ≠ (d43.teamOf r0).core) ∧
    Turn k43 r0 h43 ∧
    h43.role = .matrix ∧
    h43.reads 10 0x30000000 ∧
    h43.reads 20 0x10000 ∧
    h43.reads 30 0x10001 ∧
    h43.reads (nextReg 30) 0x80 ∧
    Accepts k43 r0 0x80 false false (.adrn 0x30000000 1 1 [0] false h43.sat 0 1) ∧
    k43.convoyOf (k43.teamOf r0) = some ((k43.convoyOf (k43.teamOf r0)).getD default) ∧
    ((accReserved 0x30000000 = false ∧ (0x30000000 : Word).getLsbD 28 = true) ∧
      (accRow 0x30000000 + 1 ≤ (k43.teamOf r0).accRows ∧ accCol 0x30000000 + 1 ≤ 256) ∧
      ((0x30000000 : Word).extractLsb' 29 3).toNat < ((k43.convoyOf (k43.teamOf r0)).getD default).members ∧
      (((0x30000000 : Word).extractLsb' 29 3).toNat ∉ ((k43.convoyOf (k43.teamOf r0)).getD default).ended ∧
        ((0x30000000 : Word).extractLsb' 29 3).toNat ∉ ((k43.convoyOf (k43.teamOf r0)).getD default).started)) ∧
    EngineIdle k43 r0 ∧
    TileAt k43 r0 0x10000 ⟨1, 0, 1, 1⟩ :=
  ⟨turn_of (by decide +kernel),
    by decide +kernel,
    reads_of (by decide +kernel),
    reads_of (by decide +kernel),
    reads_of (by decide +kernel),
    reads_of (by decide +kernel),
    by decide +kernel,
    tileAt_of (by decide +kernel),
    tileAt_of (by decide +kernel),
    shapeOf_of (by decide +kernel),
    by decide +kernel,
    engineIdle_of (by decide +kernel),
    accepts_of (by decide +kernel),
    by decide +kernel,
    turn_of (by decide +kernel),
    by decide +kernel,
    reads_of (by decide +kernel),
    reads_of (by decide +kernel),
    reads_of (by decide +kernel),
    reads_of (by decide +kernel),
    accepts_of (by decide +kernel),
    some_getD (by decide +kernel),
    by decide +kernel,
    engineIdle_of (by decide +kernel),
    tileAt_of (by decide +kernel)⟩

/-- A group of the witness of TileDirectory. -/
def g44 : Group :=
  seth 1 (mkH 0x800 1 1 8 true false [8192, 1, 1, 1, 1] [] 0) (seth 2 (mkH 0x8000000 1 1 8 false true [131072, 1, 1, 1, 1] [] 0) (seth 3 (mkH 0x20000 1 1 8 false true [131072, 1, 1, 1, 1] [] 0) (uni 40 0 (uni 41 256 (uni 42 0x3F800000 (uni 43 1 (uni 44 1 (uni 45 257 (gp 8)))))))))
/-- A package of the witness of TileDirectory. -/
def s44 : State := paged (at_ g44)
/-- A tile of the window, a page with a directory and one without; no tile, 256 tiles and 257. -/
theorem witness_TileDirectory :
    Turn s44 r0 g44 ∧
    (g44.role ≠ .copy ∧
      g44.someActs = true ∧
      (handleOf (g44.hreg 1)).check = 0 ∧
      (handleOf (g44.hreg 2)).check = 0 ∧
      (handleOf (g44.hreg 3)).check = 0) ∧
    g44.reads 40 0 ∧
    g44.reads (nextReg 40) 256 ∧
    g44.reads 42 0x3F800000 ∧
    g44.reads 43 1 ∧
    g44.reads (nextReg 43) 1 ∧
    (((handleOf (g44.hreg 1)).scr = true ∧ (handleOf (g44.hreg 1)).dir = false ∧ (handleOf (g44.hreg 1)).base.toNat %
        2048 = 0) ∧
      (handleOf (g44.hreg 1)).base.toNat + 2048 * (1 : Nat) < (s44.teamOf r0).scrBytes ∧
      ((handleOf (g44.hreg 2)).scr = false ∧ (handleOf (g44.hreg 2)).dir = true ∧ 2048 * 0 < (handleOf (g44.hreg
        2)).span) ∧
      canonical 0x8000000 = true) ∧
    s44.translate (s44.ctxOf (s44.teamOf r0)) 0x8000000 .read = .ok (leafOf s44 0x8000000 .read) ∧
    (s44.frozen 0 ((leafOf s44 0x8000000 .read).page 0x8000000) = false ∧
      (leafOf s44 0x8000000 .read).dira = true ∧
      (leafOf s44 0x8000000 .read).home 0x8000000 = .here (.dev 0x4000000)) ∧
    s44.translate (s44.ctxOf (s44.teamOf r0)) 0x20000 .read = .ok (leafOf s44 0x20000 .read) ∧
    ((leafOf s44 0x20000 .read).dira = false ∧
      s44.frozen 0 ((leafOf s44 0x20000 .read).page 0x20000) = false ∧
      g44.priv = false) ∧
    g44.reads 44 1 ∧
    g44.reads (nextReg 44) 257 ∧
    256 < (257 : Word).toNat ∧
    Quiet s44 r0 g44 ∧
    Unarmed s44 r0 ∧
    (g44.fwdOpen = [] ∧
      ((s44.teamOf r0).scr.wf = true ∧ (s44.teamOf r0).scrPoison = []) ∧
      ((handleOf (g44.hreg 1)).base.toNat + 2048 * (1 + 1) ≤ (s44.teamOf r0).scrBytes ∧ (s44.teamOf r0).scrBytes ≤ 2 ^
        19) ∧
      (1 ≤ (256 : Word).toNat ∧ (256 : Word).toNat ≤ 256)) ∧
    (∀ k ∈ List.range (16 * 1), Reaches s44 r0 .write 1 (0x8000000 + .ofNat 64 (128 * k)) (.dev (0x4000000 + 128 *
      k)) ) ∧
    (∀ k ∈ List.range (16 * 1), s44.poisonedAt (.dev (0x4000000 + 128 * k)) 128 = false ∧ s44.inUse (.dev (0x4000000
      + 128 * k)) 128 = false) :=
  ⟨turn_of (by decide +kernel),
    by decide +kernel,
    reads_of (by decide +kernel),
    reads_of (by decide +kernel),
    reads_of (by decide +kernel),
    reads_of (by decide +kernel),
    reads_of (by decide +kernel),
    by decide +kernel,
    ok_of (by decide +kernel),
    by decide +kernel,
    ok_of (by decide +kernel),
    by decide +kernel,
    reads_of (by decide +kernel),
    reads_of (by decide +kernel),
    by decide +kernel,
    quiet_of (by decide +kernel),
    unarmed_of (by decide +kernel),
    by decide +kernel,
    reachable_of (by decide +kernel),
    by decide +kernel⟩

/-- A group of the witness of LevelReads. -/
def g45 : Group :=
  setb 7 0x40040 (setb 3 0x40080 (setb 4 0x40000 (setb 5 0x40004 (setb 6 0x40500 (uni 12 0 (uni 13 0 (uni 14 0 (uni 15 0 (uni 16 0x3F000000 (uni 17 0x3F000000 (uni 18 0x3F000000 (uni 19 0x100 (uni 20 0x3F000000 (uni 21 0x3F000000 (uni 22 0x3F000000 (uni 23 0 (one 0 (gp 8))))))))))))))))))
/-- A resource of the witness of LevelReads. -/
def x45 : Resource :=
  ⟨0x40080, true, [24, 16, 16], 0x3F800000, (List.range 3).map fun j => ⟨.ofNat 64 (0x80000 + 0x10000 * j), .ofNat 64 (0x40480 + 16 * j), 0x3E000000⟩⟩
/-- A resource of the witness of LevelReads. -/
def y45 : Resource :=
  ⟨0x40000, false, [16, 12, 8], 0x3F800000, (List.range 3).map fun j => ⟨.ofNat 64 (0x50000 + 0x10000 * j), .ofNat 64 (0x40400 + 16 * j), 0x3E000000⟩⟩
/-- A package of the witness of LevelReads. -/
def s45 : State := lods (at_ g45)
/-- A voxel of each resource, one of them absent at the finest level; a bad descriptor and one that is not aligned; entries of a brick table that name a pyramid and nothing. -/
theorem witness_LevelReads :
    Turn s45 r0 g45 ∧
    (g45.role = .vector ∧
      g45.pend < 16) ∧
    Unlisted s45 r0 g45 ∧
    (g45.fwdOpen = [] ∧
      (12 : VReg).val % 4 = 0 ∧
      g45.ons ≠ [] ∧
      g45.rank 0 = 2 ∧
      g45.rank (nextReg 0) = 2 ∧
      g45.ons = [0]) ∧
    ((s45.viewOf r0 g45).resource 0x40080).Gives (some x45) ∧
    ((s45.viewOf r0 g45).resource 0x40000).Gives (some y45) ∧
    ((x45.ext.length = 3 ∧ y45.ext.length = 3) ∧
      (¬ (x45.coarsest < 0 ∨ ∃ k, k < 3 ∧ x45.ext.getD k 0 ≤ [0, 0, 0].getD k 0))) ∧
    (∀ j ∈ List.range 3, ((s45.viewOf r0 g45).find x45 j (x45.item j (coarser [0, 0, 0] j))).Gives ((s45.viewOf r0
      g45).find x45 j (x45.item j (coarser [0, 0, 0] j))).val) ∧
    (∀ j ∈ List.range 3, ((s45.viewOf r0 g45).find y45 j (y45.item j (coarser [0, 0, 0] j))).Gives ((s45.viewOf r0
      g45).find y45 j (y45.item j (coarser [0, 0, 0] j))).val) ∧
    (∀ j ∈ List.range 3, ((s45.viewOf r0 g45).voxelWord x45 j [0, 0, 0]).Gives ((s45.viewOf r0 g45).voxelWord x45 j
      [0, 0, 0]).val) ∧
    (∀ j ∈ List.range 3, ((s45.viewOf r0 g45).voxelWord y45 j [0, 0, 0]).Gives ((s45.viewOf r0 g45).voxelWord y45 j
      [0, 0, 0]).val) ∧
    (g45.breg 5).toNat % 64 ≠ 0 ∧
    ((s45.viewOf r0 g45).resource (g45.breg 7)).Gives none ∧
    (g45.priv = false ∧
      (0 : VReg).val % 8 = 0 ∧
      (∀ k, k < 6 → g45.rank (regAt 0 k) = 2) ∧
      (((0x100 : Word) &&& 0xFFFFF8E0) = 0 ∧ ((0 : Word) &&& 0xFFFFF8E0) = 0)) ∧
    ((s45.viewOf r0 g45).read (g45.breg 6 + .ofNat 64 (8 * 0)) 8).Gives (natLe 8 0x40080) ∧
    ((s45.viewOf r0 g45).read (g45.breg 6 + .ofNat 64 (8 * 1)) 8).Gives (natLe 8 0) ∧
    (x45.pyramid = true ∧
      (x45.position [0x3F000000, 0x3F000000, 0x3F000000]).isSome = true) ∧
    (∀ j ∈ List.range 3, ((s45.viewOf r0 g45).find x45 j (x45.item j (coarser (voxelOf ((x45.position [0x3F000000,
      0x3F000000, 0x3F000000]).getD [])) j))).Gives ((s45.viewOf r0 g45).find x45 j (x45.item j (coarser
      (voxelOf ((x45.position [0x3F000000, 0x3F000000, 0x3F000000]).getD [])) j))).val) ∧
    ((s45.viewOf r0 g45).read (x45.item 1 (coarser (voxelOf ((x45.position [0x3F000000, 0x3F000000,
      0x3F000000]).getD [])) 1)).va 2048).Gives ((s45.viewOf r0 g45).read (x45.item 1 (coarser (voxelOf
      ((x45.position [0x3F000000, 0x3F000000, 0x3F000000]).getD [])) 1)).va 2048).val :=
  ⟨turn_of (by decide +kernel),
    by decide +kernel,
    unlisted_of (by decide +kernel),
    by decide +kernel,
    gives_eq (resource_steady _ _) (by decide +kernel),
    gives_eq (resource_steady _ _) (by decide +kernel),
    by decide +kernel,
    all_of (fun j => ((s45.viewOf r0 g45).find x45 j (x45.item j (coarser [0, 0, 0] j))).run.isOk) (fun j h =>
      gives_val (find_steady _ _ _ _) h) (by decide +kernel),
    all_of (fun j => ((s45.viewOf r0 g45).find y45 j (y45.item j (coarser [0, 0, 0] j))).run.isOk) (fun j h =>
      gives_val (find_steady _ _ _ _) h) (by decide +kernel),
    all_of (fun j => ((s45.viewOf r0 g45).voxelWord x45 j [0, 0, 0]).run.isOk) (fun j h => gives_val
      (voxelWord_steady _ _ _ _) h) (by decide +kernel),
    all_of (fun j => ((s45.viewOf r0 g45).voxelWord y45 j [0, 0, 0]).run.isOk) (fun j h => gives_val
      (voxelWord_steady _ _ _ _) h) (by decide +kernel),
    by decide +kernel,
    gives_none (resource_steady _ _) (by decide +kernel),
    by decide +kernel,
    gives_eq (read_steady _ _ _) (by decide +kernel),
    gives_eq (read_steady _ _ _) (by decide +kernel),
    by decide +kernel,
    all_of (fun j => ((s45.viewOf r0 g45).find x45 j (x45.item j (coarser (voxelOf ((x45.position [0x3F000000,
      0x3F000000, 0x3F000000]).getD [])) j))).run.isOk) (fun j h => gives_val (find_steady _ _ _ _) h)
      (by decide +kernel),
    gives_val (read_steady _ _ _) (by decide +kernel)⟩

/-- A group of the witness of FieldOperationsStart. -/
def g46 : Group :=
  setb 5 0x40004 (setb 3 0x40080 (uni 16 0x100 (uni 17 0x400 (uni 18 0x3D000000 (uni 19 0x30 (uni 20 0x100 (uni 21 0x400 (uni 22 0x600 (uni 23 64 (uni 24 0 (uni 25 0 (uni 26 0 (uni 27 0x08080802 (uni 40 0x80 (uni 41 0x3F800000 (uni 42 0x200 (one 0 (gp 8))))))))))))))))))
/-- A resource of the witness of FieldOperationsStart. -/
def x46 : Resource :=
  ⟨0x40080, true, [24, 16, 16], 0x3F800000, (List.range 3).map fun j => ⟨.ofNat 64 (0x80000 + 0x10000 * j), .ofNat 64 (0x40480 + 16 * j), 0x3E000000⟩⟩
/-- A package of the witness of FieldOperationsStart. -/
def s46 : State := scr 0x100 image (lods (at_ g46))
/-- A box of 8 × 8 × 8 bricks of a pyramid, a program of one primitive and one that is none, one ray with the largest table number used, and results at 0x200. -/
theorem witness_FieldOperationsStart :
    Turn s46 r0 g46 ∧
    (g46.role = .vector ∧
      g46.someActs = true ∧
      g46.ons = [0] ∧
      g46.fwdOpen = [] ∧
      g46.pend < 16 ∧
      g46.swz ≠ 3 ∧
      g46.priv = false) ∧
    Quiet s46 r0 g46 ∧
    (24 : VReg).val % 4 = 0 ∧
    g46.reads (regAt 24 0) 0 ∧
    g46.reads (regAt 24 1) 0 ∧
    g46.reads (regAt 24 2) 0 ∧
    g46.reads (regAt 24 3) 0x08080802 ∧
    g46.reads 40 0x80 ∧
    ((s46.viewOf r0 g46).resource 0x40080).Gives (some x46) ∧
    (x46.pyramid = true ∧
      (g46.breg 5).toNat % 64 ≠ 0 ∧
      (∀ k, k < 3 → 1 ≤ ((0x08080802 : Word).extractLsb' (8 * (k + 1)) 8).toNat ∧ ((0x08080802 : Word).extractLsb' (8 *
        (k + 1)) 8).toNat ≤ 8)) ∧
    Accepts s46 r0 0x80 false false (.bcl 0x40080 [0, 0, 0] 0x08080802) ∧
    g46.reads (regAt 20 0) 0x100 ∧
    g46.reads (regAt 20 1) 0x400 ∧
    g46.reads (regAt 20 2) 0x600 ∧
    g46.reads (regAt 20 3) 64 ∧
    InRange s46 r0 4 16 0x100 0 ∧
    scrXm 0x100 = false ∧
    InWindow s46 r0 g46.swz 4 ((s46.teamOf r0).scrRead g46.swz (scrOff 0x100) (imageLen ((s46.teamOf r0).scrRead
      g46.swz (scrOff 0x100) 16))).length 0x100 0 ∧
    (((s46.teamOf r0).scrRead g46.swz (scrOff 0x100) (imageLen ((s46.teamOf r0).scrRead g46.swz (scrOff 0x100)
        16))).length = imageLen ((s46.teamOf r0).scrRead g46.swz (scrOff 0x100) 16) ∧
      (progOf ((s46.teamOf r0).scrRead g46.swz (scrOff 0x100) (imageLen ((s46.teamOf r0).scrRead g46.swz (scrOff
        0x100) 16)))).isSome = true) ∧
    InRange s46 r0 4 24 0x400 0 ∧
    InRange s46 r0 4 64 0x600 0 ∧
    Accepts s46 r0 0x80 false false (.prn ((s46.teamOf r0).scrRead g46.swz (scrOff 0x100) (imageLen ((s46.teamOf
      r0).scrRead g46.swz (scrOff 0x100) 16))) 0x400 0x600 64 g46.swz) ∧
    g46.reads (regAt 16 0) 0x100 ∧
    g46.reads (regAt 16 1) 0x400 ∧
    g46.reads (regAt 16 2) 0x3D000000 ∧
    g46.reads (regAt 16 3) 0x30 ∧
    (0 : VReg).val % 8 = 0 ∧
    g46.reads (nextReg 40) 0x3F800000 ∧
    InRange s46 r0 16 16 0x400 0 ∧
    (positiveFinite 0x3D000000 = true ∧
      ((0x30 : Word) &&& 0xFFFFFF8C = 0 ∧ (0x30 : Word).extractLsb' 0 2 ≠ 3) ∧
      s46.raySlots (s46.teamOf r0).core + 1 ≤ 512) ∧
    Accepts s46 r0 0x80 false false (.mrch ((s46.teamOf r0).scrRead g46.swz (scrOff 0x100) (imageLen ((s46.teamOf
      r0).scrRead g46.swz (scrOff 0x100) 16))) 0x400 0x3D000000 0x3F800000 0 0x40080 g46.swz [.new 0
      ((List.range 8).map fun k => g46.rd (regAt 0 k) 0)]) ∧
    (g46.rank 0 = 2 ∧ g46.rank (nextReg 0) = 2) ∧
    g46.reads 42 0x200 ∧
    (∀ f ∈ g46.ons, InWindow s46 r0 g46.swz 16 8 (0x200 + .ofNat 32 (16 * f)) 0) ∧
    Turn (at_ g46) r0 g46 ∧
    progOf (((at_ g46).teamOf r0).scrRead g46.swz (scrOff 0x100) (imageLen (((at_ g46).teamOf r0).scrRead g46.swz
      (scrOff 0x100) 16))) = none :=
  ⟨turn_of (by decide +kernel),
    by decide +kernel,
    quiet_of (by decide +kernel),
    by decide +kernel,
    reads_of (by decide +kernel),
    reads_of (by decide +kernel),
    reads_of (by decide +kernel),
    reads_of (by decide +kernel),
    reads_of (by decide +kernel),
    gives_eq (resource_steady _ _) (by decide +kernel),
    by decide +kernel,
    accepts_of (by decide +kernel),
    reads_of (by decide +kernel),
    reads_of (by decide +kernel),
    reads_of (by decide +kernel),
    reads_of (by decide +kernel),
    inRange_of (by decide +kernel),
    by decide +kernel,
    inWindow_of (by decide +kernel),
    by decide +kernel,
    inRange_of (by decide +kernel),
    inRange_of (by decide +kernel),
    accepts_of (by decide +kernel),
    reads_of (by decide +kernel),
    reads_of (by decide +kernel),
    reads_of (by decide +kernel),
    reads_of (by decide +kernel),
    by decide +kernel,
    reads_of (by decide +kernel),
    inRange_of (by decide +kernel),
    by decide +kernel,
    accepts_of (by decide +kernel),
    by decide +kernel,
    reads_of (by decide +kernel),
    windows_of (by decide +kernel),
    turn_of (by decide +kernel),
    by decide +kernel⟩

/-- A operation of the witness of FieldOperationsEnd. -/
def b47 : Op := opOf (.bcl 0x40080 [0, 0, 0] 0x01010101)
/-- A resource of the witness of FieldOperationsEnd. -/
def w47 : Resource :=
  ⟨0x40080, true, [24, 16, 16], 0x3F800000, (List.range 3).map fun j => ⟨.ofNat 64 (0x80000 + 0x10000 * j), .ofNat 64 (0x40480 + 16 * j), 0x3E000000⟩⟩
/-- A operation of the witness of FieldOperationsEnd. -/
def b047 : Op :=
  { opOf (.bcl 0x40080 [0, 0, 0] 0x01010100) with done := 1, seen := [⟨0, ({ lods (at_ (gp 8)) with ops := [] } : State).mem.read 0x2040080 64, 0⟩] ++ (List.range 3).map fun j => ⟨j + 1, (lods (at_ (gp 8))).mem.read (0x2040180 + 32 * j) 32, 0⟩ }
/-- A operation of the witness of FieldOperationsEnd. -/
def b147 : Op :=
  { opOf (.bcl 0x40080 [0, 0, 0] 0x01010101) with done := 1, seen := [⟨0, ({ lods (at_ (gp 8)) with ops := [] } : State).mem.read 0x2040080 64, 0⟩] ++ (List.range 3).map fun j => ⟨j + 1, (lods (at_ (gp 8))).mem.read (0x2040180 + 32 * j) 32, 0⟩ }
/-- A operation of the witness of FieldOperationsEnd. -/
def b347 : Op :=
  { opOf (.bcl 0x40080 [0, 0, 0] 0x01010103) with done := 1, seen := [⟨0, ({ lods (at_ (gp 8)) with ops := [] } : State).mem.read 0x2040080 64, 0⟩] ++ (List.range 3).map fun j => ⟨j + 1, (lods (at_ (gp 8))).mem.read (0x2040180 + 32 * j) 32, 0⟩ }
/-- A package of the witness of FieldOperationsEnd. -/
def s47 : State := { lods (at_ (gp 8)) with ops := [b47] }
/-- A package of the witness of FieldOperationsEnd. -/
def s047 : State := { lods (at_ (gp 8)) with ops := [b047] }
/-- A package of the witness of FieldOperationsEnd. -/
def s147 : State := { lods (at_ (gp 8)) with ops := [b147] }
/-- A package of the witness of FieldOperationsEnd. -/
def s347 : State := { lods (at_ (gp 8)) with ops := [b347] }
/-- A box of one brick of a pyramid before its descriptor is read and after it: at a level where the brick is present, at one where it is not, and beyond the coarsest; and an operation that was captured. -/
theorem witness_FieldOperationsEnd :
    ((∀ c ∈ s47.contexts, c.frames = []) ∧
      b47.done = 0 ∧
      s47.op? 7 = some b47 ∧
      (b47.captured = false ∧ b47.waits = [] ∧ b47.reason = 0 ∧ b47.ring = none) ∧
      ((s47.context? b47.ctx).getD default).recMode = 0 ∧
      (∀ a, a < 3 → 1 ≤ (bclFields 0x01010101).2.getD a 0)) ∧
    ((s47.opView b47).resourceBytes 0x40080).Gives ((s47.opView b47).resourceBytes 0x40080).val ∧
    ((∀ c ∈ s047.contexts, c.frames = []) ∧
      s047.op? 7 = some b047 ∧
      (b047.captured = false ∧ b047.waits = [] ∧ b047.reason = 0 ∧ b047.ring = none) ∧
      ((s047.context? b047.ctx).getD default).recMode = 0 ∧
      (b047.kind = .bcl 0x40080 [0, 0, 0] 0x01010100 ∧ (bclFields 0x01010100).1 = 0) ∧
      1 ≤ b047.done ∧
      resourceOf 0x40080 (b047.seen.map (·.bytes)) = some w47 ∧
      (boxBricks (([0, 0, 0] : List Word).map (·.toNat)) (bclFields 0x01010100).2)[nthChunk 7 1 (b047.done - 1)]? =
        some [0, 0, 0] ∧
      (boxBricks (([0, 0, 0] : List Word).map (·.toNat)) (bclFields 0x01010100).2).length = 1 ∧
      (∀ c ∈ s147.contexts, c.frames = []) ∧
      s147.op? 7 = some b147 ∧
      (b147.captured = false ∧ b147.waits = [] ∧ b147.reason = 0 ∧ b147.ring = none) ∧
      ((s147.context? b147.ctx).getD default).recMode = 0 ∧
      (b147.kind = .bcl 0x40080 [0, 0, 0] 0x01010101 ∧ (bclFields 0x01010101).1 = 1) ∧
      1 ≤ b147.done ∧
      resourceOf 0x40080 (b147.seen.map (·.bytes)) = some w47 ∧
      (boxBricks (([0, 0, 0] : List Word).map (·.toNat)) (bclFields 0x01010101).2)[nthChunk 7 1 (b147.done - 1)]? =
        some [0, 0, 0] ∧
      (boxBricks (([0, 0, 0] : List Word).map (·.toNat)) (bclFields 0x01010101).2).length = 1 ∧
      (∀ c ∈ s347.contexts, c.frames = []) ∧
      s347.op? 7 = some b347 ∧
      (b347.captured = false ∧ b347.waits = [] ∧ b347.reason = 0 ∧ b347.ring = none) ∧
      ((s347.context? b347.ctx).getD default).recMode = 0 ∧
      (b347.kind = .bcl 0x40080 [0, 0, 0] 0x01010103 ∧ (bclFields 0x01010103).1 = 3) ∧
      1 ≤ b347.done ∧
      resourceOf 0x40080 (b347.seen.map (·.bytes)) = some w47 ∧
      (boxBricks (([0, 0, 0] : List Word).map (·.toNat)) (bclFields 0x01010103).2)[nthChunk 7 1 (b347.done - 1)]? =
        some [0, 0, 0] ∧
      (boxBricks (([0, 0, 0] : List Word).map (·.toNat)) (bclFields 0x01010103).2).length = 1 ∧
      (w47.coarsest = 2 ∧ ∀ a, a < 3 → 0 < w47.bricksAt 0 a ∧ 0 < w47.bricksAt 1 a)) ∧
    ((s047.opView b047).find w47 0 (w47.item 0 (coarser (([0, 0, 0] : List Nat).map fun n => n * 8 * 2 ^ 0)
      0))).Gives .absent ∧
    ((s047.opView b047).find w47 1 (w47.item 1 (coarser (([0, 0, 0] : List Nat).map fun n => n * 8 * 2 ^ 0)
      1))).Gives .ok ∧
    ((s147.opView b147).find w47 1 (w47.item 1 (coarser (([0, 0, 0] : List Nat).map fun n => n * 8 * 2 ^ 1)
      1))).Gives .ok ∧
    ({ s47 with ops := [{ b47 with captured := true }] } : State).op? 7 = some { b47 with captured := true } :=
  ⟨by decide +kernel,
    gives_val (resourceBytes_steady _ _) (by decide +kernel),
    by decide +kernel,
    gives_eq (find_steady _ _ _ _) (by decide +kernel),
    gives_eq (find_steady _ _ _ _) (by decide +kernel),
    gives_eq (find_steady _ _ _ _) (by decide +kernel),
    by decide +kernel⟩

/-- A operation of the witness of FieldOperationsEnd. -/
def q47_programs_and_rays : Op := opOf (.prn image 0x1000 0x600 64 0)
/-- A operation of the witness of FieldOperationsEnd. -/
def x47_programs_and_rays : Op :=
  opOf (.mrch image 0x400 0x3C000000 0x3F800000 1 0x40500 0 [.new 2 [0, 0, 0xC0A00000, 0x3D000000, 0, 0x3F800000, 0, 0x41200000], .new 3 []])
/-- A operation of the witness of FieldOperationsEnd. -/
def y47_programs_and_rays : Op :=
  opOf (.mrch image 0x400 0x3C000000 0x3F800000 1 0x40500 0 [.new 2 [0, 0, 0xC0A00000, 0x7FC00000, 0, 0x3F800000, 0, 0x41200000], .new 3 []])
/-- A operation of the witness of FieldOperationsEnd. -/
def v47_programs_and_rays : Op :=
  { opOf (.prn image 0x1000 0x600 64 0) with seen := [⟨0, List.replicate 16 0, 0⟩, ⟨1, List.replicate 8 0, 0⟩], done := 2 }
/-- A operation of the witness of FieldOperationsEnd. -/
def z47_programs_and_rays : Op :=
  { opOf (.prn image 0x1000 0x600 64 0) with seen := [⟨0, List.replicate 16 0, 4⟩, ⟨1, List.replicate 8 0, 0⟩], done := 2 }
/-- A package of the witness of FieldOperationsEnd. -/
def p47_programs_and_rays : State := { at_ (gp 8) with ops := [q47_programs_and_rays] }
/-- A package of the witness of FieldOperationsEnd. -/
def m47_programs_and_rays : State := { lods (at_ (gp 8)) with ops := [x47_programs_and_rays] }
/-- A package of the witness of FieldOperationsEnd. -/
def n47_programs_and_rays : State := { lods (at_ (gp 8)) with ops := [y47_programs_and_rays] }
/-- A package of the witness of FieldOperationsEnd. -/
def r47_programs_and_rays : State := { at_ (gp 8) with ops := [v47_programs_and_rays] }
/-- A package of the witness of FieldOperationsEnd. -/
def t47_programs_and_rays : State := { at_ (gp 8) with ops := [z47_programs_and_rays] }
/-- A pruned program with its box still to read, read and poisoned; a ray that runs, one that ends and a bad one, each with a ray beside it. -/
theorem witness_FieldOperationsEnd_programs_and_rays :
    ((∀ c ∈ p47_programs_and_rays.contexts, c.frames = []) ∧
      q47_programs_and_rays.done = 0 ∧
      p47_programs_and_rays.op? 7 = some q47_programs_and_rays ∧
      (q47_programs_and_rays.captured = false ∧ q47_programs_and_rays.waits = [] ∧ q47_programs_and_rays.reason = 0 ∧
        q47_programs_and_rays.ring = none) ∧
      ((p47_programs_and_rays.context? q47_programs_and_rays.ctx).getD default).recMode = 0 ∧
      p47_programs_and_rays.team? 0 = some (p47_programs_and_rays.teamOf r0) ∧
      (scrXm 0x1000 = false ∧ scrXm 0x600 = false) ∧
      ((p47_programs_and_rays.teamOf r0).scr.wf = true ∧ (p47_programs_and_rays.teamOf r0).scrPoison = []) ∧
      progOf image = some imageProg ∧
      (chunks (scrOff 0x1000) 24).length = 2) ∧
    (∃ y, (chunks (scrOff 0x1000) 24)[nthChunk 7 (chunks (scrOff 0x1000) 24).length q47_programs_and_rays.done]? =
      some y) ∧
    ((∀ c ∈ r47_programs_and_rays.contexts, c.frames = []) ∧
      r47_programs_and_rays.op? 7 = some v47_programs_and_rays ∧
      (v47_programs_and_rays.captured = false ∧ v47_programs_and_rays.waits = [] ∧ v47_programs_and_rays.reason = 0 ∧
        v47_programs_and_rays.ring = none) ∧
      ((r47_programs_and_rays.context? v47_programs_and_rays.ctx).getD default).recMode = 0 ∧
      ((List.range 2).mapM fun i => (v47_programs_and_rays.seen.find? fun x => x.at_ == i && x.reason == 0).map
        (·.bytes)) = some [List.replicate 16 0, List.replicate 8 0] ∧
      (v47_programs_and_rays.done = 2 ∧ r47_programs_and_rays.team? 0 = some (r47_programs_and_rays.teamOf r0) ∧
        (r47_programs_and_rays.teamOf r0).scr.wf = true ∧ (r47_programs_and_rays.teamOf r0).scrPoison = [])) ∧
    (∃ y, (chunks (scrOff 0x600) (pruneOutput image imageProg (boxOf (List.replicate 24 (0 : Byte))) (64 :
      Word).toNat).length)[nthChunk (7 + 1) (chunks (scrOff 0x600) (pruneOutput image imageProg (boxOf
      (List.replicate 24 (0 : Byte))) (64 : Word).toNat).length).length (v47_programs_and_rays.done - 2)]? =
      some y) ∧
    ((∀ c ∈ t47_programs_and_rays.contexts, c.frames = []) ∧
      t47_programs_and_rays.op? 7 = some z47_programs_and_rays ∧
      (z47_programs_and_rays.captured = false ∧ z47_programs_and_rays.waits = [] ∧ z47_programs_and_rays.reason = 0 ∧
        z47_programs_and_rays.ring = none) ∧
      ((t47_programs_and_rays.context? z47_programs_and_rays.ctx).getD default).recMode = 0 ∧
      ((List.range 2).mapM fun i => (z47_programs_and_rays.seen.find? fun x => x.at_ == i && x.reason == 0).map
        (·.bytes)) = none ∧
      (z47_programs_and_rays.done = 2 ∧ t47_programs_and_rays.team? 0 = some (t47_programs_and_rays.teamOf r0) ∧
        (t47_programs_and_rays.teamOf r0).scr.wf = true ∧ (t47_programs_and_rays.teamOf r0).scrPoison = []) ∧
      (∀ c ∈ m47_programs_and_rays.contexts, c.frames = []) ∧
      x47_programs_and_rays.done = 0 ∧
      m47_programs_and_rays.op? 7 = some x47_programs_and_rays ∧
      (x47_programs_and_rays.captured = false ∧ x47_programs_and_rays.waits = [] ∧ x47_programs_and_rays.reason = 0 ∧
        x47_programs_and_rays.ring = none) ∧
      ((m47_programs_and_rays.context? x47_programs_and_rays.ctx).getD default).recMode = 0 ∧
      m47_programs_and_rays.team? 0 = some (m47_programs_and_rays.teamOf r0) ∧
      (scrXm 0x400 = false ∧ scrOff 0x400 % 16 = 0 ∧ (m47_programs_and_rays.teamOf r0).scr.wf = true) ∧
      badRay [0, 0, 0xC0A00000, 0x3D000000, 0, 0x3F800000, 0, 0x41200000] = false) ∧
    (∃ y b, (marchGo ⟨0, (m47_programs_and_rays.teamOf r0).party 0 2 true, (m47_programs_and_rays.teamOf r0).core,
      0x40500⟩ imageProg 1 0x3C000000 0x3F800000 (MRay.new 2 [0, 0, 0xC0A00000, 0x3D000000, 0, 0x3F800000, 0,
      0x41200000])).run (FieldSt.start m47_programs_and_rays (MRay.new 2 [0, 0, 0xC0A00000, 0x3D000000, 0,
      0x3F800000, 0, 0x41200000]) []) = .ok (.more y) b) ∧
    (∃ res b, (marchGo ⟨0, (m47_programs_and_rays.teamOf r0).party 0 2 true, (m47_programs_and_rays.teamOf r0).core,
      0x40500⟩ imageProg 1 0x3C000000 0x3F800000 (MRay.new 2 [0x42C80000, 0, 0xC0A00000, 0x3D000000, 0,
      0x3F800000, 0, 0x3D800000])).run (FieldSt.start m47_programs_and_rays (MRay.new 2 [0x42C80000, 0,
      0xC0A00000, 0x3D000000, 0, 0x3F800000, 0, 0x3D800000]) []) = .ok (.ended res) b ∧ b.st.teams =
      m47_programs_and_rays.teams ∧ b.st.ops = m47_programs_and_rays.ops ∧ b.st.contexts =
      m47_programs_and_rays.contexts) ∧
    ((∀ c ∈ n47_programs_and_rays.contexts, c.frames = []) ∧
      y47_programs_and_rays.done = 0 ∧
      n47_programs_and_rays.op? 7 = some y47_programs_and_rays ∧
      (y47_programs_and_rays.captured = false ∧ y47_programs_and_rays.waits = [] ∧ y47_programs_and_rays.reason = 0 ∧
        y47_programs_and_rays.ring = none) ∧
      ((n47_programs_and_rays.context? y47_programs_and_rays.ctx).getD default).recMode = 0 ∧
      badRay [0, 0, 0xC0A00000, 0x7FC00000, 0, 0x3F800000, 0, 0x41200000] = true) :=
  ⟨by decide +kernel,
    nth_of (by decide +kernel),
    by decide +kernel,
    nth_of (by decide +kernel),
    by decide +kernel,
    more_of (by decide +kernel),
    ended_of (by decide +kernel),
    by decide +kernel⟩

/-- A group of the witness of RaysAndContinuations. -/
def g48 : Group :=
  put 20 (gen fun _ => 0) (put 21 (gen fun f => f) (setb 5 0x20040 (setb 4 0x80000000000000 (setb 3 0x20000 (gp 8)))))
/-- A group of the witness of RaysAndContinuations. -/
def h48 : Group := put 20 (gen fun _ => 0) (put 21 (gen fun f => f) (setb 3 0x20000 { gp 8 with md := 0x00880005 }))
/-- A ray of the witness of RaysAndContinuations. -/
def r48 : Ray :=
  { (default : Ray) with id := 7, ctx := 0, serial := 1, core := 0, words := [0, 0, 0, 0x7FC00000, 0, 0, 0, 0], ctl := 0, root := 0x20000 }
/-- A package of the witness of RaysAndContinuations. -/
def s48 : State := gridded (at_ g48)
/-- A package of the witness of RaysAndContinuations. -/
def t48 : State := gridded (at_ h48)
/-- A package of the witness of RaysAndContinuations. -/
def y48 : State := { gridded (at_ (gp 8)) with rays := [r48] }
/-- A package of the witness of RaysAndContinuations. -/
def c48 : State :=
  { roomy (gridded (at_ (gp 8))) with conts := [⟨0, ⟨0, 1, 0⟩, 0, 0, [1, 2, 3, 4], 100, 0, false, List.replicate 20 0, none⟩, ⟨0, ⟨0, 1, 0⟩, 1, 1, [1, 2, 3, 4], 100, 1, false, List.replicate 20 0, none⟩, ⟨0, ⟨0, 1, 0⟩, 0, 2, [1, 2, 3, 4], 100, 2, false, List.replicate 20 0, none⟩] }
/-- A package of the witness of RaysAndContinuations. -/
def d48 : State := { c48 with idle := [0] }
/-- Sixteen rays of a group that ends and eleven of one that stays, their arrival records, a bad ray that has ended, and a core whose boarding unit has a group due. -/
theorem witness_RaysAndContinuations :
    Turn s48 r0 g48 ∧
    (g48.role = .vector ∧
      g48.priv = false ∧
      g48.ons ≠ []) ∧
    MayEnd s48 r0 g48.ons true ∧
    ((∀ f, f < 16 → (0 : Half).getLsbD f = (g48.live.getLsbD f && !g48.on f)) ∧
      0 < ((s48.grid? (s48.teamOf r0).ctx (s48.teamOf r0).serial).getD default).pgrp ∧
      (0 : VReg).val % 8 = 0 ∧
      s48.raySlots (s48.teamOf r0).core + 16 ≤ 512 ∧
      (g48.ons.filter fun f => !g48.isHelper f) ≠ [] ∧
      (canonical (g48.breg 3) = true ∧ (g48.breg 3).toNat % 128 = 0) ∧
      canonical (g48.breg 4) = false ∧
      (canonical (g48.breg 5) = true ∧ (g48.breg 5).toNat % 128 ≠ 0) ∧
      (∀ f ∈ g48.ons, targetOk ((s48.grid? (s48.teamOf r0).ctx (s48.teamOf r0).serial).getD default).targets (g48.rd 20
        f) 0 = true)) ∧
    Turn t48 r0 h48 ∧
    MayEnd t48 r0 h48.ons false ∧
    ((∀ f, f < 16 → (0xF800 : Half).getLsbD f = (h48.live.getLsbD f && !h48.on f)) ∧
      g48.pend < 16 ∧
      g48.rank 0 = 2) ∧
    Quiet s48 r0 g48 ∧
    (∀ f ∈ g48.ons, InWindow s48 r0 0 4 4 (.ofNat 32 (0x3000 + 80 * f + 4 * 19)) 0) ∧
    (((8 : BitVec 6).toNat < 9 ∧ 9 ≤ (9 : BitVec 6).toNat ∧ (10 : BitVec 6).toNat < 11 ∧ 11 ≤ (11 : BitVec 6).toNat) ∧
      y48.rays.find? (·.id == 7) = some r48 ∧
      r48.waits = [] ∧
      (y48.boarded r48.core).length < 512 ∧
      y48.grid? r48.ctx r48.serial = some (y48.grids.headD default) ∧
      badRay r48.words = true) ∧
    (∃ w b, (walkRay ⟨r48.ctx, r48.party, r48.core, 0⟩ ⟨(y48.grids.headD default).targets, r48.ctl, r48.words⟩
      r48.root).run (FieldSt.start y48 { MRay.new 0 r48.words with memo := r48.memo } r48.got) = .ok w b) ∧
    ((c48.boarded 0 ≠ [] ∧ c48.idle.contains 0 = false) ∧
      d48.grid? 0 1 = some (d48.grids.headD default) ∧
      d48.context? 0 = some (d48.contexts.headD default) ∧
      (d48.contexts.headD default).recMode = 0 ∧
      d48.contTeams (d48.grids.headD default) < (d48.grids.headD default).pgrp ∧
      d48.rasterGroup 0 ⟨0, 1, 0⟩ = [] ∧
      d48.groupDue 0 ⟨0, 1, 0⟩ = true ∧
      d48.coreFor (d48.contexts.headD default) 0 = true ∧
      d48.placeClaimed = none ∧
      d48.firstClass.head? = some (.bin 0 ⟨0, 1, 0⟩) ∧
      (d48.place (d48.contexts.headD default) [0] (d48.grids.headD default).contNeed).isSome = true ∧
      (∀ y ∈ (d48.binOf 0 ⟨0, 1, 0⟩).take 16, y.arrival.length = 20)) :=
  ⟨turn_of (by decide +kernel),
    by decide +kernel,
    mayEnd_of (by decide +kernel),
    by decide +kernel,
    turn_of (by decide +kernel),
    mayEnd_of (by decide +kernel),
    by decide +kernel,
    quiet_of (by decide +kernel),
    windows_of (by decide +kernel),
    by decide +kernel,
    run_of (by decide +kernel),
    by decide +kernel⟩

/-- A group of the witness of ScreenTiles. -/
def g49 : Group := put 20 (gen fun f => 8 * f) (uni 40 0x100 (uni 41 0x80 (uni 42 0x140 (gp 8))))
/-- A operation of the witness of ScreenTiles. -/
def o49 : Op :=
  opOf (.rast (natLe 8 0x40000 ++ natLe 4 1 ++ natLe 2 0 ++ natLe 2 2 ++ natLe 2 4 ++ natLe 2 2 ++ natLe 4 0x200 ++ natLe 4 2 ++ natLe 4 7 ++ List.replicate 32 0) 0)
/-- A package of the witness of ScreenTiles. -/
def s49 : State :=
  scr 0x140 (natLe 8 0x40000 ++ natLe 4 1 ++ natLe 2 0 ++ natLe 2 2 ++ natLe 2 4 ++ natLe 2 2 ++ natLe 4 0x200 ++ natLe 4 3 ++ natLe 4 7 ++ List.replicate 32 0) (scr 0x100 (natLe 8 0x40000 ++ natLe 4 1 ++ natLe 2 0 ++ natLe 2 2 ++ natLe 2 4 ++ natLe 2 2 ++ natLe 4 0x200 ++ natLe 4 2 ++ natLe 4 7 ++ List.replicate 32 0) (poke 0x2040000 (w32 [0, 0, 0x3F000000, 0x41000000, 0, 0x3E800000, 0, 0x41000000, 0x3F400000, 5]) (gridded (at_ g49))))
/-- A package of the witness of ScreenTiles. -/
def q49 : State := { s49 with ops := [o49] }
/-- Sixteen depth pairs, a tile of one triangle, one whose target is the first that is not there, and the operation. -/
theorem witness_ScreenTiles :
    Turn s49 r0 g49 ∧
    (g49.role = .vector ∧
      g49.swz ≠ 3 ∧
      g49.rank 0 = 2 ∧
      g49.rank (nextReg 0) = 2) ∧
    Unlisted s49 r0 g49 ∧
    (∀ f ∈ (g49.ons.filter fun f => !g49.isHelper f), InWindow s49 r0 g49.swz 8 8 (g49.rd 20 f) 0) ∧
    (g49.someActs = true ∧
      g49.fwdOpen = []) ∧
    g49.reads 40 0x100 ∧
    g49.reads 41 0x80 ∧
    InWindow s49 r0 g49.swz 16 64 0x100 0 ∧
    (s49.scrBytesAt 0 g49.swz 0x100 64 = (natLe 8 0x40000 ++ natLe 4 1 ++ natLe 2 0 ++ natLe 2 2 ++ natLe 2 4 ++
        natLe 2 2 ++ natLe 4 0x200 ++ natLe 4 2 ++ natLe 4 7 ++ List.replicate 32 0) ∧
      (tileDesc (natLe 8 0x40000 ++ natLe 4 1 ++ natLe 2 0 ++ natLe 2 2 ++ natLe 2 4 ++ natLe 2 2 ++ natLe 4 0x200 ++
        natLe 4 2 ++ natLe 4 7 ++ List.replicate 32 0)).bad (natLe 8 0x40000 ++ natLe 4 1 ++ natLe 2 0 ++ natLe
        2 2 ++ natLe 2 4 ++ natLe 2 2 ++ natLe 4 0x200 ++ natLe 4 2 ++ natLe 4 7 ++ List.replicate 32 0)
        (s49.teamOf r0).scrBytes 3 = false ∧
      ((s49.grid? (s49.teamOf r0).ctx (s49.teamOf r0).serial).map (·.targets.length)).getD 0 = 3 ∧
      (s49.scrMisuse (s49.teamOf r0) (tileDesc (natLe 8 0x40000 ++ natLe 4 1 ++ natLe 2 0 ++ natLe 2 2 ++ natLe 2 4 ++
        natLe 2 2 ++ natLe 4 0x200 ++ natLe 4 2 ++ natLe 4 7 ++ List.replicate 32 0)).depth = false ∧ s49.scrTid
        (s49.teamOf r0) (tileDesc (natLe 8 0x40000 ++ natLe 4 1 ++ natLe 2 0 ++ natLe 2 2 ++ natLe 2 4 ++ natLe
        2 2 ++ natLe 4 0x200 ++ natLe 4 2 ++ natLe 4 7 ++ List.replicate 32 0)).depth = some 0)) ∧
    ((s49.viewOf r0 g49).read (tileDesc (natLe 8 0x40000 ++ natLe 4 1 ++ natLe 2 0 ++ natLe 2 2 ++ natLe 2 4 ++
      natLe 2 2 ++ natLe 4 0x200 ++ natLe 4 2 ++ natLe 4 7 ++ List.replicate 32 0)).tri (40 * (tileDesc (natLe
      8 0x40000 ++ natLe 4 1 ++ natLe 2 0 ++ natLe 2 2 ++ natLe 2 4 ++ natLe 2 2 ++ natLe 4 0x200 ++ natLe 4 2
      ++ natLe 4 7 ++ List.replicate 32 0)).count)).Gives (w32 [0, 0, 0x3F000000, 0x41000000, 0, 0x3E800000,
      0, 0x41000000, 0x3F400000, 5]) ∧
    Accepts s49 r0 0x80 false false (.rast (natLe 8 0x40000 ++ natLe 4 1 ++ natLe 2 0 ++ natLe 2 2 ++ natLe 2 4 ++
      natLe 2 2 ++ natLe 4 0x200 ++ natLe 4 2 ++ natLe 4 7 ++ List.replicate 32 0) g49.swz) ∧
    g49.reads 42 0x140 ∧
    InWindow s49 r0 g49.swz 16 64 0x140 0 ∧
    ((tileDesc (s49.scrBytesAt 0 g49.swz 0x140 64)).bad (s49.scrBytesAt 0 g49.swz 0x140 64) (s49.teamOf r0).scrBytes
        3 = true ∧
      g49.priv = false ∧
      q49.op? 7 = some o49 ∧
      (o49.captured = false ∧ o49.waits = [] ∧ o49.reason = 0 ∧ o49.ring = none) ∧
      ((q49.context? o49.ctx).getD default).recMode = 0 ∧
      q49.team? 0 = some (q49.teamOf r0) ∧
      ((q49.teamOf r0).scr.wf = true ∧ (q49.teamOf r0).scrPoison = []) ∧
      scrXm (tileDesc (natLe 8 0x40000 ++ natLe 4 1 ++ natLe 2 0 ++ natLe 2 2 ++ natLe 2 4 ++ natLe 2 2 ++ natLe 4
        0x200 ++ natLe 4 2 ++ natLe 4 7 ++ List.replicate 32 0)).depth = false ∧
      (scrOff (tileDesc (natLe 8 0x40000 ++ natLe 4 1 ++ natLe 2 0 ++ natLe 2 2 ++ natLe 2 4 ++ natLe 2 2 ++ natLe 4
        0x200 ++ natLe 4 2 ++ natLe 4 7 ++ List.replicate 32 0)).depth % 8 = 0 ∧ 0 < (tileDesc (natLe 8 0x40000
        ++ natLe 4 1 ++ natLe 2 0 ++ natLe 2 2 ++ natLe 2 4 ++ natLe 2 2 ++ natLe 4 0x200 ++ natLe 4 2 ++ natLe
        4 7 ++ List.replicate 32 0)).storeChunks.length ∧ (tileDesc (natLe 8 0x40000 ++ natLe 4 1 ++ natLe 2 0
        ++ natLe 2 2 ++ natLe 2 4 ++ natLe 2 2 ++ natLe 4 0x200 ++ natLe 4 2 ++ natLe 4 7 ++ List.replicate 32
        0)).listChunks.length = 3)) ∧
    (∃ a n got reason, (tileDesc (natLe 8 0x40000 ++ natLe 4 1 ++ natLe 2 0 ++ natLe 2 2 ++ natLe 2 4 ++ natLe 2 2 ++
      natLe 4 0x200 ++ natLe 4 2 ++ natLe 4 7 ++ List.replicate 32 0)).listChunks[nthChunk 7 (tileDesc (natLe
      8 0x40000 ++ natLe 4 1 ++ natLe 2 0 ++ natLe 2 2 ++ natLe 2 4 ++ natLe 2 2 ++ natLe 4 0x200 ++ natLe 4 2
      ++ natLe 4 7 ++ List.replicate 32 0)).listChunks.length o49.done]? = some (a, n) ∧ ((q49.opView
      o49).chunk (.ofNat 64 a) n).Gives (got, reason)) ∧
    ({ q49 with ops := [{ o49 with done := 3 }] } : State).op? 7 = some { o49 with done := 3 } ∧
    (∃ y, (tileDesc (natLe 8 0x40000 ++ natLe 4 1 ++ natLe 2 0 ++ natLe 2 2 ++ natLe 2 4 ++ natLe 2 2 ++ natLe 4
      0x200 ++ natLe 4 2 ++ natLe 4 7 ++ List.replicate 32 0)).storeChunks[nthChunk (7 + 1) (tileDesc (natLe 8
      0x40000 ++ natLe 4 1 ++ natLe 2 0 ++ natLe 2 2 ++ natLe 2 4 ++ natLe 2 2 ++ natLe 4 0x200 ++ natLe 4 2
      ++ natLe 4 7 ++ List.replicate 32 0)).storeChunks.length (3 - (tileDesc (natLe 8 0x40000 ++ natLe 4 1 ++
      natLe 2 0 ++ natLe 2 2 ++ natLe 2 4 ++ natLe 2 2 ++ natLe 4 0x200 ++ natLe 4 2 ++ natLe 4 7 ++
      List.replicate 32 0)).listChunks.length)]? = some y) ∧
    ((∀ c ∈ q49.contexts, c.frames = []) ∧
      o49.done = 0 ∧
      ({ q49 with ops := [{ o49 with waits := [1] }] } : State).op? 7 = some { o49 with waits := [1] }) :=
  ⟨turn_of (by decide +kernel),
    by decide +kernel,
    unlisted_of (by decide +kernel),
    windows_of (by decide +kernel),
    by decide +kernel,
    reads_of (by decide +kernel),
    reads_of (by decide +kernel),
    inWindow_of (by decide +kernel),
    by decide +kernel,
    gives_eq (read_steady _ _ _) (by decide +kernel),
    accepts_of (by decide +kernel),
    reads_of (by decide +kernel),
    inWindow_of (by decide +kernel),
    by decide +kernel,
    step_of (by decide +kernel),
    by decide +kernel,
    nth_of (by decide +kernel),
    by decide +kernel⟩

end Sys2Proof.Tests
end

