-- ==== Sys2Proof/Tests/WitnessWords.lean ====
section
/-! SUPPORT. For each statement about the integer, float, predicate, base, mode and control words and traps: concrete packages and operands that meet its premises together. -/
namespace Sys2Proof.Tests
open Sys2Proof Sys2Proof.Machine
-- one proof after another: each waits for the kernel
set_option Elab.async false

/-- Operands of each premise of IntegerRegisterForms. -/
theorem witness_IntegerRegisterForms :
    Turn (at_ (gp 2)) r0 (gp 2) ∧
    (isIntType (gp 2).type = true ∧
      affineIf (gp 2).affineTyped (productShape ((gp 2).rank 1) ((gp 2).rank 2)) ≤ (gp 2).rank 0 ∧
      otherShape [(gp 2).rank 1, (gp 2).rank 2] ≤ (gp 2).rank 0 ∧
      (gp 2).rank 1 ≤ (gp 2).rank 0 ∧
      shiftShape ((gp 2).rank 8) ((gp 2).rank 9) ≤ (gp 2).rank 8 ∧
      (if (gp 2).gpred = 0 then (if (gp 2).ginv then (gp 2).rank 2 else (gp 2).rank 1) else 2) ≤ (gp 2).rank 0) :=
  ⟨turn_of (by decide +kernel),
    by decide +kernel⟩

/-- Operands of each premise of IntegerComparisonsAndImmediates; 31 is the last shift amount. -/
theorem witness_IntegerComparisonsAndImmediates :
    Turn (at_ (gp 5)) r0 (gp 5) ∧
    (isIntType (gp 5).type = true ∧
      (31 : BitVec 12).toNat < 32 ∧
      shiftShape ((gp 5).rank 1) 0 ≤ (gp 5).rank 0 ∧
      0 ≤ (gp 5).rank 9) :=
  ⟨turn_of (by decide +kernel),
    by decide +kernel⟩

/-- A uniform destination of general operands. -/
theorem witness_ResultTooWideTraps :
    Turn (at_ (gp 2)) r0 (gp 2) ∧
    ((gp 2).priv = false ∧
      isIntType (gp 2).type = true ∧
      (gp 2).rank 9 < affineIf (gp 2).affineTyped (linearShape [(gp 2).rank 1, (gp 2).rank 2]) ∧
      (gp 2).rank 9 < affineIf (gp 2).affineTyped (productShape ((gp 2).rank 1) ((gp 2).rank 2)) ∧
      (gp 2).rank 9 < affineIf (gp 2).affineTyped ((gp 2).rank 1) ∧
      (gp 2).rank 9 < otherShape [(gp 2).rank 1, (gp 2).rank 2] ∧
      (gp 2).rank 9 < shiftShape ((gp 2).rank 1) ((gp 2).rank 2) ∧
      (gp 2).rank 9 < (gp 2).rank 1 ∧
      (gp 2).rank 9 < (if (gp 2).gpred = 0 then (if (gp 2).ginv then (gp 2).rank 2 else (gp 2).rank 1) else 2)) :=
  ⟨turn_of (by decide +kernel),
    by decide +kernel⟩

/-- A group of the witness of FloatRegisterForms. -/
def g4 : Group := { gp 6 with md := 0x00864000 }
/-- A group of type f16 with the last rounding mode, for each premise of FloatRegisterForms. -/
theorem witness_FloatRegisterForms :
    Turn (at_ g4) r0 g4 ∧
    (g4.role = .vector ∧
      isFloatType g4.type = true ∧
      g4.rnd ≤ 4 ∧
      (g4.type = 6 ∨ g4.type = 7) ∧
      otherShape ([1, 2, 0].map g4.rank) ≤ g4.rank 0) :=
  ⟨turn_of (by decide +kernel),
    by decide +kernel⟩

/-- A group of type f32, and a NaN beside a number. -/
theorem witness_FloatSelections :
    Turn (at_ (gp 8)) r0 (gp 8) ∧
    ((gp 8).role = .vector ∧
      isFloatType (gp 8).type = true ∧
      otherShape ([1, 2].map (gp 8).rank) ≤ (gp 8).rank 0 ∧
      ((fpOf 8 false 0x7FA00000).isNan || (fpOf 8 false 0x3F800000).isNan) = true) :=
  ⟨turn_of (by decide +kernel),
    by decide +kernel⟩

/-- A group of the witness of ConversionsAndPacking. -/
def c6 : Group := { gp 2 with md := 0x00824000 }
/-- A group of the witness of ConversionsAndPacking. -/
def p6 : Group := { gp 6 with md := 0x00864000 }
/-- A group of the witness of ConversionsAndPacking. -/
def q6 : Group := seth 0 (2 ^ 64 + 0x75430 * 2 ^ 384) { gp 8 with md := 0x008A4000 }
/-- A group of the witness of ConversionsAndPacking. -/
def d6 : Group := seth 0 (2 ^ 64 + 0x75430 * 2 ^ 384) { gp 8 with md := 0x00A84000 }
/-- A group for each of `cvt`, `pk` and `upk`, `qnt`, `dqn` and `dp4`: f32 to i32, f16 (whose last element of a word is 1), f32 with a narrow type, and i8. -/
theorem witness_ConversionsAndPacking :
    Turn (at_ c6) r0 c6 ∧
    ((isReservedType c6.stype = false ∧ c6.badFmt0 c6.stype = false ∧ (isNarrowType c6.stype = true → 1 ≤ handleType
        (c6.hreg 0) ∧ handleType (c6.hreg 0) ≤ 4)) ∧
      (isReservedType c6.type = false ∧ c6.badFmt0 c6.type = false ∧ (isNarrowType c6.type = true → 1 ≤ handleType
        (c6.hreg 0) ∧ handleType (c6.hreg 0) ≤ 4)) ∧
      c6.rnd ≤ 4) ∧
    Turn (at_ p6) r0 p6 ∧
    (p6.role = .vector ∧
      (isReservedType p6.type = false ∧ p6.badFmt0 p6.type = false ∧ (isNarrowType p6.type = true → 1 ≤ handleType
        (p6.hreg 0) ∧ handleType (p6.hreg 0) ≤ 4)) ∧
      isPackType p6.type = true ∧
      p6.rnd ≤ 4 ∧
      (1 : BitVec 6).toNat < 32 / p6.packWidth) ∧
    Turn (at_ q6) r0 q6 ∧
    (isFloatType q6.stype = true ∧
      isNarrowType q6.type = true ∧
      (isReservedType q6.type = false ∧ q6.badFmt0 q6.type = false ∧ (isNarrowType q6.type = true → 1 ≤ handleType
        (q6.hreg 0) ∧ handleType (q6.hreg 0) ≤ 4)) ∧
      q6.rnd ≤ 4 ∧
      5 ≤ (nfmtOf (q6.fmt0 q6.type)).width) ∧
    Turn (at_ d6) r0 d6 ∧
    (isNarrowType d6.stype = true ∧
      isFloatType d6.type = true ∧
      (isReservedType d6.stype = false ∧ d6.badFmt0 d6.stype = false ∧ (isNarrowType d6.stype = true → 1 ≤ handleType
        (d6.hreg 0) ∧ handleType (d6.hreg 0) ≤ 4))) ∧
    Turn (at_ (gp 0)) r0 (gp 0) ∧
    ((gp 0).type = 0 ∨ (gp 0).type = 3) :=
  ⟨turn_of (by decide +kernel),
    by decide +kernel,
    turn_of (by decide +kernel),
    by decide +kernel,
    turn_of (by decide +kernel),
    by decide +kernel,
    turn_of (by decide +kernel),
    by decide +kernel,
    turn_of (by decide +kernel),
    by decide +kernel⟩

/-- A group whose p5 holds in fibres 0 to 10. -/
theorem witness_PredicateInstructions :
    Turn (at_ (gp 2)) r0 (gp 2) ∧
    ((∀ f, f < 32 → (0x7FF : Word).getLsbD f = (decide (f < 16) && (gp 2).active f && ((gp 2).preg 5).getLsbD f)) ∧
      otherShape [] ≤ (gp 2).rank 9) :=
  ⟨turn_of (by decide +kernel),
    by decide +kernel⟩

/-- A group of the witness of BaseRegisterInstructions. -/
def z8 : Group := { gp 2 with md := 0x00820007, p := 0xFFFF :: List.replicate 7 0 }
/-- Uniform operands; a group whose guard no fibre passes; the first bad selector. -/
theorem witness_BaseRegisterInstructions :
    Turn (at_ (gp 2)) r0 (gp 2) ∧
    (gp 2).reads 9 9 ∧
    (gp 2).reads 10 10 ∧
    ((gp 2).ons ≠ [] ∧
      (1 : BitVec 6).toNat < 2) ∧
    Turn (at_ z8) r0 z8 ∧
    (z8.ons = [] ∧
      2 ≤ (2 : Fin 64).val ∧
      (7 : Fin 64).val < 8) :=
  ⟨turn_of (by decide +kernel),
    reads_of (by decide +kernel),
    reads_of (by decide +kernel),
    by decide +kernel,
    turn_of (by decide +kernel),
    by decide +kernel⟩

/-- A group for the mode words, with both ranges of `gshape`. -/
theorem witness_ModeInstructions :
    Holds (at_ (gp 2)) r0 (gp 2) ∧
    Turn (at_ (gp 2)) r0 (gp 2) ∧
    (gp 2).reads 9 9 ∧
    ((4 : BitVec 6).toNat = 4 ∧
      (3 : BitVec 6).toNat < 4 ∧
      (∀ j, j < 16 → ((0 : Word).extractLsb' (2 * j) 2).toNat = ((gp 2).v.getD (16 * (3 : BitVec 6).toNat + j) (.uni
        0)).rank) ∧
      0 ≤ (gp 2).rank 9) :=
  ⟨holds_of (by decide +kernel),
    turn_of (by decide +kernel),
    reads_of (by decide +kernel),
    by decide +kernel⟩

/-- A group of the witness of ShapeInstruction. -/
def z10 : Group := { gp 2 with budget := 184 }
/-- A group inside its budget and one beyond it. -/
theorem witness_ShapeInstruction :
    Holds (at_ (gp 2)) r0 (gp 2) ∧
    ((2 : BitVec 2).toNat < 3 ∧
      ((gp 2).v.map VVal.words).sum ≤ (gp 2).budget) ∧
    Holds (at_ z10) r0 z10 ∧
    (z10.priv = false ∧
      z10.budget < (z10.v.map VVal.words).sum) :=
  ⟨holds_of (by decide +kernel),
    by decide +kernel,
    holds_of (by decide +kernel),
    by decide +kernel⟩

/-- A vector group with a uniform index. -/
theorem witness_CrossFibreReads :
    Turn (at_ (gp 2)) r0 (gp 2) ∧
    (gp 2).role = .vector ∧
    (gp 2).reads 9 9 ∧
    2 ≤ (gp 2).rank 0 :=
  ⟨turn_of (by decide +kernel),
    by decide +kernel,
    reads_of (by decide +kernel),
    by decide +kernel⟩

/-- A group of the witness of Reductions. -/
def f12 : Group := { gp 6 with md := 0x00864000 }
/-- A group of the witness of Reductions. -/
def z12 : Group := { gp 2 with count := 1 :: List.replicate 15 0 }
/-- A converged group of an integer and of a float type, and one that has diverged. -/
theorem witness_Reductions :
    Turn (at_ (gp 2)) r0 (gp 2) ∧
    ((gp 2).role = .vector ∧
      (gp 2).converged = true ∧
      isIntType (gp 2).type = true) ∧
    Turn (at_ f12) r0 f12 ∧
    (f12.converged = true ∧
      isFloatType f12.type = true ∧
      f12.rnd ≤ 4) ∧
    Turn (at_ z12) r0 z12 ∧
    (z12.role = .vector ∧
      z12.priv = false ∧
      z12.converged = false) :=
  ⟨turn_of (by decide +kernel),
    by decide +kernel,
    turn_of (by decide +kernel),
    by decide +kernel,
    turn_of (by decide +kernel),
    by decide +kernel⟩

/-- A converged group with a fibre on. -/
theorem witness_PairReductions :
    Turn (at_ (gp 2)) r0 (gp 2) ∧
    ((gp 2).role = .vector ∧
      (gp 2).converged = true ∧
      (gp 2).ons ≠ [] ∧
      (isIntType (gp 2).type = true ∨ isFloatType (gp 2).type = true)) :=
  ⟨turn_of (by decide +kernel),
    by decide +kernel⟩

/-- A group of the witness of StructuredControl. -/
def g14 : Group := { gp 2 with count := 1 :: List.replicate 15 2 }
/-- A group of the witness of StructuredControl. -/
def z14 : Group := { gp 2 with count := 255 :: List.replicate 15 2 }
/-- A group of the witness of StructuredControl. -/
def p14 : Group := { gp 2 with priv := true }
/-- Counts at both ends of their range, the two ways through `endloop`, and a privileged group. -/
theorem witness_StructuredControl :
    Holds (at_ g14) r0 g14 ∧
    (g14.priv = false ∧
      (¬ ∃ f, f < 16 ∧ g14.live.getLsbD f = true ∧ 0 < g14.countAt f ∧ 255 < g14.countAt f + 2) ∧
      (∃ f, f < 16 ∧ g14.live.getLsbD f = true ∧ g14.countAt f ≤ 1)) ∧
    Holds (at_ z14) r0 z14 ∧
    (z14.priv = false ∧
      (∃ f, f < 16 ∧ z14.live.getLsbD f = true ∧ 0 < z14.countAt f ∧ 255 < z14.countAt f + 1) ∧
      (∃ f, f < 16 ∧ z14.live.getLsbD f = true ∧ 0 < z14.countAt f ∧ 255 < z14.countAt f + 2) ∧
      (∀ f, f < 16 → z14.live.getLsbD f = true → 2 ≤ z14.countAt f)) ∧
    Holds (at_ p14) r0 p14 ∧
    p14.priv = true :=
  ⟨holds_of (by decide +kernel),
    by decide +kernel,
    holds_of (by decide +kernel),
    by decide +kernel,
    holds_of (by decide +kernel),
    by decide +kernel⟩

/-- A group of the witness of JumpsFollowTheGuard. -/
def z15 : Group := { gp 2 with md := 0x00820007, p := 0xFFFF :: List.replicate 7 0 }
/-- A group of the witness of JumpsFollowTheGuard. -/
def x15 : Group := { gp 2 with md := 0x00820005 }
/-- A guard that every fibre passes, one that none passes and one that some pass. -/
theorem witness_JumpsFollowTheGuard :
    Turn (at_ (gp 2)) r0 (gp 2) ∧
    (gp 2).actives.all (gp 2).passes = true ∧
    (gp 2).reads 9 9 ∧
    Turn (at_ z15) r0 z15 ∧
    z15.actives.any z15.passes = false ∧
    z15.reads 9 9 ∧
    Turn (at_ x15) r0 x15 ∧
    (x15.actives.any x15.passes = true ∧
      x15.actives.all x15.passes = false ∧
      x15.priv = false) :=
  ⟨turn_of (by decide +kernel),
    by decide +kernel,
    reads_of (by decide +kernel),
    turn_of (by decide +kernel),
    by decide +kernel,
    reads_of (by decide +kernel),
    turn_of (by decide +kernel),
    by decide +kernel⟩

/-- A group of the witness of ExitEndsFibres. -/
def x16 : Group := { gp 2 with md := 0x00820005 }
/-- A group that ends whole and one of which some fibres stay. -/
theorem witness_ExitEndsFibres :
    Turn (at_ (gp 2)) r0 (gp 2) ∧
    ((gp 2).priv = false ∧
      (∀ f, f < 16 → (0 : Half).getLsbD f = ((gp 2).live.getLsbD f && !(gp 2).on f))) ∧
    MayEnd (at_ (gp 2)) r0 (gp 2).ons true ∧
    Turn (at_ x16) r0 x16 ∧
    (x16.priv = false ∧
      (∀ f, f < 16 → (0xF800 : Half).getLsbD f = (x16.live.getLsbD f && !x16.on f))) ∧
    MayEnd (at_ x16) r0 x16.ons false ∧
    (0xF800 : Half) ≠ 0 :=
  ⟨turn_of (by decide +kernel),
    by decide +kernel,
    mayEnd_of (by decide +kernel),
    turn_of (by decide +kernel),
    by decide +kernel,
    mayEnd_of (by decide +kernel),
    by decide +kernel⟩

/-- A group of the witness of LeavingPrivilegedMode. -/
def g17 : Group := { gp 2 with priv := true, cause := 0x8000000C }
/-- A package of the witness of LeavingPrivilegedMode. -/
def s17 : State := team (fun t => { t with phase := .preempting }) (at_ g17)
/-- A privileged group in a team that is being pre-empted and in one that runs, and an unprivileged one. -/
theorem witness_LeavingPrivilegedMode :
    Holds s17 r0 g17 ∧
    (g17.priv = true ∧
      ((s17.teamOf r0).phase = .preempting ∨ (s17.teamOf r0).phase = .saving) ∧
      g17.cause.extractLsb' 0 16 = 12) ∧
    Holds (at_ g17) r0 g17 ∧
    (¬ ((((at_ g17).teamOf r0).phase = .preempting ∨ ((at_ g17).teamOf r0).phase = .saving) ∧ g17.cause.extractLsb' 0
      16 = 12)) ∧
    Holds (at_ (gp 2)) r0 (gp 2) ∧
    (gp 2).priv = false :=
  ⟨holds_of (by decide +kernel),
    by decide +kernel,
    holds_of (by decide +kernel),
    by decide +kernel,
    holds_of (by decide +kernel),
    by decide +kernel⟩

/-- A group of the witness of TakingATrap. -/
def g18 : Group := { gp 2 with trapDue := some ⟨.page, 0, 5⟩ }
/-- A group of the witness of TakingATrap. -/
def z18 : Group := { gp 2 with md := 0x00820007, p := 0xFFFF :: List.replicate 7 0 }
/-- A group with a fibre on, one with none, and one with a trap due. -/
theorem witness_TakingATrap :
    Turn (at_ g18) r0 g18 ∧
    (g18.ons ≠ [] ∧
      g18.priv = false ∧
      g18.ended = false ∧
      g18.trapDue = some ⟨.page, 0, 5⟩ ∧
      (at_ g18).group? r0 = some g18 ∧
      (at_ g18).cur = some r0) ∧
    Turn (at_ z18) r0 z18 ∧
    z18.ons = [] :=
  ⟨turn_of (by decide +kernel),
    by decide +kernel,
    turn_of (by decide +kernel),
    by decide +kernel⟩

/-- A group of the witness of PrivilegedTrapLosesTheContext. -/
def g19 : Group := { gp 2 with priv := true }
/-- A group of the witness of PrivilegedTrapLosesTheContext. -/
def x19 : Group := { gp 2 with md := 0x00820005, priv := true }
/-- A privileged group with a fibre on, a result too wide and a general operand, and one of which some fibres pass. -/
theorem witness_PrivilegedTrapLosesTheContext :
    Turn (at_ g19) r0 g19 ∧
    (g19.priv = true ∧
      g19.ons ≠ []) ∧
    (∀ x, ¬ g19.reads 1 x) ∧
    Turn (at_ x19) r0 x19 ∧
    (x19.priv = true ∧
      x19.actives.any x19.passes = true ∧
      x19.actives.all x19.passes = false ∧
      g19.rank 9 < otherShape [g19.rank 1, g19.rank 2] ∧
      (∀ c ∈ (at_ g19).contexts, c.frames = [])) :=
  ⟨turn_of (by decide +kernel),
    by decide +kernel,
    not_reads_of 0 1 (by decide +kernel),
    turn_of (by decide +kernel),
    by decide +kernel⟩

/-- A group of the witness of YieldAndResults. -/
def a20 : Group := { gp 2 with awaited := 1, wait := .marker }
/-- A group of the witness of YieldAndResults. -/
def b20 : Group := { gp 2 with awaited := 2, wait := .none }
/-- A group of the witness of YieldAndResults. -/
def c20 : Group := { gp 2 with awaited := 1, wait := .none }
/-- A group of the witness of YieldAndResults. -/
def d20 : Group := { gp 2 with inSet := false, wait := .none }
/-- A last result that is waited for, one of two and one not waited for, a group with none, and a pending group. -/
theorem witness_YieldAndResults :
    ((at_ a20).group? r0 = some a20 ∧
      (a20.awaited = 1 ∧ a20.wait = .marker) ∧
      (at_ b20).group? r0 = some b20 ∧
      1 < b20.awaited ∧
      (at_ c20).group? r0 = some c20 ∧
      (c20.awaited = 1 ∧ c20.wait ≠ .marker)) ∧
    Turn (at_ c20) r0 c20 ∧
    0 < c20.awaited ∧
    Turn (at_ (gp 2)) r0 (gp 2) ∧
    ((gp 2).awaited = 0 ∧
      (at_ d20).group? r0 = some d20 ∧
      d20.inSet = false ∧
      d20.ended = false ∧
      d20.wait = .none) :=
  ⟨by decide +kernel,
    turn_of (by decide +kernel),
    by decide +kernel,
    turn_of (by decide +kernel),
    by decide +kernel⟩

end Sys2Proof.Tests
end

/-! SUPPORT. The words of a handle register, one plain access whose bytes the package holds, and the handle instructions (O32). -/
namespace Sys2Proof.Machine

/-! ## The words of a handle register (R40, R163) -/

/-- A word of a handle as its register keeps it: the reserved bits of the format words 12 to 15 read zero (R40). -/
def keptWord (j : Nat) (v : Word) : Word := if 12 ≤ j then v &&& 0x00FFF770 else v

/-- The mask of `hStored`, word by word. -/
theorem hWord_storedMask : ∀ j : Fin 16,
    hWord (hStored (BitVec.allOnes 512)) j.val = if 12 ≤ j.val then 0x00FFF770 else BitVec.allOnes 32 := by
  decide +kernel

/-- Storing a value keeps each of its words but for the reserved bits of the format words. -/
theorem hWord_hStored (x : BitVec 512) {j : Nat} (hj : j < 16) : hWord (hStored x) j = keptWord j (hWord x j) := by
  have hm := hWord_storedMask ⟨j, hj⟩
  unfold hWord hStored at *
  rw [BitVec.allOnes_and] at hm
  rw [BitVec.extractLsb'_and, hm, keptWord]
  split
  · rfl
  · exact BitVec.and_allOnes

/-- A handle with the word `w` in place of its word `k`, as `hset` computes it. -/
def hPutWord (x : BitVec 512) (k : Nat) (w : Word) : BitVec 512 :=
  (x &&& ~~~(0xFFFFFFFF#512 <<< (32 * k))) ||| (w.setWidth 512 <<< (32 * k))

/-- The mask of one word has the low 32 bits. -/
theorem getLsbD_lowWord (i : Nat) : (0xFFFFFFFF#512).getLsbD i = decide (i < 32) := by
  rw [BitVec.getLsbD_ofNat, show (0xFFFFFFFF : Nat) = 2 ^ 32 - 1 from rfl, Nat.testBit_two_pow_sub_one]
  grind

/-- The bits of a handle with a word replaced: those of the word at its place, the others as before. -/
theorem getLsbD_hPutWord (x : BitVec 512) (k : Nat) (w : Word) {n : Nat} (hn : n < 512) :
    (hPutWord x k w).getLsbD n = if 32 * k ≤ n ∧ n < 32 * k + 32 then w.getLsbD (n - 32 * k) else x.getLsbD n := by
  simp only [hPutWord, BitVec.getLsbD_or, BitVec.getLsbD_and, BitVec.getLsbD_not, BitVec.getLsbD_shiftLeft,
    BitVec.getLsbD_setWidth, getLsbD_lowWord, hn, show n - 32 * k < 512 by omega, decide_true, Bool.true_and]
  by_cases hlow : n < 32 * k
  · rw [if_neg (by omega), decide_eq_true hlow]
    simp only [Bool.not_true, Bool.false_and, Bool.not_false, Bool.and_true, Bool.or_false]
  · rw [decide_eq_false hlow]
    by_cases hhigh : n - 32 * k < 32
    · rw [if_pos (by omega), decide_eq_true hhigh]
      simp only [Bool.not_false, Bool.true_and, Bool.not_true, Bool.and_false, Bool.false_or]
    · rw [if_neg (by omega), decide_eq_false hhigh, BitVec.getLsbD_of_ge w _ (by omega)]
      simp only [Bool.not_false, Bool.and_false, Bool.and_true, Bool.or_false]

theorem hWord_hPutWord (x : BitVec 512) (w : Word) {j k : Nat} (hj : j < 16) :
    hWord (hPutWord x k w) j = if j = k then w else hWord x j := by
  apply BitVec.eq_of_getLsbD_eq
  intro i hi
  rw [hWord, BitVec.getLsbD_extractLsb', decide_eq_true hi, Bool.true_and, getLsbD_hPutWord x k w (by omega)]
  by_cases hjk : j = k
  · rw [if_pos hjk, if_pos (by omega), show 32 * j + i - 32 * k = i by omega]
  · rw [if_neg hjk, if_neg (by omega), hWord, BitVec.getLsbD_extractLsb', decide_eq_true hi, Bool.true_and]

/-! ## The bytes of a handle -/

theorem leNat_append (a b : List Byte) : leNat (a ++ b) = leNat a + 256 ^ a.length * leNat b := by
  induction a with
  | nil => simp [leNat]
  | cons x a ih =>
    rw [List.cons_append, leNat, leNat, ih, List.length_cons, Nat.pow_succ, Nat.mul_add, Nat.mul_comm (256 ^ a.length) 256,
      Nat.mul_assoc, Nat.add_assoc]

/-- A field of a byte string is the digits of its value from that place. -/
theorem bytesAt_eq (bs : List Byte) {off n : Nat} (h : off + n ≤ bs.length) :
    bytesAt bs off n = leNat bs / 256 ^ off % 256 ^ n := by
  have hsplit : bs = bs.take off ++ ((bs.drop off).take n ++ bs.drop (off + n)) := by
    rw [← List.drop_drop, List.take_append_drop, List.take_append_drop]
  have hlow := leNat_lt (bs.take off)
  have hmid := leNat_lt ((bs.drop off).take n)
  have hv := congrArg leNat hsplit
  have hl1 : (bs.take off).length = off := by simp; omega
  have hl2 : ((bs.drop off).take n).length = n := by simp; omega
  rw [hl1] at hlow
  rw [hl2] at hmid
  rw [leNat_append, leNat_append, hl1, hl2] at hv
  rw [hv, Nat.add_mul_div_left _ _ (Nat.pow_pos (by decide)), Nat.div_eq_of_lt hlow, Nat.zero_add, Nat.add_mul_mod_self_left,
    Nat.mod_eq_of_lt hmid, bytesAt]

/-- A handle's words are those of its 64 bytes. -/
theorem hWord_ofBytes {bs : List Byte} {j : Nat} (hl : bs.length = 64) (hj : j < 16) :
    hWord (.ofNat 512 (leNat bs)) j = .ofNat 32 (bytesAt bs (4 * j) 4) := by
  have hpow : 256 ^ (4 * j) = 2 ^ (32 * j) := (Nat.pow_mul 2 8 (4 * j)).symm.trans (congrArg (2 ^ ·) (by omega))
  have hbytes : bytesAt bs (4 * j) 4 = leNat bs / 2 ^ (32 * j) % 2 ^ 32 :=
    (bytesAt_eq bs (by omega)).trans (congrArg (leNat bs / · % 2 ^ 32) hpow)
  apply BitVec.eq_of_getLsbD_eq
  intro i hi
  have hin : i + 32 * j < 512 := by omega
  simp only [hWord, hbytes, BitVec.getLsbD_extractLsb', BitVec.getLsbD_ofNat, Nat.testBit_mod_two_pow,
    Nat.testBit_div_two_pow, hi, hin, decide_true, Bool.true_and, Nat.add_comm (32 * j) i]

/-! ## The words on handle registers (R162, R163) -/

section
variable {m : Bool} {h : HReg} {d a b : VReg} {k w : Word} {s : State} {r : GRef} {g : Group}

theorem exec_hset : exec (.hset m h a b) s = execHset m h a b s := rfl
theorem exec_hget : exec (.hget m d h b) s = execHget m d h b s := rfl
theorem exec_hchk : exec (.hchk m d h) s = execHchk m d h s := rfl

theorem someOn_of_ons (ho : g.ons ≠ []) : g.someOn = true := by simpa [Group.someOn] using ho

theorem begun_uniform (ha : g.actives ≠ []) (h : g.reads a k) : g.begun.uniform a = .ok k :=
  Group.uniform_of_reads (g := g.begun) ha h

/-- A word that may issue with any role, and neither returns nor is collective, passes the checks before its effect. -/
theorem passes_once (once : Group → Bool) : Issue.Passes { s := m, once := once } g := ⟨by simp, rfl, by simp⟩

/-- No flag is raised when every execution raises none. -/
theorem raisedBy_none (on : Nat → Bool) : raisedBy on (fun _ => 0) = 0 := by
  have h (l : List Nat) : (l.map fun _ => (0 : Word)).foldl (· ||| ·) 0 = 0 := by
    induction l with
    | nil => rfl
    | cons f l ih => simpa using ih
  exact h _

/-- Writing a value of shape U is what R86 and R88 ask of a result that raises no flag. -/
theorem putU_wrote (hz : g.sized = true) (ho : g.ons ≠ []) (d : VReg) (w : Word) :
    Wrote g (g.begun.putU d w) g.on d (fun _ => w) 0 := by
  obtain ⟨hv, hvDue, hvSized, hvDueSized, -⟩ := sized_parts hz
  have hput : g.begun.putU d w = g.begun.store d 0 g.on fun _ => w := by simp [Group.putU, ho]
  have hany : fibres.any g.on = true := by simp [any_on, ho]
  rw [hput]
  exact ⟨viewWrote_modify hv hvSized rfl (Nat.zero_le _) (fun _ => hany) (by simp),
    viewWrote_modify hvDue hvDueSized (due_rank hz d) (Nat.zero_le _) (fun _ => hany) (by simp), by simp [Group.store, Group.begun]⟩

/-- A word that acts once and whose effect writes `w` with shape U to v register `d` completes with it. -/
theorem writes_of_putU {i : Instr} {f : Group → Except Stop Group} (ht : Turn s r g) (ho : g.ons ≠ [])
    (hi : exec i s = runGroup i { s := m, once := Group.someOn } f s) (hf : f g.begun = .ok (g.begun.putU d w)) :
    Writes i m s r g d 0 (fun _ => (w, 0)) := fun _ =>
  ⟨_, runGroup_completes ht (passes_once _) (someOn_of_ons ho) rfl rfl hi hf,
    by rw [raisedBy_none]; exact putU_wrote ht.sized ho d w⟩

theorem hset_completes (ht : Turn s r g) (ho : g.ons ≠ []) (ha : g.reads a k) (hb : g.reads b w) (hk : k.toNat < 16) :
    Completes (.hset m h a b) m s r g (g.begun.putH h (hPutWord (g.hreg h) k.toNat w)) := by
  refine runGroup_completes ht (passes_once _) (someOn_of_ons ho) rfl rfl exec_hset ?_
  simp [begun_uniform ht.active ha, begun_uniform ht.active hb, bind, Except.bind, check, hk, pure, Except.pure, hPutWord]

theorem hget_writes (ht : Turn s r g) (ho : g.ons ≠ []) (hb : g.reads b k) (hk : k.toNat < 16) :
    Writes (.hget m d h b) m s r g d 0 (fun _ => (hWord (g.hreg h) k.toNat, 0)) := by
  refine writes_of_putU ht ho exec_hget ?_
  simp [begun_uniform ht.active hb, bind, Except.bind, check, hk, pure, Except.pure]

theorem hchk_writes (ht : Turn s r g) (ho : g.ons ≠ []) :
    Writes (.hchk m d h) m s r g d 0 (fun _ => (.ofNat 32 (handleOf (g.hreg h)).check, 0)) :=
  writes_of_putU ht ho exec_hchk rfl

/-- A word that touches nothing but its group, whose effect raises `protection`, takes that trap (R327). -/
theorem runGroup_protects {i : Instr} {q : Issue} {f : Group → Except Stop Group} {sub : Nat} (ht : Turn s r g) (hp : q.Passes g)
    (ho : q.once g = true) (hs : q.syncs = false) (hu : g.priv = false) (hsub : sub < 24)
    (hi : exec i s = runGroup i q f s) (he : f g.begun = protect sub) :
    Traps i s r g .protection sub (wordVal i) := by
  have hw (v : DWord) : (⟨.protection, sub, v⟩ : Trap).walked = false := by simp [Trap.walked]; omega
  unfold Traps
  rw [hi, runGroup, runWord_trap ht hp ho (by simp [hs]) hu hw (tv := none)]
  · rfl
  · simp [hs, groupEffect, he, protect, bind, Except.bind]

theorem hset_beyond (ht : Turn s r g) (ho : g.ons ≠ []) (hu : g.priv = false) (hk : 16 ≤ k.toNat) (ha : g.reads a k)
    (hb : g.reads b w) : Traps (.hset m h a b) s r g .protection 14 (wordVal (.hset m h a b)) := by
  refine runGroup_protects ht (passes_once _) (someOn_of_ons ho) rfl hu (by decide) exec_hset ?_
  simp [begun_uniform ht.active ha, begun_uniform ht.active hb, bind, Except.bind, check, Nat.not_lt.2 hk, protect]

theorem hget_beyond (ht : Turn s r g) (ho : g.ons ≠ []) (hu : g.priv = false) (hk : 16 ≤ k.toNat) (hb : g.reads b k) :
    Traps (.hget m d h b) s r g .protection 14 (wordVal (.hget m d h b)) := by
  refine runGroup_protects ht (passes_once _) (someOn_of_ons ho) rfl hu (by decide) exec_hget ?_
  simp [begun_uniform ht.active hb, bind, Except.bind, check, Nat.not_lt.2 hk, protect]

end

/-! ## Packages that differ in logical times alone (R238, R239, R355) -/

section
variable {s t u : State}

theorem sameButTimes_iff : SameButTimes t s ↔ t = { s with clocks := t.clocks, lines := t.lines, tdir := t.tdir } := by
  unfold SameButTimes
  constructor
  · intro h; rw [← h]
  · intro h; rw [h]

@[refl] theorem SameButTimes.refl (s : State) : SameButTimes s s := rfl
theorem SameButTimes.trans (h : SameButTimes u t) (h' : SameButTimes t s) : SameButTimes u s := by
  rw [sameButTimes_iff] at h h'
  rw [h, h']; rfl
theorem SameButTimes.mem_eq (h : SameButTimes t s) : t.mem = s.mem := (congrArg State.mem h :)
theorem SameButTimes.hostMem_eq (h : SameButTimes t s) : t.hostMem = s.hostMem := (congrArg State.hostMem h :)
theorem SameButTimes.grids_eq (h : SameButTimes t s) : t.grids = s.grids := (congrArg State.grids h :)

theorem SameButTimes.putBytes (h : SameButTimes t s) (l : Loc) (bs : List Byte) :
    SameButTimes (t.putBytes l bs) (s.putBytes l bs) := by
  rw [sameButTimes_iff] at h
  rw [h]
  cases l <;> rfl
theorem SameButTimes.unpoison (h : SameButTimes t s) (l : Loc) (gs : List Nat) :
    SameButTimes (t.unpoison l gs) (s.unpoison l gs) := by
  rw [sameButTimes_iff] at h
  rw [h]
  cases l <;> rfl

theorem setGroup_modGroup (s : State) (r : GRef) (f : Group → Group) (g : Group) :
    (s.modGroup r f).setGroup r g = s.setGroup r g := by
  have hg (t : Team) : (t.modGroup r.slot f).modGroup r.slot (fun _ => g) = t.modGroup r.slot fun _ => g := by
    simp only [Team.modGroup, List.modify_modify_eq]; rfl
  simp only [State.setGroup, State.modGroup, State.modTeam, List.map_map]
  congr 1
  refine List.map_congr_left fun t _ => ?_
  by_cases h : t.tid = r.tid <;> simp [h, hg]

/-- A change of the group whose word completes is lost with its replacement. -/
theorem SameButTimes.of_modGroup {r : GRef} {f : Group → Group} (h : SameButTimes t (s.modGroup r f)) :
    ∃ t', SameButTimes t' s ∧ ∀ g, t.setGroup r g = t'.setGroup r g := by
  rw [sameButTimes_iff] at h
  refine ⟨{ s with clocks := t.clocks, lines := t.lines, tdir := t.tdir }, rfl, fun g => ?_⟩
  rw [h]
  exact setGroup_modGroup { s with clocks := t.clocks, lines := t.lines, tdir := t.tdir } r f g

/-! ## The place of an access (R239, R370) -/

/-- A visitor that meets no recording: none of its accesses is an event, and it races with nobody. -/
def Visitor.Unlisted (v : Visitor) : Prop := v.recorded = false ∧ (v.party = none ∨ v.ctx.recMode ≠ 1)

theorem shareWalk_same (s : State) (c : Context) (core : Nat) (va : DWord) : SameButTimes (s.shareWalk c core va) s := by
  unfold State.shareWalk
  split <;> rfl
theorem order_same (s : State) (ctx core : Nat) (space : Option Nat) (line : Nat) (wr : Bool) :
    SameButTimes (s.order ctx core space line wr) s := by
  unfold State.order
  split <;> rfl

/-- An access of such a visitor to a line takes its logical time and leaves no event. -/
theorem visit_unlisted {v : Visitor} (hv : v.Unlisted) (s : State) (met : Nat) (space : Option Nat) (line : Nat) (wr : Bool)
    (mask : Nat) (addr : DWord) :
    ∃ t, s.visit v met space line wr mask addr = (t, []) ∧ SameButTimes t s := by
  obtain ⟨hrec, hparty⟩ := hv
  have hwalk : SameButTimes (if space.isNone then s.shareWalk v.ctx v.core addr else s) s := by
    split
    · exact shareWalk_same ..
    · rfl
  have hraces (u : State) (p : Party) (h : v.ctx.recMode ≠ 1) : u.races v p met space line wr mask = false := by
    simp [State.races, h]
  refine ⟨_, ?_, (order_same _ v.ctx.num v.core space line wr).trans hwalk⟩
  cases hp : v.party with
  | none => simp [State.visit, hp, hrec]
  | some p =>
    have hm : v.ctx.recMode ≠ 1 := by simpa [hp] using hparty
    simp [State.visit, hp, hrec, hraces _ _ hm, State.noted, hm]

theorem visitAll_unlisted {v : Visitor} (hv : v.Unlisted) (s : State) (space : Option Nat) (xs : List Run) (wr : Bool)
    (half : Option Bool) :
    ∃ t, s.visitAll v space xs wr half = (t, []) ∧ SameButTimes t s := by
  unfold State.visitAll
  generalize (xs.map fun x => x.at_ / 128).eraseDups = lines
  induction lines generalizing s with
  | nil => exact ⟨s, rfl, rfl⟩
  | cons line lines ih =>
    obtain ⟨t, ht, hts⟩ := visit_unlisted hv s 0 space line wr _ _
    obtain ⟨u, hu, hut⟩ := ih t
    refine ⟨u, ?_, hut.trans hts⟩
    rw [List.foldl_cons, ← hu]
    simp only [List.length_nil]
    rw [ht]
    rfl

end

/-! ## Where an access is performed (R345 to R347) -/

section
variable {s : State} {r : GRef} {g : Group} {k : AccKind} {va : DWord} {loc : Loc} {l : Leaf}

/-- What passes a check is no error. -/
theorem ok_of_guard {ε α : Type} {p : Prop} [Decidable p] {e : ε} {x : Except ε α} {y : α}
    (h : (if p then .error e else x) = .ok y) : ¬ p ∧ x = .ok y := by
  by_cases hp : p
  · rw [if_pos hp] at h; cases h
  · rw [if_neg hp] at h; exact ⟨hp, h⟩

/-- A leaf names a page of its level's size, and the frame of one whose bytes the package holds is aligned to it (R345). -/
theorem leafOf_frame {e : DWord} {bits entry : Nat} (h : s.leafOf e bits entry = .ok l) :
    l.bits = bits ∧ (l.own < 2 → l.frame % 2 ^ bits = 0) := by
  unfold State.leafOf at h
  dsimp only at h
  obtain ⟨-, h⟩ := ok_of_guard h
  obtain ⟨hok, h⟩ := ok_of_guard h
  cases h
  refine ⟨rfl, fun hown => ?_⟩
  dsimp only at hown ⊢
  have h01 : efld e 62 2 = 0 ∨ efld e 62 2 = 1 := by omega
  rcases h01 with h0 | h0
  · simp only [h0, Bool.or_eq_true, not_or, Bool.not_eq_true', Bool.not_eq_false, Bool.and_eq_true, beq_iff_eq] at hok
    obtain ⟨-, hframe, -⟩ := hok
    exact hframe
  · simp only [h0, Bool.or_eq_true, not_or, Bool.not_eq_true', Bool.not_eq_false, beq_iff_eq] at hok
    exact hok.2

/-- A walk ends at a leaf of one of the two page sizes (R344). -/
theorem walk_leaf {root : Nat} (h : s.walk root va = .ok l) :
    ∃ e bits entry, (bits = 16 ∨ bits = 25) ∧ s.leafOf e bits entry = .ok l := by
  unfold State.walk at h
  simp only [bind, Except.bind] at h
  split at h
  · cases h
  split at h
  · cases h
  split at h
  · exact ⟨_, _, _, .inr rfl, h⟩
  split at h
  · cases h
  · exact ⟨_, _, _, .inl rfl, h⟩

theorem translate_walk {c : Context} (h : s.translate c va k = .ok l) : s.walk c.l0 va = .ok l := by
  unfold State.translate at h
  split at h
  · cases h
  · cases h
  · next hw =>
    obtain ⟨-, h⟩ := ok_of_guard h
    obtain ⟨-, h⟩ := ok_of_guard h
    obtain ⟨-, h⟩ := ok_of_guard h
    cases h
    exact hw

theorem home_here (h : l.home va = .here loc) : l.own < 2 ∧ loc.addr = l.frame + vaNat va % 2 ^ l.bits := by
  unfold Leaf.home at h
  dsimp only at h
  split at h
  · next h0 => cases h; exact ⟨by omega, rfl⟩
  · next h1 =>
    split at h
    · cases h
    · cases h; exact ⟨by omega, rfl⟩
  · cases h

/-- The place of an aligned access is aligned, since pages are (R345). -/
theorem Reaches.addr_aligned {n : Nat} (h : Reaches s r k n va loc) (hn : n ∣ 2 ^ 16) : loc.addr % n = 0 := by
  obtain ⟨l, hl, hhome, -⟩ := h.leaf
  obtain ⟨hown, haddr⟩ := home_here hhome
  obtain ⟨e, bits, entry, hbits, hleaf⟩ := walk_leaf (translate_walk hl)
  obtain ⟨rfl, hframe⟩ := leafOf_frame hleaf
  have hpage : n ∣ 2 ^ l.bits := Nat.dvd_trans hn (Nat.pow_dvd_pow 2 (by omega))
  have hspace : n ∣ 2 ^ 56 := Nat.dvd_trans hn (Nat.pow_dvd_pow 2 (by omega))
  have hva : n ∣ vaNat va % 2 ^ l.bits :=
    (Nat.dvd_mod_iff hpage).2 ((Nat.dvd_mod_iff hspace).2 (Nat.dvd_of_mod_eq_zero h.aligned))
  rw [haddr]
  exact Nat.mod_eq_zero_of_dvd (Nat.dvd_add (Nat.dvd_trans hpage (Nat.dvd_of_mod_eq_zero (hframe hown))) hva)

theorem granules_aligned {a : Nat} (h : a % 64 = 0) : granules a 64 = [a / 64] := by
  have : (a + 64 + 63) / 64 - a / 64 = 1 := by omega
  simp [granules, this]

/-! ## A plain access whose bytes the package holds (R138, R326 rows 7 and 8) -/

/-- The checks before an access that reaches its bytes pass, nothing is asked of an owner, and it is performed at its place. -/
theorem globalSites_here {a : Acc} {align : Nat} (hr : Reaches s r k align a.addr loc) (ho : g.fwdOpen = [])
    (hp : badGranule (s.poisonOf loc) (k == .write) [(loc.addr, a.n)] loc.addr a.n = none)
    (hu : k ≠ .read → s.inUse loc a.n (some r) = false) :
    s.globalSites r g k align [a] = .ok [(a, .loc loc)] := by
  obtain ⟨l, hl, hhome, hfrozen⟩ := hr.leaf
  have hls : s.translateAll (s.ctxOf (s.teamOf r)) k [a] = .ok [(a, l)] := by
    simp [State.translateAll, hl, bind, Except.bind, pure, Except.pure]
  have hfar : farAccs [(a, l)] = [] := by simp [farAccs, hhome]
  have hasks : farAsks k [(a, l)] = [] := by simp [farAsks, hfar, sortBy]
  have hstop : farStop k [(a, l)] [] = none := by simp [farStop, hfar]
  have hfree : ¬ (¬ k = .read ∧ s.inUse loc a.n (some r) = true) := fun ⟨hk, h⟩ => by simp [hu hk] at h
  have hheld := hr.held
  unfold State.globalSites
  cases loc <;>
    simp [checkEach, hr.canon, hr.aligned, hls, ho, hfrozen, hhome, hasks, hstop, hheld, hfree, localSpans, Loc.addr,
      bind, Except.bind, pure, Except.pure] at hp ⊢ <;>
    simp [hp]

end

section
variable {s t : State} {r : GRef} {g : Group} {k : AccKind} {loc : Loc}

/-- What an access leaves at a place of the package: bytes written and the marks of their granules cleared, or nothing (R393). -/
def State.written (s : State) (l : Loc) : Option (List Byte) → State
  | some bs => (s.putBytes l bs).unpoison l (granules l.addr bs.length)
  | none => s

theorem SameButTimes.written (h : SameButTimes t s) (l : Loc) (new : Option (List Byte)) :
    SameButTimes (t.written l new) (s.written l new) := by
  cases new with
  | none => exact h
  | some bs => exact (h.putBytes l bs).unpoison l _

theorem written_modGroup (f : Group → Group) (l : Loc) (new : Option (List Byte)) :
    (s.modGroup r f).written l new = (s.written l new).modGroup r f := by
  cases new with
  | none => rfl
  | some bs => cases l <;> rfl

theorem written_grids (l : Loc) (new : Option (List Byte)) : (s.written l new).grids = s.grids := by
  cases new with
  | none => rfl
  | some bs => cases l <;> rfl

/-- One access at a place of the package by an actor that meets no recording reads the bytes there, and leaves what it writes but
for the logical times. -/
theorem perform_here {v : Actor} {a : Acc} (hrec : v.recorded = false) (hv : v.plain = false ∨ v.ctx.recMode ≠ 1) (s : State) :
    ∃ t, v.perform [(a, .loc loc)] s = (t, [s.bytesAtLoc loc a.n], []) ∧
      SameButTimes t (s.written loc (a.upd (s.bytesAtLoc loc a.n))) := by
  have hw : Visitor.Unlisted ⟨v.ctx, v.tm.core, if v.plain then some (v.tm.party v.slot a.fib false) else none, v.recorded,
      v.before⟩ := ⟨hrec, hv.imp (by simp +contextual) id⟩
  unfold Actor.perform
  dsimp only [State.siteBytes, Actor.perform]
  generalize hvisit : s.visitAll _ none _ _ _ = p
  obtain ⟨u, rfl, hus⟩ : ∃ u, p = (u, []) ∧ SameButTimes u s := by
    rw [← hvisit]
    exact visitAll_unlisted hw s none _ _ _
  refine ⟨u.written loc (a.upd (s.bytesAtLoc loc a.n)), ?_, hus.written loc _⟩
  cases a.upd (s.bytesAtLoc loc a.n) <;> rfl

theorem actor_unlisted (hq : Quiet s r g) (swz : Nat) (w : Writer) :
    (s.actor r (!g.priv) swz w).plain = false ∨ (s.actor r (!g.priv) swz w).ctx.recMode ≠ 1 :=
  hq.imp (fun h => by simp [State.actor, h]) id

/-- Races are what a group's instruction may have to record: with none it goes on (R370). -/
theorem gateGroup_none (s0 : State) (c : Context) (priv : Bool) : s0.gateGroup t c priv [] = .ok t := by
  cases priv <;> rfl

theorem armWrites_unstaged {c : Context} (h : Unstaged s c) (ws : List (DWord × Nat)) : s.armWrites c ws = s := by
  have hnone : s.stagingGrids c = [] := by
    simp only [State.stagingGrids, List.filter_eq_nil_iff]
    intro x hx hc
    simp only [Bool.and_eq_true, beq_iff_eq, Bool.not_eq_true', bne_iff_ne] at hc
    obtain ⟨⟨hctx, hlive⟩, hstage⟩ := hc
    exact hstage (h x hx hctx hlive)
  simp [State.armWrites, hnone]

theorem Unstaged.same {c : Context} (h : Unstaged s c) (hg : t.grids = s.grids) : Unstaged t c := by
  unfold Unstaged
  rw [hg]
  exact h

/-- A plain access whose checks pass is performed where its bytes are: its group is about to be replaced, and beside it the package
is as the access leaves it but for the logical times. -/
theorem globalAccess_here {a : Acc} {align : Nat} (hr : Reaches s r k align a.addr loc) (ho : g.fwdOpen = []) (hq : Quiet s r g)
    (hp : badGranule (s.poisonOf loc) (k == .write) [(loc.addr, a.n)] loc.addr a.n = none)
    (hu : k ≠ .read → s.inUse loc a.n (some r) = false) (ha : k = .write → Unarmed s r) :
    ∃ t t', s.globalAccess r g k align [a] = .ok (t, [s.bytesAtLoc loc a.n]) ∧
      SameButTimes t' (s.written loc (a.upd (s.bytesAtLoc loc a.n))) ∧ ∀ g', t.setGroup r g' = t'.setGroup r g' := by
  obtain ⟨t, ht, hts⟩ := perform_here (v := s.actor r (!g.priv) 0 none) (a := a) (loc := loc) rfl
    (actor_unlisted hq 0 none) (s.modGroup r fun x => { x with owed := 0 })
  have hb : (s.modGroup r fun x => { x with owed := 0 }).bytesAtLoc loc a.n = s.bytesAtLoc loc a.n := by cases loc <;> rfl
  rw [hb] at ht hts
  rw [written_modGroup] at hts
  have harm : (if k == .write then t.armedBy (s.actor r (!g.priv) 0 none).ctx [a] else t) = t := by
    split
    · next hk =>
      have hgrids : t.grids = s.grids := hts.grids_eq.trans (written_grids ..)
      exact armWrites_unstaged (Unstaged.same (ha (by simpa using hk)) hgrids) _
    · rfl
  obtain ⟨t', hsame, hset⟩ := hts.of_modGroup
  refine ⟨t, t', ?_, hsame, hset⟩
  simp only [State.globalAccess, globalSites_here hr ho hp hu, bind, Except.bind, ht, harm, gateGroup_none, pure, Except.pure]

/-- What no access was translated through is free for any group (R356). -/
theorem inUse_other {n : Nat} (h : s.inUse loc n = false) (me : GRef) : s.inUse loc n (some me) = false := by
  cases loc with
  | host a => rfl
  | dev a =>
    simp only [State.inUse, Bool.or_eq_false_iff, List.any_eq_false, Bool.and_eq_true, not_and] at h ⊢
    refine ⟨h.1, fun x hx hkept => h.2 x hx ?_⟩
    unfold State.keptBy at hkept ⊢
    split
    · next hwho => simp [hwho] at hkept; simp [hkept]
    · next hwho => simp at hkept

/-- Bytes that fill an aligned granule cover its poison (R393). -/
theorem badGranule_covered (poison : List Nat) {a : Nat} (h : a % 64 = 0) : badGranule poison true [(a, 64)] a 64 = none := by
  have hcover : coversGranule [(a, 64)] (a / 64) = true := by
    simp only [coversGranule, List.all_eq_true, List.mem_range, List.any_cons, List.any_nil, Bool.or_false, Bool.and_eq_true,
      decide_eq_true_eq]
    omega
  simp [badGranule, granules_aligned h, hcover]

theorem lookup_putCell_ne (cs : List Host.Cell) (b : Byte) {a x : Nat} (h : x ≠ a) :
    (putCell cs a b).lookup x = cs.lookup x := by
  have hx : (x == a) = false := by simp [h]
  induction cs with
  | nil =>
    unfold putCell
    split
    · rfl
    · rw [List.lookup_cons, hx]
  | cons c cs ih =>
    obtain ⟨y, z⟩ := c
    unfold putCell
    by_cases hlt : a < y
    · rw [if_pos hlt]
      split
      · rfl
      · rw [List.lookup_cons, hx]
    · rw [if_neg hlt]
      by_cases heq : a = y
      · have hxy : (x == y) = false := heq ▸ hx
        rw [if_pos heq, List.lookup_cons, hxy]
        split
        · rfl
        · rw [List.lookup_cons, hx]
      · rw [if_neg heq, List.lookup_cons, List.lookup_cons, ih]

/-- A write leaves every byte beside it, in whatever form the store is. -/
theorem get_write_beside (mem : Memory) (bs : List Byte) {a x : Nat} (h : x < a ∨ a + bs.length ≤ x) :
    (mem.write a bs).get x = mem.get x := by
  induction bs generalizing mem a with
  | nil => rfl
  | cons b bs ih =>
    simp only [List.length_cons] at h
    rw [Memory.write, ih _ (by omega)]
    exact congrArg (·.getD 0) (lookup_putCell_ne mem.cells b (a := a) (x := x) (by omega))

theorem unpoison_mem (l : Loc) (gs : List Nat) : (s.unpoison l gs).mem = s.mem ∧ (s.unpoison l gs).hostMem = s.hostMem := by
  cases l <;> exact ⟨rfl, rfl⟩

/-- What is written at a place leaves every other byte. -/
theorem untouchedBut_putBytes {bs : List Byte} {n : Nat} (hn : bs.length = n)
    (hmem : t.mem = (s.putBytes loc bs).mem) (hhost : t.hostMem = (s.putBytes loc bs).hostMem) :
    UntouchedBut s t [0] (fun _ => loc) n := by
  rw [UntouchedBut, hmem, hhost]
  cases loc with
  | dev a => exact ⟨fun x hx => get_write_beside _ _ (by simpa [hn] using hx), fun _ _ => rfl⟩
  | host a => exact ⟨fun _ _ => rfl, fun x hx => get_write_beside _ _ (by simpa [hn] using hx)⟩

end

/-! ## HLD and HST (R163) -/

section
variable {m : Bool} {h : HReg} {a : VReg} {c : BReg} {w : Word} {s t t' : State} {r : GRef} {g g' : Group} {loc : Loc}

theorem exec_hld : exec (.hld m h a c) s = execHld m h a c s := rfl
theorem exec_hst : exec (.hst m h a c) s = execHst m h a c s := rfl

/-- A word whose effect answers a package that differs from `t'` in its own group alone completes and leaves `t'`. -/
theorem runWord_completesIn {i : Instr} {q : Issue} {eff : Effect} (ht : Turn s r g) (hp : q.Passes g) (ho : q.once g = true)
    (hs : q.syncs = false) (hm : q.s = m) (hi : exec i s = runWord i q eff s) (he : eff s r g.begun = .ok (t, g'))
    (hset : ∀ x, t.setGroup r x = t'.setGroup r x) : CompletesIn i m s t' r g g' := by
  unfold CompletesIn
  rw [hi, runWord_ok ht hp ho (by simp [hs]) (by simpa [hs] using he), retire_s, hm, hset]

theorem begun_haddr (ha : g.actives ≠ []) (hw : g.reads a w) : g.begun.haddr c a = .ok (g.breg c + w.signExtend 64) := by
  simp [Group.haddr, begun_uniform ha hw, bind, Except.bind, pure, Except.pure]

/-- When some active, guard-passing fibre is no helper, one fibre performs a uniform store. -/
theorem performers_uniform (h : g.someActs = true) : ∃ f, g.performers true true = [f] := by
  obtain ⟨f, hf, hh⟩ := List.any_eq_true.1 h
  obtain ⟨x, xs, hx⟩ := List.exists_cons_of_ne_nil (List.ne_nil_of_mem ((List.mem_filter (p := fun f => !g.isHelper f)).2 ⟨hf, hh⟩))
  exact ⟨x, by simp [Group.performers, hx]⟩

theorem hld_completes (ht : Turn s r g) (ho : g.ons ≠ []) (hpend : g.pend < 16) (hq : Quiet s r g) (hf : g.fwdOpen = [])
    (hw : g.reads a w) (hr : Reaches s r .read 64 (g.breg c + w.signExtend 64) loc) (hp : s.poisonedAt loc 64 = false) :
    ∃ t, CompletesIn (.hld m h a c) m s t r g
      { g.begun.pending with hDue := g.hDue.set h.val (hStored (.ofNat 512 (leNat (s.bytesAtLoc loc 64)))) } ∧
      SameButTimes t s := by
  have hclean : badGranule (s.poisonOf loc) false [(loc.addr, 64)] loc.addr 64 = none := by
    simpa [badGranule, State.poisonedAt] using hp
  obtain ⟨t, t', hacc, hsame, hset⟩ := globalAccess_here (g := g.begun)
    (a := .load (g.ons.headD 0) (g.breg c + w.signExtend 64) 64) hr hf hq hclean nofun nofun
  refine ⟨t', runWord_completesIn ht ⟨fun _ => hpend, rfl, by simp⟩ (someOn_of_ons ho) rfl rfl exec_hld ?_ hset, hsame⟩
  simp only [begun_haddr ht.active hw, begun_ons, hacc, bind, Except.bind, pure, Except.pure]
  rfl

theorem hst_completes (ht : Turn s r g) (hacts : g.someActs = true) (hq : Quiet s r g) (hu : Unarmed s r) (hf : g.fwdOpen = [])
    (hw : g.reads a w) (hr : Reaches s r .write 64 (g.breg c + w.signExtend 64) loc) (hfree : s.inUse loc 64 = false) :
    ∃ t, CompletesIn (.hst m h a c) m s t r g g.begun ∧
      SameButTimes t ((s.putBytes loc (hBytes (g.hreg h))).unpoison loc [loc.addr / 64]) := by
  have hlen : (hBytes (g.hreg h)).length = 64 := natLe_length ..
  have hal : loc.addr % 64 = 0 := hr.addr_aligned (by decide)
  obtain ⟨f, hperf⟩ := performers_uniform hacts
  obtain ⟨t, t', hacc, hsame, hset⟩ := globalAccess_here (g := g.begun)
    (a := .store f (g.breg c + w.signExtend 64) (hBytes (g.hreg h))) hr hf hq
    (by simpa [Acc.store, hlen] using badGranule_covered _ hal) (fun _ => by simpa [Acc.store, hlen] using inUse_other hfree r)
    (fun _ => hu)
  refine ⟨t', runWord_completesIn ht (passes_once _) hacts rfl rfl exec_hst ?_ hset, ?_⟩
  · have hperf' : g.begun.performers true true = [f] := hperf
    simp only [begun_haddr ht.active hw, hperf', begun_hreg, List.map_cons, List.map_nil, hacc, bind, Except.bind, pure, Except.pure]
  · simpa [State.written, Acc.store, hlen, granules_aligned hal] using hsame

end

/-- Settles O32: a handle register keeps sixteen words, of which the format words lose their reserved bits (`hWord_hStored`);
`hset` and `hld` give it such words, and `hst` is one store of an aligned granule, which covers its poison. -/
theorem handleRegisters : Obligations.HandleRegisters := by
  intro m h d a b c k w s r g ht ho
  refine ⟨fun ha hb hk => ⟨_, hset_completes ht ho ha hb hk, fun j hj => ?_⟩, fun hb hk => hget_writes ht ho hb hk,
    fun hu hk => ⟨fun ha hb => hset_beyond ht ho hu hk ha hb, fun hb => hget_beyond ht ho hu hk hb⟩, hchk_writes ht ho,
    fun loc hpend hq hf hw hr hp => ?_, fun loc hacts hq hu hf hw hr hfree => ?_⟩
  · exact (hWord_hStored _ hj).trans (congrArg (keptWord j) (hWord_hPutWord _ _ hj))
  · obtain ⟨t, hdone, hsame⟩ := hld_completes ht ho hpend hq hf hw hr hp
    have hlen : (s.bytesAtLoc loc 64).length = 64 := by cases loc <;> exact read_length ..
    exact ⟨t, _, hdone, hsame, fun j hj => (hWord_hStored _ hj).trans (congrArg (keptWord j) (hWord_ofBytes hlen hj))⟩
  · obtain ⟨t, hdone, hsame⟩ := hst_completes ht hacts hq hu hf hw hr hfree
    obtain ⟨hmem, hhost⟩ := unpoison_mem (s := s.putBytes loc (hBytes (g.hreg h))) loc [loc.addr / 64]
    exact ⟨t, hdone, hsame, untouchedBut_putBytes (natLe_length ..) (hsame.mem_eq.trans hmem) (hsame.hostMem_eq.trans hhost)⟩

end Sys2Proof.Machine
